-- ==== Sys2Proof/Word.lean ====
section
/-! DEFINITION. The word types of the device and the place of a register field. -/

namespace Sys2Proof

/-- A register word of BAR0 (R56): 32 bits. -/
abbrev W32 := BitVec 32

/-- One octet. -/
abbrev Octet := BitVec 8

/-- The place of a register field: the BAR0 address of its register, its lowest bit and its width. -/
structure Fld where
  a : Nat
  lo : Nat
  w : Nat
  deriving DecidableEq, Repr

/-- A field lies in its word. -/
def Fld.ok (f : Fld) : Prop := f.lo + f.w ≤ 32

/-- Two fields have no bit in common. -/
def Fld.apart (f g : Fld) : Prop := f.a ≠ g.a ∨ f.lo + f.w ≤ g.lo ∨ g.lo + g.w ≤ f.lo

end Sys2Proof
end

