-- ==== Sys2Proof/Config.lean ====
section
/-! DEFINITION. What an implementation or a unit fixes and the spec does not: opaque constants, of which nothing can be
proved but that they have a value. -/

namespace Sys2Proof.Config

/-- Free values: what the spec leaves open, one per place of `State.freeCtr` (log entry 5). -/
opaque free : Nat → Nat

/-- _VER.HW of a block, by its number in R54's order (log entry 6). -/
opaque hwRevision : Nat → BitVec 16

/-- _CAP.BLOCK of a block: capability bits the spec does not define (log entry 6). -/
opaque capability : Nat → BitVec 27

/-- RFn_PTAB: the factory power table of chain n, entry i (log entry 6). -/
opaque factoryPower : Nat → Nat → BitVec 32

/-- FLOOD_SEQ at reset: a random draw (R273, log entry 5). -/
opaque floodSeed : BitVec 16

/-- The length of a crystal period as last measured when the reference is lost, in 2^-40 ns (R127, log entry 5). -/
opaque crystalTick : Nat → BitVec 104

/-- The hash functions h1 and h2 of the node directory under a key, and the 11-bit fingerprint of an EUI (R328, R329, log entry 6). -/
opaque dirHash1 : Nat → BitVec 64 → BitVec 18
opaque dirHash2 : Nat → BitVec 64 → BitVec 18
opaque dirTag : BitVec 64 → BitVec 11

/-- The pilot sequence of an option at a symbol index and a place, and the quarter turns of a repeated subcarrier: the standard's alone
(R227, R229, log entry 6). -/
opaque pilotSign : Nat → Nat → Nat → Bool
opaque spreadTurn : Nat → Nat → Nat

/-- The fixed group delay of a mode in 2^-40 ns (R134, log entry 6). -/
opaque groupDelay : Nat → Nat

/-- Does a higher REF_TUNE code raise the reference's frequency (R178, log entry 6)? -/
opaque refTuneRaises : Bool

/-- The device root secret in fuses (R461, log entry 6). -/
opaque rootSecret : BitVec 256

/-- STARTER_UID0 to UID3 (R463, log entry 6). -/
opaque uid : BitVec 128

/-- The random octets of the fuse rows blown before the device left manufacture, by state code (R464, log entry 6). -/
opaque fuseRow : Nat → BitVec 128

/-- The set of the derived-key cache for an EUI: a keyed hash (R477, log entry 6). -/
opaque cacheSet : BitVec 64 → BitVec 10

/-- The device's own EUI-64 and the vendor's OUI in its beacons, and the router ID of a sender's EUI-64: no register or rule gives them
(R254, R259, R261, log entry 77). -/
opaque ownEui : BitVec 64
opaque vendorOui : BitVec 24
opaque routerOf : BitVec 64 → BitVec 14

/-- The device's own router ID (R1): no register gives it (log entry 6). -/
opaque routerId : BitVec 14

/-- The two bucket numbers of a layer-2 key under a hash key, MAC and FID (R336, log entry 6). -/
opaque l2Hash1 : Nat → BitVec 48 → BitVec 12 → BitVec 14
opaque l2Hash2 : Nat → BitVec 48 → BitVec 12 → BitVec 14

/-- The octets of the boot NOR as the device came from the factory (R533, log entry 6). -/
opaque norFactory : Nat → BitVec 8

/-- SHA-384 of the update keys 0 to 3 and of the metrology signing key as fused (R528, R535, log entry 6). -/
opaque updateKey : Nat → BitVec 384
opaque metrologyKey : BitVec 384

/-- What is extended into MC5 for a life-cycle state and a debug-access state: the spec gives no octet format (R97, log entry 6). -/
opaque lifeMeasure : Nat → Bool → BitVec 384

/-- RET's label for the key of its seal, and the octets of a configuration copy under its epoch: the spec gives neither (R98, log entry 6). -/
opaque sealLabel : List Nat
opaque copyOctets : BitVec 32 → List (Nat × BitVec 32) → List Nat

end Sys2Proof.Config
end

