-- ==== Sys2Proof/Machine/Bits.lean ====
section
/-! DEFINITION. Bit fields of words, signed readings, and numbers as octets and words. -/

namespace Sys2Proof.Machine

/-- The field of width `w` at bit `lo` of a word. -/
def bitsGet (lo w : Nat) (v : W32) : Nat := (v.toNat >>> lo) % 2 ^ w

/-- The word with ones in a field. -/
def bitsMask (lo w : Nat) : W32 := BitVec.ofNat 32 (2 ^ w - 1) <<< lo

/-- The word with a field replaced (the value taken modulo the field's width). -/
def bitsSet (lo w x : Nat) (v : W32) : W32 :=
  (v &&& ~~~ bitsMask lo w) ||| (BitVec.ofNat 32 (x % 2 ^ w) <<< lo)

/-- Replace the bits of `v` under the mask by those of `x`. -/
def maskSet (m v x : W32) : W32 := (v &&& ~~~ m) ||| (x &&& m)

/-- Bit `i` of a number. -/
def natBit (x i : Nat) : Bool := (x >>> i) % 2 == 1

/-- A number of `w` bits read as two's complement. -/
def toSigned (w x : Nat) : Int := if x % 2 ^ w < 2 ^ (w - 1) then (x % 2 ^ w : Nat) else (x % 2 ^ w : Nat) - (2 ^ w : Nat)

/-- An integer as a number of `w` bits, two's complement. -/
def ofSigned (w : Nat) (x : Int) : Nat := (x % (2 ^ w : Nat)).toNat

/-- Add one and stop at the largest number of `w` bits. -/
def satInc (w x : Nat) : Nat := if x + 1 < 2 ^ w then x + 1 else 2 ^ w - 1

/-- Bits `lo` to `lo + w - 1` of a number. -/
def natBits (x lo w : Nat) : Nat := (x >>> lo) % 2 ^ w

/-- The 1 bits among the low `n` bits of a number, ascending. -/
def bitList (x n : Nat) : List Nat := (List.range n).filter (natBit x)

/-- Octets, least significant first, as a number (R6 of the notation: little-endian). -/
def leNat : List Octet → Nat
  | [] => 0
  | b :: r => b.toNat + 256 * leNat r

/-- A number as `n` octets, least significant first. -/
def leOctets : Nat → Nat → List Octet
  | 0, _ => []
  | n + 1, x => BitVec.ofNat 8 x :: leOctets n (x / 256)

/-- Octets, most significant first, as a number. -/
def beNat (l : List Octet) : Nat := l.foldl (fun a b => a * 256 + b.toNat) 0

/-- A number as `n` octets, most significant first. -/
def beOctets (n x : Nat) : List Octet := (leOctets n x).reverse

/-- Words, least significant first, as a number. -/
def wordsNat : List W32 → Nat
  | [] => 0
  | w :: r => w.toNat + 2 ^ 32 * wordsNat r

/-- A number as `n` words, least significant first. -/
def natWords : Nat → Nat → List W32
  | 0, _ => []
  | n + 1, x => BitVec.ofNat 32 x :: natWords n (x / 2 ^ 32)

/-- Round a division up. -/
def ceilDiv (a b : Nat) : Nat := (a + b - 1) / b

/-- Element `i` of a list, or a default. -/
def nth {α : Type} (l : List α) (i : Nat) (d : α) : α := l.getD i d

/-- Octets, least significant first, as a number; and back. -/
def leNum : List Nat → Nat
  | [] => 0
  | b :: r => b + 256 * leNum r

def leList : Nat → Nat → List Nat
  | 0, _ => []
  | n + 1, x => x % 256 :: leList n (x / 256)

/-- `n` elements of a list from place `i`. -/
def slice {α : Type} (l : List α) (i n : Nat) : List α := (l.drop i).take n

end Sys2Proof.Machine
end

