-- ==== Sys2Proof/Agents.lean ====
section
/-! DEFINITION. Who acts on the device and on what: the masters that write registers, the blocks of R14 and R54, and the
kinds of fact about the outside world that a command carries. -/

namespace Sys2Proof

/-- A master that can write registers: the host over PCIe, the management SPI, or a control core (R64, R558, R573). -/
inductive Master where
  | host
  | spi
  | core (c : Fin 4)
  deriving DecidableEq, Repr

/-- The masters in the order of R309: 0 host, 1 management SPI, 2 to 5 control cores. -/
def Master.idx : Master → Nat
  | .host => 0
  | .spi => 1
  | .core c => 2 + c.val

/-- A block with a register page (R14, R54). -/
inductive Block where
  | sys | pwr | fab | ret | tamp | tb | trig
  | rf (n : Fin 4)
  | wb (n : Fin 4)
  | phy | mac | bcn | flood | peel | dir
  /-- 0 east, 1 west, 2 prefix -/
  | sieve (e : Fin 3)
  | port (p : Fin 10)
  /-- 0 common, 1 E, 2 W, 3 C -/
  | crust (x : Fin 4)
  | rack | starter | proof | fwu | host | crc | gpio
  deriving DecidableEq, Repr

/-- The place of the block in the order of R54; also the number of its interrupt source (R570). -/
def Block.id : Block → Nat
  | .sys => 0 | .pwr => 1 | .fab => 2 | .ret => 3 | .tamp => 4 | .tb => 5 | .trig => 6
  | .rf n => 7 + n.val
  | .wb n => 11 + n.val
  | .phy => 15 | .mac => 16 | .bcn => 17 | .flood => 18 | .peel => 19 | .dir => 20
  | .sieve e => 21 + e.val
  | .port p => 24 + p.val
  | .crust x => 34 + x.val
  | .rack => 38 | .starter => 39 | .proof => 40 | .fwu => 41 | .host => 42 | .crc => 43 | .gpio => 44

/-- The page base of R14. -/
def Block.base : Block → Nat
  | .sys => 0 | .pwr => 0x1000 | .fab => 0x2000 | .ret => 0x3000 | .tamp => 0x4000
  | .tb => 0x10000 | .trig => 0x11000
  | .rf n => 0x20000 + 0x1000 * n.val
  | .wb n => 0x24000 + 0x1000 * n.val
  | .phy => 0x28000 | .mac => 0x30000 | .bcn => 0x31000 | .flood => 0x32000 | .peel => 0x40000 | .dir => 0x50000
  | .sieve e => 0x51000 + 0x1000 * e.val
  | .port p => 0x60000 + 0x1000 * p.val
  | .crust x => 0x70000 + 0x1000 * x.val
  | .rack => 0x80000 | .starter => 0x90000 | .proof => 0xA0000 | .fwu => 0xB0000 | .host => 0xC0000
  | .crc => 0xD0000 | .gpio => 0xF0000

/-- Pages of 4 KiB the block uses (R54). -/
def Block.pages : Block → Nat
  | .trig => 2 | .peel => 4 | .rack => 2 | .host => 3 | .crc => 2
  | _ => 1

/-- The type code of R54. -/
def Block.typeCode : Block → Nat
  | .sys => 0x5359 | .pwr => 0x5057 | .fab => 0x4642 | .ret => 0x5254 | .tamp => 0x5441 | .tb => 0x5442 | .trig => 0x5452
  | .rf _ => 0x5246 | .wb _ => 0x5742 | .phy => 0x5048 | .mac => 0x4D41 | .bcn => 0x4243 | .flood => 0x464C
  | .peel => 0x5045 | .dir => 0x4449 | .sieve _ => 0x5356 | .port _ => 0x504F | .crust _ => 0x4352
  | .rack => 0x5241 | .starter => 0x5352 | .proof => 0x5052 | .fwu => 0x4655 | .host => 0x484F | .crc => 0x4343
  | .gpio => 0x4750

/-- The instance number of R54. -/
def Block.inst : Block → Nat
  | .rf n => n.val | .wb n => n.val | .sieve e => e.val | .port p => p.val | .crust x => x.val
  | _ => 0

/-- The row of R54's table the block stands in, from 0. -/
def Block.row : Block → Nat
  | .sys => 0 | .pwr => 1 | .fab => 2 | .ret => 3 | .tamp => 4 | .tb => 5 | .trig => 6 | .rf _ => 7 | .wb _ => 8
  | .phy => 9 | .mac => 10 | .bcn => 11 | .flood => 12 | .peel => 13 | .dir => 14 | .sieve _ => 15 | .port _ => 16
  | .crust _ => 17 | .rack => 18 | .starter => 19 | .proof => 20 | .fwu => 21 | .host => 22 | .crc => 23 | .gpio => 24

/-- The power domain of R14 and R20.  Of the three domains that R14 lists for the four Crust pages the common page takes PD5 (DESIGN CHOICE,
log entry 72). -/
def Block.domain : Block → Nat
  | .sys | .pwr | .ret | .tamp | .tb | .trig | .gpio => 0
  | .starter => 1
  | .proof => 2
  | .fab | .rack | .fwu | .crc => 3
  | .phy | .mac | .bcn | .flood | .peel | .dir => 4
  | .rf n | .wb n => if n.val < 2 then 10 else 11
  | .sieve e => 5 + e.val
  | .port p => if p.val < 2 then 8 else 9
  | .crust x => if x.val = 0 then 5 else 4 + x.val
  | .host => 13

/-- The stage groups of R35 a block owns.  Groups 48 to 51 are read in the order R35 names them (MAC, BCN, FLOOD, CCM* engine),
the CCM* engine going with MAC.  DEDUCED, log entry 4. -/
def Block.groups : Block → List Nat
  | .crust x => match x with
    | 0 => [] | 1 => [0, 1, 2, 3, 4, 5] | 2 => [8, 9, 10, 11, 12, 13] | 3 => [16, 17, 18, 19, 20, 21]
  | .sieve e => match e with
    | 0 => [6, 7] | 1 => [14, 15] | 2 => [22, 23]
  | .rack => [24, 25, 26, 27] | .peel => [28, 29, 30, 31] | .dir => [32, 33, 34, 35]
  | .wb n => [36 + 2 * n.val, 37 + 2 * n.val]
  | .phy => [44, 45, 46, 47]
  | .mac => [48, 51] | .bcn => [49] | .flood => [50]
  | .starter => [56] | .fwu => [57] | .crc => [58] | .host => [59]
  | _ => []

/-- All blocks, in the order of `Block.id`. -/
def Block.all : List Block :=
  [.sys, .pwr, .fab, .ret, .tamp, .tb, .trig, .rf 0, .rf 1, .rf 2, .rf 3, .wb 0, .wb 1, .wb 2, .wb 3, .phy, .mac, .bcn,
   .flood, .peel, .dir, .sieve 0, .sieve 1, .sieve 2, .port 0, .port 1, .port 2, .port 3, .port 4, .port 5, .port 6,
   .port 7, .port 8, .port 9] ++
  [.crust 0, .crust 1, .crust 2, .crust 3, .rack, .starter, .proof, .fwu, .host, .crc, .gpio]

end Sys2Proof
end

