-- ==== Sys2Proof/Machine/AMap.lean ====
section
/-! DEFINITION. Finite maps keyed by numbers, as plain data in one canonical form: keys strictly rising.  They hold the
sparse parts of the state (registers that differ from 0, table entries, queues by number). -/

namespace Sys2Proof.Machine

/-- A finite map from numbers: pairs in rising order of their keys. -/
abbrev AMap (α : Type) := List (Nat × α)

/-- The value at a key. -/
def mapGet {α : Type} (m : AMap α) (k : Nat) : Option α :=
  match m with
  | [] => none
  | (k', v) :: r => if k' = k then some v else mapGet r k

/-- The value at a key, or a default. -/
def mapGetD {α : Type} (m : AMap α) (k : Nat) (d : α) : α := (mapGet m k).getD d

/-- The map with a value stored at a key, in rising order of the keys. -/
def mapSet {α : Type} (m : AMap α) (k : Nat) (v : α) : AMap α :=
  match m with
  | [] => [(k, v)]
  | (k', v') :: r =>
    if k < k' then (k, v) :: (k', v') :: r
    else if k' = k then (k, v) :: r
    else (k', v') :: mapSet r k v

/-- The map without a key. -/
def mapErase {α : Type} (m : AMap α) (k : Nat) : AMap α := m.filter (fun p => p.1 != k)

/-- Change the value at a key, starting from a default. -/
def mapModify {α : Type} (m : AMap α) (k : Nat) (d : α) (f : α → α) : AMap α := mapSet m k (f (mapGetD m k d))

/-- The canonical form: keys strictly rising. -/
def mapWf {α : Type} : AMap α → Bool
  | [] => true
  | [_] => true
  | (k, _) :: (k', v) :: r => decide (k < k') && mapWf ((k', v) :: r)

/-- The first key at or above `n` that the map does not hold, looked for in `fuel` places. -/
def mapFresh {α : Type} (m : AMap α) (n : Nat) : Nat → Nat
  | 0 => n
  | fuel + 1 => if (mapGet m n).isSome then mapFresh m (n + 1) fuel else n

/-- The smallest number that is no key of the map. -/
def mapFirstFree {α : Type} (m : AMap α) : Nat := mapFresh m 0 m.length

/-- Replace the list's element at place `i`. -/
def listSet {α : Type} (l : List α) (i : Nat) (v : α) : List α := l.set i v

end Sys2Proof.Machine
end

