-- ==== Sys2Proof/Wire.lean ====
section
/-! DEFINITION. Facts of the wire, the air and the outside that a command carries: plain data. -/

namespace Sys2Proof

/-- One block of 80 samples as the ADC path delivers it (R191, R201): per antenna the peak in dB below full scale, whether a sample
reached -0.5 dBFS, and the samples as 14-bit codes, I and Q. -/
structure SampleBlock where
  peak0 : BitVec 8
  peak1 : BitVec 8
  clip0 : Bool
  clip1 : Bool
  s0 : List (BitVec 14 × BitVec 14)
  s1 : List (BitVec 14 × BitVec 14)
  deriving DecidableEq, Repr

/-- What a correlation detector found in a window (R187, R188): per antenna the normalised correlation in 1/256, the power in dBm at
the ball and the correlation energy in 0.5 dB; and the window's RMS level in 0.25 dB below the context's full scale (R193). -/
structure Detection where
  norm0 : Nat
  norm1 : Nat
  pow0 : Int
  pow1 : Int
  corr0 : BitVec 8
  corr1 : BitVec 8
  rms : Nat
  deriving DecidableEq, Repr

/-- A PHY header as demodulated (R197, R212, R213, R222): for FSK the 16 SFD bits (first sent most significant), the modulation index
found in hundredths, and of a coded frame whether its code is RSC and interleaved; the header's bits in the order sent, without tail;
and where the reference plane of R133 lay: ring blocks before the latest, the sample in the block, and the correlator's fraction in
1/256 ns (R134). -/
structure PhyHeader where
  sfd : BitVec 16
  index : Nat
  rsc : Bool
  inter : Bool
  bits : List Bool
  block : Nat
  sample : Fin 80
  frac : Fin 10000
  deriving DecidableEq, Repr

/-- A frame as it came over the air (R18, R206, R233): the octets of an uncoded FSK PSDU as demodulated (of a coded frame the pool has the
bits), RSSI, SNR and CFO of the record, the SNR of each group in 0.25 dB (none where the group was not measured), and whether the key
came after the first secured octet. -/
structure RxAir where
  octets : List Octet
  rssi : BitVec 16
  snr : BitVec 16
  cfo : BitVec 16
  groups : List (Option Nat)
  keyLate : Bool
  deriving DecidableEq, Repr

/-- The SecTAG of a frame (R389, R390, R404): whether it is valid under IEEE 802.1AE-2018, the E bit, the association number, the SCI if
the SC bit is set, and the PN field. -/
structure TagFacts where
  valid : Bool
  e : Bool
  an : Fin 4
  sci : Option (BitVec 64)
  pn : W32
  deriving DecidableEq, Repr

/-- An Ethernet frame: addresses, VID if it carries an IEEE 802.1Q tag, EtherType, octets from the destination address to the FCS; the
SecTAG if one stands directly after the source address (the fields after it are then those of the plaintext); an IPv6 destination and
hop limit; whether it is UDP to port 319 or 320; the opcode of a MAC control frame; whether its FCS is good.  For a frame at a port,
the tokens that the fabric reads from its receive FIFO before its first token and while it arrives (R32, R33), and packet cells that the
allocation found with an uncorrectable or a corrected tag error (R433). -/
structure FrameFacts where
  da : BitVec 48
  sa : BitVec 48
  vid : Option (BitVec 12)
  etherType : BitVec 16
  octets : Nat
  tag : Option TagFacts
  v6 : Option (BitVec 128 × BitVec 8)
  udpPtp : Bool
  macOp : BitVec 16
  fcsOk : Bool
  before : Nat
  during : Nat
  eccBad : Nat
  eccFix : Nat
  deriving DecidableEq, Repr

end Sys2Proof
end

