-- ==== Sys2Proof/Machine/Types.lean ====
section
/-! DEFINITION. The pieces of the state, chapter by chapter: plain data. -/

namespace Sys2Proof.Machine

/-! ## Register pages, commands and results (spec/03) -/

/-- The five ledger counts of a block, 64 bits each (R90). -/
structure Ledger where
  inn : BitVec 64 := 0
  out : BitVec 64 := 0
  drop : BitVec 64 := 0
  held : BitVec 64 := 0
  fenced : BitVec 64 := 0
  deriving DecidableEq, Repr

/-- A command being carried out (R59, R60): its opcode, tag, master, the arguments copied at acceptance, and how far it is. -/
structure RunCmd where
  op : Nat
  tag : BitVec 8
  master : Master
  unpaced : Bool
  args : List W32
  data : List Nat
  /-- entries found and not yet published in a chunk (R72) -/
  rows : List (List W32)
  deriving DecidableEq, Repr

/-- The partial-result window of a block (R72): the chunk it holds. -/
structure PartWindow where
  chunk : BitVec 16
  tag : BitVec 8
  entries : List (List W32)
  acked : Bool
  deriving DecidableEq, Repr

/-- A staged set latched by a COMMIT (R82, R83): the epoch and, per register, the value written. -/
structure StagedSet where
  epoch : W32
  writes : List (Nat × W32)
  /-- latched by a device-wide commit -/
  device : Bool
  /-- the receive half of a Crust page has applied (R85 step 3) -/
  rxDone : Bool
  deriving DecidableEq, Repr

/-- How the last command of a block ended (R58). -/
inductive LastCmd where
  | none | ok | fail
  deriving DecidableEq, Repr

/-- What every block has besides its registers. -/
structure BlockSt where
  led : Ledger := {}
  run : Option RunCmd := none
  last : LastCmd := .none
  part : Option PartWindow := none
  /-- registers with staged writes not yet latched -/
  pend : List Nat := []
  latched : Option StagedSet := none
  /-- a deferred set waits for UNFENCE or power-on (R82, R87) -/
  deferred : Bool := false
  deriving DecidableEq, Repr

/-- The device-wide commit in progress (R83 to R87). -/
structure DevCommit where
  epoch : W32
  /-- the step of R85 whose blocks are to apply next, 1 to 8; 9 when all have -/
  step : Nat
  applied : Nat
  deferred : Nat
  /-- linear ns of the first and the last application -/
  first : Option Nat := none
  last : Nat := 0
  deriving DecidableEq, Repr

/-! ## The fabric and the governor (spec/02) -/

/-- A boundary FIFO (R47): write and read pointers one bit wider than the address, the two stages of each one's synchroniser in Gray code,
and the entries of the two-port SRAM. -/
structure BFifo where
  wr : Nat := 0
  rd : Nat := 0
  wrSync : Nat × Nat := (0, 0)
  rdSync : Nat × Nat := (0, 0)
  ram : AMap Nat := []
  deriving DecidableEq, Repr

/-- What the governor holds besides its registers: window ends still to pass before the rule of R29 resumes after a jump (R30), the part of a
code a fall has not made up yet, in fifths (R31), and MODE, MARGIN, CEIL and ECON_FLOOR as they took effect at the last window boundary
(R34). -/
structure GovSt where
  burstWindows : Nat := 0
  fall : Nat := 0
  mode : Nat := 0
  margin : Nat := 10
  ceil : Nat := 60
  econFloor : Nat := 0
  deriving DecidableEq, Repr

/-! ## Time base and triggers (spec/05) -/

/-- A linear count of R117: 64 bits of nanoseconds and 40 bits of fraction. -/
abbrev Lin := BitVec 104

/-- A stamp word of R132. -/
abbrev Stamp := BitVec 64

/-- A slew in progress (R130): its sign, the ppm, what is left in 2^-40 ns, the carried part of a 2^-40 ns, and whether ABORT has cut
what it is to remove. -/
structure Slew where
  neg : Bool
  ppm : Nat
  total : Nat
  left : Nat
  carry : Nat
  aborted : Bool := false
  deriving DecidableEq, Repr

/-- The time base (R117 to R130).  Sources stand in the order of TB_STATE.SRC less 1: PTP, GNSS, peer beacons. -/
structure TbSt where
  L : Lin := 0
  stepgen : BitVec 4 := 0
  /-- the last measured length of a crystal period, in 2^-40 ns (R127) -/
  crystal : Nat := 33554432000000000
  /-- 1PPS edges come on time; the 10 MHz input is present (R121) -/
  pps : Bool := false
  tenm : Bool := false
  /-- since when each source has been OK without a break -/
  okAt : List (Option Lin) := [none, none, none]
  qualified : List Bool := [false, false, false]
  lastPps : Option Lin := none
  holdStart : Lin := 0
  slew : Option Slew := none
  ppsFifo : List Stamp := []
  deriving DecidableEq, Repr

/-- The trigger channels besides their registers: carried period fractions, channels whose PPS_OUT pulse is up, the fire FIFO. -/
structure TrigSt where
  frac : AMap Nat := []
  pulses : List (Fin 16) := []
  fifo : List Stamp := []
  deriving DecidableEq, Repr

/-! ## Rack (spec/14) -/

/-- An entry of the trace FIFO (R445). -/
structure TraceEntry where
  ns : W32
  type : Nat
  inst : Nat
  bit : Nat
  deriving DecidableEq, Repr

/-- A drop record (R444). -/
structure DropRec where
  ns : W32
  type : Nat
  inst : Nat
  cause : Nat
  len : Nat
  port : Nat
  owner : Nat
  detail : W32
  deriving DecidableEq, Repr

/-- The tag of a packet cell that is not FREE (R428): in flight or allocated, its owner, its pool, first and last cell of a packet. -/
structure CellTag where
  owner : Nat
  inFlight : Bool
  sop : Bool
  eop : Bool
  pool : Nat
  /-- octets stored in the cell (R22); those not listed are 0 -/
  data : List Octet := []
  deriving DecidableEq, Repr

/-- A credit link (R438): C, where its credits are, and the counts of R451 with their snapshots. -/
structure Link where
  c : Nat
  producer : Nat
  flight : Nat := 0
  consumer : Nat := 0
  host : Nat := 0
  parked : Nat := 0
  /-- a producer waits on the link at zero credit (R440) -/
  waiting : Bool := false
  sent : Nat := 0
  accepted : Nat := 0
  snapSent : Nat := 0
  snapAccepted : Nat := 0
  deriving DecidableEq, Repr

/-- Rack besides its registers: tags of cells that are not FREE by cell number, the running counts of R432, pool levels,
pools whose mark may be crossed (R447), links, the event FIFOs, and the link LINK_READ read last. -/
structure RackSt where
  tags : AMap CellTag := []
  free : Nat := 131072
  alloc : Nat := 0
  flight : Nat := 0
  level : List Nat := [0, 0, 0, 0, 0, 0, 0, 0]
  wmArmed : List Bool := [true, true, true, true, true, true, true, true]
  links : AMap Link := []
  drops : List DropRec := []
  trace : List TraceEntry := []
  lastLink : Nat := 0
  deriving DecidableEq, Repr

/-! ## Start-up and power (spec/04) -/

/-- How far the start-up sequence of R96 has come, in its order; `halted` after BOOT_FAIL, `tamperHold` under R497, `dft` held in
reset by DFT_EN (R595), `hold` in the HOLD state. -/
inductive Boot where
  | off | aon | starter | stage1 | config | planes | rebuilt | running | halted | tamperHold | dft | hold
  deriving DecidableEq, Repr

/-- Is Starter open, or has it been since the start (R96)? -/
def Boot.opened : Boot → Bool
  | .off | .aon | .tamperHold | .dft | .hold => false
  | _ => true

/-- Do the data planes accept frames (R96)? -/
def Boot.forwards : Boot → Bool
  | .planes => true
  | .rebuilt => true
  | .running => true
  | _ => false

/-- Is the sequence at or past the directory rebuild (R327)? -/
def Boot.hasDirectory : Boot → Bool
  | .rebuilt => true
  | .running => true
  | _ => false

/-! ## Peel (spec/10) -/

/-- Where a work item is (R289).  `aiming`: a job with AIM that entered service and waits for the MAC; `done`: completed, its record
not yet popped. -/
inductive ItemSt where
  | delay | flowq | ready | aiming | parked | taken | done
  deriving DecidableEq, Repr

/-- A work item (R281): its 16 words, the due time as a tick count (the park time while PARKED), the order of acceptance, its state,
the order of entry into its ready list, the packet cells of a radio job's frame and the frame's octets. -/
structure Item where
  words : List W32
  due : Nat
  seq : Nat
  st : ItemSt
  rseq : Nat := 0
  cells : List Nat := []
  octets : Nat := 0
  /-- core that took it, for tasks -/
  core : Nat := 0
  /-- the beacon block of a beacon, its time not filled in yet (R261) -/
  block : List Octet := []
  deriving DecidableEq, Repr

/-- A completion record (R313, R322). -/
structure DoneRec where
  id : Nat
  result : Nat
  type : Nat
  tag : Nat
  stamp : Stamp
  cookie : List W32
  deriving DecidableEq, Repr

/-- A post that the MAC, BCN or FLOOD holds until it has credit in Peel and cells for its frame (R311, R436). -/
structure HwPost where
  producer : Nat
  words : List W32
  octets : Nat
  /-- the plaintext frame, or a beacon's block; a task of FLOOD has none -/
  frame : List Octet
  /-- the command in progress made it -/
  cmd : Bool := false
  deriving DecidableEq, Repr

/-- Peel besides its registers: items by ID, the counters of order, done FIFOs by master, the targets for which a grant waits for room
(R294), and the posts of hardware producers that wait, in order. -/
structure PeelSt where
  items : AMap Item := []
  seq : Nat := 0
  done : AMap (List DoneRec) := []
  blocked : List Nat := []
  hwWait : List HwPost := []
  deriving DecidableEq, Repr

/-! ## The node directory and the checkpoint (spec/04, spec/11) -/

/-- A node entry: the 48 octets of R326. -/
abbrev NodeEntry := BitVec 384

/-- A field of a node entry: lowest bit and width. -/
structure NodeFld where
  lo : Nat
  w : Nat
  deriving DecidableEq, Repr

/-- An index word that is in use (R328): handle and fingerprint. -/
structure IndexWord where
  handle : Nat
  tag : Nat
  deriving DecidableEq, Repr

/-- What a directory command that waits on a node's flow will do (R333). -/
inductive DirWork where
  | update (handle mask : Nat) (words : List W32)
  | delete (handle : Nat)
  /-- restore of a drift model (R109) -/
  | restore (handle : Nat)
  deriving DecidableEq, Repr

/-- The directory: entries by handle, index buckets (four ways each) and their move generations, the key of the hash functions, the
rows in the cache (most recent first), inline items of the engine by item ID, and handles that a DELETE freed whose empty record is
not yet written (R334). -/
structure DirSt where
  nodes : AMap NodeEntry := []
  buckets : AMap (List (Option IndexWord)) := []
  mg : AMap Nat := []
  key : Nat := 0
  cache : List Nat := []
  work : AMap DirWork := []
  /-- item of the command in progress -/
  cmdItem : Option Nat := none
  /-- the command waits for credit to post its item (R333) -/
  waitWork : Option DirWork := none
  deriving DecidableEq, Repr

/-- RET besides its registers (R98 to R109): the kept values of each copy and of the last committed epoch, checkpoint records as
written (24 octets by handle), dirty handles with the time they became dirty, the outage marker, handles whose model is to be
restored and how many restore items are out, a store waiting for the end of a power-fail warning, and the record of the device's
own broadcast counter (R259). -/
structure RetSt where
  copyA : AMap W32 := []
  copyB : AMap W32 := []
  /-- epoch in each copy with its valid mark -/
  epochA : Option W32 := none
  epochB : Option W32 := none
  committed : AMap W32 := []
  committedEpoch : W32 := 0
  /-- which copy is being written: false A, true B -/
  storing : Option Bool := none
  again : Bool := false
  /-- a store a warning abandoned, to be made when the warning ends (R100) -/
  owed : Option Bool := none
  eraseAsked : Bool := false
  records : AMap (BitVec 192) := []
  dirty : AMap Nat := []
  /-- linear ns of the outage marker, if one is valid, and TB_STATE as the marker holds it (R93) -/
  marker : Option Nat := none
  markerSrc : W32 := 0
  restore : List Nat := []
  /-- the marker is valid and its restore is not done -/
  restoring : Bool := false
  bcastCounter : W32 := 0
  bcastCeil : W32 := 0
  bcastDirty : Bool := false
  /-- the AES-CMAC seal of each copy (R98) -/
  sealA : List Nat := []
  sealB : List Nat := []
  /-- the life-cycle state at the last restore, and whether a copy has ever been completed -/
  sealLife : Nat := 3
  written : Bool := false
  deriving DecidableEq, Repr

/-! ## Host queues (spec/18) -/

/-- A packet on its way to the host (R562, R563): kind and source, octets, stamp, AUTH_FAIL, SA index, cells, descriptors it takes,
the port it arrived on. -/
structure HostPkt where
  kind : Nat
  src : Nat
  octets : Nat
  stamp : Option Stamp
  authFail : Bool
  sa : Option Nat
  cells : List Nat
  descs : Nat
  /-- the record's octets (R206) -/
  data : List Octet := []
  deriving DecidableEq, Repr

/-- A from-host descriptor as posted (R565). -/
structure TxDesc where
  len : Nat
  dest : Nat
  tsReq : Bool
  oneStep : Bool
  tag : BitVec 16
  offset : Nat
  deriving DecidableEq, Repr

/-- A host queue pair (R559 to R572): packets handed to it and not yet written, its place in both rings, packets written since
Q_CREATE, from-host descriptors posted and not fetched, fetched and not written back, the passes that GEN shows, and events since
its last messages. -/
structure QueueSt where
  toHost : List HostPkt := []
  rxIdx : Nat := 0
  rxGen : Bool := true
  seq : Nat := 0
  posted : Nat := 0
  txIdx : Nat := 0
  txGen : Bool := true
  rxSince : Nat := 0
  txSince : Nat := 0
  deriving DecidableEq, Repr

/-- A parked host frame (R567): its queue, cells and length. -/
structure Parked where
  queue : Nat
  cells : List Nat
  octets : Nat
  deriving DecidableEq, Repr

/-- The host interface besides its registers: queues by number, parked frames by first cell, the last descriptors written (octets 8
to 31 of the to-host ring, 16 to 31 of the from-host ring, as numbers), the octets of the packet last written for a queue, and what the
last read through BAR2 returned. -/
structure HostSt where
  queues : AMap QueueSt := []
  parked : AMap Parked := []
  rxRing : AMap (AMap Nat) := []
  txRing : AMap (AMap Nat) := []
  written : AMap (List Octet) := []
  bar2 : List Octet := []
  deriving DecidableEq, Repr

/-! ## Waveforms (spec/08) -/

/-- A point: I and Q in units of 1/√norm. -/
structure Point where
  i : Int
  q : Int
  norm : Nat
  deriving DecidableEq, Repr

/-- An OFDM symbol: its data subcarriers in ascending frequency and its pilots. -/
structure OfdmSym where
  data : List Point
  pilots : List Point
  deriving DecidableEq, Repr

/-- What a frame is built from: preamble type, RATE of R236, PHY_FSK_CFG, loading map and code rate of Crumb, PSDU. -/
structure TxForm where
  type : Nat
  rate : Nat
  fsk : W32
  map : Nat
  crate : Nat
  psdu : List Octet
  deriving DecidableEq, Repr

/-- A frame as symbols: for FSK the levels and the index in hundredths; for OFDM the symbols of STF and LTF and those that follow. -/
inductive Wave where
  | fsk (index : Nat) (levels : List Int)
  | ofdm (opt stf ltf : Nat) (symbols : List OfdmSym)
  deriving DecidableEq, Repr

/-! ## Wideband reception (spec/07) and the PHY (spec/08) -/

/-- A received MAC frame (R206, R249, R254, R255): FCS, source address if extended, security, acknowledgement and CSL fields, and the
measurements of the reception. -/
structure RxFrame where
  fcsOk : Bool
  src : Option (BitVec 64)
  level : Nat
  keyMode : Nat
  /-- frame-counter suppression or a TSCH nonce (R254) -/
  noCounter : Bool
  keyIndex : Nat
  fc : W32
  ackReq : Bool
  seq : Option (BitVec 8)
  /-- an Enh-Ack -/
  isAck : Bool
  /-- phase and period of a CSL IE, in units of 10 symbol periods -/
  csl : Option (Nat × Nat)
  /-- air time from the reference plane to the end of the last symbol, in ns -/
  airNs : Nat
  rssi : BitVec 16
  snr : BitVec 16
  cfo : BitVec 16
  /-- SNR of each group in 0.25 dB; none where the group was not measured (R233) -/
  groups : List (Option Nat)
  /-- the key came after the first secured octet (R18) -/
  keyLate : Bool
  /-- the FCS has four octets -/
  fcs4 : Bool
  /-- the PSDU; its secured part is plaintext once it is decrypted -/
  psdu : List Octet
  deriving DecidableEq, Repr

/-- A rewind mark (R188): its ID, allocation, type, energies, the time of the detection point and the stamp it would give, front-end
codes at the point, the frozen digital gain, and whether it is stale (R202). -/
structure Mark where
  id : Nat
  alloc : Nat
  type : Nat
  corr0 : Nat
  corr1 : Nat
  at_ : Lin
  stamp : Stamp
  feg0 : Nat
  feg1 : Nat
  dagc : Nat
  stale : Bool
  deriving DecidableEq, Repr

/-- A reception context (R194 to R206): the mark it acquires from, settings kept from its assignment (R186, R237), whether its header
is validated, the antenna forced or kept, what the header gave, and what its record will show. -/
structure Ctx where
  mark : Mark
  chan : W32
  mcsEn : W32
  fskCfg : W32
  crumbCfg : W32
  policy : W32
  confirmed : Bool := false
  /-- WBn_ANT.MODE for this context -/
  antMode : Nat
  ant : Option Nat := none
  rate : Nat := 0
  crumb : Bool := false
  len : Nat := 0
  stamp : Stamp
  refNs : Nat := 0
  /-- the reference plane on the present time scale -/
  refAt : Nat := 0
  /-- the frame has reached its reference plane -/
  reached : Bool := false
  /-- the seed its PSDU is whitened with, its FCS length; the map and code rate of a Crumb frame -/
  seed : Option Nat := none
  fcs4 : Bool := true
  map : Nat := 0
  crate : Nat := 0
  /-- the context's buffer: octets demodulated so far (R18) -/
  buffer : List Octet := []
  replayed : Bool := false
  /-- the second attempt of R204 -/
  second : Bool := false
  markStale : Bool := false
  feStep : Bool := false
  /-- result of the directory lookup, once made -/
  looked : Option (Option Nat) := none
  /-- the node key is there -/
  keyed : Bool := false
  deriving DecidableEq, Repr

/-- A reception record on its way (R206 to R208, R251): its header's fields, the context it still holds, the frame, its result when
known, the inline item that carries its node transaction, and its cells. -/
structure WbRec where
  ctx : Nat
  holds : Bool
  stamp : Stamp
  refNs : Nat
  confirmed : Bool
  /-- MAC_SEC_POLICY as its frame began with (R84) -/
  policy : W32
  len : Nat
  result : Option Nat
  type : Nat
  rate : Nat
  alloc : Nat
  ant : Nat
  replayed : Bool
  markStale : Bool
  feStep : Bool
  secured : Bool
  decrypted : Bool
  keyLate : Bool
  handle : Option Nat
  fc : W32
  mark : Mark
  frame : Option RxFrame
  item : Option Nat
  cells : List Nat
  deriving DecidableEq, Repr

/-- A block in the sample ring (R201): the tag of each antenna and the samples, with the time of its first sample in ns, moved by the
steps of the time base since. -/
structure RingBlock where
  startNs : Nat
  /-- the same on the time scale of its tag; whether the tag was written in holdover -/
  rawNs : Nat
  hold : Bool
  tag0 : BitVec 64
  tag1 : BitVec 64
  s0 : List W32
  s1 : List W32
  deriving DecidableEq, Repr

/-- A capture in progress (R210): blocks still to come, octets already written to the capture area, and whether the command CAPTURE
started it. -/
structure Capture where
  left : Nat
  written : Nat
  us : Nat
  byCommand : Bool
  deriving DecidableEq, Repr

/-- A WB chain besides its registers: contexts by number, marks (latest first), records by number, the ring (latest first), the
capture, per antenna the blocks in a row above the window of R191 and the blocks an increase was deferred, whether the next block
is the first after a retune, and the records not delivered by their result (R207). -/
structure WbSt where
  ctxs : AMap Ctx := []
  marks : List Mark := []
  recs : AMap WbRec := []
  ring : List RingBlock := []
  capture : Option Capture := none
  quiet0 : Nat := 0
  quiet1 : Nat := 0
  defer0 : Nat := 0
  defer1 : Nat := 0
  retuned : Bool := false
  undelivered : List Nat := []
  deriving DecidableEq, Repr

/-- What the pool saves of a context between segments: path metrics by state, survivors (newest step first, of each state whether the
better way came from the odd predecessor), the place in the puncturing pattern, an A value that waits for its B, and the bits decided. -/
structure Decoder where
  metrics : List Nat := []
  survivors : List (List Bool) := []
  place : Nat := 0
  half : Option Int := none
  bits : List Bool := []
  deriving DecidableEq, Repr

/-- A segment in a pool (R219): its context, whether a decoder has it, its soft values in the order of the code bits, and the code they
belong to: 0 the code of R217, 1 NRNSC, 2 RSC. -/
structure Segment where
  ctx : Nat
  active : Bool
  llrs : List Int
  code : Nat
  /-- the rate of R217 -/
  rate : Nat
  deriving DecidableEq, Repr

/-- The PHY besides its registers: segments in each chain's pool in order of arrival, what the pool saves of each context at 32 × chain +
context, and the SNR FIFO. -/
structure PhySt where
  pools : List (List Segment) := [[], [], [], []]
  saved : AMap Decoder := []
  snr : List (List W32) := []
  deriving DecidableEq, Repr

/-! ## Radio chains (spec/06) -/

/-- Why a chain is in SETTLE (R149, R152). -/
inductive Settle where
  | fromOff | slice | forJob | back
  deriving DecidableEq, Repr

/-- A job a chain holds (R161 to R167), times as linear ns; `released`: its trigger has fired or it has none; `sent`: the frame is on
the air or has been. -/
structure ChainJob where
  id : Nat
  ts : Nat
  tl : Nat
  trig : Bool
  released : Bool
  /-- waits already counted in RFn_TX_WAIT and RET_FC_WAIT -/
  settleWaited : Bool := false
  calWaited : Bool := false
  policyWaited : Bool := false
  fcWaited : Bool := false
  /-- from entry into TX-RAMP-UP until its return -/
  inService : Bool := false
  cut : Bool := false
  /-- the index in use, its nominal power in 0.5 dBm, and the frames on the air: wake-up frames, then the payload (R156, R232, R241) -/
  idx : Nat := 0
  power : Int := 0
  /-- ns from the first sample to the payload's first sample -/
  lead : Nat := 0
  wakes : List TxForm := []
  form : Option TxForm := none
  stamp : Stamp := 0
  /-- power-table entry read at entry into TX-RAMP-UP (R157) -/
  entry : W32 := 0
  deriving DecidableEq, Repr

/-- A calibration set in progress (R172, R173): kinds in order (0 DC offset, 1 filter bandwidth, 2 image rejection), its start in ns. -/
structure CalRun where
  kinds : List Nat
  start : Nat
  prot : Bool
  byCommand : Bool
  deriving DecidableEq, Repr

/-- A radio chain besides its registers: jobs in order, jobs returned and not yet taken by Peel (item, result, stamp), the present
lock, its attempt and whether it crosses a band, the calibration in progress, the end of a restore interval and the calibration aborted,
calibrations to run again by kind with the time of their abort, when the ramp-down began, the frames last sent as they left the ball,
abort counts per kind, a CAL_RUN that waits, the temperature-free retune wait over (R151), by
whom the chain is blanked, and the reference error in force (R178). -/
structure ChainSt where
  jobs : List ChainJob := []
  returned : List (Nat × Nat × Stamp) := []
  settle : Option Settle := none
  secondTry : Bool := false
  crossBand : Bool := false
  lockStart : Nat := 0
  loKhz : Nat := 0
  cal : Option CalRun := none
  restore : Option (Nat × Nat) := none
  again : AMap Nat := []
  downAt : Nat := 0
  onAir : List Wave := []
  aborts : List Nat := [0, 0, 0]
  /-- CAL_RUN accepted and not started: kinds, protected -/
  calWait : Option (List Nat × Bool) := none
  retuneOver : Bool := false
  /-- chains whose transmission blanks this one -/
  blankedBy : List Nat := []
  oscE : Int := 0
  deriving DecidableEq, Repr

/-! ## The MAC, beacons and flooding (spec/09) -/

/-- What the MAC knows of a transmit job with AIM in service (R246 to R249): how its attempt was aimed, its times as linear
nanoseconds, and whether the payload has ended and the acknowledgement is awaited. -/
structure AimState where
  node : Nat
  /-- the tick the job was due at -/
  due : Nat
  /-- attempt aimed as a full train -/
  full : Bool := false
  widened : Bool := false
  frames : Nat := 0
  ts : Nat := 0
  tl : Nat := 0
  /-- outgoing frame counter assigned at ramp-up -/
  counter : W32 := 0
  /-- transmit stamp of the last attempt -/
  stamp : Stamp := 0
  /-- end of the payload frame of the last attempt, in linear ns; none while it is not sent -/
  sentEnd : Option Nat := none
  /-- the chain has returned the attempt; its acknowledgement has come -/
  returned : Bool := false
  acked : Bool := false
  /-- T_pred of a predicted train in 2^-14 ns, with the step generation it was computed in -/
  tpred : Int := 0
  gen : Nat := 0
  deriving DecidableEq, Repr

/-- The MAC besides its registers: jobs with AIM by item ID. -/
structure MacSt where
  aims : AMap AimState := []
  /-- records whose node transaction waits for credit (R311), as chain and record -/
  txnWait : List (Nat × Nat) := []
  deriving DecidableEq, Repr

/-- A peer of the 64-entry table (R264), with the counter of R259. -/
structure Peer where
  rid : Nat
  stratum : Nat
  hold : Bool
  parent : Nat
  rssi : BitVec 16
  stamp : Stamp
  /-- receive time in linear ns -/
  heard : Nat
  offset : Int
  interval : Nat
  /-- entered by a beacon that carries the block; a flood sender alone has none -/
  beacon : Bool
  counter : W32
  deriving DecidableEq, Repr

/-- BCN besides its registers: peers by index, and the instant E of R265 judged last, in linear ns. -/
structure BcnSt where
  peers : AMap Peer := []
  judged : Nat := 0
  deriving DecidableEq, Repr

/-- An entry of the seen cache (R268): identity, first-seen time in ns, copies, and a pending relay with its due time and TTL. -/
structure SeenEntry where
  origin : Nat
  seq : Nat
  firstNs : Nat
  copies : Nat
  pending : Bool
  due : Nat
  ttl : Nat
  kind : Nat
  /-- the MAC payload after the flood header -/
  data : List Octet
  deriving DecidableEq, Repr

/-- FLOOD besides its registers: the seen cache in order of first hearing (a distribution in progress is the block's running
command). -/
structure FloodSt where
  seen : List SeenEntry := []
  deriving DecidableEq, Repr

/-! ## Starter and the tamper monitor (spec/15) -/

/-- A key slot that holds a key (R481, R482): the attribute word, the use count, the key's octets. -/
structure KeySlot where
  attrs : W32
  count : Nat
  key : List Nat
  deriving DecidableEq, Repr

/-- A copy of a retained slot in MRAM (R490): sequence, marker, whether its CMAC verifies, and what it holds (nothing: zeros). -/
structure JCopy where
  seq : Nat
  marked : Bool
  good : Bool
  slot : Option KeySlot
  deriving DecidableEq, Repr

/-- An entry of the derived-key cache (R477), with the set it is in. -/
structure CacheKey where
  set : Nat
  eui : Nat
  epoch : Nat
  purpose : Nat
  gen : Nat
  jseq : Nat
  deriving DecidableEq, Repr

/-- A key operation that waits for retained updates (R482, R490): the updates still to commit, in order, what goes into STARTER_OUT
and RES1 at its end, and the volatile slot it makes then. -/
structure KeyOp where
  updates : List (Nat × Option KeySlot)
  makes : Option (Nat × KeySlot)
  out : List Nat
  res1 : Nat
  /-- it ends with AUTH -/
  auth : Bool := false
  /-- the Peel item it serves (R502); none: the page's command -/
  item : Option Nat
  deriving DecidableEq, Repr

/-- The fuse row of a life-cycle state (R464): its 16 random octets and whether its marker is blown. -/
structure FuseRow where
  bits : List Nat
  marker : Bool
  deriving DecidableEq, Repr

/-- Starter besides its registers: slots that hold a key, both copies of each retained slot at 2 × slot and 2 × slot + 1, the operation
in progress, the cache (latest used first), the output octets and the master they are for, MC0 to MC7 and their locks, the life cycle,
fuse rows of states entered since manufacture, the LEGACY_OFF fuse, whether the branch keys are held, and a life-cycle transition or
zeroisation in progress. -/
structure StarterSt where
  slots : AMap KeySlot := []
  copies : AMap JCopy := []
  op : Option KeyOp := none
  cache : List CacheKey := []
  out : List Nat := []
  outFor : Option Master := none
  mc : List (List Nat) := List.replicate 8 (List.replicate 48 0)
  mcLock : List Bool := List.replicate 8 false
  lc : Nat := 3
  rows : AMap FuseRow := []
  legacyOff : Bool := false
  held : Bool := true
  zeroing : Bool := false
  deriving DecidableEq, Repr

/-- A tamper log entry (R501). -/
structure TampEntry where
  ticks : Nat
  src : Nat
  phase : Nat
  resp : Nat
  deriving DecidableEq, Repr

/-- The tamper monitor besides its registers: the log, what the linear count showed when the backup counter was 0 (in 2^-40 ns), and
how often the mesh pattern has changed. -/
structure TampSt where
  log : List TampEntry := []
  base : Int := 0
  patterns : Nat := 0
  deriving DecidableEq, Repr

/-! ## Ports, Crust and Sieve (spec/11 to spec/13) -/

/-- A SecTAG as sent: the SA used, its PN, whether the SCI is in it, and the E bit and offset code. -/
structure SentTag where
  sa : Nat
  pn : Nat
  sci : Option Nat
  e : Bool
  offset : Nat
  deriving DecidableEq, Repr

/-- How a frame's FCS was sent: correct, the ones' complement of the correct one (R408), or otherwise bad. -/
inductive Fcs where
  | good | complement | bad
  deriving DecidableEq, Repr

/-- Where a frame is on its way to an egress port: in the transmit queue, in the encrypt path, on the line. -/
inductive EgState where
  | waiting | inCrust | sending
  deriving DecidableEq, Repr

/-- One egress of a frame: the port, how far it is, the SecTAG given to it, and its transmit stamp. -/
structure Egress where
  port : Nat
  st : EgState := .waiting
  tag : Option SentTag := none
  stamp : Stamp := 0
  oneStep : Bool := false
  /-- the full time of the stamp, seconds above 32 bits of nanoseconds (R118, R377) -/
  time : Nat := 0
  deriving DecidableEq, Repr

/-- A frame as a port sent it last. -/
structure SentFrame where
  da : BitVec 48
  sa : BitVec 48
  vid : Option (BitVec 12)
  etherType : BitVec 16
  octets : Nat
  hop : Option (BitVec 8)
  tag : Option SentTag
  fcs : Fcs
  stamp : Stamp
  /-- its transmit time was written into it (R377) -/
  oneStep : Bool
  /-- the octets before the FCS of a frame that the host sent to this port, protected if Crust protects it -/
  data : List Octet := []
  deriving DecidableEq, Repr

/-- Stages of a frame: in the receive FIFO, past Crust's header checks, past Sieve. -/
inductive FrameStage where
  | fifo | checked | forwarded
  deriving DecidableEq, Repr

/-- The ICV of a frame: none to check, not known yet, verified, failed. -/
inductive Icv where
  | none | pending | good | bad
  deriving DecidableEq, Repr

/-- A frame in the device: arrival port (15: from host queue `queue`), facts, plain octets from destination address to FCS, receive stamp,
the port's MTU and RX_EN as they stood when the port and Crust took it (R84), whether the port still counts it as held, whether it passes
Crust unexamined (R110), goes to the host alone, was cut or came with a bad FCS; stage; receive SA, recovered PN, the octet from which it
is deciphered if E = 1 (R404) and ICV, and HOST_BAD as it was at its header (R84); cells and the group that owns them; egresses still to
be served; a host copy still to be delivered and whether by the CTL map; whether a copy has left; the source address and FID to learn, as the
frame carried them at the lookup (R339; routing rewrites the frame); the descriptor of a host's frame and the pipeline it names. -/
structure Frame where
  port : Nat
  mtu : Nat := 0
  prot : Bool := false
  queue : Nat := 0
  x : FrameFacts
  len : Nat
  stamp : Stamp := 0
  portHeld : Bool := false
  clear : Bool := false
  hostOnly : Bool := false
  errored : Bool := false
  stage : FrameStage := .fifo
  rxSa : Option Nat := none
  pn : Nat := 0
  plain : Option Nat := none
  icv : Icv := .none
  hostBad : Bool := false
  cells : List Nat := []
  egress : List Egress := []
  toHost : Bool := false
  ctl : Bool := false
  sent : Bool := false
  learn : Option (BitVec 48 × BitVec 12) := none
  desc : Option TxDesc := none
  pipe : Nat := 0
  deriving DecidableEq, Repr

/-- A port besides its registers: the statistics of R387, faults decided and not cleared in the order of decision (cause codes of R378),
the transmit-stamp FIFO (stamp, tag, one-step refused), and the frame sent last. -/
structure PortSt where
  stats : AMap Nat := []
  faults : List Nat := []
  tstx : List (Stamp × BitVec 16 × Bool) := []
  last : Option SentFrame := none
  deriving DecidableEq, Repr

/-- A notice of the learn FIFO (R344). -/
structure Notice where
  mac : Nat
  fid : Nat
  port : Nat
  kind : Nat
  old : Nat
  deriving DecidableEq, Repr

/-- A layer-2 entry: the 16 octets of R337. -/
abbrev L2Entry := BitVec 128

/-- A layer-2 pipeline besides its registers: entries (R337) by index, the hash key, the learn FIFO. -/
structure SieveSt where
  table : AMap L2Entry := []
  key : Nat := 0
  lfifo : List Notice := []
  deriving DecidableEq, Repr

/-- A prefix entry (R349). -/
structure PrefixEntry where
  addr : Nat
  len : Nat
  nh : Nat
  deriving DecidableEq, Repr

/-- A valid SA entry (R395); whether it is the current or the armed SA of its port stands in CRUST_x_Pk_TXSA. -/
structure SaEntry where
  key : List Nat
  hkey : List Nat
  sci : Nat
  ssci : Nat
  salt : Nat
  next : Nat
  limit : Nat
  tx : Bool
  suite : Nat
  port : Nat
  thr : Bool := false
  exh : Bool := false
  ktag : Nat
  installSt : W32
  pktsOk : Nat := 0
  octets : Nat := 0
  pktsBad : Nat := 0
  pktsLost : Nat := 0
  deriving DecidableEq, Repr

/-- Crust besides its registers: valid SAs by index, and the SA that SA_DELETE waits for (R402). -/
structure CrustSt where
  sas : AMap SaEntry := []
  deleting : Option (Nat × SaEntry) := none
  deriving DecidableEq, Repr

/-! ## Proofer (spec/16) -/

/-- An entry of the hold queue (R510): its number, what STEPGEN and holdover were at acceptance, and its 48 octets. -/
structure ProofEntry where
  num : Nat
  gen : BitVec 4
  hold : Bool
  octets : List Nat
  deriving DecidableEq, Repr

/-- A change of image in progress (R528): slot, what its header and its hash say, and the version that ran before. -/
structure ProofAct where
  slot : Nat
  version : Nat
  iface : Nat
  hash : List Nat
  deriving DecidableEq, Repr

/-- Proofer besides its registers: whether its core runs (R508), the hold queue, the number of the last entry
accepted, records by slot of the register and the SEQ of the latest, closes counted and readings since the last close by class, the
publication buffer's SEQs (latest first) and the record each master selected, logbook entries by LSEQ, events no entry was left for, the
seal counter, the parameters of R527, closes that wait (class, fire time, HOLDOVER when it fired), log
entries that wait for the end of a power-fail warning (class, time, detail), an activation, the image running, the last response of the
seal port. -/
structure ProofSt where
  runs : Bool := true
  queue : List ProofEntry := []
  last : Nat := 0
  records : AMap (List Nat) := []
  head : Nat := 0
  closes : AMap Nat := []
  readings : AMap Nat := []
  pub : List Nat := []
  selected : AMap (List Nat) := []
  log : AMap (List Nat) := []
  lost : Nat := 0
  sealCnt : Nat := 0
  tcorr : Nat := 1000
  age : Nat := 10
  classEn : Nat := 0xFFFF
  waiting : List (Nat × Lin × Bool) := []
  logWait : List (Nat × List Nat × List Nat) := []
  act : Option ProofAct := none
  slot : Nat := 0
  version : Nat := 0
  iface : Nat := 0
  hash : List Nat := List.replicate 48 0
  response : List Nat := []
  deriving DecidableEq, Repr

/-! ## Firmware update (spec/17) -/

/-- What a verification read in a slot's header (R534, R554), and its outcome. -/
structure SlotInfo where
  verified : Bool := false
  result : Nat := 0
  bound : Bool := false
  key : Nat := 0
  version : Nat := 0
  iface : Nat := 0
  proto : Nat := 0
  minCtrl : Nat := 0
  minRadio : Nat := 0
  minPcs : Nat := 0
  minProof : Nat := 0
  deriving DecidableEq, Repr

/-- A command of the QSPI controller to the NOR (R575): its code, the address, the octets it moves or erases. -/
structure NorCmd where
  op : Nat
  addr : Nat
  octets : Nat
  deriving DecidableEq, Repr

/-- Where the unit in progress is (R542): to begin, draining, back on its way into service. -/
inductive UnitStage where
  | start | drain | back
  deriving DecidableEq, Repr

/-- An activation in progress (R539 to R544): slot bit by part, units still to come, the stage of the first of them, units activated,
acceptance in linear ns, and whether it is to stop at the next unit boundary. -/
structure Activation where
  parts : List (Option Bool)
  units : List Nat
  stage : UnitStage
  done : List Nat
  start : Nat
  stop : Bool
  deriving DecidableEq, Repr

/-- FWU besides its registers: its MRAM record (slot bit of each unit, units of the trial, their previous slot bits, phase 0 idle,
1 activating, 2 trial; boots in the trial; the last fallback's cause, parts, count, time, and whether FWU_EVT is still to show it), slots
as last verified, the images running in the units, units that were not loaded (R550), the end of the trial in linear ns, the activation, and the keys revoked (fuses).  Units
stand in the order of FWU_RUN0 to 14 (R554). -/
structure FwuSt where
  run : List Bool := List.replicate 15 false
  trial : List Bool := List.replicate 15 false
  prev : List Bool := List.replicate 15 false
  phase : Nat := 0
  boots : Nat := 0
  fbCause : Nat := 0
  fbParts : Nat := 0
  fbCount : Nat := 0
  fbTime : Nat := 0
  fbSignal : Bool := false
  slots : AMap SlotInfo := []
  images : AMap SlotInfo := []
  unloaded : List Nat := []
  trialEnd : Nat := 0
  act : Option Activation := none
  revoked : Nat := 0
  deriving DecidableEq, Repr

/-! ## Check-value channels (spec/18) -/

/-- The check-value channels besides their registers: the raw remainder each left, by channel, and what they last wrote into host memory:
its address and octets. -/
structure CrcSt where
  rem : AMap Nat := []
  hostWrite : Nat × List Octet := (0, [])
  deriving DecidableEq, Repr

/-! ## The test access port (spec/19) -/

/-- Instructions of the test access port (R598). -/
inductive TapInstr where
  | bypass | idcode | boundaryScan | debug
  deriving DecidableEq, Repr

/-- The test access port: the instruction in force, IDCODE after reset as IEEE 1149.1 has it (log entry 3), and the data register. -/
structure TapSt where
  instr : TapInstr := .idcode
  dr : List Bool := []
  deriving DecidableEq, Repr

end Sys2Proof.Machine
end

