-- ==== Sys2Proof/Syntax.lean ====
section
/-! DEFINITION. The commands of the block: one constructor per row of the operation table (spec/opcode_table.json), with what the
outside supplies as operands: the master that writes, the instance, and the facts of the wire, the air or the clock. -/

namespace Sys2Proof

inductive Instr where
  /-- REGISTER_WRITE (R78) -/
  | registerWrite (m : Master) (addr : BitVec 26) (width : Fin 4) (v : BitVec 64)
  /-- EVT_CLEAR (R75) -/
  | evtClear (m : Master) (b : Block) (v : BitVec 32) (hw : BitVec 32)
  /-- EVT_FORCE (R77) -/
  | evtForce (m : Master) (b : Block) (v : BitVec 32)
  /-- EVT_CNT_CLEAR (R76) -/
  | evtCntClear (m : Master) (b : Block) (k : Fin 8) (v : BitVec 32) (hw : BitVec 4)
  /-- REFUSED_CLR (R57) -/
  | refusedClr (m : Master) (b : Block)
  /-- CFG_STAGE_WRITE (R81) -/
  | cfgStageWrite (m : Master) (b : Block) (v : BitVec 32)
  /-- PART_ACK (R74) -/
  | partAck (m : Master) (b : Block) (chunk : BitVec 16)
  /-- PART_WAIT_TIMEOUT (R74) -/
  | partWaitTimeout (b : Block)
  /-- COMMAND_TIMEOUT (R65) -/
  | commandTimeout (b : Block) (ch : Fin 24)
  /-- COMMIT (R82) -/
  | commit (m : Master) (b : Block) (tag : BitVec 8)
  /-- DEVICE_COMMIT (R83) -/
  | deviceCommit (m : Master) (tag : BitVec 8)
  /-- COMMIT_APPLY (R85) -/
  | commitApply (b : Block)
  /-- DEVICE_COMMIT_DONE (R86) -/
  | deviceCommitDone
  /-- ABORT (R66) -/
  | abort (m : Master) (b : Block) (tag : BitVec 8)
  /-- FENCE (R67) -/
  | fence (m : Master) (b : Block) (tag : BitVec 8)
  /-- UNFENCE (R69) -/
  | unfence (m : Master) (b : Block) (tag : BitVec 8)
  /-- LEDGER_SNAPSHOT (R89) -/
  | ledgerSnapshot (m : Master) (b : Block) (tag : BitVec 8)
  /-- NOP (R70) -/
  | nop (m : Master) (b : Block) (tag : BitVec 8)
  /-- FAB_FENCE (R41) -/
  | fabFence (m : Master) (tag : BitVec 8)
  /-- FAB_UNFENCE (R42) -/
  | fabUnfence (m : Master) (tag : BitVec 8)
  /-- FENCE_TIMEOUT (R39) -/
  | fenceTimeout (g : Fin 64) (ackFirst : Bool)
  /-- GOVERNOR_WINDOW (R29) -/
  | governorWindow (busyNs : List Nat) (tokenPs : Nat)
  /-- BURST_JUMP (R30) -/
  | burstJump (p : Fin 10)
  /-- POWER_ON (R96) -/
  | powerOn (dftEn : Bool)
  /-- STARTER_OPEN (R462) -/
  | starterOpen (rootBad : Bool)
  /-- STAGE1_VERIFIED (R96) -/
  | stage1Verified
  /-- RETAINED_CONFIG_APPLIED (R101) -/
  | retainedConfigApplied
  /-- DATA_PLANES_FORWARDING (R96) -/
  | dataPlanesForwarding
  /-- DIRECTORY_REBUILD (R327) -/
  | directoryRebuild
  /-- RADIO_CHAINS_CALIBRATED (R96) -/
  | radioChainsCalibrated
  /-- PF_WARN (R93) -/
  | pfWarn (mv10 : BitVec 16)
  /-- PF_CLEAR (R95) -/
  | pfClear (mv10 : BitVec 16)
  /-- POWER_OFF (R112) -/
  | powerOff
  /-- ENTER_RUN (R115) -/
  | enterRun (m : Master) (tag : BitVec 8)
  /-- ENTER_TRIM (R115) -/
  | enterTrim (m : Master) (tag : BitVec 8)
  /-- ENTER_HOLD (R115) -/
  | enterHold (m : Master) (tag : BitVec 8)
  /-- RESET_DEVICE (R115) -/
  | resetDevice (m : Master) (tag : BitVec 8)
  /-- AUTO_TRIM (R112) -/
  | autoTrim (mv10 : BitVec 16)
  /-- AUTO_RUN (R112) -/
  | autoRun (mv10 : BitVec 16)
  /-- POWER_STATE_DONE (R112) -/
  | powerStateDone
  /-- HOLD_WAKE (R112) -/
  | holdWake (src : Fin 4)
  /-- PIN_RESET (R596) -/
  | pinReset (lowNs : Nat)
  /-- SOFTWARE_RESET (R114) -/
  | softwareReset
  /-- RET_STORE_DONE (R98) -/
  | retStoreDone
  /-- CKPT_RECORD_WRITE (R105) -/
  | ckptRecordWrite (h : BitVec 19)
  /-- CKPT_FLUSH (R116) -/
  | ckptFlush (m : Master) (tag : BitVec 8)
  /-- ERASE_STORE (R116) -/
  | eraseStore (m : Master) (tag : BitVec 8)
  /-- DRIFT_RESTORE_ITEM (R109) -/
  | driftRestoreItem (h : BitVec 18)
  /-- SECURED_WAIT_EXIT (R111) -/
  | securedWaitExit (p : Fin 10)
  /-- TB_LATCH (R119) -/
  | tbLatch (m : Master)
  /-- SOURCE_QUALIFIED (R120) -/
  | sourceQualified (src : Fin 3)
  /-- TB_SRC_SET_WRITE (R124) -/
  | tbSrcSetWrite (m : Master) (v : BitVec 32)
  /-- TB_RATE_WRITE (R124) -/
  | tbRateWrite (m : Master) (v : BitVec 32)
  /-- SERVO_TIMEOUT (R125) -/
  | servoTimeout
  /-- PPS_INPUT (R121) -/
  | ppsInput (tenm : Option (BitVec 32))
  /-- GNSS_PPS_MISSING (R121) -/
  | gnssPpsMissing (tenm : Bool)
  /-- REF_LOST (R127) -/
  | refLost
  /-- REF_BACK (R128) -/
  | refBack
  /-- SET_TIME (R129) -/
  | setTime (m : Master) (tag : BitVec 8)
  /-- STEP (R129) -/
  | step (m : Master) (tag : BitVec 8)
  /-- SLEW (R130) -/
  | slew (m : Master) (tag : BitVec 8)
  /-- SLEW_COMPLETE (R130) -/
  | slewComplete
  /-- TRIGGER_FIRE (R138) -/
  | triggerFire (ch : Fin 16)
  /-- TRIG_CTL_WRITE (R139) -/
  | trigCtlWrite (m : Master) (ch : Fin 16) (v : BitVec 32)
  /-- TB_PPSIN_POP (R144) -/
  | tbPpsinPop (m : Master)
  /-- TRIG_FIRE_POP (R145) -/
  | trigFirePop (m : Master)
  /-- CENTRE_WRITE (R151) -/
  | centreWrite (m : Master) (n : Fin 4) (v : BitVec 32)
  /-- RETUNE_START (R151) -/
  | retuneStart (n : Fin 4)
  /-- RETUNE_WAIT_TIMEOUT (R151) -/
  | retuneWaitTimeout (n : Fin 4)
  /-- CHAIN_ENABLE_WRITE (R152) -/
  | chainEnableWrite (m : Master) (n : Fin 4) (v : BitVec 32)
  /-- SYNTH_LOCK (R149) -/
  | synthLock (n : Fin 4) (ticks : Nat)
  /-- LOCK_TIMEOUT (R150) -/
  | lockTimeout (n : Fin 4)
  /-- TX_JOB_TAKE (R161) -/
  | txJobTake (n : Fin 4)
  /-- TX_RAMP_UP_START (R161) -/
  | txRampUpStart (n : Fin 4)
  /-- TX_START (R160) -/
  | txStart (n : Fin 4)
  /-- TX_FRAME_END (R152) -/
  | txFrameEnd (n : Fin 4)
  /-- TX_RAMP_DOWN_END (R155) -/
  | txRampDownEnd (n : Fin 4)
  /-- BLANKING_END (R153) -/
  | blankingEnd (n : Fin 4)
  /-- TRIG_JOB_TIMEOUT (R163) -/
  | trigJobTimeout (n : Fin 4)
  /-- TX_LATEST_START_PASSED (R171) -/
  | txLatestStartPassed (n : Fin 4)
  /-- CAL_START (R174) -/
  | calStart (n : Fin 4)
  /-- CAL_ABORT_FOR_JOB (R169) -/
  | calAbortForJob (n : Fin 4)
  /-- CAL_RESTORE_END (R169) -/
  | calRestoreEnd (n : Fin 4)
  /-- CAL_COMPLETE (R172) -/
  | calComplete (n : Fin 4)
  /-- CAL_RESCHEDULE (R175) -/
  | calReschedule (n : Fin 4)
  /-- CHAIN_TEMP_SAMPLE (R174) -/
  | chainTempSample (n : Fin 4) (temp : BitVec 8)
  /-- OSC_CAL (R177) -/
  | oscCal
  /-- CAL_RUN (R182) -/
  | calRun (m : Master) (n : Fin 4) (tag : BitVec 8)
  /-- TX_CUT (R182) -/
  | txCut (m : Master) (n : Fin 4) (tag : BitVec 8)
  /-- CHAIN_RESET (R182) -/
  | chainReset (m : Master) (n : Fin 4) (tag : BitVec 8)
  /-- XTX_WRITE (R180) -/
  | xtxWrite (m : Master) (v : BitVec 32)
  /-- FE_GAIN_LOOP_BLOCK (R191) -/
  | feGainLoopBlock (n : Fin 4) (blk : SampleBlock)
  /-- PREAMBLE_DETECT (R194) -/
  | preambleDetect (n : Fin 4) (a : Fin 32) (t : Fin 9) (d : Detection)
  /-- ANTENNA_SELECT (R196) -/
  | antennaSelect (n : Fin 4) (k : Fin 32) (w0 w1 : List Nat)
  /-- PHR_DECODED (R197) -/
  | phrDecoded (n : Fin 4) (k : Fin 32) (h : PhyHeader)
  /-- HEADER_LIMIT_EXPIRED (R197) -/
  | headerLimitExpired (n : Fin 4) (k : Fin 32) (coded : Bool)
  /-- MAP_BLOCK_DECODED (R231) -/
  | mapBlockDecoded (n : Fin 4) (k : Fin 32) (bits : List Bool)
  /-- MARK_STALE (R202) -/
  | markStale (n : Fin 4) (id : BitVec 16)
  /-- RECEPTION_COMPLETE (R206) -/
  | receptionComplete (n : Fin 4) (k : Fin 32) (air : RxAir)
  /-- RECORD_DELIVER (R208) -/
  | recordDeliver (n : Fin 4) (r : Nat)
  /-- REC_TIMEOUT (R208) -/
  | recTimeout (n : Fin 4) (r : Nat)
  /-- REPLAY (R203) -/
  | replay (m : Master) (n : Fin 4) (tag : BitVec 8)
  /-- CAPTURE (R210) -/
  | capture (m : Master) (n : Fin 4) (tag : BitVec 8)
  /-- CAPTURE_DONE (R210) -/
  | captureDone (n : Fin 4)
  /-- SLOT_POWER_UPDATE (R211) -/
  | slotPowerUpdate (n : Fin 4) (p0 p1 : List (BitVec 16))
  /-- SEGMENT_SUBMIT (R219) -/
  | segmentSubmit (n : Fin 4) (k : Fin 32) (llrs : List (BitVec 5))
  /-- SEGMENT_DECODED (R220) -/
  | segmentDecoded (n : Fin 4) (k : Fin 32)
  /-- MAP_CHECK (R237) -/
  | mapCheck (m : Master) (tag : BitVec 8)
  /-- PHY_SNR_POP (R238) -/
  | phySnrPop (m : Master)
  /-- DIRECTORY_LOOKUP (R332) -/
  | directoryLookup (n : Fin 4) (k : Fin 32) (eui : BitVec 64) (moves : Nat)
  /-- INLINE_DERIVE (R476) -/
  | inlineDerive (h : BitVec 18) (next : Bool) (n : Fin 4) (k : Fin 32)
  /-- MAC_NODE_TRANSACTION (R255) -/
  | macNodeTransaction (n : Fin 4) (r : Nat)
  /-- AIM_JOB (R246) -/
  | aimJob (id : Nat)
  /-- ACK_WAIT_EXPIRED (R249) -/
  | ackWaitExpired (id : Nat)
  /-- PREDICT (R277) -/
  | predict (m : Master) (tag : BitVec 8)
  /-- BEACON_DUE (R260) -/
  | beaconDue (c : Fin 128)
  /-- BEACON_RX (R264) -/
  | beaconRx (n : Fin 4) (k : Fin 32) (air : RxAir)
  /-- PARENT_BEACON_MISS (R265) -/
  | parentBeaconMiss
  /-- PEER_EXPIRE (R264) -/
  | peerExpire (i : Fin 64)
  /-- BCN_PARENT_WRITE (R266) -/
  | bcnParentWrite (m : Master) (v : BitVec 32)
  /-- PEER_READ (R278) -/
  | peerRead (m : Master) (tag : BitVec 8)
  /-- FLOOD_RX (R269) -/
  | floodRx (n : Fin 4) (k : Fin 32) (air : RxAir)
  /-- RELAY_DELAY_END (R270) -/
  | relayDelayEnd (origin : BitVec 14) (seq : BitVec 16)
  /-- FLOOD_CACHE_EXPIRE (R268) -/
  | floodCacheExpire (origin : BitVec 14) (seq : BitVec 16)
  /-- ORIGINATE (R274) -/
  | originate (m : Master) (tag : BitVec 8)
  /-- INJECT (R274) -/
  | inject (m : Master) (tag : BitVec 8)
  /-- DIST_START (R275) -/
  | distStart (m : Master) (tag : BitVec 8)
  /-- DIST_BLOCK_GAP (R275) -/
  | distBlockGap
  /-- PEEL_POST (R312) -/
  | peelPost (m : Master)
  /-- ITEM_DUE (R291) -/
  | itemDue (k : Fin 11)
  /-- GRANT_AFTER_ROOM (R294) -/
  | grantAfterRoom (k : Fin 10)
  /-- PARK_DUE (R298) -/
  | parkDue (k : Fin 11)
  /-- JOB_RETURN (R303) -/
  | jobReturn (n : Fin 4)
  /-- PEEL_CORE_POP (R284) -/
  | peelCorePop (m : Master)
  /-- PEEL_FINISH (R305) -/
  | peelFinish (m : Master) (v : BitVec 32)
  /-- TASK_TIMEOUT (R305) -/
  | taskTimeout (id : Nat)
  /-- PEEL_DONE_POP (R313) -/
  | peelDonePop (m : Master)
  /-- PEEL_PAUSE_WRITE (R297) -/
  | peelPauseWrite (m : Master) (v : BitVec 32)
  /-- CANCEL (R320) -/
  | cancel (m : Master) (tag : BitVec 8)
  /-- FLOW_READ (R320) -/
  | flowRead (m : Master) (tag : BitVec 8)
  /-- FLOW_CANCEL (R320) -/
  | flowCancel (m : Master) (tag : BitVec 8)
  /-- LIST_DUMP (R320) -/
  | listDump (m : Master) (tag : BitVec 8) (unpaced : Bool)
  /-- DIR_INSERT (R330) -/
  | dirInsert (m : Master) (tag : BitVec 8)
  /-- DIR_DELETE (R334) -/
  | dirDelete (m : Master) (tag : BitVec 8)
  /-- DIR_LOOKUP (R354) -/
  | dirLookup (m : Master) (tag : BitVec 8) (moves : Nat)
  /-- DIR_UPDATE (R333) -/
  | dirUpdate (m : Master) (tag : BitVec 8)
  /-- DIR_SEARCH (R354) -/
  | dirSearch (m : Master) (tag : BitVec 8) (unpaced : Bool)
  /-- DIR_NEXT (R354) -/
  | dirNext (m : Master) (tag : BitVec 8)
  /-- DIR_FLUSH_PORT (R354) -/
  | dirFlushPort (m : Master) (tag : BitVec 8)
  /-- DIR_FLOW_GRANTED (R333) -/
  | dirFlowGranted
  /-- DIR_FLOW_TIMEOUT (R333) -/
  | dirFlowTimeout
  /-- L2_INSERT (R354) -/
  | l2Insert (m : Master) (e : Fin 2) (tag : BitVec 8)
  /-- L2_DELETE (R354) -/
  | l2Delete (m : Master) (e : Fin 2) (tag : BitVec 8)
  /-- L2_LOOKUP (R354) -/
  | l2Lookup (m : Master) (e : Fin 2) (tag : BitVec 8)
  /-- L2_UPDATE (R354) -/
  | l2Update (m : Master) (e : Fin 2) (tag : BitVec 8)
  /-- L2_SEARCH (R354) -/
  | l2Search (m : Master) (e : Fin 2) (tag : BitVec 8) (unpaced : Bool)
  /-- L2_NEXT (R354) -/
  | l2Next (m : Master) (e : Fin 2) (tag : BitVec 8)
  /-- FLUSH_PORT (R346) -/
  | flushPort (m : Master) (e : Fin 2) (tag : BitVec 8) (unpaced : Bool)
  /-- PREFIX_INSERT (R351) -/
  | prefixInsert (m : Master) (tag : BitVec 8)
  /-- PREFIX_DELETE (R354) -/
  | prefixDelete (m : Master) (tag : BitVec 8)
  /-- PREFIX_LOOKUP (R354) -/
  | prefixLookup (m : Master) (tag : BitVec 8)
  /-- PREFIX_UPDATE (R354) -/
  | prefixUpdate (m : Master) (tag : BitVec 8)
  /-- PREFIX_SEARCH (R354) -/
  | prefixSearch (m : Master) (tag : BitVec 8) (unpaced : Bool)
  /-- PREFIX_NEXT (R354) -/
  | prefixNext (m : Master) (tag : BitVec 8)
  /-- PREFIX_FLUSH_PORT (R354) -/
  | prefixFlushPort (m : Master) (tag : BitVec 8)
  /-- PREFIX_SPARE_MOVE (R352) -/
  | prefixSpareMove (src dst : BitVec 14)
  /-- NEXT_HOP_HI_WRITE (R353) -/
  | nextHopHiWrite (m : Master) (n : BitVec 8) (v : W32)
  /-- SIEVE_FRAME_LOOKUP (R338) -/
  | sieveFrameLookup (i : Nat)
  /-- LEARN_COMMIT (R339) -/
  | learnCommit (i : Nat)
  /-- AGE_SWEEP (R343) -/
  | ageSweep (e : Fin 2)
  /-- PIN_RELEASE (R341) -/
  | pinRelease (e : Fin 2) (idx : BitVec 16)
  /-- SIEVE_LFIFO_POP (R344) -/
  | sieveLfifoPop (m : Master) (e : Fin 2)
  /-- PORT_FRAME_RX (R32) -/
  | portFrameRx (p : Fin 10) (x : FrameFacts)
  /-- EGRESS_START (R367) -/
  | egressStart (i : Nat) (e : BitVec 4) (under : Bool)
  /-- FAULT_DECIDED (R378) -/
  | faultDecided (p : Fin 10) (c : Fin 5)
  /-- LINK_DOWN (R379) -/
  | linkDown (p : Fin 10)
  /-- FAULT_CLEARED (R383) -/
  | faultCleared (p : Fin 10) (c : BitVec 3)
  /-- LINK_UP (R380) -/
  | linkUp (p : Fin 10)
  /-- DEGRADE_INTERVAL (R381) -/
  | degradeInterval (p : Fin 10) (n blocks unc ber : Nat)
  /-- PORT_MODE_WRITE (R365) -/
  | portModeWrite (m : Master) (p : Fin 10) (lane : Bool) (v : W32)
  /-- RETRAIN (R386) -/
  | retrain (m : Master) (p : Fin 10) (tag : BitVec 8)
  /-- FORCE_DOWN (R386) -/
  | forceDown (m : Master) (p : Fin 10) (tag : BitVec 8)
  /-- PORTN_TSTX_POP (R373) -/
  | portnTstxPop (m : Master) (p : Fin 10)
  /-- SA_INSTALL (R399) -/
  | saInstall (m : Master) (tag : BitVec 8)
  /-- SA_DELETE (R402) -/
  | saDelete (m : Master) (tag : BitVec 8)
  /-- SA_READ (R426) -/
  | saRead (m : Master) (tag : BitVec 8)
  /-- SA_PN (R403) -/
  | saPn (m : Master) (tag : BitVec 8)
  /-- PN_THR64_HI_WRITE (R426) -/
  | pnThr64HiWrite (m : Master) (v : W32)
  /-- TX_ARM (R419) -/
  | txArm (m : Master) (x : Fin 3) (tag : BitVec 8)
  /-- TX_SWITCH (R420) -/
  | txSwitch (m : Master) (x : Fin 3) (tag : BitVec 8)
  /-- TX_SWITCH_APPLY (R420) -/
  | txSwitchApply (p : Fin 10)
  /-- TX_DISARM (R427) -/
  | txDisarm (m : Master) (x : Fin 3) (tag : BitVec 8)
  /-- CRUST_RX_FRAME (R404) -/
  | crustRxFrame (i : Nat)
  /-- ICV_RESULT (R408) -/
  | icvResult (i : Nat) (ok : Bool)
  /-- CRUST_TX_FRAME (R412) -/
  | crustTxFrame (i : Nat) (p : Fin 10)
  /-- LEASE_EXPIRY (R441) -/
  | leaseExpiry (q : Fin 64)
  /-- CENSUS (R454) -/
  | census (m : Master) (tag : BitVec 8) (unpaced : Bool)
  /-- RECLAIM (R457) -/
  | reclaim (m : Master) (tag : BitVec 8)
  /-- SNAP_ALL (R451) -/
  | snapAll (m : Master) (tag : BitVec 8)
  /-- LINK_READ (R459) -/
  | linkRead (m : Master) (tag : BitVec 8)
  /-- OWNER_READ (R459) -/
  | ownerRead (m : Master) (tag : BitVec 8)
  /-- REVOKE (R459) -/
  | revoke (m : Master) (tag : BitVec 8)
  /-- RACK_DROPREC_POP (R444) -/
  | rackDroprecPop (m : Master)
  /-- RACK_TRACE_POP (R445) -/
  | rackTracePop (m : Master)
  /-- DERIVE (R469) -/
  | derive (m : Master) (tag : BitVec 8)
  /-- UNWRAP (R485) -/
  | unwrap (m : Master) (tag : BitVec 8)
  /-- WRAP (R487) -/
  | wrap (m : Master) (tag : BitVec 8)
  /-- GENERATE (R487) -/
  | generate (m : Master) (tag : BitVec 8)
  /-- MKA_KEYS (R486) -/
  | mkaKeys (m : Master) (tag : BitVec 8)
  /-- SLOT_ZERO (R484) -/
  | slotZero (m : Master) (tag : BitVec 8)
  /-- SLOT_INFO (R504) -/
  | slotInfo (m : Master) (tag : BitVec 8)
  /-- MC_EXTEND (R504) -/
  | mcExtend (m : Master) (tag : BitVec 8)
  /-- MC_READ (R504) -/
  | mcRead (m : Master) (tag : BitVec 8)
  /-- LC_ADVANCE (R466) -/
  | lcAdvance (m : Master) (tag : BitVec 8)
  /-- LEGACY_OFF (R489) -/
  | legacyOff (m : Master) (tag : BitVec 8)
  /-- DERIVE_ITEM (R502) -/
  | deriveItem
  /-- RETAINED_UPDATE_COMMIT (R490) -/
  | retainedUpdateCommit
  /-- TAMPER_DECIDED (R494) -/
  | tamperDecided (src : Fin 8)
  /-- ZEROIZE_DONE (R496) -/
  | zeroizeDone
  /-- TAMP_MESH_PATTERN (R493) -/
  | tampMeshPattern
  /-- TAMP_CLEAR (R494) -/
  | tampClear (m : Master) (v : BitVec 32)
  /-- TAMP_LOCK (R495) -/
  | tampLock (m : Master) (v : BitVec 32)
  /-- TH_RELEASE (R497) -/
  | thRelease (m : Master) (tag : BitVec 8)
  /-- TAMP_LOG_POP (R501) -/
  | tampLogPop (m : Master)
  /-- PROOF_POST (R510) -/
  | proofPost (m : Master)
  /-- PROOF_READING (R516) -/
  | proofReading
  /-- PROOF_PARAM (R527) -/
  | proofParam
  /-- PROOF_ACTIVATE (R528) -/
  | proofActivate
  /-- PROOF_SELFTEST_END (R528) -/
  | proofSelftestEnd (pass : Bool)
  /-- PD2_UNDERVOLT (R508) -/
  | pd2Undervolt
  /-- PD2_RESTART (R508) -/
  | pd2Restart
  /-- PROOF_PUB_SEL_WRITE (R531) -/
  | proofPubSelWrite (m : Master) (seq : BitVec 32)
  /-- SEAL_IDENT (R529) -/
  | sealIdent
  /-- SEAL_LOG_READ (R529) -/
  | sealLogRead (arg : BitVec 32)
  /-- SEAL_REG_READ (R529) -/
  | sealRegRead (arg : BitVec 32)
  /-- SEAL_HEADS (R529) -/
  | sealHeads
  /-- SEAL_UNKNOWN_CMD (R529) -/
  | sealUnknownCmd (cmd : BitVec 8)
  /-- SEAL_REQUEST_DISCARD (R529) -/
  | sealRequestDiscard
  /-- SLOT_ERASE (R553) -/
  | slotErase (m : Master) (tag : BitVec 8)
  /-- SLOT_WRITE (R553) -/
  | slotWrite (m : Master) (tag : BitVec 8)
  /-- SLOT_VERIFY (R535) -/
  | slotVerify (m : Master) (tag : BitVec 8)
  /-- CHECK (R538) -/
  | check (m : Master) (tag : BitVec 8)
  /-- ACTIVATE (R539) -/
  | activate (m : Master) (tag : BitVec 8)
  /-- ACTIVATE_UNIT (R542) -/
  | activateUnit
  /-- LINK_WAIT_TIMEOUT (R543) -/
  | linkWaitTimeout
  /-- CONFIRM (R547) -/
  | confirm (m : Master) (tag : BitVec 8)
  /-- FALLBACK (R548) -/
  | fallback (m : Master) (tag : BitVec 8)
  /-- TRIAL_WINDOW_EXPIRED (R548) -/
  | trialWindowExpired
  /-- KEY_REVOKE (R553) -/
  | keyRevoke (m : Master) (tag : BitVec 8)
  /-- PCIE_LINK_LOSS (R556) -/
  | pcieLinkLoss
  /-- PCIE_FLR (R556) -/
  | pcieFlr
  /-- PERST (R597) -/
  | perst
  /-- DMA_ERROR (R557) -/
  | dmaError (crc : Bool) (q : Fin 64)
  /-- Q_CREATE (R559) -/
  | qCreate (m : Master) (tag : BitVec 8)
  /-- Q_DELETE (R560) -/
  | qDelete (m : Master) (tag : BitVec 8)
  /-- RX_RET (R564) -/
  | rxRet (m : Master) (q : Fin 64) (n : BitVec 13)
  /-- TX_POST (R566) -/
  | txPost (m : Master) (q : Fin 64) (n : BitVec 13)
  /-- TX_DESCRIPTOR_FETCH (R566) -/
  | txDescriptorFetch (q : Fin 64) (len : BitVec 14) (dest : Fin 16) (tsReq oneStep : Bool) (tag : BitVec 16) (offset : BitVec 14) (x : FrameFacts) (data : List Octet)
  /-- HOST_DELIVER (R563) -/
  | hostDeliver (q : Fin 64) (message : Option (Fin 4 × BitVec 18))
  /-- PARK_EXPIRED (R567) -/
  | parkExpired (cell : Nat)
  /-- COAL_TIMER (R572) -/
  | coalTimer (q : Fin 64) (tx : Bool)
  /-- MSIX_UNMASK (R572) -/
  | msixUnmask (m : Master) (v : Fin 64)
  /-- BAR2_ACCESS (R558) -/
  | bar2Access (write : Bool) (a : BitVec 28) (n : BitVec 12) (l : List Octet)
  /-- SPI_WRITE (R574) -/
  | spiWrite (a : BitVec 24) (words : List (BitVec 32)) (crc : BitVec 16) (risen : Bool)
  /-- SPI_READ (R574) -/
  | spiRead (a : BitVec 24) (n : Fin 16) (crc : BitVec 16)
  /-- CRC_GO (R577) -/
  | crcGo (m : Master) (c : Fin 24)
  /-- CRC_STOP (R579) -/
  | crcStop (m : Master) (c : Fin 24)
  /-- CRC_JOB_DONE (R577) -/
  | crcJobDone (c : Fin 24) (host : List Octet)
  /-- GPIO_INPUT_CHANGE (R599) -/
  | gpioInputChange (pin : Fin 48) (level : Bool)
  /-- SA_DELETE_DRAINED (R402) -/
  | saDeleteDrained
  /-- FWU_DRAIN_EXPIRED (R542) -/
  | fwuDrainExpired
  /-- CTRL_FIRMWARE_RUNNING (R542) -/
  | ctrlFirmwareRunning
  /-- TAMPER_SOURCE_CLEARED (R494) -/
  | tamperSourceCleared (src : Fin 8)
  /-- TRIGGER_PULSE_END (R140) -/
  | triggerPulseEnd (ch : Fin 16)
  /-- PCIE_LINK_UP (R555) -/
  | pcieLinkUp (speed : Fin 4) (width : Fin 3)
  deriving DecidableEq, Repr

end Sys2Proof
end

