-- ==== Sys2Proof/Machine/State.lean ====
section
/-! DEFINITION. The state of the block, its reset, and the reasons a step can stop. -/

namespace Sys2Proof.Machine

/-- Reasons a step stops with a fault: none.  The spec gives every command an effect on every state. -/
inductive Fault where
  deriving DecidableEq, Repr

/-- Reasons a command is refused. -/
inductive Refusal where
  /-- The command has no meaning in the model yet; raised by its arm of `exec`.  Safe: nothing follows from it. -/
  | notModelled (mnemonic : String)
  deriving DecidableEq, Repr

/-- The device.  Registers are held in `regs` by BAR0 byte address; one that is not listed holds its reset value; a register of which
each master has its own copy stands at its address + 0x4000000 × (1 + the master's number). -/
structure State where
  regs : AMap W32 := []
  /-- values in force of registers with staged fields, where they differ from the value last written (R80) -/
  applied : AMap W32 := []
  blocks : AMap BlockSt := []
  devCommit : Option DevCommit := none
  /-- SYS_OFF_WRITES (R21), SYS_UNMAPPED (R55) and SYS_SPI_ERR (R574) -/
  offWrites : Nat := 0
  unmapped : Nat := 0
  spiErr : Nat := 0
  gov : GovSt := {}
  /-- boundary FIFOs, in the order of FAB_BFIFO_STAT (R46) -/
  bfifo : AMap BFifo := []
  tb : TbSt := {}
  trig : TrigSt := {}
  rack : RackSt := {}
  boot : Boot := .running
  /-- HOLD entry has begun (R112): no admission, no dispatch -/
  entering : Bool := false
  /-- a wake event latched during HOLD entry (R113) -/
  wake : Option Nat := none
  peel : PeelSt := {}
  dir : DirSt := {}
  ret : RetSt := {}
  host : HostSt := {}
  wb : AMap WbSt := []
  phy : PhySt := {}
  rf : AMap ChainSt := []
  mac : MacSt := {}
  bcn : BcnSt := {}
  flood : FloodSt := {}
  starter : StarterSt := {}
  tamp : TampSt := {}
  ports : AMap PortSt := []
  /-- frames between a port or a host queue and their egresses; their numbers are names -/
  frames : AMap Frame := []
  sieve : AMap SieveSt := []
  /-- prefix entries by slot (R349) -/
  prefixes : AMap PrefixEntry := []
  crust : CrustSt := {}
  proof : ProofSt := {}
  fwu : FwuSt := {}
  crc : CrcSt := {}
  tap : TapSt := {}
  /-- octets of the boot NOR written since the factory (R533), by address -/
  nor : AMap Nat := []
  /-- the commands the QSPI controller sent to the NOR for the last operation, in order (R575) -/
  qspi : List NorCmd := []
  /-- a software reset is to follow (R466, R548): its bit of PWR_RST_CAUSE -/
  resetAsked : Option Nat := none
  /-- the DRAM that BAR2 shows (R558), as addresses of the window and octets that differ from 0 -/
  dram : List Host.Cell := []
  /-- what the last register read put on the bus, and what the last SPI read returned -/
  busData : W32 := 0
  spiData : List W32 := []
  /-- MSI-X messages sent, by vector (R571) -/
  msixSent : AMap Nat := []
  /-- the model's own: how many free values have been drawn (log entry 5) -/
  freeCtr : Nat := 0
  pending : List Instr := []
  deriving DecidableEq, Repr

/-- The machine right after reset. -/
def State.reset : State := {}

/-- A meaning's answer. -/
abbrev Answer := Host.Outcome State Fault Refusal

end Sys2Proof.Machine
end

