-- ==== Sys2Proof/Machine/Coding.lean ====
section
/-! DEFINITION. Bits of a frame and their codes (R213, R217 to R219, R223): checks, whitening, the convolutional codes with their
puncturing, interleaving, and the soft-decision Viterbi decoder of the pool.  What is the standard's alone is PRESUMED (log entry 76). -/

namespace Sys2Proof.Machine

/-! ## Bits -/

/-- Octets as bits in the order sent, least significant bit of each first. -/
def sentBits (l : List Octet) : List Bool := l.flatMap fun o => (List.range 8).map fun i => o.getLsbD i

/-- Bits, most significant first, as a number. -/
def msbNum (l : List Bool) : Nat := l.foldl (fun a b => 2 * a + b.toNat) 0

/-- A number as `w` bits, most significant first. -/
def msbBits (w x : Nat) : List Bool := (List.range w).map fun i => natBit x (w - 1 - i)

/-- Whole octets of bits in the order sent. -/
def packBits (l : List Bool) : List Octet :=
  (List.range (l.length / 8)).map fun i => BitVec.ofNat 8 (msbNum ((l.drop (8 * i)).take 8).reverse)

/-- The remainder of bits under a generator of degree `w` whose lower coefficients are `poly`. -/
def crcBits (w poly start : Nat) (l : List Bool) : Nat :=
  l.foldl (fun r b => (2 * r % 2 ^ w) ^^^ (if natBit r (w - 1) != b then poly else 0)) start

/-- The CRC-8 of the map block, x^8 + x^2 + x + 1 (R223); it starts from 0 (DESIGN CHOICE, log entry 76). -/
def mapCrc (l : List Bool) : Nat := crcBits 8 0x07 0 l

/-- The header check of an OFDM PHR, of the same generator. -/
def headerCheck (l : List Bool) : Nat := crcBits 8 0x07 0xFF l

/-- The FCS octets of a frame: four (R213) or two. -/
def fcsOctets (four : Bool) (l : List Octet) : List Octet :=
  packBits (if four then msbBits 32 (crcBits 32 0x04C11DB7 0xFFFFFFFF (sentBits l) ^^^ 0xFFFFFFFF)
    else msbBits 16 (crcBits 16 0x1021 0 (sentBits l)))

/-- Does a PSDU end with its FCS? -/
def fcsGood (four : Bool) (psdu : List Octet) : Bool :=
  let n := psdu.length - (if four then 4 else 2)
  psdu.drop n == fcsOctets four (psdu.take n)

/-- The PN9 sequence x^9 + x^5 + 1 from a register. -/
def pn9 : Nat → Nat → List Bool
  | 0, _ => []
  | n + 1, r =>
    let b := natBit r 4 != natBit r 8
    b :: pn9 n ((2 * r + b.toNat) % 512)

/-- Bits whitened, or made plain again, under a seed. -/
def whiten (seed : Nat) (l : List Bool) : List Bool := List.zipWith (· != ·) l (pn9 l.length seed)

/-- The scrambler seeds of SUN OFDM by the PHR's scrambler field. -/
def ofdmSeed (i : Nat) : Nat := match i with
  | 0 => 0b000010111
  | 1 => 0b101110111
  | 2 => 0b000011100
  | _ => 0b101111100

/-! ## Convolutional codes (R217, R218) -/

/-- A code of rate 1/2: its memory, its two generators, and what gives an input bit from the register (for a systematic recursive code its
feedback).  The register holds the newest bit above the `m` bits before it. -/
structure ConvCode where
  m : Nat
  a : Nat
  b : Nat
  u : Nat
  deriving DecidableEq, Repr

/-- Constraint length 7, generators 133 and 171 octal (R217). -/
def codeK7 : ConvCode := ⟨6, 0o133, 0o171, 0o100⟩

/-- The two codes of SUN FSK, constraint length 4 (R218). -/
def codeNrnsc : ConvCode := ⟨3, 0o17, 0o15, 0o10⟩
def codeRsc : ConvCode := ⟨3, 0o15, 0o17, 0o15⟩

/-- The parity of a register of at most 7 bits. -/
def parity (x : Nat) : Bool := (List.range 7).foldl (fun p i => p != natBit x i) false

/-- The register as a bit enters. -/
def ConvCode.reg (c : ConvCode) (p : Nat) (x : Bool) : Nat := p + (if x != parity (p &&& c.u) then 2 ^ c.m else 0)

/-- The state after bits. -/
def ConvCode.stateAfter (c : ConvCode) (p : Nat) (l : List Bool) : Nat := l.foldl (fun p x => c.reg p x / 2) p

/-- The code bits A1 B1 A2 B2 … from a state. -/
def ConvCode.encode (c : ConvCode) : Nat → List Bool → List Bool
  | _, [] => []
  | p, x :: r =>
    let g := c.reg p x
    parity (g &&& c.a) :: parity (g &&& c.b) :: c.encode (g / 2) r

/-- The tail that returns a state to zero (R217). -/
def ConvCode.tail (c : ConvCode) : Nat → Nat → List Bool
  | 0, _ => []
  | n + 1, p => parity (p &&& c.u) :: c.tail n (p / 2)

/-- Bits with their tail. -/
def ConvCode.tailed (c : ConvCode) (l : List Bool) : List Bool := l ++ c.tail c.m (c.stateAfter 0 l)

/-- Code rates 0, 1, 2 as numerator and denominator (R217). -/
def rateNum (r : Nat) : Nat × Nat := match r with
  | 0 => (1, 2)
  | 1 => (2, 3)
  | _ => (3, 4)

/-- Which of the code bits A1 B1 A2 B2 A3 B3 a rate sends (R217). -/
def keepOf (r : Nat) : List Bool := match r with
  | 0 => [true, true]
  | 1 => [true, true, true, false]
  | _ => [true, true, true, false, false, true]

/-- The code bits a rate sends, from the place `i` of its pattern on. -/
def puncture (keep : List Bool) : Nat → List Bool → List Bool
  | _, [] => []
  | i, x :: r =>
    if nth keep (i % keep.length) true then x :: puncture keep (i + 1) r else puncture keep (i + 1) r

/-- The coded length of n input bits (R217). -/
def codedLen (r n : Nat) : Nat := ceilDiv (n * (rateNum r).2) (rateNum r).1

/-! ## Interleaving (R213, R218, R221) -/

/-- Where in a block of 16 code bits the FSK interleaver puts a bit; it is its own inverse. -/
def fskSwap (k : Nat) : Nat := 15 - 4 * (k % 4) - k / 4

/-- FSK interleaving and deinterleaving, block by block. -/
def fskInterleave {α} [Inhabited α] (l : List α) : List α :=
  (List.range l.length).map fun k => nth l (16 * (k / 16) + fskSwap (k % 16)) default

/-- Which code bit of an OFDM symbol of `n` bits goes to place j: `rows` of the standard, `bpsc` bits a point. -/
def ofdmPlace (n rows bpsc j : Nat) : Nat :=
  let s := max 1 (bpsc / 2)
  let i := s * (j / s) + (j + rows * j / n) % s
  rows * i - (n - 1) * (rows * i / n)

/-- The bits of a symbol in the order of its points, and back. -/
def ofdmInterleave (rows bpsc : Nat) (l : List Bool) : List Bool :=
  (List.range l.length).map fun j => nth l (ofdmPlace l.length rows bpsc j) false
def ofdmDeinterleave {α} [Inhabited α] (rows bpsc : Nat) (l : List α) : List α :=
  (List.range l.length).map fun k =>
    match (List.range l.length).find? fun j => ofdmPlace l.length rows bpsc j == k with
    | some j => nth l j default
    | none => default

/-! ## The Viterbi decoder (R219) -/

/-- What a soft value of 5 bits speaks against a code bit: a positive value favours 0 (DESIGN CHOICE, log entry 76). -/
def against (x : Int) (bit : Bool) : Nat := if bit then x.toNat else (-x).toNat

/-- The path metrics as decoding starts in the zero state. -/
def startMetrics (c : ConvCode) : List Nat := 0 :: List.replicate (2 ^ c.m - 1) 1000000

/-- The state before state q when the bit that left the register was e. -/
def ConvCode.before (c : ConvCode) (q : Nat) (e : Bool) : Nat := 2 * (q % 2 ^ (c.m - 1)) + e.toNat

/-- The register on the way from that state to q. -/
def ConvCode.way (c : ConvCode) (q : Nat) (e : Bool) : Nat := c.before q e + 2 ^ c.m * (q / 2 ^ (c.m - 1))

/-- The bits on the way back from a state, newest first. -/
def ConvCode.trace (c : ConvCode) : Nat → List (List Bool) → List Bool
  | _, [] => []
  | q, v :: r =>
    let e := nth v q false
    parity (c.way q e &&& c.u) :: c.trace (c.before q e) r

/-- The first state of least metric. -/
def bestState (l : List Nat) : Nat := (l.idxOf? (l.foldl min (nth l 0 0))).getD 0

/-- One step for a pair of soft values: each state keeps its better way; the bit 64 steps back is decided from the best state. -/
def Decoder.step (c : ConvCode) (d : Decoder) (x y : Int) : Decoder :=
  let m := if d.metrics.isEmpty then startMetrics c else d.metrics
  let cost (q : Nat) (e : Bool) : Nat :=
    nth m (c.before q e) 0 + against x (parity (c.way q e &&& c.a)) + against y (parity (c.way q e &&& c.b))
  let odd := (List.range (2 ^ c.m)).map fun q => decide (cost q true < cost q false)
  let new := (List.range (2 ^ c.m)).map fun q => cost q (nth odd q false)
  let least := new.foldl min (nth new 0 0)
  let d := { d with metrics := new.map (· - least), survivors := odd :: d.survivors, half := none }
  if d.survivors.length ≤ 64 then d
  else { d with survivors := d.survivors.take 64, bits := d.bits ++ [(c.trace (bestState d.metrics) d.survivors).getLastD false] }

/-- A soft value at the next place of the code stream. -/
def Decoder.place1 (c : ConvCode) (d : Decoder) (x : Int) : Decoder :=
  let d := { d with place := d.place + 1 }
  match d.half with
  | none => { d with half := some x }
  | some a => d.step c a x

/-- A soft value received: the places that the rate does not send and that follow it get the value 0. -/
def Decoder.feed (c : ConvCode) (keep : List Bool) (d : Decoder) (x : Int) : Decoder :=
  (List.range 2).foldl (fun d _ => if nth keep (d.place % keep.length) true then d else d.place1 c 0) (d.place1 c x)

/-- A segment is decoded (R219). -/
def Decoder.segment (c : ConvCode) (keep : List Bool) (d : Decoder) (l : List Int) : Decoder := l.foldl (Decoder.feed c keep) d

/-- The bits of a frame whose code ended in the zero state. -/
def Decoder.finish (c : ConvCode) (d : Decoder) : List Bool := d.bits ++ (c.trace 0 d.survivors).reverse

end Sys2Proof.Machine
end

