-- ==== Sys2Proof/Machine/Crypto.lean ====
section
/-! DEFINITION. The cryptographic functions the spec names: AES (FIPS 197), AES-CMAC (SP 800-38B), the KDF of R468 over it, SHA-384
(FIPS 180-4), key wrap KW (SP 800-38F) and the MKA key derivation of IEEE 802.1X-2020.  The spec names them and does not define
them: they are taken from those standards.  PRESUMED, log entry 9. -/

namespace Sys2Proof.Machine

/-! ## AES -/

/-- The S-box, entry i in octet i of the number. -/
def sboxNum : Nat := 0x16bb54b00f2d99416842e6bf0d89a18cdf2855cee9871e9b948ed9691198f8e19e1dc186b95735610ef6034866b53e708a8bbd4b1f74dde8c6b4a61c2e2578ba08ae7a65eaf4566ca94ed58d6d37c8e779e4959162acd3c25c2406490a3a32e0db0b5ede14b8ee4688902a22dc4f816073195d643d7ea7c41744975fec130ccdd2f3ff1021dab6bcf5389d928f40a351a89f3c507f02f94585334d43fbaaefd0cf584c4a39becb6a5bb1fc20ed00d153842fe329b3d63b52a05a6e1b1a2c830975b227ebe28012079a059618c323c7041531d871f1e5a534ccf73f362693fdb7c072a49cafa2d4adf04759fa7dc982ca76abd7fe2b670130c56f6bf27b777c63

/-- The inverse S-box. -/
def invSboxNum : Nat := 0x7d0c2155631469e126d677ba7e042b17619953833cbbebc8b0f52aae4d3be0a0ef9cc9939f7ae52d0d4ab519a97f51605fec8027591012b131c7078833a8dd1ff45acd78fec0db9a2079d2c64b3e56fc1bbe18aa0e62b76f89c5291d711af1476edf751ce837f9e28535ade72274ac9673e6b4f0cecff297eadc674f4111913a6b8a130103bdafc1020f3fca8f1e2cd00645b3b80558e4f70ad3bc8c00abd890849d8da75746155edab9edfd5048706c92b6655dcc5ca4d41698688664f6f87225d18b6d49a25b76b224d92866a12e084ec3fa420b954cee3d23c2a632947b54cbe9dec444438e3487ff2f9b8239e37cfbd7f3819ea340bf38a53630d56a0952

/-- A table of octets packed in a number. -/
def octetAt (t i : Nat) : Nat := (t >>> (8 * i)) % 256

/-- Multiplication by x in the field of AES. -/
def xtime (b : Nat) : Nat := if 128 ≤ b then (2 * b) ^^^ 0x11B else 2 * b

/-- Product in the field of AES with a factor of at most four bits. -/
def gfMul (k b : Nat) : Nat :=
  let b2 := xtime b
  let b4 := xtime b2
  let b8 := xtime b4
  (if natBit k 0 then b else 0) ^^^ (if natBit k 1 then b2 else 0) ^^^ (if natBit k 2 then b4 else 0) ^^^ (if natBit k 3 then b8 else 0)

/-- Octet-wise exclusive or. -/
def xorList (a b : List Nat) : List Nat := List.zipWith (· ^^^ ·) a b

/-- The key schedule: `n` words beyond those given, latest first; `nk` words in the key. -/
def keySchedule (nk : Nat) : Nat → Nat → List (List Nat) → List (List Nat)
  | 0, _, ws => ws
  | n + 1, rcon, ws =>
    let i := ws.length
    let last := ws.headD []
    let old := ws.getD (nk - 1) []
    let sub (w : List Nat) := w.map (octetAt sboxNum)
    let t := if i % nk = 0 then xorList (sub (last.drop 1 ++ last.take 1)) [rcon, 0, 0, 0]
      else if nk = 8 ∧ i % 8 = 4 then sub last else last
    keySchedule nk n (if i % nk = 0 then xtime rcon else rcon) (xorList old t :: ws)

/-- Cut a list into pieces of four. -/
def fours : List Nat → List (List Nat)
  | a :: b :: c :: d :: r => [a, b, c, d] :: fours r
  | _ => []

/-- Join pieces of 16 octets out of words. -/
def roundKeys : List (List Nat) → List (List Nat)
  | a :: b :: c :: d :: r => (a ++ b ++ c ++ d) :: roundKeys r
  | _ => []

/-- The round keys of a key of 16 or 32 octets, in order. -/
def aesKeys (key : List Nat) : List (List Nat) :=
  let nk := key.length / 4
  roundKeys (keySchedule nk (4 * (nk + 7) - nk) 1 (fours key).reverse).reverse

/-- ShiftRows: octet i comes from place j of the list. -/
def permute (p st : List Nat) : List Nat := p.map fun j => st.getD j 0

/-- The places of ShiftRows and of its inverse. -/
def shiftRowsP : List Nat := [0, 5, 10, 15, 4, 9, 14, 3, 8, 13, 2, 7, 12, 1, 6, 11]
def invShiftRowsP : List Nat := [0, 13, 10, 7, 4, 1, 14, 11, 8, 5, 2, 15, 12, 9, 6, 3]

/-- MixColumns with the four coefficients of its first row. -/
def mixColumns (a b c d : Nat) : List Nat → List Nat
  | w :: x :: y :: z :: r =>
    (gfMul a w ^^^ gfMul b x ^^^ gfMul c y ^^^ gfMul d z) :: (gfMul d w ^^^ gfMul a x ^^^ gfMul b y ^^^ gfMul c z)
    :: (gfMul c w ^^^ gfMul d x ^^^ gfMul a y ^^^ gfMul b z) :: (gfMul b w ^^^ gfMul c x ^^^ gfMul d y ^^^ gfMul a z)
    :: mixColumns a b c d r
  | _ => []

/-- The rounds of the cipher after the first key addition. -/
def encRounds (st : List Nat) : List (List Nat) → List Nat
  | [] => st
  | [k] => xorList (permute shiftRowsP (st.map (octetAt sboxNum))) k
  | k :: r => encRounds (xorList (mixColumns 2 3 1 1 (permute shiftRowsP (st.map (octetAt sboxNum)))) k) r

/-- AES encryption of a block. -/
def aesEnc (key block : List Nat) : List Nat :=
  match aesKeys key with
  | [] => block
  | k :: r => encRounds (xorList block k) r

/-- The rounds of the inverse cipher, keys last first, after the first key addition. -/
def decRounds (st : List Nat) : List (List Nat) → List Nat
  | [] => st
  | [k] => xorList ((permute invShiftRowsP st).map (octetAt invSboxNum)) k
  | k :: r => decRounds (mixColumns 14 11 13 9 (xorList ((permute invShiftRowsP st).map (octetAt invSboxNum)) k)) r

/-- AES decryption of a block. -/
def aesDec (key block : List Nat) : List Nat :=
  match (aesKeys key).reverse with
  | [] => block
  | k :: r => decRounds (xorList block k) r

/-! ## Octets and numbers, most significant octet first -/

/-- A number as n octets. -/
def beList : Nat → Nat → List Nat
  | 0, _ => []
  | n + 1, x => beList n (x / 256) ++ [x % 256]

/-- Octets as a number. -/
def beNum (l : List Nat) : Nat := l.foldl (fun a b => 256 * a + b) 0

/-- Octets of a text. -/
def ascii (t : String) : List Nat := t.toList.map Char.toNat

/-! ## CMAC and the derivation functions -/

/-- Doubling of SP 800-38B. -/
def cmacDouble (x : Nat) : Nat := if 2 ^ 127 ≤ x then (2 * x % 2 ^ 128) ^^^ 0x87 else 2 * x

/-- The chain of CMAC over whole blocks but the last. -/
def cmacChain (key : List Nat) (acc : List Nat) : Nat → List Nat → List Nat
  | 0, _ => acc
  | n + 1, m => cmacChain key (aesEnc key (xorList acc (m.take 16))) n (m.drop 16)

/-- AES-CMAC. -/
def cmac (key msg : List Nat) : List Nat :=
  let k1 := cmacDouble (beNum (aesEnc key (List.replicate 16 0)))
  let blocks := (msg.length - 1) / 16
  let tail := msg.drop (16 * blocks)
  let last := if tail.length = 16 then xorList tail (beList 16 k1)
    else xorList (tail ++ [0x80] ++ List.replicate (15 - tail.length) 0) (beList 16 (cmacDouble k1))
  aesEnc key (xorList (cmacChain key (List.replicate 16 0) blocks msg) last)

/-- The KDF of R468, output length in octets (16 or 32). -/
def kdf (key label context : List Nat) (len : Nat) : List Nat :=
  ((List.range ((len + 15) / 16)).flatMap fun i =>
    cmac key (beList 4 (i + 1) ++ label ++ [0] ++ context ++ beList 4 (8 * len))).take len

/-- The KDF of IEEE 802.1X-2020 6.2.1, output length in octets. -/
def mkaKdf (key label context : List Nat) (len : Nat) : List Nat :=
  ((List.range ((len + 15) / 16)).flatMap fun i =>
    cmac key ([i + 1] ++ label ++ [0] ++ context ++ beList 2 (8 * len))).take len

/-! ## Key wrap (SP 800-38F KW) -/

/-- Cut octets into n pieces of 8. -/
def eights : Nat → List Nat → List (List Nat)
  | 0, _ => []
  | n + 1, l => l.take 8 :: eights n (l.drop 8)

/-- The steps of wrapping: A and the semiblocks, the next of which stands first. -/
def kwSteps (kek : List Nat) : Nat → Nat → List Nat → List (List Nat) → List Nat × List (List Nat)
  | 0, _, a, r => (a, r)
  | n + 1, t, a, r =>
    let b := aesEnc kek (a ++ r.headD [])
    kwSteps kek n (t + 1) (xorList (b.take 8) (beList 8 t)) (r.drop 1 ++ [b.drop 8])

/-- Wrap a key of a multiple of 8 octets. -/
def kwWrap (kek key : List Nat) : List Nat :=
  let n := key.length / 8
  let x := kwSteps kek (6 * n) 1 (List.replicate 8 0xA6) (eights n key)
  x.1 ++ x.2.flatten

/-- The steps of unwrapping: the last semiblock is the next. -/
def kwUnsteps (kek : List Nat) : Nat → List Nat → List (List Nat) → List Nat × List (List Nat)
  | 0, a, r => (a, r)
  | t + 1, a, r =>
    let b := aesDec kek (xorList a (beList 8 (t + 1)) ++ r.getLastD [])
    kwUnsteps kek t (b.take 8) (b.drop 8 :: r.dropLast)

/-- Unwrap; nothing if the check fails. -/
def kwUnwrap (kek blob : List Nat) : Option (List Nat) :=
  let n := blob.length / 8 - 1
  let x := kwUnsteps kek (6 * n) (blob.take 8) (eights n (blob.drop 8))
  if x.1 = List.replicate 8 0xA6 then some x.2.flatten else none

/-! ## SHA-384 -/

/-- The 64-bit words of a number of n words, first word first. -/
def wordsOf (n x : Nat) : List Nat := (List.range n).map fun i => x >>> (64 * (n - 1 - i)) % 2 ^ 64

/-- The round constants, twenty to a number. -/
def shaK : List Nat :=
  wordsOf 20 0x428a2f98d728ae227137449123ef65cdb5c0fbcfec4d3b2fe9b5dba58189dbbc3956c25bf348b53859f111f1b605d019923f82a4af194f9bab1c5ed5da6d8118d807aa98a303024212835b0145706fbe243185be4ee4b28c550c7dc3d5ffb4e272be5d74f27b896f80deb1fe3b1696b19bdc06a725c71235c19bf174cf692694e49b69c19ef14ad2efbe4786384f25e30fc19dc68b8cd5b5240ca1cc77ac9c65
  ++ wordsOf 20 0x2de92c6f592b02754a7484aa6ea6e4835cb0a9dcbd41fbd476f988da831153b5983e5152ee66dfaba831c66d2db43210b00327c898fb213fbf597fc7beef0ee4c6e00bf33da88fc2d5a79147930aa72506ca6351e003826f142929670a0e6e7027b70a8546d22ffc2e1b21385c26c9264d2c6dfc5ac42aed53380d139d95b3df650a73548baf63de766a0abb3c77b2a881c2c92e47edaee692722c851482353b
  ++ wordsOf 20 0xa2bfe8a14cf10364a81a664bbc423001c24b8b70d0f89791c76c51a30654be30d192e819d6ef5218d69906245565a910f40e35855771202a106aa07032bbd1b819a4c116b8d2d0c81e376c085141ab532748774cdf8eeb9934b0bcb5e19b48a8391c0cb3c5c95a634ed8aa4ae3418acb5b9cca4f7763e373682e6ff3d6b2b8a3748f82ee5defb2fc78a5636f43172f6084c87814a1f0ab728cc702081a6439ec
  ++ wordsOf 20 0x90befffa23631e28a4506cebde82bde9bef9a3f7b2c67915c67178f2e372532bca273eceea26619cd186b8c721c0c207eada7dd6cde0eb1ef57d4f7fee6ed17806f067aa72176fba0a637dc5a2c898a6113f9804bef90dae1b710b35131c471b28db77f523047d8432caab7b40c724933c9ebe0a15c9bebc431d67c49c100d4c4cc5d4becb3e42b6597f299cfc657e2a5fcb6fab3ad6faec6c44198c4a475817

/-- The initial hash value of SHA-384. -/
def shaIv : List Nat :=
  wordsOf 8 0xcbbb9d5dc1059ed8629a292a367cd5079159015a3070dd17152fecd8f70e593967332667ffc00b318eb44a8768581511db0c2e0d64f98fa747b5481dbefa4fa4

/-- Rotate a 64-bit number right. -/
def ror64 (n x : Nat) : Nat := ((x >>> n) ||| (x <<< (64 - n))) % 2 ^ 64

/-- One word of the message schedule after 16, latest first. -/
def shaSchedule : Nat → List Nat → List Nat
  | 0, w => w
  | n + 1, w =>
    let x := w.getD 14 0
    let y := w.getD 1 0
    let s0 := ror64 1 x ^^^ ror64 8 x ^^^ (x >>> 7)
    let s1 := ror64 19 y ^^^ ror64 61 y ^^^ (y >>> 6)
    shaSchedule n (((w.getD 15 0 + s0 + w.getD 6 0 + s1) % 2 ^ 64) :: w)

/-- The eight working variables of SHA-2. -/
structure ShaVars where
  a : Nat
  b : Nat
  c : Nat
  d : Nat
  e : Nat
  f : Nat
  g : Nat
  h : Nat

/-- One round. -/
def ShaVars.round (v : ShaVars) (kw : Nat) : ShaVars :=
  let s1 := ror64 14 v.e ^^^ ror64 18 v.e ^^^ ror64 41 v.e
  let ch := (v.e &&& v.f) ^^^ ((2 ^ 64 - 1 - v.e) &&& v.g)
  let t1 := v.h + s1 + ch + kw
  let s0 := ror64 28 v.a ^^^ ror64 34 v.a ^^^ ror64 39 v.a
  let maj := (v.a &&& v.b) ^^^ (v.a &&& v.c) ^^^ (v.b &&& v.c)
  ⟨(t1 + s0 + maj) % 2 ^ 64, v.a, v.b, v.c, (v.d + t1) % 2 ^ 64, v.e, v.f, v.g⟩

/-- Big-endian 64-bit words of a block. -/
def words64 : Nat → List Nat → List Nat
  | 0, _ => []
  | n + 1, l => beNum (l.take 8) :: words64 n (l.drop 8)

/-- One block of 128 octets. -/
def shaBlock (hs block : List Nat) : List Nat :=
  let w := (shaSchedule 64 (words64 16 block).reverse).reverse
  let v0 : ShaVars := ⟨hs.getD 0 0, hs.getD 1 0, hs.getD 2 0, hs.getD 3 0, hs.getD 4 0, hs.getD 5 0, hs.getD 6 0, hs.getD 7 0⟩
  let v := (List.zipWith (· + ·) shaK w).foldl ShaVars.round v0
  List.zipWith (fun x y => (x + y) % 2 ^ 64) hs [v.a, v.b, v.c, v.d, v.e, v.f, v.g, v.h]

/-- The blocks of a padded message. -/
def shaBlocks (hs : List Nat) : Nat → List Nat → List Nat
  | 0, _ => hs
  | n + 1, m => shaBlocks (shaBlock hs (m.take 128)) n (m.drop 128)

/-- SHA-384 of octets: 48 octets. -/
def sha384 (m : List Nat) : List Nat :=
  let pad := m ++ [0x80] ++ List.replicate ((128 - (m.length + 17) % 128) % 128) 0 ++ beList 16 (8 * m.length)
  ((shaBlocks shaIv (pad.length / 128) pad).flatMap (beList 8)).take 48

end Sys2Proof.Machine
end

