-- ==== Sys2Proof/Machine/MacFrame.lean ====
section
/-! DEFINITION. MAC frames as octets (R18, R206, R240 to R242, R249, R253 to R255, R261, R267): AES-CCM*, the fields of a received frame,
security applied and removed, and the frames the device builds.  Formats of IEEE 802.15.4-2020 are PRESUMED (log entry 77). -/

namespace Sys2Proof.Machine

/-! ## AES-CCM* -/

/-- Octets as numbers, and back. -/
def toNats (l : List Octet) : List Nat := l.map (·.toNat)
def toOctets (l : List Nat) : List Octet := l.map (BitVec.ofNat 8)

/-- Octets filled with zeros to whole blocks of 16. -/
def padBlock (l : List Nat) : List Nat := l ++ List.replicate ((16 - l.length % 16) % 16) 0

/-- A CBC-MAC over n whole blocks. -/
def cbcMac (key : List Nat) : Nat → List Nat → List Nat → List Nat
  | 0, x, _ => x
  | n + 1, x, m => cbcMac key n (aesEnc key (xorList x (m.take 16))) (m.drop 16)

/-- The MIC of CCM* before it is encrypted: `mic` octets over header `a` and message `m`. -/
def ccmTag (key nonce a m : List Nat) (mic : Nat) : List Nat :=
  let flags := (if a.isEmpty then 0 else 64) + (mic - 2) / 2 * 8 + 1
  let l := [flags] ++ nonce ++ beList 2 m.length ++ (if a.isEmpty then [] else padBlock (beList 2 a.length ++ a)) ++ padBlock m
  (cbcMac key (l.length / 16) (List.replicate 16 0) l).take mic

/-- n blocks of key stream from counter i. -/
def ccmStream (key nonce : List Nat) (i n : Nat) : List Nat :=
  (List.range n).flatMap fun j => aesEnc key ([1] ++ nonce ++ beList 2 (i + j))

/-- Encrypt or decrypt a message. -/
def ccmCrypt (key nonce m : List Nat) : List Nat := xorList m (ccmStream key nonce 1 (ceilDiv m.length 16))

/-- The MIC as sent. -/
def ccmMic (key nonce a m : List Nat) (mic : Nat) : List Nat := xorList (ccmTag key nonce a m mic) (ccmStream key nonce 0 1)

/-- MIC octets of a security level. -/
def micLen (level : Nat) : Nat := match level % 4 with
  | 0 => 0
  | 1 => 4
  | 2 => 8
  | _ => 16

/-- The nonce of a frame: the sender's EUI-64, the frame counter and the level. -/
def nonceOf (eui fc level : Nat) : List Nat := beList 8 eui ++ beList 4 fc ++ [level]

/-! ## The fields of a frame -/

/-- Octets of an address by its mode: none, short, extended. -/
def addrLen (mode : Nat) : Nat := if mode = 3 then 8 else if mode = 2 then 2 else 0

/-- A piece of a frame. -/
def piece (l : List Octet) (i n : Nat) : List Octet := (l.drop i).take n

/-- The MAC header of a frame: frame control, where the source address and the auxiliary security header stand. -/
structure Mhr where
  control : Nat
  seq : Option (BitVec 8)
  srcAt : Nat
  auxAt : Nat
  deriving DecidableEq, Repr

/-- Frame control: type, security, acknowledgement request, IEs, source address mode, version. -/
def Mhr.type (h : Mhr) : Nat := natBits h.control 0 3
def Mhr.secured (h : Mhr) : Bool := natBit h.control 3
def Mhr.ackReq (h : Mhr) : Bool := natBit h.control 5
def Mhr.ies (h : Mhr) : Bool := natBit h.control 9 && 2 ≤ natBits h.control 12 2
def Mhr.srcMode (h : Mhr) : Nat := natBits h.control 14 2

/-- Are the destination and the source PAN identifier in the header? -/
def panFields (version dst src : Nat) (compressed : Bool) : Bool × Bool :=
  if version < 2 then (dst != 0, src != 0 && !(compressed && dst != 0))
  else if dst = 0 ∧ src = 0 then (compressed, false)
  else if src = 0 then (!compressed, false)
  else if dst = 0 then (false, !compressed)
  else if dst = 3 ∧ src = 3 then (!compressed, false)
  else (true, !compressed)

/-- The header of a frame's octets. -/
def mhrOf (p : List Octet) : Mhr :=
  let c := leNat (p.take 2)
  let v := natBits c 12 2
  let bare := decide (2 ≤ v) && natBit c 8
  let dst := natBits c 10 2
  let src := natBits c 14 2
  let (dp, sp) := panFields v dst src (natBit c 6)
  let srcAt := 2 + (if bare then 0 else 1) + (if dp then 2 else 0) + addrLen dst + (if sp then 2 else 0)
  { control := c, seq := if bare then none else p[2]?, srcAt := srcAt, auxAt := srcAt + addrLen src }

/-- The auxiliary security header at a place: its control octet, frame counter, key index, and its length. -/
structure AuxHdr where
  control : Nat
  fc : Nat
  index : Nat
  length : Nat
  deriving DecidableEq, Repr

/-- Level, key identifier mode, counter suppression, and ASN in the nonce. -/
def AuxHdr.level (a : AuxHdr) : Nat := natBits a.control 0 3
def AuxHdr.keyMode (a : AuxHdr) : Nat := natBits a.control 3 2
def AuxHdr.odd (a : AuxHdr) : Bool := natBit a.control 5 || natBit a.control 6

/-- The auxiliary security header at a place. -/
def auxOf (p : List Octet) (i : Nat) : AuxHdr :=
  let c := leNat (piece p i 1)
  let n := if natBit c 5 then 1 else 5
  let k := match natBits c 3 2 with
    | 0 => 0
    | 1 => 1
    | 2 => 5
    | _ => 9
  { control := c, fc := if natBit c 5 then 0 else leNat (piece p (i + 1) 4)
    index := if k = 0 then 0 else leNat (piece p (i + n + k - 1) 1), length := n + k }

/-- Header IEs from a place: what each holds by its element ID, and where they end. -/
def headerIes : Nat → List Octet → Nat → List (Nat × List Octet) × Nat
  | 0, _, i => ([], i)
  | fuel + 1, p, i =>
    let d := leNat (piece p i 2)
    let n := natBits d 0 7
    let id := natBits d 7 8
    if p.length < i + 2 ∨ natBit d 15 then ([], i)
    else if id = 0x7E ∨ id = 0x7F then ([], i + 2)
    else
      let (l, j) := headerIes fuel p (i + 2 + n)
      ((id, piece p (i + 2) n) :: l, j)

/-- Payload IEs from a place: what each holds by its group ID. -/
def payloadIes : Nat → List Octet → Nat → List (Nat × List Octet)
  | 0, _, _ => []
  | fuel + 1, p, i =>
    let d := leNat (piece p i 2)
    let n := natBits d 0 11
    if p.length < i + 2 ∨ !natBit d 15 ∨ natBits d 11 4 = 15 then []
    else (natBits d 11 4, piece p (i + 2) n) :: payloadIes fuel p (i + 2 + n)

/-- A received PSDU as the MAC reads it. -/
structure ReadFrame where
  hdr : Mhr
  aux : AuxHdr
  /-- header IEs, and the first octet of what security covers as a message -/
  ies : List (Nat × List Octet)
  bodyAt : Nat
  /-- octets before the MIC and the FCS -/
  bodyEnd : Nat
  deriving DecidableEq, Repr

/-- Level of security of a frame. -/
def ReadFrame.level (r : ReadFrame) : Nat := if r.hdr.secured then r.aux.level else 0

/-- Read a PSDU. -/
def readFrame (fcs4 : Bool) (p : List Octet) : ReadFrame :=
  let h := mhrOf p
  let a := auxOf p h.auxAt
  let i := h.auxAt + (if h.secured then a.length else 0)
  let (l, j) := if h.ies then headerIes p.length p i else ([], i)
  { hdr := h, aux := a, ies := l, bodyAt := j
    bodyEnd := p.length - (if fcs4 then 4 else 2) - (if h.secured then micLen a.level else 0) }

/-- The source address of a frame, if extended (R255). -/
def ReadFrame.src (r : ReadFrame) (p : List Octet) : Option (BitVec 64) :=
  if r.hdr.srcMode = 3 then some (BitVec.ofNat 64 (leNat (piece p r.hdr.srcAt 8))) else none

/-- Phase and period of a CSL IE (R240). -/
def ReadFrame.csl (r : ReadFrame) : Option (Nat × Nat) :=
  match r.ies.find? fun x => x.1 == 0x1A && decide (4 ≤ x.2.length) with
  | some (_, l) => some (leNat (l.take 2), leNat (piece l 2 2))
  | none => none

/-- Does the MIC of a frame verify under a key, and its octets with the secured part as plaintext (R206, R255)? -/
def ReadFrame.open (r : ReadFrame) (key : List Nat) (eui : Nat) (p : List Octet) : Bool × List Octet :=
  let nonce := nonceOf eui r.aux.fc r.level
  let body := toNats (piece p r.bodyAt (r.bodyEnd - r.bodyAt))
  let enc := decide (4 ≤ r.level)
  let plain := if enc then ccmCrypt key nonce body else body
  let a := toNats (p.take r.bodyAt) ++ (if enc then [] else plain)
  let m := if enc then plain else []
  (ccmMic key nonce a m (micLen r.level) == toNats (piece p r.bodyEnd (micLen r.level)),
   p.take r.bodyAt ++ toOctets plain ++ p.drop r.bodyEnd)

/-! ## Frames sent -/

/-- Octets that security and FCS add to a plaintext frame (R254): with a level, a control octet, the counter, a key index, the MIC. -/
def frameOverhead (level : Nat) (fcs4 : Bool) : Nat :=
  (if level = 0 then 0 else 6 + micLen level) + (if fcs4 then 4 else 2)

/-- Security applied to a plaintext frame (R254, R257): the header names level, counter and key index; the body is encrypted at levels 4
to 7. -/
def protectFrame (key : List Nat) (eui level fc index : Nat) (p : List Octet) : List Octet :=
  if level = 0 then p
  else
    let h := mhrOf p
    let control := leOctets 2 (h.control ||| 8)
    let aux := [BitVec.ofNat 8 (level + 8)] ++ leOctets 4 fc ++ [BitVec.ofNat 8 index]
    let q := control ++ piece p 2 (h.auxAt - 2) ++ aux ++ p.drop h.auxAt
    let i := h.auxAt + 6
    let at_ := if h.ies then (headerIes q.length q i).2 else i
    let body := toNats (q.drop at_)
    let nonce := nonceOf eui fc level
    let enc := decide (4 ≤ level)
    let a := toNats (q.take at_) ++ (if enc then [] else body)
    q.take at_ ++ toOctets (if enc then ccmCrypt key nonce body else body)
      ++ toOctets (ccmMic key nonce a (if enc then body else []) (micLen level))

/-- A PSDU: the frame and its FCS. -/
def withFcs (fcs4 : Bool) (p : List Octet) : List Octet := p ++ fcsOctets fcs4 p

/-- Acknowledgement request set in a frame (R282). -/
def askAck (p : List Octet) : List Octet := leOctets 2 (leNat (p.take 2) ||| 0x20) ++ p.drop 2

/-- A wake-up frame (R240, R242): 12 octets with the Rendezvous Time IE. -/
def wakeFrame (short rendezvous : Nat) : List Octet :=
  withFcs false (leOctets 2 0x852D ++ leOctets 2 0xFFFF ++ leOctets 2 short ++ leOctets 2 0x0E82 ++ leOctets 2 rendezvous)

/-- An Enh-Ack before security (R253): to the frame's source, with its sequence number or none. -/
def ackFrame (seq : Option (BitVec 8)) (dst : BitVec 64) : List Octet :=
  leOctets 2 (0x2C42 + (if seq.isSome then 0 else 0x100)) ++ (match seq with | some x => [x] | none => []) ++ leOctets 8 dst.toNat

/-- An enhanced beacon before security (R261): the block in a vendor-specific payload IE. -/
def beaconFrame (block : List Octet) : List Octet :=
  leOctets 2 0xE340 ++ leOctets 8 Config.ownEui.toNat ++ leOctets 2 0x3F00 ++ leOctets 2 (0x9000 + 43)
  ++ leOctets 3 Config.vendorOui.toNat ++ block

/-- The flood header (R267). -/
def floodHeader (origin kind ttl seq : Nat) : List Octet :=
  leOctets 2 (origin % 2 ^ 14 + kind % 4 * 2 ^ 14) ++ [BitVec.ofNat 8 (ttl % 16), 0] ++ leOctets 2 seq

/-- A flood frame before security (R267): a data frame to the broadcast short address. -/
def floodFrame (payload : List Octet) : List Octet :=
  leOctets 2 0xE941 ++ leOctets 2 0xFFFF ++ leOctets 2 0xFFFF ++ leOctets 8 Config.ownEui.toNat ++ payload

/-- The beacon block a frame carries (R261, R264). -/
def ReadFrame.block (r : ReadFrame) (p : List Octet) : Option (List Octet) :=
  match (payloadIes p.length (p.take r.bodyEnd) r.bodyAt).find? fun x =>
      x.1 == 2 && x.2.length == 43 && leNat (x.2.take 3) == Config.vendorOui.toNat with
  | some (_, l) => if r.hdr.type = 0 then some (l.drop 3) else none
  | none => none

/-- The MAC payload of a data frame to the broadcast short address (R267). -/
def ReadFrame.flood (r : ReadFrame) (p : List Octet) : Option (List Octet) :=
  let dst := natBits r.hdr.control 10 2
  let bare := natBit r.hdr.control 8
  let l := piece p r.bodyAt (r.bodyEnd - r.bodyAt)
  if r.hdr.type = 1 ∧ dst = 2 ∧ leNat (piece p (4 + (if bare then 0 else 1)) 2) = 0xFFFF ∧ 6 ≤ l.length then some l else none

end Sys2Proof.Machine
end

