-- ==== Sys2Proof/Machine/RegFields.lean ====
section
/-! DEFINITION. The places of the named register fields, one constant per field of the register maps of spec/02 to spec/19
(address in BAR0, lowest bit, width), and the bit numbers of the event flags.  Page bases: R14.  Instance parameters: n chain,
port, channel or core; e layer-2 pipeline (0 east, 1 west); x Crust datapath (0 E, 1 W, 2 C) and k its port block; q queue;
c check channel; s image slot; i element of a register array; b base address of a page (header fields H_…). -/

namespace Sys2Proof.Machine.R

def FAB_TMO_CLASS_TMO (i : Nat) : Fld := ⟨0x2000 + 0x100 + 4 * i, 0, 10⟩
def FAB_GRP_CLASS_CLASS (i : Nat) : Fld := ⟨0x2000 + 0x110 + 4 * i, 0, 32⟩
def FAB_FENCED_LO_GROUPS : Fld := ⟨0x2000 + 0x120, 0, 32⟩
def FAB_FENCED_HI_GROUPS : Fld := ⟨0x2000 + 0x124, 0, 32⟩
def FAB_LAST_FENCE_GROUP : Fld := ⟨0x2000 + 0x130, 0, 6⟩
def FAB_LAST_FENCE_CAUSE : Fld := ⟨0x2000 + 0x130, 8, 1⟩
def FAB_LAST_FENCE_COUNT : Fld := ⟨0x2000 + 0x130, 16, 16⟩
def FAB_BFIFO_STAT_LEVEL (i : Nat) : Fld := ⟨0x2000 + 0x140 + 4 * i, 0, 12⟩
def FAB_BFIFO_STAT_FULL_CNT (i : Nat) : Fld := ⟨0x2000 + 0x140 + 4 * i, 16, 16⟩
def FAB_ADMIT_MARK_MARK : Fld := ⟨0x2000 + 0x1C0, 0, 8⟩
def PWR_GOV_MODE_MODE : Fld := ⟨0x1000 + 0x300, 0, 2⟩
def PWR_GOV_MARGIN_MARGIN : Fld := ⟨0x1000 + 0x304, 0, 6⟩
def PWR_GOV_VFIX_CODE : Fld := ⟨0x1000 + 0x308, 0, 6⟩
def PWR_GOV_ECON_FLOOR_CODE : Fld := ⟨0x1000 + 0x30C, 0, 6⟩
def PWR_GOV_CEIL_CODE : Fld := ⟨0x1000 + 0x310, 0, 6⟩
def PWR_GOV_WINDOW_US : Fld := ⟨0x1000 + 0x314, 0, 7⟩
def PWR_GOV_VNOW_RAIL : Fld := ⟨0x1000 + 0x318, 0, 6⟩
def PWR_GOV_VNOW_TARGET : Fld := ⟨0x1000 + 0x318, 8, 6⟩
def PWR_GOV_VNOW_AT_FLOOR : Fld := ⟨0x1000 + 0x318, 16, 1⟩
def PWR_GOV_VNOW_AT_CEIL : Fld := ⟨0x1000 + 0x318, 17, 1⟩
def PWR_GOV_VNOW_BURST : Fld := ⟨0x1000 + 0x318, 18, 1⟩
def PWR_GOV_VNOW_CAPPED : Fld := ⟨0x1000 + 0x318, 19, 1⟩
def PWR_GOV_MON_SEL_ENABLE : Fld := ⟨0x1000 + 0x31C, 0, 12⟩
def PWR_GOV_BUSY_FRACTION : Fld := ⟨0x1000 + 0x320, 0, 8⟩
def PWR_GOV_BUSY_PIPE : Fld := ⟨0x1000 + 0x320, 8, 4⟩
def PWR_GOV_CAP_GBPS : Fld := ⟨0x1000 + 0x324, 0, 16⟩
def H_ID_FORMAT (b : Nat) : Fld := ⟨b, 0, 8⟩
def H_ID_INSTANCE (b : Nat) : Fld := ⟨b, 8, 8⟩
def H_ID_TYPE (b : Nat) : Fld := ⟨b, 16, 16⟩
def H_VER_HW (b : Nat) : Fld := ⟨b + 0x4, 0, 16⟩
def H_VER_IFACE (b : Nat) : Fld := ⟨b + 0x4, 16, 16⟩
def H_CAP_BLOCK (b : Nat) : Fld := ⟨b + 0x8, 0, 27⟩
def H_CAP_PAGES (b : Nat) : Fld := ⟨b + 0x8, 27, 5⟩
def H_STATUS_PROGRESS (b : Nat) : Fld := ⟨b + 0xC, 0, 16⟩
def H_STATUS_SEQ (b : Nat) : Fld := ⟨b + 0xC, 16, 8⟩
def H_STATUS_STALE (b : Nat) : Fld := ⟨b + 0xC, 24, 1⟩
def H_STATUS_ERR (b : Nat) : Fld := ⟨b + 0xC, 25, 1⟩
def H_STATUS_PART (b : Nat) : Fld := ⟨b + 0xC, 26, 1⟩
def H_STATUS_BUSY (b : Nat) : Fld := ⟨b + 0xC, 27, 1⟩
def H_STATUS_STATE (b : Nat) : Fld := ⟨b + 0xC, 28, 4⟩
def H_CMD_OPCODE (b : Nat) : Fld := ⟨b + 0x10, 0, 8⟩
def H_CMD_UNPACED (b : Nat) : Fld := ⟨b + 0x10, 8, 1⟩
def H_CMD_TAG (b : Nat) : Fld := ⟨b + 0x10, 16, 8⟩
def H_ARG_VALUE (b i : Nat) : Fld := ⟨b + 0x14 + 4 * i, 0, 32⟩
def H_RES0_CODE (b : Nat) : Fld := ⟨b + 0x24, 0, 8⟩
def H_RES0_TAG (b : Nat) : Fld := ⟨b + 0x24, 8, 8⟩
def H_RES0_DATA (b : Nat) : Fld := ⟨b + 0x24, 16, 16⟩
def H_RES_DATA (b i : Nat) : Fld := ⟨b + 0x28 + 4 * (i - 1), 0, 32⟩
def H_REFUSED_OFFSET (b : Nat) : Fld := ⟨b + 0x34, 0, 12⟩
def H_REFUSED_PAGE (b : Nat) : Fld := ⟨b + 0x34, 12, 4⟩
def H_REFUSED_COUNT (b : Nat) : Fld := ⟨b + 0x34, 16, 15⟩
def H_REFUSED_CLR (b : Nat) : Fld := ⟨b + 0x34, 31, 1⟩
def H_CMD_REJ_CODE (b : Nat) : Fld := ⟨b + 0x38, 0, 8⟩
def H_CMD_REJ_TAG (b : Nat) : Fld := ⟨b + 0x38, 8, 8⟩
def H_CMD_REJ_COUNT (b : Nat) : Fld := ⟨b + 0x38, 16, 16⟩
def H_EVT_EN_BITS (b : Nat) : Fld := ⟨b + 0x44, 0, 32⟩
def H_EVT_FORCE_BITS (b : Nat) : Fld := ⟨b + 0x48, 0, 32⟩
def H_EVT_CNT_CNT0 (b i : Nat) : Fld := ⟨b + 0x50 + 4 * i, 0, 8⟩
def H_EVT_CNT_CNT1 (b i : Nat) : Fld := ⟨b + 0x50 + 4 * i, 8, 8⟩
def H_EVT_CNT_CNT2 (b i : Nat) : Fld := ⟨b + 0x50 + 4 * i, 16, 8⟩
def H_EVT_CNT_CNT3 (b i : Nat) : Fld := ⟨b + 0x50 + 4 * i, 24, 8⟩
def H_CFG_EPOCH_EPOCH (b : Nat) : Fld := ⟨b + 0x70, 0, 32⟩
def H_CFG_STAGE_EPOCH (b : Nat) : Fld := ⟨b + 0x74, 0, 32⟩
def H_CFG_PEND_PENDING (b : Nat) : Fld := ⟨b + 0x78, 0, 1⟩
def H_CFG_PEND_APPLYING (b : Nat) : Fld := ⟨b + 0x78, 1, 1⟩
def H_CFG_PEND_DEFERRED (b : Nat) : Fld := ⟨b + 0x78, 2, 1⟩
def H_LED_IN_LO_COUNT (b : Nat) : Fld := ⟨b + 0x80, 0, 32⟩
def H_LED_IN_HI_COUNT (b : Nat) : Fld := ⟨b + 0x84, 0, 32⟩
def H_LED_OUT_LO_COUNT (b : Nat) : Fld := ⟨b + 0x88, 0, 32⟩
def H_LED_OUT_HI_COUNT (b : Nat) : Fld := ⟨b + 0x8C, 0, 32⟩
def H_LED_DROP_LO_COUNT (b : Nat) : Fld := ⟨b + 0x90, 0, 32⟩
def H_LED_DROP_HI_COUNT (b : Nat) : Fld := ⟨b + 0x94, 0, 32⟩
def H_LED_HELD_LO_COUNT (b : Nat) : Fld := ⟨b + 0x98, 0, 32⟩
def H_LED_HELD_HI_COUNT (b : Nat) : Fld := ⟨b + 0x9C, 0, 32⟩
def H_LED_FENCED_LO_COUNT (b : Nat) : Fld := ⟨b + 0xA0, 0, 32⟩
def H_LED_FENCED_HI_COUNT (b : Nat) : Fld := ⟨b + 0xA4, 0, 32⟩
def H_LED_SNAP_SEQ (b : Nat) : Fld := ⟨b + 0xA8, 0, 16⟩
def H_LED_SNAP_NS_NS (b : Nat) : Fld := ⟨b + 0xAC, 0, 32⟩
def PWR_STATE_STATE : Fld := ⟨0x1000 + 0x100, 0, 2⟩
def PWR_STATE_TRANS : Fld := ⟨0x1000 + 0x100, 2, 1⟩
def PWR_STATE_BOOT_FAIL : Fld := ⟨0x1000 + 0x100, 3, 1⟩
def PWR_STATE_DOMAINS : Fld := ⟨0x1000 + 0x100, 16, 14⟩
def PWR_VIN_MV10 : Fld := ⟨0x1000 + 0x104, 0, 16⟩
def PWR_VIN_PF : Fld := ⟨0x1000 + 0x104, 16, 1⟩
def PWR_PF_THRESH_DV : Fld := ⟨0x1000 + 0x108, 0, 10⟩
def PWR_TRIM_THRESH_DV : Fld := ⟨0x1000 + 0x10C, 0, 10⟩
def PWR_TRIM_THRESH_AUTO_RUN : Fld := ⟨0x1000 + 0x10C, 16, 1⟩
def PWR_WAKE_EN_SRC : Fld := ⟨0x1000 + 0x110, 0, 4⟩
def PWR_WAKE_SRC_SRC : Fld := ⟨0x1000 + 0x114, 0, 4⟩
def PWR_RST_CAUSE_CAUSE : Fld := ⟨0x1000 + 0x118, 0, 5⟩
def PWR_MS_ST (i : Nat) : Fld := ⟨0x1000 + 0x120 + 4 * i, 0, 32⟩
def RET_COPY_A_EPOCH : Fld := ⟨0x3000 + 0x100, 0, 32⟩
def RET_COPY_B_EPOCH : Fld := ⟨0x3000 + 0x104, 0, 32⟩
def RET_RESTORE_SOURCE : Fld := ⟨0x3000 + 0x108, 0, 2⟩
def RET_RESTORE_WHY : Fld := ⟨0x3000 + 0x108, 2, 2⟩
def RET_RESTORE_REFUSED : Fld := ⟨0x3000 + 0x108, 16, 16⟩
def RET_STORE_BUSY : Fld := ⟨0x3000 + 0x10C, 0, 1⟩
def RET_STORE_EPOCH_EPOCH : Fld := ⟨0x3000 + 0x110, 0, 32⟩
def RET_CKPT_CFG_MAXAGE : Fld := ⟨0x3000 + 0x114, 0, 10⟩
def RET_FC_RESERVE_LOG2 : Fld := ⟨0x3000 + 0x118, 0, 5⟩
def RET_DRIFT_TOL_DPPM : Fld := ⟨0x3000 + 0x11C, 0, 8⟩
def RET_CKPT_STAT_DIRTY : Fld := ⟨0x3000 + 0x120, 0, 19⟩
def RET_CKPT_AGE_MS : Fld := ⟨0x3000 + 0x124, 0, 16⟩
def RET_FC_WAIT_COUNT : Fld := ⟨0x3000 + 0x128, 0, 32⟩
def RET_RESTORE_STAT_NODES : Fld := ⟨0x3000 + 0x12C, 0, 19⟩
def RET_RESTORE_STAT_MAXU : Fld := ⟨0x3000 + 0x12C, 19, 1⟩
def RET_RESTORE_STAT_DONE : Fld := ⟨0x3000 + 0x12C, 31, 1⟩
def RET_OUTAGE_S : Fld := ⟨0x3000 + 0x130, 0, 32⟩
def RET_REBUILD_FAIL_COUNT : Fld := ⟨0x3000 + 0x134, 0, 19⟩
def RET_SWAIT_PTP_PASS (i : Nat) : Fld := ⟨0x3000 + 0x140 + 4 * i, 0, 1⟩
def RET_SWAIT_CLEAR_FWD (i : Nat) : Fld := ⟨0x3000 + 0x140 + 4 * i, 1, 1⟩
def RET_SWAIT_ACTIVE (i : Nat) : Fld := ⟨0x3000 + 0x140 + 4 * i, 8, 1⟩
def TB_LATCH_GO : Fld := ⟨0x10000 + 0x100, 0, 1⟩
def TB_SNAP_NS_NS : Fld := ⟨0x10000 + 0x104, 0, 32⟩
def TB_SNAP_S_LO_S : Fld := ⟨0x10000 + 0x108, 0, 32⟩
def TB_SNAP_S_HI_S : Fld := ⟨0x10000 + 0x10C, 0, 16⟩
def TB_SNAP_LIN_LO_L : Fld := ⟨0x10000 + 0x110, 0, 32⟩
def TB_SNAP_LIN_HI_L : Fld := ⟨0x10000 + 0x114, 0, 32⟩
def TB_SNAP_AUX_FRAC : Fld := ⟨0x10000 + 0x118, 0, 8⟩
def TB_SNAP_AUX_WRAP : Fld := ⟨0x10000 + 0x118, 8, 8⟩
def TB_SNAP_AUX_STEPGEN : Fld := ⟨0x10000 + 0x118, 16, 4⟩
def TB_SNAP_AUX_HOLD : Fld := ⟨0x10000 + 0x118, 20, 1⟩
def TB_SNAP_ST_ST : Fld := ⟨0x10000 + 0x11C, 0, 32⟩
def TB_STATE_SRC : Fld := ⟨0x10000 + 0x120, 0, 2⟩
def TB_STATE_MODE : Fld := ⟨0x10000 + 0x120, 4, 2⟩
def TB_STATE_REF_LOST : Fld := ⟨0x10000 + 0x120, 6, 1⟩
def TB_STATE_OK : Fld := ⟨0x10000 + 0x120, 8, 3⟩
def TB_STATE_QUAL_LEFT : Fld := ⟨0x10000 + 0x120, 16, 16⟩
def TB_SRC_SET_PTP_OK : Fld := ⟨0x10000 + 0x124, 0, 1⟩
def TB_SRC_SET_BCN_OK : Fld := ⟨0x10000 + 0x124, 1, 1⟩
def TB_SRC_SET_LOCKED : Fld := ⟨0x10000 + 0x124, 2, 1⟩
def TB_SRC_EN_PTP : Fld := ⟨0x10000 + 0x128, 0, 1⟩
def TB_SRC_EN_GNSS : Fld := ⟨0x10000 + 0x128, 1, 1⟩
def TB_SRC_EN_BCN : Fld := ⟨0x10000 + 0x128, 2, 1⟩
def TB_SRC_EN_TENM : Fld := ⟨0x10000 + 0x128, 3, 1⟩
def TB_QUAL_S : Fld := ⟨0x10000 + 0x12C, 0, 10⟩
def TB_RATE_RATE : Fld := ⟨0x10000 + 0x130, 0, 32⟩
def TB_SERVO_TMO_MS : Fld := ⟨0x10000 + 0x134, 0, 16⟩
def TB_HOLD_PPB_PPB : Fld := ⟨0x10000 + 0x138, 0, 16⟩
def TB_HOLD_PPB_XTAL : Fld := ⟨0x10000 + 0x138, 16, 16⟩
def TB_HOLD_ELAPSED_MS : Fld := ⟨0x10000 + 0x13C, 0, 32⟩
def TB_HOLD_BOUND_NS : Fld := ⟨0x10000 + 0x140, 0, 32⟩
def TB_STEP_CNT_COUNT : Fld := ⟨0x10000 + 0x144, 0, 32⟩
def TB_LAST_STEP_LO_NS : Fld := ⟨0x10000 + 0x148, 0, 32⟩
def TB_LAST_STEP_HI_NS : Fld := ⟨0x10000 + 0x14C, 0, 32⟩
def TB_UTC_OFFSET : Fld := ⟨0x10000 + 0x150, 0, 16⟩
def TB_UTC_VALID : Fld := ⟨0x10000 + 0x150, 16, 1⟩
def TB_UTC_LEAP61 : Fld := ⟨0x10000 + 0x150, 17, 1⟩
def TB_UTC_LEAP59 : Fld := ⟨0x10000 + 0x150, 18, 1⟩
def TB_PPS_CFG_EDGE : Fld := ⟨0x10000 + 0x154, 0, 1⟩
def TB_PPS_CFG_IN_DELAY : Fld := ⟨0x10000 + 0x154, 8, 16⟩
def TB_PPSIN_POP_NS : Fld := ⟨0x10000 + 0x158, 0, 32⟩
def TB_PPSIN_HI_STAMP : Fld := ⟨0x10000 + 0x15C, 0, 32⟩
def TB_PPSIN_LOST_COUNT : Fld := ⟨0x10000 + 0x160, 0, 32⟩
def TB_TENM_ERR_ERR : Fld := ⟨0x10000 + 0x164, 0, 32⟩
def TRIG_CTL_ARM (n : Nat) : Fld := ⟨0x11100 + 0x1000 * (n / 8) + 0x20 * (n % 8), 0, 1⟩
def TRIG_CTL_NO_PAST (n : Nat) : Fld := ⟨0x11100 + 0x1000 * (n / 8) + 0x20 * (n % 8), 1, 1⟩
def TRIG_CTL_UNIT (n : Nat) : Fld := ⟨0x11100 + 0x1000 * (n / 8) + 0x20 * (n % 8), 2, 1⟩
def TRIG_CTL_KIND (n : Nat) : Fld := ⟨0x11100 + 0x1000 * (n / 8) + 0x20 * (n % 8), 4, 4⟩
def TRIG_CTL_SEL (n : Nat) : Fld := ⟨0x11100 + 0x1000 * (n / 8) + 0x20 * (n % 8), 8, 4⟩
def TRIG_CTL_PERIOD_FRAC (n : Nat) : Fld := ⟨0x11100 + 0x1000 * (n / 8) + 0x20 * (n % 8), 16, 8⟩
def TRIG_TGT_TGT (n : Nat) : Fld := ⟨0x11100 + 0x1000 * (n / 8) + 0x20 * (n % 8) + 0x4, 0, 32⟩
def TRIG_PERIOD_PERIOD (n : Nat) : Fld := ⟨0x11100 + 0x1000 * (n / 8) + 0x20 * (n % 8) + 0x8, 0, 32⟩
def TRIG_PARAM_PARAM (n : Nat) : Fld := ⟨0x11100 + 0x1000 * (n / 8) + 0x20 * (n % 8) + 0xC, 0, 32⟩
def TRIG_STAT_FIRES (n : Nat) : Fld := ⟨0x11100 + 0x1000 * (n / 8) + 0x20 * (n % 8) + 0x10, 0, 16⟩
def TRIG_STAT_MISSED (n : Nat) : Fld := ⟨0x11100 + 0x1000 * (n / 8) + 0x20 * (n % 8) + 0x10, 16, 8⟩
def TRIG_STAT_NOACT (n : Nat) : Fld := ⟨0x11100 + 0x1000 * (n / 8) + 0x20 * (n % 8) + 0x10, 24, 8⟩
def TRIG_LAST_NS (n : Nat) : Fld := ⟨0x11100 + 0x1000 * (n / 8) + 0x20 * (n % 8) + 0x14, 0, 32⟩
def TRIG_FIRE_POP_NS : Fld := ⟨0x11000 + 0x300, 0, 32⟩
def TRIG_FIRE_HI_STAMP : Fld := ⟨0x11000 + 0x304, 0, 32⟩
def TRIG_FIRE_LOST_COUNT : Fld := ⟨0x11000 + 0x308, 0, 32⟩
def RF_STATE_STATE (n : Nat) : Fld := ⟨0x20000 + 0x1000 * n + 0x100, 0, 3⟩
def RF_STATE_CAL_KIND (n : Nat) : Fld := ⟨0x20000 + 0x1000 * n + 0x100, 4, 2⟩
def RF_STATE_CAL_PROT (n : Nat) : Fld := ⟨0x20000 + 0x1000 * n + 0x100, 6, 1⟩
def RF_STATE_FAULT (n : Nat) : Fld := ⟨0x20000 + 0x1000 * n + 0x100, 7, 1⟩
def RF_STATE_BAND (n : Nat) : Fld := ⟨0x20000 + 0x1000 * n + 0x100, 8, 3⟩
def RF_STATE_LOCKED (n : Nat) : Fld := ⟨0x20000 + 0x1000 * n + 0x100, 11, 1⟩
def RF_STATE_RETUNE_PEND (n : Nat) : Fld := ⟨0x20000 + 0x1000 * n + 0x100, 12, 1⟩
def RF_STATE_OUT_OF_SLICE (n : Nat) : Fld := ⟨0x20000 + 0x1000 * n + 0x100, 13, 1⟩
def RF_STATE_JOBS (n : Nat) : Fld := ⟨0x20000 + 0x1000 * n + 0x100, 16, 2⟩
def RF_CTL_EN (n : Nat) : Fld := ⟨0x20000 + 0x1000 * n + 0x104, 0, 1⟩
def RF_CENTRE_KHZ (n : Nat) : Fld := ⟨0x20000 + 0x1000 * n + 0x108, 0, 22⟩
def RF_SYN_STAT_LAST (n : Nat) : Fld := ⟨0x20000 + 0x1000 * n + 0x10C, 0, 16⟩
def RF_SYN_STAT_FAILS (n : Nat) : Fld := ⟨0x20000 + 0x1000 * n + 0x10C, 16, 16⟩
def RF_SYN_TMO_INBAND (n : Nat) : Fld := ⟨0x20000 + 0x1000 * n + 0x110, 0, 8⟩
def RF_SYN_TMO_BAND (n : Nat) : Fld := ⟨0x20000 + 0x1000 * n + 0x110, 16, 9⟩
def RF_TX_CFG_RAMP (n : Nat) : Fld := ⟨0x20000 + 0x1000 * n + 0x114, 0, 2⟩
def RF_TX_CFG_DEFER_RX (n : Nat) : Fld := ⟨0x20000 + 0x1000 * n + 0x114, 2, 1⟩
def RF_TX_CFG_BLANK_ALSO (n : Nat) : Fld := ⟨0x20000 + 0x1000 * n + 0x114, 4, 4⟩
def RF_TX_CFG_PWR_MAX (n : Nat) : Fld := ⟨0x20000 + 0x1000 * n + 0x114, 8, 6⟩
def RF_TX_CFG_FEM_LEAD (n : Nat) : Fld := ⟨0x20000 + 0x1000 * n + 0x114, 16, 8⟩
def RF_TX_CFG_FEM_LAG (n : Nat) : Fld := ⟨0x20000 + 0x1000 * n + 0x114, 24, 8⟩
def RF_PWR_BASE_BASE (n : Nat) : Fld := ⟨0x20000 + 0x1000 * n + 0x118, 0, 8⟩
def RF_CAL_CFG_DELTA (n : Nat) : Fld := ⟨0x20000 + 0x1000 * n + 0x11C, 0, 5⟩
def RF_CAL_CFG_AUTO (n : Nat) : Fld := ⟨0x20000 + 0x1000 * n + 0x11C, 8, 3⟩
def RF_CAL_STAT_TEMP (n : Nat) : Fld := ⟨0x20000 + 0x1000 * n + 0x120, 0, 8⟩
def RF_CAL_STAT_VALID (n : Nat) : Fld := ⟨0x20000 + 0x1000 * n + 0x120, 8, 3⟩
def RF_CAL_STAT_PEND (n : Nat) : Fld := ⟨0x20000 + 0x1000 * n + 0x120, 12, 3⟩
def RF_CAL_STAT_ABORTS (n : Nat) : Fld := ⟨0x20000 + 0x1000 * n + 0x120, 16, 2⟩
def RF_CAL_TEMP_OFS (n : Nat) : Fld := ⟨0x20000 + 0x1000 * n + 0x124, 0, 8⟩
def RF_CAL_TEMP_FLT (n : Nat) : Fld := ⟨0x20000 + 0x1000 * n + 0x124, 8, 8⟩
def RF_CAL_TEMP_IMG (n : Nat) : Fld := ⟨0x20000 + 0x1000 * n + 0x124, 16, 8⟩
def RF_TX_STAT_SENT (n : Nat) : Fld := ⟨0x20000 + 0x1000 * n + 0x128, 0, 16⟩
def RF_TX_STAT_LATE (n : Nat) : Fld := ⟨0x20000 + 0x1000 * n + 0x128, 16, 8⟩
def RF_TX_STAT_CAPPED (n : Nat) : Fld := ⟨0x20000 + 0x1000 * n + 0x128, 24, 8⟩
def RF_TX_WAIT_SETTLE (n : Nat) : Fld := ⟨0x20000 + 0x1000 * n + 0x12C, 0, 8⟩
def RF_TX_WAIT_CAL (n : Nat) : Fld := ⟨0x20000 + 0x1000 * n + 0x12C, 8, 8⟩
def RF_TX_WAIT_POLICY (n : Nat) : Fld := ⟨0x20000 + 0x1000 * n + 0x12C, 16, 8⟩
def RF_TX_WAIT_FORBID (n : Nat) : Fld := ⟨0x20000 + 0x1000 * n + 0x12C, 24, 8⟩
def RF0_XTX_FORBID : Fld := ⟨0x20000 + 0x130, 0, 1⟩
def RF0_XTX_CUT : Fld := ⟨0x20000 + 0x130, 1, 1⟩
def RF0_XTX_KEEP_RX : Fld := ⟨0x20000 + 0x130, 2, 1⟩
def RF0_OSC_MODE : Fld := ⟨0x20000 + 0x134, 0, 2⟩
def RF0_OSC_PERIOD : Fld := ⟨0x20000 + 0x134, 8, 12⟩
def RF0_OSC_ERR_PPM : Fld := ⟨0x20000 + 0x138, 0, 32⟩
def RF0_OSC_TUNE_CODE : Fld := ⟨0x20000 + 0x13C, 0, 16⟩
def RF_PTAB_BIAS (n i : Nat) : Fld := ⟨0x20000 + 0x1000 * n + 0x140 + 4 * i, 0, 8⟩
def RF_PTAB_DGAIN (n i : Nat) : Fld := ⟨0x20000 + 0x1000 * n + 0x140 + 4 * i, 8, 12⟩
def RF_PTAB_FEM_MODE (n i : Nat) : Fld := ⟨0x20000 + 0x1000 * n + 0x140 + 4 * i, 20, 3⟩
def RF_PTAB_VALID (n i : Nat) : Fld := ⟨0x20000 + 0x1000 * n + 0x140 + 4 * i, 31, 1⟩
def RF_FEM_MAP_PAT (n i : Nat) : Fld := ⟨0x20000 + 0x1000 * n + 0x240 + 4 * i, 0, 4⟩
def RF_FEM_IDLE_OFF_PAT (n : Nat) : Fld := ⟨0x20000 + 0x1000 * n + 0x260, 0, 4⟩
def RF_FEM_IDLE_CAL_PAT (n : Nat) : Fld := ⟨0x20000 + 0x1000 * n + 0x260, 4, 4⟩
def RF_FEM_IDLE_RX_PAT (n : Nat) : Fld := ⟨0x20000 + 0x1000 * n + 0x260, 8, 4⟩
def RF_FEM_NOW_PAT (n : Nat) : Fld := ⟨0x20000 + 0x1000 * n + 0x264, 0, 4⟩
def WB_STATE_BUSY (n : Nat) : Fld := ⟨0x24000 + 0x1000 * n + 0x100, 0, 6⟩
def WB_STATE_CONF (n : Nat) : Fld := ⟨0x24000 + 0x1000 * n + 0x100, 8, 6⟩
def WB_STATE_FEG0 (n : Nat) : Fld := ⟨0x24000 + 0x1000 * n + 0x100, 16, 5⟩
def WB_STATE_FEG1 (n : Nat) : Fld := ⟨0x24000 + 0x1000 * n + 0x100, 24, 5⟩
def WB_CTX_MAP_BUSY (n : Nat) : Fld := ⟨0x24000 + 0x1000 * n + 0x104, 0, 32⟩
def WB_ANT_MODE (n : Nat) : Fld := ⟨0x24000 + 0x1000 * n + 0x108, 0, 2⟩
def WB_ANT_SEL (n : Nat) : Fld := ⟨0x24000 + 0x1000 * n + 0x108, 4, 3⟩
def WB_FE_CFG_HEADROOM (n : Nat) : Fld := ⟨0x24000 + 0x1000 * n + 0x10C, 0, 5⟩
def WB_FE_CFG_MANUAL (n : Nat) : Fld := ⟨0x24000 + 0x1000 * n + 0x10C, 5, 1⟩
def WB_FE_CFG_DECAY (n : Nat) : Fld := ⟨0x24000 + 0x1000 * n + 0x10C, 8, 8⟩
def WB_FE_CFG_DEFER (n : Nat) : Fld := ⟨0x24000 + 0x1000 * n + 0x10C, 16, 8⟩
def WB_FE_CFG_CODE (n : Nat) : Fld := ⟨0x24000 + 0x1000 * n + 0x10C, 24, 5⟩
def WB_FE_STAT_PEAK0 (n : Nat) : Fld := ⟨0x24000 + 0x1000 * n + 0x110, 0, 8⟩
def WB_FE_STAT_PEAK1 (n : Nat) : Fld := ⟨0x24000 + 0x1000 * n + 0x110, 8, 8⟩
def WB_FE_CNT_DOWN (n : Nat) : Fld := ⟨0x24000 + 0x1000 * n + 0x114, 0, 16⟩
def WB_FE_CNT_UP (n : Nat) : Fld := ⟨0x24000 + 0x1000 * n + 0x114, 16, 16⟩
def WB_CLIP_CNT_COUNT (n : Nat) : Fld := ⟨0x24000 + 0x1000 * n + 0x118, 0, 32⟩
def WB_DAGC_TARGET (n : Nat) : Fld := ⟨0x24000 + 0x1000 * n + 0x11C, 0, 5⟩
def WB_RESTART_MARGIN (n : Nat) : Fld := ⟨0x24000 + 0x1000 * n + 0x120, 0, 5⟩
def WB_RESTART_EN (n : Nat) : Fld := ⟨0x24000 + 0x1000 * n + 0x120, 8, 1⟩
def WB_REPLAY_CFG_ON_FCS (n : Nat) : Fld := ⟨0x24000 + 0x1000 * n + 0x124, 0, 1⟩
def WB_DELIVER_MASK (n : Nat) : Fld := ⟨0x24000 + 0x1000 * n + 0x128, 0, 10⟩
def WB_REC_TMO_MS (n : Nat) : Fld := ⟨0x24000 + 0x1000 * n + 0x12C, 0, 8⟩
def WB_FSK_SFD_WAIT (n : Nat) : Fld := ⟨0x24000 + 0x1000 * n + 0x130, 0, 8⟩
def WB_OFDM_HDR_US (n : Nat) : Fld := ⟨0x24000 + 0x1000 * n + 0x134, 0, 12⟩
def WB_DET_THR_THR (n i : Nat) : Fld := ⟨0x24000 + 0x1000 * n + 0x140 + 4 * i, 0, 8⟩
def WB_DET_THR_FLOOR (n i : Nat) : Fld := ⟨0x24000 + 0x1000 * n + 0x140 + 4 * i, 16, 8⟩
def WB_CHAN_EN (n i : Nat) : Fld := ⟨0x24000 + 0x1000 * n + 0x180 + 4 * i, 0, 1⟩
def WB_CHAN_GROUP (n i : Nat) : Fld := ⟨0x24000 + 0x1000 * n + 0x180 + 4 * i, 1, 2⟩
def WB_CHAN_FIRST (n i : Nat) : Fld := ⟨0x24000 + 0x1000 * n + 0x180 + 4 * i, 4, 6⟩
def WB_CHAN_FINE (n i : Nat) : Fld := ⟨0x24000 + 0x1000 * n + 0x180 + 4 * i, 10, 8⟩
def WB_CHAN_TYPES (n i : Nat) : Fld := ⟨0x24000 + 0x1000 * n + 0x180 + 4 * i, 18, 9⟩
def WB_CHAN_LIMIT (n i : Nat) : Fld := ⟨0x24000 + 0x1000 * n + 0x180 + 4 * i, 27, 5⟩
def WB_DET_CNT_COUNT (n : Nat) : Fld := ⟨0x24000 + 0x1000 * n + 0x200, 0, 32⟩
def WB_DROP_NOCTX_COUNT (n : Nat) : Fld := ⟨0x24000 + 0x1000 * n + 0x204, 0, 32⟩
def WB_DROP_LIMIT_COUNT (n : Nat) : Fld := ⟨0x24000 + 0x1000 * n + 0x208, 0, 32⟩
def WB_DROP_BUSY_COUNT (n : Nat) : Fld := ⟨0x24000 + 0x1000 * n + 0x20C, 0, 32⟩
def WB_FALSE_COUNT (n : Nat) : Fld := ⟨0x24000 + 0x1000 * n + 0x210, 0, 32⟩
def WB_RESTART_CNT_COUNT (n : Nat) : Fld := ⟨0x24000 + 0x1000 * n + 0x214, 0, 32⟩
def WB_STALE_CNT_COUNT (n : Nat) : Fld := ⟨0x24000 + 0x1000 * n + 0x218, 0, 32⟩
def WB_CTX_KEY_LATE_COUNT (n : Nat) : Fld := ⟨0x24000 + 0x1000 * n + 0x21C, 0, 32⟩
def WB_REC_DROP_COUNT (n : Nat) : Fld := ⟨0x24000 + 0x1000 * n + 0x220, 0, 32⟩
def WB_ENDED_COUNT (n : Nat) : Fld := ⟨0x24000 + 0x1000 * n + 0x224, 0, 32⟩
def WB_ANT1_SEL_COUNT (n : Nat) : Fld := ⟨0x24000 + 0x1000 * n + 0x228, 0, 32⟩
def WB_MARK_LAST_ID (n : Nat) : Fld := ⟨0x24000 + 0x1000 * n + 0x22C, 0, 16⟩
def WB_CAP_CFG_ANT (n : Nat) : Fld := ⟨0x24000 + 0x1000 * n + 0x240, 0, 2⟩
def WB_CAP_STAT_BUSY (n : Nat) : Fld := ⟨0x24000 + 0x1000 * n + 0x244, 0, 1⟩
def WB_CAP_STAT_MISSED (n : Nat) : Fld := ⟨0x24000 + 0x1000 * n + 0x244, 8, 8⟩
def WB_CAP_STAT_LEN (n : Nat) : Fld := ⟨0x24000 + 0x1000 * n + 0x244, 16, 11⟩
def WB_SLOT_PWR_ANT0 (n i : Nat) : Fld := ⟨0x24000 + 0x1000 * n + 0x300 + 4 * i, 0, 16⟩
def WB_SLOT_PWR_ANT1 (n i : Nat) : Fld := ⟨0x24000 + 0x1000 * n + 0x300 + 4 * i, 16, 16⟩
def PHY_MCS_EN_OPT1 : Fld := ⟨0x28000 + 0x100, 0, 7⟩
def PHY_MCS_EN_OPT2 : Fld := ⟨0x28000 + 0x100, 8, 7⟩
def PHY_MCS_EN_OPT3 : Fld := ⟨0x28000 + 0x100, 16, 7⟩
def PHY_MCS_EN_OPT4 : Fld := ⟨0x28000 + 0x100, 24, 7⟩
def PHY_FSK_CFG_H50 : Fld := ⟨0x28000 + 0x104, 0, 1⟩
def PHY_FSK_CFG_H100 : Fld := ⟨0x28000 + 0x104, 1, 1⟩
def PHY_FSK_CFG_TX_PREAMBLE : Fld := ⟨0x28000 + 0x104, 4, 8⟩
def PHY_FSK_CFG_TX_WHITEN : Fld := ⟨0x28000 + 0x104, 12, 1⟩
def PHY_FSK_CFG_TX_FCS4 : Fld := ⟨0x28000 + 0x104, 13, 1⟩
def PHY_CRUMB_CFG_EN : Fld := ⟨0x28000 + 0x108, 0, 1⟩
def PHY_CRUMB_CFG_RATE : Fld := ⟨0x28000 + 0x108, 1, 2⟩
def PHY_CRUMB_CFG_MARGIN : Fld := ⟨0x28000 + 0x108, 4, 6⟩
def PHY_CRUMB_CFG_REPORT : Fld := ⟨0x28000 + 0x108, 16, 1⟩
def PHY_CRUMB_CFG_REPORT_STD : Fld := ⟨0x28000 + 0x108, 17, 1⟩
def PHY_CRUMB_THR_T1 : Fld := ⟨0x28000 + 0x10C, 0, 8⟩
def PHY_CRUMB_THR_T2 : Fld := ⟨0x28000 + 0x10C, 8, 8⟩
def PHY_CRUMB_THR_T3 : Fld := ⟨0x28000 + 0x10C, 16, 8⟩
def PHY_CRUMB_THR_T4 : Fld := ⟨0x28000 + 0x10C, 24, 8⟩
def PHY_CRUMB_RX_COUNT : Fld := ⟨0x28000 + 0x110, 0, 32⟩
def PHY_MAP_FAIL_COUNT : Fld := ⟨0x28000 + 0x114, 0, 32⟩
def PHY_SNR_LOST_COUNT : Fld := ⟨0x28000 + 0x118, 0, 32⟩
def PHY_POOL_ACTIVE (i : Nat) : Fld := ⟨0x28000 + 0x120 + 4 * i, 0, 4⟩
def PHY_POOL_QUEUE (i : Nat) : Fld := ⟨0x28000 + 0x120 + 4 * i, 8, 7⟩
def PHY_POOL_PEAK (i : Nat) : Fld := ⟨0x28000 + 0x120 + 4 * i, 16, 7⟩
def PHY_SNR_POP_WORD0 : Fld := ⟨0x28000 + 0x140, 0, 32⟩
def PHY_SNR_W_WORD (i : Nat) : Fld := ⟨0x28000 + 0x144 + 4 * (i - 1), 0, 32⟩
def PHY_SNR_LEVEL_COUNT : Fld := ⟨0x28000 + 0x170, 0, 11⟩
def MAC_WAKE_CFG_BASE : Fld := ⟨0x30000 + 0x100, 0, 12⟩
def MAC_WAKE_CFG_GAIN : Fld := ⟨0x30000 + 0x100, 16, 3⟩
def MAC_WAKE_CFG_DEF_PERIOD : Fld := ⟨0x30000 + 0x100, 19, 10⟩
def MAC_TRAIN_CFG_RZ_GAP : Fld := ⟨0x30000 + 0x104, 0, 12⟩
def MAC_TRAIN_CFG_ACK_WAIT : Fld := ⟨0x30000 + 0x104, 16, 12⟩
def MAC_SEC_POLICY_RX_ACCEPT : Fld := ⟨0x30000 + 0x108, 0, 8⟩
def MAC_SEC_POLICY_ALLOW_L4 : Fld := ⟨0x30000 + 0x108, 8, 1⟩
def MAC_SEC_POLICY_TX_LEVEL : Fld := ⟨0x30000 + 0x108, 16, 3⟩
def MAC_ACK_CFG_TURN : Fld := ⟨0x30000 + 0x10C, 0, 12⟩
def MAC_ACK_CFG_SLACK : Fld := ⟨0x30000 + 0x10C, 16, 12⟩
def MAC_ACK_TX_PWR : Fld := ⟨0x30000 + 0x110, 0, 6⟩
def MAC_ACK_TX_PRIO : Fld := ⟨0x30000 + 0x110, 8, 4⟩
def MAC_PRED_SENT_COUNT : Fld := ⟨0x30000 + 0x120, 0, 32⟩
def MAC_RETRY4_COUNT : Fld := ⟨0x30000 + 0x124, 0, 32⟩
def MAC_FULL_SENT_COUNT : Fld := ⟨0x30000 + 0x128, 0, 32⟩
def MAC_UNREACHED_COUNT : Fld := ⟨0x30000 + 0x12C, 0, 32⟩
def MAC_REPLAY_CNT_COUNT : Fld := ⟨0x30000 + 0x130, 0, 32⟩
def MAC_POLICY_CNT_COUNT : Fld := ⟨0x30000 + 0x134, 0, 32⟩
def MAC_SECFAIL_CNT_COUNT : Fld := ⟨0x30000 + 0x138, 0, 32⟩
def MAC_FC_EXH_CNT_COUNT : Fld := ⟨0x30000 + 0x13C, 0, 32⟩
def MAC_ACK_LATE_CNT_COUNT : Fld := ⟨0x30000 + 0x140, 0, 32⟩
def BCN_CFG_SEC_LEVEL : Fld := ⟨0x31000 + 0x100, 0, 2⟩
def BCN_CFG_WIN : Fld := ⟨0x31000 + 0x100, 8, 8⟩
def BCN_CFG_PEER_AGE : Fld := ⟨0x31000 + 0x100, 16, 8⟩
def BCN_PARENT_RID : Fld := ⟨0x31000 + 0x104, 0, 14⟩
def BCN_PARENT_VALID : Fld := ⟨0x31000 + 0x104, 14, 1⟩
def BCN_PARENT_ADRIFT : Fld := ⟨0x31000 + 0x104, 15, 1⟩
def BCN_PARENT_MISSES : Fld := ⟨0x31000 + 0x104, 16, 2⟩
def BCN_CAND_RID : Fld := ⟨0x31000 + 0x108, 0, 14⟩
def BCN_CAND_VALID : Fld := ⟨0x31000 + 0x108, 14, 1⟩
def BCN_STATUS_STRATUM : Fld := ⟨0x31000 + 0x10C, 0, 4⟩
def BCN_STATUS_PEERS : Fld := ⟨0x31000 + 0x10C, 4, 7⟩
def BCN_SENT_CNT_COUNT : Fld := ⟨0x31000 + 0x110, 0, 32⟩
def BCN_PEER_RX_COUNT : Fld := ⟨0x31000 + 0x114, 0, 32⟩
def BCN_MISSED_CNT_COUNT : Fld := ⟨0x31000 + 0x118, 0, 32⟩
def BCN_PEER_REPL_COUNT : Fld := ⟨0x31000 + 0x11C, 0, 32⟩
def BCN_CELL_EN (i : Nat) : Fld := ⟨0x31000 + 0x200 + 4 * i, 0, 1⟩
def BCN_CELL_TYPE (i : Nat) : Fld := ⟨0x31000 + 0x200 + 4 * i, 1, 4⟩
def BCN_CELL_RATE (i : Nat) : Fld := ⟨0x31000 + 0x200 + 4 * i, 5, 4⟩
def BCN_CELL_PWR (i : Nat) : Fld := ⟨0x31000 + 0x200 + 4 * i, 9, 6⟩
def BCN_CELL_INTERVAL (i : Nat) : Fld := ⟨0x31000 + 0x200 + 4 * i, 15, 17⟩
def FLOOD_CFG_TTL : Fld := ⟨0x32000 + 0x100, 0, 4⟩
def FLOOD_CFG_K : Fld := ⟨0x32000 + 0x100, 4, 3⟩
def FLOOD_CFG_RELAY_EN : Fld := ⟨0x32000 + 0x100, 7, 1⟩
def FLOOD_DELAY_DMIN : Fld := ⟨0x32000 + 0x104, 0, 16⟩
def FLOOD_DELAY_DMAX : Fld := ⟨0x32000 + 0x104, 16, 16⟩
def FLOOD_AGE_S : Fld := ⟨0x32000 + 0x108, 0, 12⟩
def FLOOD_SEQ_NEXT : Fld := ⟨0x32000 + 0x10C, 0, 16⟩
def FLOOD_CACHE_LEVEL : Fld := ⟨0x32000 + 0x110, 0, 13⟩
def FLOOD_CACHE_PEND : Fld := ⟨0x32000 + 0x110, 16, 9⟩
def FLOOD_RX_NEW_COUNT : Fld := ⟨0x32000 + 0x120, 0, 32⟩
def FLOOD_DUP_CNT_COUNT : Fld := ⟨0x32000 + 0x124, 0, 32⟩
def FLOOD_RELAY_CNT_COUNT : Fld := ⟨0x32000 + 0x128, 0, 32⟩
def FLOOD_SUPP_CNT_COUNT : Fld := ⟨0x32000 + 0x12C, 0, 32⟩
def FLOOD_EVICT_CNT_COUNT : Fld := ⟨0x32000 + 0x130, 0, 32⟩
def FLOOD_TTL_END_CNT_COUNT : Fld := ⟨0x32000 + 0x134, 0, 32⟩
def FLOOD_NORELAY_CNT_COUNT : Fld := ⟨0x32000 + 0x138, 0, 32⟩
def FLOOD_DIST_STAT_BLOCK : Fld := ⟨0x32000 + 0x140, 0, 24⟩
def FLOOD_DIST_STAT_IMAGE_LO : Fld := ⟨0x32000 + 0x140, 24, 8⟩
def FLOOD_CELL_EN (i : Nat) : Fld := ⟨0x32000 + 0x200 + 4 * i, 0, 1⟩
def FLOOD_CELL_TRAIN (i : Nat) : Fld := ⟨0x32000 + 0x200 + 4 * i, 1, 1⟩
def FLOOD_CELL_PWR (i : Nat) : Fld := ⟨0x32000 + 0x200 + 4 * i, 2, 6⟩
def FLOOD_CELL_TYPE (i : Nat) : Fld := ⟨0x32000 + 0x200 + 4 * i, 8, 4⟩
def FLOOD_CELL_RATE (i : Nat) : Fld := ⟨0x32000 + 0x200 + 4 * i, 12, 4⟩
def PEEL_CFG_PAST_LOG2 : Fld := ⟨0x40000 + 0x100, 0, 5⟩
def PEEL_CFG_TX_LEAD : Fld := ⟨0x40000 + 0x100, 16, 11⟩
def PEEL_LATE_MARK_ST : Fld := ⟨0x40000 + 0x104, 0, 16⟩
def PEEL_TASK_TMO_MS : Fld := ⟨0x40000 + 0x108, 0, 16⟩
def PEEL_PAUSE_TARGETS : Fld := ⟨0x40000 + 0x10C, 0, 10⟩
def PEEL_PAUSE_FWU : Fld := ⟨0x40000 + 0x10C, 16, 10⟩
def PEEL_QUOTA_ITEMS (i : Nat) : Fld := ⟨0x40000 + 0x110 + 4 * i, 0, 19⟩
def PEEL_OUTST_COUNT (i : Nat) : Fld := ⟨0x40000 + 0x140 + 4 * i, 0, 19⟩
def PEEL_STORE_FREE : Fld := ⟨0x40000 + 0x170, 0, 19⟩
def PEEL_LATE_CNT_COUNT : Fld := ⟨0x40000 + 0x174, 0, 32⟩
def PEEL_TMO_CNT_COUNT : Fld := ⟨0x40000 + 0x178, 0, 32⟩
def PEEL_STEP_DUE_CNT_COUNT : Fld := ⟨0x40000 + 0x17C, 0, 32⟩
def PEEL_CANCEL_CNT_COUNT : Fld := ⟨0x40000 + 0x180, 0, 32⟩
def PEEL_OFF_CNT_COUNT : Fld := ⟨0x40000 + 0x184, 0, 32⟩
def PEEL_RDY_WAIT_CNT_COUNT : Fld := ⟨0x40000 + 0x188, 0, 32⟩
def PEEL_FLOWS_HELD_COUNT : Fld := ⟨0x40000 + 0x18C, 0, 19⟩
def PEEL_POST_W_WORD (i : Nat) : Fld := ⟨0x40000 + 0x1100 + 4 * i, 0, 32⟩
def PEEL_POST_GO_GO : Fld := ⟨0x40000 + 0x1140, 0, 1⟩
def PEEL_POST_RES_CODE : Fld := ⟨0x40000 + 0x1144, 0, 8⟩
def PEEL_POST_RES_ID : Fld := ⟨0x40000 + 0x1144, 8, 19⟩
def PEEL_CREDIT_COUNT : Fld := ⟨0x40000 + 0x1148, 0, 19⟩
def PEEL_DONE_POP_ID : Fld := ⟨0x40000 + 0x1150, 0, 19⟩
def PEEL_DONE_POP_RESULT : Fld := ⟨0x40000 + 0x1150, 19, 8⟩
def PEEL_DONE_POP_TYPE : Fld := ⟨0x40000 + 0x1150, 27, 2⟩
def PEEL_DONE_POP_VALID : Fld := ⟨0x40000 + 0x1150, 31, 1⟩
def PEEL_DONE_W1_TAG : Fld := ⟨0x40000 + 0x1154, 0, 8⟩
def PEEL_DONE_STAMP_LO_STAMP : Fld := ⟨0x40000 + 0x1158, 0, 32⟩
def PEEL_DONE_STAMP_HI_STAMP : Fld := ⟨0x40000 + 0x115C, 0, 32⟩
def PEEL_DONE_COOKIE_WORD (i : Nat) : Fld := ⟨0x40000 + 0x1160 + 4 * i, 0, 32⟩
def PEEL_DONE_LEVEL_COUNT : Fld := ⟨0x40000 + 0x1170, 0, 19⟩
def PEEL_CORE_POP_ID : Fld := ⟨0x40000 + 0x1180, 0, 19⟩
def PEEL_CORE_POP_VALID : Fld := ⟨0x40000 + 0x1180, 31, 1⟩
def PEEL_CORE_R_WORD (i : Nat) : Fld := ⟨0x40000 + 0x1184 + 4 * i, 0, 32⟩
def PEEL_FINISH_ID : Fld := ⟨0x40000 + 0x11D0, 0, 19⟩
def PEEL_FINISH_RESULT : Fld := ⟨0x40000 + 0x11D0, 19, 8⟩
def PEEL_FINISH_RES_CODE : Fld := ⟨0x40000 + 0x11D4, 0, 8⟩
def PEEL_LIST_RDY_COUNT (k : Nat) : Fld := ⟨0x42100 + 0x10 * k, 0, 13⟩
def PEEL_LIST_RDY_CAP (k : Nat) : Fld := ⟨0x42100 + 0x10 * k, 16, 13⟩
def PEEL_LIST_DLY_COUNT (k : Nat) : Fld := ⟨0x42100 + 0x10 * k + 0x4, 0, 19⟩
def PEEL_LIST_NEXT_ST (k : Nat) : Fld := ⟨0x42100 + 0x10 * k + 0x8, 0, 32⟩
def PEEL_LIST_TAKEN_COUNT (k : Nat) : Fld := ⟨0x42100 + 0x10 * k + 0xC, 0, 32⟩
def DIR_CFG_FLOW_WAIT : Fld := ⟨0x50000 + 0x100, 0, 7⟩
def DIR_NODES_COUNT : Fld := ⟨0x50000 + 0x104, 0, 19⟩
def DIR_RETRY_CNT_COUNT : Fld := ⟨0x50000 + 0x108, 0, 32⟩
def DIR_LOCK_CNT_COUNT : Fld := ⟨0x50000 + 0x10C, 0, 32⟩
def DIR_RELOC_CNT_COUNT : Fld := ⟨0x50000 + 0x110, 0, 32⟩
def DIR_CACHE_HIT_COUNT : Fld := ⟨0x50000 + 0x114, 0, 32⟩
def DIR_CACHE_MISS_COUNT : Fld := ⟨0x50000 + 0x118, 0, 32⟩
def DIR_ENT_WORD (i : Nat) : Fld := ⟨0x50000 + 0x200 + 4 * i, 0, 32⟩
def DIR_RENT_WORD (i : Nat) : Fld := ⟨0x50000 + 0x240 + 4 * i, 0, 32⟩
def SIEVE_L2_CFG_LEARN (e : Nat) : Fld := ⟨0x51000 + 0x1000 * e + 0x100, 0, 1⟩
def SIEVE_L2_CFG_PIN_DROP (e : Nat) : Fld := ⟨0x51000 + 0x1000 * e + 0x100, 1, 1⟩
def SIEVE_L2_CFG_AGE (e : Nat) : Fld := ⟨0x51000 + 0x1000 * e + 0x100, 4, 12⟩
def SIEVE_L2_CFG_MOVE_MAX (e : Nat) : Fld := ⟨0x51000 + 0x1000 * e + 0x100, 16, 4⟩
def SIEVE_L2_CFG_MOVE_WIN (e : Nat) : Fld := ⟨0x51000 + 0x1000 * e + 0x100, 20, 8⟩
def SIEVE_PIN_HOLD_S (e : Nat) : Fld := ⟨0x51000 + 0x1000 * e + 0x104, 0, 16⟩
def SIEVE_FLOOD_PORTS (e i : Nat) : Fld := ⟨0x51000 + 0x1000 * e + 0x110 + 4 * i, 0, 11⟩
def SIEVE_LEARN_CNT_COUNT (e : Nat) : Fld := ⟨0x51000 + 0x1000 * e + 0x140, 0, 32⟩
def SIEVE_MOVE_CNT_COUNT (e : Nat) : Fld := ⟨0x51000 + 0x1000 * e + 0x144, 0, 32⟩
def SIEVE_PIN_CNT_COUNT (e : Nat) : Fld := ⟨0x51000 + 0x1000 * e + 0x148, 0, 32⟩
def SIEVE_LEARN_FULL_COUNT (e : Nat) : Fld := ⟨0x51000 + 0x1000 * e + 0x14C, 0, 32⟩
def SIEVE_FLOOD_CNT_COUNT (e : Nat) : Fld := ⟨0x51000 + 0x1000 * e + 0x150, 0, 32⟩
def SIEVE_ENTRIES_COUNT (e : Nat) : Fld := ⟨0x51000 + 0x1000 * e + 0x154, 0, 17⟩
def SIEVE_LFIFO_LOST_COUNT (e : Nat) : Fld := ⟨0x51000 + 0x1000 * e + 0x158, 0, 32⟩
def SIEVE_LFIFO_POP_MAC (e : Nat) : Fld := ⟨0x51000 + 0x1000 * e + 0x160, 0, 32⟩
def SIEVE_LFIFO_W1_MAC (e : Nat) : Fld := ⟨0x51000 + 0x1000 * e + 0x164, 0, 16⟩
def SIEVE_LFIFO_W1_FID (e : Nat) : Fld := ⟨0x51000 + 0x1000 * e + 0x164, 16, 12⟩
def SIEVE_LFIFO_W1_PORT (e : Nat) : Fld := ⟨0x51000 + 0x1000 * e + 0x164, 28, 4⟩
def SIEVE_LFIFO_W2_KIND (e : Nat) : Fld := ⟨0x51000 + 0x1000 * e + 0x168, 0, 2⟩
def SIEVE_LFIFO_W2_OLD_PORT (e : Nat) : Fld := ⟨0x51000 + 0x1000 * e + 0x168, 4, 4⟩
def SIEVE_LFIFO_W2_VALID (e : Nat) : Fld := ⟨0x51000 + 0x1000 * e + 0x168, 31, 1⟩
def SIEVE_ENT_WORD (e i : Nat) : Fld := ⟨0x51000 + 0x1000 * e + 0x200 + 4 * i, 0, 32⟩
def SIEVE_RENT_WORD (e i : Nat) : Fld := ⟨0x51000 + 0x1000 * e + 0x240 + 4 * i, 0, 32⟩
def SIEVEP_CFG_EN : Fld := ⟨0x53000 + 0x100, 0, 1⟩
def SIEVEP_CFG_MISS_HOST : Fld := ⟨0x53000 + 0x100, 1, 1⟩
def SIEVEP_CFG_SPARE : Fld := ⟨0x53000 + 0x100, 8, 4⟩
def SIEVEP_RMAC_LO_MAC : Fld := ⟨0x53000 + 0x104, 0, 32⟩
def SIEVEP_RMAC_HI_MAC : Fld := ⟨0x53000 + 0x108, 0, 16⟩
def SIEVEP_COUNT_ENTRIES : Fld := ⟨0x53000 + 0x10C, 0, 15⟩
def SIEVEP_MISS_CNT_COUNT : Fld := ⟨0x53000 + 0x110, 0, 32⟩
def SIEVEP_HOST_CNT_COUNT : Fld := ⟨0x53000 + 0x114, 0, 32⟩
def SIEVEP_SHIFT_CNT_COUNT : Fld := ⟨0x53000 + 0x118, 0, 32⟩
def SIEVEP_KEY_WORD (i : Nat) : Fld := ⟨0x53000 + 0x200 + 4 * i, 0, 32⟩
def SIEVEP_NH_LO_MAC (i : Nat) : Fld := ⟨0x53000 + 0x800 + 8 * i, 0, 32⟩
def SIEVEP_NH_HI_MAC (i : Nat) : Fld := ⟨0x53000 + 0x804 + 8 * i, 0, 16⟩
def SIEVEP_NH_HI_FID (i : Nat) : Fld := ⟨0x53000 + 0x804 + 8 * i, 16, 12⟩
def SIEVEP_NH_HI_PORT (i : Nat) : Fld := ⟨0x53000 + 0x804 + 8 * i, 28, 4⟩
def PORT_MODE_EN (n : Nat) : Fld := ⟨0x60000 + 0x1000 * n + 0x100, 0, 1⟩
def PORT_MODE_MODE (n : Nat) : Fld := ⟨0x60000 + 0x1000 * n + 0x100, 4, 4⟩
def PORT_LANE_MAP (n : Nat) : Fld := ⟨0x60000 + 0x1000 * n + 0x104, 0, 8⟩
def PORT_LANE_RX_INV (n : Nat) : Fld := ⟨0x60000 + 0x1000 * n + 0x104, 8, 4⟩
def PORT_LANE_TX_INV (n : Nat) : Fld := ⟨0x60000 + 0x1000 * n + 0x104, 12, 4⟩
def PORT_MTU_OCTETS (n : Nat) : Fld := ⟨0x60000 + 0x1000 * n + 0x108, 0, 14⟩
def PORT_LINK_UP (n : Nat) : Fld := ⟨0x60000 + 0x1000 * n + 0x10C, 0, 1⟩
def PORT_LINK_CAUSE (n : Nat) : Fld := ⟨0x60000 + 0x1000 * n + 0x10C, 1, 3⟩
def PORT_LINK_SIG (n : Nat) : Fld := ⟨0x60000 + 0x1000 * n + 0x10C, 4, 1⟩
def PORT_LINK_LOCK (n : Nat) : Fld := ⟨0x60000 + 0x1000 * n + 0x10C, 5, 1⟩
def PORT_LINK_DEGRADE (n : Nat) : Fld := ⟨0x60000 + 0x1000 * n + 0x10C, 6, 1⟩
def PORT_LINK_HOLDOFF (n : Nat) : Fld := ⟨0x60000 + 0x1000 * n + 0x10C, 7, 1⟩
def PORT_LINK_HOLDUP (n : Nat) : Fld := ⟨0x60000 + 0x1000 * n + 0x10C, 8, 1⟩
def PORT_LINK_FORCED (n : Nat) : Fld := ⟨0x60000 + 0x1000 * n + 0x10C, 9, 1⟩
def PORT_LINK_DOWNS (n : Nat) : Fld := ⟨0x60000 + 0x1000 * n + 0x10C, 16, 16⟩
def PORT_LF_CFG_HOLDOFF (n : Nat) : Fld := ⟨0x60000 + 0x1000 * n + 0x110, 0, 7⟩
def PORT_LF_CFG_HOLDUP (n : Nat) : Fld := ⟨0x60000 + 0x1000 * n + 0x110, 8, 8⟩
def PORT_LF_CFG_TX_RF (n : Nat) : Fld := ⟨0x60000 + 0x1000 * n + 0x110, 16, 1⟩
def PORT_LF_CFG_BLOCK_TX (n : Nat) : Fld := ⟨0x60000 + 0x1000 * n + 0x110, 17, 1⟩
def PORT_DEGRADE_THRESH (n : Nat) : Fld := ⟨0x60000 + 0x1000 * n + 0x114, 0, 24⟩
def PORT_DEGRADE_INTERVAL (n : Nat) : Fld := ⟨0x60000 + 0x1000 * n + 0x114, 24, 8⟩
def PORT_TS_CFG_PLANE (n : Nat) : Fld := ⟨0x60000 + 0x1000 * n + 0x118, 0, 1⟩
def PORT_TS_ADJ_RX (n : Nat) : Fld := ⟨0x60000 + 0x1000 * n + 0x11C, 0, 16⟩
def PORT_TS_ADJ_TX (n : Nat) : Fld := ⟨0x60000 + 0x1000 * n + 0x11C, 16, 16⟩
def PORT_PTP_ETH (n : Nat) : Fld := ⟨0x60000 + 0x1000 * n + 0x120, 0, 1⟩
def PORT_PTP_UDP6 (n : Nat) : Fld := ⟨0x60000 + 0x1000 * n + 0x120, 1, 1⟩
def PORT_PTP_UDP4 (n : Nat) : Fld := ⟨0x60000 + 0x1000 * n + 0x120, 2, 1⟩
def PORT_PTP_POLICY (n : Nat) : Fld := ⟨0x60000 + 0x1000 * n + 0x120, 4, 2⟩
def PORT_PTP_ONE_STEP (n : Nat) : Fld := ⟨0x60000 + 0x1000 * n + 0x120, 6, 1⟩
def PORT_TSTX_POP_NS (n : Nat) : Fld := ⟨0x60000 + 0x1000 * n + 0x130, 0, 32⟩
def PORT_TSTX_HI_STAMP (n : Nat) : Fld := ⟨0x60000 + 0x1000 * n + 0x134, 0, 32⟩
def PORT_TSTX_TAG_TAG (n : Nat) : Fld := ⟨0x60000 + 0x1000 * n + 0x138, 0, 16⟩
def PORT_TSTX_TAG_ONESTEP_REFUSED (n : Nat) : Fld := ⟨0x60000 + 0x1000 * n + 0x138, 16, 1⟩
def PORT_TSTX_TAG_VALID (n : Nat) : Fld := ⟨0x60000 + 0x1000 * n + 0x138, 31, 1⟩
def PORT_TSTX_LOST_COUNT (n : Nat) : Fld := ⟨0x60000 + 0x1000 * n + 0x13C, 0, 32⟩
def PORT_DROP_ADMIT_COUNT (n : Nat) : Fld := ⟨0x60000 + 0x1000 * n + 0x150, 0, 32⟩
def PORT_DROP_TRUNC_COUNT (n : Nat) : Fld := ⟨0x60000 + 0x1000 * n + 0x154, 0, 32⟩
def PORT_DROP_SWAIT_COUNT (n : Nat) : Fld := ⟨0x60000 + 0x1000 * n + 0x158, 0, 32⟩
def PORT_DROP_POWER_COUNT (n : Nat) : Fld := ⟨0x60000 + 0x1000 * n + 0x15C, 0, 32⟩
def PORT_DROP_LINKDOWN_COUNT (n : Nat) : Fld := ⟨0x60000 + 0x1000 * n + 0x160, 0, 32⟩
def PORT_DROP_TOOLONG_COUNT (n : Nat) : Fld := ⟨0x60000 + 0x1000 * n + 0x164, 0, 32⟩
def PORT_DROP_UNDERRUN_COUNT (n : Nat) : Fld := ⟨0x60000 + 0x1000 * n + 0x168, 0, 32⟩
def PORT_DROP_PAUSE_COUNT (n : Nat) : Fld := ⟨0x60000 + 0x1000 * n + 0x16C, 0, 32⟩
def CRUST_PN_THR32_THRESH : Fld := ⟨0x70000 + 0x100, 0, 32⟩
def CRUST_PN_THR64_LO_THRESH : Fld := ⟨0x70000 + 0x104, 0, 32⟩
def CRUST_PN_THR64_HI_THRESH : Fld := ⟨0x70000 + 0x108, 0, 32⟩
def CRUST_SA_INSTALLED_COUNT : Fld := ⟨0x70000 + 0x10C, 0, 15⟩
def CRUST_THR_LAST_SA : Fld := ⟨0x70000 + 0x110, 0, 14⟩
def CRUST_EXH_LAST_SA : Fld := ⟨0x70000 + 0x114, 0, 14⟩
def CRUST_SA_ST_WORD (i : Nat) : Fld := ⟨0x70000 + 0x200 + 4 * i, 0, 32⟩
def CRUST_SA_RD_WORD (i : Nat) : Fld := ⟨0x70000 + 0x240 + 4 * i, 0, 32⟩
def CRUSTX_CTL_RX_EN (x k : Nat) : Fld := ⟨0x71200 + 0x1000 * x + 0x40 * k, 0, 1⟩
def CRUSTX_CTL_VALIDATE (x k : Nat) : Fld := ⟨0x71200 + 0x1000 * x + 0x40 * k, 1, 1⟩
def CRUSTX_CTL_RX_OFFSET (x k : Nat) : Fld := ⟨0x71200 + 0x1000 * x + 0x40 * k, 2, 2⟩
def CRUSTX_CTL_HOST_BAD (x k : Nat) : Fld := ⟨0x71200 + 0x1000 * x + 0x40 * k, 4, 1⟩
def CRUSTX_CTL_TX_EN (x k : Nat) : Fld := ⟨0x71200 + 0x1000 * x + 0x40 * k, 8, 1⟩
def CRUSTX_CTL_ENCRYPT (x k : Nat) : Fld := ⟨0x71200 + 0x1000 * x + 0x40 * k, 9, 1⟩
def CRUSTX_CTL_INCLUDE_SCI (x k : Nat) : Fld := ⟨0x71200 + 0x1000 * x + 0x40 * k, 10, 1⟩
def CRUSTX_CTL_TX_OFFSET (x k : Nat) : Fld := ⟨0x71200 + 0x1000 * x + 0x40 * k, 12, 2⟩
def CRUSTX_CTL_AUTO (x k : Nat) : Fld := ⟨0x71200 + 0x1000 * x + 0x40 * k, 16, 1⟩
def CRUSTX_REPLAY_WINDOW (x k : Nat) : Fld := ⟨0x71200 + 0x1000 * x + 0x40 * k + 0x4, 0, 31⟩
def CRUSTX_REPLAY_RP (x k : Nat) : Fld := ⟨0x71200 + 0x1000 * x + 0x40 * k + 0x4, 31, 1⟩
def CRUSTX_IMPL_SC (x k : Nat) : Fld := ⟨0x71200 + 0x1000 * x + 0x40 * k + 0x8, 0, 12⟩
def CRUSTX_IMPL_VALID (x k : Nat) : Fld := ⟨0x71200 + 0x1000 * x + 0x40 * k + 0x8, 12, 1⟩
def CRUSTX_TXSA_CUR (x k : Nat) : Fld := ⟨0x71200 + 0x1000 * x + 0x40 * k + 0xC, 0, 14⟩
def CRUSTX_TXSA_CUR_V (x k : Nat) : Fld := ⟨0x71200 + 0x1000 * x + 0x40 * k + 0xC, 14, 1⟩
def CRUSTX_TXSA_EXH (x k : Nat) : Fld := ⟨0x71200 + 0x1000 * x + 0x40 * k + 0xC, 15, 1⟩
def CRUSTX_TXSA_NEXT (x k : Nat) : Fld := ⟨0x71200 + 0x1000 * x + 0x40 * k + 0xC, 16, 14⟩
def CRUSTX_TXSA_NEXT_V (x k : Nat) : Fld := ⟨0x71200 + 0x1000 * x + 0x40 * k + 0xC, 30, 1⟩
def CRUSTX_SWITCHES_COUNT (x k : Nat) : Fld := ⟨0x71200 + 0x1000 * x + 0x40 * k + 0x10, 0, 32⟩
def CRUSTX_UNTAGGED_COUNT (x k : Nat) : Fld := ⟨0x71200 + 0x1000 * x + 0x40 * k + 0x14, 0, 32⟩
def CRUSTX_CHECKED_COUNT (x k : Nat) : Fld := ⟨0x71200 + 0x1000 * x + 0x40 * k + 0x18, 0, 32⟩
def CRUSTX_BADTAG_COUNT (x k : Nat) : Fld := ⟨0x71200 + 0x1000 * x + 0x40 * k + 0x1C, 0, 32⟩
def CRUSTX_UNKNOWN_SCI_COUNT (x k : Nat) : Fld := ⟨0x71200 + 0x1000 * x + 0x40 * k + 0x20, 0, 32⟩
def CRUSTX_NOT_USING_SA_COUNT (x k : Nat) : Fld := ⟨0x71200 + 0x1000 * x + 0x40 * k + 0x24, 0, 32⟩
def CRUSTX_LATE_COUNT (x k : Nat) : Fld := ⟨0x71200 + 0x1000 * x + 0x40 * k + 0x28, 0, 32⟩
def CRUSTX_ICV_COUNT (x k : Nat) : Fld := ⟨0x71200 + 0x1000 * x + 0x40 * k + 0x2C, 0, 32⟩
def CRUSTX_HOST_AUTHFAIL_COUNT (x k : Nat) : Fld := ⟨0x71200 + 0x1000 * x + 0x40 * k + 0x30, 0, 32⟩
def CRUSTX_TX_NOSA_COUNT (x k : Nat) : Fld := ⟨0x71200 + 0x1000 * x + 0x40 * k + 0x34, 0, 32⟩
def CRUSTX_OVERSIZE_COUNT (x k : Nat) : Fld := ⟨0x71200 + 0x1000 * x + 0x40 * k + 0x38, 0, 32⟩
def RACK_CELLS_FREE : Fld := ⟨0x80000 + 0x100, 0, 18⟩
def RACK_ALLOC_COUNT : Fld := ⟨0x80000 + 0x104, 0, 18⟩
def RACK_FLIGHT_COUNT : Fld := ⟨0x80000 + 0x108, 0, 18⟩
def RACK_QUAR_COUNT : Fld := ⟨0x80000 + 0x10C, 0, 18⟩
def RACK_RECLAIMED_COUNT : Fld := ⟨0x80000 + 0x110, 0, 32⟩
def RACK_RECLAIM_POWER_COUNT : Fld := ⟨0x80000 + 0x114, 0, 32⟩
def RACK_SINK_FREED_COUNT : Fld := ⟨0x80000 + 0x118, 0, 32⟩
def RACK_ECC_CORR : Fld := ⟨0x80000 + 0x11C, 0, 16⟩
def RACK_ECC_UNCORR : Fld := ⟨0x80000 + 0x11C, 16, 16⟩
def RACK_LEASE_MS : Fld := ⟨0x80000 + 0x120, 0, 16⟩
def RACK_REVOKED_COUNT : Fld := ⟨0x80000 + 0x124, 0, 32⟩
def RACK_REVOKE_LAST_Q : Fld := ⟨0x80000 + 0x128, 0, 6⟩
def RACK_DROPREC_EN_CAUSES : Fld := ⟨0x80000 + 0x12C, 0, 32⟩
def RACK_TRACE_EN_BLOCKS : Fld := ⟨0x80000 + 0x130, 0, 25⟩
def RACK_POOL_CFG_RESERVE (i : Nat) : Fld := ⟨0x80000 + 0x140 + 4 * i, 0, 14⟩
def RACK_POOL_CFG_LIMIT (i : Nat) : Fld := ⟨0x80000 + 0x140 + 4 * i, 16, 14⟩
def RACK_POOL_LVL_LEVEL (i : Nat) : Fld := ⟨0x80000 + 0x160 + 4 * i, 0, 18⟩
def RACK_POOL_WM_MARK (i : Nat) : Fld := ⟨0x80000 + 0x180 + 4 * i, 0, 14⟩
def RACK_POOL_WM_HYST (i : Nat) : Fld := ⟨0x80000 + 0x180 + 4 * i, 16, 6⟩
def RACK_POOL_NOCELL_COUNT (i : Nat) : Fld := ⟨0x80000 + 0x1A0 + 4 * i, 0, 32⟩
def RACK_DROPREC_POP_WORD0 : Fld := ⟨0x80000 + 0x200, 0, 32⟩
def RACK_DROPREC_W_WORD (i : Nat) : Fld := ⟨0x80000 + 0x204 + 4 * (i - 1), 0, 32⟩
def RACK_DROPREC_LOST_COUNT : Fld := ⟨0x80000 + 0x210, 0, 32⟩
def RACK_TRACE_POP_NS : Fld := ⟨0x80000 + 0x220, 0, 32⟩
def RACK_TRACE_W1_TYPE : Fld := ⟨0x80000 + 0x224, 0, 16⟩
def RACK_TRACE_W1_INST : Fld := ⟨0x80000 + 0x224, 16, 8⟩
def RACK_TRACE_W1_BIT : Fld := ⟨0x80000 + 0x224, 24, 5⟩
def RACK_TRACE_W1_VALID : Fld := ⟨0x80000 + 0x224, 31, 1⟩
def RACK_TRACE_LOST_COUNT : Fld := ⟨0x80000 + 0x228, 0, 32⟩
def RACK_LINK_SENT_LO_COUNT : Fld := ⟨0x80000 + 0x240, 0, 32⟩
def RACK_LINK_SENT_HI_COUNT : Fld := ⟨0x80000 + 0x244, 0, 32⟩
def RACK_LINK_ACC_LO_COUNT : Fld := ⟨0x80000 + 0x248, 0, 32⟩
def RACK_LINK_ACC_HI_COUNT : Fld := ⟨0x80000 + 0x24C, 0, 32⟩
def STARTER_STATE_LC : Fld := ⟨0x90000 + 0x100, 0, 3⟩
def STARTER_STATE_OPEN : Fld := ⟨0x90000 + 0x100, 3, 1⟩
def STARTER_STATE_ROOT_BAD : Fld := ⟨0x90000 + 0x100, 4, 1⟩
def STARTER_STATE_LEGACY_OFF : Fld := ⟨0x90000 + 0x100, 5, 1⟩
def STARTER_STATE_DEBUG : Fld := ⟨0x90000 + 0x100, 6, 1⟩
def STARTER_UID_UID (i : Nat) : Fld := ⟨0x90000 + 0x104 + 4 * i, 0, 32⟩
def STARTER_MESH_BCAST_GEN : Fld := ⟨0x90000 + 0x120, 0, 2⟩
def STARTER_MESH_GEN_VALID : Fld := ⟨0x90000 + 0x120, 4, 4⟩
def STARTER_SLOTS_VOL : Fld := ⟨0x90000 + 0x124, 0, 10⟩
def STARTER_SLOTS_RET : Fld := ⟨0x90000 + 0x124, 16, 7⟩
def STARTER_CACHE_HIT_COUNT : Fld := ⟨0x90000 + 0x128, 0, 32⟩
def STARTER_CACHE_MISS_COUNT : Fld := ⟨0x90000 + 0x12C, 0, 32⟩
def STARTER_JRNL_BAD : Fld := ⟨0x90000 + 0x130, 0, 16⟩
def STARTER_JRNL_ROLLBACK : Fld := ⟨0x90000 + 0x130, 16, 16⟩
def STARTER_DATA_WORD (i : Nat) : Fld := ⟨0x90000 + 0x200 + 4 * i, 0, 32⟩
def STARTER_OUT_WORD (i : Nat) : Fld := ⟨0x90000 + 0x240 + 4 * i, 0, 32⟩
def TAMP_STATE_ACTIVE : Fld := ⟨0x4000 + 0x100, 0, 8⟩
def TAMP_STATE_THOLD : Fld := ⟨0x4000 + 0x100, 8, 1⟩
def TAMP_STATE_ZPEND : Fld := ⟨0x4000 + 0x100, 9, 1⟩
def TAMP_STATE_ALARM : Fld := ⟨0x4000 + 0x100, 10, 1⟩
def TAMP_STATE_LOCKED : Fld := ⟨0x4000 + 0x100, 11, 1⟩
def TAMP_CFG_RESP (i : Nat) : Fld := ⟨0x4000 + 0x104 + 4 * i, 0, 2⟩
def TAMP_CFG_EN (i : Nat) : Fld := ⟨0x4000 + 0x104 + 4 * i, 2, 1⟩
def TAMP_CFG_FILTER (i : Nat) : Fld := ⟨0x4000 + 0x104 + 4 * i, 4, 8⟩
def TAMP_FLOOR_RESP : Fld := ⟨0x4000 + 0x124, 0, 16⟩
def TAMP_VIN_HI : Fld := ⟨0x4000 + 0x128, 0, 10⟩
def TAMP_VIN_LO : Fld := ⟨0x4000 + 0x128, 16, 10⟩
def TAMP_GLITCH_MV : Fld := ⟨0x4000 + 0x12C, 0, 8⟩
def TAMP_GLITCH_NS : Fld := ⟨0x4000 + 0x12C, 8, 8⟩
def TAMP_MESH_PERIOD : Fld := ⟨0x4000 + 0x130, 0, 8⟩
def TAMP_LOCK_LOCK : Fld := ⟨0x4000 + 0x134, 0, 1⟩
def TAMP_CLEAR_ALARM : Fld := ⟨0x4000 + 0x138, 0, 1⟩
def TAMP_BKUP_LO_TICKS : Fld := ⟨0x4000 + 0x13C, 0, 32⟩
def TAMP_BKUP_HI_TICKS : Fld := ⟨0x4000 + 0x140, 0, 16⟩
def TAMP_LOG_POP_TICKS : Fld := ⟨0x4000 + 0x150, 0, 32⟩
def TAMP_LOG_W1_TICKS : Fld := ⟨0x4000 + 0x154, 0, 16⟩
def TAMP_LOG_W1_SRC : Fld := ⟨0x4000 + 0x154, 16, 3⟩
def TAMP_LOG_W1_PHASE : Fld := ⟨0x4000 + 0x154, 19, 3⟩
def TAMP_LOG_W1_RESP : Fld := ⟨0x4000 + 0x154, 22, 2⟩
def TAMP_LOG_W1_VALID : Fld := ⟨0x4000 + 0x154, 31, 1⟩
def TAMP_LOG_LOST_COUNT : Fld := ⟨0x4000 + 0x158, 0, 32⟩
def PROOF_STATE_PAUSED : Fld := ⟨0xA0000 + 0x100, 0, 1⟩
def PROOF_STATE_LOG_FULL : Fld := ⟨0xA0000 + 0x100, 1, 1⟩
def PROOF_STATE_SLOT : Fld := ⟨0xA0000 + 0x100, 2, 1⟩
def PROOF_VERSION_VER : Fld := ⟨0xA0000 + 0x104, 0, 32⟩
def PROOF_SEAL_COUNT : Fld := ⟨0xA0000 + 0x108, 0, 32⟩
def PROOF_QUEUE_LEVEL : Fld := ⟨0xA0000 + 0x10C, 0, 15⟩
def PROOF_QUEUE_PEAK : Fld := ⟨0xA0000 + 0x10C, 16, 15⟩
def PROOF_REG_HEAD_SEQ : Fld := ⟨0xA0000 + 0x110, 0, 32⟩
def PROOF_LOG_HEAD_COUNT : Fld := ⟨0xA0000 + 0x114, 0, 15⟩
def PROOF_OK_CNT_COUNT : Fld := ⟨0xA0000 + 0x118, 0, 32⟩
def PROOF_AUTH_CNT_COUNT : Fld := ⟨0xA0000 + 0x11C, 0, 32⟩
def PROOF_NOKEY_CNT_COUNT : Fld := ⟨0xA0000 + 0x120, 0, 32⟩
def PROOF_BAD_CNT_COUNT : Fld := ⟨0xA0000 + 0x124, 0, 32⟩
def PROOF_REFUSED_CNT_COUNT : Fld := ⟨0xA0000 + 0x128, 0, 32⟩
def PROOF_REJ_LAST_NUM : Fld := ⟨0xA0000 + 0x12C, 0, 32⟩
def PROOF_REJ_CAUSE_CAUSE : Fld := ⟨0xA0000 + 0x130, 0, 4⟩
def PROOF_HASH_WORD (i : Nat) : Fld := ⟨0xA0000 + 0x140 + 4 * i, 0, 32⟩
def PROOF_POST_W_WORD (i : Nat) : Fld := ⟨0xA0000 + 0x200 + 4 * i, 0, 32⟩
def PROOF_POST_GO_GO : Fld := ⟨0xA0000 + 0x230, 0, 1⟩
def PROOF_POST_RES_CODE : Fld := ⟨0xA0000 + 0x234, 0, 8⟩
def PROOF_POST_NUM_NUM : Fld := ⟨0xA0000 + 0x238, 0, 32⟩
def PROOF_CREDIT_COUNT : Fld := ⟨0xA0000 + 0x23C, 0, 15⟩
def PROOF_PUB_SEL_SEQ : Fld := ⟨0xA0000 + 0x300, 0, 32⟩
def PROOF_PUB_W_WORD (i : Nat) : Fld := ⟨0xA0000 + 0x340 + 4 * i, 0, 32⟩
def FWU_STATE_PHASE : Fld := ⟨0xB0000 + 0x100, 0, 2⟩
def FWU_STATE_PARTIAL : Fld := ⟨0xB0000 + 0x100, 2, 1⟩
def FWU_STATE_MEAS_STALE : Fld := ⟨0xB0000 + 0x100, 3, 1⟩
def FWU_STATE_INCOMPAT : Fld := ⟨0xB0000 + 0x100, 4, 1⟩
def FWU_STATE_UNIT : Fld := ⟨0xB0000 + 0x100, 8, 4⟩
def FWU_STATE_TRIAL_BOOTS : Fld := ⟨0xB0000 + 0x100, 16, 2⟩
def FWU_TRIAL_LEFT_S : Fld := ⟨0xB0000 + 0x104, 0, 17⟩
def FWU_CFG_WINDOW : Fld := ⟨0xB0000 + 0x108, 0, 17⟩
def FWU_CFG2_DRAIN : Fld := ⟨0xB0000 + 0x10C, 0, 10⟩
def FWU_CFG2_LINK_WAIT : Fld := ⟨0xB0000 + 0x10C, 16, 10⟩
def FWU_LAST_FB_CAUSE : Fld := ⟨0xB0000 + 0x110, 0, 4⟩
def FWU_LAST_FB_PARTS : Fld := ⟨0xB0000 + 0x110, 8, 3⟩
def FWU_LAST_FB_COUNT : Fld := ⟨0xB0000 + 0x110, 16, 16⟩
def FWU_LAST_FB_TIME_S : Fld := ⟨0xB0000 + 0x114, 0, 32⟩
def FWU_KEYS_REVOKED : Fld := ⟨0xB0000 + 0x118, 0, 4⟩
def FWU_PROTO_PROTO : Fld := ⟨0xB0000 + 0x11C, 0, 16⟩
def FWU_RUN_SLOT (i : Nat) : Fld := ⟨0xB0000 + 0x120 + 4 * i, 0, 1⟩
def FWU_RUN_TRIAL (i : Nat) : Fld := ⟨0xB0000 + 0x120 + 4 * i, 1, 1⟩
def FWU_RUN_IFACE (i : Nat) : Fld := ⟨0xB0000 + 0x120 + 4 * i, 8, 16⟩
def FWU_SLOT_STAT_VERIFIED (s : Nat) : Fld := ⟨0xB0200 + 0x20 * s, 0, 1⟩
def FWU_SLOT_STAT_BOUND (s : Nat) : Fld := ⟨0xB0200 + 0x20 * s, 1, 1⟩
def FWU_SLOT_STAT_RUNNING (s : Nat) : Fld := ⟨0xB0200 + 0x20 * s, 2, 1⟩
def FWU_SLOT_STAT_PREV (s : Nat) : Fld := ⟨0xB0200 + 0x20 * s, 3, 1⟩
def FWU_SLOT_STAT_RESULT (s : Nat) : Fld := ⟨0xB0200 + 0x20 * s, 8, 8⟩
def FWU_SLOT_STAT_KEY (s : Nat) : Fld := ⟨0xB0200 + 0x20 * s, 16, 2⟩
def FWU_SLOT_VER_VERSION (s : Nat) : Fld := ⟨0xB0200 + 0x20 * s + 0x4, 0, 32⟩
def FWU_SLOT_EP_IFACE (s : Nat) : Fld := ⟨0xB0200 + 0x20 * s + 0x8, 0, 16⟩
def FWU_SLOT_EP_PROTO (s : Nat) : Fld := ⟨0xB0200 + 0x20 * s + 0x8, 16, 16⟩
def FWU_SLOT_MINA_MIN_CTRL (s : Nat) : Fld := ⟨0xB0200 + 0x20 * s + 0xC, 0, 16⟩
def FWU_SLOT_MINA_MIN_RADIO (s : Nat) : Fld := ⟨0xB0200 + 0x20 * s + 0xC, 16, 16⟩
def FWU_SLOT_MINB_MIN_PCS (s : Nat) : Fld := ⟨0xB0200 + 0x20 * s + 0x10, 0, 16⟩
def FWU_SLOT_MINB_MIN_PROOF (s : Nat) : Fld := ⟨0xB0200 + 0x20 * s + 0x10, 16, 16⟩
def HOST_LINK_SPEED : Fld := ⟨0xC0000 + 0x100, 0, 3⟩
def HOST_LINK_WIDTH : Fld := ⟨0xC0000 + 0x100, 4, 3⟩
def HOST_LINK_DOWNS : Fld := ⟨0xC0000 + 0x100, 16, 16⟩
def HOST_PARK_MS : Fld := ⟨0xC0000 + 0x104, 0, 16⟩
def HOST_DROPQ_COUNT : Fld := ⟨0xC0000 + 0x108, 0, 32⟩
def HOST_BAR2_UNMAPPED_COUNT : Fld := ⟨0xC0000 + 0x10C, 0, 32⟩
def HOST_MAP_PORT_DATA (i : Nat) : Fld := ⟨0xC0000 + 0x110 + 4 * i, 0, 6⟩
def HOST_MAP_PORT_DVALID (i : Nat) : Fld := ⟨0xC0000 + 0x110 + 4 * i, 7, 1⟩
def HOST_MAP_PORT_CTL (i : Nat) : Fld := ⟨0xC0000 + 0x110 + 4 * i, 8, 6⟩
def HOST_MAP_PORT_CVALID (i : Nat) : Fld := ⟨0xC0000 + 0x110 + 4 * i, 15, 1⟩
def HOST_MAP_CHAIN_Q (i : Nat) : Fld := ⟨0xC0000 + 0x140 + 4 * i, 0, 6⟩
def HOST_MAP_CHAIN_VALID (i : Nat) : Fld := ⟨0xC0000 + 0x140 + 4 * i, 7, 1⟩
def HOST_MAP_FW_Q : Fld := ⟨0xC0000 + 0x150, 0, 6⟩
def HOST_MAP_FW_VALID : Fld := ⟨0xC0000 + 0x150, 7, 1⟩
def HOST_IRQ_MAP_VEC0 (i : Nat) : Fld := ⟨0xC0000 + 0x200 + 4 * i, 0, 6⟩
def HOST_IRQ_MAP_VEC1 (i : Nat) : Fld := ⟨0xC0000 + 0x200 + 4 * i, 8, 6⟩
def HOST_IRQ_MAP_VEC2 (i : Nat) : Fld := ⟨0xC0000 + 0x200 + 4 * i, 16, 6⟩
def HOST_IRQ_MAP_VEC3 (i : Nat) : Fld := ⟨0xC0000 + 0x200 + 4 * i, 24, 6⟩
def HOST_IRQ_MAP_SPI0 (i : Nat) : Fld := ⟨0xC0000 + 0x200 + 4 * i, 6, 1⟩
def HOST_IRQ_MAP_SPI1 (i : Nat) : Fld := ⟨0xC0000 + 0x200 + 4 * i, 14, 1⟩
def HOST_IRQ_MAP_SPI2 (i : Nat) : Fld := ⟨0xC0000 + 0x200 + 4 * i, 22, 1⟩
def HOST_IRQ_MAP_SPI3 (i : Nat) : Fld := ⟨0xC0000 + 0x200 + 4 * i, 30, 1⟩
def HOST_IRQ_MAP_EN0 (i : Nat) : Fld := ⟨0xC0000 + 0x200 + 4 * i, 7, 1⟩
def HOST_IRQ_MAP_EN1 (i : Nat) : Fld := ⟨0xC0000 + 0x200 + 4 * i, 15, 1⟩
def HOST_IRQ_MAP_EN2 (i : Nat) : Fld := ⟨0xC0000 + 0x200 + 4 * i, 23, 1⟩
def HOST_IRQ_MAP_EN3 (i : Nat) : Fld := ⟨0xC0000 + 0x200 + 4 * i, 31, 1⟩
def HOST_Q_STATE_STATE (q : Nat) : Fld := ⟨0xC1000 + 0x40 * q, 0, 2⟩
def HOST_Q_CFG_RXLOG2 (q : Nat) : Fld := ⟨0xC1000 + 0x40 * q + 0x4, 0, 4⟩
def HOST_Q_CFG_TXLOG2 (q : Nat) : Fld := ⟨0xC1000 + 0x40 * q + 0x4, 4, 4⟩
def HOST_Q_CFG_BUF (q : Nat) : Fld := ⟨0xC1000 + 0x40 * q + 0x4, 8, 8⟩
def HOST_Q_CFG_TXC (q : Nat) : Fld := ⟨0xC1000 + 0x40 * q + 0x4, 16, 13⟩
def HOST_Q_RXBASE_LO_ADDR (q : Nat) : Fld := ⟨0xC1000 + 0x40 * q + 0x8, 0, 32⟩
def HOST_Q_RXBASE_HI_ADDR (q : Nat) : Fld := ⟨0xC1000 + 0x40 * q + 0xC, 0, 32⟩
def HOST_Q_TXBASE_LO_ADDR (q : Nat) : Fld := ⟨0xC1000 + 0x40 * q + 0x10, 0, 32⟩
def HOST_Q_TXBASE_HI_ADDR (q : Nat) : Fld := ⟨0xC1000 + 0x40 * q + 0x14, 0, 32⟩
def HOST_Q_RX_RET_COUNT (q : Nat) : Fld := ⟨0xC1000 + 0x40 * q + 0x18, 0, 13⟩
def HOST_Q_TX_POST_COUNT (q : Nat) : Fld := ⟨0xC1000 + 0x40 * q + 0x1C, 0, 13⟩
def HOST_Q_RX_PTR_NEXT (q : Nat) : Fld := ⟨0xC1000 + 0x40 * q + 0x20, 0, 12⟩
def HOST_Q_RX_PTR_HELD (q : Nat) : Fld := ⟨0xC1000 + 0x40 * q + 0x20, 16, 13⟩
def HOST_Q_TX_PTR_NEXT (q : Nat) : Fld := ⟨0xC1000 + 0x40 * q + 0x24, 0, 12⟩
def HOST_Q_TX_PTR_CREDIT (q : Nat) : Fld := ⟨0xC1000 + 0x40 * q + 0x24, 16, 13⟩
def HOST_Q_COAL_PKTS (q : Nat) : Fld := ⟨0xC1000 + 0x40 * q + 0x28, 0, 8⟩
def HOST_Q_COAL_US (q : Nat) : Fld := ⟨0xC1000 + 0x40 * q + 0x28, 8, 16⟩
def HOST_Q_RX_PKTS_COUNT (q : Nat) : Fld := ⟨0xC1000 + 0x40 * q + 0x2C, 0, 32⟩
def HOST_Q_TX_PKTS_COUNT (q : Nat) : Fld := ⟨0xC1000 + 0x40 * q + 0x30, 0, 32⟩
def HOST_Q_DROPS_COUNT (q : Nat) : Fld := ⟨0xC1000 + 0x40 * q + 0x34, 0, 32⟩
def HOST_MSIX_ADDR_LO_ADDR (i : Nat) : Fld := ⟨0xC0000 + 0x2000 + 16 * i, 0, 32⟩
def HOST_MSIX_ADDR_HI_ADDR (i : Nat) : Fld := ⟨0xC0000 + 0x2004 + 16 * i, 0, 32⟩
def HOST_MSIX_DATA_DATA (i : Nat) : Fld := ⟨0xC0000 + 0x2008 + 16 * i, 0, 32⟩
def HOST_MSIX_CTL_MASK (i : Nat) : Fld := ⟨0xC0000 + 0x200C + 16 * i, 0, 1⟩
def HOST_MSIX_PBA_PEND (i : Nat) : Fld := ⟨0xC0000 + 0x2400 + 4 * i, 0, 32⟩
def CRC_CFG_ALG (c : Nat) : Fld := ⟨0xD1000 + 0x40 * c, 0, 3⟩
def CRC_CFG_MODE (c : Nat) : Fld := ⟨0xD1000 + 0x40 * c, 4, 2⟩
def CRC_CFG_FIRST (c : Nat) : Fld := ⟨0xD1000 + 0x40 * c, 6, 1⟩
def CRC_CFG_LAST (c : Nat) : Fld := ⟨0xD1000 + 0x40 * c, 7, 1⟩
def CRC_CFG_SRC_SP (c : Nat) : Fld := ⟨0xD1000 + 0x40 * c, 8, 1⟩
def CRC_CFG_DST_SP (c : Nat) : Fld := ⟨0xD1000 + 0x40 * c, 9, 1⟩
def CRC_SRC_LO_ADDR (c : Nat) : Fld := ⟨0xD1000 + 0x40 * c + 0x4, 0, 32⟩
def CRC_SRC_HI_ADDR (c : Nat) : Fld := ⟨0xD1000 + 0x40 * c + 0x8, 0, 32⟩
def CRC_DST_LO_ADDR (c : Nat) : Fld := ⟨0xD1000 + 0x40 * c + 0xC, 0, 32⟩
def CRC_DST_HI_ADDR (c : Nat) : Fld := ⟨0xD1000 + 0x40 * c + 0x10, 0, 32⟩
def CRC_LEN_OCTETS (c : Nat) : Fld := ⟨0xD1000 + 0x40 * c + 0x14, 0, 24⟩
def CRC_CTL_GO (c : Nat) : Fld := ⟨0xD1000 + 0x40 * c + 0x18, 0, 1⟩
def CRC_CTL_STOP (c : Nat) : Fld := ⟨0xD1000 + 0x40 * c + 0x18, 1, 1⟩
def CRC_STAT_STATE (c : Nat) : Fld := ⟨0xD1000 + 0x40 * c + 0x1C, 0, 4⟩
def CRC_STAT_RESULT (c : Nat) : Fld := ⟨0xD1000 + 0x40 * c + 0x1C, 8, 8⟩
def CRC_STAT_KIB (c : Nat) : Fld := ⟨0xD1000 + 0x40 * c + 0x1C, 16, 16⟩
def CRC_VAL_LO_VALUE (c : Nat) : Fld := ⟨0xD1000 + 0x40 * c + 0x20, 0, 32⟩
def CRC_VAL_HI_VALUE (c : Nat) : Fld := ⟨0xD1000 + 0x40 * c + 0x24, 0, 32⟩
def CRC_JOBS_COUNT (c : Nat) : Fld := ⟨0xD1000 + 0x40 * c + 0x28, 0, 32⟩
def GPIO_DIR0_OE : Fld := ⟨0xF0000 + 0x100, 0, 32⟩
def GPIO_DIR1_OE : Fld := ⟨0xF0000 + 0x104, 0, 16⟩
def GPIO_OUT0_LEVEL : Fld := ⟨0xF0000 + 0x108, 0, 32⟩
def GPIO_OUT1_LEVEL : Fld := ⟨0xF0000 + 0x10C, 0, 16⟩
def GPIO_IN0_LEVEL : Fld := ⟨0xF0000 + 0x110, 0, 32⟩
def GPIO_IN1_LEVEL : Fld := ⟨0xF0000 + 0x114, 0, 16⟩
def GPIO_PULL_PULL (i : Nat) : Fld := ⟨0xF0000 + 0x120 + 4 * i, 0, 32⟩
def GPIO_FILT_F0 (i : Nat) : Fld := ⟨0xF0000 + 0x130 + 4 * i, 0, 8⟩
def GPIO_FILT_F1 (i : Nat) : Fld := ⟨0xF0000 + 0x130 + 4 * i, 8, 8⟩
def GPIO_FILT_F2 (i : Nat) : Fld := ⟨0xF0000 + 0x130 + 4 * i, 16, 8⟩
def GPIO_FILT_F3 (i : Nat) : Fld := ⟨0xF0000 + 0x130 + 4 * i, 24, 8⟩
def GPIO_CHG_EN0_EN : Fld := ⟨0xF0000 + 0x160, 0, 32⟩
def GPIO_CHG_EN1_EN : Fld := ⟨0xF0000 + 0x164, 0, 16⟩
def GPIO_CHG0_CHG : Fld := ⟨0xF0000 + 0x168, 0, 32⟩
def GPIO_CHG1_CHG : Fld := ⟨0xF0000 + 0x16C, 0, 16⟩

end Sys2Proof.Machine.R

namespace Sys2Proof.Machine.E

def FAB_FENCE_TMO : Nat := 0
def FAB_FENCE_SW : Nat := 1
def FAB_BFIFO_FULL : Nat := 2
def FAB_UNFENCE_DONE : Nat := 3
def PWR_PF_WARN : Nat := 0
def PWR_PF_CLEAR : Nat := 1
def PWR_AUTO_TRIM : Nat := 2
def PWR_STATE_DONE : Nat := 3
def PWR_WAKE : Nat := 4
def RET_STORE_DONE : Nat := 0
def RET_STORE_FAIL : Nat := 1
def RET_AGE_OVER : Nat := 2
def RET_FC_WAIT : Nat := 3
def RET_RESTORED : Nat := 4
def RET_REBUILD_FAIL : Nat := 5
def TB_SRC_CHANGE : Nat := 0
def TB_HOLDOVER : Nat := 1
def TB_QUALIFIED : Nat := 2
def TB_STEP : Nat := 3
def TB_REF_LOST : Nat := 4
def TB_REF_BACK : Nat := 5
def TB_SERVO_TMO : Nat := 6
def TB_PPSIN_LOST : Nat := 7
def TRIG_FIRE : Nat := 0
def TRIG_PAST_FIRED : Nat := 16
def TRIG_PAST_REFUSED : Nat := 17
def TRIG_MISSED : Nat := 18
def TRIG_STEP_DISARM : Nat := 19
def TRIG_FIFO_LOST : Nat := 20
def RF_CAL_DONE : Nat := 0
def RF_CAL_ABORT : Nat := 1
def RF_CAL_PROT : Nat := 2
def RF_TEMP_TRIG : Nat := 3
def RF_LOCK_FAIL : Nat := 4
def RF_CHAIN_FAULT : Nat := 5
def RF_TX_LATE : Nat := 6
def RF_TX_CAPPED : Nat := 7
def RF_TX_POLICY : Nat := 8
def RF_TX_FORBID : Nat := 9
def RF_RETUNED : Nat := 10
def WB_NOCTX : Nat := 0
def WB_LIMIT : Nat := 1
def WB_RESTART : Nat := 2
def WB_STALE : Nat := 3
def WB_CLIP : Nat := 4
def WB_FE_STEP : Nat := 5
def WB_REC_DROP : Nat := 6
def WB_ENDED : Nat := 7
def WB_CAP_DONE : Nat := 8
def WB_CAP_MISSED : Nat := 9
def WB_KEY_LATE : Nat := 10
def PHY_MAP_FAIL : Nat := 0
def PHY_SNR_LOST : Nat := 1
def PHY_SNR_READY : Nat := 2
def MAC_WAKE_FAIL : Nat := 0
def MAC_FULL_TRAIN : Nat := 1
def MAC_UNREACHED : Nat := 2
def MAC_REPLAY : Nat := 3
def MAC_POLICY : Nat := 4
def MAC_SEC_FAIL : Nat := 5
def MAC_EPOCH_ADV : Nat := 6
def MAC_FC_EXH : Nat := 7
def MAC_ACK_LATE : Nat := 8
def BCN_SENT : Nat := 0
def BCN_PEER_NEW : Nat := 1
def BCN_MISS : Nat := 2
def BCN_ADRIFT : Nat := 3
def BCN_CAND : Nat := 4
def BCN_PEER_REPL : Nat := 5
def BCN_PEER_EXPIRED : Nat := 6
def FLOOD_RELAYED : Nat := 0
def FLOOD_SUPPRESSED : Nat := 1
def FLOOD_DUP : Nat := 2
def FLOOD_EVICT : Nat := 3
def FLOOD_DIST_DONE : Nat := 4
def FLOOD_TTL_END : Nat := 5
def FLOOD_NORELAY : Nat := 6
def PEEL_LATE : Nat := 0
def PEEL_TIMEOUT : Nat := 1
def PEEL_STEP_DUE : Nat := 2
def PEEL_CREDIT_ZERO : Nat := 3
def PEEL_RDY_WAIT : Nat := 4
def PEEL_TARGET_OFF : Nat := 5
def DIR_FULL : Nat := 0
def DIR_LOCK : Nat := 1
def DIR_RELOC : Nat := 2
def DIR_FLOW_TMO : Nat := 3
def SIEVE_PIN : Nat := 0
def SIEVE_LEARN_FULL : Nat := 1
def SIEVE_LFIFO_LOST : Nat := 2
def SIEVE_MOVE : Nat := 3
def SIEVEP_NOHOP : Nat := 0
def SIEVEP_FULL : Nat := 1
def PORT_LINK_DOWN : Nat := 0
def PORT_LINK_UP : Nat := 1
def PORT_RIDE : Nat := 2
def PORT_DEGRADE : Nat := 3
def PORT_DEGRADE_CLR : Nat := 4
def PORT_TSTX_LOST : Nat := 5
def PORT_TOOLONG : Nat := 6
def PORT_UNDERRUN : Nat := 7
def CRUST_PN_THR : Nat := 0
def CRUST_EXHAUSTED : Nat := 1
def CRUST_INSTALL_FAIL : Nat := 2
def CRUSTX_TX_SWITCHED : Nat := 0
def CRUSTX_AUTO_SWITCH : Nat := 1
def CRUSTX_ICV_FAIL : Nat := 2
def CRUSTX_LATE : Nat := 3
def CRUSTX_UNKNOWN_SCI : Nat := 4
def CRUSTX_NOT_USING_SA : Nat := 5
def CRUSTX_TX_NOSA : Nat := 6
def CRUSTX_OVERSIZE : Nat := 7
def RACK_WM0_WM7 : Nat := 0
def RACK_CENSUS_BAD : Nat := 8
def RACK_RECLAIM_DONE : Nat := 9
def RACK_REVOKED : Nat := 10
def RACK_QUAR : Nat := 11
def RACK_NOCELL : Nat := 12
def RACK_DROPREC_LOST : Nat := 13
def RACK_TRACE_LOST : Nat := 14
def STARTER_OPEN : Nat := 0
def STARTER_ROOT_BAD : Nat := 1
def STARTER_TAMPERED : Nat := 2
def STARTER_EXH : Nat := 3
def STARTER_LC : Nat := 4
def STARTER_ZEROIZED : Nat := 5
def STARTER_PF_ABORT : Nat := 6
def TAMP_SRC : Nat := 0
def TAMP_HOLD_EVT : Nat := 8
def TAMP_LOG_LOST : Nat := 9
def PROOF_PUB_NEW : Nat := 0
def PROOF_REJECT : Nat := 1
def PROOF_FULL : Nat := 2
def PROOF_PAUSE : Nat := 3
def PROOF_RESUMED : Nat := 4
def PROOF_LOG_FULL : Nat := 5
def FWU_VERIFY_DONE : Nat := 0
def FWU_ACT_DONE : Nat := 1
def FWU_TRIAL_OPEN : Nat := 2
def FWU_CONFIRMED : Nat := 3
def FWU_FALLBACK : Nat := 4
def FWU_PORT_REVERT : Nat := 5
def HOST_LINK_DOWN : Nat := 0
def HOST_FLR : Nat := 1
def HOST_DMA_ERR : Nat := 2
def HOST_PARK_EXPIRED : Nat := 3
def CRC_DONE : Nat := 0
def CRC_MISMATCH : Nat := 24
def CRC_DMA_ERR : Nat := 25
def GPIO_CHANGE : Nat := 0
def GPIO_WAKE : Nat := 1

end Sys2Proof.Machine.E
end

