-- ==== Sys2Proof/Machine/RegSpec.lean ====
section
/-! DEFINITION. What a register map of the spec says of one register: the types of the tables in Machine/RegTable.lean. -/

namespace Sys2Proof.Machine

/-- The access codes of R9. -/
inductive Acc where
  | ro | rw | wo | w1c | w1s | pop
  deriving DecidableEq, Repr

/-- When a written field takes effect: at once, when a COMMIT applies it, or when a COMMIT applies the receive half (R80, R85). -/
inductive Staging where
  | no | yes | rx
  deriving DecidableEq, Repr

/-- The permitted values of a field (R78); checks that look at more than the field are in `crossOk` (Machine/Regs.lean). -/
inductive Rng where
  /-- every value -/
  | any
  /-- from the first to the second, both permitted -/
  | rng (lo hi : Nat)
  /-- the same, the field read as two's complement -/
  | srng (lo hi : Int)
  /-- 0, or from the first to the second -/
  | offOr (lo hi : Nat)
  /-- no bit outside the mask -/
  | mask (m : Nat)
  /-- a next hop's port: 0 to 9, 14 host, 15 invalid -/
  | nhPort
  deriving DecidableEq, Repr

/-- One field of a register map. -/
structure FieldSpec where
  name : String
  lo : Nat
  w : Nat
  acc : Acc
  /-- restored at power-up from the last committed epoch (R10) -/
  kept : Bool
  staged : Staging
  rng : Rng
  deriving DecidableEq, Repr

/-- One register of a register map: its offset, how many elements it has and their distance, and whether each master has its own. -/
structure RegSpec where
  name : String
  off : Nat
  n : Nat
  stride : Nat
  perMaster : Bool
  fields : List FieldSpec
  deriving DecidableEq, Repr

/-- Registers with a reset value that is not 0: the first offset, how many, their distance, the value. -/
structure ResetRow where
  off : Nat
  n : Nat
  stride : Nat
  v : W32
  deriving DecidableEq, Repr

end Sys2Proof.Machine
end

