-- ==== Sys2Proof/Machine/RegTable.lean ====
section
/-! DEFINITION. The register maps of spec/02 to spec/19 as data: per register its name, offset in its block, number of elements,
stride, whether each master has its own copy, and per field its bits, access code (R9), Kept mark (R10), staging and permitted
values.  Bits no field names are RSV.  Reset values stand in Machine/ResetTable.lean; checks across fields or against the state
are in `crossOk` (Machine/Regs.lean). -/

namespace Sys2Proof.Machine.T

def tFab : List RegSpec := [
  ⟨"FAB_EVT", 0x40, 1, 4, false, [⟨"FENCE_TMO", 0, 1, .w1c, false, .no, .any⟩, ⟨"FENCE_SW", 1, 1, .w1c, false, .no, .any⟩, ⟨"BFIFO_FULL", 2, 1, .w1c, false, .no, .any⟩, ⟨"UNFENCE_DONE", 3, 1, .w1c, false, .no, .any⟩]⟩,
  ⟨"FAB_TMO_CLASS", 0x100, 4, 4, false, [⟨"TMO", 0, 10, .rw, true, .no, .rng 5 640⟩]⟩,
  ⟨"FAB_GRP_CLASS", 0x110, 4, 4, false, [⟨"CLASS", 0, 32, .rw, true, .no, .any⟩]⟩,
  ⟨"FAB_FENCED_LO", 0x120, 1, 4, false, [⟨"GROUPS", 0, 32, .ro, false, .no, .any⟩]⟩,
  ⟨"FAB_FENCED_HI", 0x124, 1, 4, false, [⟨"GROUPS", 0, 32, .ro, false, .no, .any⟩]⟩,
  ⟨"FAB_LAST_FENCE", 0x130, 1, 4, false, [⟨"GROUP", 0, 6, .ro, false, .no, .any⟩, ⟨"CAUSE", 8, 1, .ro, false, .no, .any⟩, ⟨"COUNT", 16, 16, .ro, false, .no, .any⟩]⟩,
  ⟨"FAB_BFIFO_STAT", 0x140, 32, 4, false, [⟨"LEVEL", 0, 12, .ro, false, .no, .any⟩, ⟨"FULL_CNT", 16, 16, .ro, false, .no, .any⟩]⟩,
  ⟨"FAB_ADMIT_MARK", 0x1C0, 1, 4, false, [⟨"MARK", 0, 8, .rw, true, .no, .rng 8 128⟩]⟩]

def tPwrGov_0 : List RegSpec := [
  ⟨"PWR_GOV_MODE", 0x300, 1, 4, false, [⟨"MODE", 0, 2, .rw, true, .no, .rng 0 2⟩]⟩,
  ⟨"PWR_GOV_MARGIN", 0x304, 1, 4, false, [⟨"MARGIN", 0, 6, .rw, true, .no, .rng 2 40⟩]⟩,
  ⟨"PWR_GOV_VFIX", 0x308, 1, 4, false, [⟨"CODE", 0, 6, .rw, true, .no, .rng 0 60⟩]⟩,
  ⟨"PWR_GOV_ECON_FLOOR", 0x30C, 1, 4, false, [⟨"CODE", 0, 6, .rw, true, .no, .rng 0 60⟩]⟩,
  ⟨"PWR_GOV_CEIL", 0x310, 1, 4, false, [⟨"CODE", 0, 6, .rw, true, .no, .rng 26 60⟩]⟩,
  ⟨"PWR_GOV_WINDOW", 0x314, 1, 4, false, [⟨"US", 0, 7, .rw, true, .no, .rng 2 100⟩]⟩,
  ⟨"PWR_GOV_VNOW", 0x318, 1, 4, false, [⟨"RAIL", 0, 6, .ro, false, .no, .any⟩, ⟨"TARGET", 8, 6, .ro, false, .no, .any⟩, ⟨"AT_FLOOR", 16, 1, .ro, false, .no, .any⟩, ⟨"AT_CEIL", 17, 1, .ro, false, .no, .any⟩, ⟨"BURST", 18, 1, .ro, false, .no, .any⟩, ⟨"CAPPED", 19, 1, .ro, false, .no, .any⟩]⟩,
  ⟨"PWR_GOV_MON_SEL", 0x31C, 1, 4, false, [⟨"ENABLE", 0, 12, .rw, true, .no, .any⟩]⟩]

def tPwrGov_1 : List RegSpec := [
  ⟨"PWR_GOV_BUSY", 0x320, 1, 4, false, [⟨"FRACTION", 0, 8, .ro, false, .no, .any⟩, ⟨"PIPE", 8, 4, .ro, false, .no, .any⟩]⟩,
  ⟨"PWR_GOV_CAP", 0x324, 1, 4, false, [⟨"GBPS", 0, 16, .ro, false, .no, .any⟩]⟩]

def tPwrGov : List RegSpec := tPwrGov_0 ++ tPwrGov_1

def tHdr_0 : List RegSpec := [
  ⟨"H_ID", 0x0, 1, 4, false, [⟨"FORMAT", 0, 8, .ro, false, .no, .any⟩, ⟨"INSTANCE", 8, 8, .ro, false, .no, .any⟩, ⟨"TYPE", 16, 16, .ro, false, .no, .any⟩]⟩,
  ⟨"H_VER", 0x4, 1, 4, false, [⟨"HW", 0, 16, .ro, false, .no, .any⟩, ⟨"IFACE", 16, 16, .ro, false, .no, .any⟩]⟩,
  ⟨"H_CAP", 0x8, 1, 4, false, [⟨"BLOCK", 0, 27, .ro, false, .no, .any⟩, ⟨"PAGES", 27, 5, .ro, false, .no, .any⟩]⟩,
  ⟨"H_STATUS", 0xC, 1, 4, false, [⟨"PROGRESS", 0, 16, .ro, false, .no, .any⟩, ⟨"SEQ", 16, 8, .ro, false, .no, .any⟩, ⟨"STALE", 24, 1, .ro, false, .no, .any⟩, ⟨"ERR", 25, 1, .ro, false, .no, .any⟩, ⟨"PART", 26, 1, .ro, false, .no, .any⟩, ⟨"BUSY", 27, 1, .ro, false, .no, .any⟩, ⟨"STATE", 28, 4, .ro, false, .no, .any⟩]⟩,
  ⟨"H_CMD", 0x10, 1, 4, false, [⟨"OPCODE", 0, 8, .wo, false, .no, .any⟩, ⟨"UNPACED", 8, 1, .wo, false, .no, .any⟩, ⟨"TAG", 16, 8, .wo, false, .no, .any⟩]⟩,
  ⟨"H_ARG", 0x14, 4, 4, false, [⟨"VALUE", 0, 32, .rw, false, .no, .any⟩]⟩,
  ⟨"H_RES0", 0x24, 1, 4, false, [⟨"CODE", 0, 8, .ro, false, .no, .any⟩, ⟨"TAG", 8, 8, .ro, false, .no, .any⟩, ⟨"DATA", 16, 16, .ro, false, .no, .any⟩]⟩,
  ⟨"H_RES", 0x28, 3, 4, false, [⟨"DATA", 0, 32, .ro, false, .no, .any⟩]⟩]

def tHdr_1 : List RegSpec := [
  ⟨"H_REFUSED", 0x34, 1, 4, false, [⟨"OFFSET", 0, 12, .ro, false, .no, .any⟩, ⟨"PAGE", 12, 4, .ro, false, .no, .any⟩, ⟨"COUNT", 16, 15, .ro, false, .no, .any⟩, ⟨"CLR", 31, 1, .wo, false, .no, .any⟩]⟩,
  ⟨"H_CMD_REJ", 0x38, 1, 4, false, [⟨"CODE", 0, 8, .ro, false, .no, .any⟩, ⟨"TAG", 8, 8, .ro, false, .no, .any⟩, ⟨"COUNT", 16, 16, .ro, false, .no, .any⟩]⟩,
  ⟨"H_EVT", 0x40, 1, 4, false, [⟨"per block", 0, 32, .w1c, false, .no, .any⟩]⟩,
  ⟨"H_EVT_EN", 0x44, 1, 4, false, [⟨"per block", 0, 32, .rw, true, .no, .any⟩]⟩,
  ⟨"H_EVT_FORCE", 0x48, 1, 4, false, [⟨"per block", 0, 32, .wo, false, .no, .any⟩]⟩,
  ⟨"H_EVT_CNT", 0x50, 8, 4, false, [⟨"CNT0_CNT30", 0, 8, .w1c, false, .no, .any⟩, ⟨"CNT0_CNT31", 8, 8, .w1c, false, .no, .any⟩, ⟨"CNT0_CNT32", 16, 8, .w1c, false, .no, .any⟩, ⟨"CNT0_CNT33", 24, 8, .w1c, false, .no, .any⟩]⟩,
  ⟨"H_CFG_EPOCH", 0x70, 1, 4, false, [⟨"EPOCH", 0, 32, .ro, true, .no, .any⟩]⟩,
  ⟨"H_CFG_STAGE", 0x74, 1, 4, false, [⟨"EPOCH", 0, 32, .rw, false, .no, .any⟩]⟩]

def tHdr_2 : List RegSpec := [
  ⟨"H_CFG_PEND", 0x78, 1, 4, false, [⟨"PENDING", 0, 1, .ro, false, .no, .any⟩, ⟨"APPLYING", 1, 1, .ro, false, .no, .any⟩, ⟨"DEFERRED", 2, 1, .ro, false, .no, .any⟩]⟩,
  ⟨"H_LED_IN_LO", 0x80, 1, 4, false, [⟨"COUNT", 0, 32, .ro, false, .no, .any⟩]⟩,
  ⟨"H_LED_IN_HI", 0x84, 1, 4, false, [⟨"COUNT", 0, 32, .ro, false, .no, .any⟩]⟩,
  ⟨"H_LED_OUT_LO", 0x88, 1, 4, false, [⟨"COUNT", 0, 32, .ro, false, .no, .any⟩]⟩,
  ⟨"H_LED_OUT_HI", 0x8C, 1, 4, false, [⟨"COUNT", 0, 32, .ro, false, .no, .any⟩]⟩,
  ⟨"H_LED_DROP_LO", 0x90, 1, 4, false, [⟨"COUNT", 0, 32, .ro, false, .no, .any⟩]⟩,
  ⟨"H_LED_DROP_HI", 0x94, 1, 4, false, [⟨"COUNT", 0, 32, .ro, false, .no, .any⟩]⟩,
  ⟨"H_LED_HELD_LO", 0x98, 1, 4, false, [⟨"COUNT", 0, 32, .ro, false, .no, .any⟩]⟩]

def tHdr_3 : List RegSpec := [
  ⟨"H_LED_HELD_HI", 0x9C, 1, 4, false, [⟨"COUNT", 0, 32, .ro, false, .no, .any⟩]⟩,
  ⟨"H_LED_FENCED_LO", 0xA0, 1, 4, false, [⟨"COUNT", 0, 32, .ro, false, .no, .any⟩]⟩,
  ⟨"H_LED_FENCED_HI", 0xA4, 1, 4, false, [⟨"COUNT", 0, 32, .ro, false, .no, .any⟩]⟩,
  ⟨"H_LED_SNAP", 0xA8, 1, 4, false, [⟨"SEQ", 0, 16, .ro, false, .no, .any⟩]⟩,
  ⟨"H_LED_SNAP_NS", 0xAC, 1, 4, false, [⟨"NS", 0, 32, .ro, false, .no, .any⟩]⟩]

/-- The common header (R57).  Every bit of _EVT_EN can be set and read back, one that its block does not define too (DESIGN CHOICE, log
entry 72). -/
def tHdr : List RegSpec := tHdr_0 ++ tHdr_1 ++ tHdr_2 ++ tHdr_3

def tPwr_0 : List RegSpec := [
  ⟨"PWR_EVT", 0x40, 1, 4, false, [⟨"PF_WARN", 0, 1, .w1c, false, .no, .any⟩, ⟨"PF_CLEAR", 1, 1, .w1c, false, .no, .any⟩, ⟨"AUTO_TRIM", 2, 1, .w1c, false, .no, .any⟩, ⟨"STATE_DONE", 3, 1, .w1c, false, .no, .any⟩, ⟨"WAKE", 4, 1, .w1c, false, .no, .any⟩]⟩,
  ⟨"PWR_STATE", 0x100, 1, 4, false, [⟨"STATE", 0, 2, .ro, false, .no, .any⟩, ⟨"TRANS", 2, 1, .ro, false, .no, .any⟩, ⟨"BOOT_FAIL", 3, 1, .ro, false, .no, .any⟩, ⟨"DOMAINS", 16, 14, .ro, false, .no, .any⟩]⟩,
  ⟨"PWR_VIN", 0x104, 1, 4, false, [⟨"MV10", 0, 16, .ro, false, .no, .any⟩, ⟨"PF", 16, 1, .ro, false, .no, .any⟩]⟩,
  ⟨"PWR_PF_THRESH", 0x108, 1, 4, false, [⟨"DV", 0, 10, .rw, true, .no, .rng 50 500⟩]⟩,
  ⟨"PWR_TRIM_THRESH", 0x10C, 1, 4, false, [⟨"DV", 0, 10, .rw, true, .no, .offOr 60 550⟩, ⟨"AUTO_RUN", 16, 1, .rw, true, .no, .any⟩]⟩,
  ⟨"PWR_WAKE_EN", 0x110, 1, 4, false, [⟨"SRC", 0, 4, .rw, true, .no, .any⟩]⟩,
  ⟨"PWR_WAKE_SRC", 0x114, 1, 4, false, [⟨"SRC", 0, 4, .ro, false, .no, .any⟩]⟩,
  ⟨"PWR_RST_CAUSE", 0x118, 1, 4, false, [⟨"CAUSE", 0, 5, .w1c, false, .no, .any⟩]⟩]

def tPwr_1 : List RegSpec := [
  ⟨"PWR_MS", 0x120, 5, 4, false, [⟨"ST", 0, 32, .ro, false, .no, .any⟩]⟩]

def tPwr : List RegSpec := tPwr_0 ++ tPwr_1

def tRet_0 : List RegSpec := [
  ⟨"RET_EVT", 0x40, 1, 4, false, [⟨"STORE_DONE", 0, 1, .w1c, false, .no, .any⟩, ⟨"STORE_FAIL", 1, 1, .w1c, false, .no, .any⟩, ⟨"AGE_OVER", 2, 1, .w1c, false, .no, .any⟩, ⟨"FC_WAIT", 3, 1, .w1c, false, .no, .any⟩, ⟨"RESTORED", 4, 1, .w1c, false, .no, .any⟩, ⟨"REBUILD_FAIL", 5, 1, .w1c, false, .no, .any⟩]⟩,
  ⟨"RET_COPY_A", 0x100, 1, 4, false, [⟨"EPOCH", 0, 32, .ro, false, .no, .any⟩]⟩,
  ⟨"RET_COPY_B", 0x104, 1, 4, false, [⟨"EPOCH", 0, 32, .ro, false, .no, .any⟩]⟩,
  ⟨"RET_RESTORE", 0x108, 1, 4, false, [⟨"SOURCE", 0, 2, .ro, false, .no, .any⟩, ⟨"WHY", 2, 2, .ro, false, .no, .any⟩, ⟨"REFUSED", 16, 16, .ro, false, .no, .any⟩]⟩,
  ⟨"RET_STORE", 0x10C, 1, 4, false, [⟨"BUSY", 0, 1, .ro, false, .no, .any⟩]⟩,
  ⟨"RET_STORE_EPOCH", 0x110, 1, 4, false, [⟨"EPOCH", 0, 32, .ro, false, .no, .any⟩]⟩,
  ⟨"RET_CKPT_CFG", 0x114, 1, 4, false, [⟨"MAXAGE", 0, 10, .rw, true, .no, .rng 1 600⟩]⟩,
  ⟨"RET_FC_RESERVE", 0x118, 1, 4, false, [⟨"LOG2", 0, 5, .rw, true, .no, .rng 8 16⟩]⟩]

def tRet_1 : List RegSpec := [
  ⟨"RET_DRIFT_TOL", 0x11C, 1, 4, false, [⟨"DPPM", 0, 8, .rw, true, .no, .rng 1 200⟩]⟩,
  ⟨"RET_CKPT_STAT", 0x120, 1, 4, false, [⟨"DIRTY", 0, 19, .ro, false, .no, .any⟩]⟩,
  ⟨"RET_CKPT_AGE", 0x124, 1, 4, false, [⟨"MS", 0, 16, .ro, false, .no, .any⟩]⟩,
  ⟨"RET_FC_WAIT", 0x128, 1, 4, false, [⟨"COUNT", 0, 32, .ro, false, .no, .any⟩]⟩,
  ⟨"RET_RESTORE_STAT", 0x12C, 1, 4, false, [⟨"NODES", 0, 19, .ro, false, .no, .any⟩, ⟨"MAXU", 19, 1, .ro, false, .no, .any⟩, ⟨"DONE", 31, 1, .ro, false, .no, .any⟩]⟩,
  ⟨"RET_OUTAGE", 0x130, 1, 4, false, [⟨"S", 0, 32, .ro, false, .no, .any⟩]⟩,
  ⟨"RET_REBUILD_FAIL", 0x134, 1, 4, false, [⟨"COUNT", 0, 19, .ro, false, .no, .any⟩]⟩,
  ⟨"RET_SWAIT", 0x140, 10, 4, false, [⟨"PTP_PASS", 0, 1, .rw, true, .no, .any⟩, ⟨"CLEAR_FWD", 1, 1, .rw, true, .no, .any⟩, ⟨"ACTIVE", 8, 1, .ro, false, .no, .any⟩]⟩]

def tRet : List RegSpec := tRet_0 ++ tRet_1

def tTb_0 : List RegSpec := [
  ⟨"TB_EVT", 0x40, 1, 4, false, [⟨"SRC_CHANGE", 0, 1, .w1c, false, .no, .any⟩, ⟨"HOLDOVER", 1, 1, .w1c, false, .no, .any⟩, ⟨"QUALIFIED", 2, 1, .w1c, false, .no, .any⟩, ⟨"STEP", 3, 1, .w1c, false, .no, .any⟩, ⟨"REF_LOST", 4, 1, .w1c, false, .no, .any⟩, ⟨"REF_BACK", 5, 1, .w1c, false, .no, .any⟩, ⟨"SERVO_TMO", 6, 1, .w1c, false, .no, .any⟩, ⟨"PPSIN_LOST", 7, 1, .w1c, false, .no, .any⟩]⟩,
  ⟨"TB_LATCH", 0x100, 1, 4, false, [⟨"GO", 0, 1, .wo, false, .no, .any⟩]⟩,
  ⟨"TB_SNAP_NS", 0x104, 1, 4, true, [⟨"NS", 0, 32, .ro, false, .no, .any⟩]⟩,
  ⟨"TB_SNAP_S_LO", 0x108, 1, 4, true, [⟨"S", 0, 32, .ro, false, .no, .any⟩]⟩,
  ⟨"TB_SNAP_S_HI", 0x10C, 1, 4, true, [⟨"S", 0, 16, .ro, false, .no, .any⟩]⟩,
  ⟨"TB_SNAP_LIN_LO", 0x110, 1, 4, true, [⟨"L", 0, 32, .ro, false, .no, .any⟩]⟩,
  ⟨"TB_SNAP_LIN_HI", 0x114, 1, 4, true, [⟨"L", 0, 32, .ro, false, .no, .any⟩]⟩,
  ⟨"TB_SNAP_AUX", 0x118, 1, 4, true, [⟨"FRAC", 0, 8, .ro, false, .no, .any⟩, ⟨"WRAP", 8, 8, .ro, false, .no, .any⟩, ⟨"STEPGEN", 16, 4, .ro, false, .no, .any⟩, ⟨"HOLD", 20, 1, .ro, false, .no, .any⟩]⟩]

def tTb_1 : List RegSpec := [
  ⟨"TB_SNAP_ST", 0x11C, 1, 4, true, [⟨"ST", 0, 32, .ro, false, .no, .any⟩]⟩,
  ⟨"TB_STATE", 0x120, 1, 4, false, [⟨"SRC", 0, 2, .ro, false, .no, .any⟩, ⟨"MODE", 4, 2, .ro, false, .no, .any⟩, ⟨"REF_LOST", 6, 1, .ro, false, .no, .any⟩, ⟨"OK", 8, 3, .ro, false, .no, .any⟩, ⟨"QUAL_LEFT", 16, 16, .ro, false, .no, .any⟩]⟩,
  ⟨"TB_SRC_SET", 0x124, 1, 4, false, [⟨"PTP_OK", 0, 1, .rw, false, .no, .any⟩, ⟨"BCN_OK", 1, 1, .rw, false, .no, .any⟩, ⟨"LOCKED", 2, 1, .rw, false, .no, .any⟩]⟩,
  ⟨"TB_SRC_EN", 0x128, 1, 4, false, [⟨"PTP", 0, 1, .rw, true, .no, .any⟩, ⟨"GNSS", 1, 1, .rw, true, .no, .any⟩, ⟨"BCN", 2, 1, .rw, true, .no, .any⟩, ⟨"TENM", 3, 1, .rw, true, .no, .any⟩]⟩,
  ⟨"TB_QUAL", 0x12C, 1, 4, false, [⟨"S", 0, 10, .rw, true, .no, .rng 1 600⟩]⟩,
  ⟨"TB_RATE", 0x130, 1, 4, false, [⟨"RATE", 0, 32, .rw, false, .no, .any⟩]⟩,
  ⟨"TB_SERVO_TMO", 0x134, 1, 4, false, [⟨"MS", 0, 16, .rw, true, .no, .rng 100 60000⟩]⟩,
  ⟨"TB_HOLD_PPB", 0x138, 1, 4, false, [⟨"PPB", 0, 16, .rw, true, .no, .rng 1 50000⟩, ⟨"XTAL", 16, 16, .rw, true, .no, .rng 100 50000⟩]⟩]

def tTb_2 : List RegSpec := [
  ⟨"TB_HOLD_ELAPSED", 0x13C, 1, 4, false, [⟨"MS", 0, 32, .ro, false, .no, .any⟩]⟩,
  ⟨"TB_HOLD_BOUND", 0x140, 1, 4, false, [⟨"NS", 0, 32, .ro, false, .no, .any⟩]⟩,
  ⟨"TB_STEP_CNT", 0x144, 1, 4, false, [⟨"COUNT", 0, 32, .ro, false, .no, .any⟩]⟩,
  ⟨"TB_LAST_STEP_LO", 0x148, 1, 4, false, [⟨"NS", 0, 32, .ro, false, .no, .any⟩]⟩,
  ⟨"TB_LAST_STEP_HI", 0x14C, 1, 4, false, [⟨"NS", 0, 32, .ro, false, .no, .any⟩]⟩,
  ⟨"TB_UTC", 0x150, 1, 4, false, [⟨"OFFSET", 0, 16, .rw, true, .no, .any⟩, ⟨"VALID", 16, 1, .rw, true, .no, .any⟩, ⟨"LEAP61", 17, 1, .rw, false, .no, .any⟩, ⟨"LEAP59", 18, 1, .rw, false, .no, .any⟩]⟩,
  ⟨"TB_PPS_CFG", 0x154, 1, 4, false, [⟨"EDGE", 0, 1, .rw, true, .no, .any⟩, ⟨"IN_DELAY", 8, 16, .rw, true, .no, .any⟩]⟩,
  ⟨"TB_PPSIN_POP", 0x158, 1, 4, false, [⟨"NS", 0, 32, .pop, false, .no, .any⟩]⟩]

def tTb_3 : List RegSpec := [
  ⟨"TB_PPSIN_HI", 0x15C, 1, 4, false, [⟨"STAMP", 0, 32, .ro, false, .no, .any⟩]⟩,
  ⟨"TB_PPSIN_LOST", 0x160, 1, 4, false, [⟨"COUNT", 0, 32, .ro, false, .no, .any⟩]⟩,
  ⟨"TB_TENM_ERR", 0x164, 1, 4, false, [⟨"ERR", 0, 32, .ro, false, .no, .any⟩]⟩]

def tTb : List RegSpec := tTb_0 ++ tTb_1 ++ tTb_2 ++ tTb_3

def tTrigCh : List RegSpec := [
  ⟨"TRIG_CTL", 0x0, 1, 4, false, [⟨"ARM", 0, 1, .rw, false, .no, .any⟩, ⟨"NO_PAST", 1, 1, .rw, true, .no, .any⟩, ⟨"UNIT", 2, 1, .rw, true, .no, .any⟩, ⟨"KIND", 4, 4, .rw, true, .no, .rng 0 6⟩, ⟨"SEL", 8, 4, .rw, true, .no, .any⟩, ⟨"PERIOD_FRAC", 16, 8, .rw, true, .no, .any⟩]⟩,
  ⟨"TRIG_TGT", 0x4, 1, 4, false, [⟨"TGT", 0, 32, .rw, false, .no, .any⟩]⟩,
  ⟨"TRIG_PERIOD", 0x8, 1, 4, false, [⟨"PERIOD", 0, 32, .rw, true, .no, .rng 0 2147483647⟩]⟩,
  ⟨"TRIG_PARAM", 0xC, 1, 4, false, [⟨"PARAM", 0, 32, .rw, true, .no, .any⟩]⟩,
  ⟨"TRIG_STAT", 0x10, 1, 4, false, [⟨"FIRES", 0, 16, .ro, false, .no, .any⟩, ⟨"MISSED", 16, 8, .ro, false, .no, .any⟩, ⟨"NOACT", 24, 8, .ro, false, .no, .any⟩]⟩,
  ⟨"TRIG_LAST", 0x14, 1, 4, false, [⟨"NS", 0, 32, .ro, false, .no, .any⟩]⟩]

def tTrig : List RegSpec := [
  ⟨"TRIG_EVT", 0x40, 1, 4, false, [⟨"FIRE", 0, 16, .w1c, false, .no, .any⟩, ⟨"PAST_FIRED", 16, 1, .w1c, false, .no, .any⟩, ⟨"PAST_REFUSED", 17, 1, .w1c, false, .no, .any⟩, ⟨"MISSED", 18, 1, .w1c, false, .no, .any⟩, ⟨"STEP_DISARM", 19, 1, .w1c, false, .no, .any⟩, ⟨"FIFO_LOST", 20, 1, .w1c, false, .no, .any⟩]⟩,
  ⟨"TRIG_FIRE_POP", 0x300, 1, 4, false, [⟨"NS", 0, 32, .pop, false, .no, .any⟩]⟩,
  ⟨"TRIG_FIRE_HI", 0x304, 1, 4, false, [⟨"STAMP", 0, 32, .ro, false, .no, .any⟩]⟩,
  ⟨"TRIG_FIRE_LOST", 0x308, 1, 4, false, [⟨"COUNT", 0, 32, .ro, false, .no, .any⟩]⟩]

def tRf_0 : List RegSpec := [
  ⟨"RF_EVT", 0x40, 1, 4, false, [⟨"CAL_DONE", 0, 1, .w1c, false, .no, .any⟩, ⟨"CAL_ABORT", 1, 1, .w1c, false, .no, .any⟩, ⟨"CAL_PROT", 2, 1, .w1c, false, .no, .any⟩, ⟨"TEMP_TRIG", 3, 1, .w1c, false, .no, .any⟩, ⟨"LOCK_FAIL", 4, 1, .w1c, false, .no, .any⟩, ⟨"CHAIN_FAULT", 5, 1, .w1c, false, .no, .any⟩, ⟨"TX_LATE", 6, 1, .w1c, false, .no, .any⟩, ⟨"TX_CAPPED", 7, 1, .w1c, false, .no, .any⟩, ⟨"TX_POLICY", 8, 1, .w1c, false, .no, .any⟩, ⟨"TX_FORBID", 9, 1, .w1c, false, .no, .any⟩, ⟨"RETUNED", 10, 1, .w1c, false, .no, .any⟩]⟩,
  ⟨"RF_STATE", 0x100, 1, 4, false, [⟨"STATE", 0, 3, .ro, false, .no, .any⟩, ⟨"CAL_KIND", 4, 2, .ro, false, .no, .any⟩, ⟨"CAL_PROT", 6, 1, .ro, false, .no, .any⟩, ⟨"FAULT", 7, 1, .ro, false, .no, .any⟩, ⟨"BAND", 8, 3, .ro, false, .no, .any⟩, ⟨"LOCKED", 11, 1, .ro, false, .no, .any⟩, ⟨"RETUNE_PEND", 12, 1, .ro, false, .no, .any⟩, ⟨"OUT_OF_SLICE", 13, 1, .ro, false, .no, .any⟩, ⟨"JOBS", 16, 2, .ro, false, .no, .any⟩]⟩,
  ⟨"RF_CTL", 0x104, 1, 4, false, [⟨"EN", 0, 1, .rw, true, .no, .any⟩]⟩,
  ⟨"RF_CENTRE", 0x108, 1, 4, false, [⟨"KHZ", 0, 22, .rw, true, .no, .any⟩]⟩,
  ⟨"RF_SYN_STAT", 0x10C, 1, 4, false, [⟨"LAST", 0, 16, .ro, false, .no, .any⟩, ⟨"FAILS", 16, 16, .ro, false, .no, .any⟩]⟩,
  ⟨"RF_SYN_TMO", 0x110, 1, 4, false, [⟨"INBAND", 0, 8, .rw, true, .no, .rng 85 255⟩, ⟨"BAND", 16, 9, .rw, true, .no, .rng 230 511⟩]⟩,
  ⟨"RF_TX_CFG", 0x114, 1, 4, false, [⟨"RAMP", 0, 2, .rw, true, .no, .any⟩, ⟨"DEFER_RX", 2, 1, .rw, true, .no, .any⟩, ⟨"BLANK_ALSO", 4, 4, .rw, true, .no, .any⟩, ⟨"PWR_MAX", 8, 6, .rw, true, .no, .any⟩, ⟨"FEM_LEAD", 16, 8, .rw, true, .no, .any⟩, ⟨"FEM_LAG", 24, 8, .rw, true, .no, .any⟩]⟩,
  ⟨"RF_PWR_BASE", 0x118, 1, 4, false, [⟨"BASE", 0, 8, .rw, true, .no, .srng (-80) (-3)⟩]⟩]

def tRf_1 : List RegSpec := [
  ⟨"RF_CAL_CFG", 0x11C, 1, 4, false, [⟨"DELTA", 0, 5, .rw, true, .no, .rng 2 20⟩, ⟨"AUTO", 8, 3, .rw, true, .no, .any⟩]⟩,
  ⟨"RF_CAL_STAT", 0x120, 1, 4, false, [⟨"TEMP", 0, 8, .ro, false, .no, .any⟩, ⟨"VALID", 8, 3, .ro, false, .no, .any⟩, ⟨"PEND", 12, 3, .ro, false, .no, .any⟩, ⟨"ABORTS", 16, 2, .ro, false, .no, .any⟩]⟩,
  ⟨"RF_CAL_TEMP", 0x124, 1, 4, false, [⟨"OFS", 0, 8, .ro, false, .no, .any⟩, ⟨"FLT", 8, 8, .ro, false, .no, .any⟩, ⟨"IMG", 16, 8, .ro, false, .no, .any⟩]⟩,
  ⟨"RF_TX_STAT", 0x128, 1, 4, false, [⟨"SENT", 0, 16, .ro, false, .no, .any⟩, ⟨"LATE", 16, 8, .ro, false, .no, .any⟩, ⟨"CAPPED", 24, 8, .ro, false, .no, .any⟩]⟩,
  ⟨"RF_TX_WAIT", 0x12C, 1, 4, false, [⟨"SETTLE", 0, 8, .ro, false, .no, .any⟩, ⟨"CAL", 8, 8, .ro, false, .no, .any⟩, ⟨"POLICY", 16, 8, .ro, false, .no, .any⟩, ⟨"FORBID", 24, 8, .ro, false, .no, .any⟩]⟩,
  ⟨"RF_PTAB", 0x140, 64, 4, false, [⟨"BIAS", 0, 8, .rw, true, .no, .any⟩, ⟨"DGAIN", 8, 12, .rw, true, .no, .rng 256 4095⟩, ⟨"FEM_MODE", 20, 3, .rw, true, .no, .any⟩, ⟨"VALID", 31, 1, .rw, true, .no, .any⟩]⟩,
  ⟨"RF_FEM_MAP", 0x240, 8, 4, false, [⟨"PAT", 0, 4, .rw, true, .no, .any⟩]⟩,
  ⟨"RF_FEM_IDLE", 0x260, 1, 4, false, [⟨"OFF_PAT", 0, 4, .rw, true, .no, .any⟩, ⟨"CAL_PAT", 4, 4, .rw, true, .no, .any⟩, ⟨"RX_PAT", 8, 4, .rw, true, .no, .any⟩]⟩]

def tRf_2 : List RegSpec := [
  ⟨"RF_FEM_NOW", 0x264, 1, 4, false, [⟨"PAT", 0, 4, .ro, false, .no, .any⟩]⟩]

def tRf : List RegSpec := tRf_0 ++ tRf_1 ++ tRf_2

def tRf0 : List RegSpec := [
  ⟨"RF0_XTX", 0x130, 1, 4, false, [⟨"FORBID", 0, 1, .rw, true, .no, .any⟩, ⟨"CUT", 1, 1, .rw, true, .no, .any⟩, ⟨"KEEP_RX", 2, 1, .rw, true, .no, .any⟩]⟩,
  ⟨"RF0_OSC", 0x134, 1, 4, false, [⟨"MODE", 0, 2, .rw, true, .no, .rng 0 2⟩, ⟨"PERIOD", 8, 12, .rw, true, .no, .rng 10 3600⟩]⟩,
  ⟨"RF0_OSC_ERR", 0x138, 1, 4, false, [⟨"PPM", 0, 32, .ro, false, .no, .any⟩]⟩,
  ⟨"RF0_OSC_TUNE", 0x13C, 1, 4, false, [⟨"CODE", 0, 16, .rw, true, .no, .any⟩]⟩]

def tWb_0 : List RegSpec := [
  ⟨"WB_EVT", 0x40, 1, 4, false, [⟨"NOCTX", 0, 1, .w1c, false, .no, .any⟩, ⟨"LIMIT", 1, 1, .w1c, false, .no, .any⟩, ⟨"RESTART", 2, 1, .w1c, false, .no, .any⟩, ⟨"STALE", 3, 1, .w1c, false, .no, .any⟩, ⟨"CLIP", 4, 1, .w1c, false, .no, .any⟩, ⟨"FE_STEP", 5, 1, .w1c, false, .no, .any⟩, ⟨"REC_DROP", 6, 1, .w1c, false, .no, .any⟩, ⟨"ENDED", 7, 1, .w1c, false, .no, .any⟩, ⟨"CAP_DONE", 8, 1, .w1c, false, .no, .any⟩, ⟨"CAP_MISSED", 9, 1, .w1c, false, .no, .any⟩, ⟨"KEY_LATE", 10, 1, .w1c, false, .no, .any⟩]⟩,
  ⟨"WB_STATE", 0x100, 1, 4, false, [⟨"BUSY", 0, 6, .ro, false, .no, .any⟩, ⟨"CONF", 8, 6, .ro, false, .no, .any⟩, ⟨"FEG0", 16, 5, .ro, false, .no, .any⟩, ⟨"FEG1", 24, 5, .ro, false, .no, .any⟩]⟩,
  ⟨"WB_CTX_MAP", 0x104, 1, 4, false, [⟨"BUSY", 0, 32, .ro, false, .no, .any⟩]⟩,
  ⟨"WB_ANT", 0x108, 1, 4, false, [⟨"MODE", 0, 2, .rw, true, .no, .rng 0 2⟩, ⟨"SEL", 4, 3, .rw, true, .no, .rng 1 4⟩]⟩,
  ⟨"WB_FE_CFG", 0x10C, 1, 4, false, [⟨"HEADROOM", 0, 5, .rw, true, .no, .rng 12 30⟩, ⟨"MANUAL", 5, 1, .rw, true, .no, .any⟩, ⟨"DECAY", 8, 8, .rw, true, .no, .rng 1 255⟩, ⟨"DEFER", 16, 8, .rw, true, .no, .rng 0 50⟩, ⟨"CODE", 24, 5, .rw, true, .no, .rng 0 30⟩]⟩,
  ⟨"WB_FE_STAT", 0x110, 1, 4, false, [⟨"PEAK0", 0, 8, .ro, false, .no, .any⟩, ⟨"PEAK1", 8, 8, .ro, false, .no, .any⟩]⟩,
  ⟨"WB_FE_CNT", 0x114, 1, 4, false, [⟨"DOWN", 0, 16, .ro, false, .no, .any⟩, ⟨"UP", 16, 16, .ro, false, .no, .any⟩]⟩,
  ⟨"WB_CLIP_CNT", 0x118, 1, 4, false, [⟨"COUNT", 0, 32, .ro, false, .no, .any⟩]⟩]

def tWb_1 : List RegSpec := [
  ⟨"WB_DAGC", 0x11C, 1, 4, false, [⟨"TARGET", 0, 5, .rw, true, .no, .rng 6 24⟩]⟩,
  ⟨"WB_RESTART", 0x120, 1, 4, false, [⟨"MARGIN", 0, 5, .rw, true, .no, .rng 3 20⟩, ⟨"EN", 8, 1, .rw, true, .no, .any⟩]⟩,
  ⟨"WB_REPLAY_CFG", 0x124, 1, 4, false, [⟨"ON_FCS", 0, 1, .rw, true, .no, .any⟩]⟩,
  ⟨"WB_DELIVER", 0x128, 1, 4, false, [⟨"MASK", 0, 10, .rw, true, .no, .any⟩]⟩,
  ⟨"WB_REC_TMO", 0x12C, 1, 4, false, [⟨"MS", 0, 8, .rw, true, .no, .rng 1 200⟩]⟩,
  ⟨"WB_FSK_SFD", 0x130, 1, 4, false, [⟨"WAIT", 0, 8, .rw, true, .no, .rng 4 255⟩]⟩,
  ⟨"WB_OFDM_HDR", 0x134, 1, 4, false, [⟨"US", 0, 12, .rw, true, .no, .rng 600 4000⟩]⟩,
  ⟨"WB_DET_THR", 0x140, 9, 4, false, [⟨"THR", 0, 8, .rw, true, .no, .rng 64 240⟩, ⟨"FLOOR", 16, 8, .rw, true, .no, .srng (-128) (-40)⟩]⟩]

def tWb_2 : List RegSpec := [
  ⟨"WB_CHAN", 0x180, 32, 4, false, [⟨"EN", 0, 1, .rw, true, .yes, .any⟩, ⟨"GROUP", 1, 2, .rw, true, .yes, .any⟩, ⟨"FIRST", 4, 6, .rw, true, .yes, .any⟩, ⟨"FINE", 10, 8, .rw, true, .yes, .srng (-100) 100⟩, ⟨"TYPES", 18, 9, .rw, true, .yes, .any⟩, ⟨"LIMIT", 27, 5, .rw, true, .yes, .any⟩]⟩,
  ⟨"WB_DET_CNT", 0x200, 1, 4, false, [⟨"COUNT", 0, 32, .ro, false, .no, .any⟩]⟩,
  ⟨"WB_DROP_NOCTX", 0x204, 1, 4, false, [⟨"COUNT", 0, 32, .ro, false, .no, .any⟩]⟩,
  ⟨"WB_DROP_LIMIT", 0x208, 1, 4, false, [⟨"COUNT", 0, 32, .ro, false, .no, .any⟩]⟩,
  ⟨"WB_DROP_BUSY", 0x20C, 1, 4, false, [⟨"COUNT", 0, 32, .ro, false, .no, .any⟩]⟩,
  ⟨"WB_FALSE", 0x210, 1, 4, false, [⟨"COUNT", 0, 32, .ro, false, .no, .any⟩]⟩,
  ⟨"WB_RESTART_CNT", 0x214, 1, 4, false, [⟨"COUNT", 0, 32, .ro, false, .no, .any⟩]⟩,
  ⟨"WB_STALE_CNT", 0x218, 1, 4, false, [⟨"COUNT", 0, 32, .ro, false, .no, .any⟩]⟩]

def tWb_3 : List RegSpec := [
  ⟨"WB_CTX_KEY_LATE", 0x21C, 1, 4, false, [⟨"COUNT", 0, 32, .ro, false, .no, .any⟩]⟩,
  ⟨"WB_REC_DROP", 0x220, 1, 4, false, [⟨"COUNT", 0, 32, .ro, false, .no, .any⟩]⟩,
  ⟨"WB_ENDED", 0x224, 1, 4, false, [⟨"COUNT", 0, 32, .ro, false, .no, .any⟩]⟩,
  ⟨"WB_ANT1_SEL", 0x228, 1, 4, false, [⟨"COUNT", 0, 32, .ro, false, .no, .any⟩]⟩,
  ⟨"WB_MARK_LAST", 0x22C, 1, 4, false, [⟨"ID", 0, 16, .ro, false, .no, .any⟩]⟩,
  ⟨"WB_CAP_CFG", 0x240, 1, 4, false, [⟨"ANT", 0, 2, .rw, true, .no, .rng 1 3⟩]⟩,
  ⟨"WB_CAP_STAT", 0x244, 1, 4, false, [⟨"BUSY", 0, 1, .ro, false, .no, .any⟩, ⟨"MISSED", 8, 8, .ro, false, .no, .any⟩, ⟨"LEN", 16, 11, .ro, false, .no, .any⟩]⟩,
  ⟨"WB_SLOT_PWR", 0x300, 64, 4, false, [⟨"ANT0", 0, 16, .ro, false, .no, .any⟩, ⟨"ANT1", 16, 16, .ro, false, .no, .any⟩]⟩]

def tWb : List RegSpec := tWb_0 ++ tWb_1 ++ tWb_2 ++ tWb_3

def tPhy_0 : List RegSpec := [
  ⟨"PHY_EVT", 0x40, 1, 4, false, [⟨"MAP_FAIL", 0, 1, .w1c, false, .no, .any⟩, ⟨"SNR_LOST", 1, 1, .w1c, false, .no, .any⟩, ⟨"SNR_READY", 2, 1, .w1c, false, .no, .any⟩]⟩,
  ⟨"PHY_MCS_EN", 0x100, 1, 4, false, [⟨"OPT1", 0, 7, .rw, true, .yes, .mask 0x0F⟩, ⟨"OPT2", 8, 7, .rw, true, .yes, .mask 0x3F⟩, ⟨"OPT3", 16, 7, .rw, true, .yes, .mask 0x7E⟩, ⟨"OPT4", 24, 7, .rw, true, .yes, .any⟩]⟩,
  ⟨"PHY_FSK_CFG", 0x104, 1, 4, false, [⟨"H50", 0, 1, .rw, true, .yes, .any⟩, ⟨"H100", 1, 1, .rw, true, .yes, .any⟩, ⟨"TX_PREAMBLE", 4, 8, .rw, true, .no, .rng 4 255⟩, ⟨"TX_WHITEN", 12, 1, .rw, true, .no, .any⟩, ⟨"TX_FCS4", 13, 1, .rw, true, .no, .any⟩]⟩,
  ⟨"PHY_CRUMB_CFG", 0x108, 1, 4, false, [⟨"EN", 0, 1, .rw, true, .yes, .any⟩, ⟨"RATE", 1, 2, .rw, true, .no, .rng 0 2⟩, ⟨"MARGIN", 4, 6, .rw, true, .no, .rng 0 40⟩, ⟨"REPORT", 16, 1, .rw, true, .no, .any⟩, ⟨"REPORT_STD", 17, 1, .rw, true, .no, .any⟩]⟩,
  ⟨"PHY_CRUMB_THR", 0x10C, 1, 4, false, [⟨"T1", 0, 8, .rw, true, .no, .any⟩, ⟨"T2", 8, 8, .rw, true, .no, .any⟩, ⟨"T3", 16, 8, .rw, true, .no, .any⟩, ⟨"T4", 24, 8, .rw, true, .no, .any⟩]⟩,
  ⟨"PHY_CRUMB_RX", 0x110, 1, 4, false, [⟨"COUNT", 0, 32, .ro, false, .no, .any⟩]⟩,
  ⟨"PHY_MAP_FAIL", 0x114, 1, 4, false, [⟨"COUNT", 0, 32, .ro, false, .no, .any⟩]⟩,
  ⟨"PHY_SNR_LOST", 0x118, 1, 4, false, [⟨"COUNT", 0, 32, .ro, false, .no, .any⟩]⟩]

def tPhy_1 : List RegSpec := [
  ⟨"PHY_POOL", 0x120, 4, 4, false, [⟨"ACTIVE", 0, 4, .ro, false, .no, .any⟩, ⟨"QUEUE", 8, 7, .ro, false, .no, .any⟩, ⟨"PEAK", 16, 7, .ro, false, .no, .any⟩]⟩,
  ⟨"PHY_SNR_POP", 0x140, 1, 4, false, [⟨"WORD0", 0, 32, .pop, false, .no, .any⟩]⟩,
  ⟨"PHY_SNR_W", 0x144, 11, 4, true, [⟨"WORD", 0, 32, .ro, false, .no, .any⟩]⟩,
  ⟨"PHY_SNR_LEVEL", 0x170, 1, 4, false, [⟨"COUNT", 0, 11, .ro, false, .no, .any⟩]⟩]

def tPhy : List RegSpec := tPhy_0 ++ tPhy_1

def tMac_0 : List RegSpec := [
  ⟨"MAC_EVT", 0x40, 1, 4, false, [⟨"WAKE_FAIL", 0, 1, .w1c, false, .no, .any⟩, ⟨"FULL_TRAIN", 1, 1, .w1c, false, .no, .any⟩, ⟨"UNREACHED", 2, 1, .w1c, false, .no, .any⟩, ⟨"REPLAY", 3, 1, .w1c, false, .no, .any⟩, ⟨"POLICY", 4, 1, .w1c, false, .no, .any⟩, ⟨"SEC_FAIL", 5, 1, .w1c, false, .no, .any⟩, ⟨"EPOCH_ADV", 6, 1, .w1c, false, .no, .any⟩, ⟨"FC_EXH", 7, 1, .w1c, false, .no, .any⟩, ⟨"ACK_LATE", 8, 1, .w1c, false, .no, .any⟩]⟩,
  ⟨"MAC_WAKE_CFG", 0x100, 1, 4, false, [⟨"BASE", 0, 12, .rw, true, .no, .rng 100 4000⟩, ⟨"GAIN", 16, 3, .rw, true, .no, .rng 1 7⟩, ⟨"DEF_PERIOD", 19, 10, .rw, true, .no, .rng 1 1000⟩]⟩,
  ⟨"MAC_TRAIN_CFG", 0x104, 1, 4, false, [⟨"RZ_GAP", 0, 12, .rw, true, .no, .rng 200 4000⟩, ⟨"ACK_WAIT", 16, 12, .rw, true, .no, .rng 500 4000⟩]⟩,
  ⟨"MAC_SEC_POLICY", 0x108, 1, 4, false, [⟨"RX_ACCEPT", 0, 8, .rw, true, .yes, .any⟩, ⟨"ALLOW_L4", 8, 1, .rw, true, .yes, .any⟩, ⟨"TX_LEVEL", 16, 3, .rw, true, .yes, .rng 1 7⟩]⟩,
  ⟨"MAC_ACK_CFG", 0x10C, 1, 4, false, [⟨"TURN", 0, 12, .rw, true, .no, .rng 300 4000⟩, ⟨"SLACK", 16, 12, .rw, true, .no, .rng 0 4000⟩]⟩,
  ⟨"MAC_ACK_TX", 0x110, 1, 4, false, [⟨"PWR", 0, 6, .rw, true, .no, .any⟩, ⟨"PRIO", 8, 4, .rw, true, .no, .any⟩]⟩,
  ⟨"MAC_PRED_SENT", 0x120, 1, 4, false, [⟨"COUNT", 0, 32, .ro, false, .no, .any⟩]⟩,
  ⟨"MAC_RETRY4", 0x124, 1, 4, false, [⟨"COUNT", 0, 32, .ro, false, .no, .any⟩]⟩]

def tMac_1 : List RegSpec := [
  ⟨"MAC_FULL_SENT", 0x128, 1, 4, false, [⟨"COUNT", 0, 32, .ro, false, .no, .any⟩]⟩,
  ⟨"MAC_UNREACHED", 0x12C, 1, 4, false, [⟨"COUNT", 0, 32, .ro, false, .no, .any⟩]⟩,
  ⟨"MAC_REPLAY_CNT", 0x130, 1, 4, false, [⟨"COUNT", 0, 32, .ro, false, .no, .any⟩]⟩,
  ⟨"MAC_POLICY_CNT", 0x134, 1, 4, false, [⟨"COUNT", 0, 32, .ro, false, .no, .any⟩]⟩,
  ⟨"MAC_SECFAIL_CNT", 0x138, 1, 4, false, [⟨"COUNT", 0, 32, .ro, false, .no, .any⟩]⟩,
  ⟨"MAC_FC_EXH_CNT", 0x13C, 1, 4, false, [⟨"COUNT", 0, 32, .ro, false, .no, .any⟩]⟩,
  ⟨"MAC_ACK_LATE_CNT", 0x140, 1, 4, false, [⟨"COUNT", 0, 32, .ro, false, .no, .any⟩]⟩]

def tMac : List RegSpec := tMac_0 ++ tMac_1

def tBcn_0 : List RegSpec := [
  ⟨"BCN_EVT", 0x40, 1, 4, false, [⟨"SENT", 0, 1, .w1c, false, .no, .any⟩, ⟨"PEER_NEW", 1, 1, .w1c, false, .no, .any⟩, ⟨"MISS", 2, 1, .w1c, false, .no, .any⟩, ⟨"ADRIFT", 3, 1, .w1c, false, .no, .any⟩, ⟨"CAND", 4, 1, .w1c, false, .no, .any⟩, ⟨"PEER_REPL", 5, 1, .w1c, false, .no, .any⟩, ⟨"PEER_EXPIRED", 6, 1, .w1c, false, .no, .any⟩]⟩,
  ⟨"BCN_CFG", 0x100, 1, 4, false, [⟨"SEC_LEVEL", 0, 2, .rw, true, .no, .any⟩, ⟨"WIN", 8, 8, .rw, true, .no, .rng 1 100⟩, ⟨"PEER_AGE", 16, 8, .rw, true, .no, .rng 2 255⟩]⟩,
  ⟨"BCN_PARENT", 0x104, 1, 4, false, [⟨"RID", 0, 14, .rw, false, .no, .any⟩, ⟨"VALID", 14, 1, .rw, false, .no, .any⟩, ⟨"ADRIFT", 15, 1, .ro, false, .no, .any⟩, ⟨"MISSES", 16, 2, .ro, false, .no, .any⟩]⟩,
  ⟨"BCN_CAND", 0x108, 1, 4, false, [⟨"RID", 0, 14, .ro, false, .no, .any⟩, ⟨"VALID", 14, 1, .ro, false, .no, .any⟩]⟩,
  ⟨"BCN_STATUS", 0x10C, 1, 4, false, [⟨"STRATUM", 0, 4, .ro, false, .no, .any⟩, ⟨"PEERS", 4, 7, .ro, false, .no, .any⟩]⟩,
  ⟨"BCN_SENT_CNT", 0x110, 1, 4, false, [⟨"COUNT", 0, 32, .ro, false, .no, .any⟩]⟩,
  ⟨"BCN_PEER_RX", 0x114, 1, 4, false, [⟨"COUNT", 0, 32, .ro, false, .no, .any⟩]⟩,
  ⟨"BCN_MISSED_CNT", 0x118, 1, 4, false, [⟨"COUNT", 0, 32, .ro, false, .no, .any⟩]⟩]

def tBcn_1 : List RegSpec := [
  ⟨"BCN_PEER_REPL", 0x11C, 1, 4, false, [⟨"COUNT", 0, 32, .ro, false, .no, .any⟩]⟩,
  ⟨"BCN_CELL", 0x200, 128, 4, false, [⟨"EN", 0, 1, .rw, true, .yes, .any⟩, ⟨"TYPE", 1, 4, .rw, true, .yes, .rng 0 8⟩, ⟨"RATE", 5, 4, .rw, true, .yes, .rng 0 14⟩, ⟨"PWR", 9, 6, .rw, true, .yes, .any⟩, ⟨"INTERVAL", 15, 17, .rw, true, .yes, .rng 1 72000⟩]⟩]

def tBcn : List RegSpec := tBcn_0 ++ tBcn_1

def tFlood_0 : List RegSpec := [
  ⟨"FLOOD_EVT", 0x40, 1, 4, false, [⟨"RELAYED", 0, 1, .w1c, false, .no, .any⟩, ⟨"SUPPRESSED", 1, 1, .w1c, false, .no, .any⟩, ⟨"DUP", 2, 1, .w1c, false, .no, .any⟩, ⟨"EVICT", 3, 1, .w1c, false, .no, .any⟩, ⟨"DIST_DONE", 4, 1, .w1c, false, .no, .any⟩, ⟨"TTL_END", 5, 1, .w1c, false, .no, .any⟩, ⟨"NORELAY", 6, 1, .w1c, false, .no, .any⟩]⟩,
  ⟨"FLOOD_CFG", 0x100, 1, 4, false, [⟨"TTL", 0, 4, .rw, true, .no, .rng 1 15⟩, ⟨"K", 4, 3, .rw, true, .no, .rng 1 7⟩, ⟨"RELAY_EN", 7, 1, .rw, true, .no, .any⟩]⟩,
  ⟨"FLOOD_DELAY", 0x104, 1, 4, false, [⟨"DMIN", 0, 16, .rw, true, .no, .any⟩, ⟨"DMAX", 16, 16, .rw, true, .no, .rng 0 10000⟩]⟩,
  ⟨"FLOOD_AGE", 0x108, 1, 4, false, [⟨"S", 0, 12, .rw, true, .no, .rng 1 3600⟩]⟩,
  ⟨"FLOOD_SEQ", 0x10C, 1, 4, false, [⟨"NEXT", 0, 16, .ro, false, .no, .any⟩]⟩,
  ⟨"FLOOD_CACHE", 0x110, 1, 4, false, [⟨"LEVEL", 0, 13, .ro, false, .no, .any⟩, ⟨"PEND", 16, 9, .ro, false, .no, .any⟩]⟩,
  ⟨"FLOOD_RX_NEW", 0x120, 1, 4, false, [⟨"COUNT", 0, 32, .ro, false, .no, .any⟩]⟩,
  ⟨"FLOOD_DUP_CNT", 0x124, 1, 4, false, [⟨"COUNT", 0, 32, .ro, false, .no, .any⟩]⟩]

def tFlood_1 : List RegSpec := [
  ⟨"FLOOD_RELAY_CNT", 0x128, 1, 4, false, [⟨"COUNT", 0, 32, .ro, false, .no, .any⟩]⟩,
  ⟨"FLOOD_SUPP_CNT", 0x12C, 1, 4, false, [⟨"COUNT", 0, 32, .ro, false, .no, .any⟩]⟩,
  ⟨"FLOOD_EVICT_CNT", 0x130, 1, 4, false, [⟨"COUNT", 0, 32, .ro, false, .no, .any⟩]⟩,
  ⟨"FLOOD_TTL_END_CNT", 0x134, 1, 4, false, [⟨"COUNT", 0, 32, .ro, false, .no, .any⟩]⟩,
  ⟨"FLOOD_NORELAY_CNT", 0x138, 1, 4, false, [⟨"COUNT", 0, 32, .ro, false, .no, .any⟩]⟩,
  ⟨"FLOOD_DIST_STAT", 0x140, 1, 4, false, [⟨"BLOCK", 0, 24, .ro, false, .no, .any⟩, ⟨"IMAGE_LO", 24, 8, .ro, false, .no, .any⟩]⟩,
  ⟨"FLOOD_CELL", 0x200, 128, 4, false, [⟨"EN", 0, 1, .rw, true, .yes, .any⟩, ⟨"TRAIN", 1, 1, .rw, true, .yes, .any⟩, ⟨"PWR", 2, 6, .rw, true, .yes, .any⟩, ⟨"TYPE", 8, 4, .rw, true, .yes, .rng 0 8⟩, ⟨"RATE", 12, 4, .rw, true, .yes, .rng 0 14⟩]⟩]

def tFlood : List RegSpec := tFlood_0 ++ tFlood_1

def tPeel_0 : List RegSpec := [
  ⟨"PEEL_EVT", 0x40, 1, 4, false, [⟨"LATE", 0, 1, .w1c, false, .no, .any⟩, ⟨"TIMEOUT", 1, 1, .w1c, false, .no, .any⟩, ⟨"STEP_DUE", 2, 1, .w1c, false, .no, .any⟩, ⟨"CREDIT_ZERO", 3, 1, .w1c, false, .no, .any⟩, ⟨"RDY_WAIT", 4, 1, .w1c, false, .no, .any⟩, ⟨"TARGET_OFF", 5, 1, .w1c, false, .no, .any⟩]⟩,
  ⟨"PEEL_CFG", 0x100, 1, 4, false, [⟨"PAST_LOG2", 0, 5, .rw, true, .no, .rng 0 24⟩, ⟨"TX_LEAD", 16, 11, .rw, true, .no, .rng 8 1024⟩]⟩,
  ⟨"PEEL_LATE_MARK", 0x104, 1, 4, false, [⟨"ST", 0, 16, .rw, true, .no, .rng 1 65535⟩]⟩,
  ⟨"PEEL_TASK_TMO", 0x108, 1, 4, false, [⟨"MS", 0, 16, .rw, true, .no, .rng 1 60000⟩]⟩,
  ⟨"PEEL_PAUSE", 0x10C, 1, 4, false, [⟨"TARGETS", 0, 10, .rw, false, .no, .any⟩, ⟨"FWU", 16, 10, .ro, false, .no, .any⟩]⟩,
  ⟨"PEEL_QUOTA", 0x110, 9, 4, false, [⟨"ITEMS", 0, 19, .rw, true, .no, .any⟩]⟩,
  ⟨"PEEL_OUTST", 0x140, 9, 4, false, [⟨"COUNT", 0, 19, .ro, false, .no, .any⟩]⟩,
  ⟨"PEEL_STORE", 0x170, 1, 4, false, [⟨"FREE", 0, 19, .ro, false, .no, .any⟩]⟩]

def tPeel_1 : List RegSpec := [
  ⟨"PEEL_LATE_CNT", 0x174, 1, 4, false, [⟨"COUNT", 0, 32, .ro, false, .no, .any⟩]⟩,
  ⟨"PEEL_TMO_CNT", 0x178, 1, 4, false, [⟨"COUNT", 0, 32, .ro, false, .no, .any⟩]⟩,
  ⟨"PEEL_STEP_DUE_CNT", 0x17C, 1, 4, false, [⟨"COUNT", 0, 32, .ro, false, .no, .any⟩]⟩,
  ⟨"PEEL_CANCEL_CNT", 0x180, 1, 4, false, [⟨"COUNT", 0, 32, .ro, false, .no, .any⟩]⟩,
  ⟨"PEEL_OFF_CNT", 0x184, 1, 4, false, [⟨"COUNT", 0, 32, .ro, false, .no, .any⟩]⟩,
  ⟨"PEEL_RDY_WAIT_CNT", 0x188, 1, 4, false, [⟨"COUNT", 0, 32, .ro, false, .no, .any⟩]⟩,
  ⟨"PEEL_FLOWS_HELD", 0x18C, 1, 4, false, [⟨"COUNT", 0, 19, .ro, false, .no, .any⟩]⟩]

def tPeel : List RegSpec := tPeel_0 ++ tPeel_1

def tPeel1_0 : List RegSpec := [
  ⟨"PEEL_POST_W", 0x1100, 16, 4, true, [⟨"WORD", 0, 32, .rw, false, .no, .any⟩]⟩,
  ⟨"PEEL_POST_GO", 0x1140, 1, 4, true, [⟨"GO", 0, 1, .wo, false, .no, .any⟩]⟩,
  ⟨"PEEL_POST_RES", 0x1144, 1, 4, true, [⟨"CODE", 0, 8, .ro, false, .no, .any⟩, ⟨"ID", 8, 19, .ro, false, .no, .any⟩]⟩,
  ⟨"PEEL_CREDIT", 0x1148, 1, 4, true, [⟨"COUNT", 0, 19, .ro, false, .no, .any⟩]⟩,
  ⟨"PEEL_DONE_POP", 0x1150, 1, 4, true, [⟨"ID", 0, 19, .pop, false, .no, .any⟩, ⟨"RESULT", 19, 8, .pop, false, .no, .any⟩, ⟨"TYPE", 27, 2, .pop, false, .no, .any⟩, ⟨"VALID", 31, 1, .pop, false, .no, .any⟩]⟩,
  ⟨"PEEL_DONE_W1", 0x1154, 1, 4, true, [⟨"TAG", 0, 8, .ro, false, .no, .any⟩]⟩,
  ⟨"PEEL_DONE_STAMP_LO", 0x1158, 1, 4, true, [⟨"STAMP", 0, 32, .ro, false, .no, .any⟩]⟩,
  ⟨"PEEL_DONE_STAMP_HI", 0x115C, 1, 4, true, [⟨"STAMP", 0, 32, .ro, false, .no, .any⟩]⟩]

def tPeel1_1 : List RegSpec := [
  ⟨"PEEL_DONE_COOKIE", 0x1160, 4, 4, true, [⟨"WORD", 0, 32, .ro, false, .no, .any⟩]⟩,
  ⟨"PEEL_DONE_LEVEL", 0x1170, 1, 4, true, [⟨"COUNT", 0, 19, .ro, false, .no, .any⟩]⟩,
  ⟨"PEEL_CORE_POP", 0x1180, 1, 4, true, [⟨"ID", 0, 19, .pop, false, .no, .any⟩, ⟨"VALID", 31, 1, .pop, false, .no, .any⟩]⟩,
  ⟨"PEEL_CORE_R", 0x1184, 16, 4, true, [⟨"WORD", 0, 32, .ro, false, .no, .any⟩]⟩,
  ⟨"PEEL_FINISH", 0x11D0, 1, 4, true, [⟨"ID", 0, 19, .wo, false, .no, .any⟩, ⟨"RESULT", 19, 8, .wo, false, .no, .rng 0 13⟩]⟩,
  ⟨"PEEL_FINISH_RES", 0x11D4, 1, 4, true, [⟨"CODE", 0, 8, .ro, false, .no, .any⟩]⟩]

def tPeel1 : List RegSpec := tPeel1_0 ++ tPeel1_1

def tPeelList : List RegSpec := [
  ⟨"PEEL_LIST_RDY", 0x0, 1, 4, false, [⟨"COUNT", 0, 13, .ro, false, .no, .any⟩, ⟨"CAP", 16, 13, .ro, false, .no, .any⟩]⟩,
  ⟨"PEEL_LIST_DLY", 0x4, 1, 4, false, [⟨"COUNT", 0, 19, .ro, false, .no, .any⟩]⟩,
  ⟨"PEEL_LIST_NEXT", 0x8, 1, 4, false, [⟨"ST", 0, 32, .ro, false, .no, .any⟩]⟩,
  ⟨"PEEL_LIST_TAKEN", 0xC, 1, 4, false, [⟨"COUNT", 0, 32, .ro, false, .no, .any⟩]⟩]

def tDir_0 : List RegSpec := [
  ⟨"DIR_EVT", 0x40, 1, 4, false, [⟨"FULL", 0, 1, .w1c, false, .no, .any⟩, ⟨"LOCK", 1, 1, .w1c, false, .no, .any⟩, ⟨"RELOC", 2, 1, .w1c, false, .no, .any⟩, ⟨"FLOW_TMO", 3, 1, .w1c, false, .no, .any⟩]⟩,
  ⟨"DIR_CFG", 0x100, 1, 4, false, [⟨"FLOW_WAIT", 0, 7, .rw, true, .no, .rng 1 120⟩]⟩,
  ⟨"DIR_NODES", 0x104, 1, 4, false, [⟨"COUNT", 0, 19, .ro, false, .no, .any⟩]⟩,
  ⟨"DIR_RETRY_CNT", 0x108, 1, 4, false, [⟨"COUNT", 0, 32, .ro, false, .no, .any⟩]⟩,
  ⟨"DIR_LOCK_CNT", 0x10C, 1, 4, false, [⟨"COUNT", 0, 32, .ro, false, .no, .any⟩]⟩,
  ⟨"DIR_RELOC_CNT", 0x110, 1, 4, false, [⟨"COUNT", 0, 32, .ro, false, .no, .any⟩]⟩,
  ⟨"DIR_CACHE_HIT", 0x114, 1, 4, false, [⟨"COUNT", 0, 32, .ro, false, .no, .any⟩]⟩,
  ⟨"DIR_CACHE_MISS", 0x118, 1, 4, false, [⟨"COUNT", 0, 32, .ro, false, .no, .any⟩]⟩]

def tDir_1 : List RegSpec := [
  ⟨"DIR_ENT", 0x200, 12, 4, false, [⟨"WORD", 0, 32, .rw, false, .no, .any⟩]⟩,
  ⟨"DIR_RENT", 0x240, 12, 4, false, [⟨"WORD", 0, 32, .ro, false, .no, .any⟩]⟩]

def tDir : List RegSpec := tDir_0 ++ tDir_1

def tSieve_0 : List RegSpec := [
  ⟨"SIEVE_EVT", 0x40, 1, 4, false, [⟨"PIN", 0, 1, .w1c, false, .no, .any⟩, ⟨"LEARN_FULL", 1, 1, .w1c, false, .no, .any⟩, ⟨"LFIFO_LOST", 2, 1, .w1c, false, .no, .any⟩, ⟨"MOVE", 3, 1, .w1c, false, .no, .any⟩]⟩,
  ⟨"SIEVE_L2_CFG", 0x100, 1, 4, false, [⟨"LEARN", 0, 1, .rw, true, .no, .any⟩, ⟨"PIN_DROP", 1, 1, .rw, true, .no, .any⟩, ⟨"AGE", 4, 12, .rw, true, .no, .offOr 10 4095⟩, ⟨"MOVE_MAX", 16, 4, .rw, true, .no, .rng 2 15⟩, ⟨"MOVE_WIN", 20, 8, .rw, true, .no, .rng 1 255⟩]⟩,
  ⟨"SIEVE_PIN_HOLD", 0x104, 1, 4, false, [⟨"S", 0, 16, .rw, true, .no, .any⟩]⟩,
  ⟨"SIEVE_FLOOD", 0x110, 10, 4, false, [⟨"PORTS", 0, 11, .rw, true, .yes, .any⟩]⟩,
  ⟨"SIEVE_LEARN_CNT", 0x140, 1, 4, false, [⟨"COUNT", 0, 32, .ro, false, .no, .any⟩]⟩,
  ⟨"SIEVE_MOVE_CNT", 0x144, 1, 4, false, [⟨"COUNT", 0, 32, .ro, false, .no, .any⟩]⟩,
  ⟨"SIEVE_PIN_CNT", 0x148, 1, 4, false, [⟨"COUNT", 0, 32, .ro, false, .no, .any⟩]⟩,
  ⟨"SIEVE_LEARN_FULL", 0x14C, 1, 4, false, [⟨"COUNT", 0, 32, .ro, false, .no, .any⟩]⟩]

def tSieve_1 : List RegSpec := [
  ⟨"SIEVE_FLOOD_CNT", 0x150, 1, 4, false, [⟨"COUNT", 0, 32, .ro, false, .no, .any⟩]⟩,
  ⟨"SIEVE_ENTRIES", 0x154, 1, 4, false, [⟨"COUNT", 0, 17, .ro, false, .no, .any⟩]⟩,
  ⟨"SIEVE_LFIFO_LOST", 0x158, 1, 4, false, [⟨"COUNT", 0, 32, .ro, false, .no, .any⟩]⟩,
  ⟨"SIEVE_LFIFO_POP", 0x160, 1, 4, false, [⟨"MAC", 0, 32, .pop, false, .no, .any⟩]⟩,
  ⟨"SIEVE_LFIFO_W1", 0x164, 1, 4, true, [⟨"MAC", 0, 16, .ro, false, .no, .any⟩, ⟨"FID", 16, 12, .ro, false, .no, .any⟩, ⟨"PORT", 28, 4, .ro, false, .no, .any⟩]⟩,
  ⟨"SIEVE_LFIFO_W2", 0x168, 1, 4, true, [⟨"KIND", 0, 2, .ro, false, .no, .any⟩, ⟨"OLD_PORT", 4, 4, .ro, false, .no, .any⟩, ⟨"VALID", 31, 1, .ro, false, .no, .any⟩]⟩,
  ⟨"SIEVE_ENT", 0x200, 4, 4, false, [⟨"WORD", 0, 32, .rw, false, .no, .any⟩]⟩,
  ⟨"SIEVE_RENT", 0x240, 4, 4, false, [⟨"WORD", 0, 32, .ro, false, .no, .any⟩]⟩]

def tSieve : List RegSpec := tSieve_0 ++ tSieve_1

def tSieveP_0 : List RegSpec := [
  ⟨"SIEVEP_EVT", 0x40, 1, 4, false, [⟨"NOHOP", 0, 1, .w1c, false, .no, .any⟩, ⟨"FULL", 1, 1, .w1c, false, .no, .any⟩]⟩,
  ⟨"SIEVEP_CFG", 0x100, 1, 4, false, [⟨"EN", 0, 1, .rw, true, .yes, .any⟩, ⟨"MISS_HOST", 1, 1, .rw, true, .yes, .any⟩, ⟨"SPARE", 8, 4, .rw, true, .no, .any⟩]⟩,
  ⟨"SIEVEP_RMAC_LO", 0x104, 1, 4, false, [⟨"MAC", 0, 32, .rw, true, .yes, .any⟩]⟩,
  ⟨"SIEVEP_RMAC_HI", 0x108, 1, 4, false, [⟨"MAC", 0, 16, .rw, true, .yes, .any⟩]⟩,
  ⟨"SIEVEP_COUNT", 0x10C, 1, 4, false, [⟨"ENTRIES", 0, 15, .ro, false, .no, .any⟩]⟩,
  ⟨"SIEVEP_MISS_CNT", 0x110, 1, 4, false, [⟨"COUNT", 0, 32, .ro, false, .no, .any⟩]⟩,
  ⟨"SIEVEP_HOST_CNT", 0x114, 1, 4, false, [⟨"COUNT", 0, 32, .ro, false, .no, .any⟩]⟩,
  ⟨"SIEVEP_SHIFT_CNT", 0x118, 1, 4, false, [⟨"COUNT", 0, 32, .ro, false, .no, .any⟩]⟩]

def tSieveP_1 : List RegSpec := [
  ⟨"SIEVEP_KEY", 0x200, 4, 4, false, [⟨"WORD", 0, 32, .rw, false, .no, .any⟩]⟩,
  ⟨"SIEVEP_NH_LO", 0x800, 256, 8, false, [⟨"MAC", 0, 32, .rw, true, .no, .any⟩]⟩,
  ⟨"SIEVEP_NH_HI", 0x804, 256, 8, false, [⟨"MAC", 0, 16, .rw, true, .no, .any⟩, ⟨"FID", 16, 12, .rw, true, .no, .any⟩, ⟨"PORT", 28, 4, .rw, true, .no, .nhPort⟩]⟩]

def tSieveP : List RegSpec := tSieveP_0 ++ tSieveP_1

def tPort_0 : List RegSpec := [
  ⟨"PORT_EVT", 0x40, 1, 4, false, [⟨"LINK_DOWN", 0, 1, .w1c, false, .no, .any⟩, ⟨"LINK_UP", 1, 1, .w1c, false, .no, .any⟩, ⟨"RIDE", 2, 1, .w1c, false, .no, .any⟩, ⟨"DEGRADE", 3, 1, .w1c, false, .no, .any⟩, ⟨"DEGRADE_CLR", 4, 1, .w1c, false, .no, .any⟩, ⟨"TSTX_LOST", 5, 1, .w1c, false, .no, .any⟩, ⟨"TOOLONG", 6, 1, .w1c, false, .no, .any⟩, ⟨"UNDERRUN", 7, 1, .w1c, false, .no, .any⟩]⟩,
  ⟨"PORT_MODE", 0x100, 1, 4, false, [⟨"EN", 0, 1, .rw, true, .no, .any⟩, ⟨"MODE", 4, 4, .rw, true, .no, .any⟩]⟩,
  ⟨"PORT_LANE", 0x104, 1, 4, false, [⟨"MAP", 0, 8, .rw, true, .no, .any⟩, ⟨"RX_INV", 8, 4, .rw, true, .no, .any⟩, ⟨"TX_INV", 12, 4, .rw, true, .no, .any⟩]⟩,
  ⟨"PORT_MTU", 0x108, 1, 4, false, [⟨"OCTETS", 0, 14, .rw, true, .yes, .rng 64 9216⟩]⟩,
  ⟨"PORT_LINK", 0x10C, 1, 4, false, [⟨"UP", 0, 1, .ro, false, .no, .any⟩, ⟨"CAUSE", 1, 3, .ro, false, .no, .any⟩, ⟨"SIG", 4, 1, .ro, false, .no, .any⟩, ⟨"LOCK", 5, 1, .ro, false, .no, .any⟩, ⟨"DEGRADE", 6, 1, .ro, false, .no, .any⟩, ⟨"HOLDOFF", 7, 1, .ro, false, .no, .any⟩, ⟨"HOLDUP", 8, 1, .ro, false, .no, .any⟩, ⟨"FORCED", 9, 1, .ro, false, .no, .any⟩, ⟨"DOWNS", 16, 16, .ro, false, .no, .any⟩]⟩,
  ⟨"PORT_LF_CFG", 0x110, 1, 4, false, [⟨"HOLDOFF", 0, 7, .rw, true, .no, .rng 0 100⟩, ⟨"HOLDUP", 8, 8, .rw, true, .no, .any⟩, ⟨"TX_RF", 16, 1, .rw, true, .no, .any⟩, ⟨"BLOCK_TX", 17, 1, .rw, true, .no, .any⟩]⟩,
  ⟨"PORT_DEGRADE", 0x114, 1, 4, false, [⟨"THRESH", 0, 24, .rw, true, .no, .any⟩, ⟨"INTERVAL", 24, 8, .rw, true, .no, .rng 1 255⟩]⟩,
  ⟨"PORT_TS_CFG", 0x118, 1, 4, false, [⟨"PLANE", 0, 1, .rw, true, .no, .any⟩]⟩]

def tPort_1 : List RegSpec := [
  ⟨"PORT_TS_ADJ", 0x11C, 1, 4, false, [⟨"RX", 0, 16, .rw, true, .no, .any⟩, ⟨"TX", 16, 16, .rw, true, .no, .any⟩]⟩,
  ⟨"PORT_PTP", 0x120, 1, 4, false, [⟨"ETH", 0, 1, .rw, true, .yes, .any⟩, ⟨"UDP6", 1, 1, .rw, true, .yes, .any⟩, ⟨"UDP4", 2, 1, .rw, true, .yes, .any⟩, ⟨"POLICY", 4, 2, .rw, true, .yes, .rng 0 1⟩, ⟨"ONE_STEP", 6, 1, .rw, true, .yes, .any⟩]⟩,
  ⟨"PORT_TSTX_POP", 0x130, 1, 4, false, [⟨"NS", 0, 32, .pop, false, .no, .any⟩]⟩,
  ⟨"PORT_TSTX_HI", 0x134, 1, 4, true, [⟨"STAMP", 0, 32, .ro, false, .no, .any⟩]⟩,
  ⟨"PORT_TSTX_TAG", 0x138, 1, 4, true, [⟨"TAG", 0, 16, .ro, false, .no, .any⟩, ⟨"ONESTEP_REFUSED", 16, 1, .ro, false, .no, .any⟩, ⟨"VALID", 31, 1, .ro, false, .no, .any⟩]⟩,
  ⟨"PORT_TSTX_LOST", 0x13C, 1, 4, false, [⟨"COUNT", 0, 32, .ro, false, .no, .any⟩]⟩,
  ⟨"PORT_DROP_ADMIT", 0x150, 1, 4, false, [⟨"COUNT", 0, 32, .ro, false, .no, .any⟩]⟩,
  ⟨"PORT_DROP_TRUNC", 0x154, 1, 4, false, [⟨"COUNT", 0, 32, .ro, false, .no, .any⟩]⟩]

def tPort_2 : List RegSpec := [
  ⟨"PORT_DROP_SWAIT", 0x158, 1, 4, false, [⟨"COUNT", 0, 32, .ro, false, .no, .any⟩]⟩,
  ⟨"PORT_DROP_POWER", 0x15C, 1, 4, false, [⟨"COUNT", 0, 32, .ro, false, .no, .any⟩]⟩,
  ⟨"PORT_DROP_LINKDOWN", 0x160, 1, 4, false, [⟨"COUNT", 0, 32, .ro, false, .no, .any⟩]⟩,
  ⟨"PORT_DROP_TOOLONG", 0x164, 1, 4, false, [⟨"COUNT", 0, 32, .ro, false, .no, .any⟩]⟩,
  ⟨"PORT_DROP_UNDERRUN", 0x168, 1, 4, false, [⟨"COUNT", 0, 32, .ro, false, .no, .any⟩]⟩,
  ⟨"PORT_DROP_PAUSE", 0x16C, 1, 4, false, [⟨"COUNT", 0, 32, .ro, false, .no, .any⟩]⟩]

def tPort : List RegSpec := tPort_0 ++ tPort_1 ++ tPort_2

def tCrust_0 : List RegSpec := [
  ⟨"CRUST_EVT", 0x40, 1, 4, false, [⟨"PN_THR", 0, 1, .w1c, false, .no, .any⟩, ⟨"EXHAUSTED", 1, 1, .w1c, false, .no, .any⟩, ⟨"INSTALL_FAIL", 2, 1, .w1c, false, .no, .any⟩]⟩,
  ⟨"CRUST_PN_THR32", 0x100, 1, 4, false, [⟨"THRESH", 0, 32, .rw, true, .no, .rng 1 4294967295⟩]⟩,
  ⟨"CRUST_PN_THR64_LO", 0x104, 1, 4, false, [⟨"THRESH", 0, 32, .rw, true, .no, .any⟩]⟩,
  ⟨"CRUST_PN_THR64_HI", 0x108, 1, 4, false, [⟨"THRESH", 0, 32, .rw, true, .no, .any⟩]⟩,
  ⟨"CRUST_SA_INSTALLED", 0x10C, 1, 4, false, [⟨"COUNT", 0, 15, .ro, false, .no, .any⟩]⟩,
  ⟨"CRUST_THR_LAST", 0x110, 1, 4, false, [⟨"SA", 0, 14, .ro, false, .no, .any⟩]⟩,
  ⟨"CRUST_EXH_LAST", 0x114, 1, 4, false, [⟨"SA", 0, 14, .ro, false, .no, .any⟩]⟩,
  ⟨"CRUST_SA_ST", 0x200, 11, 4, false, [⟨"WORD", 0, 32, .rw, false, .no, .any⟩]⟩]

def tCrust_1 : List RegSpec := [
  ⟨"CRUST_SA_RD", 0x240, 20, 4, false, [⟨"WORD", 0, 32, .ro, false, .no, .any⟩]⟩]

def tCrust : List RegSpec := tCrust_0 ++ tCrust_1

def tCrustX : List RegSpec := [
  ⟨"CRUSTX_EVT", 0x40, 1, 4, false, [⟨"TX_SWITCHED", 0, 1, .w1c, false, .no, .any⟩, ⟨"AUTO_SWITCH", 1, 1, .w1c, false, .no, .any⟩, ⟨"ICV_FAIL", 2, 1, .w1c, false, .no, .any⟩, ⟨"LATE", 3, 1, .w1c, false, .no, .any⟩, ⟨"UNKNOWN_SCI", 4, 1, .w1c, false, .no, .any⟩, ⟨"NOT_USING_SA", 5, 1, .w1c, false, .no, .any⟩, ⟨"TX_NOSA", 6, 1, .w1c, false, .no, .any⟩, ⟨"OVERSIZE", 7, 1, .w1c, false, .no, .any⟩]⟩]

def tCrustK_0 : List RegSpec := [
  ⟨"CRUSTX_CTL", 0x0, 1, 4, false, [⟨"RX_EN", 0, 1, .rw, true, .rx, .any⟩, ⟨"VALIDATE", 1, 1, .rw, true, .rx, .any⟩, ⟨"RX_OFFSET", 2, 2, .rw, true, .rx, .rng 0 2⟩, ⟨"HOST_BAD", 4, 1, .rw, true, .rx, .any⟩, ⟨"TX_EN", 8, 1, .rw, true, .yes, .any⟩, ⟨"ENCRYPT", 9, 1, .rw, true, .yes, .any⟩, ⟨"INCLUDE_SCI", 10, 1, .rw, true, .yes, .any⟩, ⟨"TX_OFFSET", 12, 2, .rw, true, .yes, .rng 0 2⟩, ⟨"AUTO", 16, 1, .rw, true, .no, .any⟩]⟩,
  ⟨"CRUSTX_REPLAY", 0x4, 1, 4, false, [⟨"WINDOW", 0, 31, .rw, true, .rx, .rng 0 1073741824⟩, ⟨"RP", 31, 1, .rw, true, .rx, .any⟩]⟩,
  ⟨"CRUSTX_IMPL", 0x8, 1, 4, false, [⟨"SC", 0, 12, .rw, true, .rx, .any⟩, ⟨"VALID", 12, 1, .rw, true, .rx, .any⟩]⟩,
  ⟨"CRUSTX_TXSA", 0xC, 1, 4, false, [⟨"CUR", 0, 14, .ro, false, .no, .any⟩, ⟨"CUR_V", 14, 1, .ro, false, .no, .any⟩, ⟨"EXH", 15, 1, .ro, false, .no, .any⟩, ⟨"NEXT", 16, 14, .ro, false, .no, .any⟩, ⟨"NEXT_V", 30, 1, .ro, false, .no, .any⟩]⟩,
  ⟨"CRUSTX_SWITCHES", 0x10, 1, 4, false, [⟨"COUNT", 0, 32, .ro, false, .no, .any⟩]⟩,
  ⟨"CRUSTX_UNTAGGED", 0x14, 1, 4, false, [⟨"COUNT", 0, 32, .ro, false, .no, .any⟩]⟩,
  ⟨"CRUSTX_CHECKED", 0x18, 1, 4, false, [⟨"COUNT", 0, 32, .ro, false, .no, .any⟩]⟩,
  ⟨"CRUSTX_BADTAG", 0x1C, 1, 4, false, [⟨"COUNT", 0, 32, .ro, false, .no, .any⟩]⟩]

def tCrustK_1 : List RegSpec := [
  ⟨"CRUSTX_UNKNOWN_SCI", 0x20, 1, 4, false, [⟨"COUNT", 0, 32, .ro, false, .no, .any⟩]⟩,
  ⟨"CRUSTX_NOT_USING_SA", 0x24, 1, 4, false, [⟨"COUNT", 0, 32, .ro, false, .no, .any⟩]⟩,
  ⟨"CRUSTX_LATE", 0x28, 1, 4, false, [⟨"COUNT", 0, 32, .ro, false, .no, .any⟩]⟩,
  ⟨"CRUSTX_ICV", 0x2C, 1, 4, false, [⟨"COUNT", 0, 32, .ro, false, .no, .any⟩]⟩,
  ⟨"CRUSTX_HOST_AUTHFAIL", 0x30, 1, 4, false, [⟨"COUNT", 0, 32, .ro, false, .no, .any⟩]⟩,
  ⟨"CRUSTX_TX_NOSA", 0x34, 1, 4, false, [⟨"COUNT", 0, 32, .ro, false, .no, .any⟩]⟩,
  ⟨"CRUSTX_OVERSIZE", 0x38, 1, 4, false, [⟨"COUNT", 0, 32, .ro, false, .no, .any⟩]⟩]

def tCrustK : List RegSpec := tCrustK_0 ++ tCrustK_1

def tRack_0 : List RegSpec := [
  ⟨"RACK_EVT", 0x40, 1, 4, false, [⟨"WM0_WM7", 0, 8, .w1c, false, .no, .any⟩, ⟨"CENSUS_BAD", 8, 1, .w1c, false, .no, .any⟩, ⟨"RECLAIM_DONE", 9, 1, .w1c, false, .no, .any⟩, ⟨"REVOKED", 10, 1, .w1c, false, .no, .any⟩, ⟨"QUAR", 11, 1, .w1c, false, .no, .any⟩, ⟨"NOCELL", 12, 1, .w1c, false, .no, .any⟩, ⟨"DROPREC_LOST", 13, 1, .w1c, false, .no, .any⟩, ⟨"TRACE_LOST", 14, 1, .w1c, false, .no, .any⟩]⟩,
  ⟨"RACK_CELLS", 0x100, 1, 4, false, [⟨"FREE", 0, 18, .ro, false, .no, .any⟩]⟩,
  ⟨"RACK_ALLOC", 0x104, 1, 4, false, [⟨"COUNT", 0, 18, .ro, false, .no, .any⟩]⟩,
  ⟨"RACK_FLIGHT", 0x108, 1, 4, false, [⟨"COUNT", 0, 18, .ro, false, .no, .any⟩]⟩,
  ⟨"RACK_QUAR", 0x10C, 1, 4, false, [⟨"COUNT", 0, 18, .ro, false, .no, .any⟩]⟩,
  ⟨"RACK_RECLAIMED", 0x110, 1, 4, false, [⟨"COUNT", 0, 32, .ro, false, .no, .any⟩]⟩,
  ⟨"RACK_RECLAIM_POWER", 0x114, 1, 4, false, [⟨"COUNT", 0, 32, .ro, false, .no, .any⟩]⟩,
  ⟨"RACK_SINK_FREED", 0x118, 1, 4, false, [⟨"COUNT", 0, 32, .ro, false, .no, .any⟩]⟩]

def tRack_1 : List RegSpec := [
  ⟨"RACK_ECC", 0x11C, 1, 4, false, [⟨"CORR", 0, 16, .ro, false, .no, .any⟩, ⟨"UNCORR", 16, 16, .ro, false, .no, .any⟩]⟩,
  ⟨"RACK_LEASE", 0x120, 1, 4, false, [⟨"MS", 0, 16, .rw, true, .no, .offOr 1 60000⟩]⟩,
  ⟨"RACK_REVOKED", 0x124, 1, 4, false, [⟨"COUNT", 0, 32, .ro, false, .no, .any⟩]⟩,
  ⟨"RACK_REVOKE_LAST", 0x128, 1, 4, false, [⟨"Q", 0, 6, .ro, false, .no, .any⟩]⟩,
  ⟨"RACK_DROPREC_EN", 0x12C, 1, 4, false, [⟨"CAUSES", 0, 32, .rw, true, .no, .any⟩]⟩,
  ⟨"RACK_TRACE_EN", 0x130, 1, 4, false, [⟨"BLOCKS", 0, 25, .rw, true, .no, .any⟩]⟩,
  ⟨"RACK_POOL_CFG", 0x140, 8, 4, false, [⟨"RESERVE", 0, 14, .rw, true, .yes, .rng 0 8192⟩, ⟨"LIMIT", 16, 14, .rw, true, .yes, .rng 1 8192⟩]⟩,
  ⟨"RACK_POOL_LVL", 0x160, 8, 4, false, [⟨"LEVEL", 0, 18, .ro, false, .no, .any⟩]⟩]

def tRack_2 : List RegSpec := [
  ⟨"RACK_POOL_WM", 0x180, 8, 4, false, [⟨"MARK", 0, 14, .rw, true, .no, .rng 1 8192⟩, ⟨"HYST", 16, 6, .rw, true, .no, .rng 1 63⟩]⟩,
  ⟨"RACK_POOL_NOCELL", 0x1A0, 8, 4, false, [⟨"COUNT", 0, 32, .ro, false, .no, .any⟩]⟩,
  ⟨"RACK_DROPREC_POP", 0x200, 1, 4, false, [⟨"WORD0", 0, 32, .pop, false, .no, .any⟩]⟩,
  ⟨"RACK_DROPREC_W", 0x204, 3, 4, true, [⟨"WORD", 0, 32, .ro, false, .no, .any⟩]⟩,
  ⟨"RACK_DROPREC_LOST", 0x210, 1, 4, false, [⟨"COUNT", 0, 32, .ro, false, .no, .any⟩]⟩,
  ⟨"RACK_TRACE_POP", 0x220, 1, 4, false, [⟨"NS", 0, 32, .pop, false, .no, .any⟩]⟩,
  ⟨"RACK_TRACE_W1", 0x224, 1, 4, true, [⟨"TYPE", 0, 16, .ro, false, .no, .any⟩, ⟨"INST", 16, 8, .ro, false, .no, .any⟩, ⟨"BIT", 24, 5, .ro, false, .no, .any⟩, ⟨"VALID", 31, 1, .ro, false, .no, .any⟩]⟩,
  ⟨"RACK_TRACE_LOST", 0x228, 1, 4, false, [⟨"COUNT", 0, 32, .ro, false, .no, .any⟩]⟩]

def tRack_3 : List RegSpec := [
  ⟨"RACK_LINK_SENT_LO", 0x240, 1, 4, false, [⟨"COUNT", 0, 32, .ro, false, .no, .any⟩]⟩,
  ⟨"RACK_LINK_SENT_HI", 0x244, 1, 4, false, [⟨"COUNT", 0, 32, .ro, false, .no, .any⟩]⟩,
  ⟨"RACK_LINK_ACC_LO", 0x248, 1, 4, false, [⟨"COUNT", 0, 32, .ro, false, .no, .any⟩]⟩,
  ⟨"RACK_LINK_ACC_HI", 0x24C, 1, 4, false, [⟨"COUNT", 0, 32, .ro, false, .no, .any⟩]⟩]

def tRack : List RegSpec := tRack_0 ++ tRack_1 ++ tRack_2 ++ tRack_3

def tStarter_0 : List RegSpec := [
  ⟨"STARTER_EVT", 0x40, 1, 4, false, [⟨"OPEN", 0, 1, .w1c, false, .no, .any⟩, ⟨"ROOT_BAD", 1, 1, .w1c, false, .no, .any⟩, ⟨"TAMPERED", 2, 1, .w1c, false, .no, .any⟩, ⟨"EXH", 3, 1, .w1c, false, .no, .any⟩, ⟨"LC", 4, 1, .w1c, false, .no, .any⟩, ⟨"ZEROIZED", 5, 1, .w1c, false, .no, .any⟩, ⟨"PF_ABORT", 6, 1, .w1c, false, .no, .any⟩]⟩,
  ⟨"STARTER_STATE", 0x100, 1, 4, false, [⟨"LC", 0, 3, .ro, false, .no, .any⟩, ⟨"OPEN", 3, 1, .ro, false, .no, .any⟩, ⟨"ROOT_BAD", 4, 1, .ro, false, .no, .any⟩, ⟨"LEGACY_OFF", 5, 1, .ro, false, .no, .any⟩, ⟨"DEBUG", 6, 1, .ro, false, .no, .any⟩]⟩,
  ⟨"STARTER_UID", 0x104, 4, 4, false, [⟨"UID", 0, 32, .ro, false, .no, .any⟩]⟩,
  ⟨"STARTER_MESH", 0x120, 1, 4, false, [⟨"BCAST_GEN", 0, 2, .rw, true, .yes, .any⟩, ⟨"GEN_VALID", 4, 4, .ro, false, .no, .any⟩]⟩,
  ⟨"STARTER_SLOTS", 0x124, 1, 4, false, [⟨"VOL", 0, 10, .ro, false, .no, .any⟩, ⟨"RET", 16, 7, .ro, false, .no, .any⟩]⟩,
  ⟨"STARTER_CACHE_HIT", 0x128, 1, 4, false, [⟨"COUNT", 0, 32, .ro, false, .no, .any⟩]⟩,
  ⟨"STARTER_CACHE_MISS", 0x12C, 1, 4, false, [⟨"COUNT", 0, 32, .ro, false, .no, .any⟩]⟩,
  ⟨"STARTER_JRNL", 0x130, 1, 4, false, [⟨"BAD", 0, 16, .ro, false, .no, .any⟩, ⟨"ROLLBACK", 16, 16, .ro, false, .no, .any⟩]⟩]

def tStarter_1 : List RegSpec := [
  ⟨"STARTER_DATA", 0x200, 16, 4, false, [⟨"WORD", 0, 32, .rw, false, .no, .any⟩]⟩,
  ⟨"STARTER_OUT", 0x240, 12, 4, true, [⟨"WORD", 0, 32, .ro, false, .no, .any⟩]⟩]

def tStarter : List RegSpec := tStarter_0 ++ tStarter_1

def tTamp_0 : List RegSpec := [
  ⟨"TAMP_EVT", 0x40, 1, 4, false, [⟨"SRC", 0, 8, .w1c, false, .no, .any⟩, ⟨"HOLD_EVT", 8, 1, .w1c, false, .no, .any⟩, ⟨"LOG_LOST", 9, 1, .w1c, false, .no, .any⟩]⟩,
  ⟨"TAMP_STATE", 0x100, 1, 4, false, [⟨"ACTIVE", 0, 8, .ro, false, .no, .any⟩, ⟨"THOLD", 8, 1, .ro, false, .no, .any⟩, ⟨"ZPEND", 9, 1, .ro, false, .no, .any⟩, ⟨"ALARM", 10, 1, .ro, false, .no, .any⟩, ⟨"LOCKED", 11, 1, .ro, false, .no, .any⟩]⟩,
  ⟨"TAMP_CFG", 0x104, 8, 4, false, [⟨"RESP", 0, 2, .rw, true, .no, .any⟩, ⟨"EN", 2, 1, .rw, true, .no, .any⟩, ⟨"FILTER", 4, 8, .rw, true, .no, .rng 1 255⟩]⟩,
  ⟨"TAMP_FLOOR", 0x124, 1, 4, false, [⟨"RESP", 0, 16, .ro, false, .no, .any⟩]⟩,
  ⟨"TAMP_VIN", 0x128, 1, 4, false, [⟨"HI", 0, 10, .rw, true, .no, .rng 580 640⟩, ⟨"LO", 16, 10, .rw, true, .no, .offOr 50 550⟩]⟩,
  ⟨"TAMP_GLITCH", 0x12C, 1, 4, false, [⟨"MV", 0, 8, .rw, true, .no, .rng 40 200⟩, ⟨"NS", 8, 8, .rw, true, .no, .rng 2 100⟩]⟩,
  ⟨"TAMP_MESH", 0x130, 1, 4, false, [⟨"PERIOD", 0, 8, .rw, true, .no, .rng 5 200⟩]⟩,
  ⟨"TAMP_LOCK", 0x134, 1, 4, false, [⟨"LOCK", 0, 1, .w1s, false, .no, .any⟩]⟩]

def tTamp_1 : List RegSpec := [
  ⟨"TAMP_CLEAR", 0x138, 1, 4, false, [⟨"ALARM", 0, 1, .wo, false, .no, .any⟩]⟩,
  ⟨"TAMP_BKUP_LO", 0x13C, 1, 4, false, [⟨"TICKS", 0, 32, .ro, false, .no, .any⟩]⟩,
  ⟨"TAMP_BKUP_HI", 0x140, 1, 4, false, [⟨"TICKS", 0, 16, .ro, false, .no, .any⟩]⟩,
  ⟨"TAMP_LOG_POP", 0x150, 1, 4, false, [⟨"TICKS", 0, 32, .pop, false, .no, .any⟩]⟩,
  ⟨"TAMP_LOG_W1", 0x154, 1, 4, true, [⟨"TICKS", 0, 16, .ro, false, .no, .any⟩, ⟨"SRC", 16, 3, .ro, false, .no, .any⟩, ⟨"PHASE", 19, 3, .ro, false, .no, .any⟩, ⟨"RESP", 22, 2, .ro, false, .no, .any⟩, ⟨"VALID", 31, 1, .ro, false, .no, .any⟩]⟩,
  ⟨"TAMP_LOG_LOST", 0x158, 1, 4, false, [⟨"COUNT", 0, 32, .ro, false, .no, .any⟩]⟩]

def tTamp : List RegSpec := tTamp_0 ++ tTamp_1

def tProof_0 : List RegSpec := [
  ⟨"PROOF_EVT", 0x40, 1, 4, false, [⟨"PUB_NEW", 0, 1, .w1c, false, .no, .any⟩, ⟨"REJECT", 1, 1, .w1c, false, .no, .any⟩, ⟨"FULL", 2, 1, .w1c, false, .no, .any⟩, ⟨"PAUSE", 3, 1, .w1c, false, .no, .any⟩, ⟨"RESUMED", 4, 1, .w1c, false, .no, .any⟩, ⟨"LOG_FULL", 5, 1, .w1c, false, .no, .any⟩]⟩,
  ⟨"PROOF_STATE", 0x100, 1, 4, false, [⟨"PAUSED", 0, 1, .ro, false, .no, .any⟩, ⟨"LOG_FULL", 1, 1, .ro, false, .no, .any⟩, ⟨"SLOT", 2, 1, .ro, false, .no, .any⟩]⟩,
  ⟨"PROOF_VERSION", 0x104, 1, 4, false, [⟨"VER", 0, 32, .ro, false, .no, .any⟩]⟩,
  ⟨"PROOF_SEAL", 0x108, 1, 4, false, [⟨"COUNT", 0, 32, .ro, false, .no, .any⟩]⟩,
  ⟨"PROOF_QUEUE", 0x10C, 1, 4, false, [⟨"LEVEL", 0, 15, .ro, false, .no, .any⟩, ⟨"PEAK", 16, 15, .ro, false, .no, .any⟩]⟩,
  ⟨"PROOF_REG_HEAD", 0x110, 1, 4, false, [⟨"SEQ", 0, 32, .ro, false, .no, .any⟩]⟩,
  ⟨"PROOF_LOG_HEAD", 0x114, 1, 4, false, [⟨"COUNT", 0, 15, .ro, false, .no, .any⟩]⟩,
  ⟨"PROOF_OK_CNT", 0x118, 1, 4, false, [⟨"COUNT", 0, 32, .ro, false, .no, .any⟩]⟩]

def tProof_1 : List RegSpec := [
  ⟨"PROOF_AUTH_CNT", 0x11C, 1, 4, false, [⟨"COUNT", 0, 32, .ro, false, .no, .any⟩]⟩,
  ⟨"PROOF_NOKEY_CNT", 0x120, 1, 4, false, [⟨"COUNT", 0, 32, .ro, false, .no, .any⟩]⟩,
  ⟨"PROOF_BAD_CNT", 0x124, 1, 4, false, [⟨"COUNT", 0, 32, .ro, false, .no, .any⟩]⟩,
  ⟨"PROOF_REFUSED_CNT", 0x128, 1, 4, false, [⟨"COUNT", 0, 32, .ro, false, .no, .any⟩]⟩,
  ⟨"PROOF_REJ_LAST", 0x12C, 1, 4, false, [⟨"NUM", 0, 32, .ro, false, .no, .any⟩]⟩,
  ⟨"PROOF_REJ_CAUSE", 0x130, 1, 4, false, [⟨"CAUSE", 0, 4, .ro, false, .no, .any⟩]⟩,
  ⟨"PROOF_HASH", 0x140, 12, 4, false, [⟨"WORD", 0, 32, .ro, false, .no, .any⟩]⟩,
  ⟨"PROOF_POST_W", 0x200, 12, 4, true, [⟨"WORD", 0, 32, .rw, false, .no, .any⟩]⟩]

def tProof_2 : List RegSpec := [
  ⟨"PROOF_POST_GO", 0x230, 1, 4, false, [⟨"GO", 0, 1, .wo, false, .no, .any⟩]⟩,
  ⟨"PROOF_POST_RES", 0x234, 1, 4, true, [⟨"CODE", 0, 8, .ro, false, .no, .any⟩]⟩,
  ⟨"PROOF_POST_NUM", 0x238, 1, 4, true, [⟨"NUM", 0, 32, .ro, false, .no, .any⟩]⟩,
  ⟨"PROOF_CREDIT", 0x23C, 1, 4, false, [⟨"COUNT", 0, 15, .ro, false, .no, .any⟩]⟩,
  ⟨"PROOF_PUB_SEL", 0x300, 1, 4, true, [⟨"SEQ", 0, 32, .rw, false, .no, .any⟩]⟩,
  ⟨"PROOF_PUB_W", 0x340, 16, 4, true, [⟨"WORD", 0, 32, .ro, false, .no, .any⟩]⟩]

def tProof : List RegSpec := tProof_0 ++ tProof_1 ++ tProof_2

def tFwu_0 : List RegSpec := [
  ⟨"FWU_EVT", 0x40, 1, 4, false, [⟨"VERIFY_DONE", 0, 1, .w1c, false, .no, .any⟩, ⟨"ACT_DONE", 1, 1, .w1c, false, .no, .any⟩, ⟨"TRIAL_OPEN", 2, 1, .w1c, false, .no, .any⟩, ⟨"CONFIRMED", 3, 1, .w1c, false, .no, .any⟩, ⟨"FALLBACK", 4, 1, .w1c, false, .no, .any⟩, ⟨"PORT_REVERT", 5, 1, .w1c, false, .no, .any⟩]⟩,
  ⟨"FWU_STATE", 0x100, 1, 4, false, [⟨"PHASE", 0, 2, .ro, false, .no, .any⟩, ⟨"PARTIAL", 2, 1, .ro, false, .no, .any⟩, ⟨"MEAS_STALE", 3, 1, .ro, false, .no, .any⟩, ⟨"INCOMPAT", 4, 1, .ro, false, .no, .any⟩, ⟨"UNIT", 8, 4, .ro, false, .no, .any⟩, ⟨"TRIAL_BOOTS", 16, 2, .ro, false, .no, .any⟩]⟩,
  ⟨"FWU_TRIAL_LEFT", 0x104, 1, 4, false, [⟨"S", 0, 17, .ro, false, .no, .any⟩]⟩,
  ⟨"FWU_CFG", 0x108, 1, 4, false, [⟨"WINDOW", 0, 17, .rw, true, .no, .rng 30 86400⟩]⟩,
  ⟨"FWU_CFG2", 0x10C, 1, 4, false, [⟨"DRAIN", 0, 10, .rw, true, .no, .rng 10 1000⟩, ⟨"LINK_WAIT", 16, 10, .rw, true, .no, .rng 100 1000⟩]⟩,
  ⟨"FWU_LAST_FB", 0x110, 1, 4, false, [⟨"CAUSE", 0, 4, .ro, false, .no, .any⟩, ⟨"PARTS", 8, 3, .ro, false, .no, .any⟩, ⟨"COUNT", 16, 16, .ro, false, .no, .any⟩]⟩,
  ⟨"FWU_LAST_FB_TIME", 0x114, 1, 4, false, [⟨"S", 0, 32, .ro, false, .no, .any⟩]⟩,
  ⟨"FWU_KEYS", 0x118, 1, 4, false, [⟨"REVOKED", 0, 4, .ro, false, .no, .any⟩]⟩]

def tFwu_1 : List RegSpec := [
  ⟨"FWU_PROTO", 0x11C, 1, 4, false, [⟨"PROTO", 0, 16, .ro, false, .no, .any⟩]⟩,
  ⟨"FWU_RUN", 0x120, 15, 4, false, [⟨"SLOT", 0, 1, .ro, false, .no, .any⟩, ⟨"TRIAL", 1, 1, .ro, false, .no, .any⟩, ⟨"IFACE", 8, 16, .ro, false, .no, .any⟩]⟩]

def tFwu : List RegSpec := tFwu_0 ++ tFwu_1

def tFwuSlot : List RegSpec := [
  ⟨"FWU_SLOT_STAT", 0x0, 1, 4, false, [⟨"VERIFIED", 0, 1, .ro, false, .no, .any⟩, ⟨"BOUND", 1, 1, .ro, false, .no, .any⟩, ⟨"RUNNING", 2, 1, .ro, false, .no, .any⟩, ⟨"PREV", 3, 1, .ro, false, .no, .any⟩, ⟨"RESULT", 8, 8, .ro, false, .no, .any⟩, ⟨"KEY", 16, 2, .ro, false, .no, .any⟩]⟩,
  ⟨"FWU_SLOT_VER", 0x4, 1, 4, false, [⟨"VERSION", 0, 32, .ro, false, .no, .any⟩]⟩,
  ⟨"FWU_SLOT_EP", 0x8, 1, 4, false, [⟨"IFACE", 0, 16, .ro, false, .no, .any⟩, ⟨"PROTO", 16, 16, .ro, false, .no, .any⟩]⟩,
  ⟨"FWU_SLOT_MINA", 0xC, 1, 4, false, [⟨"MIN_CTRL", 0, 16, .ro, false, .no, .any⟩, ⟨"MIN_RADIO", 16, 16, .ro, false, .no, .any⟩]⟩,
  ⟨"FWU_SLOT_MINB", 0x10, 1, 4, false, [⟨"MIN_PCS", 0, 16, .ro, false, .no, .any⟩, ⟨"MIN_PROOF", 16, 16, .ro, false, .no, .any⟩]⟩]

def tHost_0 : List RegSpec := [
  ⟨"HOST_EVT", 0x40, 1, 4, false, [⟨"LINK_DOWN", 0, 1, .w1c, false, .no, .any⟩, ⟨"FLR", 1, 1, .w1c, false, .no, .any⟩, ⟨"DMA_ERR", 2, 1, .w1c, false, .no, .any⟩, ⟨"PARK_EXPIRED", 3, 1, .w1c, false, .no, .any⟩]⟩,
  ⟨"HOST_LINK", 0x100, 1, 4, false, [⟨"SPEED", 0, 3, .ro, false, .no, .any⟩, ⟨"WIDTH", 4, 3, .ro, false, .no, .any⟩, ⟨"DOWNS", 16, 16, .ro, false, .no, .any⟩]⟩,
  ⟨"HOST_PARK", 0x104, 1, 4, false, [⟨"MS", 0, 16, .rw, true, .no, .rng 1 60000⟩]⟩,
  ⟨"HOST_DROPQ", 0x108, 1, 4, false, [⟨"COUNT", 0, 32, .ro, false, .no, .any⟩]⟩,
  ⟨"HOST_BAR2_UNMAPPED", 0x10C, 1, 4, false, [⟨"COUNT", 0, 32, .ro, false, .no, .any⟩]⟩,
  ⟨"HOST_MAP_PORT", 0x110, 10, 4, false, [⟨"DATA", 0, 6, .rw, true, .no, .any⟩, ⟨"DVALID", 7, 1, .rw, true, .no, .any⟩, ⟨"CTL", 8, 6, .rw, true, .no, .any⟩, ⟨"CVALID", 15, 1, .rw, true, .no, .any⟩]⟩,
  ⟨"HOST_MAP_CHAIN", 0x140, 4, 4, false, [⟨"Q", 0, 6, .rw, true, .no, .any⟩, ⟨"VALID", 7, 1, .rw, true, .no, .any⟩]⟩,
  ⟨"HOST_MAP_FW", 0x150, 1, 4, false, [⟨"Q", 0, 6, .rw, true, .no, .any⟩, ⟨"VALID", 7, 1, .rw, true, .no, .any⟩]⟩]

def tHost_1 : List RegSpec := [
  ⟨"HOST_IRQ_MAP", 0x200, 64, 4, false, [⟨"VEC0", 0, 6, .rw, true, .no, .any⟩, ⟨"VEC1", 8, 6, .rw, true, .no, .any⟩, ⟨"VEC2", 16, 6, .rw, true, .no, .any⟩, ⟨"VEC3", 24, 6, .rw, true, .no, .any⟩, ⟨"SPI0", 6, 1, .rw, true, .no, .any⟩, ⟨"SPI1", 14, 1, .rw, true, .no, .any⟩, ⟨"SPI2", 22, 1, .rw, true, .no, .any⟩, ⟨"SPI3", 30, 1, .rw, true, .no, .any⟩, ⟨"EN0", 7, 1, .rw, true, .no, .any⟩, ⟨"EN1", 15, 1, .rw, true, .no, .any⟩, ⟨"EN2", 23, 1, .rw, true, .no, .any⟩, ⟨"EN3", 31, 1, .rw, true, .no, .any⟩]⟩]

def tHost : List RegSpec := tHost_0 ++ tHost_1

def tHostQ_0 : List RegSpec := [
  ⟨"HOST_Q_STATE", 0x0, 1, 4, false, [⟨"STATE", 0, 2, .ro, false, .no, .any⟩]⟩,
  ⟨"HOST_Q_CFG", 0x4, 1, 4, false, [⟨"RXLOG2", 0, 4, .rw, false, .no, .rng 6 12⟩, ⟨"TXLOG2", 4, 4, .rw, false, .no, .rng 6 12⟩, ⟨"BUF", 8, 8, .rw, false, .no, .rng 8 64⟩, ⟨"TXC", 16, 13, .rw, false, .no, .any⟩]⟩,
  ⟨"HOST_Q_RXBASE_LO", 0x8, 1, 4, false, [⟨"ADDR", 0, 32, .rw, false, .no, .any⟩]⟩,
  ⟨"HOST_Q_RXBASE_HI", 0xC, 1, 4, false, [⟨"ADDR", 0, 32, .rw, false, .no, .any⟩]⟩,
  ⟨"HOST_Q_TXBASE_LO", 0x10, 1, 4, false, [⟨"ADDR", 0, 32, .rw, false, .no, .any⟩]⟩,
  ⟨"HOST_Q_TXBASE_HI", 0x14, 1, 4, false, [⟨"ADDR", 0, 32, .rw, false, .no, .any⟩]⟩,
  ⟨"HOST_Q_RX_RET", 0x18, 1, 4, false, [⟨"COUNT", 0, 13, .wo, false, .no, .any⟩]⟩,
  ⟨"HOST_Q_TX_POST", 0x1C, 1, 4, false, [⟨"COUNT", 0, 13, .wo, false, .no, .any⟩]⟩]

def tHostQ_1 : List RegSpec := [
  ⟨"HOST_Q_RX_PTR", 0x20, 1, 4, false, [⟨"NEXT", 0, 12, .ro, false, .no, .any⟩, ⟨"HELD", 16, 13, .ro, false, .no, .any⟩]⟩,
  ⟨"HOST_Q_TX_PTR", 0x24, 1, 4, false, [⟨"NEXT", 0, 12, .ro, false, .no, .any⟩, ⟨"CREDIT", 16, 13, .ro, false, .no, .any⟩]⟩,
  ⟨"HOST_Q_COAL", 0x28, 1, 4, false, [⟨"PKTS", 0, 8, .rw, false, .no, .rng 1 255⟩, ⟨"US", 8, 16, .rw, false, .no, .any⟩]⟩,
  ⟨"HOST_Q_RX_PKTS", 0x2C, 1, 4, false, [⟨"COUNT", 0, 32, .ro, false, .no, .any⟩]⟩,
  ⟨"HOST_Q_TX_PKTS", 0x30, 1, 4, false, [⟨"COUNT", 0, 32, .ro, false, .no, .any⟩]⟩,
  ⟨"HOST_Q_DROPS", 0x34, 1, 4, false, [⟨"COUNT", 0, 32, .ro, false, .no, .any⟩]⟩]

def tHostQ : List RegSpec := tHostQ_0 ++ tHostQ_1

def tHostMsix : List RegSpec := [
  ⟨"HOST_MSIX_ADDR_LO", 0x2000, 64, 16, false, [⟨"ADDR", 0, 32, .rw, false, .no, .any⟩]⟩,
  ⟨"HOST_MSIX_ADDR_HI", 0x2004, 64, 16, false, [⟨"ADDR", 0, 32, .rw, false, .no, .any⟩]⟩,
  ⟨"HOST_MSIX_DATA", 0x2008, 64, 16, false, [⟨"DATA", 0, 32, .rw, false, .no, .any⟩]⟩,
  ⟨"HOST_MSIX_CTL", 0x200C, 64, 16, false, [⟨"MASK", 0, 1, .rw, false, .no, .any⟩]⟩,
  ⟨"HOST_MSIX_PBA", 0x2400, 2, 4, false, [⟨"PEND", 0, 32, .ro, false, .no, .any⟩]⟩]

def tCrc : List RegSpec := [
  ⟨"CRC_EVT", 0x40, 1, 4, false, [⟨"DONE", 0, 24, .w1c, false, .no, .any⟩, ⟨"MISMATCH", 24, 1, .w1c, false, .no, .any⟩, ⟨"DMA_ERR", 25, 1, .w1c, false, .no, .any⟩]⟩]

def tCrcCh_0 : List RegSpec := [
  ⟨"CRC_CFG", 0x0, 1, 4, false, [⟨"ALG", 0, 3, .rw, false, .no, .rng 0 3⟩, ⟨"MODE", 4, 2, .rw, false, .no, .rng 0 2⟩, ⟨"FIRST", 6, 1, .rw, false, .no, .any⟩, ⟨"LAST", 7, 1, .rw, false, .no, .any⟩, ⟨"SRC_SP", 8, 1, .rw, false, .no, .any⟩, ⟨"DST_SP", 9, 1, .rw, false, .no, .any⟩]⟩,
  ⟨"CRC_SRC_LO", 0x4, 1, 4, false, [⟨"ADDR", 0, 32, .rw, false, .no, .any⟩]⟩,
  ⟨"CRC_SRC_HI", 0x8, 1, 4, false, [⟨"ADDR", 0, 32, .rw, false, .no, .any⟩]⟩,
  ⟨"CRC_DST_LO", 0xC, 1, 4, false, [⟨"ADDR", 0, 32, .rw, false, .no, .any⟩]⟩,
  ⟨"CRC_DST_HI", 0x10, 1, 4, false, [⟨"ADDR", 0, 32, .rw, false, .no, .any⟩]⟩,
  ⟨"CRC_LEN", 0x14, 1, 4, false, [⟨"OCTETS", 0, 24, .rw, false, .no, .rng 1 16777215⟩]⟩,
  ⟨"CRC_CTL", 0x18, 1, 4, false, [⟨"GO", 0, 1, .wo, false, .no, .any⟩, ⟨"STOP", 1, 1, .wo, false, .no, .any⟩]⟩,
  ⟨"CRC_STAT", 0x1C, 1, 4, false, [⟨"STATE", 0, 4, .ro, false, .no, .any⟩, ⟨"RESULT", 8, 8, .ro, false, .no, .any⟩, ⟨"KIB", 16, 16, .ro, false, .no, .any⟩]⟩]

def tCrcCh_1 : List RegSpec := [
  ⟨"CRC_VAL_LO", 0x20, 1, 4, false, [⟨"VALUE", 0, 32, .ro, false, .no, .any⟩]⟩,
  ⟨"CRC_VAL_HI", 0x24, 1, 4, false, [⟨"VALUE", 0, 32, .ro, false, .no, .any⟩]⟩,
  ⟨"CRC_JOBS", 0x28, 1, 4, false, [⟨"COUNT", 0, 32, .ro, false, .no, .any⟩]⟩]

def tCrcCh : List RegSpec := tCrcCh_0 ++ tCrcCh_1

def tGpio_0 : List RegSpec := [
  ⟨"GPIO_EVT", 0x40, 1, 4, false, [⟨"CHANGE", 0, 1, .w1c, false, .no, .any⟩, ⟨"WAKE", 1, 1, .w1c, false, .no, .any⟩]⟩,
  ⟨"GPIO_DIR0", 0x100, 1, 4, false, [⟨"OE", 0, 32, .rw, true, .no, .any⟩]⟩,
  ⟨"GPIO_DIR1", 0x104, 1, 4, false, [⟨"OE", 0, 16, .rw, true, .no, .any⟩]⟩,
  ⟨"GPIO_OUT0", 0x108, 1, 4, false, [⟨"LEVEL", 0, 32, .rw, true, .no, .any⟩]⟩,
  ⟨"GPIO_OUT1", 0x10C, 1, 4, false, [⟨"LEVEL", 0, 16, .rw, true, .no, .any⟩]⟩,
  ⟨"GPIO_IN0", 0x110, 1, 4, false, [⟨"LEVEL", 0, 32, .ro, false, .no, .any⟩]⟩,
  ⟨"GPIO_IN1", 0x114, 1, 4, false, [⟨"LEVEL", 0, 16, .ro, false, .no, .any⟩]⟩,
  ⟨"GPIO_PULL", 0x120, 3, 4, false, [⟨"PULL", 0, 32, .rw, true, .no, .any⟩]⟩]

def tGpio_1 : List RegSpec := [
  ⟨"GPIO_FILT", 0x130, 12, 4, false, [⟨"F0_F30", 0, 8, .rw, true, .no, .any⟩, ⟨"F0_F31", 8, 8, .rw, true, .no, .any⟩, ⟨"F0_F32", 16, 8, .rw, true, .no, .any⟩, ⟨"F0_F33", 24, 8, .rw, true, .no, .any⟩]⟩,
  ⟨"GPIO_CHG_EN0", 0x160, 1, 4, false, [⟨"EN", 0, 32, .rw, true, .no, .any⟩]⟩,
  ⟨"GPIO_CHG_EN1", 0x164, 1, 4, false, [⟨"EN", 0, 16, .rw, true, .no, .any⟩]⟩,
  ⟨"GPIO_CHG0", 0x168, 1, 4, false, [⟨"CHG", 0, 32, .w1c, false, .no, .any⟩]⟩,
  ⟨"GPIO_CHG1", 0x16C, 1, 4, false, [⟨"CHG", 0, 16, .w1c, false, .no, .any⟩]⟩]

def tGpio : List RegSpec := tGpio_0 ++ tGpio_1

end Sys2Proof.Machine.T
end

