-- ==== Sys2Proof/Machine/ResetTable.lean ====
section
/-! DEFINITION. The Reset columns of the register maps of spec/02 to spec/19: per block the registers whose reset value is not 0.
Values that differ by instance, and those of the header, are in `resetWord` (Machine/Regs.lean). -/

namespace Sys2Proof.Machine.T

def zFab : List ResetRow := [⟨0x100, 4, 4, 0x14⟩, ⟨0x1C0, 1, 4, 0x20⟩]

def zPwrGov : List ResetRow := [⟨0x304, 1, 4, 0xA⟩, ⟨0x308, 1, 4, 0x28⟩, ⟨0x310, 1, 4, 0x3C⟩, ⟨0x314, 1, 4, 0xA⟩, ⟨0x318, 1, 4, 0x2828⟩, ⟨0x31C, 1, 4, 0xFFF⟩]

def zHdr : List ResetRow := [⟨0x0, 1, 4, 0x3⟩, ⟨0xC, 1, 4, 0x1000000⟩]

def zPwr : List ResetRow := [⟨0x100, 1, 4, 0x3FFF0000⟩, ⟨0x108, 1, 4, 0x38⟩, ⟨0x110, 1, 4, 0x4⟩]

def zRet : List ResetRow := [⟨0x114, 1, 4, 0xA⟩, ⟨0x118, 1, 4, 0xC⟩, ⟨0x11C, 1, 4, 0x14⟩, ⟨0x140, 10, 4, 0x100⟩]

def zTb : List ResetRow := [⟨0x128, 1, 4, 0xF⟩, ⟨0x12C, 1, 4, 0xA⟩, ⟨0x134, 1, 4, 0xFA0⟩, ⟨0x138, 1, 4, 0x7D000C8⟩, ⟨0x164, 1, 4, 0x80000000⟩]

def zTrigCh : List ResetRow := []

def zTrig : List ResetRow := []

def zRf : List ResetRow := [⟨0x104, 1, 4, 0x1⟩, ⟨0x110, 1, 4, 0x12C0064⟩, ⟨0x114, 1, 4, 0x28283F01⟩, ⟨0x11C, 1, 4, 0x708⟩]

def zRf0 : List ResetRow := [⟨0x130, 1, 4, 0x4⟩, ⟨0x134, 1, 4, 0x3C01⟩, ⟨0x13C, 1, 4, 0x8000⟩]

def zWb : List ResetRow := [⟨0x108, 1, 4, 0x20⟩, ⟨0x10C, 1, 4, 0xF051412⟩, ⟨0x11C, 1, 4, 0xC⟩, ⟨0x120, 1, 4, 0x106⟩, ⟨0x128, 1, 4, 0x11⟩, ⟨0x12C, 1, 4, 0x14⟩, ⟨0x130, 1, 4, 0x18⟩, ⟨0x134, 1, 4, 0x5A0⟩, ⟨0x140, 5, 4, 0x80009A⟩, ⟨0x154, 4, 4, 0x800080⟩, ⟨0x180, 32, 4, 0x18000000⟩, ⟨0x240, 1, 4, 0x3⟩]

def zPhy : List ResetRow := [⟨0x100, 1, 4, 0x7F7E3F0F⟩, ⟨0x104, 1, 4, 0x3080⟩, ⟨0x108, 1, 4, 0x30065⟩, ⟨0x10C, 1, 4, 0x4830180C⟩]

def zMac : List ResetRow := [⟨0x100, 1, 4, 0x1F4301F4⟩, ⟨0x104, 1, 4, 0x7D003E8⟩, ⟨0x108, 1, 4, 0x600EC⟩, ⟨0x10C, 1, 4, 0xC803E8⟩, ⟨0x110, 1, 4, 0x23F⟩]

def zBcn : List ResetRow := [⟨0x100, 1, 4, 0x81402⟩, ⟨0x10C, 1, 4, 0xF⟩, ⟨0x200, 128, 4, 0x327E00⟩]

def zFlood : List ResetRow := [⟨0x100, 1, 4, 0xA6⟩, ⟨0x104, 1, 4, 0xC80014⟩, ⟨0x108, 1, 4, 0x78⟩, ⟨0x200, 128, 4, 0xFE⟩]

def zPeel : List ResetRow := [⟨0x100, 1, 4, 0x200010⟩, ⟨0x104, 1, 4, 0x21⟩, ⟨0x108, 1, 4, 0x3E8⟩, ⟨0x110, 1, 4, 0x10000⟩, ⟨0x114, 1, 4, 0x1000⟩, ⟨0x118, 4, 4, 0x4000⟩, ⟨0x128, 1, 4, 0x40000⟩, ⟨0x12C, 1, 4, 0x1000⟩, ⟨0x130, 1, 4, 0xE000⟩, ⟨0x170, 1, 4, 0x70000⟩]

def zPeel1 : List ResetRow := []

def zPeelList : List ResetRow := []

def zDir : List ResetRow := [⟨0x100, 1, 4, 0x28⟩]

def zSieve : List ResetRow := [⟨0x100, 1, 4, 0xA412C1⟩, ⟨0x104, 1, 4, 0x78⟩]

def zSieveP : List ResetRow := [⟨0x100, 1, 4, 0x402⟩, ⟨0x804, 256, 8, 0xF0000000⟩]

def zPort : List ResetRow := [⟨0x100, 1, 4, 0x1⟩, ⟨0x104, 1, 4, 0xE4⟩, ⟨0x108, 1, 4, 0x2400⟩, ⟨0x110, 1, 4, 0x30100⟩, ⟨0x114, 1, 4, 0xA000000⟩, ⟨0x118, 1, 4, 0x1⟩, ⟨0x120, 1, 4, 0x7⟩]

def zCrust : List ResetRow := [⟨0x100, 1, 4, 0xFF000000⟩, ⟨0x108, 1, 4, 0xFFFFFFFF⟩]

def zCrustX : List ResetRow := []

def zCrustK : List ResetRow := [⟨0x0, 1, 4, 0x10711⟩, ⟨0x4, 1, 4, 0x80000000⟩]

def zRack : List ResetRow := [⟨0x100, 1, 4, 0x20000⟩, ⟨0x120, 1, 4, 0x1F4⟩, ⟨0x12C, 1, 4, 0xCFFFFFE⟩, ⟨0x140, 2, 4, 0x10000600⟩, ⟨0x148, 1, 4, 0xC000400⟩, ⟨0x14C, 1, 4, 0x8000400⟩, ⟨0x150, 2, 4, 0x4000200⟩, ⟨0x158, 1, 4, 0x4000100⟩, ⟨0x15C, 1, 4, 0x2000100⟩, ⟨0x180, 2, 4, 0x100C00⟩, ⟨0x188, 1, 4, 0x100900⟩, ⟨0x18C, 1, 4, 0x100600⟩, ⟨0x190, 3, 4, 0x100300⟩, ⟨0x19C, 1, 4, 0x100180⟩]

def zStarter : List ResetRow := []

def zTamp : List ResetRow := [⟨0x104, 8, 4, 0xA4⟩, ⟨0x128, 1, 4, 0x258⟩, ⟨0x12C, 1, 4, 0x550⟩, ⟨0x130, 1, 4, 0x14⟩]

def zProof : List ResetRow := [⟨0x23C, 1, 4, 0x4000⟩]

def zFwu : List ResetRow := [⟨0x108, 1, 4, 0x258⟩, ⟨0x10C, 1, 4, 0x1F40190⟩]

def zFwuSlot : List ResetRow := []

def zHost : List ResetRow := [⟨0x104, 1, 4, 0x3E8⟩]

def zHostQ : List ResetRow := [⟨0x4, 1, 4, 0x1000888⟩, ⟨0x28, 1, 4, 0x1⟩]

def zHostMsix : List ResetRow := [⟨0x200C, 64, 16, 0x1⟩]

def zCrc : List ResetRow := []

def zCrcCh : List ResetRow := [⟨0x0, 1, 4, 0xC0⟩]

def zGpio : List ResetRow := [⟨0x120, 1, 4, 0x55555555⟩, ⟨0x124, 1, 4, 0x55565555⟩, ⟨0x128, 1, 4, 0x55555555⟩, ⟨0x148, 1, 4, 0xA⟩]

end Sys2Proof.Machine.T
end

