-- ==== Sys2Proof/Machine/Regs.lean ====
section
/-! DEFINITION. Registers: which block an address belongs to, reset values, and the one way to read and write a stored field. -/

namespace Sys2Proof.Machine

/-- The block whose pages hold a BAR0 address, and the offset in the block (R14, R54). -/
def blockAt (a : Nat) : Option (Block × Nat) :=
  (Block.all.find? fun b => decide (b.base ≤ a) && decide (a < b.base + 0x1000 * b.pages)).map fun b => (b, a - b.base)

/-- Distance between the key of a register and the key of a master's own copy of it. -/
def masterStride : Nat := 0x4000000

/-- A field of the copy that a master has of a register (R119). -/
def ownCopy (m : Master) (f : Fld) : Fld := ⟨f.a + masterStride * (m.idx + 1), f.lo, f.w⟩

/-- The value of the first row that holds an offset, or 0. -/
def rowValue (rows : List ResetRow) (o : Nat) : W32 :=
  match rows.find? fun r => decide (r.off ≤ o) && decide ((o - r.off) % r.stride = 0) && decide ((o - r.off) / r.stride < r.n) with
  | some r => r.v
  | none => 0

/-- Reset values of the registers of a block that are the same in every instance. -/
def blockResets : Block → List ResetRow
  | .pwr => T.zPwr ++ T.zPwrGov
  | .fab => T.zFab | .ret => T.zRet | .tb => T.zTb
  | .rf n => if n.val = 0 then T.zRf ++ T.zRf0 else T.zRf
  | .wb _ => T.zWb
  | .phy => T.zPhy | .mac => T.zMac | .bcn => T.zBcn | .flood => T.zFlood | .peel => T.zPeel | .dir => T.zDir
  | .sieve e => if e.val = 2 then T.zSieveP else T.zSieve
  | .port _ => T.zPort
  | .crust x => if x.val = 0 then T.zCrust else []
  | .rack => T.zRack | .tamp => T.zTamp | .proof => T.zProof | .fwu => T.zFwu | .host => T.zHost ++ T.zHostMsix
  | .gpio => T.zGpio
  | _ => []

/-- The reset value of the header word at an offset below 0x100 (R54, R57). -/
def headerReset (b : Block) (o : Nat) : W32 :=
  if o = 0 then BitVec.ofNat 32 (0x3 + b.inst * 2 ^ 8 + b.typeCode * 2 ^ 16)
  else if o = 4 then (Config.hwRevision b.id).setWidth 32
  else if o = 8 then (Config.capability b.id).setWidth 32 ||| BitVec.ofNat 32 (b.pages * 2 ^ 27)
  else if o = 0xC then 0x1000000
  else 0

/-- Port of a frame's Sieve pipeline (R16): the east pipeline (0) serves 0 and 2 to 5, the west (1) serves 1 and 6 to 9. -/
def servedBy (p : Nat) : Nat := if p = 0 ∨ (2 ≤ p ∧ p ≤ 5) then 0 else 1

/-- Reset values that differ from instance to instance, or that the map takes from fuses or from a random draw.  The floors of TAMP are
ALARM, as in the life-cycle state FIELD (R495, log entry 37). -/
def instanceReset (b : Block) (o : Nat) : Option W32 :=
  match b with
  | .rf n =>
    if o = 0x108 then some (if n.val = 0 then 868000 else if n.val = 1 then 915000 else if n.val = 2 then 433920 else 2440000)
    else if o = 0x118 then some (if n.val = 3 then 0xDD else 0xE9)
    else if 0x140 ≤ o ∧ o ≤ 0x23C then some (Config.factoryPower n.val ((o - 0x140) / 4) &&& 0x800FFFFF)
    else none
  | .flood => if o = 0x10C then some ((Config.floodSeed).setWidth 32) else none
  | .sieve e =>
    if e.val < 2 ∧ 0x110 ≤ o ∧ o ≤ 0x134 then
      let p := (o - 0x110) / 4
      some (if servedBy p = e.val then BitVec.ofNat 32 (0x3FF - 2 ^ p) else 0)
    else none
  | .port p => if o = 0x100 then some (if p.val < 2 then 0x01 else 0x11) else none
  | .crust x =>
    if x.val ≠ 0 ∧ 0x200 ≤ o ∧ (o - 0x200) / 0x40 < (if x.val = 3 then 8 else 1) then some (rowValue T.zCrustK ((o - 0x200) % 0x40)) else none
  | .tamp =>
    if 0x104 ≤ o ∧ o ≤ 0x120 then
      some 0xA6
    else if o = 0x124 then some 0xAAAA else none
  | .host => if 0x1000 ≤ o ∧ o < 0x2000 then some (rowValue T.zHostQ (o % 0x40)) else none
  | .crc => if 0x1000 ≤ o ∧ o < 0x1000 + 24 * 0x40 then some (rowValue T.zCrcCh (o % 0x40)) else none
  | _ => none

/-- The Reset column of the register maps: the value of the word at a BAR0 address (or of a master's copy of it). -/
def resetWord (key : Nat) : W32 :=
  match blockAt (key % masterStride) with
  | none => 0
  | some (b, o) =>
    if o < 0x100 then headerReset b o
    else match instanceReset b o with
      | some v => v
      | none => rowValue (blockResets b) o

/-- The stored word at a key. -/
def State.word (s : State) (a : Nat) : W32 := mapGetD s.regs a (resetWord a)

/-- Store a word. -/
def State.setWord (s : State) (a : Nat) (v : W32) : State := { s with regs := mapSet s.regs a v }

/-- The value of a field. -/
def State.get (s : State) (f : Fld) : Nat := bitsGet f.lo f.w (s.word f.a)

/-- Is a one-bit field 1 (or a wider field not 0)? -/
def State.on (s : State) (f : Fld) : Bool := s.get f != 0

/-- Set a field. -/
def State.put (s : State) (f : Fld) (x : Nat) : State := s.setWord f.a (bitsSet f.lo f.w x (s.word f.a))

/-- Set a one-bit field. -/
def State.putB (s : State) (f : Fld) (x : Bool) : State := s.put f (if x then 1 else 0)

/-- Advance a counter by `n`, modulo its width. -/
def State.bump (s : State) (f : Fld) (n : Nat) : State := s.put f (s.get f + n)

/-- Advance a counter by `n`, saturating at its width. -/
def State.bumpSat (s : State) (f : Fld) (n : Nat) : State := s.put f (min (s.get f + n) (2 ^ f.w - 1))

/-- The field as it is in force: staged fields hold the value of the last set applied (R80). -/
def State.ap (s : State) (f : Fld) : Nat := bitsGet f.lo f.w (mapGetD s.applied f.a (s.word f.a))

/-- Is the field in force not 0? -/
def State.apOn (s : State) (f : Fld) : Bool := s.ap f != 0

/-- A 64-bit value held in two registers. -/
def State.get64 (s : State) (lo hi : Fld) : Nat := s.get lo + 2 ^ 32 * s.get hi

/-- Set a 64-bit value held in two registers. -/
def State.put64 (s : State) (lo hi : Fld) (x : Nat) : State := (s.put lo (x % 2 ^ 32)).put hi (x / 2 ^ 32)

/-- Advance a 64-bit counter held in two registers. -/
def State.bump64 (s : State) (lo hi : Fld) (n : Nat) : State := s.put64 lo hi (s.get64 lo hi + n)

/-- Draw a free value (log entry 5). -/
def State.draw (s : State) : Nat × State := (Config.free s.freeCtr, { s with freeCtr := s.freeCtr + 1 })

end Sys2Proof.Machine
end

