-- ==== Sys2Proof/Machine/Ops.lean ====
section
/-! DEFINITION. The named operations every family shares: time formats and stamps, event flags and their notices, ledgers,
commands and results, event FIFOs, fencing. -/

namespace Sys2Proof.Machine

/-! ## Time (R8, R117, R118, R132) -/

/-- Whole nanoseconds of the linear count. -/
def State.lin (s : State) : Nat := s.tb.L.toNat / 2 ^ 40

/-- The short time: L modulo 2^32. -/
def State.short (s : State) : Nat := s.lin % 2 ^ 32

/-- The sensor tick before it wraps: floor(L × 2^15 / 10^9). -/
def ticksOf (l : Lin) : Nat := l.toNat * 2 ^ 15 / (10 ^ 9 * 2 ^ 40)

/-- The sensor tick (R8, R118). -/
def State.st (s : State) : Nat := ticksOf s.tb.L % 2 ^ 32

/-- Full-time seconds. -/
def State.seconds (s : State) : Nat := s.lin / 10 ^ 9

/-- The linear count at a whole nanosecond. -/
def linOfNs (ns : Nat) : Lin := BitVec.ofNat 104 (ns * 2 ^ 40)

/-- The first linear count at which the sensor tick is `t`: t × 10^9 / 2^15, rounded up to the fraction L holds. -/
def linOfTick (t : Nat) : Lin := BitVec.ofNat 104 (ceilDiv (t * 10 ^ 9 * 2 ^ 40) (2 ^ 15))

/-- How far L moves at an edge of the crystal: one sensor tick as the last measured ratio corrects it (R127). -/
def State.crystalStep (s : State) : Nat := max 1 s.tb.crystal

/-- The first linear count at or after `l` that L takes: while the reference is lost it moves from edge to edge of the crystal (R127,
R128). -/
def State.nextShown (s : State) (l : Lin) : Lin :=
  if s.on R.TB_STATE_REF_LOST then
    BitVec.ofNat 104 (s.tb.L.toNat + ceilDiv (l.toNat - s.tb.L.toNat) s.crystalStep * s.crystalStep)
  else l

/-- The last linear count at or before `l` that L took: while the reference is lost stamps have the resolution of a tick (R128). -/
def State.lastShown (s : State) (l : Lin) : Lin :=
  if s.on R.TB_STATE_REF_LOST then
    BitVec.ofNat 104 (s.tb.L.toNat - ceilDiv (s.tb.L.toNat - l.toNat) s.crystalStep * s.crystalStep)
  else l

/-- Time passes to an instant a command names, if it lies ahead (log entry 1). -/
def State.advanceTo (s : State) (l : Lin) : State :=
  if s.tb.L.toNat < l.toNat then { s with tb := { s.tb with L := s.nextShown l } } else s

/-- TB_STATE.MODE: 0 FREERUN, 1 ACQUIRE, 2 LOCKED, 3 HOLDOVER. -/
def State.tbMode (s : State) : Nat := s.get R.TB_STATE_MODE

/-- The stamp word of an instant (R132). -/
def stampAt (s : State) (l : Lin) (id kind : Nat) : Stamp :=
  let l := s.lastShown l
  BitVec.ofNat 64 (
    (l.toNat / 2 ^ 40) % 2 ^ 32
    + ((l.toNat / 2 ^ 32) % 2 ^ 8) * 2 ^ 32
    + ((l.toNat / 2 ^ 72) % 2 ^ 8) * 2 ^ 40
    + s.tb.stepgen.toNat * 2 ^ 48
    + (id % 16) * 2 ^ 52
    + (kind % 8) * 2 ^ 56
    + (if s.tbMode = 3 then 2 ^ 59 else 0)
    + 2 ^ 63)

/-- The stamp word of now. -/
def State.stamp (s : State) (id kind : Nat) : Stamp := stampAt s s.tb.L id kind

/-! ## Blocks: power, fences, per-block state -/

/-- Is the power domain on (R20)? -/
def State.pdOn (s : State) (d : Nat) : Bool := natBit (s.get R.PWR_STATE_DOMAINS) d

/-- Is the block's domain on? -/
def State.powered (s : State) (b : Block) : Bool := s.pdOn b.domain

/-- What the block has besides its registers. -/
def State.blk (s : State) (b : Block) : BlockSt := mapGetD s.blocks b.id {}

/-- Change it. -/
def State.setBlk (s : State) (b : Block) (f : BlockSt → BlockSt) : State :=
  { s with blocks := mapSet s.blocks b.id (f (s.blk b)) }

/-- Is the stage group fenced (FAB_FENCED_LO, FAB_FENCED_HI)? -/
def State.groupFenced (s : State) (g : Nat) : Bool :=
  if g < 32 then natBit (s.get R.FAB_FENCED_LO_GROUPS) g else natBit (s.get R.FAB_FENCED_HI_GROUPS) (g - 32)

/-- Set or clear the fence bit of a group. -/
def State.setGroupFence (s : State) (g : Nat) (v : Bool) : State :=
  if g < 32 then s.putB ⟨R.FAB_FENCED_LO_GROUPS.a, g, 1⟩ v else s.putB ⟨R.FAB_FENCED_HI_GROUPS.a, g - 32, 1⟩ v

/-- Is any stage group of the block fenced (R58)? -/
def State.fenced (s : State) (b : Block) : Bool := b.groups.any s.groupFenced

/-- The block that owns a stage group. -/
def groupBlock (g : Nat) : Option Block := Block.all.find? fun b => b.groups.contains g

/-- _STATUS.STATE as R58 orders it: 5 OFF, 4 FENCED, 1 RUN, 2 DONE, 3 FAIL, 0 IDLE. -/
def State.statusState (s : State) (b : Block) : Nat :=
  if !s.powered b then 5
  else if s.fenced b then 4
  else if s.on (R.H_STATUS_BUSY b.base) then 1
  else match (s.blk b).last with
    | .ok => 2
    | .fail => 3
    | .none => 0

/-! ## Interrupt messages (R570 to R572) -/

/-- The HOST_IRQ_MAP byte of a source: vector, SPI, EN. -/
def State.irqMap (s : State) (src : Nat) : Nat := bitsGet (8 * (src % 4)) 8 (s.word (0xC0200 + 4 * (src / 4)))

/-- Send the message of a source: nothing unless EN; a masked vector sets its pending bit (R572). -/
def State.msi (s : State) (src : Nat) : State :=
  let e := s.irqMap src
  if !s.pdOn 13 || !natBit e 7 then s
  else
    let v := e % 64
    if s.on (R.HOST_MSIX_CTL_MASK v) then s.put ⟨0xC2400 + 4 * (v / 32), v % 32, 1⟩ 1
    else { s with msixSent := mapModify s.msixSent v 0 (· + 1) }

/-- The condition of a page source: (_EVT AND _EVT_EN) ≠ 0 (R570). -/
def State.irqCond (s : State) (b : Block) : Bool :=
  (s.word (b.base + 0x40) &&& s.word (b.base + 0x44)) != 0

/-- Do `f`, and send the block's message if its condition changes from false to true (R571). -/
def State.withIrq (s : State) (b : Block) (f : State → State) : State :=
  let t := f s
  if !s.irqCond b && t.irqCond b then t.msi b.id else t

/-! ## Event flags (R75 to R77, R445) -/

/-- Advance the occurrence count of an event bit, which stops at 255 (R76). -/
def State.countEvt (s : State) (b : Block) (bit : Nat) : State :=
  let f : Fld := ⟨b.base + 0x50 + 4 * (bit / 4), 8 * (bit % 4), 8⟩
  s.put f (satInc 8 (s.get f))

/-- Set a flag and count it, without the trace entry. -/
def State.raiseEvt (s : State) (b : Block) (bit : Nat) : State :=
  s.withIrq b fun s => (s.put ⟨b.base + 0x40, bit, 1⟩ 1).countEvt b bit

/-- Append to an event FIFO of a capacity; the oldest entry goes when it is full (R443).  Answers the FIFO and whether one went. -/
def fifoPush {α : Type} (cap : Nat) (l : List α) (x : α) : List α × Bool :=
  if l.length < cap then (l ++ [x], false) else (l.drop 1 ++ [x], true)

/-- The trace entry that a hardware set writes (R445). -/
def State.traceEvt (s : State) (b : Block) (bit : Nat) : State :=
  if !s.pdOn 3 || !natBit (s.get R.RACK_TRACE_EN_BLOCKS) b.row || (b == .rack && bit == E.RACK_TRACE_LOST) then s
  else
    let (l, lost) := fifoPush 4096 s.rack.trace ⟨BitVec.ofNat 32 s.short, b.typeCode, b.inst, bit⟩
    let s := { s with rack := { s.rack with trace := l } }
    if lost then (s.bumpSat R.RACK_TRACE_LOST_COUNT 1).raiseEvt .rack E.RACK_TRACE_LOST else s

/-- A hardware set of an event bit (R75, R76, R445, R571). -/
def State.evt (s : State) (b : Block) (bit : Nat) : State := (s.raiseEvt b bit).traceEvt b bit

/-- A hardware set, if a condition holds. -/
def State.evtIf (s : State) (c : Bool) (b : Block) (bit : Nat) : State := if c then s.evt b bit else s

/-- A hardware set of several bits, ascending. -/
def State.evts (s : State) (b : Block) (bits : List Nat) : State := bits.foldl (fun s i => s.evt b i) s

/-! ## Ledgers (R90, R450) -/

/-- An item enters: IN and HELD. -/
def Ledger.enter (l : Ledger) (n : Nat) : Ledger :=
  { l with inn := l.inn + BitVec.ofNat 64 n, held := l.held + BitVec.ofNat 64 n }

/-- Held items leave as OUT. -/
def Ledger.leave (l : Ledger) (n : Nat) : Ledger :=
  { l with held := l.held - BitVec.ofNat 64 n, out := l.out + BitVec.ofNat 64 n }

/-- Held items are dropped. -/
def Ledger.lose (l : Ledger) (n : Nat) : Ledger :=
  { l with held := l.held - BitVec.ofNat 64 n, drop := l.drop + BitVec.ofNat 64 n }

/-- Held items are caught by a fence. -/
def Ledger.catch (l : Ledger) (n : Nat) : Ledger :=
  { l with held := l.held - BitVec.ofNat 64 n, fenced := l.fenced + BitVec.ofNat 64 n }

/-- The equation of R450: IN = OUT + DROP + HELD + FENCED, modulo 2^64. -/
def Ledger.balanced (l : Ledger) : Prop := l.inn = l.out + l.drop + l.held + l.fenced

/-- Change a block's ledger. -/
def State.ledger (s : State) (b : Block) (f : Ledger → Ledger) : State := s.setBlk b fun x => { x with led := f x.led }

/-- Items enter a block. -/
def State.ledIn (s : State) (b : Block) (n : Nat) : State := s.ledger b (·.enter n)

/-- Items leave a block. -/
def State.ledOut (s : State) (b : Block) (n : Nat) : State := s.ledger b (·.leave n)

/-- Items of a block are dropped. -/
def State.ledDrop (s : State) (b : Block) (n : Nat) : State := s.ledger b (·.lose n)

/-- Items of a block are caught by a fence. -/
def State.ledFence (s : State) (b : Block) (n : Nat) : State := s.ledger b (·.catch n)

/-- An item passes straight through a block. -/
def State.ledPass (s : State) (b : Block) : State := (s.ledIn b 1).ledOut b 1

/-- An item that reaches a fenced block is acknowledged and counted FENCED (R39). -/
def State.sink (s : State) (b : Block) : State := (s.ledIn b 1).ledFence b 1

/-! ## Drop records (R444) -/

/-- Codes of the cause table of R444. -/
inductive Cause where
  | admitMark | trunc | swait | power | linkdown | toolong | underrun | pause
  | filter | discard | pin | nohop | noroute
  | untagged | badtag | unknownSci | notUsingSa | late | icv | txNosa | oversize
  | nocell | nocredit | fenced | nodeliver | rectmo | park
  deriving DecidableEq, Repr

/-- The code of a cause. -/
def Cause.code : Cause → Nat
  | .admitMark => 1 | .trunc => 2 | .swait => 3 | .power => 4 | .linkdown => 5 | .toolong => 6 | .underrun => 7 | .pause => 8
  | .filter => 9 | .discard => 10 | .pin => 11 | .nohop => 12 | .noroute => 13
  | .untagged => 14 | .badtag => 15 | .unknownSci => 16 | .notUsingSa => 17 | .late => 18 | .icv => 19 | .txNosa => 20
  | .oversize => 21 | .nocell => 22 | .nocredit => 23 | .fenced => 24 | .nodeliver => 25 | .rectmo => 26 | .park => 27

/-- Rack writes a drop record, if the cause's bit in RACK_DROPREC_EN is set. -/
def State.dropRecord (s : State) (b : Block) (c : Cause) (len port owner : Nat) (detail : W32) : State :=
  if !s.pdOn 3 || !natBit (s.get R.RACK_DROPREC_EN_CAUSES) c.code then s
  else
    let (l, lost) := fifoPush 1024 s.rack.drops
      ⟨BitVec.ofNat 32 s.short, b.typeCode, b.inst, c.code, min len 16383, port, owner, detail⟩
    let s := { s with rack := { s.rack with drops := l } }
    if lost then (s.bumpSat R.RACK_DROPREC_LOST_COUNT 1).evt .rack E.RACK_DROPREC_LOST else s

/-- A packet that a block holds is dropped: its ledger and the drop record. -/
def State.dropPacket (s : State) (b : Block) (c : Cause) (len port owner : Nat) (detail : W32) : State :=
  (s.ledDrop b 1).dropRecord b c len port owner detail

/-! ## Commands and results (R59 to R71) -/

/-- Result codes of R71. -/
inductive Code where
  | ok | busyReject | range | state | notFound | full | auth | tampered | late | aborted | exhausted | timeout | fenced | locked
  deriving DecidableEq, Repr

/-- The number of a result code. -/
def Code.num : Code → Nat
  | .ok => 0 | .busyReject => 1 | .range => 2 | .state => 3 | .notFound => 4 | .full => 5 | .auth => 6 | .tampered => 7
  | .late => 8 | .aborted => 9 | .exhausted => 10 | .timeout => 11 | .fenced => 12 | .locked => 13

/-- The common opcodes of R70. -/
def opCommit : Nat := 0xF0
def opAbort : Nat := 0xF1
def opFence : Nat := 0xF2
def opUnfence : Nat := 0xF3
def opSnapshot : Nat := 0xF4
def opNop : Nat := 0xFF

/-- The argument register i of a block. -/
def State.arg (s : State) (b : Block) (i : Nat) : W32 := s.word (b.base + 0x14 + 4 * i)

/-- A field of an argument register. -/
def State.argBits (s : State) (b : Block) (i lo w : Nat) : Nat := bitsGet lo w (s.arg b i)

/-- Is a command being carried out? -/
def State.busy (s : State) (b : Block) : Bool := s.on (R.H_STATUS_BUSY b.base)

/-- A write that reaches a page whose domain is off is counted (R21). -/
def State.offWrite (s : State) : State := { s with offWrites := s.offWrites + 1 }

/-- A command write while busy is recorded in _CMD_REJ (R61). -/
def State.rejectCmd (s : State) (b : Block) (tag : BitVec 8) : State :=
  ((s.put (R.H_CMD_REJ_CODE b.base) Code.busyReject.num).put (R.H_CMD_REJ_TAG b.base) tag.toNat).bumpSat (R.H_CMD_REJ_COUNT b.base) 1

/-- Acceptance: BUSY, SEQ, STALE, PART and PROGRESS in one step (R59). -/
def State.acceptCmd (s : State) (b : Block) (tag : BitVec 8) : State :=
  ((((s.put (R.H_STATUS_BUSY b.base) 1).put (R.H_STATUS_SEQ b.base) tag.toNat).put (R.H_STATUS_STALE b.base) 1).put
    (R.H_STATUS_PART b.base) 0).put (R.H_STATUS_PROGRESS b.base) 0

/-- Completion: the results, BUSY, STALE and the state of R58 in one step (R62). -/
def State.complete (s : State) (b : Block) (c : Code) (data : Nat) (r1 r2 r3 : W32) : State :=
  let tag := s.get (R.H_STATUS_SEQ b.base)
  let s := s.setWord (b.base + 0x24) (BitVec.ofNat 32 (c.num + tag * 2 ^ 8 + (data % 2 ^ 16) * 2 ^ 16))
  let s := ((s.setWord (b.base + 0x28) r1).setWord (b.base + 0x2C) r2).setWord (b.base + 0x30) r3
  let s := (s.put (R.H_STATUS_BUSY b.base) 0).put (R.H_STATUS_STALE b.base) 0
  s.setBlk b fun x => { x with run := none, last := if c = .ok then .ok else .fail }

/-- Completion with a code and no other result. -/
def State.done (s : State) (b : Block) (c : Code) : State := s.complete b c 0 0 0 0

/-- Record a command that goes on. -/
def State.startRun (s : State) (b : Block) (r : RunCmd) : State := s.setBlk b fun x => { x with run := some r }

/-- A running command for a block with the arguments as accepted (R60). -/
def State.mkRun (s : State) (b : Block) (op : Nat) (m : Master) (tag : BitVec 8) (unpaced : Bool) : RunCmd :=
  { op := op, tag := tag, master := m, unpaced := unpaced, args := [s.arg b 0, s.arg b 1, s.arg b 2, s.arg b 3],
    data := [], rows := [] }

/-- Is the master answered?  After BOOT_FAIL only the management SPI is (R96). -/
def State.hears (s : State) (m : Master) : Bool := s.boot != .halted || m == .spi

/-- Does an access of the master reach a register of the page? -/
def State.reaches (s : State) (m : Master) (b : Block) : Bool := s.hears m && s.powered b

/-- A write to a page: none by a master that is not answered (R96), counted where the domain is off (R21). -/
def State.onPage (s : State) (m : Master) (b : Block) (body : State → State) : State :=
  if !s.hears m then s else if !s.powered b then s.offWrite else body s

/-- A write of a common opcode to a page's _CMD (R59, R61, R68). -/
def State.onCommon (s : State) (m : Master) (b : Block) (tag : BitVec 8) (body : State → State) : State :=
  s.onPage m b fun s => if s.busy b then s.rejectCmd b tag else body (s.acceptCmd b tag)

/-- A write of one of the block's own opcodes: in a fenced block it completes with FENCED (R68). -/
def State.onCommand (s : State) (m : Master) (b : Block) (tag : BitVec 8) (body : State → State) : State :=
  s.onCommon m b tag fun s => if s.fenced b then s.done b .fenced else body s

/-- The opcode of the running command, if there is one. -/
def State.runOp (s : State) (b : Block) : Option Nat := (s.blk b).run.map (·.op)

/-- Argument i of a running command. -/
def RunCmd.arg (r : RunCmd) (i : Nat) : W32 := r.args.getD i 0

/-! ## Long operations and partial results (R72 to R74) -/

/-- Is the running command waiting for _PART_ACK? -/
def BlockSt.paced (x : BlockSt) (partSet : Bool) : Bool :=
  match x.run, x.part with
  | some r, some p => partSet && !r.rows.isEmpty && !r.unpaced && !p.acked
  | _, _ => false

/-- Is the block's operation waiting under pacing (R74)? -/
def State.pacing (s : State) (b : Block) : Bool := (s.blk b).paced (s.on (R.H_STATUS_PART b.base))

/-- One chunk of at most `n` rows goes to the window, then _PART_HDR, then PART (R73).  The first word of a row is the number of
units completed when the row was found. -/
def State.publish (s : State) (b : Block) (n : Nat) (r : RunCmd) : State :=
  let rows := r.rows.take n
  let prev := (s.blk b).part
  let num : BitVec 16 := if s.on (R.H_STATUS_PART b.base) then (match prev with | some p => p.chunk + 1 | none => 1) else 1
  let prog := match rows.getLast? with
    | some (w :: _) => w.toNat
    | _ => 0
  let s := s.setBlk b fun x => { x with
    part := some { chunk := num, tag := r.tag, entries := rows.map (·.drop 1), acked := false },
    run := some { r with rows := r.rows.drop n } }
  (s.put (R.H_STATUS_PROGRESS b.base) prog).put (R.H_STATUS_PART b.base) 1

/-- Go on with a long operation: publish chunks while rows are left and pacing allows, then complete with OK and the results that
the command computed, which stand in `data` as total units, RES0.DATA, RES1, RES2, RES3. -/
def State.pump (b : Block) (n : Nat) : Nat → State → State
  | 0, s => s
  | fuel + 1, s =>
    match (s.blk b).run with
    | none => s
    | some r =>
      if r.rows.isEmpty then
        let s := s.put (R.H_STATUS_PROGRESS b.base) (nth r.data 0 0)
        s.complete b .ok (nth r.data 1 0) (BitVec.ofNat 32 (nth r.data 2 0)) (BitVec.ofNat 32 (nth r.data 3 0))
          (BitVec.ofNat 32 (nth r.data 4 0))
      else if s.pacing b then s
      else State.pump b n fuel (s.publish b n r)

/-- Start a long operation whose rows and results are known, and publish what pacing allows. -/
def State.startLong (s : State) (b : Block) (chunk : Nat) (r : RunCmd) (rows : List (List W32)) (data : List Nat) : State :=
  State.pump b chunk (rows.length + 2) (s.startRun b { r with rows := rows, data := data })

/-! ## Fencing (R39 to R45, R619) -/

/-- Fence one group, if it is not fenced already and is not reserved; cause 0 timeout, 1 command (R39, R41). -/
def State.fenceGroup (s : State) (g : Nat) (cause : Nat) : State :=
  if g ≥ 60 || s.groupFenced g then s
  else
    let s := s.setGroupFence g true
    let s := (s.put R.FAB_LAST_FENCE_GROUP g).put R.FAB_LAST_FENCE_CAUSE cause
    let s := s.bumpSat R.FAB_LAST_FENCE_COUNT 1
    s.evt .fab (if cause = 0 then E.FAB_FENCE_TMO else E.FAB_FENCE_SW)

/-- Tokens caught in a block by a fence: those the ledger holds move from HELD, any further ones entered and were caught (R45). -/
def State.catchTokens (s : State) (b : Block) (n : Nat) : State :=
  let have' := min n (s.blk b).led.held.toNat
  ((s.ledIn b (n - have')).ledFence b n)

end Sys2Proof.Machine
end

