-- ==== Sys2Proof/Machine/Bfifo.lean ====
section
/-! DEFINITION. The boundary FIFOs between the fabric and the clocked worlds (R22, R32, R33, R46 to R50, R52). -/

namespace Sys2Proof.Machine

/-- Entries of boundary FIFO i, in the order of FAB_BFIFO_STAT (R46, R52). -/
def bfifoDepth (i : Nat) : Nat := if i < 28 then 256 else if i < 30 then 64 else 512

/-- Bits of an entry. -/
def bfifoWidth (i : Nat) : Nat :=
  if i < 4 then 1024 else if i < 20 then 512 else if i < 24 then 56 else if i < 28 then 32 else if i < 30 then 96 else 256

/-- Does it lead into the fabric? -/
def bfifoInward (i : Nat) : Bool :=
  decide (i < 2) || (decide (4 ≤ i) && decide (i < 12)) || (decide (20 ≤ i) && decide (i < 24)) || i == 28 || i == 30

/-- The receive and the transmit FIFO of a port. -/
def rxBfifo (p : Nat) : Nat := if p < 2 then p else p + 2
def txBfifo (p : Nat) : Nat := if p < 2 then p + 2 else p + 10

/-- Gray code of a pointer, and the pointer of a Gray code of some bits (R47). -/
def gray (n : Nat) : Nat := n ^^^ (n / 2)
def ungray : Nat → Nat → Nat
  | 0, _ => 0
  | bits + 1, g => g ^^^ ungray bits (g / 2)

/-- A clock of both synchronisers: a pointer takes two stages to the other side (R47, R48). -/
def BFifo.clock (f : BFifo) : BFifo := { f with wrSync := (gray f.wr, f.wrSync.1), rdSync := (gray f.rd, f.rdSync.1) }

/-- Entries filled in a FIFO of depth d. -/
def BFifo.level (d : Nat) (f : BFifo) : Nat := (f.wr + 2 * d - f.rd) % (2 * d)

/-- The level as the reading side sees it, and as the writing side does: each by the other's synchronised pointer (R47, R50). -/
def BFifo.readerLevel (d : Nat) (f : BFifo) : Nat := (ungray 11 f.wrSync.2 + 2 * d - f.rd) % (2 * d)
def BFifo.writerLevel (d : Nat) (f : BFifo) : Nat := (f.wr + 2 * d - ungray 11 f.rdSync.2) % (2 * d)

/-- Write n entries of a FIFO that has room for them; `val`: their bits.  Of more than a lap the last remain. -/
def BFifo.write (d n : Nat) (val : Nat → Nat) (f : BFifo) : BFifo :=
  let m := min n d
  { f with
    wr := (f.wr + n) % (2 * d)
    ram := (List.range m).foldl (fun r k => mapSet r ((f.wr + (n - m) + k) % d) (val (n - m + k))) f.ram }

/-- Read n entries of a FIFO that holds them. -/
def BFifo.read (d n : Nat) (f : BFifo) : BFifo := { f with rd := (f.rd + n) % (2 * d) }

/-- Entries that come in and leave again: never more in the FIFO than before. -/
def BFifo.pass (d n : Nat) (val : Nat → Nat) (f : BFifo) : BFifo := ((f.write d n val).read d n).clock.clock

/-- Of n entries a writer has, those it can write while the reader takes `taken`, the last `late` of which it does not see in time (R50). -/
def BFifo.fits (d n taken late : Nat) (f : BFifo) : Nat :=
  let room := d - f.writerLevel d
  if n ≤ room then n else min n (room + (taken - late))

/-- A boundary FIFO. -/
def State.bfifoOf (s : State) (i : Nat) : BFifo := mapGetD s.bfifo i {}

/-- Change it. -/
def State.setBfifo (s : State) (i : Nat) (f : BFifo → BFifo) : State := { s with bfifo := mapSet s.bfifo i (f (s.bfifoOf i)) }

/-- Free values, one for each of n entries. -/
def State.drawEntries (s : State) (n : Nat) : (Nat → Nat) × State := (fun k => Config.free (s.freeCtr + k), { s with freeCtr := s.freeCtr + n })

/-- Entries pass a FIFO on their way (R46). -/
def State.passBfifo (s : State) (i n : Nat) (val : Nat → Nat) : State :=
  s.setBfifo i (BFifo.pass (bfifoDepth i) n fun k => val k % 2 ^ bfifoWidth i)

/-- Entries whose bits no operand gives pass a FIFO: their bits are free values (log entry 55). -/
def State.passFree (s : State) (i n : Nat) : State :=
  let (v, s) := s.drawEntries n
  s.passBfifo i n v

/-- The fabric reads up to n entries of a receive FIFO. -/
def State.drainBfifo (s : State) (i n : Nat) : State :=
  s.setBfifo i fun f => (f.read (bfifoDepth i) (min n (f.level (bfifoDepth i)))).clock.clock

/-- Tokens of n octets in a port's FIFO. -/
def tokensOf (i n : Nat) : Nat := ceilDiv (8 * n) (bfifoWidth i)

/-- n tokens reach a receive FIFO while the fabric reads up to `reads` of what it holds (R32, R33, R50): how many are written; a refused
write is counted.  How many of those reads the writer sees late, at most three, and the tokens' bits are free values (log entry 55). -/
def State.arriveBfifo (s : State) (i n reads : Nat) : State × Nat :=
  let d := bfifoDepth i
  let (x, s) := s.draw
  let f := s.bfifoOf i
  let w := f.fits d n (min reads (f.level d + n)) (x % 4)
  let (v, s) := s.drawEntries w
  let s := s.setBfifo i fun f =>
    let g := f.write d w fun k => v k % 2 ^ bfifoWidth i
    (g.read d (min reads (f.level d + w))).clock.clock
  (if n ≤ w then s else (s.bumpSat (R.FAB_BFIFO_STAT_FULL_CNT i) 1).evt .fab E.FAB_BFIFO_FULL, w)

/-- The fabric reads what the receive FIFOs hold. -/
def State.drainRx (s : State) : State := (List.range 10).foldl (fun s p => s.drainBfifo (rxBfifo p) (bfifoDepth (rxBfifo p))) s

/-- FAB_BFIFO_STAT.LEVEL: the level of a FIFO as its side of the fabric sees it (R50, R52). -/
def State.bfifoLevel (s : State) (i : Nat) : Nat :=
  let f := s.bfifoOf i
  if bfifoInward i then f.readerLevel (bfifoDepth i) else f.writerLevel (bfifoDepth i)

/-- Octets pass a PCIe FIFO, 32 to an entry (R46). -/
def State.passOctets (s : State) (i : Nat) (l : List Octet) : State :=
  s.passBfifo i (ceilDiv l.length 32) fun k => leNum ((slice l (32 * k) 32).map (·.toNat))

end Sys2Proof.Machine
end

