-- ==== Sys2Proof/Machine/Cells.lean ====
section
/-! DEFINITION. Rack's packet cells, pools and credit links (R428 to R442, R447). -/

namespace Sys2Proof.Machine

/-- The pool an allocating owner is charged to (R434). -/
def poolOf (owner : Nat) : Nat :=
  if owner ≤ 5 then 0
  else if 8 ≤ owner ∧ owner ≤ 13 then 1
  else if 16 ≤ owner ∧ owner ≤ 21 then 2
  else if 64 ≤ owner ∧ owner ≤ 127 then 3
  else if 36 ≤ owner ∧ owner ≤ 43 then 4
  else if 48 ≤ owner ∧ owner ≤ 51 then 5
  else if 52 ≤ owner ∧ owner ≤ 55 then 6
  else 7

/-- The reserve of a pool in cells, in force (units of 16). -/
def State.poolReserve (s : State) (p : Nat) : Nat := 16 * s.ap (R.RACK_POOL_CFG_RESERVE p)

/-- The limit of a pool in cells, in force. -/
def State.poolLimit (s : State) (p : Nat) : Nat := 16 * s.ap (R.RACK_POOL_CFG_LIMIT p)

/-- The level of a pool. -/
def State.poolLevel (s : State) (p : Nat) : Nat := nth s.rack.level p 0

/-- Shared cells in use: over all pools, the level above the reserve (R435). -/
def State.sharedUsed (s : State) : Nat :=
  (List.range 8).foldl (fun a p => a + (s.poolLevel p - s.poolReserve p)) 0

/-- Shared cells there are: 131,072 less the reserves (R434). -/
def State.sharedTotal (s : State) : Nat :=
  131072 - (List.range 8).foldl (fun a p => a + s.poolReserve p) 0

/-- How many cells the pool can give (R435, R458): none while a group of Rack is fenced or Rack is off. -/
def State.poolRoom (s : State) (p : Nat) : Nat :=
  if s.fenced .rack || !s.pdOn 3 then 0
  else min s.rack.free (min (s.poolLimit p - s.poolLevel p)
    ((s.poolReserve p - s.poolLevel p) + (s.sharedTotal - s.sharedUsed)))

/-- A pool's level changes; a rise to the mark crosses it, once until the level has fallen below MARK − HYST (R447). -/
def State.setLevel (s : State) (p v : Nat) : State :=
  let old := s.poolLevel p
  let mark := 16 * s.get (R.RACK_POOL_WM_MARK p)
  let hyst := 16 * s.get (R.RACK_POOL_WM_HYST p)
  let armed := nth s.rack.wmArmed p true || decide (v < mark - hyst)
  let cross := armed && decide (old < mark) && decide (mark ≤ v)
  let s := { s with rack := { s.rack with
    level := s.rack.level.set p v
    wmArmed := s.rack.wmArmed.set p (armed && !cross) } }
  s.evtIf cross .rack p

/-- The tag of a cell, if it is not FREE. -/
def State.tag (s : State) (c : Nat) : Option CellTag := mapGet s.rack.tags c

/-- FREE → ALLOCATED for one cell number (R432): tag, running counts, Rack's IN. -/
def State.allocCell (s : State) (owner : Nat) (sop eop : Bool) : State × Nat :=
  let c := mapFirstFree s.rack.tags
  let s := { s with rack := { s.rack with
    tags := mapSet s.rack.tags c { owner := owner, inFlight := false, sop := sop, eop := eop, pool := poolOf owner }
    free := s.rack.free - 1, alloc := s.rack.alloc + 1 } }
  ((s.setLevel (poolOf owner) (s.poolLevel (poolOf owner) + 1)).ledIn .rack 1, c)

/-- Allocate the cells of one packet: `n` left of `total`.  Cell numbers are names: the lowest free ones (log entry 7). -/
def State.allocCells (s : State) (owner total : Nat) : Nat → State × List Nat
  | 0 => (s, [])
  | n + 1 =>
    let (s, c) := s.allocCell owner (n + 1 == total) (n == 0)
    let (s, cs) := State.allocCells s owner total n
    (s, c :: cs)

/-- Cells of a packet of a length. -/
def cellsOf (octets : Nat) : Nat := max 1 (ceilDiv octets 256)

/-- Store octets in the cells of a packet, 256 in each (R22). -/
def State.fillCells (s : State) : List Nat → List Octet → State
  | [], _ => s
  | c :: r, l => match s.tag c with
    | some t => State.fillCells { s with rack := { s.rack with tags := mapSet s.rack.tags c { t with data := l.take 256 } } } r (l.drop 256)
    | none => State.fillCells s r (l.drop 256)

/-- The octets of a packet's cells. -/
def State.cellsData (s : State) (cs : List Nat) : List Octet :=
  cs.flatMap fun c => match s.tag c with
    | some t => t.data ++ List.replicate (256 - t.data.length) 0
    | none => List.replicate 256 0

/-- Allocate a packet's cells if the pool can give them all. -/
def State.allocPacket (s : State) (owner octets : Nat) : Option (State × List Nat) :=
  let n := cellsOf octets
  if n ≤ s.poolRoom (poolOf owner) then some (s.allocCells owner n n) else none

/-- How freed cells are counted in Rack's ledger (R432). -/
inductive Freed where
  | out | drop | fenced
  deriving DecidableEq, Repr

/-- The ledger move of a freed cell. -/
def Freed.count (k : Freed) (s : State) : State :=
  match k with
  | .out => s.ledOut .rack 1
  | .drop => s.ledDrop .rack 1
  | .fenced => s.ledFence .rack 1

/-- ALLOCATED or IN_FLIGHT → FREE for one cell; the free of a quarantined cell by another owner is absorbed (R432, R433). -/
def State.freeCell (s : State) (k : Freed) (c : Nat) (reclaim : Bool) : State :=
  match s.tag c with
  | none => s
  | some t =>
    if t.owner = 254 ∧ !reclaim then s
    else
      let s := { s with rack := { s.rack with
        tags := mapErase s.rack.tags c
        free := s.rack.free + 1
        alloc := if t.inFlight then s.rack.alloc else s.rack.alloc - 1
        flight := if t.inFlight then s.rack.flight - 1 else s.rack.flight } }
      k.count (s.setLevel t.pool (s.poolLevel t.pool - 1))

/-- Free the cells of a packet. -/
def State.freeCells (s : State) (k : Freed) (cs : List Nat) : State := cs.foldl (fun s c => s.freeCell k c false) s

/-- The cells of an owner, ascending; `fl`: also those in flight toward it. -/
def State.cellsOfOwner (s : State) (owner : Nat) (fl : Bool) : List Nat :=
  (s.rack.tags.filter fun p => p.2.owner == owner && (fl || !p.2.inFlight)).map (·.1)

/-- Does Rack count cells under the owner (R42)? -/
def State.ownerHolds (s : State) (owner : Nat) : Bool := !(s.cellsOfOwner owner true).isEmpty

/-- Change the tag of one cell (handover and acceptance, R432): the running counts follow its state. -/
def State.retag (s : State) (c owner : Nat) (inFlight : Bool) : State :=
  match s.tag c with
  | none => s
  | some t =>
    if t.owner = 254 then s
    else { s with rack := { s.rack with
      tags := mapSet s.rack.tags c { t with owner := owner, inFlight := inFlight }
      alloc := s.rack.alloc + (if t.inFlight && !inFlight then 1 else 0) - (if !t.inFlight && inFlight then 1 else 0)
      flight := s.rack.flight + (if !t.inFlight && inFlight then 1 else 0) - (if t.inFlight && !inFlight then 1 else 0) } }

/-- Hand the cells of a packet to a new owner: in flight, then accepted (R432). -/
def State.handCells (s : State) (cs : List Nat) (owner : Nat) : State :=
  cs.foldl (fun s c => (s.retag c owner true).retag c owner false) s

/-- An uncorrectable tag error on a cell that is not FREE: quarantine (R433). -/
def State.quarantine (s : State) (c : Nat) : State :=
  match s.tag c with
  | none => s
  | some t =>
    let s := (s.retag c t.owner false)
    let s := { s with rack := { s.rack with tags := mapSet s.rack.tags c { t with owner := 254, inFlight := false } } }
    (s.bumpSat R.RACK_ECC_UNCORR 1).evt .rack E.RACK_QUAR

/-- Free every cell of an owner as FENCED; answers how many, and how many had SOP set. -/
def State.freeOwner (s : State) (owner : Nat) (fl : Bool) : State × Nat × Nat :=
  let cs := s.cellsOfOwner owner fl
  let sops := (cs.filter fun c => match s.tag c with | some t => t.sop | none => false).length
  (cs.foldl (fun s c => s.freeCell .fenced c true) s, cs.length, sops)

/-- Cells that a fenced sink takes and frees at once (R456): they were allocated and in flight toward the group. -/
def State.sinkCells (s : State) (cs : List Nat) : State :=
  (s.freeCells .fenced cs).bumpSat R.RACK_SINK_FREED_COUNT cs.length

/-! ## Credit links (R438 to R440) -/

/-- C of a link whose credits the device fixes (R439); host links have none until their queue is created. -/
def linkC (l : Nat) : Nat :=
  if l ≤ 1 then 4096 else if l ≤ 9 then 1024 else if 138 ≤ l ∧ l ≤ 141 then 2 else 0

/-- A link. -/
def State.link (s : State) (l : Nat) : Link := mapGetD s.rack.links l { c := linkC l, producer := linkC l }

/-- Change a link. -/
def State.setLink (s : State) (l : Nat) (f : Link → Link) : State :=
  { s with rack := { s.rack with links := mapSet s.rack.links l (f (s.link l)) } }

/-- Has the producer a credit of the link? -/
def State.credit (s : State) (l : Nat) : Bool := decide (0 < (s.link l).producer)

/-- A handover that the consumer accepts: one credit goes from the producer to a slot of the consumer. -/
def State.spend (s : State) (l : Nat) : State :=
  s.setLink l fun k => { k with producer := k.producer - 1, consumer := k.consumer + 1, sent := k.sent + 1, accepted := k.accepted + 1 }

/-- The consumer frees a slot and returns its credit. -/
def State.refund (s : State) (l : Nat) : State :=
  s.setLink l fun k => if k.consumer = 0 then k else { k with consumer := k.consumer - 1, producer := k.producer + 1 }

end Sys2Proof.Machine
end

