-- ==== Sys2Proof/Machine/PeelOps.lean ====
section
/-! DEFINITION. Peel's shared operations (R280 to R319): items, credits, posting, granting, completing. -/

namespace Sys2Proof.Machine

/-! ## Fields of an item (R281, R282) -/

/-- Word `i` of an item. -/
def Item.word (it : Item) (i : Nat) : Nat := (nth it.words i 0).toNat
/-- FLOW. -/
def Item.flow (it : Item) : Nat := natBits (it.word 0) 0 19
/-- PRIO. -/
def Item.prio (it : Item) : Nat := natBits (it.word 0) 20 4
/-- TYPE: 0 radio job, 1 node transaction, 2 key derivation, 3 task. -/
def Item.type (it : Item) : Nat := natBits (it.word 0) 24 2
/-- TARGET: 0–3 chains, 4 derivation unit, 5–8 cores, 9 flood engine, 15 inline. -/
def Item.target (it : Item) : Nat := natBits (it.word 0) 28 4
/-- TAG. -/
def Item.tag (it : Item) : Nat := natBits (it.word 2) 0 8
/-- PRODUCER. -/
def Item.producer (it : Item) : Nat := natBits (it.word 2) 8 4
/-- Radio job: TS. -/
def Item.jobTs (it : Item) : Nat := it.word 4
/-- Radio job: TL. -/
def Item.jobTl (it : Item) : Nat := it.word 5
/-- Radio job: KHZ. -/
def Item.jobKhz (it : Item) : Nat := natBits (it.word 6) 0 22
/-- Radio job: ALLOC. -/
def Item.jobAlloc (it : Item) : Nat := natBits (it.word 6) 22 5
/-- Radio job: BY_ALLOC. -/
def Item.jobByAlloc (it : Item) : Bool := natBit (it.word 6) 27
/-- Radio job: CELL. -/
def Item.jobCell (it : Item) : Nat := natBits (it.word 7) 0 17
/-- Radio job: LEN. -/
def Item.jobLen (it : Item) : Nat := natBits (it.word 7) 17 11
/-- Radio job: PWR. -/
def Item.jobPwr (it : Item) : Nat := natBits (it.word 8) 0 6
/-- Radio job: RETUNE_OK. -/
def Item.jobRetuneOk (it : Item) : Bool := natBit (it.word 8) 6
/-- Radio job: TRIG_START. -/
def Item.jobTrig (it : Item) : Bool := natBit (it.word 8) 7
/-- Radio job: PTYPE. -/
def Item.jobPtype (it : Item) : Nat := natBits (it.word 8) 8 4
/-- Radio job: RATE. -/
def Item.jobRate (it : Item) : Nat := natBits (it.word 8) 12 4
/-- Radio job: SEC. -/
def Item.jobSec (it : Item) : Nat := natBits (it.word 8) 16 3
/-- Radio job: SEC_SET. -/
def Item.jobSecSet (it : Item) : Bool := natBit (it.word 8) 19
/-- Radio job: AIM. -/
def Item.jobAim (it : Item) : Bool := it.type == 0 && natBit (it.word 8) 20
/-- Radio job: ACK_REQ. -/
def Item.jobAckReq (it : Item) : Bool := natBit (it.word 8) 21

/-- The delay list of a target: 0–9, and 10 for target 15. -/
def listOf (target : Nat) : Nat := if target = 15 then 10 else target

/-- Capacity of a ready list (R308). -/
def readyCap (target : Nat) : Nat :=
  if target ≤ 3 then 4096 else if target = 4 then 1024 else if target ≤ 8 then 4096 else if target = 9 then 2048 else 0

/-! ## Looking at the store -/

/-- An item. -/
def State.item (s : State) (id : Nat) : Option Item := mapGet s.peel.items id

/-- Change an item. -/
def State.setItem (s : State) (id : Nat) (f : Item → Item) : State :=
  match s.item id with
  | none => s
  | some it => { s with peel := { s.peel with items := mapSet s.peel.items id (f it) } }

/-- Does an item in this state hold its flow (R289)? -/
def ItemSt.holds : ItemSt → Bool
  | .ready | .aiming | .parked | .taken => true
  | _ => false

/-- Is the item HELD: accepted and not completed? -/
def ItemSt.live : ItemSt → Bool
  | .done => false
  | _ => true

/-- The item in service on a flow. -/
def State.flowHolder (s : State) (f : Nat) : Option Nat :=
  (s.peel.items.find? fun p => p.2.flow == f && p.2.st.holds).map (·.1)

/-- Items outstanding of a producer (R310). -/
def State.outstanding (s : State) (p : Nat) : Nat := (s.peel.items.filter fun x => x.2.producer == p).length

/-- Credit of a producer (R310). -/
def State.peelCredit (s : State) (p : Nat) : Nat := s.get (R.PEEL_QUOTA_ITEMS p) - s.outstanding p

/-- Is the target paused (R297)? -/
def State.pausedTarget (s : State) (k : Nat) : Bool :=
  natBit (s.get R.PEEL_PAUSE_TARGETS) k || natBit (s.get R.PEEL_PAUSE_FWU) k

/-- Can Peel grant and dispatch at all (R306, R112)? -/
def State.peelRuns (s : State) : Bool := s.pdOn 4 && !s.fenced .peel && !s.entering

/-- Node flows are granted only once the directory is rebuilt (R19). -/
def State.gated (s : State) (it : Item) : Bool := decide (it.flow < 262144) && !s.boot.hasDirectory

/-- Items in the ready list of a target. -/
def State.readyItems (s : State) (k : Nat) : List (Nat × Item) :=
  s.peel.items.filter fun p => p.2.target == k && p.2.st == .ready

/-- Has the ready list room? -/
def State.readyRoom (s : State) (k : Nat) : Bool := decide ((s.readyItems k).length < readyCap k)

/-- Is item `a` to be served before item `b` by due time, then acceptance (R288, R291)? -/
def Item.before (a b : Item) : Bool := decide (a.due < b.due) || (a.due == b.due && decide (a.seq < b.seq))

/-- The first of a list of items by an order. -/
def firstBy (lt : Item → Item → Bool) : List (Nat × Item) → Option (Nat × Item)
  | [] => none
  | x :: r => match firstBy lt r with
    | none => some x
    | some y => if lt y.2 x.2 then some y else some x

/-- Items in the delay list k, in DELAY or PARKED. -/
def State.delayItems (s : State) (k : Nat) : List (Nat × Item) :=
  s.peel.items.filter fun p => listOf p.2.target == k && (p.2.st == .delay || p.2.st == .parked)

/-- The head of delay list k among the items that may be granted. -/
def State.delayHead (s : State) (k : Nat) : Option (Nat × Item) :=
  firstBy Item.before ((s.delayItems k).filter fun p => !s.gated p.2)

/-- The head of a target's ready list: highest priority, then order of entry (R283). -/
def State.readyHead (s : State) (k : Nat) : Option (Nat × Item) :=
  firstBy (fun a b => decide (a.prio < b.prio) || (a.prio == b.prio && decide (a.rseq < b.rseq))) (s.readyItems k)

/-- The earliest due time a chain's lists hold (R300), as a tick count. -/
def State.earliestDue (s : State) (k : Nat) : Option Nat :=
  (firstBy Item.before (s.delayItems k ++ s.readyItems k)).map (·.2.due)

/-- The sensor tick before it wraps. -/
def State.tickCount (s : State) : Nat := ticksOf s.tb.L

/-! ## Posting (R280, R285, R286, R290, R309 to R312) -/

/-- The pairing of type and target (R280). -/
def targetOk (type target : Nat) : Bool :=
  match type with
  | 0 => decide (target ≤ 3)
  | 1 => decide (5 ≤ target ∧ target ≤ 8) || target == 15
  | 2 => target == 4
  | _ => decide (5 ≤ target ∧ target ≤ 9)

/-- May this producer post these words (R280, R282, R285, R286)?  Producers 0 to 5 are the masters. -/
def postOk (p : Nat) (it : Item) : Bool :=
  decide (it.flow < 266240) && targetOk it.type it.target && (it.target != 15 || p == 6)
  && !(decide (p ≤ 5) && decide (262144 + 3840 ≤ it.flow) && decide (it.flow < 262144 + 4096))
  && !(it.type == 0 && it.jobRate == 15 && !(decide (5 ≤ it.jobPtype) && decide (it.jobPtype ≤ 7)))

/-- The due time at acceptance as a tick count (R290). -/
def State.dueTick (s : State) (due : Nat) : Nat :=
  let n := s.tickCount
  if (n + 2 ^ 32 - due) % 2 ^ 32 < 2 ^ s.get R.PEEL_CFG_PAST_LOG2 then n else n + (due + 2 ^ 32 - n % 2 ^ 32) % 2 ^ 32

/-- Enter an accepted item into its delay list: the credit, IN, and CREDIT_ZERO when the last credit went.  IDs are names: the
lowest that no item has (log entry 7). -/
def State.acceptItem (s : State) (p : Nat) (words : List W32) (cells : List Nat) (octets : Nat) : State × Nat :=
  let id := mapFirstFree s.peel.items
  let words := words.set 2 (BitVec.ofNat 32 (natBits (nth words 2 0).toNat 0 8 + p * 2 ^ 8))
  let it : Item := { words := words, due := s.dueTick (nth words 1 0).toNat, seq := s.peel.seq, st := .delay, cells := cells, octets := octets }
  let s := { s with peel := { s.peel with items := mapSet s.peel.items id it, seq := s.peel.seq + 1 } }
  let s := s.ledIn .peel 1
  (s.evtIf (s.peelCredit p == 0) .peel E.PEEL_CREDIT_ZERO, id)

/-- What a post by a hardware producer comes to: FENCED while Peel is fenced (R306), no effect while it has no credit (R311). -/
inductive PostResult where
  | ok (id : Nat)
  | fenced
  | noCredit
  deriving DecidableEq, Repr

/-- Post by a hardware producer (6 MAC and DIR, 7 BCN, 8 FLOOD), with no frame in packet cells. -/
def State.hwPost (s : State) (p : Nat) (words : List W32) : State × PostResult :=
  if s.fenced .peel then (s, .fenced)
  else if s.peelCredit p = 0 then (s, .noCredit)
  else
    let (s, id) := s.acceptItem p words [] 0
    (s, .ok id)

/-- The stage group of a hardware producer, which owns the cells of the frames it builds (R430). -/
def hwOwner (p : Nat) : Nat := if p = 7 then 49 else if p = 8 then 50 else 48

/-- Post a radio job with the frame its producer built: the frame's cells are allocated, take its octets and pass to Peel (R431, R436); a
beacon's block stays beside them until its time is known (R261). -/
def State.hwTry (s : State) (x : HwPost) : State × PostResult :=
  if s.fenced .peel then (s, .fenced)
  else if s.peelCredit x.producer = 0 then (s, .noCredit)
  else if x.octets = 0 then s.hwPost x.producer x.words
  else match s.allocPacket (hwOwner x.producer) x.octets with
    | none => (s, .noCredit)
    | some (s, cs) =>
      let w7 := BitVec.ofNat 32 (cs.headD 0 + x.octets * 2 ^ 17)
      let (s, id) := ((s.fillCells cs x.frame).handCells cs 28).acceptItem x.producer (x.words.set 7 w7) cs x.octets
      (s.setItem id fun it => { it with block := if x.producer = 7 then x.frame else [] }, .ok id)

/-- The first three words of an item (R281). -/
def itemHead (flow prio type target due tag : Nat) : List W32 :=
  [BitVec.ofNat 32 (flow + prio * 2 ^ 20 + type * 2 ^ 24 + target * 2 ^ 28), BitVec.ofNat 32 due, BitVec.ofNat 32 tag, 0]

/-- The words of a radio job (R282). -/
def radioWords (flow prio chain due ts tl alloc len pwr ptype rate secWord : Nat) : List W32 :=
  itemHead flow prio 0 chain due 0
  ++ [BitVec.ofNat 32 ts, BitVec.ofNat 32 tl, BitVec.ofNat 32 (alloc * 2 ^ 22 + 2 ^ 27), BitVec.ofNat 32 (len * 2 ^ 17),
      BitVec.ofNat 32 (pwr + ptype * 2 ^ 8 + rate * 2 ^ 12 + secWord * 2 ^ 16), 0, 0, 0, 0, 0, 0, 0]

/-! ## Completion (R313, R319, R431) -/

/-- A task of FLOOD (R280): its timer for a relay names the message, that for a gap the block; the layout of its body is the model's (log
entry 21). -/
def floodTaskWords (flow prio due w4 gap : Nat) : List W32 :=
  itemHead flow prio 3 9 due 0 ++ [BitVec.ofNat 32 w4, BitVec.ofNat 32 gap, 0, 0, 0, 0, 0, 0, 0, 0, 0, 0]

/-- The relay that a timer of FLOOD is for ends unsent (R276). -/
def State.endRelay (s : State) (w4 : Nat) (c : Code) : State :=
  let mine (e : SeenEntry) : Bool := e.origin + e.seq * 2 ^ 16 == w4 && e.pending
  if s.flood.seen.any mine then
    let s := { s with flood := { s.flood with seen := s.flood.seen.map fun e => if mine e then { e with pending := false } else e } }
    if c = .fenced then s.ledFence .flood 1 else s.ledDrop .flood 1
  else s

/-- A timer of FLOOD does not run out: its relay ends, or its distribution. -/
def State.timerEnds (s : State) (w4 gap : Nat) (c : Code) : State :=
  if gap = 0 then s.endRelay w4 .aborted
  else if (s.blk .flood).run.isSome then s.done .flood c
  else s

/-- What the poster of a hardware item does with its result: BCN counts beacons (R276, R278), the MAC ends an Enh-Ack (R253), FLOOD ends
the relay or the distribution whose timer did not run out. -/
def State.hwReturn (s : State) (it : Item) (c : Code) : State :=
  match it.producer with
  | 7 =>
    if c = .ok then (((s.ledOut .bcn 1).bumpSat R.BCN_SENT_CNT_COUNT 1).evt .bcn E.BCN_SENT) else s.ledDrop .bcn 1
  | 6 =>
    if it.type = 0 then
      let s := if c = .ok then s.ledOut .mac 1 else s.ledDrop .mac 1
      if c = .late then (s.bumpSat R.MAC_ACK_LATE_CNT_COUNT 1).evt .mac E.MAC_ACK_LATE else s
    else s
  | 8 =>
    if it.type ≠ 3 ∨ c = .ok then s else s.timerEnds (it.word 4) (it.word 5) c
  | _ => s

/-- A job with AIM ends (R276): the MAC's ledger. -/
def State.endAim (s : State) (id : Nat) (c : Code) : State :=
  match mapGet s.mac.aims id with
  | none => s
  | some _ =>
    let s := { s with mac := { s.mac with aims := mapErase s.mac.aims id } }
    match c with
    | .ok => s.ledOut .mac 1
    | .fenced => s.ledFence .mac 1
    | _ => s.ledDrop .mac 1

/-- An item completes: its flow is free, its cells are freed, the ledger counts it, and its record goes to the poster. -/
def State.completeItem (s : State) (id : Nat) (c : Code) (stamp : Stamp) : State :=
  match s.item id with
  | none => s
  | some it =>
    if it.st = .done then s
    else
      let s := s.freeCells (if c = .ok then .out else .drop) it.cells
      let s := match c with
        | .ok => s.ledOut .peel 1
        | .fenced => s.ledFence .peel 1
        | _ => s.ledDrop .peel 1
      let s := if c = .aborted then s.bumpSat R.PEEL_CANCEL_CNT_COUNT 1 else s
      let s := s.endAim id c
      if it.producer ≤ 5 then
        let r : DoneRec := { id := id, result := c.num, type := it.type, tag := it.tag, stamp := stamp, cookie := it.words.drop 12 }
        let s := s.setItem id fun x => { x with st := .done, cells := [] }
        { s with peel := { s.peel with done := mapModify s.peel.done it.producer [] (· ++ [r]) } }
      else
        let s := { s with peel := { s.peel with items := mapErase s.peel.items id } }
        s.hwReturn it c

/-! ## Granting (R287 to R294, R303, R315) -/

/-- Is the chain OFF, or its domain off (R303)? -/
def State.chainOff (s : State) (n : Nat) : Bool := !s.pdOn (if n < 2 then 10 else 11) || s.get (R.RF_STATE_STATE n) == 0

/-- Into the ready list, behind those of its priority. -/
def State.makeReady (s : State) (id : Nat) : State :=
  let s := s.setItem id fun it => { it with st := .ready, rseq := s.peel.seq }
  { s with peel := { s.peel with seq := s.peel.seq + 1 } }

/-- A grant more than LATE_MARK after the due time is counted (R293). -/
def State.countLate (s : State) (it : Item) : State :=
  if it.due + s.get R.PEEL_LATE_MARK_ST < s.tickCount then (s.bumpSat R.PEEL_LATE_CNT_COUNT 1).evt .peel E.PEEL_LATE else s

/-- A job whose chain is OFF completes with STATE when it would be granted (R303). -/
def State.offItem (s : State) (id : Nat) : State :=
  ((s.bumpSat R.PEEL_OFF_CNT_COUNT 1).evt .peel E.PEEL_TARGET_OFF).completeItem id .state 0

/-- Does the grant of this item need a place in a ready list?  Inline items and jobs to be aimed do not. -/
def Item.needsRoom (it : Item) : Bool := it.target != 15 && !it.jobAim

/-- Does the grant wait behind one that found the ready list full (R294)?  Those of its delay list do, and what needs a place itself. -/
def Item.behind (it : Item) : Bool := it.needsRoom || it.st == .delay || it.st == .parked

/-- Grant a due item whose flow is free. -/
def State.grant (s : State) (id : Nat) : State :=
  match s.item id with
  | none => s
  | some it =>
    if it.type = 0 ∧ s.chainOff it.target then s.offItem id
    else
    let s := s.countLate it
    if it.target = 15 then (s.setItem id fun x => { x with st := .taken }).bump (R.PEEL_LIST_TAKEN_COUNT 10) 1
    else if it.jobAim then s.setItem id fun x => { x with st := .aiming }
    else s.makeReady id

/-- Would an earlier item of the same flow still waiting be overtaken (R288)? -/
def State.overtakes (s : State) (it : Item) : Bool :=
  s.peel.items.any fun p => p.2.flow == it.flow && (p.2.st == .delay || p.2.st == .flowq) && p.2.before it

/-- Does the item wait for its flow or its due time, with nothing but room in its ready list in the way of its grant? -/
def State.mayGrant (s : State) (it : Item) : Bool :=
  (it.st == .delay || it.st == .flowq)
  && decide (it.due ≤ s.tickCount) && !s.gated it && !(it.target != 15 && s.pausedTarget it.target)
  && (s.flowHolder it.flow).isNone && !s.overtakes it

/-- Has a PARKED job's time come, with nothing but room in the way (R298)? -/
def State.mayUnpark (s : State) (it : Item) : Bool :=
  it.st == .parked && decide (it.due ≤ s.tickCount) && !s.pausedTarget it.target

/-- Is there room for the grant: a place in the ready list, where it needs one? -/
def State.roomFor (s : State) (it : Item) : Bool :=
  if it.st = .parked then s.chainOff it.target || s.readyRoom it.target else !it.needsRoom || s.readyRoom it.target

/-- A PARKED job's time has come: to the ready list, or ended with STATE when its chain is OFF (R298, R303). -/
def State.unpark (s : State) (id : Nat) : State :=
  match s.item id with
  | none => s
  | some it => if s.chainOff it.target then s.offItem id else s.makeReady id

/-- A grant found its ready list full (R294). -/
def State.rdyWait (s : State) (target : Nat) : State :=
  if s.peel.blocked.contains target then s
  else
    let s := { s with peel := { s.peel with blocked := s.peel.blocked ++ [target] } }
    (s.bumpSat R.PEEL_RDY_WAIT_CNT_COUNT 1).evt .peel E.PEEL_RDY_WAIT

/-- Grant the item, or let its grant wait for room. -/
def State.grantOrWait (s : State) (id : Nat) (it : Item) : State :=
  if s.roomFor it then (if it.st = .parked then s.unpark id else s.grant id) else s.rdyWait it.target

/-- Grant what is due, can be granted and is among `ok`, in due order across all lists (R292, R297, R306). -/
def State.grantAll (ok : Item → Bool) : Nat → State → State
  | 0, s => s
  | fuel + 1, s =>
    if !s.peelRuns then s
    else
      match firstBy Item.before (s.peel.items.filter fun p =>
          ok p.2 && (s.mayGrant p.2 || s.mayUnpark p.2) && !(s.peel.blocked.contains p.2.target && p.2.behind)) with
      | none => s
      | some (id, it) => State.grantAll ok fuel (s.grantOrWait id it)

/-- Grant all that can be granted: after a pause, a fence, a step, the rebuild. -/
def State.regrant (s : State) : State := State.grantAll (fun _ => true) (2 * s.peel.items.length + 12) s

/-- Grant what comes before an item in due order (R292). -/
def State.grantBefore (s : State) (it : Item) : State := State.grantAll (fun x => x.before it) (2 * s.peel.items.length + 12) s

/-- A flow was released: the item that waits for it first is granted (R287, R315). -/
def State.grantFlow (s : State) (f : Nat) : State :=
  if !s.peelRuns then s
  else match firstBy Item.before (s.peel.items.filter fun p => p.2.flow == f && p.2.st == .flowq && s.mayGrant p.2) with
    | none => s
    | some (id, it) => s.grantOrWait id it

/-- A post that a fence of Peel refuses ends (R623): its producer counts it as DROP. -/
def State.hwRefused (s : State) (p : Nat) : State :=
  if p = 7 then s.ledDrop .bcn 1 else if p = 6 then s.ledDrop .mac 1 else s

/-- A timer of FLOOD that a fence of Peel refuses ends what it is for. -/
def State.timerRefused (s : State) (x : HwPost) : State :=
  if x.producer = 8 ∧ x.octets = 0 then s.timerEnds (nth x.words 4 0).toNat (nth x.words 5 0).toNat .fenced else s

/-- ORIGINATE or INJECT completes when no post of FLOOD waits any more (R274, R311). -/
def State.floodPosted (s : State) : State :=
  match (s.blk .flood).run with
  | none => s
  | some r =>
    if (r.op = 1 ∨ r.op = 2) ∧ !(s.peel.hwWait.any (·.cmd)) then
      s.complete .flood .ok 0 (if r.op = 1 then BitVec.ofNat 32 (nth r.data 0 0) else 0) 0 0
    else s

/-- Posts that wait are made, each producer's in order, as far as credit and cells go. -/
def State.hwDrain (s : State) : State :=
  (s.peel.hwWait.foldl (fun s x =>
    if (s.peel.hwWait.find? fun y => y.producer == x.producer) != some x then s
    else match s.hwTry x with
      | (s, .ok _) => { s with peel := { s.peel with hwWait := s.peel.hwWait.erase x } }
      | (s, .fenced) => ({ s with peel := { s.peel with hwWait := s.peel.hwWait.erase x } }).hwRefused x.producer |>.timerRefused x
      | _ => s) s).floodPosted

/-- Post a radio job now, or hold it until there is credit and room (R311, R436). -/
def State.hwSend (s : State) (x : HwPost) : State :=
  if s.peel.hwWait.any fun y => y.producer == x.producer then { s with peel := { s.peel with hwWait := s.peel.hwWait ++ [x] } }
  else match s.hwTry x with
    | (s, .ok _) => s
    | (s, .fenced) => (s.hwRefused x.producer).timerRefused x
    | (s, .noCredit) => { s with peel := { s.peel with hwWait := s.peel.hwWait ++ [x] } }

/-- The words of the inline item of a received frame's node transaction (R255, R280): due at once. -/
def State.txnWords (s : State) (handle : Nat) : List W32 := itemHead handle 0 1 15 s.st 0 ++ List.replicate 12 0

/-- The handle a directory work item is for. -/
def DirWork.handle : DirWork → Nat
  | .update h _ _ => h
  | .delete h => h
  | .restore h => h

/-- The words of the inline item of the directory engine (R280, R333): due at once. -/
def State.dirWords (s : State) (handle : Nat) : List W32 := itemHead handle 0 1 15 s.st 0 ++ List.replicate 12 0

/-- Post the inline item of the directory's command in progress, or wait for credit; a fence ends the command (R333). -/
def State.dirPost (s : State) (w : DirWork) : State :=
  match s.hwPost 6 (s.dirWords w.handle) with
  | (s, .ok id) => { s with dir := { s.dir with work := mapSet s.dir.work id w, cmdItem := some id, waitWork := none } }
  | (s, .fenced) => { s with dir := { s.dir with waitWork := none } }.done .dir .fenced
  | (s, .noCredit) => { s with dir := { s.dir with waitWork := some w } }

/-- A directory command that waits for credit tries again. -/
def State.dirDrain (s : State) : State :=
  match s.dir.waitWork with
  | none => s
  | some w => s.dirPost w

/-- Node transactions of received frames that wait for credit are posted as far as it goes (R251, R311). -/
def State.txnDrain (s : State) : State :=
  s.mac.txnWait.foldl (fun s x =>
    match mapGet (mapGetD s.wb x.1 {}).recs x.2 with
    | none => { s with mac := { s.mac with txnWait := s.mac.txnWait.filter (· != x) } }
    | some r =>
      match s.hwPost 6 (s.txnWords (r.handle.getD 0)) with
      | (s, .ok id) =>
        { s with
          mac := { s.mac with txnWait := s.mac.txnWait.filter (· != x) }
          wb := mapModify s.wb x.1 {} fun w => { w with recs := mapSet w.recs x.2 { r with item := some id } } }
      | (s, _) => s) s.dirDrain

/-- An item completes; what waited for its flow is granted, and what waited for its producer's credit is posted. -/
def State.finishItem (s : State) (id : Nat) (c : Code) (stamp : Stamp) : State :=
  match s.item id with
  | none => s
  | some it => (((s.completeItem id c stamp).grantFlow it.flow).hwDrain).txnDrain

/-- Items in the ready list of a chain that goes out of service complete with STATE (R112, R303). -/
def State.flushReady (s : State) (k : Nat) : State :=
  (s.readyItems k).foldl (fun s p =>
    ((s.bumpSat R.PEEL_OFF_CNT_COUNT 1).evt .peel E.PEEL_TARGET_OFF).finishItem p.1 .state 0) s

/-- Is the stage group of a target fenced: that of the derivation unit, of a control core, of the flood engine (R304)? -/
def State.targetFenced (s : State) (k : Nat) : Bool :=
  (k == 4 && s.groupFenced 56) || (decide (5 ≤ k) && decide (k ≤ 8) && s.groupFenced (47 + k)) || (k == 9 && s.groupFenced 50)

/-- Take the item at the head of a target's ready list (R283, R284, R297, R304, R306). -/
def State.takeReady (s : State) (k : Nat) : Option (State × Nat × Item) :=
  if !s.peelRuns || s.pausedTarget k || s.targetFenced k then none
  else match s.readyHead k with
    | none => none
    | some (id, it) =>
      let s := s.setItem id fun x => { x with st := .taken }
      some ((s.bump (R.PEEL_LIST_TAKEN_COUNT k) 1), id, { it with st := .taken })

end Sys2Proof.Machine
end

