-- ==== Sys2Proof/Machine/DirOps.lean ====
section
/-! DEFINITION. The node directory and RET's view of it (R104 to R107, R324 to R335, R621): node entries and their fields, checkpoint
records and dirtiness, the index, lookups. -/

namespace Sys2Proof.Machine

/-! ## Node entries (R326) -/

namespace N

def EUI : NodeFld := ⟨0, 64⟩
def FC_OUT : NodeFld := ⟨64, 32⟩
def FC_IN : NodeFld := ⟨96, 32⟩
def MAP : NodeFld := ⟨128, 64⟩
def LS_FRAC : NodeFld := ⟨192, 8⟩
def LAST_SAMPLE : NodeFld := ⟨200, 32⟩
def UNC : NodeFld := ⟨232, 16⟩
def PERIOD : NodeFld := ⟨248, 10⟩
def DRIFT : NodeFld := ⟨258, 12⟩
def STEPGEN : NodeFld := ⟨270, 4⟩
def ATTEMPT : NodeFld := ⟨274, 2⟩
def STATE : NodeFld := ⟨276, 2⟩
def CRATE : NodeFld := ⟨278, 2⟩
def SHORT : NodeFld := ⟨280, 16⟩
def KEY_EPOCH : NodeFld := ⟨296, 8⟩
def LAST_HEARD : NodeFld := ⟨304, 32⟩
def PARENT : NodeFld := ⟨336, 18⟩
def CHAIN : NodeFld := ⟨354, 2⟩
def ALLOC : NodeFld := ⟨356, 5⟩
def RSSI : NodeFld := ⟨361, 8⟩

end N

/-- A field of a node entry. -/
def NodeEntry.get (e : NodeEntry) (f : NodeFld) : Nat := natBits e.toNat f.lo f.w

/-- A node entry with a field replaced. -/
def NodeEntry.put (e : NodeEntry) (f : NodeFld) (x : Nat) : NodeEntry :=
  (e &&& ~~~(BitVec.ofNat 384 (2 ^ f.w - 1) <<< f.lo)) ||| (BitVec.ofNat 384 (x % 2 ^ f.w) <<< f.lo)

/-- Word i of a node entry (R354). -/
def NodeEntry.word (e : NodeEntry) (i : Nat) : W32 := BitVec.ofNat 32 (natBits e.toNat (32 * i) 32)

/-- A node entry with a word replaced. -/
def NodeEntry.setWord (e : NodeEntry) (i : Nat) (w : W32) : NodeEntry := e.put ⟨32 * i, 32⟩ w.toNat

/-- The entry of a handle; a row whose EUI is 0 holds no node. -/
def State.node (s : State) (h : Nat) : Option NodeEntry :=
  match mapGet s.dir.nodes h with
  | none => none
  | some e => if e.get N.EUI = 0 then none else some e

/-! ## The checkpoint (R104 to R107) -/

/-- A checkpoint record from an entry and a counter ceiling (R104). -/
def recordOf (e : NodeEntry) (ceil : Nat) : BitVec 192 :=
  BitVec.ofNat 192 (e.get N.EUI + (ceil % 2 ^ 32) * 2 ^ 64 + e.get N.FC_IN * 2 ^ 96 + e.get N.LAST_SAMPLE * 2 ^ 128
    + e.get N.PERIOD * 2 ^ 160 + e.get N.DRIFT * 2 ^ 170 + e.get N.KEY_EPOCH * 2 ^ 182 + e.get N.STATE * 2 ^ 190)

/-- The durable counter ceiling of a handle: that of its record as written. -/
def State.ceiling (s : State) (h : Nat) : Nat := natBits ((mapGetD s.ret.records h 0).toNat) 64 32

/-- The fields of an entry that its record repeats, apart from the ceiling. -/
def recordFields (e : NodeEntry) : List Nat :=
  [e.get N.EUI, e.get N.FC_IN, e.get N.LAST_SAMPLE, e.get N.PERIOD, e.get N.DRIFT, e.get N.KEY_EPOCH, e.get N.STATE]

/-- A record becomes dirty (R105): RET counts it in once and notes when. -/
def State.markDirty (s : State) (h : Nat) : State :=
  if (mapGet s.ret.dirty h).isSome then s
  else
    let s := { s with ret := { s.ret with dirty := mapSet s.ret.dirty h s.lin } }
    (s.ledIn .ret 1).put R.RET_CKPT_STAT_DIRTY s.ret.dirty.length

/-- Half of the counter reserve (R106). -/
def State.halfReserve (s : State) : Nat := 2 ^ s.get R.RET_FC_RESERVE_LOG2 / 2

/-- Has the outgoing counter passed half the reserve, so that a new ceiling is due (R106)? -/
def State.ceilingDue (s : State) (h : Nat) (e : NodeEntry) : Bool :=
  decide (s.ceiling h < e.get N.FC_OUT + s.halfReserve)

/-- Rows read or written come to the front of the cache of 65,536 rows (R621); the rows that SEARCH and NEXT pass over do not (DESIGN CHOICE,
log entry 72). -/
def State.cacheRows (s : State) (rows : List Nat) : State :=
  { s with dir := { s.dir with cache := rows.foldl (fun c r => (r :: c.filter (· != r)).take 65536) s.dir.cache } }

/-- Write a node's entry; the record is dirty if a field it repeats changed or a new ceiling is due. -/
def State.setNode (s : State) (h : Nat) (e : NodeEntry) : State :=
  let old := mapGetD s.dir.nodes h 0
  let s := ({ s with dir := { s.dir with nodes := mapSet s.dir.nodes h e } }).cacheRows [h]
  if recordFields old ≠ recordFields e ∨ (e.get N.EUI ≠ 0 ∧ s.ceilingDue h e) then s.markDirty h else s

/-- Empty a row: zeros into the entry's EUI (R334); the handle is free once the empty record is written. -/
def State.clearNode (s : State) (h : Nat) : State :=
  (({ s with dir := { s.dir with nodes := mapErase s.dir.nodes h } }).cacheRows [h]).markDirty h

/-- Can the handle be given to a new node: its row and its record as written are empty, and no empty record is owed (R334)? -/
def State.handleFree (s : State) (h : Nat) : Bool :=
  decide (h < 262144) && (s.node h).isNone && (mapGet s.ret.dirty h).isNone

/-! ## The index (R328 to R332, R621) -/

/-- The first bucket of an EUI. -/
def State.h1 (s : State) (eui : BitVec 64) : Nat := (Config.dirHash1 s.dir.key eui).toNat

/-- The second bucket: h1 XOR 1 where the two coincide. -/
def State.h2 (s : State) (eui : BitVec 64) : Nat :=
  if Config.dirHash2 s.dir.key eui = Config.dirHash1 s.dir.key eui then (Config.dirHash1 s.dir.key eui ^^^ 1).toNat
  else (Config.dirHash2 s.dir.key eui).toNat

/-- The four ways of a bucket. -/
def State.bucket (s : State) (k : Nat) : List (Option IndexWord) := mapGetD s.dir.buckets k [none, none, none, none]

/-- Write a way; the bucket's move generation advances when a relocation writes it (R328, R330). -/
def State.setWay (s : State) (k w : Nat) (x : Option IndexWord) (moved : Bool) : State :=
  let s := s.cacheRows [k]
  { s with dir := { s.dir with
    buckets := mapSet s.dir.buckets k ((s.bucket k).set w x)
    mg := if moved then mapSet s.dir.mg k ((mapGetD s.dir.mg k 0 + 1) % 256) else s.dir.mg } }

/-- Ways whose fingerprint matches, in order of preference: the handles they name. -/
def State.candidates (s : State) (eui : BitVec 64) : List Nat :=
  ((s.bucket (s.h1 eui) ++ s.bucket (s.h2 eui)).filterMap id).filterMap fun w =>
    if w.tag = (Config.dirTag eui).toNat then some w.handle else none

/-- The handle the index gives for an EUI. -/
def State.findEui (s : State) (eui : BitVec 64) : Option Nat :=
  (s.candidates eui).find? fun h => match s.node h with
    | some e => e.get N.EUI == eui.toNat
    | none => false

/-- The rows a lookup reads: both buckets and the entries compared, up to the match. -/
def State.lookupRows (s : State) (eui : BitVec 64) : List Nat :=
  let cs := s.candidates eui
  let upTo := match s.findEui eui with
    | some h => cs.takeWhile (· != h) ++ [h]
    | none => cs
  s.h1 eui :: s.h2 eui :: upTo

/-- A lookup by EUI (R332, R356, R621): `moves` times the reread of the move generations found a change; a fourth takes the lock.
Answers the handle and the retries made. -/
def State.lookupEui (s : State) (eui : BitVec 64) (moves : Nat) : State × Option Nat × Nat :=
  let found := s.findEui eui
  let retries := min moves 3
  let s := s.bumpSat R.DIR_RETRY_CNT_COUNT retries
  let s := if moves > 3 then (s.bumpSat R.DIR_LOCK_CNT_COUNT 1).evt .dir E.DIR_LOCK else s
  let rows := s.lookupRows eui
  let s := if rows.all fun r => s.dir.cache.contains r then s.bump R.DIR_CACHE_HIT_COUNT 1 else s.bump R.DIR_CACHE_MISS_COUNT 1
  let s := (s.cacheRows rows).ledIn .dir 1
  ((if found.isSome then s.ledOut .dir 1 else s.ledDrop .dir 1), found, retries)

/-- A free way of a bucket. -/
def State.freeWay (s : State) (k : Nat) : Option Nat := (s.bucket k).findIdx? Option.isNone

/-- The other bucket of the node that an index word names. -/
def State.otherBucket (s : State) (k : Nat) (w : IndexWord) : Nat :=
  match s.node w.handle with
  | none => k
  | some e =>
    let eui := BitVec.ofNat 64 (e.get N.EUI)
    if s.h1 eui = k then s.h2 eui else s.h1 eui

/-- One level of the breadth-first search (R330): paths, each a list of (bucket, way) whose words are to move, latest first, are
lengthened by every way of the bucket they end in. -/
def State.growPaths (s : State) (paths : List (Nat × List (Nat × Nat))) : List (Nat × List (Nat × Nat)) :=
  paths.flatMap fun p => (List.range 4).filterMap fun w =>
    match nth (s.bucket p.1) w none with
    | some x => some (s.otherBucket p.1 x, (p.1, w) :: p.2)
    | none => none

/-- Search for a path of at most `fuel` relocations that ends in a bucket with a free way. -/
def State.findPath (s : State) : Nat → List (Nat × List (Nat × Nat)) → Option (Nat × List (Nat × Nat))
  | 0, _ => none
  | fuel + 1, paths =>
    let next := s.growPaths paths
    match next.find? fun p => (s.freeWay p.1).isSome with
    | some p => some p
    | none => s.findPath fuel next

/-- Carry out the relocations of a path, from its end back to its start (R330). -/
def State.relocate (s : State) (dest : Nat) : List (Nat × Nat) → State
  | [] => s
  | (k, w) :: r =>
    match s.freeWay dest with
    | none => s
    | some fw =>
      let s := (s.setWay dest fw (nth (s.bucket k) w none) true).setWay k w none true
      State.relocate s k r

/-- Put the index word of a node into the index (R330): the new state and the relocations made, or nothing if there is no room. -/
def State.indexInsert (s : State) (eui : BitVec 64) (h : Nat) : Option (State × Nat) :=
  let w : IndexWord := ⟨h, (Config.dirTag eui).toNat⟩
  match s.freeWay (s.h1 eui), s.freeWay (s.h2 eui) with
  | some i, _ => some (s.setWay (s.h1 eui) i (some w) false, 0)
  | none, some i => some (s.setWay (s.h2 eui) i (some w) false, 0)
  | none, none =>
    match s.findPath 16 [(s.h1 eui, []), (s.h2 eui, [])] with
    | none => none
    | some (dest, path) =>
      let s := s.relocate dest path
      match path.getLast? with
      | none => none
      | some (k, wy) => some (s.setWay k wy (some w) false, path.length)

/-- Remove the index word of a node. -/
def State.indexRemove (s : State) (eui : BitVec 64) (h : Nat) : State :=
  [s.h1 eui, s.h2 eui].foldl (fun s k =>
    match (s.bucket k).findIdx? fun w => match w with | some x => x.handle == h | none => false with
    | some i => s.setWay k i none false
    | none => s) s

/-! ## Outgoing counters (R106, R257, R301) -/

/-- What the assignment of an outgoing frame counter comes to. -/
inductive CounterResult where
  | ok (c : W32)
  /-- the job waits until RET has written a new ceiling -/
  | wait
  | exhausted
  deriving DecidableEq, Repr

/-- Assign a node's next outgoing counter.  `waited`: this job is counted as waiting already. -/
def State.takeCounter (s : State) (h : Nat) (waited : Bool) : State × CounterResult :=
  match s.node h with
  | none => (s, .ok 0)
  | some e =>
    let c := e.get N.FC_OUT
    if c = 0xFFFFFFFF then ((s.bumpSat R.MAC_FC_EXH_CNT_COUNT 1).evt .mac E.MAC_FC_EXH, .exhausted)
    else if s.ceiling h ≤ c then
      let s := s.markDirty h
      ((if waited then s else (s.bumpSat R.RET_FC_WAIT_COUNT 1).evt .ret E.RET_FC_WAIT), .wait)
    else (s.setNode h (e.put N.FC_OUT (c + 1)), .ok (BitVec.ofNat 32 c))

/-- Assign the device's own broadcast counter under the same rule (R106, R107, R259). -/
def State.takeBroadcast (s : State) (waited : Bool) : State × CounterResult :=
  let c := s.ret.bcastCounter
  let due (c : Nat) : Bool := decide (s.ret.bcastCeil.toNat < c + s.halfReserve)
  if c = 0xFFFFFFFF then ((s.bumpSat R.MAC_FC_EXH_CNT_COUNT 1).evt .mac E.MAC_FC_EXH, .exhausted)
  else if s.ret.bcastCeil ≤ c then
    let s := { s with ret := { s.ret with bcastDirty := true } }
    ((if waited then s else (s.bumpSat R.RET_FC_WAIT_COUNT 1).evt .ret E.RET_FC_WAIT), .wait)
  else
    ({ s with ret := { s.ret with bcastCounter := c + 1, bcastDirty := s.ret.bcastDirty || due (c.toNat + 1) } }, .ok c)

/-- RET writes the record of the broadcast counter (R106, R259): its ceiling is the counter plus the reserve. -/
def State.writeBroadcast (s : State) : State :=
  if s.ret.bcastDirty then
    { s with ret := { s.ret with
      bcastDirty := false, bcastCeil := BitVec.ofNat 32 (min 0xFFFFFFFF (s.ret.bcastCounter.toNat + 2 ^ s.get R.RET_FC_RESERVE_LOG2)) } }
  else s

end Sys2Proof.Machine
end

