-- ==== Sys2Proof/Machine/HostOps.lean ====
section
/-! DEFINITION. Packets toward the host (R439, R441, R559 to R564, R581): map entries, credit, handing over, revocation; and the
DRAM that BAR2 shows. -/

namespace Sys2Proof.Machine

/-- A host queue. -/
def State.queue (s : State) (q : Nat) : QueueSt := mapGetD s.host.queues q {}

/-- Change a host queue. -/
def State.setQueue (s : State) (q : Nat) (f : QueueSt → QueueSt) : State :=
  { s with host := { s.host with queues := mapSet s.host.queues q (f (s.queue q)) } }

/-- Is the queue UP? -/
def State.queueUp (s : State) (q : Nat) : Bool := s.pdOn 13 && s.get (R.HOST_Q_STATE_STATE q) == 1

/-- Descriptors a packet takes (R563). -/
def State.descsOf (s : State) (q octets : Nat) : Nat := max 1 (ceilDiv octets (s.get (R.HOST_Q_CFG_BUF q) * 256))

/-- Credits the producers of a to-host queue hold: none unless the queue is UP. -/
def State.hostCredit (s : State) (q : Nat) : Nat := if s.queueUp q then (s.link (10 + q)).producer else 0

/-- What came of offering a packet to the host. -/
inductive HostOffer where
  | taken
  /-- no queue named by the map: dropped and counted in HOST_DROPQ (R561) -/
  | noQueue
  /-- no credit (R439) -/
  | noCredit (q : Nat)
  deriving DecidableEq, Repr

/-- Hand a packet to a host queue: its credits are spent, its cells pass to owner 64 + q, HOST counts it in (R563, R581). -/
def State.toQueue (s : State) (q : Nat) (p : HostPkt) : State :=
  let d := s.descsOf q p.octets
  let s := s.setLink (10 + q) fun k =>
    { k with producer := k.producer - d, consumer := k.consumer + d, sent := k.sent + d, accepted := k.accepted + d }
  let s := (s.handCells p.cells (64 + q)).ledIn .host 1
  s.setQueue q fun x => { x with toHost := x.toHost ++ [{ p with descs := d }] }

/-- Offer a packet to the queue that a map entry names; group 59 fenced takes it and discards it (R39, R456). -/
def State.offerHost (s : State) (valid : Bool) (q : Nat) (p : HostPkt) : State × HostOffer :=
  if !valid then (s.bumpSat R.HOST_DROPQ_COUNT 1, .noQueue)
  else if s.hostCredit q < s.descsOf q p.octets then
    (s.setLink (10 + q) fun k => { k with waiting := true }, .noCredit q)
  else if s.fenced .host then
    (((s.sinkCells p.cells).sink .host).dropRecord .host .fenced p.octets (if p.kind = 0 then p.src else 15) 59 0, .taken)
  else (s.toQueue q p, .taken)

/-- Nobody holds these cells any more: items, frames and records forget them. -/
def State.forgetCells (s : State) (cs : List Nat) : State :=
  let keep (l : List Nat) : List Nat := l.filter fun c => !cs.contains c
  { s with
    peel := { s.peel with items := s.peel.items.map fun p => (p.1, { p.2 with cells := keep p.2.cells }) }
    frames := s.frames.map fun p => (p.1, { p.2 with cells := keep p.2.cells })
    wb := s.wb.map fun p => (p.1, { p.2 with recs := p.2.recs.map fun r => (r.1, { r.2 with cells := keep r.2.cells }) }) }

/-- Revocation of a queue (R441): packets that wait, parked frames, and frames of the queue that no lookup has taken yet are gone. -/
def State.revoke (s : State) (q : Nat) : State :=
  let held := (s.link (10 + q)).host
  let s := s.setLink (10 + q) fun k => { k with host := 0, parked := k.parked + held, waiting := false }
  let s := s.bumpSat R.RACK_REVOKED_COUNT held
  let s := s.put (R.HOST_Q_STATE_STATE q) 2
  let cells := s.cellsOfOwner (64 + q) true
  let (s, n, _) := s.freeOwner (64 + q) true
  let s := s.bumpSat R.RACK_RECLAIMED_COUNT n
  let inQueue := (s.queue q).toHost
  let caught := inQueue.length + (s.host.parked.filter fun x => x.2.queue == q).length
    + (s.frames.filter fun x => x.2.port == 15 && x.2.queue == q && x.2.stage == .checked).length
  let s := (s.ledFence .host caught).forgetCells cells
  let s := { s with frames := s.frames.filter fun x => !(x.2.port == 15 && x.2.queue == q && x.2.cells.isEmpty && x.2.egress.isEmpty) }
  let s := s.setLink (10 + q) fun k =>
    let d := inQueue.foldl (fun a p => a + p.descs) 0
    { k with consumer := k.consumer - d, producer := k.producer + d }
  let s := { s with host := { s.host with parked := s.host.parked.filter fun x => x.2.queue != q } }
  let s := s.setQueue q fun x => { x with toHost := [] }
  (s.put R.RACK_REVOKE_LAST_Q q).evt .rack E.RACK_REVOKED

/-! ## The DRAM of BAR2 (R558) -/

/-- Octets of the window before its unmapped part. -/
def dramSize : Nat := 0x0C000000

/-- What a DRAM octet that nothing has written reads as (log entry 8). -/
def dramDefault : Octet := 0

/-- The canonical form: addresses strictly rising, no entry equal to the default. -/
def Memory.wf : List Host.Cell → Bool
  | [] => true
  | [c] => c.2 != dramDefault
  | c :: d :: r => c.2 != dramDefault && decide (c.1 < d.1) && Memory.wf (d :: r)

/-- Read one octet. -/
def Memory.read : List Host.Cell → Nat → Octet
  | [], _ => dramDefault
  | (k, v) :: r, a => if k = a then v else Memory.read r a

/-- Write one octet, keeping the form. -/
def Memory.write : List Host.Cell → Nat → Octet → List Host.Cell
  | [], a, v => if v = dramDefault then [] else [(a, v)]
  | (k, w) :: r, a, v =>
    if a < k then (if v = dramDefault then (k, w) :: r else (a, v) :: (k, w) :: r)
    else if k = a then (if v = dramDefault then r else (a, v) :: r)
    else (k, w) :: Memory.write r a v

/-- Write octets from an address upward. -/
def Memory.writeAll : List Host.Cell → Nat → List Octet → List Host.Cell
  | m, _, [] => m
  | m, a, v :: r => Memory.writeAll (Memory.write m a v) (a + 1) r

/-- Read n octets from an address upward. -/
def Memory.readAll (m : List Host.Cell) (a : Nat) : Nat → List Octet
  | 0 => []
  | n + 1 => Memory.read m a :: Memory.readAll m (a + 1) n

/-- Write octets into DRAM. -/
def State.dramWrite (s : State) (a : Nat) (l : List Octet) : State := { s with dram := Memory.writeAll s.dram a l }

/-- Read octets of DRAM. -/
def State.dramRead (s : State) (a n : Nat) : List Octet := Memory.readAll s.dram a n

end Sys2Proof.Machine
end

