-- ==== Sys2Proof/Machine/Wave.lean ====
section
/-! DEFINITION. The waveforms (R212 to R214, R216, R221 to R232): rates and indices of SUN FSK, the MCS of SUN OFDM, loading maps, PHY
headers, and a frame from its PSDU to the symbols that leave the ball.  What is the standard's alone is PRESUMED (log entry 76). -/

namespace Sys2Proof.Machine

/-! ## SUN FSK (R212) -/

/-- The rate of a preamble type in kbit/s. -/
def fskKbps (t : Nat) : Nat := match t with
  | 0 => 50
  | 1 => 100
  | 2 => 150
  | 3 => 200
  | _ => 300

/-- 10 symbol periods of a preamble type in thirds of a ns (R212, R214). -/
def unitThirds (t : Nat) : Nat := match t with
  | 0 => 600000
  | 1 => 300000
  | 2 => 200000
  | 3 => 150000
  | 4 => 200000
  | _ => 3600000

/-- The modulation index in hundredths: of two rates the one PHY_FSK_CFG selects. -/
def fskIndex (t : Nat) (cfg : W32) : Nat := match t with
  | 0 => if natBit cfg.toNat 0 then 50 else 100
  | 1 => if natBit cfg.toNat 1 then 50 else 100
  | 2 => 50
  | 3 => 50
  | _ => 33

/-- The SFDs, first bit most significant: of uncoded and of coded frames, in both groups (R213). -/
def sfdPlain : List Nat := [0x904E, 0x7A0E]
def sfdCoded : List Nat := [0x6F4E, 0x632D]

/-- FSK code bits of a PHR and a PSDU: with their tail and padding, the code of RATE, interleaved if RATE says so (R213, R236). -/
def fskCoded (rate : Nat) (l : List Bool) (odd : Bool) : List Bool :=
  let c := if natBit rate 1 then codeRsc else codeNrnsc
  let x := c.tailed l
  let x := c.encode 0 (x ++ List.replicate (if odd then 5 else 13) false)
  if natBit rate 2 then fskInterleave x else x

/-- Frequency levels of bits: one bit a symbol, or two (4-FSK). -/
def fskLevels (t : Nat) : List Bool → List Int
  | [] => []
  | [a] => [if a then 1 else -1]
  | a :: b :: r =>
    if t = 4 then (if a then (if b then -3 else -1) else (if b then 3 else 1)) :: fskLevels t r
    else (if a then 1 else -1) :: (if b then 1 else -1) :: fskLevels t r

/-! ## SUN OFDM (R214) -/

/-- Data subcarriers of an option. -/
def dataCarriers (opt : Nat) : Nat := match opt with
  | 1 => 96
  | 2 => 48
  | 3 => 24
  | _ => 12

/-- An MCS: bits a point, code rate, repetition. -/
def mcsOf (m : Nat) : Nat × Nat × Nat := match m with
  | 0 => (1, 0, 4)
  | 1 => (1, 0, 2)
  | 2 => (2, 0, 2)
  | 3 => (2, 0, 1)
  | 4 => (2, 2, 1)
  | 5 => (4, 0, 1)
  | _ => (4, 2, 1)

/-- MCS that R214 marks for an option. -/
def mcsMarked (opt : Nat) : Nat := match opt with
  | 1 => 0x0F
  | 2 => 0x3F
  | 3 => 0x7E
  | _ => 0x7F

/-- Coded bits a symbol carries before repetition. -/
def mcsNcbps (opt m : Nat) : Nat := dataCarriers opt * (mcsOf m).1 / (mcsOf m).2.2

/-- The rate of an option and MCS in bit/s: a symbol takes 120 µs. -/
def mcsRate (opt m : Nat) : Nat := mcsNcbps opt m * (rateNum (mcsOf m).2.1).1 * 1000000 / ((rateNum (mcsOf m).2.1).2 * 120)

/-- The MCS that codes an option's PHR and map block (R221). -/
def headerMcs (opt : Nat) : Nat := if opt ≤ 2 then 0 else opt - 2

/-- Is a RATE one that R213, R214 and R216 let a preamble type have on transmission? -/
def rateSent (type rate : Nat) : Bool :=
  if type ≤ 4 then decide (rate < 8)
  else if rate = 15 then decide (type ≤ 7)
  else decide (rate ≤ 6) && natBit (mcsMarked (type - 4)) rate

/-! ## Loading maps (R224 to R230, R233, R234) -/

/-- Groups of option k (R223). -/
def groupsOf (k : Nat) : Nat := if k = 1 then 24 else if k = 2 then 12 else 6

/-- CODE of group g. -/
def mapCode (m g : Nat) : Nat := natBits m (2 * g) 2

/-- LADDER. -/
def mapLadder (m : Nat) : Bool := natBit m 48

/-- Bits per point of a code (R225). -/
def codeBits (ladder : Bool) (c : Nat) : Nat :=
  match c with
  | 0 => 0
  | 1 => if ladder then 2 else 1
  | 2 => if ladder then 4 else 2
  | _ => if ladder then 6 else 4

/-- Is a map valid for option k (R226)? -/
def mapValid (k m : Nat) : Bool :=
  decide (1 ≤ k) && decide (k ≤ 3) && natBits m 49 15 == 0
  && ((List.range 24).all fun g => decide (g < groupsOf k) || mapCode m g == 0)
  && ((List.range (groupsOf k)).any fun g => mapCode m g != 0)

/-- N_CBPS of a map (R230): two points a group, each sent twice. -/
def mapNcbps (k m : Nat) : Nat :=
  2 * (List.range (groupsOf k)).foldl (fun a g => a + codeBits (mapLadder m) (mapCode m g)) 0

/-- The nominal rate in bit/s, rounded down (R230, R237): R × N_CBPS × 8 / 1,080 µs. -/
def mapRate (k m r : Nat) : Nat := (rateNum r).1 * mapNcbps k m * 8 * 1000000 / ((rateNum r).2 * 1080)

/-- The loading a group's SNR bears (R234), all in 0.25 dB. -/
def loadingOf (t1 t2 t3 t4 : Nat) (s : Int) : Nat :=
  if (t4 : Int) ≤ s then 6 else if (t3 : Int) ≤ s then 4 else if (t2 : Int) ≤ s then 2 else if (t1 : Int) ≤ s then 1 else 0

/-- The code of a loading under a ladder (R225). -/
def codeOf (ladder : Bool) (b : Nat) : Nat :=
  if ladder then (if b < 2 then 0 else b / 2) else (match min b 4 with | 0 => 0 | 1 => 1 | 2 => 2 | _ => 3)

/-- The candidate map of R234 from the loadings of the groups, group 0 first. -/
def candidateMap (bs : List Nat) : Nat :=
  let bits0 := bs.foldl (fun a b => a + min b 4) 0
  let bits1 := bs.foldl (fun a b => a + if 2 ≤ b then b else 0) 0
  let ladder := decide (bits0 < bits1)
  let codes := bs.map (codeOf ladder)
  let packed := (codes.reverse).foldl (fun a c => 4 * a + c) 0
  if packed = 0 then 0 else packed + (if ladder then 2 ^ 48 else 0)

/-! ## Points and symbols (R225, R227 to R229) -/

/-- The level that bits select by Gray mapping, most significant first. -/
def grayLevel (l : List Bool) : Int :=
  2 * (l.foldl (fun (a : Nat × Bool) b => (2 * a.1 + (a.2 != b).toNat, a.2 != b)) (0, false)).1 - (2 ^ l.length - 1 : Nat)

/-- The normalisation of a constellation by bits a point. -/
def pointNorm (b : Nat) : Nat := match b with
  | 1 => 1
  | 2 => 2
  | 4 => 10
  | _ => 42

/-- The point of its bits, b0 first (R228): BPSK, QPSK, 16-QAM or 64-QAM. -/
def mapPoint (l : List Bool) : Point :=
  if l.length ≤ 1 then ⟨grayLevel l, 0, 1⟩
  else ⟨grayLevel (l.take (l.length / 2)), grayLevel (l.drop (l.length / 2)), pointNorm l.length⟩

/-- A subcarrier that is off (R227). -/
def pointOff : Point := ⟨0, 0, 1⟩

/-- A point turned by quarter turns. -/
def Point.turn (p : Point) (n : Nat) : Point := match n % 4 with
  | 0 => p
  | 1 => ⟨-p.q, p.i, p.norm⟩
  | 2 => ⟨-p.i, -p.q, p.norm⟩
  | _ => ⟨p.q, -p.i, p.norm⟩

/-- The bits each loaded point carries, in ascending order of group, then of point (R227, R228). -/
def pointBits (opt map : Nat) : List Nat :=
  (List.range (groupsOf opt)).flatMap fun g =>
    let b := codeBits (mapLadder map) (mapCode map g)
    if b = 0 then [] else [b, b]

/-- Which coded bit of a symbol is bit r of point p, when bits are dealt in rounds (R228). -/
def dealIndex (caps : List Nat) (p r : Nat) : Nat :=
  caps.foldl (fun a c => a + min c r) 0 + ((caps.take p).filter fun c => decide (r < c)).length

/-- The points of a symbol's coded bits. -/
def dealPoints (caps : List Nat) (l : List Bool) : List Point :=
  (List.range caps.length).map fun p =>
    mapPoint ((List.range (nth caps p 0)).map fun r => nth l (dealIndex caps p r) false)

/-- Soft values in the order of points and their bits, put back into the order of the coded bits. -/
def undeal (caps : List Nat) (l : List Int) : List Int :=
  let idx := (List.range caps.length).flatMap fun p => (List.range (nth caps p 0)).map fun r => dealIndex caps p r
  (List.range idx.length).map fun k => nth l (idx.idxOf k) 0

/-- The two copies of a soft value combined (R227): with equal noise, maximum-ratio combining adds what they say (DEDUCED, log entry
76), within 5 bits. -/
def combine (a b : Int) : Int := max (-16) (min 15 (a + b))

/-- The value of the option's pilot sequence at a symbol index and a place. -/
def pilotPoint (opt idx place : Nat) : Point := ⟨if Config.pilotSign opt idx place then 1 else -1, 0, 1⟩

/-- The option's pilots for a symbol index (R227). -/
def pilotsOf (opt idx : Nat) : List Point :=
  (List.range (match opt with | 1 => 8 | 2 => 4 | _ => 2)).map fun i => pilotPoint opt idx (dataCarriers opt + i)

/-- A Crumb data symbol (R227): each point of a group on two subcarriers, groups that are off zero. -/
def crumbSymbol (opt map idx : Nat) (l : List Bool) : OfdmSym :=
  let pts := dealPoints (pointBits opt map) l
  let loaded (g : Nat) : Bool := mapCode map g != 0
  let nthPair (g : Nat) : Nat := 2 * ((List.range g).filter loaded).length
  { data := (List.range (groupsOf opt)).flatMap fun g =>
      if loaded g then
        let a := nth pts (nthPair g) pointOff
        let b := nth pts (nthPair g + 1) pointOff
        [a, b, a, b]
      else [pointOff, pointOff, pointOff, pointOff]
    pilots := pilotsOf opt idx }

/-- A tracking symbol (R229): BPSK of the pilot sequence on every data subcarrier. -/
def trackingSymbol (opt idx : Nat) : OfdmSym :=
  ⟨(List.range (dataCarriers opt)).map (pilotPoint opt idx), pilotsOf opt idx⟩

/-- A SUN OFDM symbol: interleaved, mapped, its points repeated over the subcarriers. -/
def mcsSymbol (opt m idx : Nat) (l : List Bool) : OfdmSym :=
  let (b, _, rep) := mcsOf m
  let x := ofdmInterleave (12 / rep) b l
  let n := dataCarriers opt / rep
  { data := (List.range (dataCarriers opt)).map fun i =>
      (mapPoint ((List.range b).map fun r => nth x (b * (i % n) + r) false)).turn (Config.spreadTurn rep i)
    pilots := pilotsOf opt idx }

/-- Bits cut into symbols of n, the last filled with zeros (R230). -/
def cutBits (n : Nat) (l : List Bool) : List (List Bool) :=
  (List.range (ceilDiv l.length n)).map fun k => (List.range n).map fun i => nth l (n * k + i) false

/-- Data symbols with a tracking symbol after every eighth, but not after the last (R229); `idx`: the index of the first. -/
def withTracking (opt idx : Nat) (data : List (Nat → OfdmSym)) : List OfdmSym :=
  (List.range (data.length + (data.length - 1) / 8)).map fun i =>
    if i % 9 = 8 then trackingSymbol opt (idx + i) else (nth data (i - i / 9) fun k => trackingSymbol opt k) (idx + i)

/-! ## PHY headers (R197, R213, R222, R223) -/

/-- Bits of a SUN OFDM or Crumb PHR before its tail: RATE, LEN, scrambler field, HCS. -/
def ofdmHeader (rate len scr : Nat) : List Bool :=
  let l := msbBits 5 rate ++ [false] ++ msbBits 11 len ++ [false, false] ++ msbBits 2 scr ++ [false]
  l ++ msbBits 8 (headerCheck l)

/-- The RATE of a Crumb PHR that names a code rate (R222). -/
def crumbRate (crate : Nat) : Nat := 16 + crate

/-- Bits of a SUN FSK PHR: no mode switch, FCS type, whitening, LEN. -/
def fskHeader (fcs4 white : Bool) (len : Nat) : List Bool := [false, false, false, !fcs4, white] ++ msbBits 11 len

/-- The map block before its tail (R223): the codes of the option's groups, LADDER, seven zeros, the CRC-8. -/
def mapBlock (opt map : Nat) : List Bool :=
  let l := (List.range (2 * groupsOf opt)).map (natBit map) ++ [mapLadder map] ++ List.replicate 7 false
  l ++ msbBits 8 (mapCrc l)

/-- A map block as decoded: the map, if the CRC-8 and the reserved bits are right (R223, R226). -/
def readMapBlock (opt : Nat) (l : List Bool) : Option Nat :=
  let g := 2 * groupsOf opt
  let body := l.take (g + 8)
  let map := msbNum (l.take g).reverse + (if nth l g false then 2 ^ 48 else 0)
  if l.length < g + 16 || msbNum ((l.drop (g + 8)).take 8) != mapCrc body || ((l.drop (g + 1)).take 7).contains true
      || !mapValid opt map then none
  else some map

/-- OFDM symbols of a map block. -/
def mapSymbols (opt : Nat) : Nat := ceilDiv (2 * (2 * groupsOf opt + 22)) (mcsNcbps opt (headerMcs opt))

/-- OFDM symbols of an option's PHR. -/
def headerSymbols (opt : Nat) : Nat := ceilDiv 72 (mcsNcbps opt (headerMcs opt))

/-! ## Frames -/

/-- Whitening and FCS length of a frame: TX_WHITEN and TX_FCS4 (R213). -/
def TxForm.whitened (f : TxForm) : Bool := natBit f.fsk.toNat 12
def TxForm.fcs4 (f : TxForm) : Bool := decide (4 < f.type) || natBit f.fsk.toNat 13

/-- A SUN FSK frame (R212, R213): preamble, SFD, PHR, PSDU. -/
def TxForm.fskWave (f : TxForm) : Wave :=
  let body := sentBits f.psdu
  let info := fskHeader f.fcs4 f.whitened f.psdu.length ++ (if f.whitened then whiten 0x1FF body else body)
  let pre := (List.replicate (bitsGet 4 8 f.fsk * 4) (if f.type = 4 then [false, true, true, true] else [false, true])).flatten
  let pre := pre.take (8 * bitsGet 4 8 f.fsk)
  let coded := natBit f.rate 0
  let sfd := msbBits 16 (nth (if coded then sfdCoded else sfdPlain) 0 0)
  .fsk (fskIndex f.type f.fsk) (fskLevels f.type (pre ++ sfd ++
    if coded then fskCoded f.rate info (f.psdu.length % 2 == 1) else info))

/-- Coded bits of an option's PHR or map block cut into symbols (R221). -/
def headerPart (opt idx : Nat) (l : List Bool) : List OfdmSym :=
  let m := headerMcs opt
  ((cutBits (mcsNcbps opt m) (codeK7.encode 0 (codeK7.tailed l))).zipIdx).map fun x => mcsSymbol opt m (idx + x.2) x.1

/-- A Crumb frame (R221 to R223, R227 to R230): STF, LTF, PHR, map block, data and tracking symbols. -/
def TxForm.crumbWave (f : TxForm) : Wave :=
  let opt := f.type - 4
  let h := headerPart opt 0 (ofdmHeader (crumbRate f.crate) f.psdu.length 0)
  let m := headerPart opt h.length (mapBlock opt f.map)
  let bits := codeK7.tailed (whiten (ofdmSeed 0) (sentBits f.psdu))
  let c := puncture (keepOf f.crate) 0 (codeK7.encode 0 bits)
  let data := (cutBits (mapNcbps opt f.map) c).map fun l k => crumbSymbol opt f.map k l
  .ofdm opt 4 2 (h ++ m ++ withTracking opt (h.length + m.length) data)

/-- Data symbols of a SUN OFDM frame of a length (R214). -/
def mcsSymbols (opt m len : Nat) : Nat := ceilDiv (codedLen (mcsOf m).2.1 (8 * len + 6)) (mcsNcbps opt m)

/-- A SUN OFDM frame (R214): STF, LTF, PHR, data symbols, the last filled with padding before coding. -/
def TxForm.ofdmWave (f : TxForm) : Wave :=
  let opt := f.type - 4
  let h := headerPart opt 0 (ofdmHeader f.rate f.psdu.length 0)
  let n := 8 * f.psdu.length + 6
  let r := (mcsOf f.rate).2.1
  let pad := mcsSymbols opt f.rate f.psdu.length * mcsNcbps opt f.rate * (rateNum r).1 / (rateNum r).2 - n
  let s := whiten (ofdmSeed 0) (sentBits f.psdu ++ List.replicate (6 + pad) false)
  let bits := s.take (n - 6) ++ List.replicate 6 false ++ s.drop n
  let c := puncture (keepOf r) 0 (codeK7.encode 0 bits)
  .ofdm opt 4 2 (h ++ ((cutBits (mcsNcbps opt f.rate) c).zipIdx).map fun x => mcsSymbol opt f.rate (h.length + x.2) x.1)

/-- A frame on the air (R221, R232). -/
def TxForm.wave (f : TxForm) : Wave :=
  if f.type ≤ 4 then f.fskWave else if f.rate = 15 then f.crumbWave else f.ofdmWave

/-- Data symbols of a Crumb frame of a length (R230). -/
def crumbSymbols (opt map crate len : Nat) : Nat := ceilDiv (codedLen crate (8 * len + 6)) (mapNcbps opt map)

/-- FSK bits on the air: preamble and SFD, and what follows them. -/
def fskBits (rate pre len : Nat) : Nat :=
  8 * (pre + 2) + (if natBit rate 0 then 16 * (2 + len + (if len % 2 = 1 then 1 else 2)) else 8 * (2 + len))

/-- The air time in ns of a frame of `len` octets, rounded up (R212, R214, R229, R230). -/
def airNs (type rate pre map crate len : Nat) : Nat :=
  let opt := type - 4
  if type ≤ 4 then ceilDiv (fskBits rate pre len * 1000000) (fskKbps type)
  else if rate = 15 then
    let n := crumbSymbols opt map crate len
    120000 * (6 + headerSymbols opt + mapSymbols opt + n + (n - 1) / 8)
  else 120000 * (6 + headerSymbols opt + mcsSymbols opt rate len)

/-- From the first sample to the reference plane in ns (R133): the end of the SFD, or the start of the PHY header. -/
def planeNs (type pre : Nat) : Nat := if type ≤ 4 then (pre + 2) * 8000000 / fskKbps type else 720000

/-- The reference plane of a frame after its first sample. -/
def TxForm.planeNs (f : TxForm) : Nat := Machine.planeNs f.type (bitsGet 4 8 f.fsk)

/-- The air time of a frame. -/
def TxForm.airNs (f : TxForm) : Nat := Machine.airNs f.type f.rate (bitsGet 4 8 f.fsk) f.map f.crate f.psdu.length

/-- Symbols a wave lasts. -/
def Wave.length : Wave → Nat
  | .fsk _ l => l.length
  | .ofdm _ a b l => a + b + l.length

end Sys2Proof.Machine
end

