-- ==== Sys2Proof/Machine/WbOps.lean ====
section
/-! DEFINITION. Wideband reception's shared operations (R183 to R211, R625): contexts, marks, records, their ends and their delivery;
and the PHY's loading maps and SNR reports (R217 to R239). -/

namespace Sys2Proof.Machine

/-- A WB chain. -/
def State.wbOf (s : State) (n : Nat) : WbSt := mapGetD s.wb n {}

/-- Change a WB chain. -/
def State.setWb (s : State) (n : Nat) (f : WbSt → WbSt) : State := { s with wb := mapSet s.wb n (f (s.wbOf n)) }

/-- The WB block of a chain number. -/
def wbBlock (n : Nat) : Block := .wb ⟨n % 4, Nat.mod_lt _ (by decide)⟩

/-- The RF block of a chain number. -/
def rfBlock (n : Nat) : Block := .rf ⟨n % 4, Nat.mod_lt _ (by decide)⟩

/-- A context. -/
def State.ctx (s : State) (n k : Nat) : Option Ctx := mapGet (s.wbOf n).ctxs k

/-- Change a context. -/
def State.setCtx (s : State) (n k : Nat) (c : Ctx) : State := s.setWb n fun w => { w with ctxs := mapSet w.ctxs k c }

/-- Contexts assigned: those at work and those that hold a finished record (R208). -/
def WbSt.assigned (w : WbSt) : List Nat := w.ctxs.map (·.1) ++ (w.recs.filter (·.2.holds)).map (·.2.ctx)

/-- The lowest-numbered free context (R194). -/
def WbSt.freeCtx (w : WbSt) : Option Nat := (List.range 32).find? fun k => !w.assigned.contains k

/-- Contexts that hold an allocation, at work. -/
def WbSt.ofAlloc (w : WbSt) (a : Nat) : List (Nat × Ctx) := w.ctxs.filter fun p => p.2.mark.alloc == a

/-- Contexts and finished records that hold an allocation (R194). -/
def WbSt.allocHeld (w : WbSt) (a : Nat) : Nat :=
  (w.ofAlloc a).length + (w.recs.filter fun p => p.2.holds && p.2.alloc == a).length

/-- Does the chain hold a context whose PHY header is validated, at work or with its finished record (R151, R166, R197)? -/
def WbSt.hasConfirmed (w : WbSt) : Bool := (w.ctxs.any fun p => p.2.confirmed) || w.recs.any fun p => p.2.holds && p.2.confirmed

/-- The settings a context keeps carried over to another that starts in its place (R84). -/
def Ctx.keeping (c d : Ctx) : Ctx :=
  { c with chan := d.chan, mcsEn := d.mcsEn, fskCfg := d.fskCfg, crumbCfg := d.crumbCfg, policy := d.policy }

/-- The greater of a mark's two energies (R198). -/
def Mark.energy (m : Mark) : Nat := max m.corr0 m.corr1

/-- A fresh context on a mark, with the settings in force (R186, R193, R237). -/
def State.newCtx (s : State) (n : Nat) (m : Mark) (antMode : Nat) : Ctx :=
  let chan := R.WB_CHAN_EN n m.alloc
  { mark := m
    chan := mapGetD s.applied chan.a (s.word chan.a)
    mcsEn := mapGetD s.applied R.PHY_MCS_EN_OPT1.a (s.word R.PHY_MCS_EN_OPT1.a)
    fskCfg := mapGetD s.applied R.PHY_FSK_CFG_H50.a (s.word R.PHY_FSK_CFG_H50.a)
    crumbCfg := mapGetD s.applied R.PHY_CRUMB_CFG_EN.a (s.word R.PHY_CRUMB_CFG_EN.a)
    policy := mapGetD s.applied R.MAC_SEC_POLICY_RX_ACCEPT.a (s.word R.MAC_SEC_POLICY_RX_ACCEPT.a)
    antMode := antMode
    ant := if antMode = 1 then some 0 else if antMode = 2 then some 1 else none
    markStale := m.stale
    stamp := m.stamp }

/-! ## The decoder pools (R219, R220) -/

/-- A chain's pool in order of arrival. -/
def State.pool (s : State) (n : Nat) : List Segment := nth s.phy.pools n []

/-- Change a chain's pool. -/
def State.setPool (s : State) (n : Nat) (l : List Segment) : State := { s with phy := { s.phy with pools := s.phy.pools.set n l } }

/-- Free decoders take waiting segments in order: 8 decoders a chain (R219, R220). -/
def fillDecoders (l : List Segment) : List Segment :=
  (l.foldl (fun (a : List Segment × Nat) x =>
    if x.active then (a.1 ++ [x], a.2) else if 0 < a.2 then (a.1 ++ [{ x with active := true }], a.2 - 1) else (a.1 ++ [x], a.2))
    ([], 8 - (l.filter (·.active)).length)).1

/-- Segments waiting. -/
def waitingSegs (l : List Segment) : Nat := (l.filter fun x => !x.active).length

/-- What the pool has saved of a context. -/
def State.decoder (s : State) (n k : Nat) : Decoder := mapGetD s.phy.saved (32 * n + k) {}

/-- Segments of a context leave its pool unserved, what the pool saved of it goes, and freed decoders take those that wait (R219, R220). -/
def State.dropSegments (s : State) (n k : Nat) : State :=
  let gone := ((s.pool n).filter fun x => x.ctx == k).length
  let s := s.setPool n (fillDecoders ((s.pool n).filter fun x => x.ctx != k))
  let s := { s with phy := { s.phy with saved := mapErase s.phy.saved (32 * n + k) } }
  s.ledDrop .phy gone

/-- The convolutional code of a context's frame and its rate, if it is coded (R213, R217, R218). -/
def Ctx.code (c : Ctx) : Option (Nat × Nat) :=
  if c.mark.type ≤ 4 then (if natBit c.rate 0 then some (if natBit c.rate 1 then 2 else 1, 0) else none)
  else some (0, if c.crumb then c.crate else (mcsOf c.rate).2.1)

/-- A code by its number in a segment. -/
def codeNo (i : Nat) : ConvCode := match i with
  | 1 => codeNrnsc
  | 2 => codeRsc
  | _ => codeK7

/-- Octets of a PSDU made plain from its bits. -/
def Ctx.dewhiten (c : Ctx) (l : List Bool) : List Octet :=
  packBits (match c.seed with
    | some r => whiten r l
    | none => l)

/-- The PSDU of a context's frame: of a coded frame what the pool decoded, after the PHR's bits of FSK; of an uncoded one the octets
demodulated (R219, R221). -/
def Ctx.psdu (c : Ctx) (d : Decoder) (air : List Octet) : List Octet :=
  match c.code with
  | some (i, _) => c.dewhiten (((d.finish (codeNo i)).drop (if c.mark.type ≤ 4 then 16 else 0)).take (8 * c.len))
  | none => c.dewhiten (sentBits (air.take c.len))

/-- From the reference plane of a context's frame to the end of its last symbol, in ns rounded up (R133, R245). -/
def Ctx.restNs (c : Ctx) : Nat :=
  if c.mark.type ≤ 4 then ceilDiv ((fskBits c.rate 0 c.len - 16) * 1000000) (fskKbps c.mark.type)
  else Machine.airNs c.mark.type c.rate 0 c.map c.crate c.len - 720000

/-- A context is released. -/
def State.releaseCtx (s : State) (n k : Nat) : State :=
  (s.dropSegments n k).setWb n fun w => { w with ctxs := mapErase w.ctxs k }

/-- A false detection (R197). -/
def State.falseCtx (s : State) (n k : Nat) : State :=
  ((s.bumpSat (R.WB_FALSE_COUNT n) 1).ledDrop (wbBlock n) 1).releaseCtx n k

/-- Octets of a record in packet cells: the header and the PSDU, padded to a multiple of 8 (R206). -/
def recOctets (len : Nat) : Nat := 64 + 8 * ceilDiv len 8

/-- What a drop record shows of a reception record: the node handle, or all ones (R444). -/
def WbRec.detail (r : WbRec) : W32 := match r.handle with
  | some h => BitVec.ofNat 32 h
  | none => 0xFFFFFFFF

/-- The header of a record (R206): 64 octets. -/
def WbRec.header (r : WbRec) : List Octet :=
  let b (x : Bool) (i : Nat) : Nat := if x then 2 ^ i else 0
  let rssi := match r.frame with | some f => f.rssi | none => 0
  let snr := match r.frame with | some f => f.snr | none => 0
  let cfo := match r.frame with | some f => f.cfo | none => 0
  leOctets 8 r.stamp.toNat ++ leOctets 2 r.len
  ++ leOctets 1 (r.result.getD 0) ++ leOctets 1 (r.type + 16 * r.rate) ++ leOctets 1 (r.alloc + 32 * r.ant)
  ++ leOctets 1 (b r.keyLate 0 + b r.replayed 1 + b r.markStale 2 + b r.secured 3 + b r.decrypted 4 + b r.feStep 5)
  ++ leOctets 2 rssi.toNat ++ leOctets 2 snr.toNat ++ leOctets 2 cfo.toNat
  ++ leOctets 1 r.mark.corr0 ++ leOctets 1 r.mark.corr1
  ++ leOctets 1 (if r.ant = 0 then r.mark.feg0 else r.mark.feg1) ++ leOctets 1 r.mark.dagc
  ++ leOctets 4 (match r.handle with | some h => h + 2 ^ 31 | none => 0) ++ leOctets 4 r.fc.toNat
  ++ leOctets 4 (r.mark.id + 2 ^ 16 * r.ctx) ++ leOctets 28 0

/-- The octets of a record (R206): its header, and of a frame its PSDU, padded with zeros. -/
def WbRec.octets (r : WbRec) : List Octet :=
  let p := match r.frame with
    | some f => f.psdu.take r.len
    | none => []
  let l := r.header ++ p
  l ++ List.replicate (recOctets r.len - l.length) 0

/-- A reception record. -/
def State.wrec (s : State) (n id : Nat) : Option WbRec := mapGet (s.wbOf n).recs id

/-- Change a record. -/
def State.setRec (s : State) (n id : Nat) (r : WbRec) : State := s.setWb n fun w => { w with recs := mapSet w.recs id r }

/-- A record leaves: its cells are freed, the context it holds is free, the WB ledger counts it. -/
def State.dropRec (s : State) (n id : Nat) (fenced : Bool) (c : Cause) : State :=
  match s.wrec n id with
  | none => s
  | some r =>
    let s := s.setWb n fun w => { w with recs := mapErase w.recs id }
    let s := s.freeCells (if fenced then .fenced else .drop) r.cells
    let s := if fenced then s.ledFence (wbBlock n) 1 else s.ledDrop (wbBlock n) 1
    s.dropRecord (wbBlock n) c (recOctets r.len) 15 (37 + 2 * n) (if c = .fenced then 0 else r.detail)

/-- The result of a record is known: it waits for its host queue, or is not delivered and is counted under its result (R207). -/
def State.settleRec (s : State) (n id result : Nat) : State :=
  match s.wrec n id with
  | none => s
  | some r =>
    let s := s.setRec n id { r with result := some result, item := none }
    if result = 0 ∨ natBit (s.get (R.WB_DELIVER_MASK n)) result then s
    else
      let s := s.setWb n fun w => { w with
        undelivered := (List.range 10).map fun i => nth w.undelivered i 0 + (if i = result then 1 else 0) }
      s.dropRec n id false .nodeliver

/-- The record of a context, before its result is known. -/
def Ctx.toRec (c : Ctx) (k : Nat) : WbRec :=
  { ctx := k, holds := true, stamp := c.stamp, refNs := c.refNs, confirmed := c.confirmed, policy := c.policy, len := 0, result := none, type := c.mark.type
    rate := if c.crumb then 15 else c.rate
    alloc := c.mark.alloc, ant := c.ant.getD 0, replayed := c.replayed, markStale := c.markStale, feStep := c.feStep
    secured := false, decrypted := false, keyLate := false, handle := none, fc := 0, mark := c.mark, frame := none
    item := none, cells := [] }

/-- A context ends and its record is made; the context stays held until the record has gone.  Answers the record's number. -/
def State.ctxToRec (s : State) (n k : Nat) (r : WbRec) : State × Nat :=
  let id := mapFirstFree (s.wbOf n).recs
  let s := (s.dropSegments n k).setWb n fun w => { w with ctxs := mapErase w.ctxs k, recs := mapSet w.recs id r }
  match s.allocPacket (37 + 2 * n) (recOctets r.len) with
  | some (s, cs) => (s.setRec n id { r with cells := cs }, id)
  | none => (s, id)

/-- A context ends from outside with results 6 to 8 (R205, R207). -/
def State.endCtx (s : State) (n result k : Nat) : State :=
  match s.ctx n k with
  | none => s
  | some c =>
    let s := (s.bumpSat (R.WB_ENDED_COUNT n) 1).evt (wbBlock n) E.WB_ENDED
    let (s, id) := s.ctxToRec n k (c.toRec k)
    s.settleRec n id result

/-- All contexts of a chain end (R205). -/
def State.endCtxs (s : State) (n result : Nat) : State := ((s.wbOf n).ctxs.map (·.1)).foldl (fun s k => s.endCtx n result k) s

/-- Fence of group 37 + 2n (R40, R205, R207): every context of the chain ends with FENCED and writes no record; cells that finished
records took stay with the group until they are reclaimed. -/
def State.fenceCtxs (s : State) (n : Nat) : State :=
  let s := ((s.wbOf n).ctxs.map (·.1)).foldl (fun s k =>
    ((((s.bumpSat (R.WB_ENDED_COUNT n) 1).evt (wbBlock n) E.WB_ENDED).ledFence (wbBlock n) 1).releaseCtx n k)) s
  (((s.wbOf n).recs.filter (·.2.holds)).map (·.1)).foldl (fun s id =>
    match s.wrec n id with
    | none => s
    | some _ =>
      let s := ((s.bumpSat (R.WB_ENDED_COUNT n) 1).evt (wbBlock n) E.WB_ENDED).ledFence (wbBlock n) 1
      s.setWb n fun w => { w with recs := mapErase w.recs id }) s

/-- Marks become stale (R202); a context still in progress on one is counted and flagged. -/
def State.staleMarks (s : State) (n : Nat) (p : Mark → Bool) : State :=
  let w := s.wbOf n
  let s := s.setWb n fun w => { w with marks := w.marks.map fun m => if p m then { m with stale := true } else m }
  w.ctxs.foldl (fun s x =>
    if p x.2.mark && !x.2.mark.stale then
      let s := s.setCtx n x.1 { x.2 with mark := { x.2.mark with stale := true }, markStale := true }
      (s.bumpSat (R.WB_STALE_CNT_COUNT n) 1).evt (wbBlock n) E.WB_STALE
    else s) s

/-- A retune of the chain: its contexts end with RETUNED, the next block is marked RETUNE, and earlier marks are stale (R202, R205). -/
def State.wbRetune (s : State) (n : Nat) : State :=
  ((s.endCtxs n 6).staleMarks n fun _ => true).setWb n fun w => { w with retuned := true }

/-! ## SNR reports (R233, R239) -/

/-- An SNR report as its 12 words (R239). -/
def snrReport (s : State) (n opt handle : Nat) (crumb : Bool) (ns : Nat) (groups : List (Option Nat)) : List W32 :=
  let g := groupsOf opt
  let margin := 2 * s.get R.PHY_CRUMB_CFG_MARGIN
  let rate := s.get R.PHY_CRUMB_CFG_RATE
  let snr := (List.range g).map fun i => nth groups i none
  let bs := snr.map fun x => match x with
    | none => 0
    | some v => loadingOf (s.get R.PHY_CRUMB_THR_T1) (s.get R.PHY_CRUMB_THR_T2) (s.get R.PHY_CRUMB_THR_T3)
        (s.get R.PHY_CRUMB_THR_T4) ((v : Int) - margin)
  let map := candidateMap bs
  let octet (i : Nat) : Nat := match nth snr i none with
    | none => 0xFF
    | some v => min v 0xFE
  let words := (List.range 6).map fun j =>
    BitVec.ofNat 32 (octet (4 * j) + octet (4 * j + 1) * 2 ^ 8 + octet (4 * j + 2) * 2 ^ 16 + octet (4 * j + 3) * 2 ^ 24)
  [BitVec.ofNat 32 (handle + n * 2 ^ 18 + (opt - 1) * 2 ^ 20 + (if crumb then 2 ^ 22 else 0) + rate * 2 ^ 23 + 2 ^ 31),
   BitVec.ofNat 32 ns, BitVec.ofNat 32 map, BitVec.ofNat 32 (map / 2 ^ 32)]
  ++ words ++ [BitVec.ofNat 32 (mapNcbps opt map), 0]

/-- Write an SNR report (R233). -/
def State.pushSnr (s : State) (r : List W32) : State :=
  let (l, lost) := fifoPush 1024 s.phy.snr r
  let s := { s with phy := { s.phy with snr := l } }
  let s := if lost then (s.bumpSat R.PHY_SNR_LOST_COUNT 1).evt .phy E.PHY_SNR_LOST else s
  s.evt .phy E.PHY_SNR_READY

end Sys2Proof.Machine
end

