-- ==== Sys2Proof/Machine/Wideband.lean ====
section
/-! DEFINITION. The commands of wideband reception (R183 to R211, R625). -/

namespace Sys2Proof.Machine

/-- A radio chain. -/
def State.chain (s : State) (n : Nat) : ChainSt := mapGetD s.rf n {}

/-- Change a radio chain. -/
def State.setChain (s : State) (n : Nat) (f : ChainSt → ChainSt) : State := { s with rf := mapSet s.rf n (f (s.chain n)) }

/-- Is the chain within a blanking of R153? -/
def State.blanked (s : State) (n : Nat) : Bool := !(s.chain n).blankedBy.isEmpty

/-! ## The front-end loop (R190 to R192) -/

/-- One antenna path of the loop. -/
structure FePath where
  code : Nat
  quiet : Nat
  defers : Nat
  down : Bool := false
  up : Bool := false
  deriving DecidableEq, Repr

/-- The table of R191 for one block: `h` HEADROOM, `p` the peak, `decay` and `defer` in blocks, `conf` a validated header. -/
def FePath.block (f : FePath) (h p : Nat) (clip : Bool) (decay defer : Nat) (conf : Bool) : FePath :=
  if clip then { f with code := f.code - 6, quiet := 0, defers := 0, down := decide (f.code ≠ 0) }
  else if p < h - 6 then
    { f with code := f.code - ceilDiv (h - 6 - p) 2, quiet := 0, defers := 0, down := decide (f.code ≠ 0) }
  else if h + 6 < p then
    if f.quiet + 1 < decay then { f with quiet := f.quiet + 1 }
    else if conf && decide (f.defers + 1 ≤ defer) then { f with quiet := f.quiet + 1, defers := f.defers + 1 }
    else { f with code := min 30 (f.code + 1), quiet := 0, defers := 0, up := decide (f.code < 30) }
  else { f with quiet := 0, defers := 0 }

/-- A sample as the ring keeps it (R201): I in [15:0] and Q in [31:16], each 14-bit code sign-extended. -/
def ringSample (x : BitVec 14 × BitVec 14) : W32 := x.2.signExtend 16 ++ x.1.signExtend 16

/-- A sample as two 16-bit values, least significant octet first. -/
def sampleOctets (l : List W32) : List Octet := l.flatMap fun w => leOctets 4 w.toNat

/-- A block as a capture writes it (R210): its tag, then the samples of each antenna selected. -/
def RingBlock.octets (b : RingBlock) (ants : Nat) : List Octet :=
  leOctets 8 (if natBit ants 0 then b.tag0 else b.tag1).toNat
  ++ (if natBit ants 0 then sampleOctets b.s0 else []) ++ (if natBit ants 1 then sampleOctets b.s1 else [])

/-- Base of a chain's capture area in the window of BAR2 (R558). -/
def captureBase (n : Nat) : Nat := 0x03E00000 + n * 0x80000

/-- A block of a running capture is written. -/
def State.captureBlock (s : State) (n : Nat) (b : RingBlock) : State :=
  match (s.wbOf n).capture with
  | none => s
  | some c =>
    if c.left = 0 then s
    else
      let o := b.octets (s.get (R.WB_CAP_CFG_ANT n))
      let s := s.dramWrite (captureBase n + c.written) o
      s.setWb n fun w => { w with capture := some { c with left := c.left - 1, written := c.written + o.length } }

/-- Start a capture at a time, for `us` µs rounded up to whole blocks: the blocks the ring holds are copied, later ones follow. -/
def State.startCapture (s : State) (n fromNs us : Nat) (byCommand : Bool) : State :=
  let blocks := ceilDiv (us * 1000) 3125
  let s := (s.put (R.WB_CAP_STAT_BUSY n) 1).put (R.WB_CAP_STAT_LEN n) us
  let s := s.setWb n fun w => { w with capture := some ⟨blocks, 0, us, byCommand⟩ }
  (((s.wbOf n).ring.reverse).filter fun b => decide (fromNs < b.startNs + 3125)).foldl (fun s b => s.captureBlock n b) s

/-- A trigger with KIND 2 fires for the chain (R210). -/
def State.captureTrigger (s : State) (n fireNs us : Nat) : State :=
  if (s.wbOf n).capture.isSome then (s.bumpSat (R.WB_CAP_STAT_MISSED n) 1).evt (wbBlock n) E.WB_CAP_MISSED
  else s.startCapture n fireNs us false

/-- FE_GAIN_LOOP_BLOCK (R152, R190 to R192, R201): a block ends; its samples come in through the ADC FIFO (R46), its tag is written, and the loop adjusts both gains for the next.  The
receive paths are out of service in OFF, CAL and SETTLE. -/
def execFeGainLoopBlock (n : Fin 4) (blk : SampleBlock) (s : State) : Answer :=
  if !s.powered (.wb n) || s.groupFenced (36 + 2 * n.val) || s.get (R.RF_STATE_STATE n.val) < 3 then .next s
  else
    let w := s.wbOf n.val
    let start := s.tb.L - BitVec.ofNat 104 (3125 * 2 ^ 40)
    let base := (stampAt s start 0 0).toNat % 2 ^ 52
    let flags := (if s.blanked n.val then 2 ^ 57 else 0) + (if w.retuned then 2 ^ 59 else 0)
    let g0 := s.get (R.WB_STATE_FEG0 n.val)
    let g1 := s.get (R.WB_STATE_FEG1 n.val)
    let tag (g : Nat) (clip : Bool) : BitVec 64 := BitVec.ofNat 64 (base + g * 2 ^ 52 + flags + (if clip then 2 ^ 58 else 0))
    let ns := start.toNat / 2 ^ 40
    let rb : RingBlock := ⟨ns, ns, s.tbMode == 3, tag g0 blk.clip0, tag g1 blk.clip1, (blk.s0.take 80).map ringSample,
      (blk.s1.take 80).map ringSample⟩
    let at' (l : List (BitVec 14 × BitVec 14)) (k : Nat) : Nat := let x := l.getD k (0, 0); x.1.toNat + x.2.toNat * 2 ^ 14
    let s := s.passBfifo (20 + n.val) 80 fun k => at' blk.s0 k + at' blk.s1 k * 2 ^ 28
    let s := s.setWb n.val fun w => { w with ring := (rb :: w.ring).take 640, retuned := false }
    let s := s.captureBlock n.val rb
    let s := (s.put (R.WB_FE_STAT_PEAK0 n.val) blk.peak0.toNat).put (R.WB_FE_STAT_PEAK1 n.val) blk.peak1.toNat
    let clips := (if blk.clip0 then 1 else 0) + (if blk.clip1 then 1 else 0)
    let s := if clips = 0 then s else (s.bumpSat (R.WB_CLIP_CNT_COUNT n.val) clips).evt (.wb n) E.WB_CLIP
    let h := s.get (R.WB_FE_CFG_HEADROOM n.val)
    let decay := 320 * s.get (R.WB_FE_CFG_DECAY n.val)
    let defer := 320 * s.get (R.WB_FE_CFG_DEFER n.val)
    let conf := w.hasConfirmed
    let man := s.on (R.WB_FE_CFG_MANUAL n.val)
    let code := s.get (R.WB_FE_CFG_CODE n.val)
    let f0 : FePath := if man then ⟨code, 0, 0, false, false⟩
      else FePath.block ⟨g0, w.quiet0, w.defer0, false, false⟩ h blk.peak0.toNat blk.clip0 decay defer conf
    let f1 : FePath := if man then ⟨code, 0, 0, false, false⟩
      else FePath.block ⟨g1, w.quiet1, w.defer1, false, false⟩ h blk.peak1.toNat blk.clip1 decay defer conf
    let s := s.setWb n.val fun w => { w with quiet0 := f0.quiet, quiet1 := f1.quiet, defer0 := f0.defers, defer1 := f1.defers }
    let s := (s.put (R.WB_STATE_FEG0 n.val) f0.code).put (R.WB_STATE_FEG1 n.val) f1.code
    let s := s.bump (R.WB_FE_CNT_DOWN n.val) ((if f0.down then 1 else 0) + (if f1.down then 1 else 0))
    let s := s.bump (R.WB_FE_CNT_UP n.val) ((if f0.up then 1 else 0) + (if f1.up then 1 else 0))
    let hit := (s.wbOf n.val).ctxs.filter fun x =>
      x.2.confirmed && ((f0.code != g0 && x.2.ant.getD 0 == 0) || (f1.code != g1 && x.2.ant.getD 0 == 1))
    let s := hit.foldl (fun s x => s.setCtx n.val x.1 { x.2 with feStep := true }) s
    .next (s.evtIf (!hit.isEmpty) (.wb n) E.WB_FE_STEP)

/-! ## Detections and contexts (R187, R188, R193 to R200) -/

/-- Length of a type's detector window in 2^-40 ns (R185). -/
def windowLen (t : Nat) : Nat :=
  (match t with
  | 0 => 960000
  | 1 => 480000
  | 2 => 320000
  | 3 => 240000
  | 4 => 320000
  | _ => 360000) * 2 ^ 40 / 3

/-- Does the window pass the thresholds of R187 on either antenna? -/
def State.detects (s : State) (n t : Nat) (d : Detection) : Bool :=
  let thr := s.get (R.WB_DET_THR_THR n t)
  let floor := toSigned 8 (s.get (R.WB_DET_THR_FLOOR n t))
  (decide (thr ≤ d.norm0) && decide (floor ≤ d.pow0)) || (decide (thr ≤ d.norm1) && decide (floor ≤ d.pow1))
  || (floor == -128 && (decide (thr ≤ d.norm0) || decide (thr ≤ d.norm1)))

/-- Is a detector of the chain at work on the allocation and the type (R187, R625)? -/
def State.watches (s : State) (n a t : Nat) : Bool :=
  s.powered (wbBlock n) && s.get (R.RF_STATE_STATE n) == 3 && !s.blanked n && !s.groupFenced (36 + 2 * n)
  && s.apOn (R.WB_CHAN_EN n a) && natBit (s.ap (R.WB_CHAN_TYPES n a)) t

/-- What a block's tag counts: 1/256 ns modulo 2^48 (R201). -/
def RingBlock.count (b : RingBlock) : Nat :=
  natBits b.tag0.toNat 32 8 + 256 * (natBits b.tag0.toNat 0 32 + 2 ^ 32 * natBits b.tag0.toNat 40 8)

/-- The stamp of an instant `off` × 1/256 ns after a block's first sample, from the block's tag (R132, R134). -/
def RingBlock.stamp (b : RingBlock) (n : Nat) (off : Int) : Stamp :=
  let c := (((b.count : Nat) : Int) + off) % 2 ^ 48
  let v := c.toNat
  BitVec.ofNat 64 (natBits v 8 32 + natBits v 0 8 * 2 ^ 32 + natBits v 40 8 * 2 ^ 40 + natBits b.tag0.toNat 48 4 * 2 ^ 48
    + n % 16 * 2 ^ 52 + 4 * 2 ^ 56 + (if b.hold then 2 ^ 59 else 0) + 2 ^ 63)

/-- That instant in whole ns from the ns of the block's first sample. -/
def RingBlock.nsAt (b : RingBlock) (start : Nat) (off : Int) : Nat :=
  (((start * 256 + natBits b.tag0.toNat 32 8 : Nat) : Int) + off).toNat / 256

/-- The ring block that holds an instant. -/
def WbSt.blockAt (w : WbSt) (ns : Nat) : Option RingBlock :=
  w.ring.find? fun b => decide (b.startNs ≤ ns) && decide (ns < b.startNs + 3125)

/-- The frozen gain of the digital AGC in 0.25 dB (R193): it puts the window's RMS level at WBn_DAGC.TARGET, within 0 to 48 dB. -/
def State.frozenGain (s : State) (n : Nat) (d : Detection) : Nat := min 192 (d.rms - 4 * s.get (R.WB_DAGC_TARGET n))

/-- The mark of a detection (R188, R206): the next ID, the first sample of the window, the stamp from its block's tag. -/
def State.newMark (s : State) (n a t : Nat) (d : Detection) : Mark :=
  let at_ := s.tb.L - BitVec.ofNat 104 (windowLen t)
  let ns := at_.toNat / 2 ^ 40
  { id := (s.get (R.WB_MARK_LAST_ID n) + 1) % 65536, alloc := a, type := t, corr0 := d.corr0.toNat, corr1 := d.corr1.toNat, at_ := at_
    stamp := match (s.wbOf n).blockAt ns with
      | some b => b.stamp n ((at_.toNat / 2 ^ 32 : Nat) - (b.startNs * 256 + natBits b.tag0.toNat 32 8 : Nat) - Config.groupDelay t)
      | none => stampAt s at_ n 4
    feg0 := s.get (R.WB_STATE_FEG0 n), feg1 := s.get (R.WB_STATE_FEG1 n), dagc := s.frozenGain n d
    stale := false }

/-- Does the allocation hold a context in its confirmed phase, at work or with its finished record (R197, R200)? -/
def WbSt.allocConfirmed (w : WbSt) (a : Nat) : Bool :=
  ((w.ofAlloc a).any fun p => p.2.confirmed) || w.recs.any fun p => p.2.holds && p.2.confirmed && p.2.alloc == a

/-- The context that a stronger detection restarts (R198): lowest energy of its mark, then lowest number. -/
def WbSt.restartee (w : WbSt) (a energy margin : Nat) : Option (Nat × Ctx) :=
  ((w.ofAlloc a).filter fun p => !p.2.confirmed && decide (p.2.mark.energy + margin ≤ energy)).foldl (fun b p =>
    match b with
    | none => some p
    | some q => if p.2.mark.energy < q.2.mark.energy then some p else some q) none

/-- PREAMBLE_DETECT (R187, R188, R193 to R195, R198 to R200, R625): a detection is counted, places its mark, and takes a context,
restarts one or is dropped. -/
def execPreambleDetect (n : Fin 4) (a : Fin 32) (t : Fin 9) (d : Detection) (s : State) : Answer :=
  let m := s.newMark n.val a.val t.val d
  let dirty := (s.wbOf n.val).ring.any fun b =>
    decide (m.at_.toNat / 2 ^ 40 < b.startNs + 3125) && (natBit b.tag0.toNat 57 || natBit b.tag0.toNat 59)
  if !s.watches n.val a.val t.val || !s.detects n.val t.val d || dirty then .next s
  else
    let s := (s.bumpSat (R.WB_DET_CNT_COUNT n.val) 1).put (R.WB_MARK_LAST_ID n.val) m.id
    let s := s.setWb n.val fun w => { w with marks := (m :: w.marks).take 64 }
    if s.groupFenced (37 + 2 * n.val) then .next (s.sink (.wb n))
    else
      let s := s.ledIn (.wb n) 1
      let w := s.wbOf n.val
      let energy := max d.corr0.toNat d.corr1.toNat
      let margin := 2 * s.get (R.WB_RESTART_MARGIN n.val)
      if s.ap (R.WB_CHAN_LIMIT n.val a.val) + 1 ≤ w.allocHeld a.val then
        .next (((s.bumpSat (R.WB_DROP_LIMIT_COUNT n.val) 1).ledDrop (.wb n) 1).evt (.wb n) E.WB_LIMIT)
      else if w.allocConfirmed a.val then
        .next ((s.bumpSat (R.WB_DROP_BUSY_COUNT n.val) 1).ledDrop (.wb n) 1)
      else match (if s.on (R.WB_RESTART_EN n.val) then w.restartee a.val energy margin else none) with
        | some (k, c) =>
          let s := (s.dropSegments n.val k).setCtx n.val k ((s.newCtx n.val m (s.get (R.WB_ANT_MODE n.val))).keeping c)
          .next (((s.bumpSat (R.WB_RESTART_CNT_COUNT n.val) 1).ledDrop (.wb n) 1).evt (.wb n) E.WB_RESTART)
        | none => match w.freeCtx with
          | none => .next (((s.bumpSat (R.WB_DROP_NOCTX_COUNT n.val) 1).ledDrop (.wb n) 1).evt (.wb n) E.WB_NOCTX)
          | some k => .next (s.setCtx n.val k (s.newCtx n.val m (s.get (R.WB_ANT_MODE n.val))))

/-- ANTENNA_SELECT (R196): per antenna the squared correlation magnitudes of the windows so far.  Once SEL windows are there, the greater
sum over the first SEL is kept, antenna 0 on equal sums. -/
def execAntennaSelect (n : Fin 4) (k : Fin 32) (w0 w1 : List Nat) (s : State) : Answer :=
  match s.ctx n.val k.val with
  | none => .next s
  | some c =>
    let sel := s.get (R.WB_ANT_SEL n.val)
    if c.antMode = 0 ∧ c.ant = none ∧ sel ≤ min w0.length w1.length then
      .next (s.setCtx n.val k.val { c with ant := some (if (w0.take sel).sum < (w1.take sel).sum then 1 else 0) })
    else .next s

/-- What a validated header says: RATE of R236, the length, Crumb, its code rate, the whitening seed, the FCS length. -/
structure ReadPhr where
  rate : Nat
  len : Nat
  crumb : Bool
  crate : Nat
  seed : Option Nat
  fcs4 : Bool
  deriving DecidableEq, Repr

/-- An FSK header (R197, R212, R213): the SFD says whether the frame is coded, the index is the one selected, the mode-switch and the
reserved bits are 0. -/
def Ctx.readFsk (c : Ctx) (h : PhyHeader) : Option ReadPhr :=
  let coded := sfdCoded.contains h.sfd.toNat
  let len := msbNum ((h.bits.drop 5).take 11)
  if !(coded || sfdPlain.contains h.sfd.toNat) || h.index != fskIndex c.mark.type c.fskCfg || h.bits.length != 16
      || (h.bits.take 3).contains true || decide (len < 1) then none
  else some ⟨if coded then 1 + 2 * h.rsc.toNat + 4 * h.inter.toNat else 0, len, false, 0,
    if nth h.bits 4 false then some 0x1FF else none, !nth h.bits 3 false⟩

/-- An OFDM header (R197, R214 to R216, R222): HCS, length, and an MCS that R214 marks and PHY_MCS_EN enables, or a Crumb code rate. -/
def Ctx.readOfdm (c : Ctx) (h : PhyHeader) : Option ReadPhr :=
  let opt := c.mark.type - 4
  let rate := msbNum (h.bits.take 5)
  let len := msbNum ((h.bits.drop 6).take 11)
  let seed := some (ofdmSeed (msbNum ((h.bits.drop 19).take 2)))
  if h.bits.length != 30 || msbNum (h.bits.drop 22) != headerCheck (h.bits.take 22) || decide (len < 1) then none
  else if rate ≤ 6 then
    if natBit (mcsMarked opt) rate && natBit (bitsGet (8 * (opt - 1)) 7 c.mcsEn) rate then some ⟨rate, len, false, 0, seed, true⟩ else none
  else if decide (16 ≤ rate) && decide (rate ≤ 18) && natBit c.crumbCfg.toNat 0 && decide (opt ≤ 3) then
    some ⟨15, len, true, rate - 16, seed, true⟩
  else none

/-- A header under R197, R215 and R216 for the settings a context keeps: none if it is not valid. -/
def Ctx.readPhr (c : Ctx) (h : PhyHeader) : Option ReadPhr := if c.mark.type ≤ 4 then c.readFsk h else c.readOfdm h

/-- PHR_DECODED (R134, R197, R199, R215, R222): the context confirms its header, with the stamp of the reference plane, or ends as a false
detection. -/
def execPhrDecoded (n : Fin 4) (k : Fin 32) (h : PhyHeader) (s : State) : Answer :=
  match s.ctx n.val k.val with
  | none => .next s
  | some c =>
    if c.confirmed then .next s
    else match c.readPhr h with
      | none => .next (s.falseCtx n.val k.val)
      | some r =>
        let off : Int := (10000 * h.sample.val + h.frac.val : Nat) - Config.groupDelay c.mark.type
        let c := { c with confirmed := true, rate := r.rate, crumb := r.crumb, len := r.len, crate := r.crate, seed := r.seed
                          fcs4 := r.fcs4, reached := true, ant := some (c.ant.getD 0) }
        let c := match (s.wbOf n.val).ring[h.block]? with
          | some b => { c with stamp := b.stamp n.val off, refNs := b.nsAt b.rawNs off, refAt := b.nsAt b.startNs off }
          | none => { c with stamp := s.stamp n.val 4, refNs := s.lin, refAt := s.lin }
        let s := s.setCtx n.val k.val c
        .next (if r.crumb then s.bumpSat R.PHY_CRUMB_RX_COUNT 1 else s)

/-- The header limit in ns (R197): of FSK the air time of 2 + WAIT preamble octets, the SFD and the PHR as sent. -/
def State.headerLimit (s : State) (n type : Nat) (coded : Bool) : Nat :=
  if type ≤ 4 then ceilDiv ((s.get (R.WB_FSK_SFD_WAIT n) + 4 + (if coded then 4 else 2)) * 8000000) (fskKbps type)
  else s.get (R.WB_OFDM_HDR_US n) * 1000

/-- The time of the end of the last block in a chain's sample ring (80 samples at 25.6 MHz, R201). -/
def State.ringEnd (s : State) (n : Nat) : Nat := match (s.wbOf n).ring with
  | b :: _ => b.startNs + 3125
  | [] => 0

/-- HEADER_LIMIT_EXPIRED (R197, R625): no header validated within the limit.  With group 36 + 2n fenced, a context whose header would run
past the last block in the ring ends with STOPPED. -/
def execHeaderLimitExpired (n : Fin 4) (k : Fin 32) (coded : Bool) (s : State) : Answer :=
  match s.ctx n.val k.val with
  | none => .next s
  | some c =>
    if c.confirmed then .next s
    else if s.groupFenced (36 + 2 * n.val)
        && decide (s.ringEnd n.val < c.mark.at_.toNat / 2 ^ 40 + s.headerLimit n.val c.mark.type coded) then
      .next (s.endCtx n.val 8 k.val)
    else .next (s.falseCtx n.val k.val)

/-- MAP_BLOCK_DECODED (R223, R226, R231): the bits of the map block.  A block that fails ends the context with FCS_FAIL and LEN 0. -/
def execMapBlockDecoded (n : Fin 4) (k : Fin 32) (bits : List Bool) (s : State) : Answer :=
  match s.ctx n.val k.val with
  | none => .next s
  | some c =>
    if !c.confirmed || !c.crumb then .next s
    else match readMapBlock (c.mark.type - 4) bits with
      | some m => .next (s.setCtx n.val k.val { c with map := m })
      | none =>
        let (s, id) := s.ctxToRec n.val k.val (c.toRec k.val)
        let s := (s.bumpSat R.PHY_MAP_FAIL_COUNT 1).evt .phy E.PHY_MAP_FAIL
        .next (s.settleRec n.val id 1)

/-- MARK_STALE (R202): the block that holds the mark is overwritten; contexts on it are told, whether or not it is still in the table. -/
def execMarkStale (n : Fin 4) (id : BitVec 16) (s : State) : Answer :=
  let w := s.wbOf n.val
  if s.powered (.wb n) && ((w.marks.any fun m => m.id == id.toNat) || w.ctxs.any fun p => p.2.mark.id == id.toNat) then
    .next (s.staleMarks n.val fun m => m.id == id.toNat)
  else .next s

/-! ## Records (R206 to R208) -/

/-- RECORD_DELIVER (R208, R561, R563): the queue grants credit, the record goes and its context is free. -/
def execRecordDeliver (n : Fin 4) (r : Nat) (s : State) : Answer :=
  match s.wrec n.val r with
  | none => .next s
  | some x =>
    if x.result = none ∨ s.groupFenced (37 + 2 * n.val) then .next s
    else
      let got := if x.cells.isEmpty then s.allocPacket (37 + 2 * n.val) (recOctets x.len) else some (s, x.cells)
      match got with
      | none => .next s
      | some (s, cs) =>
        let s := (s.setRec n.val r { x with cells := cs }).fillCells cs x.octets
        let p : HostPkt := { data := x.octets, kind := 1, src := n.val, octets := recOctets x.len, stamp := some x.stamp, authFail := false, sa := none, cells := cs, descs := 0 }
        match s.offerHost (s.on (R.HOST_MAP_CHAIN_VALID n.val)) (s.get (R.HOST_MAP_CHAIN_Q n.val)) p with
        | (s, .taken) => .next ((s.ledOut (.wb n) 1).setWb n.val fun w => { w with recs := mapErase w.recs r })
        | (s, .noQueue) =>
          .next (((s.freeCells .drop cs).ledDrop (.wb n) 1).setWb n.val fun w => { w with recs := mapErase w.recs r })
        | (s, .noCredit _) => .next s

/-- REC_TIMEOUT (R208): no credit came in time. -/
def execRecTimeout (n : Fin 4) (r : Nat) (s : State) : Answer :=
  match s.wrec n.val r with
  | none => .next s
  | some x =>
    if x.result = none then .next s
    else .next (((s.bumpSat (R.WB_REC_DROP_COUNT n.val) 1).evt (.wb n) E.WB_REC_DROP).dropRec n.val r false .rectmo)

/-! ## Commands of the page (R203, R210) -/

/-- Ns left before a mark becomes stale: 2 ms from the first sample of its block. -/
def State.markLeft (s : State) (n : Nat) (m : Mark) : Nat :=
  let t := m.at_.toNat / 2 ^ 40
  let start := match (s.wbOf n).blockAt t with
    | some b => b.startNs
    | none => t
  start + 2000000 - s.lin

/-- REPLAY (R203): a free context acquires the frame again from a mark. -/
def execReplay (m : Master) (n : Fin 4) (tag : BitVec 8) (s : State) : Answer :=
  .next (s.onCommand m (.wb n) tag fun s =>
    let b : Block := .wb n
    let id := s.argBits b 0 0 16
    let mode := s.argBits b 1 0 2
    if mode = 3 then s.done b .range
    else match (s.wbOf n.val).marks.find? fun k => k.id == id with
      | none => s.complete b .notFound 2 0 0 0
      | some k =>
        if k.stale ∨ s.markLeft n.val k < 50000 then s.complete b .notFound 1 0 0 0
        else match (s.wbOf n.val).freeCtx with
          | none => s.done b .full
          | some c =>
            let s := (s.ledIn b 1).setCtx n.val c { s.newCtx n.val k mode with replayed := true }
            s.complete b .ok 0 (BitVec.ofNat 32 c) 0 0)

/-- CAPTURE (R210): sample blocks go to the chain's area. -/
def execCapture (m : Master) (n : Fin 4) (tag : BitVec 8) (s : State) : Answer :=
  .next (s.onCommand m (.wb n) tag fun s =>
    let b : Block := .wb n
    let start := toSigned 32 (s.arg b 0).toNat
    let us := (s.arg b 1).toNat
    if start < -1950 ∨ 0 < start ∨ us < 1 ∨ 2000 < us then s.done b .range
    else if (s.wbOf n.val).capture.isSome then s.done b .state
    else (s.startRun b (s.mkRun b 0x02 m tag false)).startCapture n.val (s.lin - (-start).toNat * 1000) us true)

/-- CAPTURE_DONE (R210): the last block is written. -/
def execCaptureDone (n : Fin 4) (s : State) : Answer :=
  match (s.wbOf n.val).capture with
  | none => .next s
  | some c =>
    if c.left ≠ 0 then .next s
    else
      let s := (s.put (R.WB_CAP_STAT_BUSY n.val) 0).setWb n.val fun w => { w with capture := none }
      let s := s.evt (.wb n) E.WB_CAP_DONE
      .next (if c.byCommand && s.runOp (.wb n) == some 0x02 then s.done (.wb n) .ok else s)

/-- SLOT_POWER_UPDATE (R211): the 64 slot powers, antenna 0 and antenna 1. -/
def execSlotPowerUpdate (n : Fin 4) (p0 p1 : List (BitVec 16)) (s : State) : Answer :=
  if !s.powered (.wb n) then .next s
  else .next ((List.range 64).foldl (fun s i =>
    (s.put (R.WB_SLOT_PWR_ANT0 n.val i) (nth p0 i 0).toNat).put (R.WB_SLOT_PWR_ANT1 n.val i) (nth p1 i 0).toNat) s)

end Sys2Proof.Machine
end

