-- ==== Sys2Proof/Machine/Phy.lean ====
section
/-! DEFINITION. The commands of the PHY (R217 to R239): the decoder pools, MAP_CHECK and the SNR FIFO. -/

namespace Sys2Proof.Machine

/-- The soft values of a segment in the order of the code bits (R218, R219, R227, R228): of a Crumb symbol the two copies of each point
combined and dealt back, of SUN OFDM the repetitions combined and deinterleaved, of interleaved FSK deinterleaved. -/
def Ctx.softBits (c : Ctx) (l : List Int) : List Int :=
  let opt := c.mark.type - 4
  if c.mark.type ≤ 4 then (if natBit c.rate 2 then fskInterleave l else l)
  else if c.crumb then
    let n := mapNcbps opt c.map
    undeal (pointBits opt c.map) ((List.range n).map fun i => combine (nth l i 0) (nth l (n + i) 0))
  else
    let (b, _, rep) := mcsOf c.rate
    let n := mcsNcbps opt c.rate
    ofdmDeinterleave (12 / rep) b ((List.range n).map fun i =>
      (List.range rep).foldl (fun a r => combine a (nth l (n * r + i) 0)) 0)

/-- SEGMENT_SUBMIT (R218 to R220): a context has at most two segments in its pool; PEAK follows QUEUE. -/
def execSegmentSubmit (n : Fin 4) (k : Fin 32) (llrs : List (BitVec 5)) (s : State) : Answer :=
  match s.ctx n.val k.val with
  | none => .next s
  | some c =>
    if !s.pdOn 4 || decide (2 ≤ ((s.pool n.val).filter fun x => x.ctx == k.val).length) then .next s
    else if s.groupFenced (44 + n.val) then .next (s.sink .phy)
    else
      let (code, rate) := c.code.getD (1, 0)
      let l := fillDecoders (s.pool n.val ++ [⟨k.val, false, c.softBits (llrs.map (·.toInt)), code, rate⟩])
      let s := (s.setPool n.val l).ledIn .phy 1
      .next (s.put (R.PHY_POOL_PEAK n.val) (max (s.get (R.PHY_POOL_PEAK n.val)) (waitingSegs l)))

/-- SEGMENT_DECODED (R18, R219, R220): a decoder finishes a context's oldest segment, the context's buffer takes the octets decided so
far, and the decoder takes the next segment that waits. -/
def execSegmentDecoded (n : Fin 4) (k : Fin 32) (s : State) : Answer :=
  match (s.pool n.val).find? fun x => x.ctx == k.val && x.active with
  | none => .next s
  | some x =>
    let d := (s.decoder n.val k.val).segment (codeNo x.code) (keepOf x.rate) x.llrs
    let s := (s.setPool n.val (fillDecoders ((s.pool n.val).erase x))).ledOut .phy 1
    let s := { s with phy := { s.phy with saved := mapSet s.phy.saved (32 * n.val + k.val) d } }
    match s.ctx n.val k.val with
    | none => .next s
    | some c => .next (s.setCtx n.val k.val { c with buffer := c.dewhiten (d.bits.drop (if c.mark.type ≤ 4 then 16 else 0)) })

/-- MAP_CHECK (R226, R230, R237). -/
def execMapCheck (m : Master) (tag : BitVec 8) (s : State) : Answer :=
  .next (s.onCommand m .phy tag fun s =>
    let map := (s.arg .phy 0).toNat + 2 ^ 32 * (s.arg .phy 1).toNat
    let opt := s.argBits .phy 2 0 2
    let rate := s.argBits .phy 2 2 2
    if !mapValid opt map || rate == 3 then s.done .phy .range
    else s.complete .phy .ok 0 (BitVec.ofNat 32 (mapNcbps opt map)) (BitVec.ofNat 32 (mapRate opt map rate)) 0)

/-- What a read puts on the bus. -/
def State.onBus (s : State) (v : W32) : State := { s with busData := v }

/-- PHY_SNR_POP (R238, R443): the oldest report; its other words are latched for the master. -/
def execPhySnrPop (m : Master) (s : State) : Answer :=
  if !s.reaches m .phy then .next (s.onBus 0)
  else
    let r := s.phy.snr.head?.getD []
    let s := { s with phy := { s.phy with snr := s.phy.snr.drop 1 } }
    let s := (List.range 11).foldl (fun s i => s.setWord (ownCopy m (R.PHY_SNR_W_WORD (i + 1))).a (nth r (i + 1) 0)) s
    .next (s.onBus (nth r 0 0))

end Sys2Proof.Machine
end

