-- ==== Sys2Proof/Machine/RegWrite.lean ====
section
/-! DEFINITION. The one way a register is written over the bus (R55, R56, R78 to R81): the register map of an address, the checks
of a write, the refusal, and the store of what may be written. -/

namespace Sys2Proof.Machine

/-- A register map that starts at an offset of the block. -/
abbrev RegMap := Nat × List RegSpec

/-- A map of the same registers repeated at a stride. -/
def repeated (base stride n : Nat) (l : List RegSpec) : List RegMap := (List.range n).map fun i => (base + stride * i, l)

/-- The register maps of a block (spec/02 to spec/19). -/
def blockMaps : Block → List RegMap
  | .sys => []
  | .pwr => [(0, T.tPwr ++ T.tPwrGov)]
  | .fab => [(0, T.tFab)]
  | .ret => [(0, T.tRet)]
  | .tamp => [(0, T.tTamp)]
  | .tb => [(0, T.tTb)]
  | .trig => (0, T.tTrig) :: (repeated 0x100 0x20 8 T.tTrigCh ++ repeated 0x1100 0x20 8 T.tTrigCh)
  | .rf n => if n.val = 0 then [(0, T.tRf), (0, T.tRf0)] else [(0, T.tRf)]
  | .wb _ => [(0, T.tWb)]
  | .phy => [(0, T.tPhy)]
  | .mac => [(0, T.tMac)]
  | .bcn => [(0, T.tBcn)]
  | .flood => [(0, T.tFlood)]
  | .peel => [(0, T.tPeel), (0, T.tPeel1)] ++ repeated 0x2100 0x10 10 T.tPeelList
  | .dir => [(0, T.tDir)]
  | .sieve e => if e.val = 2 then [(0, T.tSieveP)] else [(0, T.tSieve)]
  | .port _ => [(0, T.tPort)]
  | .crust x => if x.val = 0 then [(0, T.tCrust)] else (0, T.tCrustX) :: repeated 0x200 0x40 (if x.val = 3 then 8 else 1) T.tCrustK
  | .rack => [(0, T.tRack)]
  | .starter => [(0, T.tStarter)]
  | .proof => [(0, T.tProof)]
  | .fwu => (0, T.tFwu) :: repeated 0x200 0x20 8 T.tFwuSlot
  | .host => [(0, T.tHost), (0, T.tHostMsix)] ++ repeated 0x1000 0x40 64 T.tHostQ
  | .crc => (0, T.tCrc) :: repeated 0x1000 0x40 24 T.tCrcCh
  | .gpio => [(0, T.tGpio)]

/-- Does the register (placed at `base`) hold the offset? -/
def RegSpec.holds (r : RegSpec) (base o : Nat) : Bool :=
  decide (base + r.off ≤ o) && decide ((o - base - r.off) % r.stride = 0) && decide ((o - base - r.off) / r.stride < r.n)

/-- The register at an offset of a block: its map and its place among its elements. -/
def regAt (b : Block) (o : Nat) : Option (RegSpec × Nat) :=
  if o < 0x100 ∧ o ≠ 0x40 then (T.tHdr.find? fun r => r.holds 0 o).map fun r => (r, (o - r.off) / r.stride)
  else (blockMaps b).findSome? fun m =>
    (m.2.find? fun r => r.holds m.1 o).map fun r => (r, (o - m.1 - r.off) / r.stride)

/-- Is a field's value permitted (R78)? -/
def Rng.ok (r : Rng) (w x : Nat) : Bool :=
  match r with
  | .any => true
  | .rng lo hi => decide (lo ≤ x) && decide (x ≤ hi)
  | .srng lo hi => decide (lo ≤ toSigned w x) && decide (toSigned w x ≤ hi)
  | .offOr lo hi => x == 0 || (decide (lo ≤ x) && decide (x ≤ hi))
  | .mask m => x &&& m == x
  | .nhPort => decide (x ≤ 9) || x == 14 || x == 15

/-- Can software write the field? -/
def Acc.writable : Acc → Bool
  | .rw | .wo | .w1c | .w1s => true
  | .ro | .pop => false

/-- Is every written field of the register in its permitted range? -/
def RegSpec.rangesOk (r : RegSpec) (v : W32) : Bool :=
  r.fields.all fun f => !f.acc.writable || f.rng.ok f.w (bitsGet f.lo f.w v)

/-- The stored bits of a write: RW fields take the value; a bit written as 1 to a W1S field is set; WO, W1C and RO fields and RSV
bits keep what they hold (R9, R79; a 1 clears a bit of a W1C field, and those of the common header have commands of their own). -/
def RegSpec.store (r : RegSpec) (old v : W32) : W32 :=
  r.fields.foldl (fun a f =>
    match f.acc with
    | .rw => maskSet (bitsMask f.lo f.w) a v
    | .w1s => a ||| (v &&& bitsMask f.lo f.w)
    | .w1c => if 0x100 ≤ r.off then a &&& ~~~(v &&& bitsMask f.lo f.w) else a
    | _ => a) old

/-- Is the field's register staged? -/
def RegSpec.staged (r : RegSpec) : Bool := r.fields.any fun f => f.staged != .no

/-- Group size of preamble type t (R185). -/
def typeGroup (t : Nat) : Nat :=
  match t with
  | 0 => 1 | 1 => 2 | 2 => 2 | 3 => 2 | 4 => 2 | 5 => 8 | 6 => 4 | 7 => 2 | _ => 1

/-- The present short time or sensor tick against a target: reached when the signed difference is not negative (R138). -/
def reached32 (now tgt : Nat) : Bool := decide ((now + 2 ^ 32 - tgt % 2 ^ 32) % 2 ^ 32 < 2 ^ 31)

/-- The ranges of SEL and PARAM that go with KIND (R140, R601). -/
def trigPairOk (kind sel param : Nat) : Bool :=
  match kind with
  | 1 => decide (sel ≤ 3) && param == 0
  | 2 => decide (sel ≤ 3) && decide (1 ≤ param) && decide (param ≤ 2000)
  | 3 => sel == 0 && decide (100 ≤ param) && decide (param ≤ 500000000)
  | 4 | 5 => param == 0
  | 6 => sel == 0 && param &&& 0x13F == param && decide (param % 64 ≤ 47)
  | _ => sel == 0 && param == 0

/-- Has the time reached the target of trigger channel k, in ns or in sensor ticks (R138)? -/
def State.trigReached (s : State) (k : Nat) (ticks : Bool) : Bool :=
  reached32 (if ticks then s.st else s.short) (s.get (R.TRIG_TGT_TGT k))

/-- Would a write of TRIG_CTLk arm the channel on a target already reached although NO_PAST is 1 (R139)? -/
def State.armsInPast (s : State) (k : Nat) (v : W32) : Bool :=
  natBit v.toNat 0 && natBit v.toNat 1 && !s.on (R.TRIG_CTL_ARM k) && s.trigReached k (natBit v.toNat 2)

/-- Checks of R78 that look at more than one field or at the state, by register name. -/
def State.crossOk (s : State) (b : Block) (name : String) (k : Nat) (v : W32) : Bool :=
  match name with
  | "H_CFG_STAGE" => decide (s.get (R.H_CFG_EPOCH_EPOCH b.base) < v.toNat)
  | "RF_CENTRE" =>
    let x := bitsGet 0 22 v
    if b.inst = 3 then decide (2406400 ≤ x) && decide (x ≤ 2477100) else decide (386400 ≤ x) && decide (x ≤ 1013600)
  | "WB_CHAN" =>
    let g := 2 ^ bitsGet 1 2 v
    decide (bitsGet 4 6 v + g ≤ 64) && (bitList (bitsGet 18 9 v) 9).all fun t => typeGroup t == g
  | "PHY_CRUMB_THR" => decide (bitsGet 0 8 v < bitsGet 8 8 v) && decide (bitsGet 8 8 v < bitsGet 16 8 v) && decide (bitsGet 16 8 v < bitsGet 24 8 v)
  | "MAC_SEC_POLICY" => natBit v.toNat 8 || !(natBit v.toNat 4 || bitsGet 16 3 v == 4)
  | "FLOOD_DELAY" => decide (bitsGet 0 16 v ≤ bitsGet 16 16 v)
  | "PEEL_QUOTA" =>
    decide ((List.range 9).foldl (fun a i => a + if i = k then bitsGet 0 19 v else s.get (R.PEEL_QUOTA_ITEMS i)) 0 ≤ 458752)
  | "RACK_POOL_CFG" =>
    decide (bitsGet 0 14 v ≤ bitsGet 16 14 v) &&
    decide ((List.range 8).foldl (fun a i => a + 16 * (if i = k then bitsGet 0 14 v else s.get (R.RACK_POOL_CFG_RESERVE i))) 0 ≤ 131072)
  | "PORT_MODE" => decide (b.inst < 2) || (decide (1 ≤ bitsGet 4 4 v) && decide (bitsGet 4 4 v ≤ 4))
  | "PORT_LANE" =>
    if b.inst < 2 then (List.range 4).all fun x => (List.range 4).any fun i => bitsGet (2 * i) 2 v == x
    else bitsGet 0 8 v == 0xE4 && decide (bitsGet 8 4 v ≤ 1) && decide (bitsGet 12 4 v ≤ 1)
  | "CRUSTX_IMPL" =>
    let sc := bitsGet 0 12 v
    if b.inst = 1 then decide (sc < 1024) else if b.inst = 2 then decide (1024 ≤ sc) && decide (sc < 2048) else decide (2048 ≤ sc)
  | "CRUST_PN_THR64_HI" => v.toNat + s.get R.CRUST_PN_THR64_LO_THRESH != 0
  | "SIEVE_FLOOD" => servedBy k == b.inst || v &&& 0x7FF#32 == 0
  | "PWR_GOV_ECON_FLOOR" => decide (bitsGet 0 6 v ≤ s.get R.PWR_GOV_CEIL_CODE)
  | "PWR_GOV_CEIL" => decide (s.get R.PWR_GOV_ECON_FLOOR_CODE ≤ bitsGet 0 6 v)
  | "TB_RATE" => s.tbMode != 3
  | "TB_SRC_SET" => !natBit v.toNat 2 || s.tbMode == 1 || s.tbMode == 2
  | "TRIG_CTL" =>
    (!(natBit v.toNat 0 || s.on (R.TRIG_CTL_ARM k)) || trigPairOk (bitsGet 4 4 v) (bitsGet 8 4 v) (s.get (R.TRIG_PARAM_PARAM k)))
      && !s.armsInPast k v
  | "TRIG_TGT" => !s.on (R.TRIG_CTL_ARM k)
  | "TRIG_PARAM" => !s.on (R.TRIG_CTL_ARM k) || trigPairOk (s.get (R.TRIG_CTL_KIND k)) (s.get (R.TRIG_CTL_SEL k)) v.toNat
  | "TAMP_CFG" =>
    let floor := natBits (s.get R.TAMP_FLOOR_RESP) (2 * k) 2
    !s.on R.TAMP_LOCK_LOCK && decide (floor ≤ bitsGet 0 2 v) && (natBit v.toNat 2 || floor == 0)
  | "TAMP_VIN" | "TAMP_GLITCH" | "TAMP_MESH" => !s.on R.TAMP_LOCK_LOCK
  | "CRC_CFG" | "CRC_SRC_LO" | "CRC_SRC_HI" | "CRC_DST_LO" | "CRC_DST_HI" | "CRC_LEN" => s.get (R.CRC_STAT_STATE k) != 1
  | "GPIO_PULL" => (List.range 16).all fun i => bitsGet (2 * i) 2 v != 3
  | "HOST_Q_CFG" | "HOST_Q_RXBASE_HI" | "HOST_Q_TXBASE_HI" => s.get (R.HOST_Q_STATE_STATE k) != 1
  | "HOST_Q_RXBASE_LO" | "HOST_Q_TXBASE_LO" => s.get (R.HOST_Q_STATE_STATE k) != 1 && bitsGet 0 12 v == 0
  | _ => true

/-- The place of a register among the repetitions of its map: the queue, channel or element number the checks of `crossOk` use. -/
def elementOf (b : Block) (o i : Nat) : Nat :=
  match b with
  | .host => if 0x1000 ≤ o ∧ o < 0x2000 then (o - 0x1000) / 0x40 else i
  | .crc => if 0x1000 ≤ o then (o - 0x1000) / 0x40 else i
  | .trig => if 0x1100 ≤ o then 8 + (o - 0x1100) / 0x20 else if 0x100 ≤ o ∧ o < 0x300 then (o - 0x100) / 0x20 else i
  | _ => i

/-- A refused write (R78). -/
def State.refuse (s : State) (b : Block) (o : Nat) : State :=
  let s := (s.put (R.H_REFUSED_OFFSET b.base) (o % 0x1000)).put (R.H_REFUSED_PAGE b.base) (o / 0x1000)
  (s.bumpSat (R.H_REFUSED_COUNT b.base) 1).put (R.H_STATUS_ERR b.base) 1

/-- The word that holds a register of a block for a master: its own copy, or the shared one. -/
def regKey (m : Master) (b : Block) (o : Nat) (r : RegSpec) : Nat :=
  if r.perMaster then b.base + o + masterStride * (m.idx + 1) else b.base + o

/-- What became of a bus write. -/
inductive WriteOutcome where
  /-- no register, its domain is off (counted, R21, R55), or a master that is not answered (R96) -/
  | ignored
  | refused
  | applied (b : Block) (r : RegSpec) (o i : Nat) (old : W32)
  deriving DecidableEq, Repr

/-- Note a write to a staged register: before the first one the value in force is the value read (R80). -/
def State.noteStaged (s : State) (b : Block) (key : Nat) (old : W32) : State :=
  let s := if (mapGet s.applied key).isSome then s else { s with applied := mapSet s.applied key old }
  let s := s.setBlk b fun x => { x with pend := if x.pend.contains key then x.pend else x.pend ++ [key] }
  s.put (R.H_CFG_PEND_PENDING b.base) 1

/-- A full-word write of `v` at a BAR0 address by a master (`full`: not narrower than 32 bits).  Answers what became of it. -/
def State.busWrite (s : State) (m : Master) (a : Nat) (full : Bool) (v : W32) : State × WriteOutcome :=
  if !s.hears m then (s, .ignored)
  else match blockAt a with
  | none => ({ s with unmapped := s.unmapped + 1 }, .ignored)
  | some (b, o) =>
    if !s.powered b then (s.offWrite, .ignored)
    else match regAt b o with
      | none => (s, .ignored)
      | some (r, i) =>
        if r.fields.all fun f => f.acc == .ro || (full && f.acc == .pop) then (s, .ignored)
        else if !full then (s.refuse b o, .refused)
        else if !r.rangesOk v || !s.crossOk b r.name (elementOf b o i) v then (s.refuse b o, .refused)
        else
          let key := regKey m b o r
          let old := s.word key
          let s := if r.staged then s.noteStaged b key old else s
          (s.setWord key (r.store old v), .applied b r o i old)

end Sys2Proof.Machine
end

