-- ==== Sys2Proof/Machine/StarterOps.lean ====
section
/-! DEFINITION. Starter's shared operations (R461 to R503): slots and their use, the journal, branch and node keys, the derived-key
cache, and how a key operation ends. -/

namespace Sys2Proof.Machine

/-- Change Starter. -/
def State.setStarter (s : State) (f : StarterSt → StarterSt) : State := { s with starter := f s.starter }

/-- Is the power-fail warning in force (R93)? -/
def State.pfWarn (s : State) : Bool := s.on R.PWR_VIN_PF

/-- The use count that is not counted (R482). -/
def uncounted : Nat := 0xFFFFFF

/-- Attribute bits of R481. -/
def useDerive : Nat := 0
def useKek : Nat := 1
def useSak : Nat := 2
def useMesh : Nat := 3
def useWrappable : Nat := 4
def useCak : Nat := 5

/-- The OWNER bit of a master (R481). -/
def masterOwnerBit : Master → Nat
  | .host => 8
  | .spi => 9
  | .core _ => 10

/-- Has the slot the attribute? -/
def KeySlot.has (k : KeySlot) (bit : Nat) : Bool := natBit k.attrs.toNat bit

/-! ## The journal of the retained slots (R490, R491) -/

/-- The valid copies of a slot. -/
def StarterSt.validCopy (t : StarterSt) (i : Nat) : Option JCopy :=
  match mapGet t.copies i with
  | some c => if c.marked && c.good then some c else none
  | none => none

/-- The copy in force of a retained slot: 0 or 1 with its contents; the first where neither is valid. -/
def StarterSt.current (t : StarterSt) (slot : Nat) : Nat × Option JCopy :=
  match t.validCopy (2 * slot), t.validCopy (2 * slot + 1) with
  | some a, some b => if a.seq < b.seq then (1, some b) else (0, some a)
  | some a, none => (0, some a)
  | none, some b => (1, some b)
  | none, none => (0, none)

/-- The journal sequence of a slot. -/
def StarterSt.jseq (t : StarterSt) (slot : Nat) : Nat := match (t.current slot).2 with
  | some c => c.seq
  | none => 0

/-- The copy an update writes: the one that does not hold the highest valid sequence. -/
def StarterSt.stale (t : StarterSt) (slot : Nat) : Nat :=
  match (t.current slot).2 with
  | some _ => 2 * slot + (1 - (t.current slot).1)
  | none => 2 * slot

/-- An update begins: its copy's word 0 is written with the marker cleared. -/
def StarterSt.beginUpdate (t : StarterSt) (slot : Nat) : StarterSt :=
  { t with copies := mapModify t.copies (t.stale slot) ⟨0, false, true, none⟩ fun c => { c with marked := false } }

/-- An update commits: word 0 with sequence + 1 and the marker; the slot holds the new key or none. -/
def StarterSt.commitUpdate (t : StarterSt) (slot : Nat) (new : Option KeySlot) : StarterSt :=
  { t with
    copies := mapSet t.copies (t.stale slot) ⟨t.jseq slot + 1, true, true, new⟩
    slots := match new with
      | some k => mapSet t.slots slot k
      | none => mapErase t.slots slot }

/-- Store a slot: at once if volatile, committed if retained. -/
def StarterSt.storeNow (t : StarterSt) (slot : Nat) (new : Option KeySlot) : StarterSt :=
  if slot < 512 then { t with slots := match new with
    | some k => mapSet t.slots slot k
    | none => mapErase t.slots slot }
  else t.commitUpdate slot new

/-! ## Using a slot (R480, R482) -/

/-- What a use of a slot comes to: its key, with the updates its count needs in the journal, or a code. -/
inductive SlotUse where
  | ok (k : KeySlot) (updates : List (Nat × Option KeySlot))
  | no (c : Code)
  deriving DecidableEq, Repr

/-- Use a slot for the purpose of an attribute bit by the party of an owner bit. -/
def State.useSlot (s : State) (slot use owner : Nat) : State × SlotUse :=
  if 575 < slot then (s, .no .range)
  else if 572 ≤ slot then (s, .no .locked)
  else match mapGet s.starter.slots slot with
    | none => (s, .no .notFound)
    | some k =>
      if !k.has use || !k.has owner then (s, .no .locked)
      else if k.count = 0 then (s, .no .exhausted)
      else if k.count = uncounted then (s, .ok k [])
      else
        let k' := { k with count := k.count - 1 }
        if slot < 512 then
          ((s.setStarter (·.storeNow slot (some k'))).evtIf (k'.count == 0) .starter E.STARTER_EXH, .ok k [])
        else if s.pfWarn then (s, .no .state)
        else (s, .ok k [(slot, some k')])

/-- The checks on a slot that a command makes a key into (R480 to R483, R492, R504); `len`: octets of the key. -/
def State.makeCheck (s : State) (slot : Nat) (attrs : W32) (count len : Nat) : Option Code :=
  if 575 < slot then some .range
  else if 572 ≤ slot then some .locked
  else if attrs &&& 0x48C0#32 != 0 then some .range
  else if natBit attrs.toNat useMesh != (decide (512 ≤ slot) && decide (slot ≤ 515)) then some .range
  else if natBit attrs.toNat 13 != (len == 32) then some .range
  else if count = 0 then some .range
  else if (mapGet s.starter.slots slot).isSome then some .state
  else if 512 ≤ slot ∧ s.pfWarn then some .state
  else none

/-- The slot as made: VALID is set. -/
def madeSlot (attrs : W32) (count : Nat) (key : List Nat) : KeySlot := ⟨attrs ||| 0x8000#32, count, key⟩

/-! ## How a key operation ends (R490, R503, R504) -/

/-- STARTER_OUT and the result reach the master that issued the command; an item completes with the code. -/
def State.endKeyOp (s : State) (c : Code) (res1 : Nat) (out : List Nat) (item : Option Nat) : State :=
  let s := if c = .ok then s.ledOut .starter 1 else if c = .fenced then s.ledFence .starter 1 else s.ledDrop .starter 1
  let s := s.evtIf (c == .tampered) .starter E.STARTER_TAMPERED
  match item with
  | some id => s.finishItem id c 0
  | none =>
    let m := (s.blk .starter).run.map (·.master)
    let s := s.setStarter fun t => { t with out := out, outFor := m }
    s.complete .starter c 0 (BitVec.ofNat 32 res1) 0 0

/-- All updates have committed: a volatile slot is made, the operation ends. -/
def State.finishKeyOp (s : State) (o : KeyOp) : State :=
  let s := s.setStarter fun t =>
    let t := { t with op := none }
    match o.makes with
    | some (slot, k) => t.storeNow slot (some k)
    | none => t
  s.endKeyOp (if o.auth then .auth else .ok) o.res1 o.out o.item

/-- Start a key operation whose outcome is known: it ends at once, or when its retained updates have committed. -/
def State.startKeyOp (s : State) (o : KeyOp) : State :=
  match o.updates with
  | [] => s.finishKeyOp o
  | (slot, _) :: _ => s.setStarter fun t => { t.beginUpdate slot with op := some o }

/-- A key operation that puts a key into a slot: volatile at its end, retained through the journal. -/
def makeOp (slot : Nat) (k : KeySlot) (updates : List (Nat × Option KeySlot)) (res1 : Nat) (out : List Nat) (item : Option Nat) : KeyOp :=
  if slot < 512 then { updates := updates, makes := some (slot, k), out := out, res1 := res1, item := item }
  else { updates := updates ++ [(slot, some k)], makes := none, out := out, res1 := res1, item := item }

/-- An operation in progress ends early with a code: nothing uncommitted takes effect (R492, R499). -/
def State.dropKeyOp (s : State) (c : Code) : State :=
  match s.starter.op with
  | none => s
  | some o => (s.setStarter fun t => { t with op := none }).endKeyOp c 0 [] o.item

/-- Octets of STARTER_DATA. -/
def State.starterData (s : State) (n : Nat) : List Nat :=
  ((List.range 16).flatMap fun i => (leOctets 4 (s.get (R.STARTER_DATA_WORD i))).map (·.toNat)).take n

/-- Command acceptance on the STARTER page (R464, R494, R503): `exempt`: SLOT_INFO and MC_READ. -/
def State.onStarter (s : State) (m : Master) (tag : BitVec 8) (op : Nat) (exempt : Bool) (body : State → State) : State :=
  s.onCommand m .starter tag fun s =>
    let s := (s.startRun .starter (s.mkRun .starter op m tag false)).ledIn .starter 1
    if !exempt && s.on R.TAMP_STATE_ALARM then s.endKeyOp .tampered 0 [] none
    else if s.starter.lc = 0 ∨ (!exempt ∧ (s.starter.lc = 4 ∨ s.on R.STARTER_STATE_ROOT_BAD)) then s.endKeyOp .locked 0 [] none
    else body s

/-! ## Keys from the root and mesh keys (R465 to R475) -/

/-- The fuse row of a life-cycle state: 16 random octets and the marker octet. -/
def State.fuseRowOf (s : State) (lc : Nat) : List Nat :=
  match mapGet s.starter.rows lc with
  | some r => r.bits ++ [if r.marker then 1 else 0]
  | none => beList 16 (Config.fuseRow lc).toNat ++ [1]

/-- The life-cycle diversifier (R465).  The marker octet is taken as 1 where blown. -/
def State.lcd (s : State) : List Nat := (sha384 (s.starter.lc :: s.fuseRowOf s.starter.lc)).take 32

/-- A branch key (R469, R471). -/
def State.branchKey (s : State) (code : Nat) : List Nat :=
  kdf (beList 32 Config.rootSecret.toNat) (ascii "GZ9160-BR" ++ [code]) s.lcd 32

/-- MH of R469. -/
def State.mcHash (s : State) (msel : Nat) : List Nat :=
  if msel = 0 then List.replicate 48 0
  else sha384 ((List.range 8).flatMap fun i => if natBit msel i then nth s.starter.mc i [] else [])

/-- The mesh key of a generation, if its slot holds one that may be used (R473, R479, R482). -/
def State.meshKey (s : State) (g : Nat) : Option KeySlot :=
  match mapGet s.starter.slots (512 + g % 4) with
  | some k => if k.count = 0 then none else some k
  | none => none

/-- The key of a node for a purpose (R474). -/
def nodeKey (mk : List Nat) (eui epoch purpose : Nat) : List Nat :=
  kdf mk (ascii "GZ-NK") (beList 8 eui ++ [epoch, purpose]) 16

/-- The network keys (R475): purpose 1 beacons, 2 broadcasts. -/
def netKey (mk : List Nat) (p g : Nat) : List Nat := kdf mk (ascii "GZ-NET") [p, g] 16

/-- Put an entry at the front of the cache: each set keeps its eight latest used (R477). -/
def cachePut (c : List CacheKey) (e : CacheKey) : List CacheKey :=
  let others := c.filter (· != e)
  let same := (others.filter fun x => x.set == e.set).take 7
  e :: others.filter fun x => x.set != e.set || same.contains x

/-- A node key for reception or a job in service (R476 to R479): was it produced?  The count of a counted mesh key goes through the journal
before the key is released, and under a power-fail warning no update starts (R482, R492): no key then. -/
def State.inlineKey (s : State) (eui epoch purpose : Nat) : State × Bool :=
  let g := epoch / 64
  if s.groupFenced 56 then (s.sink .starter, false)
  else match s.meshKey g with
    | none => ((s.ledIn .starter 1).ledDrop .starter 1, false)
    | some k =>
      let e : CacheKey := ⟨(Config.cacheSet (BitVec.ofNat 64 eui)).toNat, eui, epoch, purpose, g, s.starter.jseq (512 + g)⟩
      if s.starter.cache.contains e then
        ((s.bump R.STARTER_CACHE_HIT_COUNT 1).setStarter fun t => { t with cache := cachePut t.cache e }, true)
      else if k.count ≠ uncounted ∧ s.pfWarn then ((s.ledIn .starter 1).ledDrop .starter 1, false)
      else
        let s := ((s.bump R.STARTER_CACHE_MISS_COUNT 1).ledIn .starter 1).ledOut .starter 1
        let s := if k.count = uncounted then s
          else (s.setStarter (·.commitUpdate (512 + g) (some { k with count := k.count - 1 }))).evtIf (k.count == 1) .starter E.STARTER_EXH
        let e := { e with jseq := s.starter.jseq (512 + g) }
        (s.setStarter fun t => { t with cache := cachePut t.cache e }, true)

end Sys2Proof.Machine
end

