-- ==== Sys2Proof/Machine/RadioOps.lean ====
section
/-! DEFINITION. The radio chains' shared operations (R146 to R182): states, locks, jobs, returns, calibrations. -/

namespace Sys2Proof.Machine

/-- Chain states of R152. -/
def rfOff : Nat := 0
def rfCal : Nat := 1
def rfSettle : Nat := 2
def rfRx : Nat := 3
def rfUp : Nat := 4
def rfTx : Nat := 5
def rfDown : Nat := 6

/-- The state of a chain. -/
def State.rfState (s : State) (n : Nat) : Nat := s.get (R.RF_STATE_STATE n)

/-- Is the chain's domain on? -/
def State.rfPowered (s : State) (n : Nat) : Bool := s.powered (rfBlock n)

/-- Is the chain between entry into TX-RAMP-UP and exit from TX-RAMP-DOWN? -/
def State.transmits (s : State) (n : Nat) : Bool := decide (rfUp ≤ s.rfState n) && decide (s.rfState n ≤ rfDown)

/-- The ramp in ns (R160). -/
def State.rampNs (s : State) (n : Nat) : Nat := (s.get (R.RF_TX_CFG_RAMP n) + 1) * 8000

/-- FEM_LEAD and the ramp in ns (R155, R161). -/
def State.leadRamp (s : State) (n : Nat) : Nat := s.get (R.RF_TX_CFG_FEM_LEAD n) * 25 + s.rampNs n

/-- The VCO band of an LO (R148). -/
def bandOf (khz : Nat) : Nat :=
  if khz < 510000 then 0 else if khz < 680000 then 1 else if khz < 860000 then 2 else if khz ≤ 1020000 then 3 else 4

/-- Is a channel inside the chain's band (R13, R146)? -/
def inBand (n khz : Nat) : Bool :=
  if n = 3 then decide (2400000 ≤ khz) && decide (khz ≤ 2483500) else decide (380000 ≤ khz) && decide (khz ≤ 1020000)

/-- The maximum lock time in ns between two LOs (R148). -/
def maxLock (a b : Nat) : Nat := if bandOf a = bandOf b then 80000 else 220000

/-- Has the ramp-down ended, so that FEM_LAG runs (R155)? -/
def State.inLag (s : State) (n : Nat) : Bool := s.rfState n == rfDown && decide ((s.chain n).downAt + s.rampNs n ≤ s.lin)

/-- The pattern on a chain's FEM balls (R154, R155, R592). -/
def State.femPattern (s : State) (n : Nat) : Nat :=
  if !s.rfPowered n || s.rfState n == rfOff then s.get (R.RF_FEM_IDLE_OFF_PAT n)
  else if s.rfState n = rfCal then s.get (R.RF_FEM_IDLE_CAL_PAT n)
  else if s.transmits n && !s.inLag n then
    match (s.chain n).jobs.head? with
    | some j => s.get (R.RF_FEM_MAP_PAT n (bitsGet 20 3 j.entry))
    | none => s.get (R.RF_FEM_IDLE_RX_PAT n)
  else s.get (R.RF_FEM_IDLE_RX_PAT n)

/-! ## Locks (R148 to R151) -/

/-- Start a lock (R149, R152): the chain is in SETTLE. -/
def State.beginSettle (s : State) (n : Nat) (why : Settle) (khz : Nat) : State :=
  let s := if why = .fromOff then s else s.wbRetune n
  let s := (s.put (R.RF_STATE_STATE n) rfSettle).put (R.RF_STATE_LOCKED n) 0
  s.setChain n fun c => { c with
    settle := some why, secondTry := false, lockStart := s.lin, loKhz := khz
    crossBand := why == .fromOff || bandOf c.loKhz != bandOf khz }

/-- Leave OFF if the chain may (R152): enabled, powered, no fault, the reference there, its microcode loaded (R550). -/
def State.chainStart (s : State) (n : Nat) : State :=
  if s.rfState n = rfOff ∧ s.rfPowered n ∧ s.on (R.RF_CTL_EN n) ∧ !s.on (R.RF_STATE_FAULT n) ∧ !s.on R.TB_STATE_REF_LOST
      ∧ !s.fwu.unloaded.contains (n + 1) then
    s.beginSettle n .fromOff (s.get (R.RF_CENTRE_KHZ n))
  else s

/-! ## Jobs (R157 to R171) -/

/-- A short time as a linear count of ns: the instant within ±2^31 ns of now that it names (R117). -/
def State.fromShort (s : State) (t : Nat) : Nat :=
  let d := (t + 2 ^ 32 - s.short) % 2 ^ 32
  if d < 2 ^ 31 then s.lin + d else s.lin - (2 ^ 32 - d)

/-- The channel of a job in kHz (R185, R282). -/
def State.jobChannel (s : State) (n : Nat) (it : Item) : Nat :=
  if it.jobByAlloc then
    let a := it.jobAlloc
    let g := 2 ^ s.ap (R.WB_CHAN_GROUP n a)
    ((s.get (R.RF_CENTRE_KHZ n) + 200 * s.ap (R.WB_CHAN_FIRST n a) + 100 * g : Nat) - (6400 : Int)
      + toSigned 8 (s.ap (R.WB_CHAN_FINE n a))).toNat
  else it.jobKhz

/-- Does the job's channel lie in the chain's present slice (R147, R183)? -/
def State.jobInSlice (s : State) (n : Nat) (it : Item) : Bool :=
  it.jobByAlloc ||
    let c := if s.on (R.RF_STATE_OUT_OF_SLICE n) || s.rfState n == rfOff then s.get (R.RF_CENTRE_KHZ n) else (s.chain n).loKhz
    let w := 100 * typeGroup it.jobPtype
    decide (c ≤ it.jobKhz + 6400 - w) && decide (it.jobKhz + w ≤ c + 6400)

/-- The Peel item of a job. -/
def State.jobItem (s : State) (j : ChainJob) : Item :=
  match s.item j.id with
  | some it => it
  | none => { words := [], due := 0, seq := 0, st := .taken }

/-- Change a held job. -/
def State.setJob (s : State) (n id : Nat) (f : ChainJob → ChainJob) : State :=
  s.setChain n fun c => { c with jobs := c.jobs.map fun j => if j.id = id then f j else j }

/-- The first held job cannot use the LO the chain was tuned to for a job: it tunes back (R165). -/
def State.tuneBack (s : State) (n : Nat) : State :=
  if s.rfState n = rfSettle ∧ (s.chain n).settle = some .forJob ∧ s.on (R.RF_STATE_LOCKED n) then
    let keep := match (s.chain n).jobs.head? with
      | some j => !s.jobInSlice n (s.jobItem j) && s.jobChannel n (s.jobItem j) == (s.chain n).loKhz
      | none => false
    if keep then s else s.beginSettle n .back (s.get (R.RF_CENTRE_KHZ n))
  else s

/-- A job goes back to Peel with a result (R167): the RF ledger, LATE's count and event, the link's credit. -/
def State.returnJob (s : State) (n id : Nat) (c : Code) : State :=
  match (s.chain n).jobs.find? fun j => j.id == id with
  | none => s
  | some j =>
    let stamp := if c = .ok then j.stamp else 0
    let s := s.setChain n fun x => { x with jobs := x.jobs.filter fun y => y.id != id, returned := x.returned ++ [(id, c.num, stamp)] }
    let s := if c = .ok then s.ledOut (rfBlock n) 1 else s.ledDrop (rfBlock n) 1
    let s := s.refund (138 + n)
    let s := if c = .late then (s.bumpSat (R.RF_TX_STAT_LATE n) 1).evt (rfBlock n) E.RF_TX_LATE else s
    s.tuneBack n

/-- A job is returned under FORBID (R180). -/
def State.forbidJob (s : State) (n id : Nat) : State :=
  ((s.bumpSat (R.RF_TX_WAIT_FORBID n) 1).evt (rfBlock n) E.RF_TX_FORBID).returnJob n id .state

/-- The cross-chain policy of R179. -/
def State.policyOk (s : State) (n : Nat) : Bool :=
  let live := [0, 1, 2].filter fun k => s.rfPowered k && s.rfState k != rfOff
  !s.on R.RF0_XTX_KEEP_RX || n == 3 || decide (live.length < 2) || live.any fun k => k != n && s.rfState k == rfRx

/-- Does the chain hold a reception context whose PHY header is validated? -/
def State.confirmedRx (s : State) (n : Nat) : Bool := (s.wbOf n).hasConfirmed

/-! ## Calibrations (R172 to R176) -/

/-- Abortable boundaries of a calibration in µs from its start, its restore interval and its length (R172). -/
def calBounds (k : Nat) : List Nat × Nat × Nat :=
  match k with
  | 0 => ([250, 450, 650, 850, 1050], 10, 1200)
  | 1 => ([180, 320], 10, 400)
  | _ => ([300, 500, 700, 900], 20, 1200)

/-- The abortable boundaries of a set from `at_` ns on: instant, restore in ns, calibrations not completed then (R172, R173). -/
def calPoints : Nat → List Nat → List (Nat × Nat × List Nat)
  | _, [] => []
  | t, k :: r =>
    let b := calBounds k
    (b.1.map fun u => (t + u * 1000, b.2.1 * 1000, k :: r))
    ++ (if r.isEmpty then [] else [(t + b.2.2 * 1000, 0, r)]) ++ calPoints (t + b.2.2 * 1000) r

/-- The length of a set in ns. -/
def calLength (ks : List Nat) : Nat := ks.foldl (fun a k => a + (calBounds k).2.2 * 1000) 0

/-- The next abortable boundary of a running set. -/
def CalRun.next (c : CalRun) (now : Nat) : Option (Nat × Nat × List Nat) :=
  if c.prot then none else (calPoints c.start c.kinds).find? fun p => decide (now ≤ p.1)

/-- The calibration at work in a set at an instant. -/
def calAt : Nat → List Nat → Nat → Nat
  | _, [], _ => 0
  | t, k :: r, now => if now < t + (calBounds k).2.2 * 1000 ∨ r = [] then k else calAt (t + (calBounds k).2.2 * 1000) r now

/-- The temperature register of a calibration (R182). -/
def calTempFld (n k : Nat) : Fld := ⟨(R.RF_CAL_TEMP_OFS n).a, 8 * k, 8⟩

/-- Calibrations complete (R174, R175): VALID, no longer due, abort count 0, the temperature noted. -/
def State.calsDone (s : State) (n : Nat) (ks : List Nat) : State :=
  ks.foldl (fun s k =>
    let s := (s.put ⟨(R.RF_CAL_STAT_VALID n).a, 8 + k, 1⟩ 1).put ⟨(R.RF_CAL_STAT_PEND n).a, 12 + k, 1⟩ 0
    let s := s.put (calTempFld n k) (s.get (R.RF_CAL_STAT_TEMP n))
    s.setChain n fun c => { c with aborts := c.aborts.set k 0, again := mapErase c.again k }) s

/-- A set starts (R152, R173, R175, R205). -/
def State.startCal (s : State) (n : Nat) (ks : List Nat) (prot byCommand : Bool) : State :=
  let prot := prot || ks.any fun k => decide (3 ≤ nth (s.chain n).aborts k 0)
  let s := s.endCtxs n 8
  let s := s.put (R.RF_STATE_STATE n) rfCal
  let s := s.setChain n fun c => { c with
    cal := some ⟨ks, s.lin, prot, byCommand⟩, settle := none, restore := none, again := c.again.filter fun p => !ks.contains p.1
    calWait := if byCommand then none else c.calWait }
  s.evtIf prot (rfBlock n) E.RF_CAL_PROT

/-- May a calibration of rows 2 to 4 of R174 start (R176, R179)? -/
def State.calAllowed (s : State) (n : Nat) : Bool :=
  s.rfState n == rfRx && s.policyOk n
  && (n == 3 || !([0, 1, 2].any fun k => k != n && s.rfState k == rfCal))

/-- The opcodes of an RF page (R182). -/
def opCalRun : Nat := 1
def opChainReset : Nat := 3

/-- A CAL_RUN in progress ends with a code. -/
def State.endCalRun (s : State) (n : Nat) (c : Code) : State :=
  if s.runOp (rfBlock n) = some opCalRun then s.done (rfBlock n) c else s

/-- The running set is aborted at a boundary (R169, R173, R175); `command`: by ABORT, which neither counts nor reschedules (R182).  The one
field RFn_CAL_STAT.ABORTS shows the count of the calibration aborted last (DESIGN CHOICE, log entry 74). -/
def State.abortCal (s : State) (n : Nat) (c : CalRun) (p : Nat × Nat × List Nat) (command : Bool) : State :=
  let s := s.advanceTo (linOfNs p.1)
  let s := s.calsDone n (c.kinds.filter fun k => !p.2.2.contains k)
  let k := p.2.2.headD 0
  let s := s.setChain n fun x => { x with cal := none, restore := some (p.1 + p.2.1, k) }
  let s := if command then s
    else
      let s := s.setChain n fun x => { x with
        aborts := x.aborts.set k (min 3 (nth x.aborts k 0 + 1)), again := p.2.2.foldl (fun a k => mapSet a k p.1) x.again }
      let s := s.put (R.RF_CAL_STAT_ABORTS n) (nth (s.chain n).aborts k 0)
      let s := p.2.2.foldl (fun s k => s.put ⟨(R.RF_CAL_STAT_PEND n).a, 12 + k, 1⟩ 1) s
      s.evt (rfBlock n) E.RF_CAL_ABORT
  if c.byCommand then s.endCalRun n .aborted else s

/-! ## OFF and RX -/

/-- Entry into RX (R151, R182): a CHAIN_RESET completes, and a retune that no longer waits for contexts starts. -/
def State.enterRx (s : State) (n : Nat) : State :=
  let s := s.put (R.RF_STATE_STATE n) rfRx
  let s := s.setChain n fun c => { c with settle := none, restore := none }
  let s := if s.runOp (rfBlock n) = some opChainReset then s.done (rfBlock n) .ok else s
  if s.on (R.RF_STATE_RETUNE_PEND n) && (s.chain n).retuneOver then s.beginSettle n .slice (s.get (R.RF_CENTRE_KHZ n)) else s

/-- Entry into OFF (R152, R167, R182, R205): held jobs return with STATE, those cut by CHAIN_RESET with ABORTED; contexts end with
STOPPED; a calibration ends without new coefficients; a CAL_RUN or CHAIN_RESET in progress ends with STATE. -/
def State.toOff (s : State) (n : Nat) (reset : Bool) : State :=
  if s.rfState n = rfOff then s
  else
    let s := (((s.put (R.RF_STATE_STATE n) rfOff).put (R.RF_STATE_LOCKED n) 0).put (R.RF_STATE_OUT_OF_SLICE n) 0)
    let s := s.setChain n fun c => { c with settle := none, cal := none, restore := none, calWait := none, secondTry := false }
    let s := s.endCtxs n 8
    let s := (s.chain n).jobs.foldl (fun s j => s.returnJob n j.id (if reset && j.inService then .aborted else .state)) s
    let s := s.endCalRun n .state
    if s.runOp (rfBlock n) = some opChainReset then s.done (rfBlock n) .state else s

/-! ## Ramp-up (R153 to R162, R166, R179, R181, R257, R259, R261, R301) -/

/-- The security level of a job's frame (R257, R282). -/
def State.jobLevel (s : State) (it : Item) : Nat := if it.jobSecSet then it.jobSec else s.ap R.MAC_SEC_POLICY_TX_LEVEL

/-- The counter a frame needs is assigned: the node's on a node flow, the device's own for beacons and floods (R257, R259, R301). -/
def State.frameCounter (s : State) (it : Item) (waited : Bool) : State × CounterResult :=
  if it.producer = 7 then (if s.jobLevel it = 0 then (s, .ok 0) else s.takeBroadcast waited)
  else if it.producer = 8 then s.takeBroadcast waited
  else if it.flow < 262144 ∧ s.jobLevel it ≠ 0 then s.takeCounter it.flow waited
  else (s, .ok 0)

/-- TIME_S and TIME_NS of a beacon block are filled in (R261). -/
def fillBeacon (block : List Octet) (ns : Nat) : List Octet :=
  block.take 8 ++ leOctets 6 (ns / 10 ^ 9) ++ leOctets 4 (ns % 10 ^ 9) ++ block.drop 18

/-- Blank the chain and those its BLANK_ALSO names, whose contexts end with BLANKED (R153, R205). -/
def State.blank (s : State) (n : Nat) : State :=
  ((List.range 4).filter fun k => k == n || natBit (s.get (R.RF_TX_CFG_BLANK_ALSO n)) k).foldl (fun s k =>
    let s := s.setChain k fun c => { c with blankedBy := if c.blankedBy.contains n then c.blankedBy else c.blankedBy ++ [n] }
    if s.powered (wbBlock k) then s.endCtxs k 7 else s) s

/-- The nominal power of an entry of the power table in 0.5 dBm (R156). -/
def State.nominalPower (s : State) (n i : Nat) : Int := toSigned 8 (s.get (R.RF_PWR_BASE_BASE n)) + i

/-- The key a job's frame is secured under and the key index it names (R254, R257, R259, R474, R475): the node key of KEY_EPOCH; for
beacons and flood frames the network keys, with the generation as index (DESIGN CHOICE, log entry 77). -/
def State.frameKey (s : State) (it : Item) : Option (List Nat × Nat) :=
  let net (p : Nat) : Option (List Nat × Nat) :=
    let g := s.ap R.STARTER_MESH_BCAST_GEN
    (s.meshKey g).map fun k => (netKey k.key p g, g)
  if it.producer = 7 then net 1
  else if it.producer = 8 then net 2
  else match (if it.flow < 262144 then s.node it.flow else none) with
    | some e => (s.meshKey (e.get N.KEY_EPOCH / 64)).map fun k =>
        (nodeKey k.key (e.get N.EUI) (e.get N.KEY_EPOCH) 1, e.get N.KEY_EPOCH)
    | none => none

/-- PHY_FSK_CFG in force. -/
def State.fskCfg (s : State) : W32 := mapGetD s.applied R.PHY_FSK_CFG_H50.a (s.word R.PHY_FSK_CFG_H50.a)

/-- What a job's frames are sent with (R213, R232): its mode, and the map and code rate in its node's entry. -/
def State.jobForm (s : State) (it : Item) : TxForm :=
  let e : NodeEntry := ((if it.flow < 262144 then s.node it.flow else none)).getD 0
  { type := it.jobPtype, rate := it.jobRate, fsk := s.fskCfg, map := e.get N.MAP, crate := e.get N.CRATE, psdu := [] }

/-- The frame of a job (R254, R257, R259, R261, R282): the plaintext of its cells, or a beacon whose block names the instant `plane` at
which its reference plane leaves; secured with counter `fc`, then its FCS.  A job on a control flow of firmware has no key and goes as
it is. -/
def State.jobFrame (s : State) (it : Item) (f : TxForm) (fc plane : Nat) : TxForm :=
  let level := s.jobLevel it
  let plain (l : Nat) : List Octet :=
    let p := if it.producer = 7 then beaconFrame (fillBeacon it.block plane)
      else (s.cellsData it.cells).take (it.jobLen - frameOverhead l f.fcs4)
    if it.jobAckReq then askAck p else p
  { f with psdu := withFcs f.fcs4 (match s.frameKey it with
      | some (key, i) => protectFrame key Config.ownEui.toNat level fc i (plain level)
      | none => plain 0) }

/-- The wake-up frames of a train in the mode of its payload (R240 to R242): each with the time from its end to the payload in whole units
of 10 symbol periods, and a 2-octet FCS. -/
def wakeTrain (f : TxForm) (frames short gapNs : Nat) : List TxForm :=
  let f := { f with fsk := f.fsk &&& ~~~(0x2000 : W32) }
  let w := { f with psdu := wakeFrame short 0 }.airNs
  (List.range frames).map fun i =>
    { f with psdu := wakeFrame short (((frames - 1 - i) * w + gapNs) * 3 / unitThirds f.type) }

/-- W of R242: the air time of a wake-up frame in the mode of its payload. -/
def TxForm.wakeNs (f : TxForm) : Nat := { f with psdu := wakeFrame 0 0 }.airNs

/-- P_d of a node that has no PERIOD, in ns (R242). -/
def State.defPeriodNs (s : State) : Nat := s.get R.MAC_WAKE_CFG_DEF_PERIOD * 10000000

/-- The train of a job: how many wake-up frames, and the short address in them.  A flood job of a cell with TRAIN has the full train for
the broadcast address (R242, R272). -/
def State.trainOf (s : State) (id : Nat) (it : Item) (f : TxForm) : Nat × Nat :=
  if it.producer = 8 then
    (if s.apOn (R.FLOOD_CELL_TRAIN (it.flow - 262144 - 3968)) then ceilDiv (s.defPeriodNs + f.wakeNs) f.wakeNs else 0, 0xFFFF)
  else match mapGet s.mac.aims id, s.node it.flow with
    | some a, some e => (a.frames, e.get N.SHORT)
    | _, _ => (0, 0)

/-- Entry into TX-RAMP-UP for the first held job, whose conditions of time and policy hold (R152 to R162, R232, R241, R257, R301).  The
job returns instead with RANGE, EXHAUSTED or, with no mesh key (R479), NOT_FOUND, or stays while its counter waits. -/
def State.enterRampUp (s : State) (n : Nat) (j : ChainJob) (it : Item) : State :=
  let ta := max j.ts (s.lin + s.leadRamp n)
  let s := s.advanceTo (linOfNs (ta - s.leadRamp n))
  let idx := min it.jobPwr (s.get (R.RF_TX_CFG_PWR_MAX n))
  let entry := s.word (R.RF_PTAB_BIAS n idx).a
  if !natBit entry.toNat 31 then s.returnJob n j.id .range
  else if (decide (it.flow < 262144) || 6 < it.producer) && s.jobLevel it != 0 && (s.frameKey it).isNone then s.returnJob n j.id .notFound
  else match s.frameCounter it j.fcWaited with
    | (s, .exhausted) => s.returnJob n j.id .exhausted
    | (s, .wait) => s.setJob n j.id fun x => { x with fcWaited := true }
    | (s, .ok fc) =>
      let s := if idx < it.jobPwr then (s.bumpSat (R.RF_TX_STAT_CAPPED n) 1).evt (rfBlock n) E.RF_TX_CAPPED else s
      let s := { s with mac := { s.mac with aims := match mapGet s.mac.aims j.id with
        | some a => mapSet s.mac.aims j.id { a with counter := fc }
        | none => s.mac.aims } }
      let f := s.jobForm it
      let (frames, short) := s.trainOf j.id it f
      let gap := s.get R.MAC_TRAIN_CFG_RZ_GAP * 1000
      let lead := if frames = 0 then 0 else frames * f.wakeNs + gap
      let f := s.jobFrame it f fc.toNat (ta + lead + f.planeNs)
      let s := s.setJob n j.id fun x => { x with
        inService := true, ts := ta, entry := entry, idx := idx, power := s.nominalPower n idx, lead := lead
        wakes := wakeTrain f frames short gap, form := some f }
      let s := s.put (R.RF_STATE_STATE n) rfUp
      (s.setChain n fun c => { c with settle := none, restore := none }).blank n

/-- The wait of R179 is counted once for a job. -/
def State.policyWait (s : State) (n : Nat) (j : ChainJob) : State :=
  if j.policyWaited then s
  else ((s.bumpSat (R.RF_TX_WAIT_POLICY n) 1).evt (rfBlock n) E.RF_TX_POLICY).setJob n j.id fun x => { x with policyWaited := true }

/-- A trigger of KIND 1 fires for the chain (R163): every job that waits for it is released. -/
def State.releaseTrig (s : State) (n : Nat) : State :=
  let t := s.lin + s.leadRamp n
  s.setChain n fun c => { c with jobs := c.jobs.map fun j =>
    if j.trig && !j.released then { j with released := true, ts := t, tl := t } else j }

/-- The frame in progress is cut: TX-RAMP-DOWN at once (R167, R180, R182). -/
def State.cutTx (s : State) (n : Nat) : State :=
  if s.rfState n = rfUp ∨ s.rfState n = rfTx then
    (s.put (R.RF_STATE_STATE n) rfDown).setChain n fun c => { c with
      downAt := s.lin
      jobs := match c.jobs with
        | j :: r => { j with cut := true } :: r
        | [] => [] }
  else s

end Sys2Proof.Machine
end

