-- ==== Sys2Proof/Machine/MacOps.lean ====
section
/-! DEFINITION. The MAC's shared operations (R240 to R257): the drift model, prediction, aiming, security of a received frame.  Times of
the model are in units of 2^-14 ns: 1/256 sensor tick is 1,953,125 of them and 1 µs is 16,384,000. -/

namespace Sys2Proof.Machine

/-- 1/256 sensor tick. -/
def uTick : Nat := 1953125
/-- 1 µs. -/
def uUs : Nat := 16384000
/-- The range of LAST_SAMPLE with its fraction. -/
def uWrap : Int := 2 ^ 40 * 1953125

/-- The linear count in units. -/
def State.linU (s : State) : Int := (s.tb.L.toNat / 2 ^ 26 : Nat)

/-- TB_LAST_STEP in units. -/
def State.lastStepU (s : State) : Int := toSigned 64 (s.get64 R.TB_LAST_STEP_LO_NS R.TB_LAST_STEP_HI_NS) * 2 ^ 14

/-- How many generations a step generation is behind the present one. -/
def State.behind (s : State) (gen : Nat) : Nat := (s.tb.stepgen.toNat + 16 - gen % 16) % 16

/-- The instant of a value modulo 2^40 of 1/256 ST that lies nearest below `now`, or ahead by less than a quarter of the range (a
sample instant may lie ahead). -/
def unwrap (now v : Int) : Int :=
  let d := (now - v) % uWrap
  if 3 * uWrap / 4 < d then now - (d - uWrap) else now - d

/-- Quotient rounded to the nearest integer, halves up. -/
def roundDiv (a b : Int) : Int := (2 * a + b) / (2 * b)

/-- Quotient rounded up. -/
def ceilDivI (a b : Int) : Int := -((-a) / b)

/-- 10 symbol periods of a preamble type times `n`, in units (R212, R214). -/
def symbols10 (type n : Nat) : Nat :=
  match type with
  | 0 => n * 200 * uUs
  | 1 => n * 100 * uUs
  | 2 => n * 200 * uUs / 3
  | 3 => n * 50 * uUs
  | 4 => n * 200 * uUs / 3
  | _ => n * 1200 * uUs

/-- A node's last sample on the present time scale (R245, R246). -/
def State.lastSample (s : State) (e : NodeEntry) : Int :=
  let v : Int := ((e.get N.LAST_SAMPLE * 256 + e.get N.LS_FRAC : Nat) : Int) * 1953125
  let v := if s.behind (e.get N.STEPGEN) = 1 then v + s.lastStepU else v
  unwrap s.linU v

/-- P_d of a node (R242, R244, R246). -/
def State.nodePd (s : State) (e : NodeEntry) : Int :=
  if e.get N.PERIOD = 0 then (s.get R.MAC_WAKE_CFG_DEF_PERIOD * 156250 * 2 ^ 20 : Nat)
  else (e.get N.PERIOD : Int) * 156250 * (2 ^ 20 + toSigned 12 (e.get N.DRIFT))

/-- An aim (R246, R247). -/
structure Aim where
  tpred : Int
  gUs : Nat
  pd : Int
  full : Bool
  attempt : Nat
  hold : Bool
  deriving DecidableEq, Repr

/-- The aim at a node from the present time; `after`: the sample that was missed by a LATE (R243), which is passed over. -/
def State.predict (s : State) (e : NodeEntry) (after : Option Int) : Aim :=
  let t := s.linU
  let pd := s.nodePd e
  let ls := s.lastSample e
  let dppm : Int := s.get R.RET_DRIFT_TOL_DPPM
  let hold := s.tbMode == 3
  let ppb : Int := if hold then (s.get R.TB_HOLD_PPB_PPB : Nat) else 0
  let elapsed : Int := ((s.tb.L - s.tb.holdStart).toNat / 2 ^ 26 : Nat)
  let mul : Int := if e.get N.ATTEMPT = 1 then 4 else 1
  let base : Int := ((s.get R.MAC_WAKE_CFG_BASE + e.get N.UNC) * 16384000 : Nat)
  -- G(n) × 10^9 = mul × (g0 + n × g1)
  let g0 := base * 10 ^ 9 + (elapsed + ls - t) * ppb
  let g1 := pd * dppm * 100 + pd * ppb
  let a := pd * 10 ^ 9 - mul * g1
  let b := (ls - t) * 10 ^ 9 - mul * g0
  let n0 := if 0 < a then max 1 (ceilDivI (-b) a) else 1
  let n := match after with
    | some x => max n0 (ceilDivI (x + pd / 2 - ls) pd)
    | none => n0
  let gUs := (ceilDivI (mul * (g0 + n * g1)) (16384000 * 10 ^ 9)).toNat
  let full := e.get N.STATE != 1 || decide (pd < 4 * (gUs * 16384000 : Nat)) || decide (2 ^ 38 * (1953125 : Int) ≤ n * pd)
    || decide (2 ≤ s.behind (e.get N.STEPGEN)) || e.get N.UNC == 0xFFFF || decide (2 ≤ e.get N.ATTEMPT)
  ⟨ls + n * pd, gUs, pd, full, e.get N.ATTEMPT, hold⟩

/-- T_s of a full train in ns (R242): the job's due time; once P_d has passed since then, so that no start within T_l is left, the
present (DESIGN CHOICE, log entry 18). -/
def State.fullTs (s : State) (due pdNs : Nat) : Nat :=
  let t := (linOfTick due).toNat / 2 ^ 40
  if t + pdNs ≤ s.lin then s.lin else t

/-- Aim a job in service at its node (R242, R246, R247, R298): T_s, T_l and the park time. -/
def State.park (s : State) (id : Nat) (it : Item) (e : NodeEntry) (after : Option Int) : State :=
  let a := s.predict e after
  let w := (s.jobForm it).wakeNs
  let old := mapGet s.mac.aims id
  let due := match old with | some o => o.due | none => it.due
  let ts : Nat := if a.full then s.fullTs due (ceilDivI a.pd (2 ^ 14)).toNat else (a.tpred / 2 ^ 14 - a.gUs * 1000).toNat
  let tl : Nat := if a.full then ts + (ceilDivI a.pd (2 ^ 14)).toNat else ts
  let frames := if a.full then ceilDiv ((ceilDivI a.pd (2 ^ 14)).toNat + w) w else ceilDiv (2 * a.gUs * 1000 + w) w
  let s := s.evtIf a.full .mac E.MAC_FULL_TRAIN
  let aim : AimState :=
    { node := it.flow, due := due, full := a.full, widened := !a.full && a.attempt == 1, frames := frames, ts := ts, tl := tl
      counter := match old with | some o => o.counter | none => 0
      tpred := a.tpred, gen := s.tb.stepgen.toNat }
  let s := { s with mac := { s.mac with aims := mapSet s.mac.aims id aim } }
  s.setItem id fun x => { x with
    st := .parked, due := ticksOf (linOfNs ts) - s.get R.PEEL_CFG_TX_LEAD
    words := (x.words.set 4 (BitVec.ofNat 32 ts)).set 5 (BitVec.ofNat 32 tl) }

/-- A job with AIM in service is aimed, or ends: FENCED while the MAC is fenced (R623), NOT_FOUND with no node or mesh key (R479),
RANGE with no valid Crumb map (R226, R232). -/
def State.aimJob (s : State) (id : Nat) (after : Option Int) : State :=
  match s.item id with
  | none => s
  | some it =>
    let built := (mapGet s.mac.aims id).isSome
    if s.fenced .mac then (if built then s else s.sink .mac).finishItem id .fenced 0
    else
      let s := if built then s else s.ledIn .mac 1
      let aim0 : AimState := { node := it.flow, due := it.due }
      let s := if built then s else { s with mac := { s.mac with aims := mapSet s.mac.aims id aim0 } }
      match (if it.flow < 262144 then s.node it.flow else none) with
      | none => s.finishItem id .notFound 0
      | some e =>
        if s.jobLevel it ≠ 0 ∧ s.meshKey (e.get N.KEY_EPOCH / 64) = none then s.finishItem id .notFound 0
        else if it.jobRate = 15 ∧ !mapValid (it.jobPtype - 4) (e.get N.MAP) then s.finishItem id .range 0
        else s.park id it e after

/-! ## Received frames (R245, R253 to R255) -/

/-- Does the MIC of a node's frame verify under the key of the epoch it names, and its octets as plaintext (R18, R254, R255)? -/
def State.nodeOpens (s : State) (e : NodeEntry) (f : RxFrame) : Bool × List Octet :=
  match s.meshKey (f.keyIndex / 64) with
  | none => (false, f.psdu)
  | some k => (readFrame f.fcs4 f.psdu).open (nodeKey k.key (e.get N.EUI) f.keyIndex 1) (e.get N.EUI) f.psdu

/-- R255: the result of a received frame from a known node, and what it writes; `policy`: MAC_SEC_POLICY as the frame began with (R84). -/
def State.secure (s : State) (h : Nat) (e : NodeEntry) (f : RxFrame) (policy : W32) : State × Nat :=
  let l := f.level
  let acc := bitsGet 0 8 policy
  let epoch := e.get N.KEY_EPOCH
  let ki := f.keyIndex
  let adv := ki == (epoch + 1) % 256
  if l = 0 ∧ natBit acc 0 then (s, 0)
  else if !natBit acc l || f.keyMode != 1 || f.noCounter then
    ((s.bumpSat R.MAC_POLICY_CNT_COUNT 1).evt .mac E.MAC_POLICY, 5)
  else if (ki != epoch && !adv) || !(s.nodeOpens e f).1 then
    ((s.bumpSat R.MAC_SECFAIL_CNT_COUNT 1).evt .mac E.MAC_SEC_FAIL, 2)
  else if f.fc == 0xFFFFFFFF || (!adv && decide (f.fc.toNat ≤ e.get N.FC_IN)) then
    ((s.bumpSat R.MAC_REPLAY_CNT_COUNT 1).evt .mac E.MAC_REPLAY, 3)
  else
    let e := e.put N.FC_IN f.fc.toNat
    let e := if adv then e.put N.KEY_EPOCH ki else e
    ((s.setNode h e).evtIf adv .mac E.MAC_EPOCH_ADV, 0)

/-- R245: the model after an accepted frame with a CSL IE of `phase` and `period` units; `obs`: the end of its last symbol on the present
time scale; `up`: u / 2 is rounded up where it is no whole number of µs (free, log entry 5). -/
def State.modelUpdate (s : State) (e : NodeEntry) (type : Nat) (obs : Int) (phase period : Nat) (up : Bool) : NodeEntry :=
  let sObs := obs + (symbols10 type phase : Nat)
  let p := (symbols10 type period + 5000 * uUs) / (10000 * uUs)
  if p < 1 ∨ 1000 < p then e.put N.STATE 2
  else
    let gm := s.behind (e.get N.STEPGEN)
    let e := if p ≠ e.get N.PERIOD ∨ e.get N.STATE ≠ 1 then (e.put N.PERIOD p).put N.DRIFT 0
      else if 2 ≤ gm then e
      else
        let v : Int := ((e.get N.LAST_SAMPLE * 256 + e.get N.LS_FRAC : Nat) : Int) * 1953125
        let v := if gm = 1 then v + s.lastStepU else v
        let pd := s.nodePd e
        let diff := sObs - unwrap sObs v
        let n := roundDiv diff pd
        let err := diff - n * pd
        if 1 ≤ n ∧ 4 * err < pd ∧ -pd < 4 * err then
          let step := roundDiv err (n * (p : Int) * 156250 * 2 ^ s.get R.MAC_WAKE_CFG_GAIN)
          e.put N.DRIFT (ofSigned 12 (max (-2047) (min 2047 (toSigned 12 (e.get N.DRIFT) + step))))
        else e
    let ticks := ((sObs / 1953125) % 2 ^ 40).toNat
    let half := symbols10 type 1
    let unc := if up then ceilDiv half (2 * uUs) else half / (2 * uUs)
    let e := ((e.put N.LAST_SAMPLE (ticks / 256)).put N.LS_FRAC (ticks % 256)).put N.UNC unc
    ((e.put N.STEPGEN s.tb.stepgen.toNat).put N.ATTEMPT 0).put N.STATE 1

/-- What an accepted frame writes into its node's entry beside FC_IN and KEY_EPOCH (R245, R326). -/
def State.heard (s : State) (h n : Nat) (r : WbRec) (f : RxFrame) : State :=
  match s.node h with
  | none => s
  | some e =>
    let gf := s.behind (natBits r.stamp.toNat 48 4)
    let obs : Int := ((r.refNs + f.airNs : Nat) : Int) * 2 ^ 14 + (if gf = 1 then s.lastStepU else 0)
    let e := e.put N.LAST_HEARD ((obs / (1953125 * 256)) % 2 ^ 32).toNat
    let e := ((e.put N.CHAIN n).put N.ALLOC r.alloc).put N.RSSI (ofSigned 8 (max (-128) (min 127 (f.rssi.toInt / 4))))
    match f.csl with
    | some (ph, pe) =>
      let (x, s) := s.draw
      s.setNode h (if gf < 2 then s.modelUpdate e r.type obs ph pe (x % 2 == 0) else e)
    | none => s.setNode h e

/-- The Enh-Ack of an accepted frame (R253). -/
def State.postAck (s : State) (h n : Nat) (r : WbRec) (f : RxFrame) : State :=
  let map := match s.node h with | some e => e.get N.MAP | none => 0
  let gf := s.behind (natBits r.stamp.toNat 48 4)
  let stop : Int := ((r.refNs + f.airNs : Nat) : Int) + (if gf = 1 then toSigned 64 (s.get64 R.TB_LAST_STEP_LO_NS R.TB_LAST_STEP_HI_NS) else 0)
  let ts := stop.toNat + s.get R.MAC_ACK_CFG_TURN * 1000
  let tl := ts + s.get R.MAC_ACK_CFG_SLACK * 1000
  let rate := if r.rate = 15 ∧ map = 0 then 1 else r.rate
  let frame := ackFrame f.seq (f.src.getD 0)
  let len := frame.length + frameOverhead f.level (decide (4 < r.type) || natBit s.fskCfg.toNat 13)
  let due := ticksOf (linOfNs ts) - s.get R.PEEL_CFG_TX_LEAD
  let words := radioWords h (s.get R.MAC_ACK_TX_PRIO) n (due % 2 ^ 32) (ts % 2 ^ 32) (tl % 2 ^ 32) r.alloc len
    (s.get R.MAC_ACK_TX_PWR) r.type rate (f.level + 8)
  (s.ledIn .mac 1).hwSend { producer := 6, words := words, octets := len, frame := frame }

/-- The job whose Enh-Ack a frame from node h can be: sent, with its sequence number, and detected within ACK_WAIT (R249, R250). -/
def State.awaited (s : State) (h : Nat) (f : RxFrame) (m : Mark) : Option Nat :=
  (s.mac.aims.find? fun p => p.2.node == h && f.isAck && !p.2.acked
    && (match p.2.sentEnd, s.item p.1 with
      | some t, some it => decide (m.at_.toNat / 2 ^ 40 ≤ t + s.get R.MAC_TRAIN_CFG_ACK_WAIT * 1000)
          && it.jobAckReq && f.seq == (mhrOf (s.cellsData it.cells)).seq
      | _, _ => false)).map (·.1)

end Sys2Proof.Machine
end

