-- ==== Sys2Proof/Machine/Mac.lean ====
section
/-! DEFINITION. The commands of mesh access (R204 to R206, R240 to R258, R302, R303, R332): receptions, node transactions, aimed jobs and
their returns, PREDICT. -/

namespace Sys2Proof.Machine

/-- A lookup of the radio path (R332, R624): nothing while the engine is fenced. -/
def State.radioLookup (s : State) (eui : BitVec 64) (moves : Nat) : State × Option Nat :=
  if s.fenced .dir then (s.sink .dir, none)
  else match s.lookupEui eui moves with
    | (s, h, _) => (s, h)

/-- DIRECTORY_LOOKUP (R332, R624): a context has decoded its frame's source address; `moves`: rereads of the generations that found a
change. -/
def execDirectoryLookup (n : Fin 4) (k : Fin 32) (eui : BitVec 64) (moves : Nat) (s : State) : Answer :=
  match s.ctx n.val k.val with
  | none => .next s
  | some c =>
    if !c.confirmed || c.looked.isSome then .next s
    else match s.radioLookup eui moves with
      | (s, h) => .next (s.setCtx n.val k.val { c with looked := some h })

/-- A record whose node transaction is sunk or refused by a fence (R623). -/
def State.fenceRec (s : State) (n r : Nat) : State := s.dropRec n r true .fenced

/-- The record of a frame from node h goes to the MAC: the awaited acknowledgement stays within its job's service (R249); any other is
posted on the node's flow (R251, R255, R258, R311, R623). -/
def State.postTxn (s : State) (n r h : Nat) (f : RxFrame) : State :=
  match s.wrec n r with
  | none => s
  | some x =>
    if (s.awaited h f x.mark).isSome then s
    else if s.fenced .mac then (s.sink .mac).fenceRec n r
    else
      let busy := s.peel.items.any fun p => p.2.flow == h && p.2.type == 0 && p.2.st.holds
      let x := { x with holds := x.holds && !busy }
      let s := s.setRec n r x
      match s.hwPost 6 (s.txnWords h) with
      | (s, .ok id) => s.setRec n r { x with item := some id }
      | (s, .fenced) => s.fenceRec n r
      | (s, .noCredit) => { s with mac := { s.mac with txnWait := s.mac.txnWait ++ [(n, r)] } }

/-- The frame of a context as the MAC reads it (R18, R206, R219, R245, R254).  Its key is late if it came after the first secured octet, or
has not come yet. -/
def State.rxFrame (s : State) (n k : Nat) (c : Ctx) (air : RxAir) : RxFrame :=
  let p := c.psdu (s.decoder n k) air.octets
  let r := readFrame c.fcs4 p
  { fcsOk := fcsGood c.fcs4 p, src := r.src p, level := r.level, keyMode := r.aux.keyMode, noCounter := r.aux.odd
    keyIndex := r.aux.index, fc := BitVec.ofNat 32 r.aux.fc, ackReq := r.hdr.ackReq, seq := r.hdr.seq
    isAck := r.hdr.type == 2 && natBits r.hdr.control 12 2 == 2, csl := r.csl, airNs := c.restNs
    rssi := air.rssi, snr := air.snr, cfo := air.cfo, groups := air.groups
    keyLate := r.level != 0 && (air.keyLate || (!c.keyed && (s.meshKey (r.aux.index / 64)).isSome)), fcs4 := c.fcs4, psdu := p }

/-- A key-late frame is counted (R18). -/
def State.countKeyLate (s : State) (n : Nat) (f : RxFrame) : State :=
  if f.keyLate then (s.bumpSat (R.WB_CTX_KEY_LATE_COUNT n) 1).evt (wbBlock n) E.WB_KEY_LATE else s

/-- RECEPTION_COMPLETE (R18, R204, R206, R207, R254, R255, R625): a context finishes its frame, or ends with what the ring holds. -/
def execReceptionComplete (n : Fin 4) (k : Fin 32) (air : RxAir) (s : State) : Answer :=
  match s.ctx n.val k.val with
  | none => .next s
  | some c =>
    let f := s.rxFrame n.val k.val c air
    if !c.confirmed || s.groupFenced (37 + 2 * n.val) then .next s
    else if s.groupFenced (36 + 2 * n.val) && decide (s.ringEnd n.val < c.refAt + f.airNs) then .next (s.endCtx n.val 8 k.val)
    else if !f.fcsOk && s.on (R.WB_REPLAY_CFG_ON_FCS n.val) && c.antMode == 0 && !c.second && !c.mark.stale then
      let again := { (s.newCtx n.val c.mark (if c.ant.getD 0 = 0 then 2 else 1)).keeping c with replayed := true, second := true }
      .next ((s.dropSegments n.val k.val).setCtx n.val k.val again)
    else
      let s := if c.ant = some 1 then s.bumpSat (R.WB_ANT1_SEL_COUNT n.val) 1 else s
      let s := s.countKeyLate n.val f
      let rec0 := { c.toRec k.val with
        len := c.len, frame := some f, secured := f.level != 0, keyLate := f.keyLate
        fc := if f.level = 0 then 0 else f.fc }
      if !f.fcsOk then
        match s.ctxToRec n.val k.val { rec0 with secured := false, fc := 0 } with
        | (s, r) => .next (s.settleRec n.val r 1)
      else
        match (match c.looked, f.src with
          | some h, _ => (s, h)
          | none, some eui => s.radioLookup eui 0
          | none, none => (s, none)) with
        | (s, none) =>
          match s.ctxToRec n.val k.val rec0 with
          | (s, r) => .next (s.settleRec n.val r 4)
        | (s, some h) =>
          match s.ctxToRec n.val k.val { rec0 with handle := some h } with
          | (s, r) => .next (s.postTxn n.val r h f)

/-- The SNR report of an accepted frame (R233). -/
def State.snrOf (s : State) (n h : Nat) (r : WbRec) (f : RxFrame) : State :=
  let opt := r.type - 4
  let crumb := r.rate == 15
  if decide (5 ≤ r.type) && decide (r.type ≤ 7) && (if crumb then s.on R.PHY_CRUMB_CFG_REPORT else s.on R.PHY_CRUMB_CFG_REPORT_STD) then
    s.pushSnr (snrReport s n opt h crumb (r.refNs % 2 ^ 32) f.groups)
  else s

/-- The record's result is set, with DECRYPTED under R255: the secured part of its PSDU is then plaintext (R206). -/
def State.endTxn (s : State) (n r result : Nat) (known : Option (List Octet)) : State :=
  match s.wrec n r with
  | none => s
  | some x =>
    let l := match x.frame with | some f => f.level | none => 0
    let dec := (result == 0 || result == 3) && decide (4 ≤ l)
    let x := { x with
      decrypted := dec, handle := if known.isSome then x.handle else none
      frame := x.frame.map fun f => if dec then { f with psdu := known.getD f.psdu } else f }
    (s.setRec n r x).settleRec n r result

/-- MAC_NODE_TRANSACTION (R233, R245, R248, R249, R253, R255, R479, R623): the granted item of record r of chain n, or the awaited
acknowledgement in its job's service. -/
def execMacNodeTransaction (n : Fin 4) (r : Nat) (s : State) : Answer :=
  match s.wrec n.val r with
  | none => .next s
  | some x =>
    match x.handle, x.frame, x.result with
    | some h, some f, none =>
      let job := s.awaited h f x.mark
      let granted := match x.item with
        | some id => (match s.item id with | some it => it.st == .taken | none => false)
        | none => job.isSome && !s.mac.txnWait.contains (n.val, r)
      if !granted then .next s
      else
        let finish (s : State) (c : Code) : State := match x.item with
          | some id => s.finishItem id c 0
          | none => s
        if s.fenced .mac then .next (finish ((s.sink .mac).fenceRec n.val r) .fenced)
        else
          match s.node h with
          | none => .next (finish (s.endTxn n.val r 4 none) .ok)
          | some e =>
            if f.src ≠ some (BitVec.ofNat 64 (e.get N.EUI)) then .next (finish (s.endTxn n.val r 4 none) .ok)
            else
              let plain := (s.nodeOpens e f).2
              match s.secure h e f x.policy with
              | (s, 0) =>
                let s := (s.heard h n.val x f).snrOf n.val h x f
                let s := if f.ackReq && !f.isAck then s.postAck h n.val x f else s
                let s := finish (s.endTxn n.val r 0 (some plain)) .ok
                match (if x.item.isNone then job else none) with
                | none => .next s
                | some id =>
                  match mapGet s.mac.aims id with
                  | none => .next s
                  | some a =>
                    if a.returned then .next (s.finishItem id .ok a.stamp)
                    else .next { s with mac := { s.mac with aims := mapSet s.mac.aims id { a with acked := true } } }
              | (s, res) => .next (finish (s.endTxn n.val r res (some plain)) .ok)
    | _, _, _ => .next s

/-! ## Jobs with AIM (R241 to R250, R296, R298, R302) -/

/-- AIM_JOB (R246, R247, R298): a job with AIM that has entered service is aimed and parked. -/
def execAimJob (id : Nat) (s : State) : Answer :=
  match s.item id with
  | none => .next s
  | some it => if it.st = .aiming ∧ s.pdOn 4 then .next (s.aimJob id none) else .next s

/-- Is a reception still open that came in time and can be the node's acknowledgement (R249): one whose source is the node or not known
yet, or the acknowledgement's record? -/
def State.ackOpen (s : State) (h limit : Nat) : Bool :=
  (List.range 4).any fun n =>
    let w := s.wbOf n
    (w.ctxs.any fun p => (p.2.looked == some (some h) || p.2.looked.isNone) && decide (p.2.mark.at_.toNat / 2 ^ 40 ≤ limit))
    || (w.recs.any fun p => p.2.handle == some h && p.2.result.isNone && (match p.2.frame with
      | some f => (s.awaited h f p.2.mark).isSome
      | none => false))

/-- ACK_WAIT_EXPIRED (R248, R249): the next attempt, or TIMEOUT after a full train. -/
def execAckWaitExpired (id : Nat) (s : State) : Answer :=
  match mapGet s.mac.aims id with
  | none => .next s
  | some a =>
    match a.sentEnd with
    | none => .next s
    | some t =>
      if !a.returned || a.acked then .next s
      else
        let limit := t + s.get R.MAC_TRAIN_CFG_ACK_WAIT * 1000
        let s := s.advanceTo (linOfNs limit)
        if s.ackOpen a.node limit then .next s
        else match s.node a.node with
          | none => .next (((s.bumpSat R.MAC_UNREACHED_COUNT 1).evt .mac E.MAC_UNREACHED).finishItem id .timeout a.stamp)
          | some e =>
            if a.full then
              .next (((s.bumpSat R.MAC_UNREACHED_COUNT 1).evt .mac E.MAC_UNREACHED).finishItem id .timeout a.stamp)
            else
              let s := (s.setNode a.node (e.put N.ATTEMPT (min 2 (e.get N.ATTEMPT + 1)))).evt .mac E.MAC_WAKE_FAIL
              .next (s.aimJob id none)

/-- Result codes by their number. -/
def codeOfNum (x : Nat) : Code :=
  [Code.ok, .busyReject, .range, .state, .notFound, .full, .auth, .tampered, .late, .aborted, .exhausted, .timeout, .fenced, .locked].getD x .state

/-- A train left the antenna: the MAC's counts (R248, R277); a widened train is a predicted one. -/
def State.countTrain (s : State) (a : AimState) : State :=
  if a.full then s.bumpSat R.MAC_FULL_SENT_COUNT 1
  else
    let s := s.bumpSat R.MAC_PRED_SENT_COUNT 1
    if a.widened then s.bumpSat R.MAC_RETRY4_COUNT 1 else s

/-- JOB_RETURN (R243, R301 to R303, R431): the oldest job that chain n has returned. -/
def execJobReturn (n : Fin 4) (s : State) : Answer :=
  match (s.chain n.val).returned with
  | [] => .next s
  | (id, code, stamp) :: rest =>
    let s := s.setChain n.val fun c => { c with returned := rest }
    let c := codeOfNum code
    match s.item id with
    | none => .next s
    | some it =>
      if it.st = .done then .next s
      else match (if it.jobAim then mapGet s.mac.aims id else none) with
        | none => .next (s.finishItem id c stamp)
        | some a =>
          if s.fenced .mac then .next (s.finishItem id .fenced stamp)
          else match c with
            | .ok =>
              let s := s.countTrain a
              if !it.jobAckReq || a.acked then .next (s.finishItem id .ok stamp)
              else .next { s with mac := { s.mac with aims := mapSet s.mac.aims id { a with returned := true, stamp := stamp } } }
            | .late =>
              let s := (s.handCells it.cells 28).setItem id fun x => { x with st := .aiming }
              .next (s.aimJob id (if !a.full && a.gen == s.tb.stepgen.toNat then some a.tpred else none))
            | c => .next (s.finishItem id c stamp)

/-- PREDICT (R246, R247, R277). -/
def execPredict (m : Master) (tag : BitVec 8) (s : State) : Answer :=
  .next (s.onCommand m .mac tag fun s =>
    match s.node (s.argBits .mac 0 0 18) with
    | none => s.done .mac .notFound
    | some e =>
      let a := s.predict e none
      s.complete .mac .ok 0 (BitVec.ofInt 32 (a.tpred / 2 ^ 14)) (BitVec.ofNat 32 a.gUs)
        (BitVec.ofNat 32 ((if a.full then 1 else 0) + a.attempt * 2 + (if a.hold then 8 else 0))))

end Sys2Proof.Machine
end

