-- ==== Sys2Proof/Machine/TbOps.lean ====
section
/-! DEFINITION. The time base's shared operations (R120 to R130): the active source, holdover, the end of a slew, and the device's own
stratum, which follows the mode (R263). -/

namespace Sys2Proof.Machine

/-- What a slew has removed, in µs (R130). -/
def Slew.removedUs (w : Slew) : Nat := (w.total - w.left) / (1000 * 2 ^ 40)

/-- The slew ends and SLEW completes with a code; PROGRESS shows the µs removed (R130). -/
def State.endSlew (s : State) (c : Code) : State :=
  match s.tb.slew with
  | none => s
  | some w =>
    let s := { s with tb := { s.tb with slew := none } }
    (s.put (R.H_STATUS_PROGRESS Block.tb.base) w.removedUs).done .tb c

/-- ABORT of a slew (R130): what it is to remove is cut at the next whole microsecond of the offset (log entry 74). -/
def Slew.cut (w : Slew) : Slew :=
  let removed := w.total - w.left
  let stop := ceilDiv removed (1000 * 2 ^ 40) * (1000 * 2 ^ 40)
  if stop < w.total then { w with total := stop, left := stop - removed, aborted := true } else w

/-- The code with which a slew that has nothing left to remove completes. -/
def Slew.code (w : Slew) : Code := if w.aborted then .aborted else .ok

/-- ABORT of SLEW (R66, R130). -/
def State.abortSlew (s : State) : State :=
  match s.tb.slew with
  | none => s
  | some w =>
    let s := { s with tb := { s.tb with slew := some w.cut } }
    if w.cut.left = 0 then s.endSlew w.cut.code else s

/-- A peer of the table by its router ID. -/
def State.peerOf (s : State) (rid : Nat) : Option (Nat × Peer) := s.bcn.peers.find? fun p => p.2.rid == rid

/-- The device's own stratum is brought up to date (R263).  Locked to a parent that is not in the table, it keeps its value: the
parent's last known stratum still stands behind it (DEDUCED, log entry 20). -/
def State.stratumNow (s : State) : State :=
  match s.tbMode with
  | 2 =>
    if s.get R.TB_STATE_SRC = 3 then
      match (if s.on R.BCN_PARENT_VALID then s.peerOf (s.get R.BCN_PARENT_RID) else none) with
      | some (_, p) => s.put R.BCN_STATUS_STRATUM (min 14 (p.stratum + 1))
      | none => s
    else s.put R.BCN_STATUS_STRATUM 0
  | 3 => s
  | _ => s.put R.BCN_STATUS_STRATUM 15

/-- HOLDOVER (R123, R125, R127): the rate is kept, LOCKED is cleared, no source is active, a slew ends with STATE. -/
def State.enterHoldover (s : State) : State :=
  let s := if s.tbMode = 3 then s
    else ({ s with tb := { s.tb with holdStart := s.tb.L } }.put R.TB_STATE_MODE 3).evt .tb E.TB_HOLDOVER
  (((s.put R.TB_STATE_SRC 0).put R.TB_SRC_SET_LOCKED 0).endSlew .state).stratumNow

/-- Is source i (0 PTP, 1 GNSS, 2 peer beacons) enabled? -/
def State.srcEnabled (s : State) (i : Nat) : Bool := natBit (s.word R.TB_SRC_EN_PTP.a).toNat i

/-- Source i starts or stops being OK (R121): TB_STATE.OK and the time since when it has been. -/
def State.setOk (s : State) (i : Nat) (ok : Bool) : State :=
  let since := if ok then (match nth s.tb.okAt i none with | some t => some t | none => some s.tb.L) else none
  ({ s with tb := { s.tb with okAt := s.tb.okAt.set i since } }).put ⟨R.TB_STATE_OK.a, 8 + i, 1⟩ (if ok then 1 else 0)

/-- The linear count at which a source has been OK for TB_QUAL seconds. -/
def State.qualAt (s : State) (t : Lin) : Lin := t + linOfNs (s.get R.TB_QUAL_S * 10 ^ 9)

/-- Is source i enabled and OK long enough (R120)? -/
def State.meetsQual (s : State) (i : Nat) : Bool :=
  s.srcEnabled i && (match nth s.tb.okAt i none with
    | some t => decide ((s.qualAt t).toNat ≤ s.tb.L.toNat)
    | none => false)

/-- GNSS is OK while 1PPS edges come on time and, with TENM, the 10 MHz input is present (R121). -/
def State.judgeGnss (s : State) : State := s.setOk 1 (s.tb.pps && (s.tb.tenm || !s.on R.TB_SRC_EN_TENM))

/-- The best qualified source becomes active, unless one at least as good is or the reference is lost (R120, R123, R128). -/
def State.selectSource (s : State) : State :=
  if s.on R.TB_STATE_REF_LOST then s
  else match (List.range 3).find? fun i => nth s.tb.qualified i false with
    | none => s
    | some i =>
      let src := s.get R.TB_STATE_SRC
      if src ≠ 0 ∧ src ≤ i + 1 then s
      else ((((s.put R.TB_STATE_SRC (i + 1)).put R.TB_STATE_MODE 1).put R.TB_SRC_SET_LOCKED 0).evt .tb E.TB_SRC_CHANGE).stratumNow

/-- A source qualifies (R120). -/
def State.qualify (s : State) (i : Nat) : State :=
  if nth s.tb.qualified i false || !s.meetsQual i then s
  else ({ s with tb := { s.tb with qualified := s.tb.qualified.set i true } }).evt .tb E.TB_QUALIFIED

/-- Does a source keep its qualification (R120, R123)?  The active one while it is enabled and OK, the others while they have been OK for
TB_QUAL seconds as it stands now. -/
def State.staysQualified (s : State) (i : Nat) : Bool :=
  nth s.tb.qualified i false
    && (if s.get R.TB_STATE_SRC = i + 1 then s.srcEnabled i && (nth s.tb.okAt i none).isSome else s.meetsQual i)

/-- The sources are judged again: those no longer OK, enabled or OK long enough lose their qualification, those OK long enough qualify, the
active source is lost or replaced (R120, R123).  An active source that a write of TB_SRC_EN disables is replaced as one that stops being
OK is: by the best other qualified source, else HOLDOVER (DESIGN CHOICE, log entry 74). -/
def State.tbEval (s : State) : State :=
  let q := (List.range 3).map s.staysQualified
  let s := { s with tb := { s.tb with qualified := q } }
  let s := ((s.qualify 0).qualify 1).qualify 2
  let src := s.get R.TB_STATE_SRC
  let s := if src ≠ 0 ∧ nth s.tb.qualified (src - 1) false = false then
      (if s.tb.qualified.contains true && !s.on R.TB_STATE_REF_LOST then s.put R.TB_STATE_SRC 0 else s.enterHoldover)
    else s
  s.selectSource

/-- BCN_OK is cleared (R121, R265). -/
def State.clearBcnOk (s : State) : State := ((s.put R.TB_SRC_SET_BCN_OK 0).setOk 2 false).tbEval

end Sys2Proof.Machine
end

