-- ==== Sys2Proof/Machine/Bcn.lean ====
section
/-! DEFINITION. Beacons and the peer table (R259 to R266, R276, R278). -/

namespace Sys2Proof.Machine

/-- Change BCN's peers. -/
def State.setPeers (s : State) (f : AMap Peer → AMap Peer) : State := { s with bcn := { s.bcn with peers := f s.bcn.peers } }

/-- Does the linear count of a receive stamp need the last step added, and can it be extended at all (R137)? -/
def State.stampNs (s : State) (st : Stamp) (ns : Nat) : State × Int :=
  match s.behind (natBits st.toNat 48 4) with
  | 0 => (s, ns)
  | 1 => (s, (ns : Int) + s.lastStepU / 2 ^ 14)
  | _ => let (x, s) := s.draw
         (s, x)

/-- The candidate of R266 among the peers a beacon entered. -/
def State.candidate (s : State) : Option Peer :=
  let l := (s.bcn.peers.map (·.2)).filter fun p => p.beacon && p.parent != Config.routerId.toNat
  let l := if l.any (!·.hold) then l.filter (!·.hold) else l
  let better (a b : Peer) : Bool :=
    decide (a.stratum < b.stratum) || (a.stratum == b.stratum &&
      (decide (b.rssi.toInt < a.rssi.toInt) || (a.rssi == b.rssi && decide (a.rid < b.rid))))
  l.foldl (fun best p => match best with
    | none => some p
    | some q => if better p q then some p else some q) none

/-- The candidate and the stratum are brought up to date; a change of candidate sets CAND. -/
def State.bcnNow (s : State) : State :=
  let old := (s.on R.BCN_CAND_VALID, s.get R.BCN_CAND_RID)
  let s := match s.candidate with
    | some p => (s.put R.BCN_CAND_VALID 1).put R.BCN_CAND_RID p.rid
    | none => (s.put R.BCN_CAND_VALID 0).put R.BCN_CAND_RID 0
  (s.evtIf (old != (s.on R.BCN_CAND_VALID, s.get R.BCN_CAND_RID)) .bcn E.BCN_CAND).stratumNow

/-- Enter or refresh a peer (R259, R264): a full table gives up the entry heard least recently. -/
def State.enterPeer (s : State) (p : Peer) : State :=
  match s.peerOf p.rid with
  | some (i, _) => s.setPeers (mapSet · i p)
  | none =>
    if s.bcn.peers.length < 64 then
      (s.setPeers fun m => mapSet m (mapFirstFree m) p).evt .bcn E.BCN_PEER_NEW
    else
      let oldest := s.bcn.peers.foldl (fun a x => match a with
        | none => some x
        | some y => if x.2.heard < y.2.heard then some x else some y) none
      let i := match oldest with
        | some x => x.1
        | none => 0
      (((s.setPeers (mapSet · i p)).bumpSat R.BCN_PEER_REPL_COUNT 1).evt .bcn E.BCN_PEER_NEW).evt .bcn E.BCN_PEER_REPL

/-- A frame for the network as a context has it: what came, and with network key p its octets as plaintext, if it is sound (R259,
R475).  The key of one of the four mesh generations is named by the key index (DESIGN CHOICE, log entry 77); one in the clear has only its FCS. -/
def State.netFrame (s : State) (n k : Nat) (c : Ctx) (air : RxAir) (p : Nat) : RxFrame × Option (List Octet) :=
  let f := s.rxFrame n k c air
  let f := { f with keyLate := f.level != 0 && air.keyLate }
  if !f.fcsOk then (f, none)
  else if f.level = 0 then (f, some f.psdu)
  else if f.keyMode ≠ 1 ∨ f.noCounter ∨ 4 ≤ f.keyIndex then (f, none)
  else match s.meshKey f.keyIndex, f.src with
    | some slot, some eui =>
      let o := (readFrame f.fcs4 f.psdu).open (netKey slot.key p f.keyIndex) eui.toNat f.psdu
      (f, if o.1 then some o.2 else none)
    | _, _ => (f, none)

/-- Is the counter above the last of the sender's entry (R259)? -/
def State.counterFresh (s : State) (sender : Nat) (counter : W32) : Bool :=
  match s.peerOf sender with
  | some (_, p) => decide (p.counter < counter)
  | none => true

/-- A received beacon or flood duplicate is consumed: its context is released with no record. -/
def State.consumeCtx (s : State) (n : Fin 4) (k : Nat) : State := (s.ledOut (.wb n) 1).releaseCtx n.val k

/-- The Gelzari beacon block of cell c (R261), TIME_S and TIME_NS not filled in. -/
def State.beaconBlock (s : State) (c : Nat) : List Octet :=
  leOctets 2 Config.routerId.toNat
  ++ leOctets 1 (s.get R.BCN_STATUS_STRATUM + s.get R.TB_STATE_SRC * 2 ^ 4 + (if s.tbMode = 3 then 2 ^ 6 else 0))
  ++ leOctets 1 (c % 32 + c / 32 * 2 ^ 5)
  ++ leOctets 4 (s.ap (R.BCN_CELL_INTERVAL c)) ++ leOctets 10 0
  ++ leOctets 2 (if s.on R.BCN_PARENT_VALID then s.get R.BCN_PARENT_RID else 0x3FFF)
  ++ ((List.range 4).flatMap fun k => leOctets 4 (s.get (R.RF_CENTRE_KHZ k) + (if s.on (R.RF_CTL_EN k) then 2 ^ 22 else 0)))
  ++ leOctets 4 0

/-- BEACON_DUE (R260 to R262, R276, R286).  PRIO and the window of the job are not stated: free values (log entry 21). -/
def execBeaconDue (c : Fin 128) (s : State) : Answer :=
  let n := c.val / 32
  if !s.pdOn 4 || !s.apOn (R.BCN_CELL_EN c.val) then .next s
  else if s.fenced .bcn then .next (s.sink .bcn)
  else
    let s := s.ledIn .bcn 1
    if !s.apOn (R.WB_CHAN_EN n (c.val % 32)) then .next (s.ledDrop .bcn 1)
    else
      let (prio, s) := s.draw
      let (win, s) := s.draw
      let due := s.tickCount
      let ts := s.lin + s.get R.PEEL_CFG_TX_LEAD * 10 ^ 9 / 2 ^ 15
      let level := s.get R.BCN_CFG_SEC_LEVEL
      let type := s.ap (R.BCN_CELL_TYPE c.val)
      let block := s.beaconBlock c.val
      let len := (beaconFrame block).length + frameOverhead level (decide (4 < type) || natBit s.fskCfg.toNat 13)
      let words := radioWords (262144 + 3840 + c.val) (prio % 16) n (due % 2 ^ 32) (ts % 2 ^ 32) ((ts + win % 2 ^ 31) % 2 ^ 32)
        (c.val % 32) len (s.ap (R.BCN_CELL_PWR c.val)) type (s.ap (R.BCN_CELL_RATE c.val)) (level + 8)
      .next (s.hwSend { producer := 7, words := words, octets := len, frame := block })

/-- The beacon a context has received, if it carries the block and verifies (R259, R264): the block's octets, and the frame.  One in the
clear is taken only where the device's own beacons are (DEDUCED, log entry 20). -/
def State.beaconHeard (s : State) (n k : Nat) (c : Ctx) (air : RxAir) : Option (List Octet × RxFrame) :=
  match s.netFrame n k c air 1 with
  | (_, none) => none
  | (f, some p) =>
    match (readFrame f.fcs4 p).block p with
    | none => none
    | some b =>
      if (if f.level = 0 then s.get R.BCN_CFG_SEC_LEVEL == 0 else s.counterFresh (leNat (b.take 2) % 2 ^ 14) f.fc) then some (b, f) else none

/-- BEACON_RX (R259, R264 to R266): context k of chain n has received a beacon with the block. -/
def execBeaconRx (n : Fin 4) (k : Fin 32) (air : RxAir) (s : State) : Answer :=
  match s.ctx n.val k.val with
  | none => .next s
  | some c =>
    match s.beaconHeard n.val k.val c air with
    | none => .next s
    | some (b, f) =>
      if !s.pdOn 4 || !c.confirmed then .next s
      else if s.fenced .bcn then .next (((s.countKeyLate n.val f).sink .bcn).consumeCtx n k.val)
      else
        let (s, ns) := (s.countKeyLate n.val f).stampNs c.stamp c.refNs
        let rid := leNat (b.take 2) % 2 ^ 14
        let carried : Int := (leNat (piece b 8 6) * 10 ^ 9 + leNat (piece b 14 4) : Nat)
        let lim : Int := 2 ^ 31 - 1
        let counter := if f.level ≠ 0 then f.fc else match s.peerOf rid with
          | some (_, p) => p.counter
          | none => 0
        let o := leNat (piece b 2 1)
        let p : Peer := {
          rid := rid, stratum := o % 16, hold := natBit o 6, parent := leNat (piece b 18 2) % 2 ^ 14, rssi := air.rssi,
          stamp := c.stamp, heard := ns.toNat, offset := max (-lim) (min lim (ns - carried))
          interval := leNat (piece b 4 4) % 2 ^ 17, beacon := true, counter := counter }
        let s := (s.bumpSat R.BCN_PEER_RX_COUNT 1).enterPeer p
        let s := if s.on R.BCN_PARENT_VALID ∧ s.get R.BCN_PARENT_RID = p.rid then s.put R.BCN_PARENT_MISSES 0 else s
        .next ((s.consumeCtx n k.val).bcnNow)

/-- The next instant E at which a beacon of the parent is expected and not judged yet, in linear ns (R265). -/
def State.expected (s : State) (p : Peer) : Nat :=
  let step := p.interval * 10 ^ 8
  if s.bcn.judged ≤ p.heard then p.heard + step
  else p.heard + ((s.bcn.judged - p.heard) / max 1 step + 1) * step

/-- Is a reception still open whose detection point lies within a window (R265)? -/
def State.openWithin (s : State) (lo hi : Nat) : Bool :=
  s.wb.any fun w => w.2.ctxs.any fun p =>
    let t := p.2.mark.at_.toNat / 2 ^ 40
    decide (lo ≤ t) && decide (t ≤ hi)

/-- PARENT_BEACON_MISS (R121, R265): the window after the expected beacon of the parent ends, and no reception within it is open.  A parent
that is not in the table has no last stamp to expect from. -/
def execParentBeaconMiss (s : State) : Answer :=
  match (if s.on R.BCN_PARENT_VALID then s.peerOf (s.get R.BCN_PARENT_RID) else none) with
  | none => .next s
  | some (_, p) =>
    let win := s.get R.BCN_CFG_WIN * 1000000
    let e := s.expected p
    if !s.pdOn 4 || s.openWithin (e - win) (e + win) then .next s
    else
    let was := s.get R.BCN_PARENT_MISSES
    let s := s.advanceTo (linOfNs (e + win))
    let s := { s with bcn := { s.bcn with judged := e } }
    let s := ((s.bumpSat R.BCN_MISSED_CNT_COUNT 1).put R.BCN_PARENT_MISSES (min 3 (was + 1))).evt .bcn E.BCN_MISS
    if was = 2 then .next ((((s.put R.BCN_PARENT_ADRIFT 1).evt .bcn E.BCN_ADRIFT).clearBcnOk).stratumNow) else .next s

/-- PEER_EXPIRE (R264): entry i has not been refreshed within PEER_AGE of its intervals of 100 ms. -/
def execPeerExpire (i : Fin 64) (s : State) : Answer :=
  match mapGet s.bcn.peers i.val with
  | none => .next s
  | some p =>
    let s := s.advanceTo (linOfNs (p.heard + s.get R.BCN_CFG_PEER_AGE * p.interval * 10 ^ 8))
    .next (((s.setPeers (mapErase · i.val)).evt .bcn E.BCN_PEER_EXPIRED).bcnNow)

/-- BCN_PARENT_WRITE (R266). -/
def execBcnParentWrite (m : Master) (v : BitVec 32) (s : State) : Answer :=
  match s.busWrite m R.BCN_PARENT_RID.a true v with
  | (s, .applied ..) => .next ((((s.put R.BCN_PARENT_ADRIFT 0).put R.BCN_PARENT_MISSES 0)).stratumNow)
  | (s, _) => .next s

/-- PEER_READ (R278). -/
def execPeerRead (m : Master) (tag : BitVec 8) (s : State) : Answer :=
  .next (s.onCommand m .bcn tag fun s =>
    let i := (s.arg .bcn 0).toNat
    if 63 < i then s.done .bcn .range
    else match mapGet s.bcn.peers i with
      | none => s.done .bcn .notFound
      | some p => s.complete .bcn .ok p.rssi.toNat
          (BitVec.ofNat 32 (p.rid + p.stratum * 2 ^ 14 + (if p.hold then 2 ^ 18 else 0)))
          (BitVec.ofNat 32 p.stamp.toNat) (BitVec.ofInt 32 p.offset))

end Sys2Proof.Machine
end

