-- ==== Sys2Proof/Machine/CrcOps.lean ====
section
/-! DEFINITION. The check-value algorithms (R576): remainders, bit by bit, least significant bit first. -/

namespace Sys2Proof.Machine

/-- Width of an algorithm. -/
def crcWidth (alg : Nat) : Nat := match alg with
  | 0 => 16
  | 1 => 32
  | 2 => 32
  | _ => 64

/-- Its polynomial, reflected. -/
def crcPoly (alg : Nat) : Nat := match alg with
  | 0 => 0x8408
  | 1 => 0xEDB88320
  | 2 => 0x82F63B78
  | _ => 0xC96C5795D7870F42

/-- What a computation starts from, and what its end is XORed with. -/
def crcInit (alg : Nat) : Nat := if alg = 0 then 0 else 2 ^ crcWidth alg - 1

/-- One bit. -/
def crcBit (poly rem : Nat) : Nat := if rem % 2 = 1 then (rem / 2) ^^^ poly else rem / 2

/-- One octet. -/
def crcOctet (poly rem o : Nat) : Nat :=
  crcBit poly (crcBit poly (crcBit poly (crcBit poly (crcBit poly (crcBit poly (crcBit poly (crcBit poly (rem ^^^ o))))))))

/-- The remainder after some octets. -/
def crcRun (alg rem : Nat) (l : List Nat) : Nat := l.foldl (crcOctet (crcPoly alg)) rem

/-- The check value of a remainder. -/
def crcFinal (alg rem : Nat) : Nat := rem ^^^ crcInit alg

/-- The check value of some octets. -/
def crcOf (alg : Nat) (l : List Nat) : Nat := crcFinal alg (crcRun alg (crcInit alg) l)

end Sys2Proof.Machine
end

