-- ==== Sys2Proof/Machine/Crc.lean ====
section
/-! DEFINITION. The check-value channels (R576 to R581, R585, R586), and a host DMA that fails (R557). -/

namespace Sys2Proof.Machine

/-- A job of a channel completes: STAT, DONE, JOBS; OUT when it ends with OK, else DROP (R581, R586). -/
def State.crcEnd (s : State) (c : Nat) (code : Code) (kib : Nat) : State :=
  let s := ((s.put (R.CRC_STAT_STATE c) (if code = .ok then 2 else 3)).put (R.CRC_STAT_RESULT c) code.num).put (R.CRC_STAT_KIB c) (min kib 65535)
  let s := if code = .ok then s.ledOut .crc 1 else s.ledDrop .crc 1
  (s.bump (R.CRC_JOBS_COUNT c) 1).evt .crc (E.CRC_DONE + c)

/-- What a channel shows as its value. -/
def State.crcShow (s : State) (c v : Nat) : State := s.put64 (R.CRC_VAL_LO_VALUE c) (R.CRC_VAL_HI_VALUE c) (v % 2 ^ 64)

/-- Octets a job moves to its destination; those for the host pass the PCIe FIFO (R46). -/
def State.crcMove (s : State) (c : Nat) (l : List Octet) : State :=
  let a := s.get64 (R.CRC_DST_LO_ADDR c) (R.CRC_DST_HI_ADDR c)
  if s.on (R.CRC_CFG_DST_SP c) then s.dramWrite a (l.take (dramSize - a)) else { s.passOctets 31 l with crc := { s.crc with hostWrite := (a, l) } }

/-- The source octets of a job: of BAR2, or of host memory as they came. -/
def State.crcSource (s : State) (c n : Nat) (host : List Octet) : List Octet :=
  if s.on (R.CRC_CFG_SRC_SP c) then
    let a := s.get64 (R.CRC_SRC_LO_ADDR c) (R.CRC_SRC_HI_ADDR c)
    let m := min n (dramSize - a)
    s.dramRead a m ++ List.replicate (n - m) 0
  else (host ++ List.replicate (n - host.length) 0).take n

/-- The remainder a job starts from (R578); with no remainder left by a job before, the spec names none: a free value (log entry 46). -/
def State.crcStart (s : State) (c alg : Nat) : Nat × State :=
  if s.on (R.CRC_CFG_FIRST c) then (crcInit alg, s)
  else match mapGet s.crc.rem c with
    | some r => (r, s)
    | none => let (x, s) := s.draw
              (x % 2 ^ crcWidth alg, s)

/-- A job that does not finish: the remainder it leaves is open (log entry 46). -/
def State.crcAbort (s : State) (c : Nat) (code : Code) (kib : Nat) : State :=
  let (x, s) := s.draw
  let r := x % 2 ^ crcWidth (s.get (R.CRC_CFG_ALG c))
  ({ s with crc := { s.crc with rem := mapSet s.crc.rem c r } }.crcShow c r).crcEnd c code kib

/-- Is the channel running? -/
def State.crcRuns (s : State) (c : Nat) : Bool := s.get (R.CRC_STAT_STATE c) == 1

/-- CRC_GO: a write of GO to a channel that runs is refused; a job of a fenced group is taken by its sink. -/
def execCrcGo (m : Master) (c : Fin 24) (s : State) : Answer :=
  let k := c.val
  .next (
    if !s.hears m then s
    else if !s.powered .crc then s.offWrite
    else if s.crcRuns k then s.refuse .crc (0x1018 + 0x40 * k)
    else if s.fenced .crc then
      let s := (((s.put (R.CRC_STAT_STATE k) 3).put (R.CRC_STAT_RESULT k) Code.fenced.num).put (R.CRC_STAT_KIB k) 0).sink .crc
      (s.bump (R.CRC_JOBS_COUNT k) 1).evt .crc (E.CRC_DONE + k)
    else
      let s := s.ledIn .crc 1
      let len := s.get (R.CRC_LEN_OCTETS k)
      let short := s.get (R.CRC_CFG_MODE k) = 2 ∧ s.on (R.CRC_CFG_LAST k) ∧ len < crcWidth (s.get (R.CRC_CFG_ALG k)) / 8
      if len = 0 ∨ short then s.crcEnd k .range 0
      else ((s.put (R.CRC_STAT_STATE k) 1).put (R.CRC_STAT_RESULT k) 0).put (R.CRC_STAT_KIB k) 0)

/-- CRC_STOP: the job ends at its next boundary of 512 octets; where that is the spec does not say: free (log entry 46), and so are octets
of host memory moved by then. -/
def execCrcStop (m : Master) (c : Fin 24) (s : State) : Answer :=
  let k := c.val
  .next (
    if !s.hears m then s
    else if !s.powered .crc then s.offWrite
    else if !s.crcRuns k then s
    else
      let (x, s) := s.draw
      let n := x % (s.get (R.CRC_LEN_OCTETS k) / 512 + 1) * 512
      let s := if s.get (R.CRC_CFG_MODE k) = 0 then s
        else
          let l := s.crcSource k n ((List.range n).map fun i => BitVec.ofNat 8 (Config.free (s.freeCtr + i)))
          { s with freeCtr := s.freeCtr + n }.crcMove k l
      s.crcAbort k .aborted (n / 1024))

/-- CRC_JOB_DONE: a job of channel c finishes; `host`: the octets it read, if its source is host memory. -/
def execCrcJobDone (c : Fin 24) (host : List Octet) (s : State) : Answer :=
  let k := c.val
  .next (
    if !s.powered .crc || !s.crcRuns k then s
    else
      let alg := s.get (R.CRC_CFG_ALG k)
      let mode := s.get (R.CRC_CFG_MODE k)
      let last := s.on (R.CRC_CFG_LAST k)
      let len := s.get (R.CRC_LEN_OCTETS k)
      let width := crcWidth alg / 8
      let data := s.crcSource k len host
      let s := if s.on (R.CRC_CFG_SRC_SP k) then s else s.passOctets 30 data
      let body := if mode = 2 ∧ last then data.take (len - width) else data
      let (r0, s) := s.crcStart k alg
      let r := crcRun alg r0 (body.map (·.toNat))
      let v := crcFinal alg r
      let s := ({ s with crc := { s.crc with rem := mapSet s.crc.rem k r } }).crcShow k (if last then v else r)
      let s := if mode = 0 then s else if mode = 1 ∧ last then s.crcMove k (data ++ leOctets width v) else s.crcMove k body
      if mode = 2 ∧ last ∧ leNat (data.drop (len - width)) ≠ v then
        (s.crcEnd k .auth (len / 1024)).evt .crc E.CRC_MISMATCH
      else s.crcEnd k .ok (len / 1024))

/-- DMA_ERROR (R557): of queue q, which is revoked, or of a channel, whose job ends. -/
def execDmaError (crc : Bool) (q : Fin 64) (s : State) : Answer :=
  .next (
    let note (s : State) : State := if s.powered .host then s.evt .host E.HOST_DMA_ERR else s
    if crc then
      let k := q.val % 24
      if !s.powered .crc || !s.crcRuns k then s
      else
        let (x, s) := s.draw
        (note (s.crcAbort k .aborted (x % (s.get (R.CRC_LEN_OCTETS k) / 1024 + 1)))).evt .crc E.CRC_DMA_ERR
    else if s.queueUp q.val then note (s.revoke q.val) else s)

end Sys2Proof.Machine
end

