-- ==== Sys2Proof/Machine/Gcm.lean ====
section
/-! DEFINITION. Protection of a frame under an SA (R389, R395, R406, R411, R412): AES-GCM (SP 800-38D) and the SecTAG of IEEE
802.1AE-2018, which the spec names and does not restate (PRESUMED, log entry 9). -/

namespace Sys2Proof.Machine

/-- Multiplication by x in the field of GHASH. -/
def ghashShift (v : Nat) : Nat := if v % 2 = 1 then (v / 2) ^^^ (0xE1 <<< 120) else v / 2

/-- The product in the field of GHASH, over the bits of x from the most significant. -/
def ghashMul (x : Nat) : Nat → Nat → Nat
  | 0, _ => 0
  | n + 1, v => (if natBit x n then v else 0) ^^^ ghashMul x n (ghashShift v)

/-- GHASH of octets under a subkey, in blocks of 16, the last filled with zeros. -/
def ghash (h : Nat) : Nat → Nat → List Nat → Nat
  | 0, y, _ => y
  | n + 1, y, l => ghash h n (ghashMul (y ^^^ beNum ((l ++ List.replicate 16 0).take 16)) 128 h) (l.drop 16)

/-- The key stream of GCM from counter c on, `n` blocks. -/
def gctr (key : List Nat) (iv c : Nat) : Nat → List Nat
  | 0 => []
  | n + 1 => aesEnc key (beList 16 (iv * 2 ^ 32 + c)) ++ gctr key iv (c + 1) n

/-- GCM under a key and its GHASH subkey, with a nonce of 96 bits: the cipher text and the tag of 16 octets. -/
def gcmSeal (key hkey : List Nat) (iv : Nat) (aad plain : List Nat) : List Nat × List Nat :=
  let c := xorList plain (gctr key iv 2 (ceilDiv plain.length 16))
  let h := beNum hkey
  let y := ghash h (ceilDiv c.length 16) (ghash h (ceilDiv aad.length 16) 0 aad) c
  let s := ghashMul (y ^^^ (8 * aad.length * 2 ^ 64 + 8 * c.length)) 128 h
  (c, xorList (beList 16 s) (gctr key iv 1 1))

/-- The nonce of a frame (R406): SSCI and PN under the salt for an XPN suite, else SCI and PN. -/
def SaEntry.nonce (e : SaEntry) (pn : Nat) : Nat :=
  if e.suite < 2 then e.sci * 2 ^ 32 + pn % 2 ^ 32 else (e.ssci * 2 ^ 64 + pn) ^^^ e.salt

/-- The SecTAG of a frame with some octets of user data: ES and SCB are 0 (R389); SL counts fewer than 48 octets. -/
def SentTag.octets (t : SentTag) (user : Nat) : List Nat :=
  [0x88, 0xE5, (if t.sci.isSome then 0x20 else 0) + (if t.e then 0x0C else 0) + t.sa % 4, if user < 48 then user else 0]
    ++ beList 4 t.pn ++ (match t.sci with | some x => beList 8 x | none => [])

/-- Octets of user data that a confidentiality offset code leaves in the clear. -/
def offsetOctets (code : Nat) : Nat := if code = 1 then 30 else if code = 2 then 50 else 0

/-- A frame before its FCS as it leaves under an SA (R411): addresses, SecTAG, user data enciphered from the offset on, or in the clear when
only its integrity is protected, and the ICV. -/
def SaEntry.protects (e : SaEntry) (t : SentTag) (l : List Octet) : List Octet :=
  let l := l.map (·.toNat)
  let user := l.drop 12
  let clear := if t.e then user.take (offsetOctets t.offset) else user
  let head := l.take 12 ++ t.octets user.length
  let (c, icv) := gcmSeal e.key e.hkey (e.nonce t.pn) (head ++ clear) (user.drop clear.length)
  (head ++ clear ++ c ++ icv).map (BitVec.ofNat 8)

end Sys2Proof.Machine
end

