-- ==== Sys2Proof/Machine/FrameOps.lean ====
section
/-! DEFINITION. Frames on their way through ports, Crust, Sieve and Rack (R15, R16, R35, R361, R367 to R374, R385, R387, R432, R439): who
serves a port, line rates, stamps and statistics, drops, cells, and the end of a frame. -/

namespace Sys2Proof.Machine

/-! ## Who serves a port -/

/-- The datapath of a port (R15): 0 Crust-E, 1 Crust-W, 2 Crust-C. -/
def dpOf (p : Nat) : Nat := if p = 0 then 0 else if p = 1 then 1 else 2

/-- The page of a datapath. -/
def dpBlock (d : Nat) : Block := if d = 0 then .crust 1 else if d = 1 then .crust 2 else .crust 3

/-- The port block of a port on its datapath page (R427). -/
def pkOf (p : Nat) : Nat := if p < 2 then 0 else p - 2

/-- The page of port p; port 9 for numbers above. -/
def portBlock (p : Nat) : Block := .port (Fin.ofNat 10 (if p < 10 then p else 9))

/-- The receive group of a port (R24, R35). -/
def rxGroup (p : Nat) : Nat := if p = 0 then 0 else if p = 1 then 8 else if p < 6 then 16 else 18

/-- The transmit group of a port. -/
def txGroup (p : Nat) : Nat := rxGroup p + 1

/-- The SA-fetch group of a datapath; its replay check is the next group (R35). -/
def saGroup (d : Nat) : Nat := if d = 0 then 2 else if d = 1 then 10 else 20

/-- The page of a layer-2 pipeline. -/
def pipeBlock (e : Nat) : Block := if e = 0 then .sieve 0 else .sieve 1

/-! ## Ports -/

/-- A port besides its registers. -/
def State.port (s : State) (p : Nat) : PortSt := mapGetD s.ports p {}

/-- Change it. -/
def State.setPort (s : State) (p : Nat) (f : PortSt → PortSt) : State := { s with ports := mapSet s.ports p (f (s.port p)) }

/-- Is the port's domain on and its link up? -/
def State.linkUp (s : State) (p : Nat) : Bool := s.powered (portBlock p) && s.on (R.PORT_LINK_UP p)

/-- Line rate of a port in Gbit/s (R360, R361). -/
def State.rate (s : State) (p : Nat) : Nat :=
  if p < 2 then 400
  else match s.get (R.PORT_MODE_MODE p) with
    | 1 => 100
    | 4 => 10
    | _ => 25

/-- The clocked latencies of R370 in ns: receive PMA, FEC and PCS together, transmit PCS, FEC and PMA together. -/
def State.portLatency (s : State) (p : Nat) : Nat × Nat :=
  if p < 2 then (18 + 95 + 48, 36 + 10)
  else match s.get (R.PORT_MODE_MODE p) with
    | 1 => (24 + 310 + 30, 60 + 14)
    | 2 => (40 + 260 + 45, 90 + 22)
    | 3 => (40 + 420 + 45, 110 + 22)
    | _ => (52 + 60, 55 + 30)

/-- The instant at which a frame that crosses the PCS boundary of a port now is stamped, at the plane of R372. -/
def State.portInstant (s : State) (p : Nat) (tx : Bool) : Lin :=
  let lat := if s.on (R.PORT_TS_CFG_PLANE p) then (if tx then ((s.portLatency p).2 : Int) else -((s.portLatency p).1 : Int)) else 0
  let adj := toSigned 16 (s.get (if tx then R.PORT_TS_ADJ_TX p else R.PORT_TS_ADJ_RX p))
  BitVec.ofInt 104 ((s.tb.L.toNat : Int) + lat * 2 ^ 40 + adj * 2 ^ 36)

/-- The stamp of a frame at a port now: KIND 2 receive, 3 transmit (R371, R372). -/
def State.portStamp (s : State) (p : Nat) (tx : Bool) : Stamp := stampAt s (s.portInstant p tx) p (if tx then 3 else 2)

/-- The full time of a transmit stamp taken now: 48 bits of seconds and 32 of nanoseconds (R118). -/
def State.portTime (s : State) (p : Nat) : Nat :=
  let ns := (s.lastShown (s.portInstant p true)).toNat / 2 ^ 40
  (ns / 10 ^ 9 % 2 ^ 48) * 2 ^ 32 + ns % 10 ^ 9

/-- The sum of octets as 16-bit words. -/
def sum16 : List Octet → Nat
  | [] => 0
  | [a] => 256 * a.toNat
  | a :: b :: r => 256 * a.toNat + b.toNat + sum16 r

/-- A time of 10 octets, most significant first, goes into a frame at an offset; over UDP and IPv6 the last two octets, which the host
appended, change so that the checksum still holds (R377, log entry 31). -/
def oneStepWrite (udp6 : Bool) (off time : Nat) (l : List Octet) : List Octet :=
  let m := (l.take off ++ (List.range 10).map (fun i => BitVec.ofNat 8 (time / 256 ^ (9 - i))) ++ l.drop (off + 10)).take l.length
  if !udp6 then m
  else
    let n := l.length - 2
    let tail : Nat := (((sum16 l : Int) - (sum16 (m.take n) : Int)) % 65535).toNat
    m.take n ++ [BitVec.ofNat 8 (tail / 256), BitVec.ofNat 8 tail]

/-- Advance statistics counter i of a port (R387). -/
def State.stat (s : State) (p i n : Nat) : State :=
  s.setPort p fun x => { x with stats := mapModify x.stats i 0 fun v => (v + n) % 2 ^ 64 }

/-- Is the address a group address? -/
def isGroup (mac : BitVec 48) : Bool := mac.getLsbD 40

/-- Octets of data and padding of a frame. -/
def dataOctets (x : FrameFacts) (octets : Nat) : Nat := octets - (if x.vid.isSome then 22 else 18)

/-- Statistics of a received frame (R387; what each counts is IEEE 802.3's, PRESUMED, log entry 31). -/
def State.rxStats (s : State) (p : Nat) (x : FrameFacts) : State :=
  let s := if x.octets < 64 then s.stat p 9 1 else s
  let s := if 9216 < x.octets then s.stat p 10 1 else s
  if !x.fcsOk then s.stat p 4 1
  else
    let l := x.etherType.toNat
    let d := dataOctets x x.octets
    let s := if l ≤ 1500 ∧ ((46 ≤ l ∧ d ≠ l) ∨ (l < 46 ∧ 46 < d)) then s.stat p 11 1 else s
    let s := (s.stat p 1 1).stat p 3 d
    if x.da = 0xFFFFFFFFFFFF then s.stat p 8 1 else if isGroup x.da then s.stat p 7 1 else s

/-- Statistics of a sent frame. -/
def State.txStats (s : State) (p : Nat) (x : FrameFacts) (octets : Nat) : State :=
  let s := (s.stat p 0 1).stat p 2 (dataOctets x octets)
  if x.da = 0xFFFFFFFFFFFF then s.stat p 6 1 else if isGroup x.da then s.stat p 5 1 else s

/-- The port's counter of a cause of R386. -/
def portDropCounter (p : Nat) : Cause → Option Fld
  | .admitMark => some (R.PORT_DROP_ADMIT_COUNT p)
  | .trunc => some (R.PORT_DROP_TRUNC_COUNT p)
  | .swait => some (R.PORT_DROP_SWAIT_COUNT p)
  | .power => some (R.PORT_DROP_POWER_COUNT p)
  | .linkdown => some (R.PORT_DROP_LINKDOWN_COUNT p)
  | .toolong => some (R.PORT_DROP_TOOLONG_COUNT p)
  | .underrun => some (R.PORT_DROP_UNDERRUN_COUNT p)
  | .pause => some (R.PORT_DROP_PAUSE_COUNT p)
  | _ => none

/-- A frame that a port holds is dropped or damaged: ledger, counter, record (R385, R444). -/
def State.portDrop (s : State) (p : Nat) (c : Cause) (len arrival owner : Nat) : State :=
  let s := match portDropCounter p c with
    | some f => s.bumpSat f 1
    | none => s
  s.dropPacket (portBlock p) c len arrival owner 0

/-- Is the frame in a PTP class that the port enables (R374)? -/
def State.isPtp (s : State) (p : Nat) (x : FrameFacts) : Bool :=
  (x.etherType == 0x88F7 && s.apOn (R.PORT_PTP_ETH p))
    || (x.udpPtp && x.etherType == 0x86DD && s.apOn (R.PORT_PTP_UDP6 p))
    || (x.udpPtp && x.etherType == 0x0800 && s.apOn (R.PORT_PTP_UDP4 p))

/-- Is the frame EAPOL (R391)? -/
def isEapol (x : FrameFacts) : Bool := x.tag.isNone && x.etherType == 0x888E

/-- A field of the prefix page in force; while its domain is off, as it was last committed (R20, R102). -/
def State.apPrefix (s : State) (f : Fld) : Nat :=
  if s.powered (.sieve 2) then s.ap f else bitsGet f.lo f.w (mapGetD s.ret.committed f.a (resetWord f.a))

/-- SIEVE_P_RMAC in force. -/
def State.rmac (s : State) : Nat := s.apPrefix R.SIEVEP_RMAC_LO_MAC + 2 ^ 32 * s.apPrefix R.SIEVEP_RMAC_HI_MAC

/-- Is the port in secured-wait (R110)? -/
def State.swait (s : State) (p : Nat) : Bool := s.on (R.RET_SWAIT_ACTIVE p)

/-- May the frame pass the port in secured-wait toward or from the host (R110)? -/
def State.swaitPass (s : State) (p : Nat) (x : FrameFacts) : Bool :=
  isEapol x || (x.tag.isNone && x.etherType == 0x88F7 && s.on (R.RET_SWAIT_PTP_PASS p))

/-! ## Frames -/

/-- Change a frame. -/
def State.setFrame (s : State) (i : Nat) (f : Frame → Frame) : State :=
  match mapGet s.frames i with
  | none => s
  | some x => { s with frames := mapSet s.frames i (f x) }

/-- A new frame. -/
def State.addFrame (s : State) (f : Frame) : State := { s with frames := mapSet s.frames (mapFirstFree s.frames) f }

/-- Forget a frame. -/
def State.eraseFrame (s : State) (i : Nat) : State := { s with frames := mapErase s.frames i }

/-- Free a frame's cells. -/
def State.freeFrame (s : State) (k : Freed) (i : Nat) : State :=
  match mapGet s.frames i with
  | none => s
  | some f => (s.freeCells k f.cells).setFrame i fun f => { f with cells := [] }

/-- When a frame has ended and no copy is left to send, its cells are free; when its learn is made too, it is forgotten (R432). -/
def State.settle (s : State) (i : Nat) : State :=
  match mapGet s.frames i with
  | none => s
  | some f =>
    if f.stage ≠ .forwarded ∨ f.icv = .pending ∨ !f.egress.isEmpty ∨ f.toHost then s
    else
      let s := s.freeFrame (if f.sent then .out else .drop) i
      if f.learn.isSome then s else s.eraseFrame i

/-- The owner of a frame's cells before it is handed to an egress. -/
def Frame.owner (f : Frame) : Nat := if f.port < 10 then rxGroup f.port else 64 + f.queue

/-- The egress of a frame at a port. -/
def Frame.eg (f : Frame) (p : Nat) : Option Egress := f.egress.find? fun e => e.port == p

/-- A frame without an egress. -/
def Frame.dropEg (f : Frame) (p : Nat) : Frame := { f with egress := f.egress.filter fun e => e.port != p }

/-- Change an egress. -/
def Frame.mapEg (f : Frame) (p : Nat) (g : Egress → Egress) : Frame :=
  { f with egress := f.egress.map fun e => if e.port == p then g e else e }

/-- An egress is over without the frame having been sent: the slot of the transmit queue is free (R438). -/
def State.endEgress (s : State) (i p : Nat) : State := ((s.refund p).setFrame i (·.dropEg p)).settle i

/-- The start threshold of R368. -/
def startThreshold (mtu rin rout : Nat) : Nat := ceilDiv (mtu * (rout - rin)) (rout * 256) * 256

/-- May the frame start at the egress (R367)? -/
def State.canStart (s : State) (f : Frame) (p : Nat) : Bool :=
  if f.icv ≠ .pending ∨ 10 ≤ f.port then true
  else
    let ri := s.rate f.port
    let ro := s.rate p
    if ro = ri then true
    else if ro < ri then false
    else decide (startThreshold f.mtu ri ro < f.x.octets)

/-- The transmit-stamp FIFO takes an entry (R373, R443). -/
def State.pushTstx (s : State) (p : Nat) (st : Stamp) (tag : BitVec 16) (refused : Bool) : State :=
  let (l, lost) := fifoPush 64 (s.port p).tstx (st, tag, refused)
  let s := s.setPort p fun x => { x with tstx := l }
  if lost then (s.bumpSat (R.PORT_TSTX_LOST_COUNT p) 1).evt (portBlock p) E.PORT_TSTX_LOST else s

/-- The transmit path of a group starts empty: the slots of its ports' queues are free (R438, R619). -/
def State.emptyTx (s : State) (g : Nat) : State :=
  ((List.range 10).filter fun p => txGroup p == g).foldl (fun s p =>
    s.setLink p fun k => { k with producer := k.producer + k.consumer, consumer := 0 }) s

/-- An SA that a frame fetched: valid, or the one that SA_DELETE waits for (R402). -/
def State.saOf (s : State) (i : Nat) : Option SaEntry :=
  match mapGet s.crust.sas i with
  | some e => some e
  | none => match s.crust.deleting with
    | some (j, e) => if j = i then some e else none
    | none => none

/-- What a port sent last. -/
def State.recordSent (s : State) (f : Frame) (e : Egress) (fcs : Fcs) : State :=
  let octets := f.len + (match e.tag with
    | none => 0
    | some t => if t.sci.isSome then 32 else 24)
  let out : SentFrame := {
    da := f.x.da, sa := f.x.sa, vid := f.x.vid, etherType := f.x.etherType, octets := octets, hop := f.x.v6.map (·.2), tag := e.tag
    fcs := fcs, stamp := e.stamp, oneStep := e.oneStep
    data := match f.desc with
      | some d =>
        let l := (s.cellsData f.cells).take d.len
        if 10 ≤ d.dest then []
        else match e.tag with
          | some t => (match s.saOf t.sa with | some a => a.protects t l | none => [])
          | none => if e.oneStep then oneStepWrite (f.x.udpPtp && f.x.etherType == 0x86DD) d.offset e.time l else l
      | none => [] }
  s.setPort e.port fun x => { x with last := some out }

/-- A port's transmission of a frame ends with an FCS (R46, R385, R387, R410, R425): its tokens have left through the transmit FIFO, the port
counts it OUT, and the datapath's transmit path OUT, or DROP if it is spoiled for a failed ICV (R408). -/
def State.sendEnd (s : State) (i : Nat) (f : Frame) (e : Egress) (fcs : Fcs) : State :=
  let s := (s.recordSent f e fcs).passFree (txBfifo e.port) (tokensOf (txBfifo e.port) f.len)
  let s := (if fcs = .good then s.txStats e.port f.x f.len else s).ledOut (portBlock e.port) 1
  let s := if fcs = .complement then s.ledDrop (dpBlock (dpOf e.port)) 1 else s.ledOut (dpBlock (dpOf e.port)) 1
  (s.setFrame i fun f => { f with sent := true }).endEgress i e.port

/-- The FCS a frame that has ended leaves with. -/
def Frame.fcs (f : Frame) : Fcs := if f.errored then .bad else if f.icv = .bad then .complement else .good

/-- A copy of a frame goes to the host (R367, R373, R408, R561 to R563): its queue takes it, or it is dropped. -/
def State.deliverFrame (s : State) (i : Nat) (f : Frame) : State :=
  let p := f.port
  let valid := s.on (if f.ctl then R.HOST_MAP_PORT_CVALID p else R.HOST_MAP_PORT_DVALID p)
  let q := s.get (if f.ctl then R.HOST_MAP_PORT_CTL p else R.HOST_MAP_PORT_DATA p)
  let gone (s : State) : State := (s.setFrame i fun f => { f with toHost := false }).settle i
  let shared := !f.egress.isEmpty
  match (if shared && valid then s.allocPacket (64 + q) f.len else some (s, f.cells)) with
  | none => gone (s.dropRecord (pipeBlock (servedBy p)) .nocredit f.len p f.owner 0)
  | some (s, cs) =>
    let pkt : HostPkt :=
      { kind := 0, src := p, octets := f.len - 4, stamp := some f.stamp, authFail := f.icv == .bad, sa := f.rxSa, cells := cs, descs := 0 }
    let undo (s : State) : State := gone (if shared && valid then s.freeCells .drop cs else s)
    let waiting := (s.link (10 + q)).waiting
    match s.offerHost valid q pkt with
    | (s, .taken) =>
      gone (if shared then s else s.setFrame i fun f => { f with cells := [] })
    | (s, .noQueue) => undo s
    | (s, .noCredit _) =>
      let s := s.setLink (10 + q) fun k => { k with waiting := waiting }
      undo ((s.bumpSat (R.HOST_Q_DROPS_COUNT q) 1).dropRecord (pipeBlock (servedBy p)) .nocredit f.len p f.owner 0)

end Sys2Proof.Machine
end

