-- ==== Sys2Proof/Machine/CrustOps.lean ====
section
/-! DEFINITION. Crust's table of SAs and its transmit switches (R393 to R398, R402, R405, R406, R414 to R417, R420 to R422). -/

namespace Sys2Proof.Machine

/-! ## The SA table -/

/-- A valid SA entry. -/
def State.sa (s : State) (i : Nat) : Option SaEntry := mapGet s.crust.sas i

/-- Change a valid SA entry, or the one that SA_DELETE waits for. -/
def State.setSa (s : State) (i : Nat) (f : SaEntry → SaEntry) : State :=
  match mapGet s.crust.sas i with
  | some e => { s with crust := { s.crust with sas := mapSet s.crust.sas i (f e) } }
  | none => match s.crust.deleting with
    | some (j, e) => if j = i then { s with crust := { s.crust with deleting := some (i, f e) } } else s
    | none => s

/-- The datapath that owns an SA index (R393). -/
def dpOfSa (i : Nat) : Nat := if i < 4096 then 0 else if i < 8192 then 1 else 2

/-- Is a port served by a datapath? -/
def dpServes (d p : Nat) : Bool := decide (p < 10) && dpOf p == d

/-- The highest PN of a suite. -/
def suiteMax (suite : Nat) : Nat := if suite < 2 then 2 ^ 32 - 1 else 2 ^ 64 - 1

/-- Octets of a suite's SAK. -/
def suiteKey (suite : Nat) : Nat := if suite % 2 = 0 then 16 else 32

/-- The default threshold of a suite (R388, R426): CRUST_PN_THR64 as its two words last took effect together. -/
def State.defaultThr (s : State) (suite : Nat) : Nat :=
  if suite < 2 then s.get R.CRUST_PN_THR32_THRESH
  else s.ap R.CRUST_PN_THR64_LO_THRESH + 2 ^ 32 * s.get R.CRUST_PN_THR64_HI_THRESH

/-- The current transmit SA of a port. -/
def State.curSa (s : State) (p : Nat) : Option Nat :=
  if s.on (R.CRUSTX_TXSA_CUR_V (dpOf p) (pkOf p)) then some (s.get (R.CRUSTX_TXSA_CUR (dpOf p) (pkOf p))) else none

/-- The armed next SA of a port. -/
def State.armedSa (s : State) (p : Nat) : Option Nat :=
  if s.on (R.CRUSTX_TXSA_NEXT_V (dpOf p) (pkOf p)) then some (s.get (R.CRUSTX_TXSA_NEXT (dpOf p) (pkOf p))) else none

/-- Is the SA the current or the armed one of its port? -/
def State.saCur (s : State) (i : Nat) (e : SaEntry) : Bool := s.curSa e.port == some i
def State.saArmed (s : State) (i : Nat) (e : SaEntry) : Bool := s.armedSa e.port == some i

/-- Word w of octets 48 to 127 of an entry (R395). -/
def State.saWord (s : State) (i : Nat) (e : SaEntry) (w : Nat) : W32 :=
  let b (x : Bool) : Nat := if x then 1 else 0
  let flags := 1 + 2 * b e.tx + 4 * e.suite + 16 * e.port + 256 * b (s.saCur i e) + 512 * b (s.saArmed i e) + 1024 * b e.thr
    + 2048 * b e.exh + 65536 * e.ktag
  BitVec.ofNat 32 (match w with
    | 0 => e.sci | 1 => e.sci / 2 ^ 32
    | 2 => e.ssci
    | 3 => e.salt | 4 => e.salt / 2 ^ 32 | 5 => e.salt / 2 ^ 64
    | 6 => e.next | 7 => e.next / 2 ^ 32
    | 8 => e.limit | 9 => e.limit / 2 ^ 32
    | 10 => flags
    | 11 => e.installSt.toNat
    | 12 => e.pktsOk | 13 => e.pktsOk / 2 ^ 32
    | 14 => e.octets | 15 => e.octets / 2 ^ 32
    | 16 => e.pktsBad | 17 => e.pktsBad / 2 ^ 32
    | 18 => e.pktsLost | _ => e.pktsLost / 2 ^ 32)

/-- Has Crust an installed transmit SA and at least one installed receive SA for the port (R111)? -/
def State.secured (s : State) (p : Nat) : Bool :=
  (s.crust.sas.any fun x => x.2.port == p && x.2.tx) && (s.crust.sas.any fun x => x.2.port == p && !x.2.tx)

/-- Is a frame inside a datapath under an SA it fetched (R402)? -/
def State.saInUse (s : State) (i : Nat) : Bool :=
  s.frames.any fun x => (x.2.rxSa == some i && x.2.icv == .pending) || x.2.egress.any fun e => match e.tag with
    | some t => t.sa == i
    | none => false

/-! ## Receive (R405, R406) -/

/-- The lowest acceptable PN: max(LIMIT_PN, NEXT_PN − WINDOW). -/
def lowestPn (e : SaEntry) (window : Nat) : Nat := max e.limit (e.next - window)

/-- The PN of a frame: for an XPN suite the upper half is that of the lowest acceptable PN, one more when its bit 31 is 1 and the received
bit 31 is 0 (IEEE 802.1AE-2018, PRESUMED, log entry 35). -/
def recoverPn (suite lapn pn : Nat) : Nat :=
  if suite < 2 then pn
  else ((lapn / 2 ^ 32 + (if natBit lapn 31 && !natBit pn 31 then 1 else 0)) * 2 ^ 32 + pn) % 2 ^ 64

/-! ## Transmit (R414, R415, R417, R420) -/

/-- The threshold event of an SA (R414). -/
def State.thresholdHit (s : State) (i : Nat) : State :=
  ((s.setSa i fun e => { e with thr := true }).put R.CRUST_THR_LAST_SA i).evt (.crust 0) E.CRUST_PN_THR

/-- Exhaustion of the current SA of a port (R415). -/
def State.exhaust (s : State) (p i : Nat) : State :=
  (((s.setSa i fun e => { e with exh := true }).put R.CRUST_EXH_LAST_SA i).put (R.CRUSTX_TXSA_EXH (dpOf p) (pkOf p)) 1).evt (.crust 0)
    E.CRUST_EXHAUSTED

/-- The armed SA becomes the current SA of a port. -/
def State.switchSa (s : State) (p i : Nat) (auto : Bool) : State :=
  let d := dpOf p
  let k := pkOf p
  let exh := match s.sa i with
    | some e => e.exh
    | none => false
  let s := ((s.put (R.CRUSTX_TXSA_CUR d k) i).put (R.CRUSTX_TXSA_CUR_V d k) 1).putB (R.CRUSTX_TXSA_EXH d k) exh
  let s := (s.put (R.CRUSTX_TXSA_NEXT d k) 0).put (R.CRUSTX_TXSA_NEXT_V d k) 0
  (s.bumpSat (R.CRUSTX_SWITCHES_COUNT d k) 1).evt (dpBlock d) (if auto then E.CRUSTX_AUTO_SWITCH else E.CRUSTX_TX_SWITCHED)

/-- TX_SWITCH of the datapath pages. -/
def opTxSwitch : Nat := 2

/-- Does a TX_SWITCH for the port wait for a frame boundary? -/
def State.switchWaits (s : State) (p : Nat) : Bool :=
  match (s.blk (dpBlock (dpOf p))).run with
  | some r => r.op == opTxSwitch && bitsGet 0 3 (r.arg 0) == pkOf p
  | none => false

/-- Is a frame being encrypted for the port? -/
def State.encrypting (s : State) (p : Nat) : Bool :=
  s.frames.any fun x => x.2.egress.any fun e => e.port == p && e.st != .waiting && e.tag.isSome

/-- The switch of a waiting or accepted TX_SWITCH and its completion (R420). -/
def State.applySwitch (s : State) (p : Nat) : State :=
  let b := dpBlock (dpOf p)
  match s.armedSa p with
  | none => s.done b .state
  | some i =>
    let old := s.curSa p
    let last := match old with
      | none => 0
      | some j => match s.sa j with
        | some e => if e.exh then suiteMax e.suite else e.next - 1
        | none => 0
    let r1 := match old with
      | some j => j + 2 ^ 14
      | none => 0
    (s.switchSa p i false).complete b .ok 0 (BitVec.ofNat 32 r1) (BitVec.ofNat 32 last) 0

/-- At a frame boundary, exhaustion with AUTO and an armed SA switches the port; a TX_SWITCH that waits goes first (R417, R421). -/
def State.autoSwitch (s : State) (p : Nat) : State :=
  if s.switchWaits p || !s.on (R.CRUSTX_CTL_AUTO (dpOf p) (pkOf p)) || !s.on (R.CRUSTX_TXSA_EXH (dpOf p) (pkOf p)) then s
  else match s.armedSa p with
    | some i => s.switchSa p i true
    | none => s

end Sys2Proof.Machine
end

