-- ==== Sys2Proof/Machine/Crust.lean ====
section
/-! DEFINITION. Crust: SA commands, receive checks, ICV outcomes and transmit protection (R388 to R427). -/

namespace Sys2Proof.Machine

/-! ## SA commands (R399 to R403, R426) -/

def opSaInstall : Nat := 1
def opSaDelete : Nat := 2

/-- A command of the common page on the SA of ARG0: FENCED while its datapath is fenced, STATE while its domain is off (R426); an index above
16,383 is of no datapath. -/
def State.onSa (s : State) (m : Master) (tag : BitVec 8) (body : State → State) : State :=
  let b : Block := .crust 0
  s.onCommand m b tag fun s =>
    let d := dpBlock (dpOfSa (s.arg b 0).toNat)
    if 16384 ≤ (s.arg b 0).toNat then body s
    else if s.fenced d then s.done b .fenced
    else if !s.powered d then s.done b .state
    else body s

/-- What SA_INSTALL takes from the staging words (R395, R399, R426). -/
def State.stagedSa (s : State) : SaEntry :=
  let w (i : Nat) : Nat := (s.word (R.CRUST_SA_ST_WORD i).a).toNat
  let f := w 10
  let suite := natBits f 2 2
  let xpn (x : Nat) : Nat := if suite < 2 then 0 else x
  let next := w 6 + 2 ^ 32 * w 7
  let limit := w 8 + 2 ^ 32 * w 9
  let tx := natBit f 1
  { key := [], hkey := [], sci := w 0 + 2 ^ 32 * w 1, ssci := xpn (w 2), salt := xpn (w 3 + 2 ^ 32 * w 4 + 2 ^ 64 * w 5)
    next := next, limit := if tx && limit == 0 then s.defaultThr suite else limit, tx := tx, suite := suite, port := natBits f 4 4
    ktag := natBits f 16 16, installSt := BitVec.ofNat 32 s.st }

/-- Checks of R400 that need no key. -/
def State.saCheck (s : State) (i : Nat) (e : SaEntry) : Option Code :=
  let limit := (s.word (R.CRUST_SA_ST_WORD 9).a).toNat
  if 16384 ≤ i ∨ !dpServes (dpOfSa i) e.port then some .range
  else if e.suite < 2 ∧ (2 ^ 32 ≤ e.next ∨ limit ≠ 0) then some .range
  else if e.tx ∧ e.next = 0 then some .range
  else
    let busy := (s.sa i).isSome || (match s.crust.deleting with | some (j, _) => j == i | none => false)
    let differ := s.crust.sas.any fun x => x.1 / 4 == i / 4 && (x.2.sci != e.sci || x.2.port != e.port || x.2.tx != e.tx)
    let taken := !e.tx && s.crust.sas.any fun x => x.1 / 4 != i / 4 && x.2.port == e.port && !x.2.tx && x.2.sci == e.sci
    if busy || differ || taken then some .state else none

/-- SA_INSTALL (R399, R400, R480, R482). -/
def execSaInstall (m : Master) (tag : BitVec 8) (s : State) : Answer :=
  let b : Block := .crust 0
  .next (s.onSa m tag fun s =>
    let i := (s.arg b 0).toNat
    let e := s.stagedSa
    let fail (s : State) (c : Code) : State := (s.evt b E.CRUST_INSTALL_FAIL).done b c
    match s.saCheck i e with
    | some c => fail s c
    | none =>
      if s.fenced .starter then fail s .fenced
      else if s.on R.TAMP_STATE_ALARM then fail s .tampered
      else if s.starter.lc = 0 ∨ s.starter.lc = 4 ∨ s.on R.STARTER_STATE_ROOT_BAD then fail s .locked
      else match s.useSlot (s.argBits b 1 0 10) useSak 11 with
        | (_, .no c) => fail s c
        | (t, .ok k ups) =>
          if k.key.length ≠ suiteKey e.suite then fail s .range
          else
            let t := ups.foldl (fun t u => t.setStarter (·.storeNow u.1 u.2)) t
            let e := { e with key := k.key, hkey := aesEnc k.key (List.replicate 16 0) }
            ({ t with crust := { t.crust with sas := mapSet t.crust.sas i e } }).done b .ok)

/-- SA_DELETE (R402): VALID is clear at once; the command completes when no frame uses the SA. -/
def execSaDelete (m : Master) (tag : BitVec 8) (s : State) : Answer :=
  let b : Block := .crust 0
  .next (s.onSa m tag fun s =>
    let i := (s.arg b 0).toNat
    match s.sa i with
    | none => s.done b .notFound
    | some e =>
      if s.saCur i e || s.saArmed i e then s.done b .state
      else
        let s := { s with crust := { s.crust with sas := mapErase s.crust.sas i } }
        if s.saInUse i then
          ({ s with crust := { s.crust with deleting := some (i, e) } }).startRun b (s.mkRun b opSaDelete m tag false)
        else s.done b .ok)

/-- SA_DELETE_DRAINED (R402): the last frame that fetched the SA has left; the entry is zero. -/
def execSaDeleteDrained (s : State) : Answer :=
  match s.crust.deleting with
  | none => .next s
  | some (i, _) =>
    if s.saInUse i then .next s
    else .next (({ s with crust := { s.crust with deleting := none } }).done (.crust 0) .ok)

/-- SA_READ (R426). -/
def execSaRead (m : Master) (tag : BitVec 8) (s : State) : Answer :=
  let b : Block := .crust 0
  .next (s.onSa m tag fun s =>
    let i := (s.arg b 0).toNat
    if 16384 ≤ i then s.done b .range
    else match s.sa i with
      | none => s.done b .notFound
      | some e =>
        let t := (List.range 20).foldl (fun t w => t.setWord (R.CRUST_SA_RD_WORD w).a (s.saWord i e w)) s
        t.complete b .ok 0 (s.saWord i e 10) 0 0)

/-- SA_PN (R403). -/
def execSaPn (m : Master) (tag : BitVec 8) (s : State) : Answer :=
  let b : Block := .crust 0
  .next (s.onSa m tag fun s =>
    let i := (s.arg b 0).toNat
    let pn := (s.arg b 1).toNat + 2 ^ 32 * (s.arg b 2).toNat
    match s.sa i with
    | none => s.done b .notFound
    | some e =>
      if e.suite < 2 ∧ 2 ^ 32 ≤ pn then s.done b .range
      else if e.tx then
        let s := s.setSa i fun e => { e with limit := pn, thr := false }
        (if pn ≤ e.next then s.thresholdHit i else s).done b .ok
      else if pn ≤ e.limit then s.done b .state
      else (s.setSa i fun e => { e with limit := pn }).done b .ok)

/-- PN_THR64_HI_WRITE (R426): the high word and the pending low word take effect together. -/
def execPnThr64HiWrite (m : Master) (v : W32) (s : State) : Answer :=
  match s.busWrite m R.CRUST_PN_THR64_HI_THRESH.a true v with
  | (s, .applied ..) => .next { s with applied := mapErase s.applied R.CRUST_PN_THR64_LO_THRESH.a }
  | (s, _) => .next s

/-! ## Transmit switching (R419, R420, R427) -/

/-- The page of a datapath: 0 Crust-E, 1 Crust-W, 2 Crust-C. -/
def xBlock (x : Fin 3) : Block := dpBlock x.val

/-- The port of block k of a datapath, if it serves one. -/
def dpPort (d k : Nat) : Option Nat := if d = 2 then (if k < 8 then some (k + 2) else none) else if k = 0 then some d else none

/-- A command of a datapath page on port block ARG0[2:0]: RANGE for a k the page does not serve. -/
def State.onPk (s : State) (m : Master) (x : Fin 3) (tag : BitVec 8) (body : State → Nat → State) : State :=
  let b := xBlock x
  s.onCommand m b tag fun s =>
    match dpPort x.val (s.argBits b 0 0 3) with
    | none => s.done b .range
    | some p => body s p

/-- TX_ARM (R419). -/
def execTxArm (m : Master) (x : Fin 3) (tag : BitVec 8) (s : State) : Answer :=
  let b := xBlock x
  .next (s.onPk m x tag fun s p =>
    let i := s.argBits b 1 0 14
    match s.sa i with
    | none => s.done b .notFound
    | some e =>
      if e.port ≠ p then s.done b .range
      else if !e.tx || s.curSa p == some i || e.exh then s.done b .state
      else ((s.put (R.CRUSTX_TXSA_NEXT x.val (pkOf p)) i).put (R.CRUSTX_TXSA_NEXT_V x.val (pkOf p)) 1).done b .ok)

/-- TX_SWITCH (R420, R422): at once if no frame is being encrypted or the link is down, else at the next frame boundary. -/
def execTxSwitch (m : Master) (x : Fin 3) (tag : BitVec 8) (s : State) : Answer :=
  let b := xBlock x
  .next (s.onPk m x tag fun s p =>
    if (s.armedSa p).isNone then s.done b .state
    else if s.encrypting p && s.linkUp p then s.startRun b (s.mkRun b opTxSwitch m tag false)
    else s.applySwitch p)

/-- TX_SWITCH_APPLY (R420): the frame boundary of a waiting TX_SWITCH. -/
def execTxSwitchApply (p : Fin 10) (s : State) : Answer :=
  if s.switchWaits p.val && !s.encrypting p.val then .next (s.applySwitch p.val) else .next s

/-- TX_DISARM (R419, R427). -/
def execTxDisarm (m : Master) (x : Fin 3) (tag : BitVec 8) (s : State) : Answer :=
  .next (s.onPk m x tag fun s p =>
    ((s.put (R.CRUSTX_TXSA_NEXT x.val (pkOf p)) 0).put (R.CRUSTX_TXSA_NEXT_V x.val (pkOf p)) 0).done (xBlock x) .ok)

/-! ## Receive (R391, R392, R398, R404 to R406) -/

/-- The port has passed the frame into the fabric. -/
def State.portPassed (s : State) (i : Nat) (f : Frame) : State :=
  if f.portHeld then (s.ledOut (portBlock f.port) 1).setFrame i fun f => { f with portHeld := false } else s

/-- Crust drops a received frame (R404, R425). -/
def State.rxDrop (s : State) (i : Nat) (f : Frame) (c : Cause) (count : Fld) (ev : Option Nat) (sa : Nat) : State :=
  let b := dpBlock (dpOf f.port)
  let s := (s.portPassed i f).bumpSat count 1
  let s := match ev with
    | some e => s.evt b e
    | none => s
  ((s.dropPacket b c f.x.octets f.port (rxGroup f.port) (BitVec.ofNat 32 sa)).freeFrame .drop i).eraseFrame i

/-- The secure channel that a SecTAG names on a port (R398, step 3 of R404). -/
def State.rxChannel (s : State) (p : Nat) (t : TagFacts) : Option Nat :=
  match t.sci with
  | some sci => (s.crust.sas.find? fun x => x.2.port == p && !x.2.tx && x.2.sci == sci.toNat).map fun x => x.1 / 4
  | none =>
    let sc := s.ap (R.CRUSTX_IMPL_SC (dpOf p) (pkOf p))
    if s.apOn (R.CRUSTX_IMPL_VALID (dpOf p) (pkOf p)) && s.crust.sas.any (fun x => x.1 / 4 == sc) then some sc else none

/-- Steps 2 to 6 of R404 for a frame with a SecTAG. -/
def State.rxTagged (s : State) (i : Nat) (f : Frame) (t : TagFacts) : State :=
  let p := f.port
  let d := dpOf p
  let k := pkOf p
  if !t.valid || t.pn == 0 then s.rxDrop i f .badtag (R.CRUSTX_BADTAG_COUNT d k) none 0
  else match s.rxChannel p t with
    | none => s.rxDrop i f .unknownSci (R.CRUSTX_UNKNOWN_SCI_COUNT d k) (some E.CRUSTX_UNKNOWN_SCI) 0
    | some sc =>
      let j := 4 * sc + t.an.val
      match (match s.sa j with
        | some e => if !e.tx && e.port == p then some e else none
        | none => none) with
      | none => s.rxDrop i f .notUsingSa (R.CRUSTX_NOT_USING_SA_COUNT d k) (some E.CRUSTX_NOT_USING_SA) j
      | some e =>
        let lapn := lowestPn e (s.ap (R.CRUSTX_REPLAY_WINDOW d k))
        let pn := recoverPn e.suite lapn t.pn.toNat
        if s.apOn (R.CRUSTX_REPLAY_RP d k) ∧ pn < lapn then
          (s.setSa j fun e => { e with pktsLost := e.pktsLost + 1 }).rxDrop i f .late (R.CRUSTX_LATE_COUNT d k) (some E.CRUSTX_LATE) j
        else
          let len := f.len - (if t.sci.isSome then 32 else 24)
          if f.errored then
            ((s.portPassed i f).ledOut (dpBlock d) 1).setFrame i fun f => { f with stage := .checked, len := len }
          else s.setFrame i fun f => { f with
            stage := .checked, len := len, rxSa := some j, pn := pn, icv := .pending, hostBad := s.apOn (R.CRUSTX_CTL_HOST_BAD d k)
            plain := if t.e then some (offsetOctets (s.ap (R.CRUSTX_CTL_RX_OFFSET d k))) else none }

/-- CRUST_RX_FRAME: Crust checks frame i at its header. -/
def execCrustRxFrame (i : Nat) (s : State) : Answer :=
  match mapGet s.frames i with
  | none => .next s
  | some f =>
    let p := f.port
    let d := dpOf p
    let k := pkOf p
    let b := dpBlock d
    if f.stage ≠ .fifo ∨ 10 ≤ p then .next s
    else if !s.powered b then
      let s := if f.portHeld then s.portDrop p .power f.len p (rxGroup p) else s
      .next ((s.freeFrame .drop i).eraseFrame i)
    else
      let clear := f.clear || isEapol f.x || f.hostOnly || !s.apOn (R.CRUSTX_CTL_RX_EN d k)
      let groups := if clear || f.x.tag.isNone then [rxGroup p] else [rxGroup p, saGroup d, saGroup d + 1]
      if groups.any s.groupFenced then
        let s := ((s.portPassed i f).sink b).dropRecord b .fenced f.x.octets p (rxGroup p) 0
        .next ((s.sinkCells f.cells).eraseFrame i)
      else
        let s := (s.ledIn b 1).setFrame i fun f => { f with prot := s.apOn (R.CRUSTX_CTL_RX_EN d k) }
        let pass (s : State) : State := ((s.portPassed i f).ledOut b 1).setFrame i fun f => { f with stage := .checked }
        if clear then .next (pass s)
        else match f.x.tag with
          | none =>
            if s.apOn (R.CRUSTX_CTL_VALIDATE d k) then .next (pass (s.bumpSat (R.CRUSTX_CHECKED_COUNT d k) 1))
            else .next (s.rxDrop i f .untagged (R.CRUSTX_UNTAGGED_COUNT d k) none 0)
          | some t => .next (s.rxTagged i f t)

/-- ICV_RESULT (R405, R407, R408, R410): the ICV of frame i verifies, or every egress is spoiled. -/
def execIcvResult (i : Nat) (ok : Bool) (s : State) : Answer :=
  match mapGet s.frames i with
  | none => .next s
  | some f =>
    if f.icv ≠ .pending then .next s
    else
      let p := f.port
      let d := dpOf p
      let k := pkOf p
      let b := dpBlock d
      let j := f.rxSa.getD 0
      let s := s.portPassed i f
      let sending := f.egress.filter fun e => e.st == .sending
      if ok then
        let s := (s.setSa j fun e => { e with
          next := min (max e.next (f.pn + 1)) (if e.suite < 2 then 2 ^ 32 else 2 ^ 64 - 1)
          pktsOk := e.pktsOk + 1, octets := e.octets + f.len }).ledOut b 1
        let f := { f with icv := .good, portHeld := false }
        let s := s.setFrame i fun _ => f
        .next ((sending.foldl (fun s e => (s.sendEnd i f e f.fcs).autoSwitch e.port) s).settle i)
      else
        let s := ((s.setSa j fun e => { e with pktsBad := e.pktsBad + 1 }).bumpSat (R.CRUSTX_ICV_COUNT d k) 1).evt b E.CRUSTX_ICV_FAIL
        let s := s.dropPacket b .icv f.x.octets p (rxGroup p) (BitVec.ofNat 32 j)
        let host := f.toHost && f.hostBad
        let s := if host then s.bumpSat (R.CRUSTX_HOST_AUTHFAIL_COUNT d k) 1 else s
        let f := { f with icv := .bad, portHeld := false, toHost := host, ctl := if host then false else f.ctl, learn := none }
        let s := s.setFrame i fun _ => f
        let unsent := f.egress.filter fun e => e.st != .sending
        let s := unsent.foldl (fun s e => (if e.st == .inCrust then s.ledDrop (dpBlock (dpOf e.port)) 1 else s).endEgress i e.port) s
        .next ((sending.foldl (fun s e => (s.sendEnd i f e f.fcs).autoSwitch e.port) s).settle i)

/-! ## Transmit (R391, R392, R411 to R417) -/

/-- Crust drops a frame bound for a port (R413, R416). -/
def State.txDrop (s : State) (i : Nat) (f : Frame) (p : Nat) (c : Cause) (count : Fld) (ev sa : Nat) : State :=
  let b := dpBlock (dpOf p)
  ((((s.bumpSat count 1).evt b ev).dropPacket b c f.len f.port (txGroup p) (BitVec.ofNat 32 sa)).endEgress i p)

/-- A frame takes the next PN of the port's current SA (R412 to R416). -/
def State.protect (s : State) (i : Nat) (f : Frame) (p : Nat) : State :=
  let d := dpOf p
  let k := pkOf p
  let noSa (s : State) (j : Nat) : State := s.txDrop i f p .txNosa (R.CRUSTX_TX_NOSA_COUNT d k) E.CRUSTX_TX_NOSA j
  match s.curSa p with
  | none => noSa s 0
  | some j => match s.sa j with
    | none => noSa s j
    | some e =>
      if e.exh then noSa (s.setSa j fun e => { e with pktsLost := e.pktsLost + 1 }) j
      else
        let sci := s.apOn (R.CRUSTX_CTL_INCLUDE_SCI d k)
        if 9216 < f.len + (if sci then 32 else 24) then
          s.txDrop i f p .oversize (R.CRUSTX_OVERSIZE_COUNT d k) E.CRUSTX_OVERSIZE j
        else
          let pn := e.next
          let s := s.setSa j fun e => { e with
            next := min (e.next + 1) (2 ^ 64 - 1), pktsOk := e.pktsOk + 1, octets := e.octets + f.len }
          let s := if e.limit ≤ pn ∧ !e.thr then s.thresholdHit j else s
          let s := if suiteMax e.suite ≤ pn then s.exhaust p j else s
          let t : SentTag := {
            sa := j, pn := pn, sci := if sci then some e.sci else none, e := s.apOn (R.CRUSTX_CTL_ENCRYPT d k)
            offset := s.ap (R.CRUSTX_CTL_TX_OFFSET d k) }
          s.setFrame i fun f => f.mapEg p fun g => { g with st := .inCrust, tag := some t }

/-- CRUST_TX_FRAME: frame i enters the encrypt stage toward a port; the boundary before it lets a switch take place (R417, R420, R421).  A
frame that needs an SA ends in the sink of a fenced SA-fetch group (R39). -/
def execCrustTxFrame (i : Nat) (p : Fin 10) (s : State) : Answer :=
  let n := p.val
  let b := dpBlock (dpOf n)
  match mapGet s.frames i with
  | none => .next s
  | some f => match f.eg n with
    | none => .next s
    | some g =>
      if g.st ≠ .waiting ∨ !s.powered (portBlock n) ∨ !s.powered b then .next s
      else if !s.on (R.PORT_LINK_UP n) then
        if s.on (R.PORT_LF_CFG_BLOCK_TX n) then
          .next (((s.ledIn (portBlock n) 1).portDrop n .linkdown f.len f.port (txGroup n)).endEgress i n)
        else .next s
      else if s.swait n && !s.swaitPass n f.x && !s.on (R.RET_SWAIT_CLEAR_FWD n) then
        .next (((s.ledIn (portBlock n) 1).portDrop n .swait f.len f.port (txGroup n)).endEgress i n)
      else if s.groupFenced (txGroup n) || !s.canStart f n then .next s
      else
        let s := s.ledIn b 1
        let clear := s.swait n || isEapol f.x || !s.apOn (R.CRUSTX_CTL_TX_EN (dpOf n) (pkOf n))
          || (s.isPtp n f.x && s.ap (R.PORT_PTP_POLICY n) == 1)
        if clear then .next (s.setFrame i fun f => f.mapEg n fun g => { g with st := .inCrust })
        else
          let s := if s.switchWaits n then s.applySwitch n else s.autoSwitch n
          if s.groupFenced (saGroup (dpOf n)) then
            .next (((s.ledFence b 1).dropRecord b .fenced f.len f.port (saGroup (dpOf n)) 0).endEgress i n)
          else .next (s.protect i f n)

end Sys2Proof.Machine
end

