-- ==== Sys2Proof/Machine/Flood.lean ====
section
/-! DEFINITION. Managed flooding and firmware distribution (R259, R267 to R276). -/

namespace Sys2Proof.Machine

def opOriginate : Nat := 1
def opInject : Nat := 2
def opDistStart : Nat := 3

/-- Change the seen cache. -/
def State.setSeen (s : State) (f : List SeenEntry → List SeenEntry) : State := { s with flood := { s.flood with seen := f s.flood.seen } }

/-- The entry of an identity. -/
def State.seenOf (s : State) (origin seq : Nat) : Option SeenEntry := s.flood.seen.find? fun e => e.origin == origin && e.seq == seq

/-- Relays pending (R270). -/
def State.relaysPending (s : State) : Nat := (s.flood.seen.filter (·.pending)).length

/-- Enter an identity; a full cache evicts its oldest entry without a pending relay (R268). -/
def State.insertSeen (s : State) (e : SeenEntry) : State :=
  if s.flood.seen.length < 4096 then s.setSeen (· ++ [e])
  else match s.flood.seen.findIdx? fun x => !x.pending with
    | some i => (((s.setSeen fun l => l.eraseIdx i ++ [e]).bumpSat R.FLOOD_EVICT_CNT_COUNT 1).evt .flood E.FLOOD_EVICT)
    | none => s

/-- Drop a message, with the ledger. -/
def State.dropMessage (s : State) : State := s.ledDrop .flood 1

/-- The cells floods are sent on (R270, R279). -/
def State.floodCells (s : State) : List Nat := (List.range 128).filter fun c => s.apOn (R.FLOOD_CELL_EN c)

/-- T_l − T_s of a cell's flood job: with a full wake-up train P_d, which for no node in particular is DEF_PERIOD (R242, R272); without a
train the 500 ms of the worked example of spec/10 (DEDUCED, log entry 21). -/
def State.floodWindow (s : State) (c : Nat) : Nat :=
  if s.apOn (R.FLOOD_CELL_TRAIN c) then s.get R.MAC_WAKE_CFG_DEF_PERIOD * 10000000 else 500000000

/-- Post the jobs of a message on every enabled cell, with the payload `p` under the cell's FCS (R267, R270, R272, R274); `cmd`: for the
command in progress.  PRIO 8 is that of the worked example of spec/10 (DEDUCED, log entry 21). -/
def State.floodJobs (s : State) (p : List Octet) (cmd : Bool) : State :=
  s.floodCells.foldl (fun s c =>
    let due := s.tickCount
    let ts := s.lin + s.get R.PEEL_CFG_TX_LEAD * 10 ^ 9 / 2 ^ 15
    let type := s.ap (R.FLOOD_CELL_TYPE c)
    let level := s.ap R.MAC_SEC_POLICY_TX_LEVEL
    let frame := floodFrame p
    let len := frame.length + frameOverhead level (decide (4 < type) || natBit s.fskCfg.toNat 13)
    let words := radioWords (262144 + 3968 + c) 8 (c / 32) (due % 2 ^ 32) (ts % 2 ^ 32) ((ts + s.floodWindow c) % 2 ^ 32) (c % 32) len
      (s.ap (R.FLOOD_CELL_PWR c)) type (s.ap (R.FLOOD_CELL_RATE c)) (level + 8)
    s.hwSend { producer := 8, words := words, octets := len, frame := frame, cmd := cmd }) s

/-- A message's jobs are posted: OUT, or DROP where no cell is enabled or a fence refuses the posts (R270, R276, R306). -/
def State.sendMessage (s : State) (p : List Octet) (cmd : Bool) : State :=
  if s.floodCells.isEmpty || s.fenced .peel then s.dropMessage else (s.floodJobs p cmd).ledOut .flood 1

/-- The MAC payload of a message with a TTL (R267). -/
def SeenEntry.payload (e : SeenEntry) (ttl : Nat) : List Octet := floodHeader e.origin e.kind ttl e.seq ++ e.data

/-- A timer of FLOOD goes to Peel as a task due at the first tick not before an instant (R280).  Its flow, one of FLOOD's, and its PRIO are
not stated: free values (log entry 21). -/
def State.floodTimer (s : State) (ns w4 gap : Nat) : State :=
  let (x, s) := s.draw
  let (prio, s) := s.draw
  let words := floodTaskWords (262144 + 3968 + x % 128) (prio % 16) (ceilDiv (ns * 2 ^ 15) (10 ^ 9) % 2 ^ 32) w4 gap
  s.hwSend { producer := 8, words := words, octets := 0, frame := [] }

/-- The flood frame a context has received, if it verifies (R259, R267): the MAC payload from the flood header, the PSDU as plaintext, the
frame, and the router ID of its sender. -/
def State.floodHeard (s : State) (n k : Nat) (c : Ctx) (air : RxAir) : Option (List Octet × List Octet × RxFrame × Nat) :=
  match s.netFrame n k c air 2 with
  | (_, none) => none
  | (f, some p) =>
    let sender := (Config.routerOf (f.src.getD 0)).toNat
    match (readFrame f.fcs4 p).flood p with
    | none => none
    | some l => if f.level ≠ 0 ∧ s.counterFresh sender f.fc = true then some (l, p, f, sender) else none

/-- A sender's counter is noted; one not in the table is entered (R259). -/
def State.enterSender (s : State) (sender : Nat) (f : RxFrame) (c : Ctx) (ns : Int) : State :=
  match s.peerOf sender with
  | some (_, p) => s.enterPeer { p with counter := f.fc }
  | none =>
    let (x, s) := s.draw
    (s.enterPeer {
      rid := sender, stratum := 15, hold := false, parent := 0x3FFF, rssi := f.rssi, stamp := c.stamp
      heard := ns.toNat, offset := 0, interval := x % 72000 + 1, beacon := false, counter := f.fc }).bcnNow

/-- FLOOD_RX (R18, R207, R259, R267 to R271, R276, R280): context k of chain n has received a flood frame. -/
def execFloodRx (n : Fin 4) (k : Fin 32) (air : RxAir) (s : State) : Answer :=
  match s.ctx n.val k.val with
  | none => .next s
  | some c =>
    match s.floodHeard n.val k.val c air with
    | none => .next s
    | some (l, plain, f, sender) =>
      if !s.pdOn 4 || !c.confirmed then .next s
      else if s.fenced .flood then .next (((s.countKeyLate n.val f).sink .flood).consumeCtx n k.val)
      else
        let (s, ns) := (s.countKeyLate n.val f).stampNs c.stamp c.refNs
        let s := (s.enterSender sender f c ns).ledIn .flood 1
        let origin := leNat (piece l 0 2) % 2 ^ 14
        let seq := leNat (piece l 4 2)
        let ttl := leNat (piece l 2 1) % 16
        match s.seenOf origin seq with
        | some _ =>
          let s := s.setSeen fun l => l.map fun e => if e.origin == origin && e.seq == seq then { e with copies := e.copies + 1 } else e
          let s := (s.bumpSat R.FLOOD_DUP_CNT_COUNT 1).evt .flood E.FLOOD_DUP
          .next (s.dropMessage.consumeCtx n k.val)
        | none =>
          let (x, s) := s.draw
          let dmin := s.get R.FLOOD_DELAY_DMIN * 1000
          let us := dmin + x % (s.get R.FLOOD_DELAY_DMAX * 1000 + 1 - dmin)
          let relay := s.on R.FLOOD_CFG_RELAY_EN && ttl != 0 && decide (s.relaysPending < 256)
          let e : SeenEntry := {
            origin := origin, seq := seq, firstNs := s.lin, copies := 0, pending := relay, due := s.lin + us * 1000
            ttl := ttl, kind := leNat (piece l 0 2) / 2 ^ 14, data := l.drop 6 }
          let s := ((s.insertSeen e).bumpSat R.FLOOD_RX_NEW_COUNT 1)
          let s := if relay then s.floodTimer e.due (origin + seq * 2 ^ 16) 0
            else if ttl = 0 then ((s.bumpSat R.FLOOD_TTL_END_CNT_COUNT 1).evt .flood E.FLOOD_TTL_END).dropMessage
            else if !s.on R.FLOOD_CFG_RELAY_EN then s.dropMessage
            else ((s.bumpSat R.FLOOD_NORELAY_CNT_COUNT 1).evt .flood E.FLOOD_NORELAY).dropMessage
          let dec := decide (4 ≤ f.level)
          let (s, id) := s.ctxToRec n.val k.val { c.toRec k.val with
            len := c.len, frame := some { f with psdu := if dec then plain else f.psdu }, secured := true, decrypted := dec
            keyLate := f.keyLate, fc := f.fc }
          .next (s.settleRec n.val id 0)

/-- A relay's delay has run out: it is suppressed, or its jobs are posted with one relay less (R270 to R272, R276). -/
def State.relayNow (s : State) (e : SeenEntry) : State :=
  let s := s.setSeen fun l => l.map fun x => if x.origin == e.origin && x.seq == e.seq then { x with pending := false } else x
  if s.get R.FLOOD_CFG_K ≤ e.copies then
    ((s.bumpSat R.FLOOD_SUPP_CNT_COUNT 1).evt .flood E.FLOOD_SUPPRESSED).dropMessage
  else if s.floodCells.isEmpty || s.fenced .peel then s.dropMessage
  else ((s.bumpSat R.FLOOD_RELAY_CNT_COUNT 1).sendMessage (e.payload (e.ttl - 1)) false).evt .flood E.FLOOD_RELAYED

/-- FLOOD_CACHE_EXPIRE (R268): an entry leaves; a relay still pending in it ends as DROP (DEDUCED, log entry 21). -/
def execFloodCacheExpire (origin : BitVec 14) (seq : BitVec 16) (s : State) : Answer :=
  match s.seenOf origin.toNat seq.toNat with
  | none => .next s
  | some e =>
    if !s.pdOn 4 then .next s
    else
      let s := s.advanceTo (linOfNs (e.firstNs + s.get R.FLOOD_AGE_S * 10 ^ 9))
      let s := s.setSeen fun l => l.filter fun x => !(x.origin == e.origin && x.seq == e.seq)
      .next (if e.pending then s.dropMessage else s)

/-- A message of this device, or one it injects, enters the cache, and its jobs are posted at once; the command completes when all
posts are made (R274, R311). -/
def State.floodOwn (s : State) (r : RunCmd) (origin seq kind ttl : Nat) (data : List Octet) : State :=
  let s := (s.startRun .flood { r with data := [seq] }).ledIn .flood 1
  let e : SeenEntry := {
    origin := origin, seq := seq, firstNs := s.lin, copies := 0, pending := false, due := 0, ttl := ttl, kind := kind, data := data }
  (s.insertSeen e).sendMessage (e.payload ttl) true

/-- The next sequence of the device (R273). -/
def State.takeSeq (s : State) : State × Nat := (s.bump R.FLOOD_SEQ_NEXT 1, s.get R.FLOOD_SEQ_NEXT)

/-- ORIGINATE (R273, R274). -/
def execOriginate (m : Master) (tag : BitVec 8) (s : State) : Answer :=
  .next (s.onCommand m .flood tag fun s =>
    let off := (s.arg .flood 0).toNat
    let len := (s.arg .flood 1).toNat
    if len = 0 ∨ 1900 < len ∨ 2 ^ 26 < off + len then s.done .flood .range
    else
      let ttl := s.argBits .flood 2 4 4
      let r := s.mkRun .flood opOriginate m tag false
      let (s, seq) := s.takeSeq
      (s.floodOwn r Config.routerId.toNat seq (s.argBits .flood 2 0 2) (if ttl = 0 then s.get R.FLOOD_CFG_TTL else ttl)
        (s.dramRead off len)).hwDrain)

/-- INJECT (R274). -/
def execInject (m : Master) (tag : BitVec 8) (s : State) : Answer :=
  .next (s.onCommand m .flood tag fun s =>
    let off := (s.arg .flood 2).toNat
    let len := (s.arg .flood 3).toNat
    let origin := s.argBits .flood 0 0 14
    let seq := s.argBits .flood 1 0 16
    if len = 0 ∨ 1900 < len ∨ 2 ^ 26 < off + len then s.done .flood .range
    else if (s.seenOf origin seq).isSome then s.done .flood .state
    else (s.floodOwn (s.mkRun .flood opInject m tag false) origin seq (s.argBits .flood 1 20 2) (s.argBits .flood 1 16 4)
      (s.dramRead off len)).hwDrain)

/-- Base of the sensor firmware image store in the window of BAR2 (R558). -/
def imageStore : Nat := 0x04000000

/-- What block b of a distribution carries after the flood header (R275): IMAGE, BLOCK, whether it is the last, the image's octets. -/
def State.blockData (s : State) (r : RunCmd) (b : Nat) : List Octet :=
  let size := bitsGet 16 11 (r.arg 2)
  let total := (r.arg 1).toNat
  leOctets 2 (bitsGet 0 16 (r.arg 2)) ++ leOctets 3 b ++ leOctets 1 (if total ≤ (b + 1) * size then 1 else 0)
  ++ s.dramRead (imageStore + (r.arg 0).toNat + b * size) (min size (total - b * size))

/-- Post block b of a distribution (R275, R280): an originated flood of KIND 2; the gap to the next is a task of FLOOD. -/
def State.distBlock (s : State) (r : RunCmd) (b : Nat) : State :=
  let (s, seq) := s.takeSeq
  let e : SeenEntry := {
    origin := Config.routerId.toNat, seq := seq, firstNs := s.lin, copies := 0, pending := false, due := 0
    ttl := s.get R.FLOOD_CFG_TTL, kind := 2, data := s.blockData r b }
  let s := ((s.ledIn .flood 1).insertSeen e).sendMessage (e.payload e.ttl) false
  let s := (s.put R.FLOOD_DIST_STAT_BLOCK b).put R.FLOOD_DIST_STAT_IMAGE_LO (bitsGet 0 8 (r.arg 2))
  let s := s.put (R.H_STATUS_PROGRESS Block.flood.base) (b + 1)
  let s := s.startRun .flood { r with data := [b + 1] }
  if (r.arg 1).toNat ≤ (b + 1) * bitsGet 16 11 (r.arg 2) then (s.done .flood .ok).evt .flood E.FLOOD_DIST_DONE
  else s.floodTimer (s.lin + bitsGet 0 16 (r.arg 3) * 1000000) (b + 1) 1

/-- DIST_START (R275). -/
def execDistStart (m : Master) (tag : BitVec 8) (s : State) : Answer :=
  .next (s.onCommand m .flood tag fun s =>
    let off := (s.arg .flood 0).toNat
    let len := (s.arg .flood 1).toNat
    let size := s.argBits .flood 2 16 11
    let gap := s.argBits .flood 3 0 16
    if off % 8 ≠ 0 ∨ 2 ^ 27 ≤ off ∨ len = 0 ∨ 2 ^ 27 - off < len ∨ size < 16 ∨ 1024 < size ∨ gap < 10 ∨ 60000 < gap then s.done .flood .range
    else s.distBlock (s.mkRun .flood opDistStart m tag false) 0)

/-! ## The flood engine (R280, R284) -/

/-- The engine serves a task it has taken: a relay, the next block of a distribution.  What a task of another poster comes to is not
stated: its result is a free value (log entry 21). -/
def State.floodTask (s : State) (id : Nat) (it : Item) : State :=
  if it.producer ≠ 8 then
    let (x, s) := s.draw
    s.finishItem id (codeOfNum (x % 14)) 0
  else
    let s := if it.word 5 = 0 then
        (match s.flood.seen.find? fun e => e.origin + e.seq * 2 ^ 16 == it.word 4 && e.pending with
        | some e => s.relayNow e
        | none => s)
      else match (s.blk .flood).run with
        | some r => if r.op = opDistStart ∧ nth r.data 0 0 = it.word 4 then s.distBlock r (it.word 4) else s
        | none => s
    s.finishItem id .ok 0

/-- The idle engine takes what its ready list holds, one task after the other. -/
def State.floodTakes : Nat → State → State
  | 0, s => s
  | fuel + 1, s => match s.takeReady 9 with
    | none => s
    | some (s, id, it) => State.floodTakes fuel (s.floodTask id it)

/-- The engine works off its ready list. -/
def State.floodRun (s : State) : State := State.floodTakes (s.readyItems 9).length s

/-- The task of FLOOD that is a timer for a relay (gap 0) or a block. -/
def State.timerOf (s : State) (w4 gap : Nat) : Option (Nat × Item) :=
  s.peel.items.find? fun p => p.2.producer == 8 && p.2.type == 3 && p.2.word 4 == w4 && p.2.word 5 == gap

/-- The due time of a timer comes: Peel grants it, if it can, and the engine takes it (R284, R291). -/
def State.timerDue (s : State) (w4 gap : Nat) : State :=
  match s.timerOf w4 gap with
  | none => s
  | some (id, it) =>
    let s := s.advanceTo (linOfTick it.due)
    (if s.peelRuns && s.mayGrant it then (s.grantBefore it).grantOrWait id it else s).floodRun

/-- The gap of a distribution that ends from outside is cancelled (R66, R275). -/
def State.dropGap (s : State) : State :=
  match s.peel.items.find? fun p => p.2.producer == 8 && p.2.type == 3 && p.2.word 5 == 1 with
  | none => s
  | some (id, _) => s.finishItem id .ok 0

/-- RELAY_DELAY_END (R270 to R272, R276, R280). -/
def execRelayDelayEnd (origin : BitVec 14) (seq : BitVec 16) (s : State) : Answer :=
  .next (s.timerDue (origin.toNat + seq.toNat * 2 ^ 16) 0)

/-- DIST_BLOCK_GAP (R275, R280). -/
def execDistBlockGap (s : State) : Answer :=
  match (s.blk .flood).run with
  | none => .next s
  | some r => if r.op = opDistStart then .next (s.timerDue (nth r.data 0 0) 1) else .next s

end Sys2Proof.Machine
end

