-- ==== Sys2Proof/Machine/Peel.lean ====
section
/-! DEFINITION. Peel (R280 to R323): posting by a master, due times, core pops and finishes, pauses, cancels, reports, and what a step of
the time base does to it. -/

namespace Sys2Proof.Machine

def opCancel : Nat := 1
def opFlowRead : Nat := 2
def opFlowCancel : Nat := 3
def opListDump : Nat := 4

/-- A read's value goes out on the bus, with nothing else changed. -/
def State.popNone (s : State) : State := { s with busData := 0 }

/-! ## Posting and completion records (R282, R306, R309 to R313, R322, R431, R567) -/

/-- The cells of a radio job's frame that a master names: the host a parked frame, which leaves HOST; a core its own cell; no frame
of its own for the management SPI (log entry 22).  None: RANGE. -/
def State.postCells (s : State) (p cell : Nat) : Option (State × List Nat) :=
  if p = 0 then
    match mapGet s.host.parked cell with
    | none => none
    | some f => some ({ s with host := { s.host with parked := mapErase s.host.parked cell } }.ledOut .host 1, f.cells)
  else match s.tag cell with
    | some t => some (s, if t.owner + 2 = 52 + p then [cell] else [])
    | none => some (s, [])

/-- The outcome of a post. -/
def State.postRes (s : State) (m : Master) (c : Code) (id : Nat) : State :=
  (s.put (ownCopy m R.PEEL_POST_RES_CODE) c.num).put (ownCopy m R.PEEL_POST_RES_ID) id

/-- PEEL_POST (R280, R282, R290, R306, R311, R312). -/
def execPeelPost (m : Master) (s : State) : Answer :=
  if !s.hears m then .next s
  else if !s.powered .peel then .next s.offWrite
  else if s.fenced .peel then .next (s.postRes m .fenced 0)
  else
    let words := (List.range 16).map fun i => s.word (ownCopy m (R.PEEL_POST_W_WORD i)).a
    let it : Item := { words := words, due := 0, seq := 0, st := .delay }
    if !postOk m.idx it then .next (s.postRes m .range 0)
    else if s.peelCredit m.idx = 0 then .next (s.postRes m .full 0)
    else if it.type = 0 then
      match s.postCells m.idx it.jobCell with
      | none => .next (s.postRes m .range 0)
      | some (s, cs) =>
        let (s, id) := (s.handCells cs 28).acceptItem m.idx words cs it.jobLen
        .next (s.postRes m .ok id)
    else
      let (s, id) := s.acceptItem m.idx words [] 0
      .next (s.postRes m .ok id)

/-- PEEL_DONE_POP (R310, R313, R322). -/
def execPeelDonePop (m : Master) (s : State) : Answer :=
  if !s.reaches m .peel then .next s.popNone
  else match mapGetD s.peel.done m.idx [] with
    | [] => .next { s with busData := 0 }
    | r :: rest =>
      let s := { s with peel := { s.peel with done := mapSet s.peel.done m.idx rest, items := mapErase s.peel.items r.id } }
      let s := ((s.put (ownCopy m R.PEEL_DONE_W1_TAG) r.tag).put (ownCopy m R.PEEL_DONE_STAMP_LO_STAMP) (r.stamp.toNat % 2 ^ 32)).put
        (ownCopy m R.PEEL_DONE_STAMP_HI_STAMP) (r.stamp.toNat / 2 ^ 32)
      let s := (List.range 4).foldl (fun s i => s.setWord (ownCopy m (R.PEEL_DONE_COOKIE_WORD i)).a (nth r.cookie i 0)) s
      .next { s with busData := BitVec.ofNat 32 (r.id + r.result * 2 ^ 19 + r.type * 2 ^ 27 + 2 ^ 31) }

/-! ## Due times (R287 to R294, R298, R303) -/

/-- After a grant: where it completed the item, its flow and its producer's credit are free again. -/
def State.afterGrant (s : State) (id : Nat) (it : Item) : State :=
  match s.item id with
  | some x => if x.st = .done then ((s.grantFlow it.flow).hwDrain).txnDrain else s
  | none => ((s.grantFlow it.flow).hwDrain).txnDrain

/-- ITEM_DUE (R284, R288, R291 to R294, R297, R303, R306): the head of delay list k falls due; what another list holds that came due
before it is granted first, and the flood engine takes a task at once. -/
def execItemDue (k : Fin 11) (s : State) : Answer :=
  match s.delayHead k.val with
  | none => .next s
  | some (id, it) =>
    if it.st ≠ .delay ∨ !s.peelRuns ∨ (it.target ≠ 15 ∧ s.pausedTarget it.target) then .next s
    else
      let s := (s.advanceTo (linOfTick it.due)).grantBefore it
      if (s.flowHolder it.flow).isSome || s.overtakes it then .next (s.setItem id fun x => { x with st := .flowq })
      else .next (((s.grantOrWait id it).afterGrant id it).floodRun)

/-- PARK_DUE (R298, R303): the park time of the job at the head of delay list k comes. -/
def execParkDue (k : Fin 11) (s : State) : Answer :=
  match s.delayHead k.val with
  | none => .next s
  | some (id, it) =>
    if it.st ≠ .parked ∨ !s.peelRuns ∨ s.pausedTarget it.target then .next s
    else
      let s := (s.advanceTo (linOfTick it.due)).grantBefore it
      .next ((s.grantOrWait id it).afterGrant id it)

/-- Targets for which no grant waits any more are not blocked. -/
def State.unblock (s : State) : State :=
  let l := s.peel.blocked.filter fun k =>
    s.peel.items.any fun p => p.2.target == k && (s.mayGrant p.2 || s.mayUnpark p.2)
  { s with peel := { s.peel with blocked := l } }

/-- GRANT_AFTER_ROOM (R294): the ready list of a target has room for the grant that waits. -/
def execGrantAfterRoom (k : Fin 10) (s : State) : Answer :=
  if s.peel.blocked.contains k.val && s.readyRoom k.val && s.peelRuns then
    .next ({ s with peel := { s.peel with blocked := s.peel.blocked.filter (· != k.val) } }).regrant
  else .next s

/-! ## Control cores (R284, R304, R305, R322) -/

/-- The ready list a master may take from. -/
def coreTarget : Master → Option Nat
  | .core c => some (5 + c.val)
  | _ => none

/-- PEEL_CORE_POP (R283, R284, R322). -/
def execPeelCorePop (m : Master) (s : State) : Answer :=
  if !s.reaches m .peel then .next s.popNone
  else match (match coreTarget m with | some k => s.takeReady k | none => none) with
    | none => .next { s with busData := 0 }
    | some (s, id, it) =>
      let s := (List.range 16).foldl (fun s i => s.setWord (ownCopy m (R.PEEL_CORE_R_WORD i)).a (nth it.words i 0)) s
      let s := s.setItem id fun x => { x with core := m.idx - 2 }
      .next { s with busData := BitVec.ofNat 32 (id + 2 ^ 31) }

/-- PEEL_FINISH (R304, R305, R322). -/
def execPeelFinish (m : Master) (v : BitVec 32) (s : State) : Answer :=
  match s.busWrite m R.PEEL_FINISH_ID.a true v with
  | (s, .applied ..) =>
    let id := bitsGet 0 19 v
    let mine : Bool := match coreTarget m, s.item id with
      | some k, some it => it.st == .taken && it.target == k
      | _, _ => false
    if mine then .next ((s.put (ownCopy m R.PEEL_FINISH_RES_CODE) Code.ok.num).finishItem id (codeOfNum (bitsGet 19 8 v)) 0)
    else .next (s.put (ownCopy m R.PEEL_FINISH_RES_CODE) Code.notFound.num)
  | (s, _) => .next s

/-- TASK_TIMEOUT (R305): a core has not finished an item it took within PEEL_TASK_TMO. -/
def execTaskTimeout (id : Nat) (s : State) : Answer :=
  match s.item id with
  | none => .next s
  | some it =>
    if it.st = .taken ∧ 5 ≤ it.target ∧ it.target ≤ 8 then
      .next (((s.bumpSat R.PEEL_TMO_CNT_COUNT 1).evt .peel E.PEEL_TIMEOUT).finishItem id .timeout 0)
    else .next s

/-! ## Pauses, cancels and reports (R297, R316, R318, R320) -/

/-- PEEL_PAUSE_WRITE (R297). -/
def execPeelPauseWrite (m : Master) (v : BitVec 32) (s : State) : Answer :=
  match s.busWrite m R.PEEL_PAUSE_TARGETS.a true v with
  | (s, .applied ..) => .next s.regrant
  | (s, _) => .next s

/-- May CANCEL reach the item? -/
def ItemSt.cancellable : ItemSt → Bool
  | .delay | .flowq | .ready => true
  | _ => false

/-- An inline item is cancelled (DESIGN CHOICE, log entry 78): the record whose node transaction it carried is not delivered, as R623 has
it of one that a fence refuses; the command of the directory ends with ABORTED. -/
def State.inlineCancelled (s : State) (id : Nat) : State :=
  let s : State := if s.dir.cmdItem = some id then { s with dir := { s.dir with cmdItem := none } }.done .dir .aborted else s
  let s : State := { s with dir := { s.dir with work := mapErase s.dir.work id } }
  s.wb.foldl (fun s w => w.2.recs.foldl (fun s r => if r.2.item = some id then s.dropRec w.1 r.1 false .nodeliver else s) s) s

/-- CANCEL (R316, R320). -/
def execCancel (m : Master) (tag : BitVec 8) (s : State) : Answer :=
  .next (s.onCommand m .peel tag fun s =>
    let id := s.argBits .peel 0 0 19
    match s.item id with
    | none => s.done .peel .notFound
    | some it =>
      if it.st = .done then s.done .peel .notFound
      else if it.st.cancellable then (((s.inlineCancelled id).finishItem id .aborted 0).unblock).done .peel .ok
      else s.done .peel .state)

/-- Control and node flows there are (R285). -/
def flowCount : Nat := 266240

/-- FLOW_READ (R320). -/
def execFlowRead (m : Master) (tag : BitVec 8) (s : State) : Answer :=
  .next (s.onCommand m .peel tag fun s =>
    let f := s.argBits .peel 0 0 19
    if flowCount ≤ f then s.done .peel .range
    else
      let r1 := match s.flowHolder f with
        | some id => id + 2 ^ 31
        | none => 0
      let waiting := (s.peel.items.filter fun p => p.2.flow == f && (p.2.st == .delay || p.2.st == .flowq)).length
      s.complete .peel .ok 0 (BitVec.ofNat 32 r1) (BitVec.ofNat 32 waiting) 0)

/-- Cancel every item of a flow that CANCEL reaches; answers how many (R320, R334). -/
def State.cancelFlow (s : State) (f : Nat) : State × Nat :=
  let ids := (s.peel.items.filter fun p => p.2.flow == f && p.2.st.cancellable).map (·.1)
  ((ids.foldl (fun s id => match s.item id with
    | some it => if it.st.cancellable then (s.inlineCancelled id).completeItem id .aborted 0 else s
    | none => s) s).unblock, ids.length)

/-- FLOW_CANCEL (R320). -/
def execFlowCancel (m : Master) (tag : BitVec 8) (s : State) : Answer :=
  .next (s.onCommand m .peel tag fun s =>
    let f := s.argBits .peel 0 0 19
    if flowCount ≤ f then s.done .peel .range
    else
      let (s, n) := s.cancelFlow f
      let s := s.hwDrain.txnDrain
      (s.put (R.H_STATUS_PROGRESS Block.peel.base) n).complete .peel .ok 0 (BitVec.ofNat 32 n) 0 0)

/-- Insert by an order. -/
def insertBy {α : Type} (lt : α → α → Bool) (x : α) : List α → List α
  | [] => [x]
  | y :: r => if lt x y then x :: y :: r else y :: insertBy lt x r

/-- Sort by an order, keeping the order of equals. -/
def sortBy {α : Type} (lt : α → α → Bool) (l : List α) : List α := l.foldl (fun a x => insertBy lt x a) []

/-- LIST_DUMP (R72, R320). -/
def execListDump (m : Master) (tag : BitVec 8) (unpaced : Bool) (s : State) : Answer :=
  .next (s.onCommand m .peel tag fun s =>
    let k := s.argBits .peel 0 0 4
    if 10 < k then s.done .peel .range
    else
      let l := sortBy (fun a b => a.2.before b.2) (s.delayItems k)
      let rows := (List.range l.length).zip l |>.map fun x =>
        [BitVec.ofNat 32 (x.1 + 1), BitVec.ofNat 32 x.2.2.due,
         BitVec.ofNat 32 (x.2.1 + x.2.2.prio * 2 ^ 20 + (if x.2.2.st = .parked then 2 ^ 24 else 0))]
      s.startLong .peel 32 (s.mkRun .peel opListDump m tag unpaced) rows [l.length, 0, 0, 0, 0])

/-! ## A step of the time base (R295, R296) -/

/-- After a step from tick `old`: items that became due are counted, parked jobs are aimed again, and what is due is granted. -/
def State.peelStepped (s : State) (old : Nat) : State :=
  if !s.pdOn 4 then s
  else
    let n := (s.peel.items.filter fun p => p.2.st == .delay && decide (old < p.2.due) && decide (p.2.due ≤ s.tickCount)).length
    let s := if n = 0 then s else (s.bumpSat R.PEEL_STEP_DUE_CNT_COUNT n).evt .peel E.PEEL_STEP_DUE
    let parked := (s.peel.items.filter fun p => p.2.st == .parked).map (·.1)
    let s := parked.foldl (fun s id => (s.setItem id fun x => { x with st := .aiming }).aimJob id none) s
    s.regrant

end Sys2Proof.Machine
end

