-- ==== Sys2Proof/Machine/Dir.lean ====
section
/-! DEFINITION. The table commands of the node directory (R330 to R335, R354 to R357). -/

namespace Sys2Proof.Machine

def opInsert : Nat := 1
def opDelete : Nat := 2
def opLookup : Nat := 3
def opUpdate : Nat := 4
def opSearch : Nat := 5
def opNext : Nat := 6
def opFlushPort : Nat := 7

/-- Handles there are. -/
def nodeCount : Nat := 262144

/-- The first handle that can be given to a new node, looked for in `fuel` places. -/
def State.freeHandleFrom (s : State) (h : Nat) : Nat → Nat
  | 0 => h
  | fuel + 1 => if s.handleFree h then h else State.freeHandleFrom s (h + 1) fuel

/-- The lowest free handle; none below 262,144: the directory is full. -/
def State.freeHandle (s : State) : Nat := s.freeHandleFrom 0 (s.dir.nodes.length + s.ret.dirty.length)

/-- The EUI of ARG0 and ARG1. -/
def State.argEui (s : State) : BitVec 64 := (s.arg .dir 1) ++ (s.arg .dir 0)

/-- The staged entry: words 2 to 11, with an EUI in words 0 and 1. -/
def State.stagedNode (s : State) (eui : BitVec 64) : NodeEntry :=
  BitVec.ofNat 384 (eui.toNat + 2 ^ 64 * wordsNat ((List.range 10).map fun i => s.word (R.DIR_ENT_WORD (i + 2)).a))

/-- The returned entry words. -/
def State.returnNode (s : State) (e : NodeEntry) : State :=
  (List.range 12).foldl (fun s i => s.setWord (R.DIR_RENT_WORD i).a (e.word i)) s

/-- DIR_INSERT (R330, R335, R354). -/
def execDirInsert (m : Master) (tag : BitVec 8) (s : State) : Answer :=
  .next (s.onCommand m .dir tag fun s =>
    let eui := s.argEui
    let auto := natBit (s.arg .dir 2).toNat 31
    let h := if auto then s.freeHandle else s.argBits .dir 2 0 18
    let full (s : State) : State := (s.evt .dir E.DIR_FULL).done .dir .full
    if eui = 0 then s.done .dir .range
    else match s.findEui eui with
      | some old => s.complete .dir .state 0 (BitVec.ofNat 32 old) 0 0
      | none =>
        if auto && decide (nodeCount ≤ h) then full s
        else if !s.handleFree h then s.done .dir .state
        else match s.indexInsert eui h with
          | none => full s
          | some (t, moves) =>
            let t := t.setNode h (s.stagedNode eui)
            let t := if moves = 0 then t
              else ((t.bumpSat R.DIR_RELOC_CNT_COUNT moves).put (R.H_STATUS_PROGRESS Block.dir.base) moves).evt .dir E.DIR_RELOC
            t.complete .dir .ok 0 (BitVec.ofNat 32 h) (BitVec.ofNat 32 moves) 0)

/-- DIR_DELETE (R333, R334): the flow's items are cancelled and the flow is taken. -/
def execDirDelete (m : Master) (tag : BitVec 8) (s : State) : Answer :=
  .next (s.onCommand m .dir tag fun s =>
    let h := (s.arg .dir 0).toNat
    if (s.node h).isNone then s.done .dir .notFound
    else if s.fenced .peel then s.done .dir .fenced
    else
      let (s, _) := s.cancelFlow h
      let s := s.hwDrain.txnDrain
      (s.startRun .dir (s.mkRun .dir opDelete m tag false)).dirPost (.delete h))

/-- DIR_UPDATE (R333, R354). -/
def execDirUpdate (m : Master) (tag : BitVec 8) (s : State) : Answer :=
  .next (s.onCommand m .dir tag fun s =>
    let h := (s.arg .dir 0).toNat
    let mask := s.argBits .dir 1 0 12
    if mask % 4 ≠ 0 then s.done .dir .range
    else if (s.node h).isNone then s.done .dir .notFound
    else
      let words := (List.range 12).map fun i => s.word (R.DIR_ENT_WORD i).a
      (s.startRun .dir (s.mkRun .dir opUpdate m tag false)).dirPost (.update h mask words))

/-- The item of the directory's command is out of the way. -/
def State.dropDirItem (s : State) (c : Code) : State :=
  let item := s.dir.cmdItem
  let s := { s with dir := { s.dir with
    cmdItem := none, waitWork := none
    work := match item with
      | some id => mapErase s.dir.work id
      | none => s.dir.work } }
  match item with
  | some id => s.finishItem id c 0
  | none => s

/-- DIR_FLOW_GRANTED (R19, R333, R334, R354): the command's inline item holds the flow; the command writes and the flow is released. -/
def execDirFlowGranted (s : State) : Answer :=
  match s.dir.cmdItem with
  | none => .next s
  | some id =>
    match s.item id, mapGet s.dir.work id with
    | some it, some w =>
      if it.st ≠ .taken then .next s
      else
        let h := w.handle
        match s.node h with
        | none => .next ((s.dropDirItem .ok).done .dir .notFound)
        | some e =>
          let s := match w with
            | .update _ mask words =>
              s.setNode h ((List.range 12).foldl (fun e i => if natBit mask i then e.setWord i (nth words i 0) else e) e)
            | .delete _ => (s.indexRemove (BitVec.ofNat 64 (e.get N.EUI)) h).clearNode h
            | .restore _ => s
          .next ((s.dropDirItem .ok).done .dir .ok)
    | _, _ => .next s

/-- DIR_FLOW_TIMEOUT (R333): the command waited DIR_CFG.FLOW_WAIT for the flow. -/
def execDirFlowTimeout (s : State) : Answer :=
  let waits : Bool := match s.dir.cmdItem with
    | some id => (match s.item id with
      | some it => it.st != .taken
      | none => false)
    | none => s.dir.waitWork.isSome
  if waits then .next (((s.dropDirItem .timeout).evt .dir E.DIR_FLOW_TMO).done .dir .timeout) else .next s

/-- A stage group of the engine is fenced while a command waits on a flow: the command ends and its item is withdrawn (R333). -/
def State.dirFenced (s : State) : State :=
  if s.dir.cmdItem.isSome || s.dir.waitWork.isSome then (s.dropDirItem .fenced).done .dir .fenced else s

/-- DIR_LOOKUP (R332, R335, R354, R355); `moves`: rereads of the generations that found a change. -/
def execDirLookup (m : Master) (tag : BitVec 8) (moves : Nat) (s : State) : Answer :=
  .next (s.onCommand m .dir tag fun s =>
    if natBit (s.arg .dir 2).toNat 0 then
      match s.node (s.arg .dir 0).toNat with
      | none => s.done .dir .notFound
      | some e => ((s.returnNode e).cacheRows [(s.arg .dir 0).toNat]).complete .dir .ok 0 (s.arg .dir 0) 0 0
    else if s.argEui = 0 then s.done .dir .range
    else match s.lookupEui s.argEui moves with
      | (s, none, _) => s.done .dir .notFound
      | (s, some h, retries) =>
        (match s.node h with
          | some e => s.returnNode e
          | none => s).complete .dir .ok 0 (BitVec.ofNat 32 h) (BitVec.ofNat 32 retries) 0)

/-- Handles of nodes from h upward, ascending. -/
def State.nodesFrom (s : State) (h : Nat) : List (Nat × NodeEntry) := s.dir.nodes.filter fun p => decide (h ≤ p.1) && p.2.get N.EUI != 0

/-- DIR_SEARCH (R72, R354): PROGRESS counts units of 8 handles from ARG3. -/
def execDirSearch (m : Master) (tag : BitVec 8) (unpaced : Bool) (s : State) : Answer :=
  .next (s.onCommand m .dir tag fun s =>
    let w := (s.arg .dir 0).toNat
    let start := (s.arg .dir 3).toNat
    if 12 ≤ w then s.done .dir .range
    else
      let hits := (s.nodesFrom start).filter fun p => p.2.word w &&& s.arg .dir 1 == s.arg .dir 2
      let rows := hits.map fun p => [BitVec.ofNat 32 ((p.1 - start) / 8 + 1), BitVec.ofNat 32 p.1]
      s.startLong .dir 32 (s.mkRun .dir opSearch m tag unpaced) rows [ceilDiv (nodeCount - start) 8, 0, hits.length, 0, 0])

/-- DIR_NEXT (R354). -/
def execDirNext (m : Master) (tag : BitVec 8) (s : State) : Answer :=
  .next (s.onCommand m .dir tag fun s =>
    match s.nodesFrom (s.arg .dir 0).toNat with
    | [] => s.done .dir .notFound
    | (h, e) :: _ => (s.returnNode e).complete .dir .ok 0 (BitVec.ofNat 32 h) 0 0)

/-- DIR_FLUSH_PORT (R354): completes with RANGE. -/
def execDirFlushPort (m : Master) (tag : BitVec 8) (s : State) : Answer :=
  .next (s.onCommand m .dir tag fun s => s.done .dir .range)

end Sys2Proof.Machine
end

