-- ==== Sys2Proof/Machine/Ecdsa.lean ====
section
/-! DEFINITION. Verification of ECDSA P-384 signatures (R528, R534), which the spec names and does not restate: FIPS 186-5 and SP 800-186
(PRESUMED, log entry 9). -/

namespace Sys2Proof.Machine

/-- The field, the coefficient b of y^2 = x^3 - 3x + b, the base point and its order. -/
def p384 : Nat := 2 ^ 384 - 2 ^ 128 - 2 ^ 96 + 2 ^ 32 - 1
def p384b : Nat := 0xb3312fa7e23ee7e4988e056be3f82d19181d9c6efe8141120314088f5013875ac656398d8a2ed19d2a85c8edd3ec2aef
def p384g : Nat × Nat :=
  (0xaa87ca22be8b05378eb1c71ef320ad746e1d3b628ba79b9859f741e082542a385502f25dbf55296c3a545e3872760ab7,
   0x3617de4a96262c6f5d9e98bf9292dc29f8f41dbd289a147ce9da3113b5f0b8c00a60b1ce1d7e819d7a431d7c90ea0e5f)
def p384n : Nat := 0xffffffffffffffffffffffffffffffffffffffffffffffffc7634d81f4372ddf581a0db248b0a77aecec196accc52973

/-- x to the power e modulo m, over the low bits of e. -/
def powMod (m : Nat) : Nat → Nat → Nat → Nat
  | 0, _, _ => 1
  | bits + 1, x, e => (if e % 2 = 1 then x else 1) * powMod m bits (x * x % m) (e / 2) % m

/-- The inverse modulo a prime of 384 bits. -/
def invMod (m x : Nat) : Nat := powMod m 384 x (m - 2)

/-- A point of the curve; none is the point at infinity. -/
abbrev CurvePoint := Option (Nat × Nat)

/-- The third point of the line with a slope through points with these coordinates, reflected. -/
def chord (slope x1 y1 x2 : Nat) : CurvePoint :=
  let x3 := (slope * slope + 2 * p384 - x1 - x2) % p384
  some (x3, (slope * (x1 + p384 - x3) + p384 - y1) % p384)

/-- Addition of points. -/
def CurvePoint.add : CurvePoint → CurvePoint → CurvePoint
  | none, b => b
  | a, none => a
  | some (x1, y1), some (x2, y2) =>
    if x1 ≠ x2 then chord ((y2 + p384 - y1) * invMod p384 (x2 + p384 - x1) % p384) x1 y1 x2
    else if (y1 + y2) % p384 = 0 then none
    else chord ((3 * x1 * x1 + p384 - 3) * invMod p384 (2 * y1) % p384) x1 y1 x2

/-- A multiple of a point, over the low bits of the factor. -/
def CurvePoint.times : Nat → Nat → CurvePoint → CurvePoint
  | 0, _, _ => none
  | bits + 1, k, a => let r := CurvePoint.times bits (k / 2) (a.add a); if k % 2 = 1 then a.add r else r

/-- Is it a point of the curve? -/
def onCurve (x y : Nat) : Bool :=
  decide (x < p384) && decide (y < p384) && y * y % p384 == (x * x * x + (p384 - 3) * x + p384b) % p384

/-- Does the signature (r, s) on a hash verify under the public key (x, y)? -/
def ecdsaHolds (x y hash r s : Nat) : Bool :=
  onCurve x y && decide (0 < r) && decide (r < p384n) && decide (0 < s) && decide (s < p384n) &&
  let w := invMod p384n s
  match (CurvePoint.times 384 (hash * w % p384n) (some p384g)).add (CurvePoint.times 384 (r * w % p384n) (some (x, y))) with
  | none => false
  | some (v, _) => v % p384n == r

/-- An uncompressed key, a hash and a signature r ‖ s as octets, most significant first. -/
def ecdsaOk (key hash sig : List Nat) : Bool :=
  let num (l : List Nat) : Nat := leNum l.reverse
  key.headD 0 == 4 && ecdsaHolds (num (slice key 1 48)) (num (slice key 49 48)) (num hash) (num (sig.take 48)) (num (sig.drop 48))

end Sys2Proof.Machine
end

