-- ==== Sys2Proof/Machine/ImageOps.lean ====
section
/-! DEFINITION. The boot NOR and the images in it (R533 to R536). -/

namespace Sys2Proof.Machine

/-- An octet of the NOR. -/
def State.norOctet (s : State) (a : Nat) : Nat := match mapGet s.nor a with
  | some v => v
  | none => (Config.norFactory a).toNat

/-- Octets of the NOR. -/
def State.norRead (s : State) (a n : Nat) : List Nat := (List.range n).map fun i => s.norOctet (a + i)

/-- Offset and size of a slot (R533). -/
def slotBase (s : Nat) : Nat := match s with
  | 0 => 0x00100000 | 1 => 0x01100000 | 2 => 0x02100000 | 3 => 0x02300000
  | 4 => 0x02500000 | 5 => 0x02700000 | 6 => 0x02900000 | _ => 0x02A00000

def slotSize (s : Nat) : Nat := if s < 2 then 0x1000000 else if s < 6 then 0x200000 else 0x100000

/-- The part a slot is for (R532). -/
def slotPart (s : Nat) : Nat := s / 2 + 1

/-- What a header says (R534). -/
def headerInfo (h : List Nat) : SlotInfo :=
  { bound := natBit (nth h 8 0) 0, key := nth h 9 0 % 4, version := leNum (slice h 12 4), iface := leNum (slice h 16 2)
    proto := leNum (slice h 18 2), minCtrl := leNum (slice h 20 2), minRadio := leNum (slice h 22 2), minPcs := leNum (slice h 24 2)
    minProof := leNum (slice h 26 2) }

/-- The 16 octets that bind an image to this unit. -/
def unitBinding : List Nat := (sha384 (leList 16 Config.uid.toNat)).take 16

/-- Is the image in a slot valid: OK, or the first failure of R535; and its header. -/
def State.verifyImage (s : State) (slot : Nat) : Code × SlotInfo :=
  let base := slotBase slot
  let h := s.norRead base 384
  let x := headerInfo h
  let part := slotPart slot
  let len := leNum (slice h 48 4)
  let st1 := leNum (slice h 52 4)
  let formOk := slice h 0 4 == [0x47, 0x5A, 0x49, 0x4D] && nth h 4 0 == 1 && leNum (slice h 6 2) == 0x9160 && nth h 5 0 == part
    && decide (len ≤ slotSize slot - 384)
    && (if part = 1 then decide (1 ≤ st1) && decide (st1 ≤ 196608) && decide (st1 ≤ len) else st1 == 0)
  let noMin := x.minCtrl == 0 && x.minRadio == 0 && x.minPcs == 0 && x.minProof == 0
  let pub := slice h 104 97
  let fused := if part = 4 then beList 48 Config.metrologyKey.toNat else beList 48 (Config.updateKey (nth h 9 0)).toNat
  let keyOk := sha384 pub == fused && (part == 4 || (decide (nth h 9 0 ≤ 3) && !natBit s.fwu.revoked (nth h 9 0)))
  let code :=
    if !formOk then Code.range
    else if part = 4 ∧ !noMin then .range
    else if !keyOk then .locked
    else if sha384 (s.norRead (base + 384) len) ≠ slice h 56 48 ∨ !ecdsaOk pub (sha384 (h.take 288)) (slice h 288 96) then .auth
    else if x.bound ∧ slice h 32 16 ≠ unitBinding then .locked
    else .ok
  (code, x)

/-- The whole image of a slot: header and body. -/
def State.imageOctets (s : State) (slot : Nat) : List Nat :=
  s.norRead (slotBase slot) (384 + leNum (s.norRead (slotBase slot + 48) 4))

/-- The stage-1 section of a CTRL image, and the section after it (R532). -/
def State.stage1Octets (s : State) (slot : Nat) : List Nat :=
  s.norRead (slotBase slot + 384) (leNum (s.norRead (slotBase slot + 52) 4))

def State.controlOctets (s : State) (slot : Nat) : List Nat :=
  let st1 := leNum (s.norRead (slotBase slot + 52) 4)
  s.norRead (slotBase slot + 384 + st1) (leNum (s.norRead (slotBase slot + 48) 4) - st1)

/-! ## The QSPI controller (R575) -/

/-- Reads of the first n octets of a slot: 0x13 for its first 4 KiB, 0x6C for the rest. -/
def readCmds (slot n : Nat) : List NorCmd :=
  ⟨0x13, slotBase slot, min n 4096⟩ :: if 4096 < n then [⟨0x6C, slotBase slot + 4096, n - 4096⟩] else []

/-- Erases of a slot's sectors of 64 KiB, each followed by reads of the status. -/
def eraseCmds (slot : Nat) : List NorCmd :=
  (List.range (slotSize slot / 65536)).flatMap fun i => [⟨0xDC, slotBase slot + 65536 * i, 65536⟩, ⟨0x05, 0, 1⟩]

/-- Programs of n octets from an address, page by page. -/
def programCmds (a n : Nat) : List NorCmd := (List.range (n / 256)).flatMap fun i => [⟨0x12, a + 256 * i, 256⟩, ⟨0x05, 0, 1⟩]

/-- What a loader or a verification reads of a slot: the header, and the body that it names if it fits the slot (R534, R536). -/
def State.slotReads (s : State) (slot : Nat) : List NorCmd :=
  let len := leNum (s.norRead (slotBase slot + 48) 4)
  readCmds slot (384 + (if len ≤ slotSize slot - 384 then len else 0))

/-- The controller sends commands. -/
def State.drive (s : State) (l : List NorCmd) : State := { s with qspi := l }

/-- Erase or program an octet of the NOR.  What programming leaves in an octet that is not erased, the spec does not say: a free value
(log entry 5). -/
def State.norErase (s : State) (a : Nat) : State := { s with nor := mapSet s.nor a 0xFF }

def State.norProgram (s : State) (a v : Nat) : State :=
  if s.norOctet a = 0xFF then { s with nor := mapSet s.nor a v }
  else
    let (x, s) := s.draw
    { s with nor := mapSet s.nor a (x % 256) }

end Sys2Proof.Machine
end

