-- ==== Sys2Proof/Machine/Port.lean ====
section
/-! DEFINITION. Ring and client ports (R32, R33, R110, R360 to R387, R436). -/

namespace Sys2Proof.Machine

/-! ## Reception -/

/-- Cells that an allocation finds with a tag error: corrected ones are counted, others go to owner 254 (R432, R433). -/
def State.tagErrors (s : State) (fixed bad : Nat) : State :=
  let s := s.bumpSat R.RACK_ECC_CORR fixed
  (List.range (min bad s.rack.free)).foldl (fun s _ =>
    ((s.allocCell 254 false false).1.bumpSat R.RACK_ECC_UNCORR 1).evt .rack E.RACK_QUAR) s

/-- PORT_FRAME_RX: a frame arrives at a port.  One that finds its FIFO full before its last token is cut there (R33), one that grows beyond the
MTU there (R366), whichever comes first.  A port that is off, disabled or whose link is down receives nothing, and none does before the
data planes forward (R96). -/
def execPortFrameRx (p : Fin 10) (x : FrameFacts) (s : State) : Answer :=
  let n := p.val
  let b := portBlock n
  let g := rxGroup n
  if !s.linkUp n || !s.on (R.PORT_MODE_EN n) || !s.boot.forwards then .next s
  else
    let stamp := s.portStamp n false
    let s := ((s.ledIn b 1).rxStats n x).drainBfifo (rxBfifo n) x.before
    let drop (s : State) (c : Cause) (owner : Nat) : State := s.portDrop n c x.octets n owner
    let eapol := isEapol x
    let ptp := s.isPtp n x
    let wait := s.swait n
    if s.entering then .next (drop s .power 0)
    else if 256 - (s.bfifoOf (rxBfifo n)).writerLevel 256 < s.get R.FAB_ADMIT_MARK_MARK then .next (drop s .admitMark 0)
    else
    let mtu := s.ap (R.PORT_MTU_OCTETS n)
    let tokens := tokensOf (rxBfifo n) (min x.octets mtu)
    let (s, written) := s.arriveBfifo (rxBfifo n) tokens x.during
    if x.tag.isNone && x.etherType == 0x8808 then
      .next (drop (s.stat n (if x.macOp = 1 then 12 else 13) 1) .pause 0)
    else if wait && !s.swaitPass n x && !s.on (R.RET_SWAIT_CLEAR_FWD n) then .next (drop s .swait 0)
    else if s.poolRoom (poolOf g) < cellsOf (s.ap (R.PORT_MTU_OCTETS n)) then
      .next (((drop s .nocell g).bumpSat (R.RACK_POOL_NOCELL_COUNT (poolOf g)) 1).evt .rack E.RACK_NOCELL)
    else
      let full := decide (written < tokens)
      let long := decide (mtu < x.octets) && !full
      let len := if full then min x.octets (written * (bfifoWidth (rxBfifo n) / 8)) else min x.octets mtu
      let s := s.tagErrors x.eccFix x.eccBad
      let s := if long then (drop s .toolong g).evt b E.PORT_TOOLONG
        else if full then drop s .trunc g else s
      let cut := long || full
      match s.allocPacket g len with
      | none => .next (if cut then s else drop s .nocell g)
      | some (s, cs) =>
        let bypass := ptp && x.tag.isNone && s.ap (R.PORT_PTP_POLICY n) == 1 && s.apOn (R.CRUSTX_CTL_RX_EN (dpOf n) (pkOf n))
        .next (s.addFrame {
          port := n, mtu := mtu, x := x, len := len, stamp := stamp, portHeld := !cut, clear := wait
          hostOnly := eapol || (wait && s.swaitPass n x) || (!wait && bypass)
          ctl := eapol || (wait && s.swaitPass n x) || (!wait && bypass)
          errored := cut || !x.fcsOk, cells := cs })

/-! ## Link faults (R378 to R384) -/

/-- PORTn_LINK.SIG and LOCK follow the faults present. -/
def State.linkSignals (s : State) (p : Nat) : State :=
  let fs := (s.port p).faults
  let sig := !fs.contains 1
  (s.putB (R.PORT_LINK_SIG p) sig).putB (R.PORT_LINK_LOCK p) (sig && !fs.contains 2 && !fs.contains 7)

/-- Frames the port was receiving and forwarding, and frames it was sending or, with BLOCK_TX, was to send (R379, R382). -/
def State.cutFrames (s : State) (p : Nat) : State :=
  let s := s.frames.foldl (fun s x =>
    if x.2.port = p ∧ x.2.icv = .pending then
      let s := s.portDrop p .linkdown x.2.len p x.2.owner
      let f := { x.2 with portHeld := false, errored := true, icv := .none, toHost := false, learn := none }
      let s := (s.setFrame x.1 fun _ => f).ledOut (dpBlock (dpOf p)) 1
      ((x.2.egress.filter fun e => e.st == .sending).foldl (fun s e => s.sendEnd x.1 f e .bad) s).settle x.1
    else s) s
  s.frames.foldl (fun s x =>
    match x.2.eg p with
    | none => s
    | some e =>
      if e.st = .sending then
        ((s.portDrop p .linkdown x.2.len x.2.port (txGroup p)).ledOut (dpBlock (dpOf p)) 1).endEgress x.1 p
      else if s.on (R.PORT_LF_CFG_BLOCK_TX p) then
        let s := if e.st = .inCrust then s.ledOut (dpBlock (dpOf p)) 1 else s
        ((s.ledIn (portBlock p) 1).portDrop p .linkdown x.2.len x.2.port (txGroup p)).endEgress x.1 p
      else s) s

/-- Link-down is declared (R379); a TX_SWITCH that waits for the port switches (R422). -/
def State.declareDown (s : State) (p cause : Nat) : State :=
  let s := ((s.put (R.PORT_LINK_UP p) 0).put (R.PORT_LINK_CAUSE p) cause).bump (R.PORT_LINK_DOWNS p) 1
  let s := ((s.put (R.PORT_LINK_HOLDOFF p) 0).put (R.PORT_LINK_HOLDUP p) 0).stat p 19 1
  let s := (s.evt (portBlock p) E.PORT_LINK_DOWN).cutFrames p
  if s.switchWaits p then s.applySwitch p else s

/-- FAULT_DECIDED (R378, R379): causes 1 to 5; the hold-off starts. -/
def execFaultDecided (p : Fin 10) (c : Fin 5) (s : State) : Answer :=
  let n := p.val
  if !s.powered (portBlock n) || (s.port n).faults.contains (c.val + 1) then .next s
  else
    let s := (s.setPort n fun x => { x with faults := x.faults ++ [c.val + 1] }).linkSignals n
    .next (if s.on (R.PORT_LINK_UP n) then s.put (R.PORT_LINK_HOLDOFF n) 1 else s.put (R.PORT_LINK_HOLDUP n) 0)

/-- LINK_DOWN (R379): the fault decided first of those that persist is the cause. -/
def execLinkDown (p : Fin 10) (s : State) : Answer :=
  match (s.port p.val).faults with
  | c :: _ => if s.linkUp p.val then .next (s.declareDown p.val c) else .next s
  | [] => .next s

/-- FAULT_CLEARED (R380, R383): causes 1 to 5, and 7 when training ends. -/
def execFaultCleared (p : Fin 10) (c : BitVec 3) (s : State) : Answer :=
  let n := p.val
  if !s.powered (portBlock n) || !(s.port n).faults.contains c.toNat then .next s
  else
    let s := (s.setPort n fun x => { x with faults := x.faults.filter (· != c.toNat) }).linkSignals n
    let none' := (s.port n).faults.isEmpty
    if s.on (R.PORT_LINK_UP n) then
      .next ((if none' then s.put (R.PORT_LINK_HOLDOFF n) 0 else s).evt (portBlock n) E.PORT_RIDE)
    else .next (if none' && !s.on (R.PORT_LINK_FORCED n) then s.put (R.PORT_LINK_HOLDUP n) 1 else s)

/-- RETRAIN and FORCE_DOWN of R386. -/
def opRetrain : Nat := 1
def opForceDown : Nat := 2

/-- LINK_UP (R380): no fault for HOLDUP; a RETRAIN completes (R386).  A port whose microcode is not loaded stays down (R550). -/
def execLinkUp (p : Fin 10) (s : State) : Answer :=
  let n := p.val
  let b := portBlock n
  if !s.powered b || s.on (R.PORT_LINK_UP n) || !(s.port n).faults.isEmpty || s.on (R.PORT_LINK_FORCED n) || !s.on (R.PORT_MODE_EN n)
    || s.fwu.unloaded.contains (if n < 2 then 13 + n else n + 3)
  then .next s
  else
    let s := (((s.put (R.PORT_LINK_UP n) 1).put (R.PORT_LINK_HOLDUP n) 0).linkSignals n).evt b E.PORT_LINK_UP
    .next (if s.runOp b = some opRetrain then s.done b .ok else s)

/-- DEGRADE_INTERVAL (R381, R387): symbols corrected in the interval (blocks in error on 10G), FEC blocks corrected and uncorrectable, and
the PCS BER count. -/
def execDegradeInterval (p : Fin 10) (n blocks unc ber : Nat) (s : State) : Answer :=
  let q := p.val
  if !s.powered (portBlock q) then .next s
  else
    let s := if s.rate q = 10 then s.stat q 18 n else ((s.stat q 14 blocks).stat q 15 unc).stat q 16 n
    let s := s.stat q 17 ber
    let t := s.get (R.PORT_DEGRADE_THRESH q)
    if t = 0 then .next s
    else if t < n then .next ((s.put (R.PORT_LINK_DEGRADE q) 1).evt (portBlock q) E.PORT_DEGRADE)
    else .next ((s.put (R.PORT_LINK_DEGRADE q) 0).evtIf (s.on (R.PORT_LINK_DEGRADE q)) (portBlock q) E.PORT_DEGRADE_CLR)

/-- The link goes down with cause MODE and trains in the present setting (R365, R379). -/
def State.retrain (s : State) (p : Nat) : State :=
  let s := (s.setPort p fun x => { x with faults := (x.faults.filter (· != 7)) ++ [7] }).linkSignals p
  if s.on (R.PORT_LINK_UP p) then s.declareDown p 7 else s.put (R.PORT_LINK_HOLDUP p) 0

/-- PORT_MODE_WRITE (R364, R365): a write of PORTn_MODE, or of PORTn_LANE; MODE is read-only on ports 0 and 1. -/
def execPortModeWrite (m : Master) (p : Fin 10) (lane : Bool) (v : W32) (s : State) : Answer :=
  let n := p.val
  let v := if !lane && decide (n < 2) then v &&& ~~~0xF0#32 else v
  match s.busWrite m (if lane then (R.PORT_LANE_MAP n).a else (R.PORT_MODE_EN n).a) true v with
  | (s, .applied ..) => .next (s.retrain n)
  | (s, _) => .next s

/-- RETRAIN (R386): completes at link-up. -/
def execRetrain (m : Master) (p : Fin 10) (tag : BitVec 8) (s : State) : Answer :=
  let b := portBlock p.val
  .next (s.onCommand m b tag fun s => (s.startRun b (s.mkRun b opRetrain m tag false)).retrain p.val)

/-- FORCE_DOWN (R378, R384, R386). -/
def execForceDown (m : Master) (p : Fin 10) (tag : BitVec 8) (s : State) : Answer :=
  let n := p.val
  let b := portBlock n
  .next (s.onCommand m b tag fun s =>
    let on := natBit (s.arg b 0).toNat 0
    let s := s.putB (R.PORT_LINK_FORCED n) on
    let s := if on then (if s.on (R.PORT_LINK_UP n) then s.declareDown n 6 else s.put (R.PORT_LINK_HOLDUP n) 0)
      else if !s.on (R.PORT_LINK_UP n) && (s.port n).faults.isEmpty then s.put (R.PORT_LINK_HOLDUP n) 1 else s
    s.done b .ok)

/-! ## Transmission (R367 to R373, R377) -/

/-- EGRESS_START: frame i starts at an egress, port 0 to 9 or 14 the host queue; `under`: the transmit MAC finds its FIFO empty before the
frame's end (R369). -/
def execEgressStart (i : Nat) (e : BitVec 4) (under : Bool) (s : State) : Answer :=
  match mapGet s.frames i with
  | none => .next s
  | some f =>
    if e = 14 then
      if f.stage ≠ .forwarded ∨ f.icv = .pending ∨ !f.toHost then .next s
      else if f.errored then .next ((s.setFrame i fun f => { f with toHost := false }).settle i)
      else .next (s.deliverFrame i f)
    else
      let p := e.toNat
      let b := portBlock p
      match f.eg p with
      | none => .next s
      | some g =>
        if g.st ≠ .inCrust ∨ !s.powered b then .next s
        else if !s.on (R.PORT_LINK_UP p) then
          if s.on (R.PORT_LF_CFG_BLOCK_TX p) then
            .next ((((s.ledOut (dpBlock (dpOf p)) 1).ledIn b 1).portDrop p .linkdown f.len f.port (txGroup p)).endEgress i p)
          else .next s
        else
          let stamp := s.portStamp p true
          let s := s.ledIn b 1
          let asked (h : TxDesc → Bool) : Bool := match f.desc with
            | some d => h d
            | none => false
          let one := asked (·.oneStep) && s.apOn (R.PORT_PTP_ONE_STEP p) && g.tag.isNone
          let refused := asked (·.oneStep) && !one
          let s := if asked (·.tsReq) || refused then
              s.pushTstx p stamp (match f.desc with | some d => d.tag | none => 0) refused
            else s
          let g := { g with st := .sending, stamp := stamp, oneStep := one, time := s.portTime p }
          if under then
            let s := ((s.recordSent f g .bad).portDrop p .underrun f.len f.port (txGroup p)).evt b E.PORT_UNDERRUN
            let s := (s.setFrame i fun f => { f with sent := true }).ledOut (dpBlock (dpOf p)) 1
            .next ((s.endEgress i p).autoSwitch p)
          else if f.icv = .pending then .next (s.setFrame i fun f => f.mapEg p fun _ => g)
          else .next ((s.sendEnd i f g f.fcs).autoSwitch p)

/-- PORTN_TSTX_POP (R373, R443). -/
def execPortnTstxPop (m : Master) (p : Fin 10) (s : State) : Answer :=
  let n := p.val
  if !s.reaches m (portBlock n) then .next { s with busData := 0 }
  else
    let own (s : State) (f : Fld) (x : Nat) : State := s.put (ownCopy m f) x
    match (s.port n).tstx with
    | [] => .next { own s (R.PORT_TSTX_TAG_VALID n) 0 with busData := 0 }
    | (st, tag, ref) :: r =>
      let s := s.setPort n fun x => { x with tstx := r }
      let s := own (own s (R.PORT_TSTX_HI_STAMP n) (st.toNat / 2 ^ 32)) (R.PORT_TSTX_TAG_TAG n) tag.toNat
      let s := own (own s (R.PORT_TSTX_TAG_ONESTEP_REFUSED n) (if ref then 1 else 0)) (R.PORT_TSTX_TAG_VALID n) 1
      .next { s with busData := st.setWidth 32 }

end Sys2Proof.Machine
end

