-- ==== Sys2Proof/Machine/FwuOps.lean ====
section
/-! DEFINITION. Images and units (R532, R536 to R538, R546 to R550): what runs where, compatibility, loading, falling back, and the
trial across a reset. -/

namespace Sys2Proof.Machine

/-- Change FWU. -/
def State.setFwu (s : State) (f : FwuSt → FwuSt) : State := { s with fwu := f s.fwu }

/-- The part of a unit, and the units of a part, in activation order (R541, R554). -/
def unitPart (u : Nat) : Nat := if u = 0 then 1 else if u < 5 then 2 else 3

def partUnits (p : Nat) : List Nat := (List.range 15).filter fun u => unitPart u == p

/-- The unit of a port, and the port of a unit. -/
def portUnit (p : Nat) : Nat := if p < 2 then 13 + p else p + 3

def unitPort (u : Nat) : Nat := if u < 13 then u - 3 else u - 13

/-- A part's slot by its bit (R533). -/
def slotOf (part : Nat) (bit : Bool) : Nat := 2 * (part - 1) + (if bit then 1 else 0)

/-- The slot a unit runs. -/
def State.unitSlot (s : State) (u : Nat) : Nat := slotOf (unitPart u) (nth s.fwu.run u false)

/-- The image a unit runs. -/
def State.unitImage (s : State) (u : Nat) : SlotInfo := mapGetD s.fwu.images u {}

/-- The domain a unit is in. -/
def unitDomain (u : Nat) : Nat :=
  if u = 0 then 3 else if u < 3 then 10 else if u < 5 then 11 else if u < 13 then 9 else 8

/-! ## Compatibility (R537, R538) -/

/-- The epoch an image needs of a part. -/
def SlotInfo.min (x : SlotInfo) (part : Nat) : Nat := match part with
  | 1 => x.minCtrl
  | 2 => x.minRadio
  | 3 => x.minPcs
  | _ => x.minProof

/-- The epochs of a part in a set, with Proofer's. -/
def epochsOf (set : List SlotInfo) (proof part : Nat) : List Nat :=
  if part = 4 then [proof] else (partUnits part).map fun u => (nth set u {}).iface

/-- The first failure in a set: the rule, the part whose requirement failed, the part that failed it.  The requirement of rule 2 is taken
as CTRL's (DEDUCED, log entry 40). -/
def setFailure (set : List SlotInfo) (proof : Nat) : Option (Nat × Nat × Nat) :=
  let rule1 := (List.range 15).findSome? fun u =>
    let x := nth set u {}
    [1, 2, 3, 4].findSome? fun y =>
      if y ≠ unitPart u ∧ (epochsOf set proof y).any (fun e => decide (e < x.min y)) then some (1, unitPart u, y) else none
  match rule1 with
  | some f => some f
  | none =>
    let c := (nth set 0 {}).iface
    if [1, 2, 3, 4].any fun u => (nth set u {}).iface != c && (nth set u {}).iface + 1 != c then some (2, 1, 2) else none

/-- The set after a step: named units up to the step run their new images. -/
def State.setAfter (s : State) (parts : List (Option Bool)) (step : Nat) : List SlotInfo :=
  (List.range 15).map fun u => match nth parts (unitPart u - 1) none with
    | some b => if u ≤ step then mapGetD s.fwu.slots (slotOf (unitPart u) b) {} else s.unitImage u
    | none => s.unitImage u

/-- The tests of CHECK and ACTIVATE: RES1 and RES2 of the first failure. -/
def State.checkSets (s : State) (parts : List (Option Bool)) (proof : Nat) : Option (Nat × Nat) :=
  let bad := [1, 2, 3].any fun p => match nth parts (p - 1) none with
    | some b => !(mapGetD s.fwu.slots (slotOf p b) {}).verified
    | none => false
  if bad then some (3, 0)
  else
    let steps := (List.range 15).filter (fun u => (nth parts (unitPart u - 1) none).isSome) ++ [15]
    steps.findSome? fun k => (setFailure (s.setAfter parts k) proof).map fun f => (f.1 + 256 * k, f.2.1 + 256 * f.2.2)

/-- Does an image of a part fit the CTRL image (R550)? -/
def fitsCtrl (ctrl x : SlotInfo) (part : Nat) : Bool :=
  decide (ctrl.min part ≤ x.iface) && decide (x.minCtrl ≤ ctrl.iface)
    && (part != 2 || x.iface == ctrl.iface || x.iface + 1 == ctrl.iface)

/-! ## Loading (R536, R550) -/

/-- Load the image of a unit: from its slot, else from the part's other slot; one that is not valid or does not fit stays unloaded. -/
def State.loadUnit (s : State) (u : Nat) : State :=
  let part := unitPart u
  let bit := nth s.fwu.run u false
  let try' (b : Bool) : Option SlotInfo :=
    let (c, x) := s.verifyImage (slotOf part b)
    if c = .ok ∧ (part = 1 ∨ fitsCtrl (s.unitImage 0) x part) then some x else none
  let first := s.slotReads (slotOf part bit)
  let s := s.drive (if (try' bit).isSome then first else first ++ s.slotReads (slotOf part (!bit)))
  match try' bit with
  | some x => s.setFwu fun f => { f with images := mapSet f.images u x, unloaded := f.unloaded.filter (· != u) }
  | none => match try' (!bit) with
    | some x => s.setFwu fun f => { f with
        images := mapSet f.images u x, unloaded := f.unloaded.filter (· != u), run := f.run.set u (!bit) }
    | none => (s.setFwu fun f => { f with images := mapErase f.images u, unloaded := f.unloaded.filter (· != u) ++ [u] }).put
        R.FWU_STATE_INCOMPAT 1

/-- The whole image of a loaded unit, as it is measured. -/
def State.unitOctets (s : State) (u : Nat) : List Nat :=
  if s.fwu.unloaded.contains u then [] else s.imageOctets (s.unitSlot u)

/-! ## Trial and fallback (R546 to R549) -/

/-- The parts of a trial, bits as ARG0 of ACTIVATE. -/
def FwuSt.trialParts (f : FwuSt) : Nat :=
  [1, 2, 3].foldl (fun a p => a + (if (partUnits p).any fun u => nth f.trial u false then 2 ^ (p - 1) else 0)) 0

/-- Fall back: the previous set becomes the present one, and the record says why and when (R548). -/
def State.fallBack (s : State) (cause : Nat) : State :=
  s.setFwu fun f => { f with
    run := (List.range 15).map fun u => if nth f.trial u false then nth f.prev u false else nth f.run u false
    trial := List.replicate 15 false
    phase := 0, boots := 0, fbCause := cause, fbParts := f.trialParts, fbCount := satInc 16 f.fbCount
    fbTime := s.seconds % 2 ^ 32, fbSignal := true }

/-- The trial window runs in full from now. -/
def State.openWindow (s : State) : State := s.setFwu fun f => { f with trialEnd := s.lin + s.get R.FWU_CFG_WINDOW * 10 ^ 9 }

/-- Any reset: an activation is over, and the set it had committed is the trial set (R540, R549; DEDUCED, log entry 41). -/
def State.fwuReset (s : State) : State :=
  s.setFwu fun f =>
    let f := match f.act with
      | some a => { f with
          phase := 2
          run := (List.range 15).map fun u => (nth a.parts (unitPart u - 1) none).getD (nth f.run u false)
          trial := (List.range 15).map fun u => (nth a.parts (unitPart u - 1) none).isSome }
      | none => f
    { f with act := none, slots := [], images := [], unloaded := [] }

/-- The boot ROM finds an open trial: its first reset boots the trial set again, a second one falls back with cause 5 (R549). -/
def State.bootTrial (s : State) : State :=
  if s.fwu.phase ≠ 2 then s
  else if s.fwu.boots = 0 then s.setFwu fun f => { f with boots := 1 }
  else s.fallBack 5

end Sys2Proof.Machine
end

