-- ==== Sys2Proof/Machine/SieveOps.lean ====
section
/-! DEFINITION. Sieve's tables (R336, R337, R341 to R344, R349 to R353): layer-2 entries, learning, moves and pins, prefixes in order. -/

namespace Sys2Proof.Machine

/-! ## Layer-2 entries (R337) -/

namespace L

def MAC : NodeFld := ⟨0, 48⟩
def FID : NodeFld := ⟨48, 12⟩
def PORT : NodeFld := ⟨60, 4⟩
def VALID : NodeFld := ⟨64, 1⟩
def STATIC : NodeFld := ⟨65, 1⟩
def PINNED : NodeFld := ⟨66, 1⟩
def TAUGHT : NodeFld := ⟨67, 1⟩
def MOVES : NodeFld := ⟨68, 4⟩
def AGE : NodeFld := ⟨72, 3⟩
def WIN : NodeFld := ⟨80, 16⟩
def PIN_T : NodeFld := ⟨96, 16⟩

end L

/-- A field of a layer-2 entry. -/
def L2Entry.get (e : L2Entry) (f : NodeFld) : Nat := natBits e.toNat f.lo f.w

/-- A layer-2 entry with a field replaced. -/
def L2Entry.put (e : L2Entry) (f : NodeFld) (x : Nat) : L2Entry :=
  (e &&& ~~~(BitVec.ofNat 128 (2 ^ f.w - 1) <<< f.lo)) ||| (BitVec.ofNat 128 (x % 2 ^ f.w) <<< f.lo)

/-- Is a one-bit field set? -/
def L2Entry.on (e : L2Entry) (f : NodeFld) : Bool := e.get f != 0

/-- The bits of an entry that the layout does not set to 0. -/
def l2Mask : L2Entry := BitVec.ofNat 128 (2 ^ 75 - 1) ||| BitVec.ofNat 128 ((2 ^ 32 - 1) * 2 ^ 80)

/-- A pipeline. -/
def State.pipe (s : State) (e : Nat) : SieveSt := mapGetD s.sieve e {}

/-- Change a pipeline. -/
def State.setPipe (s : State) (e : Nat) (f : SieveSt → SieveSt) : State := { s with sieve := mapSet s.sieve e (f (s.pipe e)) }

/-- The indices of the ways where a key can stand: those of its two buckets; the second is the first XOR 1 where the hashes coincide
(DEDUCED from R329, log entry 32). -/
def State.l2Ways (s : State) (e : Nat) (mac : BitVec 48) (fid : BitVec 12) : List Nat × List Nat :=
  let k := (s.pipe e).key
  let b1 := Config.l2Hash1 k mac fid
  let b2 := if Config.l2Hash2 k mac fid = b1 then b1 ^^^ 1 else Config.l2Hash2 k mac fid
  ((List.range 4).map fun w => 4 * b1.toNat + w, (List.range 4).map fun w => 4 * b2.toNat + w)

/-- The entry of a key and its index. -/
def State.l2Find (s : State) (e : Nat) (mac : BitVec 48) (fid : BitVec 12) : Option (Nat × L2Entry) :=
  let (a, b) := s.l2Ways e mac fid
  (a ++ b).findSome? fun i => match mapGet (s.pipe e).table i with
    | some x => if x.get L.MAC = mac.toNat ∧ x.get L.FID = fid.toNat then some (i, x) else none
    | none => none

/-- Write an entry, which is written whole (R342, R355). -/
def State.l2Write (s : State) (e i : Nat) (x : L2Entry) : State := s.setPipe e fun p => { p with table := mapSet p.table i x }

/-- Remove an entry. -/
def State.l2Remove (s : State) (e i : Nat) : State := s.setPipe e fun p => { p with table := mapErase p.table i }

/-- The way a new entry of a key takes: the first free one of the bucket with more free ways, the first bucket on a tie (R336). -/
def State.l2Free (s : State) (e : Nat) (mac : BitVec 48) (fid : BitVec 12) : Option Nat :=
  let (a, b) := s.l2Ways e mac fid
  let free (l : List Nat) : List Nat := l.filter fun i => (mapGet (s.pipe e).table i).isNone
  (if (free b).length ≤ (free a).length then free a else free b).head?

/-- A notice goes into the learn FIFO (R344, R443). -/
def State.notice (s : State) (e : Nat) (x : L2Entry) (kind old : Nat) : State :=
  let (l, lost) := fifoPush 1024 (s.pipe e).lfifo ⟨x.get L.MAC, x.get L.FID, x.get L.PORT, kind, old⟩
  let s := s.setPipe e fun p => { p with lfifo := l }
  if lost then (s.bumpSat (R.SIEVE_LFIFO_LOST_COUNT e) 1).evt (pipeBlock e) E.SIEVE_LFIFO_LOST else s

/-- An entry learned or moved after FLUSH_PORT was accepted is not removed by that flush (R347): its row leaves the scan. -/
def State.spareFlush (s : State) (e i : Nat) : State :=
  s.setBlk (pipeBlock e) fun x => { x with run := x.run.map fun r =>
    if r.op = 7 then { r with rows := r.rows.filter fun w => w.getD 1 0 != BitVec.ofNat 32 i } else r }

/-- Full-time seconds modulo 65,536. -/
def State.sec16 (s : State) : Nat := s.seconds % 65536

/-- A learn commits (R339, R341, R342, R344). -/
def State.learn (s : State) (e : Nat) (mac : BitVec 48) (fid : BitVec 12) (port : Nat) : State :=
  let b := pipeBlock e
  match s.l2Find e mac fid with
  | none =>
    (match s.l2Free e mac fid with
    | none => (s.bumpSat (R.SIEVE_LEARN_FULL_COUNT e) 1).evt b E.SIEVE_LEARN_FULL
    | some i =>
      let x : L2Entry := BitVec.ofNat 128 (mac.toNat + 2 ^ 48 * fid.toNat + 2 ^ 60 * port + 2 ^ 64)
      (((s.l2Write e i x).spareFlush e i).bumpSat (R.SIEVE_LEARN_CNT_COUNT e) 1).notice e x 0 0)
  | some (i, x) =>
    let old := x.get L.PORT
    if old = port then s.l2Write e i (x.put L.AGE 0)
    else if x.on L.STATIC || x.on L.PINNED then s
    else
      let x := (x.put L.PORT port).put L.AGE 0
      if x.on L.TAUGHT then (s.l2Write e i (x.put L.TAUGHT 0)).spareFlush e i
      else
        let now := s.sec16
        let fresh := x.get L.MOVES = 0 ∨ s.get (R.SIEVE_L2_CFG_MOVE_WIN e) < (now + 65536 - x.get L.WIN) % 65536
        let moves := if fresh then 1 else satInc 4 (x.get L.MOVES)
        let x := (x.put L.MOVES moves).put L.WIN (if fresh then now else x.get L.WIN)
        let pin := decide (s.get (R.SIEVE_L2_CFG_MOVE_MAX e) ≤ moves)
        let x := if pin then (x.put L.PINNED 1).put L.PIN_T now else x
        let s := (s.l2Write e i x).spareFlush e i
        let s := ((s.bumpSat (R.SIEVE_MOVE_CNT_COUNT e) 1).evt b E.SIEVE_MOVE).notice e x 1 old
        if pin then ((s.bumpSat (R.SIEVE_PIN_CNT_COUNT e) 1).evt b E.SIEVE_PIN).notice e x 2 old else s

/-! ## Prefixes (R349 to R352) -/

/-- Slots of the prefix memory. -/
def prefixSlots : Nat := 16384

/-- Does the entry match an address in its first LEN bits? -/
def PrefixEntry.matches (x : PrefixEntry) (a : Nat) : Bool := x.addr / 2 ^ (128 - x.len) == a / 2 ^ (128 - x.len)

/-- The lowest-numbered matching slot: the longest matching prefix (R350). -/
def State.longest (s : State) (a : Nat) : Option (Nat × PrefixEntry) := s.prefixes.find? fun p => p.2.matches a

/-- The slot of an exact prefix. -/
def State.exact (s : State) (a len : Nat) : Option (Nat × PrefixEntry) := s.prefixes.find? fun p => p.2.addr == a && p.2.len == len

/-- The slots between the last entry longer than L and the first entry shorter: the first of them and the first beyond them (R351). -/
def State.placeRange (s : State) (len : Nat) : Nat × Nat :=
  let lo := s.prefixes.foldl (fun a p => if len < p.2.len then p.1 + 1 else a) 0
  let hi := match s.prefixes.find? fun p => decide (p.2.len < len) with
    | some p => p.1
    | none => prefixSlots
  (lo, hi)

/-- A free slot from `a` up to `b`, the first of them. -/
def State.freeSlotUp (s : State) (a b : Nat) : Nat → Option Nat
  | 0 => none
  | fuel + 1 => if b ≤ a then none else if (mapGet s.prefixes a).isNone then some a else State.freeSlotUp s (a + 1) b fuel

/-- A free slot below `a`, the nearest. -/
def State.freeSlotDown (s : State) (a : Nat) : Nat → Option Nat
  | 0 => none
  | fuel + 1 => if a = 0 then none else if (mapGet s.prefixes (a - 1)).isNone then some (a - 1) else State.freeSlotDown s (a - 1) fuel

/-- Move a prefix entry: written into its new slot, then the old one is free (R351). -/
def State.movePrefix (s : State) (src dst : Nat) : State :=
  match mapGet s.prefixes src with
  | none => s
  | some x => { s with prefixes := mapErase (mapSet s.prefixes dst x) src }

/-- Bring the free slot `f` down to `t`: each length group between moves its first entry across the group.  Counts the moves. -/
def State.bringDown (s : State) (t f : Nat) : Nat → State × Nat
  | 0 => (s, 0)
  | fuel + 1 =>
    if f ≤ t then (s, 0)
    else match mapGet s.prefixes (f - 1) with
      | none => (s, 0)
      | some x =>
        let a := match s.prefixes.find? fun p => decide (t ≤ p.1) && p.2.len == x.len with
          | some p => p.1
          | none => f - 1
        let (s, n) := State.bringDown (s.movePrefix a f) t a fuel
        (s, n + 1)

/-- Bring the free slot `f` up to `t`: each group between moves its last entry across the group. -/
def State.bringUp (s : State) (t f : Nat) : Nat → State × Nat
  | 0 => (s, 0)
  | fuel + 1 =>
    if t ≤ f then (s, 0)
    else match mapGet s.prefixes (f + 1) with
      | none => (s, 0)
      | some x =>
        let a := s.prefixes.foldl (fun a p => if p.1 ≤ t && p.2.len == x.len then p.1 else a) (f + 1)
        let (s, n) := State.bringUp (s.movePrefix a f) t a fuel
        (s, n + 1)

/-- A free slot in the place of a length, after the moves it takes (R351): the state, the slot and the moves; none: every slot is in use. -/
def State.makeRoom (s : State) (len : Nat) : Option (State × Nat × Nat) :=
  let (lo, hi) := s.placeRange len
  let fuel := s.prefixes.length + 1
  match s.freeSlotUp lo hi fuel with
  | some f => some (s, f, 0)
  | none =>
    let up := s.freeSlotUp hi prefixSlots fuel
    let down := s.freeSlotDown lo fuel
    let goUp (f : Nat) : State × Nat × Nat := let (s, n) := s.bringDown hi f 130; (s, hi, n)
    let goDown (f : Nat) : State × Nat × Nat := let (s, n) := s.bringUp (lo - 1) f 130; (s, lo - 1, n)
    match up, down with
    | some f, some g => some (if f - hi ≤ lo - 1 - g then goUp f else goDown g)
    | some f, none => some (goUp f)
    | none, some g => some (goDown g)
    | none, none => none

/-- The order of R350: every entry lies at a lower slot than every entry with a shorter length. -/
def prefixOrder : List (Nat × PrefixEntry) → Bool
  | [] => true
  | [_] => true
  | a :: b :: r => decide (b.2.len ≤ a.2.len) && prefixOrder (b :: r)

/-- The staged prefix. -/
def State.stagedPrefix (s : State) : Nat := wordsNat ((List.range 4).map fun i => s.word (R.SIEVEP_KEY_WORD i).a)

/-- A next hop in force: MAC, FID, PORT (R353). -/
def State.nextHop (s : State) (n : Nat) : Nat × Nat × Nat :=
  (s.ap (R.SIEVEP_NH_LO_MAC n) + 2 ^ 32 * s.get (R.SIEVEP_NH_HI_MAC n), s.get (R.SIEVEP_NH_HI_FID n), s.get (R.SIEVEP_NH_HI_PORT n))

end Sys2Proof.Machine
end

