-- ==== Sys2Proof/Machine/Sieve.lean ====
section
/-! DEFINITION. Sieve: the table commands, forwarding, learning, ageing and routing (R336 to R356). -/

namespace Sys2Proof.Machine

/-! ## Layer-2 table commands (R354) -/

/-- The page of a layer-2 pipeline. -/
def l2Block (e : Fin 2) : Block := .sieve (if e = 0 then 0 else 1)

/-- The staged entry. -/
def State.stagedL2 (s : State) (e : Nat) : L2Entry :=
  BitVec.ofNat 128 (wordsNat ((List.range 4).map fun i => s.word (R.SIEVE_ENT_WORD e i).a)) &&& l2Mask

/-- The returned entry words. -/
def State.returnL2 (s : State) (e : Nat) (x : L2Entry) : State :=
  (List.range 4).foldl (fun s i => s.setWord (R.SIEVE_RENT_WORD e i).a (BitVec.ofNat 32 (natBits x.toNat (32 * i) 32))) s

/-- The key in the arguments: MAC and FID. -/
def State.argKey (s : State) (b : Block) : BitVec 48 × BitVec 12 :=
  (BitVec.ofNat 48 ((s.arg b 0).toNat + 2 ^ 32 * s.argBits b 1 0 16), BitVec.ofNat 12 (s.argBits b 1 16 12))

/-- L2_INSERT (R336, R354). -/
def execL2Insert (m : Master) (e : Fin 2) (tag : BitVec 8) (s : State) : Answer :=
  let b := l2Block e
  .next (s.onCommand m b tag fun s =>
    let x := (s.stagedL2 e.val).put L.VALID 1
    let mac := BitVec.ofNat 48 (x.get L.MAC)
    let fid := BitVec.ofNat 12 (x.get L.FID)
    if 10 ≤ x.get L.PORT ∧ x.get L.PORT ≤ 13 then s.done b .range
    else match s.l2Find e.val mac fid with
      | some (i, _) => s.complete b .state 0 (BitVec.ofNat 32 i) 0 0
      | none => match s.l2Free e.val mac fid with
        | none => s.done b .full
        | some i => (s.l2Write e.val i x).complete b .ok 0 (BitVec.ofNat 32 i) 0 0)

/-- L2_DELETE (R354). -/
def execL2Delete (m : Master) (e : Fin 2) (tag : BitVec 8) (s : State) : Answer :=
  let b := l2Block e
  .next (s.onCommand m b tag fun s =>
    let k := s.argKey b
    match s.l2Find e.val k.1 k.2 with
    | none => s.done b .notFound
    | some (i, _) => (s.l2Remove e.val i).done b .ok)

/-- L2_LOOKUP (R354). -/
def execL2Lookup (m : Master) (e : Fin 2) (tag : BitVec 8) (s : State) : Answer :=
  let b := l2Block e
  .next (s.onCommand m b tag fun s =>
    let k := s.argKey b
    match s.l2Find e.val k.1 k.2 with
    | none => s.done b .notFound
    | some (i, x) => (s.returnL2 e.val x).complete b .ok 0 (BitVec.ofNat 32 i) 0 0)

/-- L2_UPDATE (R354): the staged entry's key must equal the key in the arguments. -/
def execL2Update (m : Master) (e : Fin 2) (tag : BitVec 8) (s : State) : Answer :=
  let b := l2Block e
  .next (s.onCommand m b tag fun s =>
    let k := s.argKey b
    let x := (s.stagedL2 e.val).put L.VALID 1
    if x.get L.MAC ≠ k.1.toNat ∨ x.get L.FID ≠ k.2.toNat ∨ (10 ≤ x.get L.PORT ∧ x.get L.PORT ≤ 13) then s.done b .range
    else match s.l2Find e.val k.1 k.2 with
      | none => s.done b .notFound
      | some (i, _) => (s.l2Write e.val i x).done b .ok)

/-- L2_SEARCH (R354): word ARG0 under mask ARG1 equal to ARG2, from index ARG3; PROGRESS counts buckets. -/
def execL2Search (m : Master) (e : Fin 2) (tag : BitVec 8) (unpaced : Bool) (s : State) : Answer :=
  let b := l2Block e
  .next (s.onCommand m b tag fun s =>
    let w := (s.arg b 0).toNat
    let start := (s.arg b 3).toNat
    if 4 ≤ w then s.done b .range
    else
      let hits := (s.pipe e.val).table.filter fun p =>
        decide (start ≤ p.1) && BitVec.ofNat 32 (natBits p.2.toNat (32 * w) 32) &&& s.arg b 1 == s.arg b 2
      let rows := hits.map fun p => BitVec.ofNat 32 (p.1 / 4 + 1 - start / 4) :: natWords 4 p.2.toNat
      s.startLong b 32 (s.mkRun b opSearch m tag unpaced) rows [16384 - start / 4, 0, hits.length, 0, 0])

/-- L2_NEXT (R354). -/
def execL2Next (m : Master) (e : Fin 2) (tag : BitVec 8) (s : State) : Answer :=
  let b := l2Block e
  .next (s.onCommand m b tag fun s =>
    match (s.pipe e.val).table.find? fun p => decide ((s.arg b 0).toNat ≤ p.1) with
    | none => s.done b .notFound
    | some (i, x) => (s.returnL2 e.val x).complete b .ok 0 (BitVec.ofNat 32 i) 0 0)

/-- Does FLUSH_PORT for port p remove the entry (R346)? -/
def flushed (p : Nat) (static : Bool) (x : L2Entry) : Bool := x.get L.PORT == p && (static || !x.on L.STATIC)

/-- The report of a removed entry (R346). -/
def flushReport (x : L2Entry) : List W32 :=
  natWords 2 (x.get L.MAC + 2 ^ 48 * x.get L.FID + 2 ^ 60 * x.get L.STATIC + 2 ^ 61 * x.get L.PINNED + 2 ^ 62 * x.get L.TAUGHT)

/-- Go on with a reporting flush: the rows are bucket progress and index; each chunk removes the entries it reports. -/
def State.flushPump (e : Fin 2) : Nat → State → State
  | 0, s => s
  | fuel + 1, s =>
    let b := l2Block e
    match (s.blk b).run with
    | none => s
    | some r =>
      if r.rows.isEmpty then
        (s.put (R.H_STATUS_PROGRESS b.base) 16384).complete b .ok 0 (BitVec.ofNat 32 (nth r.data 2 0)) 0 0
      else if s.pacing b then s
      else
        let p := bitsGet 0 4 (r.arg 0)
        let st := natBit (r.arg 1).toNat 0
        let hits := (r.rows.take 32).filterMap fun w => match mapGet (s.pipe e.val).table (w.getD 1 0).toNat with
          | some x => if flushed p st x then some ((w.getD 1 0).toNat, w.getD 0 0 :: flushReport x) else none
          | none => none
        let rest := r.rows.drop 32
        let s := hits.foldl (fun s h => s.l2Remove e.val h.1) s
        let r := { r with data := r.data.set 2 (nth r.data 2 0 + hits.length) }
        if hits.isEmpty then State.flushPump e fuel (s.startRun b { r with rows := rest })
        else State.flushPump e fuel ((s.publish b 32 { r with rows := hits.map (·.2) }).setBlk b fun x =>
          { x with run := x.run.map fun q => { q with rows := rest } })

/-- FLUSH_PORT (R346, R347). -/
def execFlushPort (m : Master) (e : Fin 2) (tag : BitVec 8) (unpaced : Bool) (s : State) : Answer :=
  let b := l2Block e
  .next (s.onCommand m b tag fun s =>
    let p := s.argBits b 0 0 4
    let st := natBit (s.arg b 1).toNat 0
    let hits := (s.pipe e.val).table.filter fun x => flushed p st x.2
    let r := s.mkRun b opFlushPort m tag unpaced
    if natBit (s.arg b 1).toNat 1 then
      let rows := hits.map fun x => [BitVec.ofNat 32 (x.1 / 4 + 1), BitVec.ofNat 32 x.1]
      State.flushPump e (rows.length + 2) (s.startRun b { r with rows := rows, data := [16384, 0, 0, 0, 0] })
    else
      let s := hits.foldl (fun s x => s.l2Remove e.val x.1) s
      (s.put (R.H_STATUS_PROGRESS b.base) 16384).complete b .ok 0 (BitVec.ofNat 32 hits.length) 0 0)

/-! ## Prefix commands (R349 to R354) -/

/-- Are the staged prefix and the length a prefix: no 1 below the length (R349)? -/
def prefixOk (a len : Nat) : Bool := decide (len ≤ 128) && a % 2 ^ (128 - len) == 0

/-- PREFIX_INSERT (R351, R354). -/
def execPrefixInsert (m : Master) (tag : BitVec 8) (s : State) : Answer :=
  let b : Block := .sieve 2
  .next (s.onCommand m b tag fun s =>
    let a := s.stagedPrefix
    let len := s.argBits b 0 0 8
    if !prefixOk a len then s.done b .range
    else if (s.exact a len).isSome then s.done b .state
    else match s.makeRoom len with
      | none => (s.evt b E.SIEVEP_FULL).done b .full
      | some (s, slot, moves) =>
        let s := { s with prefixes := mapSet s.prefixes slot ⟨a, len, s.argBits b 0 8 8⟩ }
        let s := (s.bumpSat R.SIEVEP_SHIFT_CNT_COUNT moves).put (R.H_STATUS_PROGRESS b.base) moves
        s.complete b .ok 0 (BitVec.ofNat 32 slot) (BitVec.ofNat 32 moves) 0)

/-- PREFIX_DELETE (R354). -/
def execPrefixDelete (m : Master) (tag : BitVec 8) (s : State) : Answer :=
  let b : Block := .sieve 2
  .next (s.onCommand m b tag fun s =>
    match s.exact s.stagedPrefix (s.argBits b 0 0 8) with
    | none => s.done b .notFound
    | some (i, _) => ({ s with prefixes := mapErase s.prefixes i }).done b .ok)

/-- PREFIX_LOOKUP (R354). -/
def execPrefixLookup (m : Master) (tag : BitVec 8) (s : State) : Answer :=
  let b : Block := .sieve 2
  .next (s.onCommand m b tag fun s =>
    let a := s.stagedPrefix
    match (if natBit (s.arg b 0).toNat 8 then s.longest a else s.exact a (s.argBits b 0 0 8)) with
    | none => s.done b .notFound
    | some (i, x) => s.complete b .ok 0 (BitVec.ofNat 32 i) (BitVec.ofNat 32 (x.len + 256 * x.nh)) 0)

/-- PREFIX_UPDATE (R354). -/
def execPrefixUpdate (m : Master) (tag : BitVec 8) (s : State) : Answer :=
  let b : Block := .sieve 2
  .next (s.onCommand m b tag fun s =>
    match s.exact s.stagedPrefix (s.argBits b 0 0 8) with
    | none => s.done b .notFound
    | some (i, x) => ({ s with prefixes := mapSet s.prefixes i { x with nh := s.argBits b 0 8 8 } }).done b .ok)

/-- PREFIX_SEARCH (R354): PROGRESS counts units of 16 slots. -/
def execPrefixSearch (m : Master) (tag : BitVec 8) (unpaced : Bool) (s : State) : Answer :=
  let b : Block := .sieve 2
  .next (s.onCommand m b tag fun s =>
    let hits := s.prefixes.filter fun p => p.2.nh == s.argBits b 0 0 8
    let rows := hits.map fun p => [BitVec.ofNat 32 (p.1 / 16 + 1), BitVec.ofNat 32 p.1]
    s.startLong b 32 (s.mkRun b opSearch m tag unpaced) rows [1024, 0, hits.length, 0, 0])

/-- PREFIX_NEXT (R354). -/
def execPrefixNext (m : Master) (tag : BitVec 8) (s : State) : Answer :=
  let b : Block := .sieve 2
  .next (s.onCommand m b tag fun s =>
    match s.prefixes.find? fun p => decide ((s.arg b 0).toNat ≤ p.1) with
    | none => s.done b .notFound
    | some (i, x) => s.complete b .ok 0 (BitVec.ofNat 32 i) (BitVec.ofNat 32 (x.len + 256 * x.nh)) 0)

/-- PREFIX_FLUSH_PORT (R354). -/
def execPrefixFlushPort (m : Master) (tag : BitVec 8) (s : State) : Answer :=
  let b : Block := .sieve 2
  .next (s.onCommand m b tag fun s =>
    let p := s.argBits b 0 0 4
    let hits := (List.range 256).filter fun n => s.get (R.SIEVEP_NH_HI_PORT n) == p
    (hits.foldl (fun s n => s.put (R.SIEVEP_NH_HI_PORT n) 15) s).complete b .ok 0 (BitVec.ofNat 32 hits.length) 0 0)

/-- PREFIX_SPARE_MOVE (R352): while no command runs, the engine moves the entry of a slot into a free slot; the order of R350 holds
before and after.  Which entry the engine moves next is its own (log entry 33). -/
def execPrefixSpareMove (src dst : BitVec 14) (s : State) : Answer :=
  let b : Block := .sieve 2
  if !s.powered b || s.fenced b || s.busy b || (mapGet s.prefixes src.toNat).isNone || (mapGet s.prefixes dst.toNat).isSome
      || !prefixOrder (s.movePrefix src.toNat dst.toNat).prefixes then .next s
  else .next ((s.movePrefix src.toNat dst.toNat).bumpSat R.SIEVEP_SHIFT_CNT_COUNT 1)

/-- NEXT_HOP_HI_WRITE (R353): the high word and the pending low word take effect together. -/
def execNextHopHiWrite (m : Master) (n : BitVec 8) (v : W32) (s : State) : Answer :=
  match s.busWrite m (R.SIEVEP_NH_HI_MAC n.toNat).a true v with
  | (s, .applied ..) => .next { s with applied := mapErase s.applied (R.SIEVEP_NH_LO_MAC n.toNat).a }
  | (s, _) => .next s

/-! ## Forwarding (R338, R340, R343, R348, R356, R375, R439) -/

/-- Sieve drops a frame: its cells are free, and Crust still checks it to its end. -/
def State.sieveDrop (s : State) (b : Block) (c : Cause) (i : Nat) (f : Frame) : State :=
  let s := (s.dropPacket b c f.len f.port f.owner 0).freeFrame .drop i
  (s.setFrame i fun f => { f with stage := .forwarded }).settle i

/-- Can the frame be handed to the transmit queue of a port: if not, under which cause is this copy dropped? -/
def State.handCause (s : State) (q : Nat) : Option Cause :=
  if !s.powered (portBlock q) || !s.powered (dpBlock (dpOf q)) then some .power
  else if !s.credit q then some .nocredit
  else none

/-- Hand a frame to transmit queues and to the host: a copy that cannot be handed over is dropped with a record; if none can, the
pipeline drops the frame.  A frame with one egress passes its cells to the transmit group, a host's frame to that of its first egress
(R432). -/
def State.handOver (s : State) (b : Block) (i : Nat) (f : Frame) (qs : List Nat) (host : Bool) : State :=
  let ok := qs.filter fun q => (s.handCause q).isNone
  let bad := qs.filter fun q => (s.handCause q).isSome
  match ok, bad with
  | [], q :: _ =>
    if host then
      let s := bad.foldl (fun s q => s.dropRecord b ((s.handCause q).getD .power) f.len f.port f.owner 0) s
      (s.ledOut b 1).setFrame i fun f => { f with stage := .forwarded, toHost := true }
    else s.sieveDrop b ((s.handCause q).getD .power) i f
  | [], [] =>
    if host then (s.ledOut b 1).setFrame i fun f => { f with stage := .forwarded, toHost := true }
    else s.sieveDrop b .filter i f
  | _, _ =>
    let s := bad.foldl (fun s q => s.dropRecord b ((s.handCause q).getD .power) f.len f.port f.owner 0) s
    let s := s.ledOut b 1
    let live := ok.filter fun q => !s.groupFenced (txGroup q)
    let caught := ok.filter fun q => s.groupFenced (txGroup q)
    let s := caught.foldl (fun s q => (s.sink (dpBlock (dpOf q))).dropRecord (dpBlock (dpOf q)) .fenced f.len f.port (txGroup q) 0) s
    let s := if live.isEmpty && !host then (s.sinkCells f.cells).setFrame i fun f => { f with cells := [] }
      else match live with
        | q :: _ => if 10 ≤ f.port ∨ (live.length = 1 ∧ !host) then s.handCells f.cells (txGroup q) else s
        | [] => s
    let s := live.foldl (fun s q => s.spend q) s
    (s.setFrame i fun f => { f with stage := .forwarded, toHost := host, egress := live.map fun q => { port := q } }).settle i

/-- The result of routing a frame (R348). -/
inductive Route where
  | host
  | drop (c : Cause)
  | out (mac fid port : Nat)
  deriving DecidableEq, Repr

/-- Look up a routed frame in the prefix memory. -/
def State.route (s : State) (dst : BitVec 128) (hop : Nat) : State × Route :=
  let b : Block := .sieve 2
  if hop ≤ 1 then (s.bumpSat R.SIEVEP_HOST_CNT_COUNT 1, .host)
  else match s.longest dst.toNat with
    | none =>
      let s := s.bumpSat R.SIEVEP_MISS_CNT_COUNT 1
      if s.apOn R.SIEVEP_CFG_MISS_HOST then (s, .host) else (s, .drop .noroute)
    | some (_, x) =>
      let (mac, fid, port) := s.nextHop x.nh
      if port = 15 then (s.evt b E.SIEVEP_NOHOP, .drop .nohop) else if port = 14 then (s, .host) else (s, .out mac fid port)

/-- The flood set of an arrival port: port numbers, and whether the host is in it (R338).  For a frame without arrival port, which the
host sent into a lookup, the spec names none: a free value (log entry 34). -/
def State.floodSet (s : State) (e p : Nat) : State × List Nat × Bool :=
  if p < 10 then
    let v := s.ap (R.SIEVE_FLOOD_PORTS e p)
    (s, (List.range 10).filter fun q => natBit v q && q != p, natBit v 10)
  else
    let (v, s) := s.draw
    (s, (List.range 10).filter (natBit v), natBit v 10)

/-- SIEVE_FRAME_LOOKUP: the pipeline looks up the header of frame i. -/
def execSieveFrameLookup (i : Nat) (s : State) : Answer :=
  match mapGet s.frames i with
  | none => .next s
  | some f =>
    if f.stage ≠ .checked then .next s
    else
      let s := if f.port < 10 then s else s.ledOut .host 1
      let e := if f.port < 10 then servedBy f.port else f.pipe
      let b := pipeBlock e
      if !s.powered b then
        .next (((s.dropRecord (portBlock f.port) .power f.len f.port f.owner 0).setFrame i fun f => { f with stage := .forwarded }).settle i)
      else if s.fenced b then
        .next ((((s.sink b).dropRecord b .fenced f.len f.port f.owner 0).sinkCells f.cells
          |>.setFrame i fun f => { f with stage := .forwarded, cells := [] }).settle i)
      else
        let s := s.ledIn b 1
        let x := f.x
        let fid := x.vid.getD 0
        let pinned := s.on (R.SIEVE_L2_CFG_PIN_DROP e) && (match s.l2Find e x.sa fid with
          | some (_, y) => y.on L.PINNED && y.get L.PORT != f.port
          | none => false)
        let s := s.setFrame i fun f => { f with learn := if f.port < 10 then some (x.sa, fid) else none }
        if f.hostOnly then .next (s.handOver b i f [] true)
        else if pinned then .next (s.sieveDrop b .pin i f)
        else if f.port < 10 ∧ s.isPtp f.port x ∧ (x.da = 0x011B19000000 ∨ x.da = 0x0180C200000E ∨ x.da.toNat = s.rmac) then
          .next ((s.setFrame i fun f => { f with ctl := true }).handOver b i f [] true)
        else match (if s.apPrefix R.SIEVEP_CFG_EN == 1 && x.da.toNat == s.rmac && x.etherType == 0x86DD then x.v6 else none) with
          | some (dst, hop) =>
            if !s.powered (.sieve 2) then .next (s.sieveDrop b .power i f)
            else if s.fenced (.sieve 2) then
              .next ((((s.ledOut b 1).sink (.sieve 2)).sinkCells f.cells
                |>.setFrame i fun f => { f with stage := .forwarded, cells := [] }).settle i)
            else
              let (s, r) := (s.ledIn (.sieve 2) 1).route dst hop.toNat
              (match r with
              | .host => .next ((s.ledOut (.sieve 2) 1).handOver b i f [] true)
              | .drop c => .next ((s.ledOut b 1).sieveDrop (.sieve 2) c i f)
              | .out mac vid port =>
                let grow := if x.vid.isNone ∧ vid ≠ 0 then 4 else 0
                let x' := { x with
                  da := BitVec.ofNat 48 mac, sa := BitVec.ofNat 48 s.rmac
                  vid := if x.vid.isNone ∧ vid = 0 then none else some (BitVec.ofNat 12 vid)
                  v6 := some (dst, hop - 1) }
                let f' := { f with x := x', len := f.len + grow }
                let s := s.setFrame i fun f => { f with x := x', len := f.len + grow }
                .next ((s.ledOut (.sieve 2) 1).handOver b i f' [port] false))
          | none =>
            match (if isGroup x.da then none else s.l2Find e x.da fid) with
            | some (k, y) =>
              let s := if y.on L.TAUGHT then s.l2Write e k (y.put L.AGE 0) else s
              let q := y.get L.PORT
              if q = f.port then .next (s.sieveDrop b .filter i f)
              else if q = 15 then .next (s.sieveDrop b .discard i f)
              else if q = 14 then .next (s.handOver b i f [] true)
              else .next (s.handOver b i f [q] false)
            | none =>
              let s := if isGroup x.da then s else s.bumpSat (R.SIEVE_FLOOD_CNT_COUNT e) 1
              let (s, qs, host) := s.floodSet e f.port
              .next (s.handOver b i f qs host)

/-- LEARN_COMMIT (R339): at the end of frame i, if it ended without error and, on a protected port, its ICV verified. -/
def execLearnCommit (i : Nat) (s : State) : Answer :=
  match mapGet s.frames i with
  | none => .next s
  | some f =>
    match f.learn with
    | none => .next s
    | some (sa, fid) =>
      if f.icv = .pending then .next s
      else
        let e := servedBy f.port
        let ok := !f.errored && (f.icv == .good || (f.icv == .none && !f.prot))
        let s := if ok && s.powered (pipeBlock e) && !s.fenced (pipeBlock e) && s.on (R.SIEVE_L2_CFG_LEARN e) && !isGroup sa then
            s.learn e sa fid f.port
          else s
        .next ((s.setFrame i fun f => { f with learn := none }).settle i)

/-- AGE_SWEEP (R343, R344). -/
def execAgeSweep (e : Fin 2) (s : State) : Answer :=
  if !s.powered (l2Block e) || s.get (R.SIEVE_L2_CFG_AGE e.val) = 0 then .next s
  else .next ((s.pipe e.val).table.foldl (fun s p =>
    if p.2.on L.STATIC || p.2.on L.PINNED then s
    else
      let age := p.2.get L.AGE + 1
      if 4 ≤ age then (s.l2Remove e.val p.1).notice e.val p.2 3 (p.2.get L.PORT) else s.l2Write e.val p.1 (p.2.put L.AGE age)) s)

/-- PIN_RELEASE (R341): PIN_HOLD seconds after PIN_T. -/
def execPinRelease (e : Fin 2) (idx : BitVec 16) (s : State) : Answer :=
  match mapGet (s.pipe e.val).table idx.toNat with
  | none => .next s
  | some x =>
    if !s.powered (l2Block e) || !x.on L.PINNED || s.get (R.SIEVE_PIN_HOLD_S e.val) = 0 then .next s
    else .next (s.l2Write e.val idx.toNat ((x.put L.PINNED 0).put L.MOVES 0))

/-- SIEVE_LFIFO_POP (R344, R358): the word read goes to the bus, the other two to the master's own registers. -/
def execSieveLfifoPop (m : Master) (e : Fin 2) (s : State) : Answer :=
  if !s.reaches m (l2Block e) then .next { s with busData := 0 }
  else
    let own (s : State) (f : Fld) (x : Nat) : State := s.put (ownCopy m f) x
    match (s.pipe e.val).lfifo with
    | [] => .next { (own s (R.SIEVE_LFIFO_W2_VALID e.val) 0) with busData := 0 }
    | n :: r =>
      let s := s.setPipe e.val fun p => { p with lfifo := r }
      let s := own (own (own s (R.SIEVE_LFIFO_W1_MAC e.val) (n.mac / 2 ^ 32)) (R.SIEVE_LFIFO_W1_FID e.val) n.fid) (R.SIEVE_LFIFO_W1_PORT e.val) n.port
      let s := own (own (own s (R.SIEVE_LFIFO_W2_KIND e.val) n.kind) (R.SIEVE_LFIFO_W2_OLD_PORT e.val) n.old) (R.SIEVE_LFIFO_W2_VALID e.val) 1
      .next { s with busData := BitVec.ofNat 32 n.mac }

end Sys2Proof.Machine
end

