-- ==== Sys2Proof/Machine/PageOps.lean ====
section
/-! DEFINITION. Operations on pages that several families share: ledger snapshots (R89, R387, R451), going on with a long operation after
a chunk (R74), cells that no one holds any more. -/

namespace Sys2Proof.Machine

/-- Set a 64-bit word pair at a BAR0 address. -/
def State.setPair (s : State) (a x : Nat) : State := (s.setWord a (BitVec.ofNat 32 x)).setWord (a + 4) (BitVec.ofNat 32 (x / 2 ^ 32))

/-- LEDGER_SNAPSHOT's effect: the counts of a block at one instant (R89), with the statistics of a port (R387). -/
def State.snapshot (s : State) (b : Block) : State :=
  let l := (s.blk b).led
  let a := b.base
  let s := ((((s.setPair (a + 0x80) l.inn.toNat).setPair (a + 0x88) l.out.toNat).setPair (a + 0x90) l.drop.toNat).setPair (a + 0x98)
    l.held.toNat).setPair (a + 0xA0) l.fenced.toNat
  let s := (s.bump (R.H_LED_SNAP_SEQ a) 1).put (R.H_LED_SNAP_NS_NS a) s.short
  match b with
  | .port p => (List.range 20).foldl (fun s i => s.setPair (a + 0x400 + 8 * i) (mapGetD (s.port p.val).stats i 0)) s
  | _ => s

/-- Entries of a chunk of a block's partial-result window: 32 everywhere. -/
def chunkSize : Nat := 32

/-- Rows a running operation has still to report, as a bound on the chunks to come. -/
def State.rowsLeft (s : State) (b : Block) : Nat := match (s.blk b).run with
  | some r => r.rows.length + 2
  | none => 0

/-- Go on with the block's long operation; a census that completes with differences sets CENSUS_BAD (R454, R459). -/
def State.goOn (s : State) (b : Block) : State :=
  let n := s.rowsLeft b
  match b with
  | .sieve e =>
    if s.runOp b = some opFlushPort ∧ e.val < 2 then State.flushPump (if e.val = 0 then 0 else 1) n s else State.pump b chunkSize n s
  | .rack =>
    let t := State.pump b chunkSize n s
    t.evtIf (s.runOp b == some 1 && t.runOp b == none && (t.word (Block.rack.base + 0x28)) != 0) .rack E.RACK_CENSUS_BAD
  | _ => State.pump b chunkSize n s

/-- Free every cell of an owner as FENCED; answers how many, and how many had SOP set. -/
def State.reclaim (s : State) (owner : Nat) : State × Nat × Nat :=
  let cs := s.cellsOfOwner owner true
  let (s, n, sops) := s.freeOwner owner true
  (s.forgetCells cs, n, sops)

end Sys2Proof.Machine
end

