-- ==== Sys2Proof/Machine/ProofOps.lean ====
section
/-! DEFINITION. Proofer's register, logbook and legal time (R517 to R526). -/

namespace Sys2Proof.Machine

/-- Change Proofer. -/
def State.setProof (s : State) (f : ProofSt → ProofSt) : State := { s with proof := f s.proof }

/-- Does Proofer's core run? -/
def State.prooferRuns (s : State) : Bool := s.pdOn 2 && s.proof.runs

/-- Legal time of an instant in linear ns: seconds, nanoseconds, UTC_UNKNOWN (R517). -/
def State.legalTime (s : State) (ns : Nat) : Nat × Nat × Bool :=
  let off := if s.on R.TB_UTC_VALID then toSigned 16 (s.get R.TB_UTC_OFFSET) else 0
  ((((ns / 10 ^ 9 : Nat) : Int) - off).toNat % 2 ^ 48, ns % 10 ^ 9, !s.on R.TB_UTC_VALID)

/-- The 24 octets that chain an entry to the one before (R518, R524). -/
def prevOf (x : Option (List Nat)) : List Nat := match x with
  | some l => (sha384 l).take 24
  | none => List.replicate 24 0

/-! ## The logbook (R524 to R526) -/

/-- Entries the classes 1 and 2 may fill, and entries in all (R525). -/
def logRoom : Nat := 16320
def logSize : Nat := 16384

/-- Is the logbook too full for changes? -/
def State.logFull (s : State) : Bool := decide (logRoom ≤ s.proof.log.length)

/-- Write a logbook entry with 10 octets of time; `counts`: the seal counter advances. -/
def State.writeEntry (s : State) (cls : Nat) (time detail : List Nat) (counts : Bool) : State :=
  if logSize ≤ s.proof.log.length then s.setProof fun p => { p with lost := p.lost + 1 }
  else
    let n := s.proof.log.length + 1
    let e := leList 4 n ++ [cls, 0, 0, 0] ++ time ++ [0, 0] ++ (detail ++ List.replicate (20 - detail.length) 0)
      ++ prevOf (mapGet s.proof.log (n - 1))
    let s := s.setProof fun p => { p with
      log := mapSet p.log n e, sealCnt := if counts then (p.sealCnt + 1) % 2 ^ 32 else p.sealCnt }
    if n = logRoom then (s.put R.PROOF_STATE_LOG_FULL 1).evt .proof E.PROOF_LOG_FULL else s

/-- Note an event in the logbook, if Proofer runs: under a power-fail warning no MRAM write begins, and the entry waits (R93). -/
def State.logEntry (s : State) (cls : Nat) (time detail : List Nat) (counts : Bool) : State :=
  if !s.prooferRuns then s
  else if s.pfWarn then s.setProof fun p => { p with logWait := p.logWait ++ [(cls, time, detail)] }
  else s.writeEntry cls time detail counts

/-- An entry with the legal time of now. -/
def State.logNow (s : State) (cls : Nat) (detail : List Nat) (counts : Bool) : State :=
  let (sec, ns, _) := s.legalTime s.lin
  s.logEntry cls (leList 6 sec ++ leList 4 ns) detail counts

/-- The time correction of a step, SET_TIME or slew, or a change of TB_UTC: kind and signed offset in ns (R524). -/
def State.logCorrection (s : State) (kind : Nat) (offset : Int) : State :=
  if kind = 3 ∨ s.proof.tcorr * 10 ^ 6 ≤ offset.natAbs then s.logNow 4 (kind :: leList 8 (ofSigned 64 offset)) false else s

/-! ## The register of readings (R518 to R523) -/

/-- Slots of the register, and records the publication buffer holds. -/
def registerSize : Nat := 131072
def pubSize : Nat := 256

/-- The record of a SEQ, if the register still holds it. -/
def State.record (s : State) (seq : Nat) : Option (List Nat) :=
  match mapGet s.proof.records (seq % registerSize) with
  | some r => if leNum (r.take 4) = seq then some r else none
  | none => none

/-- Append a record: octets 4 to 39 as given; it is chained, published, and the head names it (R518, R519). -/
def State.appendRecord (s : State) (body : List Nat) : State :=
  let seq := s.proof.head + 1
  let r := leList 4 seq ++ body ++ prevOf (s.record s.proof.head)
  let s := s.setProof fun p => { p with
    records := mapSet p.records (seq % registerSize) r, head := seq, pub := (seq :: p.pub).take pubSize }
  s.evt .proof E.PROOF_PUB_NEW

/-- Append the close of a class fired at an instant (R518, R521). -/
def State.appendClose (s : State) (cls : Nat) (fire : Lin) (hold : Bool) : State :=
  let (sec, ns, unknown) := s.legalTime (fire.toNat / 2 ^ 40)
  let n := mapGetD s.proof.closes cls 0 + 1
  let count := mapGetD s.proof.readings cls 0
  let flags := 2 + (if hold then 16 else 0) + (if unknown then 64 else 0)
  let s := s.setProof fun p => { p with closes := mapSet p.closes cls n, readings := mapSet p.readings cls 0 }
  s.appendRecord ([flags, cls, 0, 0] ++ leList 8 0 ++ leList 4 n ++ leList 8 (count % 2 ^ 32) ++ leList 6 sec ++ leList 4 ns ++ [0, 0])

/-- A close line rises for a class: appended, or latched while Proofer does not append (R521, R523). -/
def State.closeLine (s : State) (cls : Nat) : State :=
  if !s.prooferRuns || !natBit s.proof.classEn cls then s
  else if s.proof.act.isNone && !s.pfWarn then s.appendClose cls s.tb.L (s.tbMode == 3)
  else if s.proof.waiting.any fun x => x.1 == cls then s.logNow 7 [cls] false
  else s.setProof fun p => { p with waiting := p.waiting ++ [(cls, s.tb.L, s.tbMode == 3)] }

/-- Pending closes are appended in the order in which they fired (R523). -/
def State.flushCloses (s : State) : State :=
  let w := s.proof.waiting
  let s := s.setProof fun p => { p with waiting := [] }
  w.foldl (fun s x => s.appendClose x.1 x.2.1 x.2.2) s

/-- Appending resumes after an activation (R523, R528). -/
def State.resumeProof (s : State) : State :=
  let s := s.setProof fun p => { p with act := none }
  ((s.put R.PROOF_STATE_PAUSED 0).evt .proof E.PROOF_RESUMED).flushCloses

/-- A power-fail warning has ended: entries that waited are written, and closes, unless an activation still holds them (R93, R95). -/
def State.proofResumed (s : State) : State :=
  let w := s.proof.logWait
  let s := s.setProof fun p => { p with logWait := [] }
  let s := w.foldl (fun s x => s.writeEntry x.1 x.2.1 x.2.2 false) s
  if s.prooferRuns && s.proof.act.isNone then s.flushCloses else s

/-- Proofer starts (R508, R524): nothing of its private memory is left; START is logged. -/
def State.startProofer (s : State) (cause : Nat) : State :=
  let s := s.setProof fun p => { p with
    runs := true, queue := [], pub := [], selected := [], waiting := [], logWait := [], act := none, response := [] }
  let s := s.putB R.PROOF_STATE_LOG_FULL s.logFull
  s.logNow 6 [cause] false

end Sys2Proof.Machine
end

