-- ==== Sys2Proof/Machine/Radio.lean ====
section
/-! DEFINITION. The commands of the radio chains (R146 to R182). -/

namespace Sys2Proof.Machine

/-! ## Tuning (R148 to R152) -/

/-- CENTRE_WRITE (R151): an accepted write waits for its retune. -/
def execCentreWrite (m : Master) (n : Fin 4) (v : BitVec 32) (s : State) : Answer :=
  match s.busWrite m (R.RF_CENTRE_KHZ n.val).a true v with
  | (s, .applied ..) => .next ((s.put (R.RF_STATE_RETUNE_PEND n.val) 1).setChain n.val fun c => { c with retuneOver := false })
  | (s, _) => .next s

/-- RETUNE_START (R151): in RX, with no context whose header is validated. -/
def execRetuneStart (n : Fin 4) (s : State) : Answer :=
  if s.rfState n.val == rfRx && s.on (R.RF_STATE_RETUNE_PEND n.val) && (!s.confirmedRx n.val || (s.chain n.val).retuneOver) then
    .next (s.beginSettle n.val .slice (s.get (R.RF_CENTRE_KHZ n.val)))
  else .next s

/-- RETUNE_WAIT_TIMEOUT (R151): 20 ms after the write the chain no longer waits for its contexts. -/
def execRetuneWaitTimeout (n : Fin 4) (s : State) : Answer :=
  if !s.on (R.RF_STATE_RETUNE_PEND n.val) || !s.rfPowered n.val then .next s
  else
    let s := s.setChain n.val fun c => { c with retuneOver := true }
    if s.rfState n.val = rfRx then .next (s.beginSettle n.val .slice (s.get (R.RF_CENTRE_KHZ n.val))) else .next s

/-- CHAIN_ENABLE_WRITE (R152). -/
def execChainEnableWrite (m : Master) (n : Fin 4) (v : BitVec 32) (s : State) : Answer :=
  match s.busWrite m (R.RF_CTL_EN n.val).a true v with
  | (s, .applied ..) => .next (if s.on (R.RF_CTL_EN n.val) then s.chainStart n.val else s.toOff n.val false)
  | (s, _) => .next s

/-- Lock is declared (R149, R152, R178), `ticks` × 25 ns after the retune write. -/
def State.synthLock (s : State) (n ticks : Nat) : State :=
  if s.rfState n ≠ rfSettle ∨ s.on (R.RF_STATE_LOCKED n) then s
  else
    let c := s.chain n
    let s := (s.put (R.RF_STATE_LOCKED n) 1).put (R.RF_SYN_STAT_LAST n) (min ticks 65535)
    let s := s.put (R.RF_STATE_BAND n) (if n = 3 then 4 else bandOf c.loKhz)
    let s := s.setChain n fun c => { c with oscE := if s.get R.RF0_OSC_MODE = 1 then toSigned 32 (s.get R.RF0_OSC_ERR_PPM) else 0 }
    match c.settle with
    | some .fromOff => s.startCal n [0, 1, 2] false false
    | some .forJob => s.tuneBack n
    | some .slice =>
      let s := s.evt (rfBlock n) E.RF_RETUNED
      let s := if c.loKhz = s.get (R.RF_CENTRE_KHZ n) then
        (s.put (R.RF_STATE_RETUNE_PEND n) 0).setChain n fun c => { c with retuneOver := false } else s
      s.enterRx n
    | _ => (s.put (R.RF_STATE_OUT_OF_SLICE n) 0).enterRx n

/-- SYNTH_LOCK (R149, R152, R178). -/
def execSynthLock (n : Fin 4) (ticks : Nat) (s : State) : Answer := .next (s.synthLock n.val ticks)

/-- LOCK_TIMEOUT (R150): once more, then OFF with FAULT. -/
def execLockTimeout (n : Fin 4) (s : State) : Answer :=
  if s.rfState n.val ≠ rfSettle ∨ s.on (R.RF_STATE_LOCKED n.val) then .next s
  else
    let s := (s.bumpSat (R.RF_SYN_STAT_FAILS n.val) 1).evt (.rf n) E.RF_LOCK_FAIL
    if (s.chain n.val).secondTry then
      .next (((s.put (R.RF_STATE_FAULT n.val) 1).evt (.rf n) E.RF_CHAIN_FAULT).toOff n.val false)
    else .next (s.setChain n.val fun c => { c with secondTry := true, lockStart := s.lin })

/-! ## Transmit jobs (R157 to R171) -/

/-- Is a Crumb job's map valid (R226, R232)? -/
def State.crumbJobOk (s : State) (it : Item) : Bool :=
  it.jobRate != 15 || (match s.node it.flow with
    | some e => decide (it.flow < 262144) && mapValid (it.jobPtype - 4) (e.get N.MAP)
    | none => false)

/-- The earliest instant from which a job that reaches the chain now could be scheduled: the end of a wait on calibration (R161, R169,
R170), or now. -/
def State.waitEnd (s : State) (n : Nat) : Nat :=
  let c := s.chain n
  if s.rfState n ≠ rfCal then s.lin
  else match c.restore, c.cal with
    | some (t, _), _ => max t s.lin
    | none, some r =>
      match r.next s.lin with
      | some p => p.1 + p.2.1
      | none => r.start + calLength r.kinds
    | none, none => s.lin

/-- The chain judges a job it has just taken (R161, R165, R168 to R170, R180, R226).  A mode that R213, R214 or R216 does not let it send
is RANGE, as a channel it cannot use is (DEDUCED, log entry 74). -/
def State.judgeJob (s : State) (n id : Nat) (it : Item) : State :=
  let khz := s.jobChannel n it
  let inSlice := s.jobInSlice n it
  if s.on R.RF0_XTX_FORBID then s.forbidJob n id
  else if s.rfState n = rfOff then s.returnJob n id .state
  else if it.jobByAlloc && !s.apOn (R.WB_CHAN_EN n it.jobAlloc) then s.returnJob n id .range
  else if !inBand n khz || decide (8 < it.jobPtype) || (!inSlice && !it.jobRetuneOk) then s.returnJob n id .range
  else if !rateSent it.jobPtype it.jobRate || !s.crumbJobOk it then s.returnJob n id .range
  else
    let lock := if inSlice || s.rfState n == rfSettle then 0 else maxLock (s.chain n).loKhz khz
    let tl := s.fromShort it.jobTl
    let ta := max (s.fromShort it.jobTs) (s.waitEnd n + lock + s.leadRamp n)
    if !it.jobTrig && decide (tl < ta) then s.returnJob n id .late
    else if s.rfState n = rfSettle then
      (s.bumpSat (R.RF_TX_WAIT_SETTLE n) 1).setJob n id fun j => { j with settleWaited := true }
    else if s.rfState n = rfCal then (s.bumpSat (R.RF_TX_WAIT_CAL n) 1).setJob n id fun j => { j with calWaited := true }
    else s

/-- TX_JOB_TAKE (R161, R164, R283, R284): a chain that holds fewer than two jobs takes the head of its ready list. -/
def execTxJobTake (n : Fin 4) (s : State) : Answer :=
  if !s.rfPowered n.val || decide (2 ≤ (s.chain n.val).jobs.length) || !s.credit (138 + n.val) then .next s
  else match s.takeReady n.val with
    | none => .next s
    | some (s, id, it) =>
      let s := ((s.spend (138 + n.val)).handCells it.cells (128 + n.val)).ledIn (.rf n) 1
      let j : ChainJob :=
        { id := id, ts := s.fromShort it.jobTs, tl := s.fromShort it.jobTl, trig := it.jobTrig, released := !it.jobTrig }
      let s := s.setChain n.val fun c => { c with jobs := c.jobs ++ [j] }
      .next (s.judgeJob n.val id it)

/-- TX_RAMP_UP_START (R151 to R166, R179 to R181): the ramp-up instant of the first held job.  A job outside the slice starts the
retune it needs. -/
def execTxRampUpStart (n : Fin 4) (s : State) : Answer :=
  match (s.chain n.val).jobs.head? with
  | none => .next s
  | some j =>
    let it := s.jobItem j
    let khz := s.jobChannel n.val it
    let away := s.on (R.RF_STATE_OUT_OF_SLICE n.val)
    let here := if away then !s.jobInSlice n.val it && khz == (s.chain n.val).loKhz else s.jobInSlice n.val it
    let tuned := s.rfState n.val == rfSettle && (s.chain n.val).settle == some .forJob && s.on (R.RF_STATE_LOCKED n.val)
    if j.inService || !j.released || !(s.rfState n.val == rfRx || tuned) then .next s
    else if s.on R.RF0_XTX_FORBID then .next (s.forbidJob n.val j.id)
    else if s.on (R.RF_TX_CFG_DEFER_RX n.val) && s.confirmedRx n.val then .next s
    else if !s.policyOk n.val then .next (s.policyWait n.val j)
    else if !here && !it.jobRetuneOk then .next (s.returnJob n.val j.id .range)
    else
      let lock := if here then 0 else maxLock (s.chain n.val).loKhz khz
      if j.tl < max j.ts (s.lin + lock + s.leadRamp n.val) then .next (s.returnJob n.val j.id .late)
      else if here then .next (s.enterRampUp n.val j it)
      else .next ((s.put (R.RF_STATE_OUT_OF_SLICE n.val) 1).beginSettle n.val .forJob khz)

/-- The frames of a job as they leave the ball: wake-up frames, then the payload (R212 to R214, R221, R241). -/
def ChainJob.waves (j : ChainJob) : List Wave := (j.wakes ++ j.form.toList).map TxForm.wave

/-- From a job's first sample to its payload's reference plane and to its last sample, in ns (R133, R241). -/
def ChainJob.planeNs (j : ChainJob) : Nat := j.lead + (match j.form with | some f => f.planeNs | none => 0)
def ChainJob.airNs (j : ChainJob) : Nat := j.lead + (match j.form with | some f => f.airNs | none => 0)

/-- TX_START (R152, R162): the first sample leaves the ball at T_a; the stamp is that of the payload's reference plane (R133). -/
def execTxStart (n : Fin 4) (s : State) : Answer :=
  match (s.chain n.val).jobs.head? with
  | none => .next s
  | some j =>
    if s.rfState n.val ≠ rfUp then .next s
    else
      let s := s.advanceTo (linOfNs j.ts)
      let stamp := stampAt s (s.tb.L + linOfNs j.planeNs) n.val 5
      let s := s.setChain n.val fun c => { c with onAir := j.waves }
      .next ((s.setJob n.val j.id fun x => { x with stamp := stamp }).put (R.RF_STATE_STATE n.val) rfTx)

/-- TX_FRAME_END (R152, R160, R249): the last sample has left through the DAC FIFO (R46); the MAC's wait for an acknowledgement runs from here. -/
def execTxFrameEnd (n : Fin 4) (s : State) : Answer :=
  match (s.chain n.val).jobs.head? with
  | none => .next s
  | some j =>
    if s.rfState n.val ≠ rfTx then .next s
    else
      let s := (s.advanceTo (linOfNs (j.ts + j.airNs))).passFree (24 + n.val) (j.airNs * 256 / 10000)
      let s := { s with mac := { s.mac with aims := match mapGet s.mac.aims j.id with
        | some a => mapSet s.mac.aims j.id { a with sentEnd := some s.lin, stamp := j.stamp }
        | none => s.mac.aims } }
      .next ((s.put (R.RF_STATE_STATE n.val) rfDown).setChain n.val fun c => { c with downAt := s.lin })

/-- Can a held job start its ramp-up directly from TX-RAMP-DOWN or CAL (R152, R164)? -/
def State.nextRamps (s : State) (n : Nat) (j : ChainJob) : Bool :=
  j.released && s.jobInSlice n (s.jobItem j) && decide (j.ts ≤ s.lin + s.leadRamp n) && decide (s.lin + s.leadRamp n ≤ j.tl)
  && !s.on R.RF0_XTX_FORBID && !(s.on (R.RF_TX_CFG_DEFER_RX n) && s.confirmedRx n) && s.policyOk n

/-- To the first held job's ramp-up if it can start now, else to RX (R152). -/
def State.rampOrRx (s : State) (n : Nat) : State :=
  let from_ := s.rfState n
  match (s.chain n).jobs.head? with
  | none => s.enterRx n
  | some j =>
    if s.nextRamps n j then
      let s := s.enterRampUp n j (s.jobItem j)
      if s.rfState n = from_ then s.enterRx n else s
    else s.enterRx n

/-- TX_RAMP_DOWN_END (R152, R155, R160, R164, R165, R167): the ramp-down and FEM_LAG are over and the job returns; the chain goes to the
staged job, back to its slice, or to RX. -/
def execTxRampDownEnd (n : Fin 4) (s : State) : Answer :=
  match (s.chain n.val).jobs.head? with
  | none => .next s
  | some j =>
    if s.rfState n.val ≠ rfDown then .next s
    else
      let s := s.advanceTo (linOfNs ((s.chain n.val).downAt + s.rampNs n.val + s.get (R.RF_TX_CFG_FEM_LAG n.val) * 25))
      let s := if j.cut then s.returnJob n.val j.id .aborted
        else (s.bump (R.RF_TX_STAT_SENT n.val) 1).returnJob n.val j.id .ok
      if s.on (R.RF_STATE_OUT_OF_SLICE n.val) then .next (s.beginSettle n.val .back (s.get (R.RF_CENTRE_KHZ n.val)))
      else .next (s.rampOrRx n.val)

/-- BLANKING_END (R153): 20 µs after the exit from TX-RAMP-DOWN. -/
def execBlankingEnd (n : Fin 4) (s : State) : Answer :=
  if s.transmits n.val then .next s
  else .next ((List.range 4).foldl (fun s k =>
    if (s.chain k).blankedBy.contains n.val then s.setChain k fun c => { c with blankedBy := c.blankedBy.filter (· != n.val) } else s) s)

/-- TRIG_JOB_TIMEOUT (R163): no trigger released the job in time. -/
def execTrigJobTimeout (n : Fin 4) (s : State) : Answer :=
  match (s.chain n.val).jobs.find? fun j => j.trig && !j.released with
  | none => .next s
  | some j => .next (s.returnJob n.val j.id .late)

/-- The waiting job whose latest start comes first. -/
def ChainSt.firstLate (c : ChainSt) : Option ChainJob :=
  (c.jobs.filter fun j => j.released && !j.inService).foldl (fun b j =>
    match b with
    | none => some j
    | some x => if j.tl < x.tl then some j else some x) none

/-- TX_LATEST_START_PASSED (R171): the wait that caused the return is counted. -/
def execTxLatestStartPassed (n : Fin 4) (s : State) : Answer :=
  match (s.chain n.val).firstLate with
  | none => .next s
  | some j =>
    let s := s.advanceTo (linOfNs j.tl)
    let s := if s.rfState n.val = rfSettle ∧ !j.settleWaited then s.bumpSat (R.RF_TX_WAIT_SETTLE n.val) 1
      else if s.rfState n.val = rfCal ∧ !j.calWaited then s.bumpSat (R.RF_TX_WAIT_CAL n.val) 1
      else s
    .next (s.returnJob n.val j.id .late)

/-! ## Calibration (R169 to R178) -/

/-- The calibrations due and not held back by R175. -/
def State.calsDue (s : State) (n : Nat) : List Nat :=
  let c := s.chain n
  (List.range 3).filter fun k =>
    (natBit (s.get (R.RF_CAL_STAT_PEND n)) k && (mapGet c.again k).isNone)
    || (match c.calWait with | some w => w.1.contains k | none => false)

/-- CAL_START (R173, R174, R176, R179): a due set starts. -/
def execCalStart (n : Fin 4) (s : State) : Answer :=
  let ks := s.calsDue n.val
  if !s.calAllowed n.val || ks.isEmpty then .next s
  else match (s.chain n.val).calWait with
    | some w => .next (s.startCal n.val ks w.2 true)
    | none => .next (s.startCal n.val ks false false)

/-- Is there a job for which the running calibration is given up at a boundary (R169, R170)? -/
def State.calYields (s : State) (n : Nat) (p : Nat × Nat × List Nat) : Bool :=
  (s.chain n).jobs.any fun j => j.released && decide (p.1 + p.2.1 + s.leadRamp n ≤ j.tl)

/-- CAL_ABORT_FOR_JOB (R169, R172, R173, R175). -/
def execCalAbortForJob (n : Fin 4) (s : State) : Answer :=
  match (s.chain n.val).cal with
  | none => .next s
  | some c =>
    match c.next s.lin with
    | none => .next s
    | some p => if s.rfState n.val == rfCal && s.calYields n.val p then .next (s.abortCal n.val c p false) else .next s

/-- CAL_RESTORE_END (R152, R169): the restore interval is over; the job for which the set was given up starts if its instant has come. -/
def execCalRestoreEnd (n : Fin 4) (s : State) : Answer :=
  match (s.chain n.val).restore with
  | none => .next s
  | some (t, _) => if s.rfState n.val = rfCal then .next ((s.advanceTo (linOfNs t)).rampOrRx n.val) else .next s

/-- A calibration set completes (R152, R172 to R175, R182). -/
def State.calComplete (s : State) (n : Nat) : State :=
  match (s.chain n).cal with
  | none => s
  | some c =>
    if s.rfState n ≠ rfCal then s
    else
      let s := s.advanceTo (linOfNs (c.start + calLength c.kinds))
      let s := (s.calsDone n c.kinds).setChain n fun x => { x with cal := none }
      let s := (s.put (R.RF_CAL_STAT_ABORTS n) 0).evt (rfBlock n) E.RF_CAL_DONE
      let s := if c.byCommand then s.endCalRun n .ok else s
      s.enterRx n

/-- CAL_COMPLETE (R152, R172 to R175, R182). -/
def execCalComplete (n : Fin 4) (s : State) : Answer := .next (s.calComplete n.val)

/-- CAL_RESCHEDULE (R175, R176, R179): 5 ms after the earliest abort, or now; each aborted calibration whose 5 ms are over runs if no job
is due within 2 ms, and in any case at 50 ms. -/
def execCalReschedule (n : Fin 4) (s : State) : Answer :=
  let c := s.chain n.val
  match c.again with
  | [] => .next s
  | x :: r =>
    if s.rfState n.val ≠ rfRx then .next s
    else
      let s := s.advanceTo (linOfNs (r.foldl (fun a p => min a p.2) x.2 + 5000000))
      let soon := match s.earliestDue n.val with
        | some d => decide ((linOfTick d).toNat / 2 ^ 40 ≤ s.lin + 2000000)
        | none => false
      let ready := c.again.filter fun p => decide (p.2 + 5000000 ≤ s.lin) && (!soon || decide (p.2 + 50000000 ≤ s.lin))
      if ready.isEmpty || !s.calAllowed n.val then .next s
      else
        let s := s.setChain n.val fun c => { c with again := c.again.filter fun p => !ready.contains p }
        match c.calWait with
        | some w => .next (s.startCal n.val (s.calsDue n.val) w.2 true)
        | none => .next (s.startCal n.val (s.calsDue n.val) false false)

/-- CHAIN_TEMP_SAMPLE (R174): a die temperature in °C. -/
def execChainTempSample (n : Fin 4) (temp : BitVec 8) (s : State) : Answer :=
  if !s.rfPowered n.val then .next s
  else
    let s := s.put (R.RF_CAL_STAT_TEMP n.val) temp.toNat
    let due := (List.range 3).filter fun k =>
      natBit (s.get (R.RF_CAL_CFG_AUTO n.val)) k && natBit (s.get (R.RF_CAL_STAT_VALID n.val)) k
      && !natBit (s.get (R.RF_CAL_STAT_PEND n.val)) k
      && decide ((s.get (R.RF_CAL_CFG_DELTA n.val)) ≤ (temp.toInt - toSigned 8 (s.get (calTempFld n.val k))).natAbs)
    let s := due.foldl (fun s k => s.put ⟨(R.RF_CAL_STAT_PEND n.val).a, 12 + k, 1⟩ 1) s
    .next (s.evtIf (!due.isEmpty) (.rf n) E.RF_TEMP_TRIG)

/-- OSC_CAL (R177, R178): e = −RATE × 2^−40 in units of 0.001 ppm.  How the quotient is rounded is free (log entry 5); which way a code
moves the reference is a constant of the board (log entry 6). -/
def execOscCal (s : State) : Answer :=
  if s.tbMode ≠ 2 ∨ !s.rfPowered 0 then .next s
  else
    let e : Int := -(toSigned 32 (s.get R.TB_RATE_RATE))
    let (f, s) := s.draw
    let up : Int := if (e * 10 ^ 9) % (2 ^ 40 : Int) = 0 then 0 else (f % 2 : Nat)
    let s := s.put R.RF0_OSC_ERR_PPM (ofSigned 32 (e * 10 ^ 9 / (2 ^ 40 : Int) + up))
    if s.get R.RF0_OSC_MODE = 2 ∧ e ≠ 0 then
      let code := s.get R.RF0_OSC_TUNE_CODE
      .next (s.put R.RF0_OSC_TUNE_CODE (if decide (e < 0) == Config.refTuneRaises then min 65535 (code + 1) else code - 1))
    else .next s

/-! ## Commands of the page (R180 to R182) -/

/-- CAL_RUN (R174, R182): the run waits for RX if it must.  On an OFF chain it ends with STATE whatever it selects (DESIGN CHOICE, log
entry 74). -/
def execCalRun (m : Master) (n : Fin 4) (tag : BitVec 8) (s : State) : Answer :=
  .next (s.onCommand m (.rf n) tag fun s =>
    let b : Block := .rf n
    let ks := bitList (s.argBits b 0 0 3) 3
    if s.rfState n.val = rfOff then s.done b .state
    else if ks.isEmpty then s.done b .range
    else (s.startRun b (s.mkRun b opCalRun m tag false)).setChain n.val fun c => { c with calWait := some (ks, s.argBits b 0 8 1 == 1) })

/-- ABORT of a CAL_RUN (R182): one that waits ends at once; one that runs stops at its next abortable boundary; a protected one goes on. -/
def State.abortCalRun (s : State) (n : Nat) : State :=
  match (s.chain n).calWait, (s.chain n).cal with
  | some _, _ => (s.setChain n fun c => { c with calWait := none }).endCalRun n .aborted
  | none, some c =>
    if !c.byCommand then s
    else match c.next s.lin with
      | some p => s.abortCal n c p true
      | none => s
  | none, none => s

/-- A CAL_RUN is ended (R65 to R67, R182): by ABORT as above; by its time limit or a fence at once, and a set that runs goes on without
the command (log entry 75). -/
def State.cutCalRun (s : State) (n : Nat) (c : Code) : State :=
  if c = .aborted then s.abortCalRun n
  else
    (s.setChain n fun x => { x with calWait := none, cal := x.cal.map fun r => { r with byCommand := false } }).endCalRun n c

/-- TX_CUT (R182).  In TX-RAMP-DOWN the frame has ended and the chain no longer transmits it: STATE (DESIGN CHOICE, log entry 74). -/
def execTxCut (m : Master) (n : Fin 4) (tag : BitVec 8) (s : State) : Answer :=
  .next (s.onCommand m (.rf n) tag fun s =>
    if s.rfState n.val = rfUp ∨ s.rfState n.val = rfTx then (s.cutTx n.val).done (.rf n) .ok else s.done (.rf n) .state)

/-- CHAIN_RESET (R150, R182). -/
def execChainReset (m : Master) (n : Fin 4) (tag : BitVec 8) (s : State) : Answer :=
  .next (s.onCommand m (.rf n) tag fun s =>
    let b : Block := .rf n
    if !s.on (R.RF_CTL_EN n.val) then s.done b .state
    else
      let s := ((s.toOff n.val true).put (R.RF_STATE_FAULT n.val) 0)
      let s := (s.startRun b (s.mkRun b opChainReset m tag false)).chainStart n.val
      if s.rfState n.val = rfOff then s.done b .state else s)

/-- XTX_WRITE (R180, R181): FORBID returns held jobs; with CUT, frames in progress are cut. -/
def execXtxWrite (m : Master) (v : BitVec 32) (s : State) : Answer :=
  match s.busWrite m R.RF0_XTX_FORBID.a true v with
  | (s, .applied ..) =>
    if !s.on R.RF0_XTX_FORBID then .next s
    else .next ((List.range 4).foldl (fun s n =>
      let s := ((s.chain n).jobs.filter fun j => !j.inService).foldl (fun s j => s.forbidJob n j.id) s
      if s.on R.RF0_XTX_CUT then s.cutTx n else s) s)
  | (s, _) => .next s

end Sys2Proof.Machine
end

