-- ==== Sys2Proof/Machine/StageOps.lean ====
section
/-! DEFINITION. Staged sets (R80 to R88) and the kept configuration (R10, R98 to R102): latching, applying, deferring; which values of
a register are kept; a block's registers as its domain switches off and on. -/

namespace Sys2Proof.Machine

/-- The register map of the word at a key. -/
def specOf (key : Nat) : Option RegSpec := match blockAt (key % masterStride) with
  | some (b, o) => (regAt b o).map (·.1)
  | none => none

/-- The bits of the fields that satisfy a test. -/
def RegSpec.maskOf (r : RegSpec) (p : FieldSpec → Bool) : W32 :=
  r.fields.foldl (fun a f => if p f then a ||| bitsMask f.lo f.w else a) 0

/-- Bits of the staged fields of a register: those of the receive half, or all. -/
def stagedBits (key : Nat) (rxOnly : Bool) : W32 := match specOf key with
  | some r => r.maskOf fun f => f.staged == .rx || (!rxOnly && f.staged == .yes)
  | none => 0

/-- The value in force of a register: staged fields as last applied, the others as written. -/
def State.inForce (s : State) (key : Nat) : W32 :=
  match mapGet s.applied key with
  | some v => maskSet (stagedBits key false) (s.word key) v
  | none => s.word key

/-- Bits of a block's latched write take force; the register reads them, unless a later staged write stands in it (R80, R87). -/
def State.applyBits (s : State) (b : Block) (key : Nat) (v mask : W32) : State :=
  let new := maskSet mask (s.inForce key) v
  let s := if (s.blk b).pend.contains key then s else s.setWord key (maskSet mask (s.word key) v)
  { s with applied := if new = s.word key then mapErase s.applied key else mapSet s.applied key new }

/-! ## Sets (R82 to R87) -/

/-- Has the set a field of the receive half of a datapath (R85 step 3)? -/
def StagedSet.hasRx (x : StagedSet) : Bool := x.writes.any fun w => stagedBits w.1 true != 0

/-- Latch the block's staged writes; writes of a set that waits already stay in it. -/
def State.latch (s : State) (b : Block) (device : Bool) : State :=
  let x := s.blk b
  let old := match x.latched with
    | some l => l.writes
    | none => []
  let set : StagedSet := {
    epoch := BitVec.ofNat 32 (s.get (R.H_CFG_STAGE_EPOCH b.base)), writes := old ++ x.pend.map fun k => (k, s.word k)
    device := device, rxDone := false }
  (s.setBlk b fun x => { x with pend := [], latched := some set }).put (R.H_CFG_PEND_APPLYING b.base) 1

/-- The receive half of a datapath's set applies (R85 step 3). -/
def State.applyRx (s : State) (b : Block) : State :=
  match (s.blk b).latched with
  | none => s
  | some l =>
    let s := l.writes.foldl (fun s w => s.applyBits b w.1 w.2 (stagedBits w.1 true)) s
    s.setBlk b fun x => { x with latched := some { l with rxDone := true } }

/-- The latched set applies: the epoch advances to that of the acceptance, and _CFG_STAGE takes it too, whatever was written to it since
(R81, R82, R85; DESIGN CHOICE, log entry 72). -/
def State.applySet (s : State) (b : Block) : State :=
  match (s.blk b).latched with
  | none => s
  | some l =>
    let s := l.writes.foldl (fun s w => s.applyBits b w.1 w.2 (stagedBits w.1 false)) s
    let s := s.setBlk b fun x => { x with latched := none, deferred := false }
    let s := (s.put (R.H_CFG_EPOCH_EPOCH b.base) l.epoch.toNat).put (R.H_CFG_STAGE_EPOCH b.base) l.epoch.toNat
    let s := (s.put (R.H_CFG_PEND_APPLYING b.base) 0).put (R.H_CFG_PEND_DEFERRED b.base) 0
    let s := s.putB (R.H_CFG_PEND_PENDING b.base) (!(s.blk b).pend.isEmpty)
    match b with
    | .peel => s.regrant
    | _ => s

/-- The latched set is deferred until UNFENCE or power-on (R82, R87). -/
def State.deferSet (s : State) (b : Block) : State :=
  let s := s.setBlk b fun x => { x with deferred := true }
  (s.put (R.H_CFG_PEND_DEFERRED b.base) 1).put (R.H_CFG_PEND_APPLYING b.base) 0

/-- A deferred set applies before the block does any work (R87). -/
def State.applyDeferred (s : State) (b : Block) : State := if (s.blk b).deferred then s.applySet b else s

/-- Staged writes not yet latched are discarded (R66, R70, R81): the registers read the values in force again. -/
def State.discardStaged (s : State) (b : Block) : State :=
  let s := (s.blk b).pend.foldl (fun s k =>
    let later := match (s.blk b).latched with
      | some l => l.writes.any fun w => w.1 == k
      | none => false
    if later then s else ({ (s.setWord k (s.inForce k)) with applied := mapErase s.applied k })) s
  let s := (s.setBlk b fun x => { x with pend := [] }).putB (R.H_CFG_PEND_PENDING b.base) (s.blk b).latched.isSome
  s.put (R.H_CFG_STAGE_EPOCH b.base) (s.get (R.H_CFG_EPOCH_EPOCH b.base))

/-- The steps of R85 in which a block applies. -/
def commitSteps (b : Block) : List Nat := match b with
  | .starter => [1]
  | .rack | .peel | .dir | .tamp => [2]
  | .crust x => if x.val = 0 then [5] else [3, 5]
  | .sieve _ => [4]
  | .port _ => [6]
  | .phy | .wb _ | .rf _ | .mac | .bcn | .flood => [7]
  | _ => [8]

/-- Is the block still to apply in a step of the device-wide commit? -/
def State.owesStep (s : State) (step : Nat) (b : Block) : Bool :=
  (commitSteps b).contains step && (match (s.blk b).latched with
    | some l => l.device && !(s.blk b).deferred && (step != 3 || (l.hasRx && !l.rxDone))
    | none => false)

/-- Steps with nothing left to apply are passed; a block that is fenced or off when its step is reached is deferred (R85, R87). -/
def State.nextSteps (s : State) : Nat → State
  | 0 => s
  | fuel + 1 => match s.devCommit with
    | none => s
    | some c =>
      if 9 ≤ c.step then s
      else
        let gone := Block.all.filter fun b => s.owesStep c.step b && (!s.powered b || s.fenced b)
        let s := gone.foldl (fun s b => s.deferSet b) s
        let s := { s with devCommit := some { c with deferred := c.deferred + gone.length } }
        if Block.all.any (s.owesStep c.step) then s
        else State.nextSteps { s with devCommit := some { c with deferred := c.deferred + gone.length, step := c.step + 1 } } fuel

/-! ## Kept fields (R10, R98 to R102) -/

/-- The bits of a register's kept fields; the epoch word is set apart. -/
def keptBits (key : Nat) : W32 :=
  if key % 0x1000 = 0x70 ∨ masterStride ≤ key then 0 else match specOf key with
    | some r => r.maskOf (·.kept)
    | none => 0

/-- Is a key one of a block's? -/
def keyOf (b : Block) (key : Nat) : Bool := match blockAt (key % masterStride) with
  | some (c, _) => c == b
  | none => false

/-- What a commit makes the last committed values (R88, R98): of every block whose domain is on, the kept fields in force; of the others,
those held for them (R102). -/
def State.keptNow (s : State) : AMap W32 :=
  let on (key : Nat) : Bool := match blockAt (key % masterStride) with
    | some (b, _) => s.powered b
    | none => false
  let held := s.ret.committed.filter fun p => !on p.1
  s.regs.foldl (fun a p =>
    let m := keptBits p.1
    let v := s.inForce p.1 &&& m
    if on p.1 && v != resetWord p.1 &&& m then mapSet a p.1 v else a) held

/-- One kept register takes its stored value: a field whose value is not permitted takes its Reset value and is counted (R101). -/
def State.restoreWord (s : State) (key : Nat) (v : W32) : State × Nat :=
  match specOf key with
  | none => (s, 0)
  | some r =>
    let bad := r.fields.filter fun f => f.kept && !f.rng.ok f.w (bitsGet f.lo f.w v)
    let good := r.maskOf fun f => f.kept && f.rng.ok f.w (bitsGet f.lo f.w v)
    (s.setWord key (maskSet (good &&& keptBits key) (s.word key) v), bad.length)

/-- A block's kept fields take the committed values and its epoch, as its domain comes on or the stored copy is applied (R101, R102). -/
def State.restoreBlock (s : State) (b : Block) : State × Nat :=
  let s := s.regs.foldl (fun s p =>
    if keyOf b p.1 then s.setWord p.1 (maskSet (keptBits p.1) (s.word p.1) (resetWord p.1)) else s) s
  let s := { s with applied := s.applied.filter fun p => !keyOf b p.1 }
  let s := s.setBlk b fun x => { x with pend := [] }
  let (s, n) := s.ret.committed.foldl (fun a p =>
    if keyOf b p.1 then
      let (t, k) := a.1.restoreWord p.1 p.2
      (t, a.2 + k)
    else a) (s, 0)
  let e := s.ret.committedEpoch.toNat
  ((s.put (R.H_CFG_EPOCH_EPOCH b.base) e).put (R.H_CFG_STAGE_EPOCH b.base) e, n)

/-- A block's registers and counts are gone; a set that is deferred, or that a device-wide commit has latched and will defer, stays (R87,
R90, R102, R455). -/
def State.blankBlock (s : State) (b : Block) : State :=
  let x := s.blk b
  { s with
    regs := s.regs.filter fun p => !keyOf b p.1
    applied := s.applied.filter fun p => !keyOf b p.1
    blocks := mapSet s.blocks b.id {
      latched := match x.latched with
        | some l => if x.deferred || l.device then some { l with rxDone := false } else none
        | none => none
      deferred := x.deferred } }

end Sys2Proof.Machine
end

