-- ==== Sys2Proof/Machine/PowerOps.lean ====
section
/-! DEFINITION. Power domains, restarts, checkpoint records and stores (R20, R98 to R114, R394, R455): what the power states, resets and
the start-up share. -/

namespace Sys2Proof.Machine

/-! ## Domains -/

/-- Domains on in TRIM's return set, and those HOLD and every reset but power-on spare (R20, R114). -/
def trimOff : List Nat := [7, 9, 10]
def spared : List Nat := [0, 2]

/-- Switch domains on or off in PWR_STATE.DOMAINS. -/
def State.setDomains (s : State) (l : List Nat) (on : Bool) : State :=
  l.foldl (fun s d => s.putB ⟨R.PWR_STATE_DOMAINS.a, R.PWR_STATE_DOMAINS.lo + d, 1⟩ on) s

/-- Blocks in some domains. -/
def blocksIn (l : List Nat) : List Block := Block.all.filter fun b => l.contains b.domain

/-- A domain that is now on: its stage groups come up unfenced (R619), its blocks take the last committed configuration, then any deferred
set (R87, R102), and the stratum follows the time base (R263).  Answers how many values were refused. -/
def State.domainsOn (s : State) (l : List Nat) : State × Nat :=
  let s := s.setDomains l true
  let s := ((blocksIn l).flatMap Block.groups).foldl (fun s g => (if s.groupFenced g then s.emptyTx g else s).setGroupFence g false) s
  (blocksIn l).foldl (fun a b =>
    let (t, n) := a.1.restoreBlock b
    (t.applyDeferred b, a.2 + n)) (if l.contains 4 then s.stratumNow else s, 0)

/-- Ports enter secured-wait (R110). -/
def State.enterSwait (s : State) (ports : List Nat) : State := ports.foldl (fun s p => s.put (R.RET_SWAIT_ACTIVE p) 1) s

/-- Backup ticks: sensor ticks since VIN was valid (R501, R506). -/
def State.backupTicks (s : State) : Nat := (((s.tb.L.toNat : Int) - s.tamp.base) * 2 ^ 15 / (10 ^ 9 * 2 ^ 40)).toNat % 2 ^ 48

/-- A milestone is reached (R96, R115). -/
def State.milestone (s : State) (i : Nat) : State := s.put (R.PWR_MS_ST i) (s.backupTicks % 2 ^ 32)

/-- Every hash key that is drawn at power-up (R329, R336). -/
def State.drawKeys (s : State) : State :=
  let (a, s) := s.draw
  let (b, s) := s.draw
  let (c, s) := s.draw
  let s := { s with dir := { s.dir with key := a } }
  (s.setPipe 0 fun p => { p with key := b }).setPipe 1 fun p => { p with key := c }

/-! ## Restarts (R96, R97, R110, R112, R114) -/

/-- Everything that PD0, PD2, MRAM, fuses and the NOR do not hold is gone. -/
def State.loseVolatile (s : State) : State :=
  let s := ((Block.all.filter fun b => !spared.contains b.domain).foldl (fun s b => s.blankBlock b) s).setDomains
    [1, 3, 4, 5, 6, 7, 8, 9, 10, 11, 12, 13] false
  let s := s.ledDrop .ret s.ret.dirty.length
  let s := s.put R.RET_CKPT_STAT_DIRTY 0
  { s.fwuReset with
    rack := {}, peel := {}, dir := {}, wb := [], phy := {}, rf := [], mac := {}, bcn := {}, flood := {}, ports := [], frames := [], sieve := []
    prefixes := [], crust := {}, crc := { hostWrite := s.crc.hostWrite }, dram := []
    bfifo := []
    host := { s.host with queues := [], parked := [] }
    starter := { copies := s.starter.copies, lc := s.starter.lc, rows := s.starter.rows, legacyOff := s.starter.legacyOff, held := false
                 zeroing := s.starter.zeroing }
    ret := { s.ret with dirty := [], restore := [], restoring := false, bcastCounter := s.ret.bcastCeil, bcastDirty := false } }

/-- A start-up begins at the 5 ms row: every port in secured-wait, no registers of the last restore (R109, R110, R112). -/
def State.beginStart (s : State) : State :=
  let s := s.enterSwait (List.range 10)
  let s := ((s.put R.RET_RESTORE_STAT_NODES 0).put R.RET_RESTORE_STAT_MAXU 0).put R.RET_RESTORE_STAT_DONE 0
  let s := (s.put R.RET_OUTAGE_S 0).put R.PWR_STATE_TRANS 1
  { s.put R.PWR_STATE_BOOT_FAIL 0 with boot := .aon, entering := false, wake := none, resetAsked := none }

/-- The record of a node whose model is too old says that it has none (R108). -/
def agedState (now state last : Nat) : Nat := if state = 1 ∧ 2 ^ 30 < (now + 2 ^ 32 - last) % 2 ^ 32 then 2 else state

/-- Every checkpoint record whose model is too old says so (R108): judged while the time that its LAST_SAMPLE stands in still runs (DEDUCED,
log entry 48). -/
def State.ageRecords (s : State) : State :=
  let old (r : BitVec 192) : Bool := agedState s.st (natBits r.toNat 190 2) (natBits r.toNat 128 32) != natBits r.toNat 190 2
  let aged (x : Nat × BitVec 192) : Nat × BitVec 192 :=
    if old x.2 then (x.1, (x.2 &&& ~~~(BitVec.ofNat 192 3 <<< 190)) ||| (BitVec.ofNat 192 2 <<< 190)) else x
  { s with ret := { s.ret with records := s.ret.records.map aged } }

/-- A pin reset, a software reset or a fallback (R114): all domains but PD0 and PD2 start over; `cause`: bit of PWR_RST_CAUSE.  Blocks of a
device-wide commit whose step is reached while they are off are deferred (R87); TAMPER_HOLD lasts until its release (R497). -/
def State.restart (s : State) (cause : Nat) : State :=
  let s := s.ageRecords.loseVolatile
  let s := s.put ⟨R.PWR_RST_CAUSE_CAUSE.a, cause, 1⟩ 1
  let held := s.boot == .tamperHold
  let s := ((s.put R.PWR_STATE_STATE 0).beginStart).nextSteps 10
  if held then { s with boot := .tamperHold } else s

/-- A wake event (R112, R113): in HOLD an enabled source starts the exit; during entry it is latched. -/
def State.wakeBy (s : State) (src : Nat) : State :=
  if !natBit (s.get R.PWR_WAKE_EN_SRC) src then s
  else if s.boot = .hold then
    let s := (s.ageRecords.put R.PWR_WAKE_SRC_SRC (2 ^ src)).put ⟨R.PWR_RST_CAUSE_CAUSE.a, 4, 1⟩ 1
    s.beginStart.evt .pwr E.PWR_WAKE
  else if s.entering then { s with wake := s.wake.orElse fun _ => some src }
  else s

/-- What is left when VIN is gone: MRAM, fuses, the NOR, and what the model keeps of the world outside. -/
def State.unpowered (s : State) : State :=
  { State.reset with
    ret := {
      copyA := s.ret.copyA, copyB := s.ret.copyB, epochA := s.ret.epochA, epochB := s.ret.epochB, sealA := s.ret.sealA, sealB := s.ret.sealB
      eraseAsked := s.ret.eraseAsked
      records := s.ret.records, marker := s.ret.marker, markerSrc := s.ret.markerSrc, bcastCounter := s.ret.bcastCeil, bcastCeil := s.ret.bcastCeil
      sealLife := s.ret.sealLife, written := s.ret.written }
    starter := { copies := s.starter.copies, lc := s.starter.lc, rows := s.starter.rows, legacyOff := s.starter.legacyOff, held := false
                 zeroing := s.starter.zeroing }
    fwu := s.fwuReset.fwu
    proof := { s.proof with runs := false, last := 0, queue := [], pub := [], selected := [], waiting := [], logWait := [], act := none, response := [] }
    host := { s.host with queues := [], parked := [] }
    crc := { hostWrite := s.crc.hostWrite }
    nor := s.nor, busData := s.busData, spiData := s.spiData, msixSent := s.msixSent, freeCtr := s.freeCtr, pending := s.pending
    boot := .off }

/-- Every domain off. -/
def State.allOff (s : State) : State := s.setDomains (List.range 14) false

/-! ## The checkpoint (R104 to R109) -/

/-- RET writes the record of a handle (R105, R106, R108): empty for an empty row; the ceiling is the counter plus the reserve. -/
def State.writeRecord (s : State) (h : Nat) : State :=
  match mapGet s.ret.dirty h with
  | none => s
  | some since =>
    let s := s.evtIf (decide (s.get R.RET_CKPT_CFG_MAXAGE * 10 ^ 9 < s.lin - since)) .ret E.RET_AGE_OVER
    let records := match s.node h with
      | none => mapErase s.ret.records h
      | some e =>
        let ceil := min 0xFFFFFFFF (e.get N.FC_OUT + 2 ^ s.get R.RET_FC_RESERVE_LOG2)
        mapSet s.ret.records h (recordOf (e.put N.STATE (agedState s.st (e.get N.STATE) (e.get N.LAST_SAMPLE))) ceil)
    let s := { s with ret := { s.ret with records := records, dirty := mapErase s.ret.dirty h } }
    (s.put R.RET_CKPT_STAT_DIRTY s.ret.dirty.length).ledOut .ret 1

/-- Every dirty record is written, ascending. -/
def State.writeAllRecords (s : State) : State := (s.ret.dirty.map (·.1)).foldl (fun s h => s.writeRecord h) s

/-- The outage marker is written: the time and the state of its sources (R93, R112). -/
def State.writeMarker (s : State) : State :=
  { s with ret := { s.ret with marker := some s.lin, markerSrc := s.word R.TB_STATE_MODE.a } }

/-- Is an outage marker of a time more than 2^31 ST old (R109)? -/
def markerOld (marker now : Nat) : Bool := decide (2 ^ 31 * 10 ^ 9 < (now - marker) * 2 ^ 15)

/-- Restore items out. -/
def State.restoreItems (s : State) : List (Nat × DirWork) :=
  s.dir.work.filter fun p => match p.2 with
    | .restore _ => true
    | _ => false

/-- The restore has run (R109): the marker is consumed. -/
def State.restoreDone (s : State) (event : Bool) : State :=
  let s := { s with ret := { s.ret with restore := [], restoring := false, marker := none } }
  (s.put R.RET_RESTORE_STAT_DONE 1).evtIf event .ret E.RET_RESTORED

/-- Restore items are posted in ascending order of handle, at most 64 outstanding, while producer 6 has credit; when none is left and all
have completed, the restore is done. -/
def State.restorePump : Nat → State → State
  | 0, s => s
  | fuel + 1, s =>
    match s.ret.restore with
    | [] => if s.ret.restoring && s.restoreItems.isEmpty then s.restoreDone true else s
    | h :: r =>
      if 64 ≤ s.restoreItems.length then s
      else match s.hwPost 6 (s.dirWords h) with
        | (s, .ok id) =>
          let s := { s with dir := { s.dir with work := mapSet s.dir.work id (.restore h) }, ret := { s.ret with restore := r } }
          State.restorePump fuel s
        | (s, _) => s

/-- The restore starts at the first lock after the rebuild (R109): a marker that is too old gives no model; so does one of a time that lies
ahead (log entry 72).  Records whose age the lock has shown are aged (R108). -/
def State.startRestore (s : State) : State :=
  match s.ret.marker with
  | none => s
  | some m =>
    if !s.boot.hasDirectory || s.ret.restoring || s.on R.RET_RESTORE_STAT_DONE then s
    else
      let s := s.ageRecords.put R.RET_OUTAGE_S ((s.lin - m) / 10 ^ 9)
      if s.lin < m ∨ markerOld m s.lin then (s.put R.RET_RESTORE_STAT_MAXU 1).restoreDone false
      else
        let s := { s with ret := { s.ret with restoring := true } }
        State.restorePump (s.ret.restore.length + 1) s

/-- The uncertainty of a restored model (R109) in µs: elapsed × DPPM / 10 / 2^15; which way a fraction is rounded is open (log entry 5). -/
def State.restoredUnc (s : State) (last : Nat) : Nat × State :=
  let x := (s.st + 2 ^ 32 - last) % 2 ^ 32 * s.get R.RET_DRIFT_TOL_DPPM
  let (r, s) := s.draw
  let u := x / 327680 + (if x % 327680 = 0 then 0 else r % 2)
  (if 65534 < u then 0xFFFF else u, s)

/-! ## Stores of the retained configuration (R98 to R100) -/

/-- The copy a store writes: the one with the older epoch. -/
def RetSt.olderCopy (r : RetSt) : Bool := match r.epochA, r.epochB with
  | none, _ => false
  | some _, none => true
  | some a, some b => decide (b.toNat < a.toNat)

/-- Mark a copy not valid. -/
def State.voidCopy (s : State) (b : Bool) : State :=
  if b then { s with ret := { s.ret with epochB := none, copyB := [], sealB := [] } }.put R.RET_COPY_B_EPOCH 0
  else { s with ret := { s.ret with epochA := none, copyA := [], sealA := [] } }.put R.RET_COPY_A_EPOCH 0

/-- The seal of a copy (R98): AES-CMAC under the CONFIG branch (R469, R471, MSEL = 0) of the life-cycle state.  The label, the length of the
key and the octets of a copy are not given (log entry 6). -/
def State.copySeal (s : State) (e : W32) (v : AMap W32) : List Nat :=
  cmac (kdf (s.branchKey 2) Config.sealLabel (List.replicate 49 0) 16) (Config.copyOctets e v)

/-- A store of the last committed epoch begins in a copy, sealed; the header that marks it valid is written last (R98). -/
def State.startStore (s : State) (b : Bool) : State :=
  let s := s.voidCopy b
  let r := { s.ret with storing := some b, again := false, owed := none }
  let x := s.copySeal r.committedEpoch r.committed
  let s := { s with ret := if b then { r with copyB := r.committed, sealB := x } else { r with copyA := r.committed, sealA := x } }
  (s.put R.RET_STORE_BUSY 1).put R.RET_STORE_EPOCH_EPOCH s.ret.committedEpoch.toNat

/-- A commit asks for a store (R98 to R100). -/
def State.askStore (s : State) : State :=
  if s.ret.storing.isSome then { s with ret := { s.ret with again := true } }
  else if s.pfWarn then { s with ret := { s.ret with owed := s.ret.owed.orElse fun _ => some s.ret.olderCopy } }
  else s.startStore s.ret.olderCopy

/-! ## Domains switched off one by one (R112, R455) -/

/-- A frame whose cells are gone, or that can go no further, is over: what is on the line ends with a bad FCS, the rest is dropped. -/
def State.abandon (s : State) (i : Nat) : State :=
  match mapGet s.frames i with
  | none => s
  | some f =>
    let f := { f with portHeld := false, errored := true, icv := .none, toHost := false, learn := none, stage := .forwarded }
    let s := s.setFrame i fun _ => f
    let s := f.egress.foldl (fun s e =>
      if e.st = .sending then s.sendEnd i f e .bad
      else if e.st = .inCrust then (s.ledDrop (dpBlock (dpOf e.port)) 1).endEgress i e.port
      else s.endEgress i e.port) s
    s.settle i

/-- Rack frees the cells of owners whose domain is off; frames that had them are over (R455). -/
def State.reclaimPower (s : State) (owners : List Nat) : State :=
  let hurt := s.frames.filter fun x => x.2.cells.any fun c => match s.tag c with
    | some t => owners.contains t.owner
    | none => false
  let s := owners.foldl (fun s o =>
    let (s, n, _) := s.reclaim o
    s.bumpSat R.RACK_RECLAIM_POWER_COUNT n) s
  hurt.foldl (fun s x => s.abandon x.1) s

/-- A client port goes off (R112): frames it was receiving and frames bound for it are dropped under POWER. -/
def State.cutPort (s : State) (p : Nat) : State :=
  let s := s.frames.foldl (fun s x =>
    if x.2.port = p ∧ (x.2.stage ≠ .forwarded ∨ x.2.icv = .pending) then
      (if x.2.portHeld then s.portDrop p .power x.2.len p x.2.owner else s).abandon x.1
    else s) s
  s.frames.foldl (fun s x =>
    match x.2.eg p with
    | none => s
    | some e =>
      let s := if e.st = .sending then s else s.ledIn (portBlock p) 1
      (s.portDrop p .power x.2.len x.2.port (txGroup p)).endEgress x.1 p) s

/-- A chain goes off with its domain: reception ends, jobs return with STATE, records not delivered are lost. -/
def State.cutChain (s : State) (n : Nat) : State :=
  let s := (s.toOff n false).flushReady n
  let items := (s.wbOf n).recs.filterMap (·.2.item)
  let s := items.foldl (fun s id => s.finishItem id .aborted 0) s
  let back := (s.chain n).returned
  { s with
    wb := mapErase s.wb n
    phy := { s.phy with pools := s.phy.pools.set n [] }
    mac := { s.mac with txnWait := s.mac.txnWait.filter fun x => x.1 != n }
    rf := mapSet (s.rf.map fun x => (x.1, { x.2 with blankedBy := x.2.blankedBy.filter (· != n) })) n { returned := back } }

/-- SAs of Crust-C are lost (R394); a deletion that waits there has nothing left to wait for. -/
def State.loseClientSas (s : State) : State :=
  let s := { s with crust := { s.crust with sas := s.crust.sas.filter fun x => x.1 < 8192 } }
  match s.crust.deleting with
  | some (i, _) => if 8192 ≤ i then { s with crust := { s.crust with deleting := none } }.done (.crust 0) .ok else s
  | none => s

/-- Stage groups of the domains that TRIM switches off. -/
def trimGroups : List Nat := [16, 17, 18, 19, 20, 21, 22, 23, 36, 37, 38, 39]

/-- The boundary FIFOs of those domains. -/
def trimFifos : List Nat := (List.range 16).map (· + 4) ++ [20, 21, 24, 25]

/-- PD7, PD9 and PD10 switch off (R112): the FEM balls keep the pattern of OFF (R154); their stage groups lose their
fences, and the credits of what they held return (R619). -/
def State.enterTrim (s : State) : State :=
  let s := (List.range 8).foldl (fun s k => s.cutPort (k + 2)) s
  let s := (s.cutChain 0).cutChain 1
  let s := (s.reclaimPower trimGroups).loseClientSas
  let s := trimGroups.foldl (fun s g => (if s.groupFenced g then s.emptyTx g else s).setGroupFence g false) s
  let s := { s with
    ports := s.ports.filter fun x => x.1 < 2, prefixes := []
    bfifo := s.bfifo.filter fun x => !trimFifos.contains x.1 }
  let idle := [0, 1].map fun n => ((R.RF_FEM_IDLE_OFF_PAT n).a, s.word (R.RF_FEM_IDLE_OFF_PAT n).a)
  let s := ((blocksIn trimOff).foldl (fun s b => s.blankBlock b) s).setDomains trimOff false
  idle.foldl (fun s p => s.setWord p.1 p.2) s

/-- Jobs queued to chains 0 and 1 return to Peel with STATE at entry into TRIM; those in service end their ramp. -/
def State.returnQueued (s : State) (n : Nat) : State :=
  let s := ((s.chain n).jobs.filter fun j => !j.inService).foldl (fun s j => s.returnJob n j.id .state) s
  s.flushReady n

/-- PD7, PD9 and PD10 switch on (R102, R110, R112, R542): configuration, microcode, secured-wait, chains 0 and 1 leave OFF. -/
def State.leaveTrim (s : State) : State :=
  let (s, refused) := s.domainsOn trimOff
  let s := (s.bumpSat R.RET_RESTORE_REFUSED refused).enterSwait [2, 3, 4, 5, 6, 7, 8, 9]
  let s := [1, 2, 5, 6, 7, 8, 9, 10, 11, 12].foldl (fun s u => s.loadUnit u) s
  (s.chainStart 0).chainStart 1

end Sys2Proof.Machine
end

