-- ==== Sys2Proof/Machine/Tamp.lean ====
section
/-! DEFINITION. The tamper monitor and what begins in it (R464 to R467, R493 to R501). -/

namespace Sys2Proof.Machine

/-- Change the tamper monitor. -/
def State.setTamp (s : State) (f : TampSt → TampSt) : State := { s with tamp := f s.tamp }

/-! ## Zeroisation (R496) -/

/-- The volatile items go at once; the retained slots follow. -/
def State.zeroise (s : State) : State :=
  let s := s.setStarter fun t => { t with slots := t.slots.filter fun x => 512 ≤ x.1, cache := [], held := false, zeroing := true }
  let gone (x : Nat × SaEntry) : Nat × SaEntry :=
    (x.1, { x.2 with key := List.replicate x.2.key.length 0, hkey := List.replicate x.2.hkey.length 0 })
  { s with crust := { s.crust with sas := [], deleting := s.crust.deleting.map gone } }

/-- Both copies of every retained slot are overwritten; the slots are empty. -/
def State.zeroiseRetained (s : State) : State :=
  (s.setStarter fun t => { t with slots := t.slots.filter fun x => x.1 < 512, copies := [], zeroing := false }).evt .starter
    E.STARTER_ZEROIZED

/-! ## Sources (R493 to R501) -/

/-- Is the restored configuration in force?  Before it each source acts at its floor (R495). -/
def Boot.configured : Boot → Bool
  | .config | .planes | .rebuilt | .running | .hold => true
  | _ => false

/-- How a source acts now. -/
def State.tampResp (s : State) (src : Nat) : Nat :=
  if !s.boot.configured then natBits (s.get R.TAMP_FLOOR_RESP) (2 * src) 2
  else if s.on (R.TAMP_CFG_EN src) then s.get (R.TAMP_CFG_RESP src) else 0

/-- The phase a log entry shows (R501). -/
def State.tampPhase (s : State) : Nat :=
  if s.boot = .hold then 3
  else if !s.boot.opened then 0
  else if s.starter.op.isSome then 4
  else if s.get R.PWR_STATE_STATE = 1 then 2 else 1

/-- Write a tamper log entry (R443, R501). -/
def State.tampLog (s : State) (src resp : Nat) : State :=
  let (l, lost) := fifoPush 64 s.tamp.log ⟨s.backupTicks, src, s.tampPhase, resp⟩
  let s := s.setTamp fun t => { t with log := l }
  if lost then (s.bumpSat R.TAMP_LOG_LOST_COUNT 1).evt .tamp E.TAMP_LOG_LOST else s

/-- Proofer's logbook notes a tamper decision; in HOLD with the backup counter's time (R524). -/
def State.proofTamper (s : State) (src resp : Nat) : State :=
  let detail := [src, s.tampPhase, resp]
  if s.boot = .hold then s.logEntry 3 (leList 10 s.backupTicks) detail false else s.logNow 3 detail false

/-- What an alarm does to a device that runs (R494, R499). -/
def State.alarm (s : State) : State :=
  let updating := match s.starter.op with
    | some o => !o.updates.isEmpty
    | none => false
  let s := if updating then s.bumpSat R.STARTER_JRNL_ROLLBACK 1 else s
  (s.put R.TAMP_STATE_ALARM 1).dropKeyOp .tampered

/-- TAMPER_DECIDED (R493 to R500): a source's condition has held for its filter time. -/
def execTamperDecided (src : Fin 8) (s : State) : Answer :=
  let n := src.val
  let resp := s.tampResp n
  if !s.pdOn 0 then .next s
  else
    let s := s.put ⟨R.TAMP_STATE_ACTIVE.a, n, 1⟩ 1
    if resp = 0 then .next s
    else
      let s := ((s.tampLog n resp).proofTamper n resp).evt .tamp n
      if s.boot = .hold then
        let s := s.evt .tamp E.TAMP_HOLD_EVT
        let s := if resp = 3 then s.put R.TAMP_STATE_ZPEND 1 else s
        let s := if 2 ≤ resp then s.put R.TAMP_STATE_ALARM 1 else s
        .next (if 2 ≤ resp then s.wakeBy 3 else s)
      else if resp = 1 then .next s
      else if s.boot = .aon then
        let s := (s.put R.TAMP_STATE_THOLD 1).put R.TAMP_STATE_ALARM 1
        let s := if resp = 3 then s.put R.TAMP_STATE_ZPEND 1 else s
        .next { s with boot := .tamperHold }
      else
        let s := if s.boot = .tamperHold then s.put R.TAMP_STATE_ALARM 1 else s.alarm
        let s := if resp ≠ 3 then s
          else if !s.boot.opened then s.put R.TAMP_STATE_ZPEND 1
          else (s.zeroise.logNow 5 [] false)
        .next (if s.entering then s.wakeBy 3 else s)

/-- TAMPER_SOURCE_CLEARED (R494): the condition has gone. -/
def execTamperSourceCleared (src : Fin 8) (s : State) : Answer :=
  .next (if s.pdOn 0 then s.put ⟨R.TAMP_STATE_ACTIVE.a, src.val, 1⟩ 0 else s)

/-- ZEROIZE_DONE (R496). -/
def execZeroizeDone (s : State) : Answer := .next (if s.starter.zeroing && s.pdOn 1 then s.zeroiseRetained else s)

/-- TAMP_MESH_PATTERN (R493): the driven pattern changes. -/
def execTampMeshPattern (s : State) : Answer :=
  .next (if s.pdOn 0 then s.setTamp fun t => { t with patterns := t.patterns + 1 } else s)

/-- TAMP_CLEAR (R494): the latch clears when no source is active. -/
def execTampClear (m : Master) (v : BitVec 32) (s : State) : Answer :=
  match s.busWrite m R.TAMP_CLEAR_ALARM.a true v with
  | (s, .applied ..) =>
    .next (if natBit v.toNat 0 && s.get R.TAMP_STATE_ACTIVE == 0 then s.put R.TAMP_STATE_ALARM 0 else s)
  | (s, _) => .next s

/-- TAMP_LOCK (R495). -/
def execTampLock (m : Master) (v : BitVec 32) (s : State) : Answer :=
  match s.busWrite m R.TAMP_LOCK_LOCK.a true v with
  | (s, .applied ..) => .next (s.putB R.TAMP_STATE_LOCKED (s.on R.TAMP_LOCK_LOCK))
  | (s, _) => .next s

/-- TH_RELEASE (R497). -/
def execThRelease (m : Master) (tag : BitVec 8) (s : State) : Answer :=
  .next (s.onCommand m .tamp tag fun s =>
    if m ≠ .spi then s.done .tamp .locked
    else if s.boot ≠ .tamperHold ∨ s.get R.TAMP_STATE_ACTIVE ≠ 0 then s.done .tamp .state
    else { (s.put R.TAMP_STATE_THOLD 0).done .tamp .ok with boot := .aon })

/-- TAMP_LOG_POP (R443, R506). -/
def execTampLogPop (m : Master) (s : State) : Answer :=
  if !s.reaches m .tamp then .next { s with busData := 0 }
  else
    let w1 := ownCopy m R.TAMP_LOG_W1_TICKS
    match s.tamp.log with
    | [] => .next { s.setWord w1.a 0 with busData := 0 }
    | x :: r =>
      let s := s.setTamp fun t => { t with log := r }
      let w := BitVec.ofNat 32 (x.ticks / 2 ^ 32 + x.src * 2 ^ 16 + x.phase * 2 ^ 19 + x.resp * 2 ^ 22 + 2 ^ 31)
      .next { s.setWord w1.a w with busData := BitVec.ofNat 32 x.ticks }

/-! ## The life cycle (R464 to R467) -/

/-- May the life cycle go from a state to another in the field of use of LC_ADVANCE (R464)? -/
def lcStep (old new : Nat) : Bool :=
  match old, new with
  | 1, 2 | 1, 4 | 2, 3 | 2, 4 | 3, 4 => true
  | _, _ => false

/-- Sixteen random octets. -/
def State.drawOctets (s : State) : List Nat × State :=
  let (x, s) := s.draw
  (beList 16 (x % 2 ^ 128), s)

/-- A transition's last steps: the marker is blown, so that the state is that of the highest marker blown; everything is zeroised, a software
reset follows (R466). -/
def State.endTransition (s : State) (target : Nat) (bits : List Nat) : State :=
  let s := s.setStarter fun t => { t with rows := mapSet t.rows target ⟨bits, true⟩, lc := max t.lc target }
  let s := if target = 2 then s.put R.TAMP_FLOOR_RESP 0xAAAA else s
  let s := (s.zeroise.logNow 5 [] false).zeroiseRetained
  { s.evt .starter E.STARTER_LC with resetAsked := some 2 }

/-- The operation of a Peel item in progress comes to its end (R466 step 2). -/
def State.endItemOp (s : State) : State :=
  match s.starter.op with
  | none => s
  | some o =>
    let s := s.setStarter fun t => o.updates.foldl (fun t u => t.commitUpdate u.1 u.2) t
    s.finishKeyOp { o with updates := [] }

/-- LC_ADVANCE (R464, R466). -/
def execLcAdvance (m : Master) (tag : BitVec 8) (s : State) : Answer :=
  .next (s.onCommand m .starter tag fun s =>
    let s := (s.startRun .starter (s.mkRun .starter 10 m tag false)).ledIn .starter 1
    let target := s.argBits .starter 0 0 3
    if m = .host ∨ s.starter.lc = 0 ∨ s.starter.lc = 4 ∨ s.on R.STARTER_STATE_ROOT_BAD then s.endKeyOp .locked 0 [] none
    else if !lcStep s.starter.lc target || s.arg .starter 1 != 0x1CAD then s.endKeyOp .range 0 [] none
    else if s.on R.TAMP_STATE_ALARM then s.endKeyOp .tampered 0 [] none
    else
      let s := s.endItemOp
      let (bits, s) := s.drawOctets
      (s.endTransition target bits).endKeyOp .ok 0 [] none)

end Sys2Proof.Machine
end

