-- ==== Sys2Proof/Machine/Gov.lean ====
section
/-! DEFINITION. The governor of the core rail (R27 to R31, R53).  A rail code c stands for 0.55 V + c × 5 mV. -/

namespace Sys2Proof.Machine

/-- The code of 0.68 V, below which LINE mode never goes (R27). -/
def lineFloor : Nat := 26

/-- A window boundary: changes of MODE, MARGIN, CEIL and ECON_FLOOR take effect (R34). -/
def State.govBoundary (s : State) : State :=
  { s with gov := { s.gov with
      mode := s.get R.PWR_GOV_MODE_MODE, margin := s.get R.PWR_GOV_MARGIN_MARGIN, ceil := s.get R.PWR_GOV_CEIL_CODE
      econFloor := s.get R.PWR_GOV_ECON_FLOOR_CODE } }

/-- The lower limit of the target in the mode in force (R29): FIXED has none. -/
def State.govFloor (s : State) : Option Nat := match s.gov.mode with
  | 0 => some lineFloor
  | 1 => some s.gov.econFloor
  | _ => none

/-- The rule of R29 for a busy fraction of `busy` / `len`: +10 mV above 1 − M, −5 mV below 1 − 2M, then the mode's limits. -/
def State.govTarget (s : State) (busy len : Nat) : Nat :=
  match s.govFloor with
  | none => s.get R.PWR_GOV_VFIX_CODE
  | some lower =>
    let m := s.gov.margin
    let t := s.get R.PWR_GOV_VNOW_TARGET
    let t := if len * (100 - m) < busy * 100 then t + 2 else if busy * 100 < len * (100 - 2 * m) then t - 1 else t
    max lower (min t s.gov.ceil)

/-- The flags that a target shows. -/
def State.showTarget (s : State) (t : Nat) : State :=
  let s := (s.put R.PWR_GOV_VNOW_TARGET t).putB R.PWR_GOV_VNOW_AT_FLOOR (s.govFloor == some t)
  s.putB R.PWR_GOV_VNOW_AT_CEIL (t == s.gov.ceil)

/-- The part of a code that a fall has not made up yet. -/
def State.setFall (s : State) (n : Nat) : State := { s with gov := { s.gov with fall := n } }

/-- The window ends that a jump still holds the rule off for (R30). -/
def State.setBurst (s : State) (n : Nat) : State := { s with gov := { s.gov with burstWindows := n } }

/-- The rail follows its target for some µs at the full rate of R31: up 2 codes/µs, down 2 codes in 5 µs and never faster (log entry 43);
no fall starts in a burst. -/
def State.moveRail (s : State) (us : Nat) : State :=
  let r := s.get R.PWR_GOV_VNOW_RAIL
  let t := s.get R.PWR_GOV_VNOW_TARGET
  if r ≤ t then (s.setFall 0).put R.PWR_GOV_VNOW_RAIL (min t (r + 2 * us))
  else if s.on R.PWR_GOV_VNOW_BURST then s.setFall 0
  else
    let down := 2 * us + s.gov.fall
    (s.setFall (down % 5)).put R.PWR_GOV_VNOW_RAIL (max t (r - down / 5))

/-- The enabled pipeline with the highest busy time, and that time; the lowest of several. -/
def State.busiest (s : State) (busyNs : List Nat) : Nat × Nat :=
  (List.range 12).foldl (fun a i =>
    let x := if natBit (s.get R.PWR_GOV_MON_SEL_ENABLE) i then nth busyNs i 0 else 0
    if a.2 < x then (i, x) else a) (0, 0)

/-- Was b above 1 − M in the window with the target at its limit?  The limit is CEIL in LINE and ECONOMY; in FIXED, where R29 sets no limit, the
bit shows 0 (log entry 43). -/
def State.govCapped (s : State) (busy len : Nat) : Bool :=
  decide (len * (100 - s.gov.margin) < busy * 100) && s.govFloor.isSome && s.get R.PWR_GOV_VNOW_TARGET == s.gov.ceil

/-- GOVERNOR_WINDOW (R28, R29, R31, R53): a window ends; `busyNs`: how long each monitored pipeline was busy in it; `tokenPs`: the token
time measured of the slowest enabled crypto pipeline.  FRACTION shows 255 for b = 1, which its 8 bits cannot (log entry 43). -/
def execGovernorWindow (busyNs : List Nat) (tokenPs : Nat) (s : State) : Answer :=
  if !s.boot.configured || s.boot == .hold then .next s
  else
    let us := s.get R.PWR_GOV_WINDOW_US
    let len := us * 1000
    let (pipe, x) := s.busiest busyNs
    let busy := min x len
    let s := s.moveRail us
    let capped := s.govCapped busy len
    let s := s.govBoundary
    let s := if 2 ≤ s.gov.burstWindows then s.setBurst 1
      else ((s.setBurst 0).put R.PWR_GOV_VNOW_BURST 0).showTarget (s.govTarget busy len)
    let s := s.putB R.PWR_GOV_VNOW_CAPPED capped
    let s := (s.put R.PWR_GOV_BUSY_FRACTION (min 255 (busy * 256 / len))).put R.PWR_GOV_BUSY_PIPE pipe
    .next (if tokenPs = 0 then s else s.put R.PWR_GOV_CAP_GBPS (min 65535 (1024000 / tokenPs)))

/-- BURST_JUMP (R30): the receive FIFO of a port has filled beyond half its depth. -/
def execBurstJump (p : Fin 10) (s : State) : Answer :=
  match s.govFloor with
  | none => .next s
  | some lower =>
    if !s.boot.configured || s.boot == .hold || decide (s.bfifoLevel (rxBfifo p.val) ≤ 128) then .next s
    else
      .next (((s.put R.PWR_GOV_VNOW_BURST 1).showTarget (max lower s.gov.ceil)).setBurst 2)

end Sys2Proof.Machine
end

