-- ==== Sys2Proof/Machine/Fwu.lean ====
section
/-! DEFINITION. Firmware update (R532 to R554): slots, compatibility, activation unit by unit, trial and fallback. -/

namespace Sys2Proof.Machine

/-! ## Slots (R533, R535, R553) -/

/-- Is a slot running, in an open trial or activation, or the previous slot of one? -/
def State.slotBusy (s : State) (slot : Nat) : Bool :=
  let part := slotPart slot
  if part = 4 then slot == 6 + s.proof.slot
  else
    let running := (partUnits part).any fun u => s.unitSlot u == slot
    let previous := s.fwu.phase != 0 && (partUnits part).any fun u => nth s.fwu.trial u false && slotOf part (nth s.fwu.prev u false) == slot
    let activating : Bool := match s.fwu.act with
      | some a => (match nth a.parts (part - 1) none with
        | some b => slotOf part b == slot
        | none => false)
      | none => false
    running || previous || activating

/-- What is known of a slot's image is forgotten (R536, R554). -/
def State.forgetSlot (s : State) (slot : Nat) : State := s.setFwu fun f => { f with slots := mapErase f.slots slot }

/-- SLOT_ERASE; carried out in one step (log entry 44). -/
def execSlotErase (m : Master) (tag : BitVec 8) (s : State) : Answer :=
  .next (s.onCommand m .fwu tag fun s =>
    let slot := s.argBits .fwu 0 0 3
    if s.slotBusy slot then s.done .fwu .state
    else
      let s := (List.range (slotSize slot)).foldl (fun s i => s.norErase (slotBase slot + i)) (s.forgetSlot slot)
      ((s.drive (eraseCmds slot)).put (R.H_STATUS_PROGRESS Block.fwu.base) (slotSize slot / 65536)).done .fwu .ok)

/-- Octets of the host exchange buffers at the start of the DRAM window (R558). -/
def exchangeSize : Nat := 0x4000000

/-- SLOT_WRITE. -/
def execSlotWrite (m : Master) (tag : BitVec 8) (s : State) : Answer :=
  .next (s.onCommand m .fwu tag fun s =>
    let slot := s.argBits .fwu 0 0 3
    let off := (s.arg .fwu 1).toNat
    let src := (s.arg .fwu 2).toNat
    let len := (s.arg .fwu 3).toNat
    if off % 256 ≠ 0 ∨ src % 8 ≠ 0 ∨ len = 0 ∨ len % 256 ≠ 0 ∨ slotSize slot < off + len ∨ exchangeSize < src + len then s.done .fwu .range
    else if s.slotBusy slot then s.done .fwu .state
    else
      let s := (List.range len).foldl (fun s i =>
        s.norProgram (slotBase slot + off + i) (Memory.read s.dram (src + i)).toNat) (s.forgetSlot slot)
      ((s.drive (programCmds (slotBase slot + off) len)).put (R.H_STATUS_PROGRESS Block.fwu.base) (ceilDiv len 4096)).done .fwu .ok)

/-- SLOT_VERIFY (R535). -/
def execSlotVerify (m : Master) (tag : BitVec 8) (s : State) : Answer :=
  .next (s.onCommand m .fwu tag fun s =>
    let slot := s.argBits .fwu 0 0 3
    let s := s.drive (s.slotReads slot)
    let (c, x) := s.verifyImage slot
    let s := s.setFwu fun f => { f with slots := mapSet f.slots slot { x with verified := c == .ok, result := c.num } }
    (s.evt .fwu E.FWU_VERIFY_DONE).done .fwu c)

/-! ## CHECK and ACTIVATE (R538 to R540) -/

/-- The parts a command names, with their slots. -/
def State.namedParts (s : State) : List (Option Bool) :=
  [0, 1, 2].map fun i => if natBit (s.arg .fwu 0).toNat i then some (natBit (s.arg .fwu 1).toNat i) else none

/-- CHECK (R538). -/
def execCheck (m : Master) (tag : BitVec 8) (s : State) : Answer :=
  .next (s.onCommand m .fwu tag fun s =>
    let e := s.argBits .fwu 2 0 16
    if s.argBits .fwu 0 0 3 = 0 then s.done .fwu .range
    else match s.checkSets s.namedParts (if e = 0 then s.proof.iface else e) with
      | none => s.done .fwu .ok
      | some (a, b) => s.complete .fwu .state 0 (BitVec.ofNat 32 a) (BitVec.ofNat 32 b) 0)

/-- ACTIVATE's opcode. -/
def opActivate : Nat := 5

/-- May an activation begin (R539), apart from the sets? -/
def State.mayActivate (s : State) (parts : List (Option Bool)) : Bool :=
  let state := s.get R.PWR_STATE_STATE
  s.fwu.phase == 0 && s.fwu.act.isNone && !s.pfWarn && s.boot.hasDirectory && decide (state ≤ 1) && !s.on R.PWR_STATE_TRANS
    && [1, 2, 3].all fun p => match nth parts (p - 1) none with
      | some b => (mapGetD s.fwu.slots (slotOf p b) {}).verified && !((partUnits p).all fun u => s.unitSlot u == slotOf p b)
      | none => true

/-- ACTIVATE: the new set is committed as the trial set before the first step. -/
def execActivate (m : Master) (tag : BitVec 8) (s : State) : Answer :=
  .next (s.onCommand m .fwu tag fun s =>
    let parts := s.namedParts
    if s.argBits .fwu 0 0 3 = 0 then s.done .fwu .range
    else match s.checkSets parts s.proof.iface with
      | some (a, b) => s.complete .fwu .state 0 (BitVec.ofNat 32 a) (BitVec.ofNat 32 b) 0
      | none =>
        if !s.mayActivate parts then s.done .fwu .state
        else
          let units := (List.range 15).filter fun u => (nth parts (unitPart u - 1) none).isSome
          let s := s.setFwu fun f => { f with
            phase := 1, prev := f.run, trial := List.replicate 15 false
            act := some { parts := parts, units := units, stage := .start, done := [], start := s.lin, stop := false } }
          s.startRun .fwu (s.mkRun .fwu opActivate m tag false))

/-! ## Units (R541 to R545) -/

/-- PEEL_PAUSE.FWU: bits set or cleared; what was held back is granted when they clear (R297). -/
def State.pauseFwu (s : State) (mask : Nat) (on : Bool) : State :=
  let old := s.get R.PEEL_PAUSE_FWU
  let s := s.put R.PEEL_PAUSE_FWU (if on then old ||| mask else old - (old &&& mask))
  if on then s else s.regrant

/-- The activation is over: a trial opens if units were activated (R544, R546). -/
def State.endActivation (s : State) (c : Code) : State :=
  match s.fwu.act with
  | none => s
  | some a =>
    let opened := s.fwu.trial.contains true
    let s := s.setFwu fun f => { f with act := none, phase := if opened then 2 else 0, boots := 0 }
    let s := (s.put R.FWU_STATE_UNIT 0).evt .fwu E.FWU_ACT_DONE
    let s := if opened then s.openWindow.evt .fwu E.FWU_TRIAL_OPEN else s
    if c = .ok then s.complete .fwu .ok 0 (BitVec.ofNat 32 ((s.lin - a.start) / 10 ^ 6)) (BitVec.ofNat 32 a.done.length) 0
    else s.done .fwu c

/-- A unit has been activated: the next one, or the end, for which the record is written: under a power-fail warning it waits (R93). -/
def State.endUnit (s : State) (a : Activation) (u : Nat) : State :=
  let a := { a with done := a.done ++ [u], units := a.units.drop 1, stage := .start }
  let s := (s.setFwu fun f => { f with act := some a }).ledOut .fwu 1
  let s := s.put (R.H_STATUS_PROGRESS Block.fwu.base) a.done.length
  if a.units.isEmpty then (if s.pfWarn then s else s.endActivation .ok) else if a.stop then s.endActivation .aborted else s

/-- The unit takes its new slot in the record, on trial. -/
def State.recordUnit (s : State) (a : Activation) (u : Nat) : State :=
  s.setFwu fun f => { f with run := f.run.set u ((nth a.parts (unitPart u - 1) none).getD false), trial := f.trial.set u true }

/-- Change the stage of the unit in progress. -/
def State.unitStage (s : State) (a : Activation) (st : UnitStage) : State := s.setFwu fun f => { f with act := some { a with stage := st } }

/-- A chain unit enters OFF, loads, and starts again (R542). -/
def State.loadChain (s : State) (a : Activation) (u : Nat) : State :=
  let s := ((s.toOff (u - 1) false).recordUnit a u).loadUnit u
  (s.chainStart (u - 1)).unitStage a .back

/-- A unit begins. -/
def State.beginUnit (s : State) (a : Activation) (u : Nat) : State :=
  let s := (s.ledIn .fwu 1).put R.FWU_STATE_UNIT u
  if !s.pdOn (unitDomain u) then (s.recordUnit a u).endUnit a u
  else if u = 0 then
    let s := s.pauseFwu 0xF true
    let taken := s.peel.items.filter fun x => x.2.st == .taken && decide (5 ≤ x.2.target) && decide (x.2.target ≤ 8)
    let s := taken.foldl (fun s x => s.finishItem x.1 .aborted 0) s
    (((s.recordUnit a u).loadUnit u).put R.FWU_STATE_MEAS_STALE 1).unitStage a .back
  else if u < 5 then
    let s := s.pauseFwu (2 ^ (u - 1)) true
    if (s.chain (u - 1)).jobs.isEmpty then s.loadChain a u else s.unitStage a .drain
  else
    (((s.retrain (unitPort u)).recordUnit a u).loadUnit u).unitStage a .back

/-- ACTIVATE_UNIT (R541, R542): the activation goes as far as the present state lets it: the next unit begins, a drained chain loads, a
unit that is back in service ends; under a power-fail warning FWU writes no record and takes no step (R93). -/
def execActivateUnit (s : State) : Answer :=
  match s.fwu.act with
  | none => .next s
  | some a =>
    match a.units with
    | [] => .next s
    | u :: _ =>
      if s.fenced .fwu || !s.pdOn 3 || s.pfWarn then .next s
      else match a.stage with
        | .start => .next (if a.stop then s.endActivation .aborted else s.beginUnit a u)
        | .drain => .next (if (s.chain (u - 1)).jobs.isEmpty then s.loadChain a u else s)
        | .back =>
          if u = 0 then .next s
          else if u < 5 then
            let n := u - 1
            if s.rfState n = rfRx ∨ !s.rfPowered n ∨ !s.on (R.RF_CTL_EN n) then .next ((s.pauseFwu (2 ^ n) false).endUnit a u) else .next s
          else if s.linkUp (unitPort u) ∨ !s.powered (portBlock (unitPort u)) then .next (s.endUnit a u)
          else .next s

/-- LINK_WAIT_TIMEOUT (R543). -/
def execLinkWaitTimeout (s : State) : Answer :=
  match s.fwu.act with
  | none => .next s
  | some a =>
    match a.units with
    | [] => .next s
    | u :: _ =>
      if u < 5 ∨ a.stage ≠ .back ∨ s.linkUp (unitPort u) ∨ s.fenced .fwu ∨ s.pfWarn then .next s
      else
        let s := s.setFwu fun f => { f with run := f.run.set u (nth f.prev u false), trial := f.trial.set u false }
        let s := ((s.loadUnit u).retrain (unitPort u)).ledDrop .fwu 1
        let s := (s.put R.FWU_STATE_PARTIAL 1).evt .fwu E.FWU_PORT_REVERT
        .next (s.endActivation .timeout)

/-- FWU_DRAIN_EXPIRED (R542): the chain enters OFF with the jobs it still holds. -/
def execFwuDrainExpired (s : State) : Answer :=
  match s.fwu.act with
  | none => .next s
  | some a =>
    match a.units with
    | [] => .next s
    | u :: _ => if a.stage = .drain ∧ !s.fenced .fwu ∧ !s.pfWarn then .next (s.loadChain a u) else .next s

/-- CTRL_FIRMWARE_RUNNING (R542): the cores run again. -/
def execCtrlFirmwareRunning (s : State) : Answer :=
  match s.fwu.act with
  | none => .next s
  | some a =>
    if a.units.head? = some 0 ∧ a.stage = .back then .next ((s.pauseFwu 0xF false).endUnit a 0) else .next s

/-- The activation ends at once for a reason from outside; the unit in progress is caught or dropped and its pause is over. -/
def State.cutActivation (s : State) (c : Code) : State :=
  match s.fwu.act with
  | none => s
  | some a =>
    let s := if a.stage = .start then s else if c = .fenced then s.ledFence .fwu 1 else s.ledDrop .fwu 1
    (s.pauseFwu 0xF false).endActivation c

/-! ## Trial (R546 to R551) -/

/-- CONFIRM's opcode. -/
def opConfirm : Nat := 6

/-- The record makes the trial set the present set, and CONFIRM ends (R547). -/
def State.confirmTrial (s : State) : State :=
  let s := s.setFwu fun f => { f with phase := 0, boots := 0, trial := List.replicate 15 false, prev := f.run }
  (s.evt .fwu E.FWU_CONFIRMED).done .fwu .ok

/-- CONFIRM (R547, R551); under a power-fail warning its record waits (R93). -/
def execConfirm (m : Master) (tag : BitVec 8) (s : State) : Answer :=
  .next (s.onCommand m .fwu tag fun s =>
    match m with
    | .core _ =>
      if s.fwu.phase ≠ 2 then s.done .fwu .state
      else if s.pfWarn then s.startRun .fwu (s.mkRun .fwu opConfirm m tag false)
      else s.confirmTrial
    | _ => s.done .fwu .locked)

/-- FWU falls back and starts the software reset (R548). -/
def State.fallAndReset (s : State) (cause : Nat) : State := { s.fallBack cause with resetAsked := some 3 }

/-- FALLBACK's opcode. -/
def opFallback : Nat := 7

/-- FALLBACK (R548): the reset follows and the command does not complete. -/
def execFallback (m : Master) (tag : BitVec 8) (s : State) : Answer :=
  .next (s.onCommand m .fwu tag fun s =>
    if s.arg .fwu 0 ≠ 0xFA11 then s.done .fwu .range
    else if s.fwu.phase ≠ 2 then s.done .fwu .state
    else
      let s := s.startRun .fwu (s.mkRun .fwu opFallback m tag false)
      if s.pfWarn then s else s.fallAndReset 2)

/-- TRIAL_WINDOW_EXPIRED (R548, R551); under a power-fail warning the record waits (R93). -/
def execTrialWindowExpired (s : State) : Answer :=
  if s.fwu.phase ≠ 2 ∨ !s.pdOn 3 then .next s
  else
    let s := s.advanceTo (linOfNs s.fwu.trialEnd)
    .next (if s.pfWarn then s else s.fallAndReset 1)

/-- FWU's record is written again as a power-fail warning ends (R93, R95, R544): an activation stops at its next unit boundary; what
CONFIRM, FALLBACK, the end of the trial window or of the last unit wanted written is written. -/
def State.fwuResumed (s : State) : State :=
  let s := s.setFwu fun f => { f with act := f.act.map fun a => { a with stop := true } }
  if s.runOp .fwu = some opConfirm then s.confirmTrial
  else if s.runOp .fwu = some opFallback ∧ s.fwu.phase = 2 then s.fallAndReset 2
  else if s.fwu.phase = 2 ∧ s.fwu.trialEnd ≤ s.lin ∧ s.fwu.act = none then s.fallAndReset 1
  else match s.fwu.act with
    | some a => if a.units.isEmpty then s.endActivation .ok else s
    | none => s

/-- KEY_REVOKE (R553). -/
def execKeyRevoke (m : Master) (tag : BitVec 8) (s : State) : Answer :=
  .next (s.onCommand m .fwu tag fun s =>
    let k := s.argBits .fwu 0 0 2
    let left := [0, 1, 2, 3].filter fun i => !natBit s.fwu.revoked i
    if s.arg .fwu 1 ≠ 0x4B1D then s.done .fwu .range
    else if left = [k] then s.done .fwu .state
    else (s.setFwu fun f => { f with revoked := f.revoked ||| 2 ^ k }).done .fwu .ok)

end Sys2Proof.Machine
end

