-- ==== Sys2Proof/Machine/Host.lean ====
section
/-! DEFINITION. The host interface (R555 to R572, R581 to R584, R597): link, queue pairs, descriptors, parked frames, messages, BAR2. -/

namespace Sys2Proof.Machine

def opQCreate : Nat := 1
def opQDelete : Nat := 2

/-! ## The link (R555 to R557, R597) -/

/-- A register of the HOST block back to its Reset value: the HOST_Qq registers but STATE, and the MSI-X structures. -/
def hostResetKey (key : Nat) : Bool :=
  (decide (0xC1000 ≤ key) && decide (key < 0xC2000) && key % 0x40 != 0) || (decide (0xC2000 ≤ key) && decide (key < 0xC3000))

/-- The reset of HOST alone (R556): queues that are UP become REVOKED; what the engine held of a queue goes with its registers. -/
def State.hostReset (s : State) (bit : Nat) : State :=
  let s := (List.range 64).foldl (fun s q => if s.queueUp q then s.revoke q else s) s
  { s with regs := s.regs.filter fun p => !hostResetKey p.1, host := { s.host with queues := [] } }.evt .host bit

/-- The link is down. -/
def State.linkGone (s : State) : State := (s.put R.HOST_LINK_SPEED 0).put R.HOST_LINK_WIDTH 0

/-- PCIE_LINK_LOSS: a hot reset or a loss of the data link. -/
def execPcieLinkLoss (s : State) : Answer :=
  .next (if !s.powered .host then s else ((s.hostReset E.HOST_LINK_DOWN).bump R.HOST_LINK_DOWNS 1).linkGone)

/-- PCIE_FLR: the link stays. -/
def execPcieFlr (s : State) : Answer := .next (if !s.powered .host then s else s.hostReset E.HOST_FLR)

/-- PERST (R597): as a hot reset; a link that was up is lost. -/
def execPerst (s : State) : Answer :=
  .next (
    if !s.powered .host then s
    else
      let up := s.on R.HOST_LINK_SPEED
      let s := s.hostReset E.HOST_LINK_DOWN
      (if up then s.bump R.HOST_LINK_DOWNS 1 else s).linkGone)

/-- PCIE_LINK_UP: generation 1 to 4 and 1, 2 or 4 lanes. -/
def execPcieLinkUp (speed : Fin 4) (width : Fin 3) (s : State) : Answer :=
  .next (
    if !s.powered .host then s
    else (s.put R.HOST_LINK_SPEED (speed.val + 1)).put R.HOST_LINK_WIDTH (2 ^ width.val))

/-! ## Messages of queues (R572) -/

/-- Packets written or write-backs made: a message when COAL.PKTS of them have gathered. -/
def State.coalRx (s : State) (q : Nat) : State :=
  let n := (s.queue q).rxSince + 1
  if s.get (R.HOST_Q_COAL_PKTS q) ≤ n then (s.setQueue q fun x => { x with rxSince := 0 }).msi (64 + q)
  else s.setQueue q fun x => { x with rxSince := n }

def State.coalTx (s : State) (q : Nat) : State :=
  let n := (s.queue q).txSince + 1
  if s.get (R.HOST_Q_COAL_PKTS q) ≤ n then (s.setQueue q fun x => { x with txSince := 0 }).msi (128 + q)
  else s.setQueue q fun x => { x with txSince := n }

/-- COAL_TIMER: COAL.US has passed since the first packet, or write-back, after the last message. -/
def execCoalTimer (q : Fin 64) (tx : Bool) (s : State) : Answer :=
  let x := s.queue q.val
  .next (
    if !s.powered .host || !s.on (R.HOST_Q_COAL_US q.val) then s
    else if tx then (if x.txSince = 0 then s else (s.setQueue q.val fun x => { x with txSince := 0 }).msi (128 + q.val))
    else if x.rxSince = 0 then s else (s.setQueue q.val fun x => { x with rxSince := 0 }).msi (64 + q.val))

/-- MSIX_UNMASK: the mask of a vector is cleared; a pending message goes. -/
def execMsixUnmask (m : Master) (v : Fin 64) (s : State) : Answer :=
  .next (
    if !s.hears m then s
    else if !s.powered .host then s.offWrite
    else
      let s := s.put (R.HOST_MSIX_CTL_MASK v.val) 0
      let f : Fld := ⟨(R.HOST_MSIX_PBA_PEND (v.val / 32)).a, v.val % 32, 1⟩
      if s.on f then { s.put f 0 with msixSent := mapModify s.msixSent v.val 0 (· + 1) } else s)

/-! ## Queue pairs (R559, R560) -/

/-- May a queue be created with the values its registers hold? -/
def State.queueOk (s : State) (q : Nat) : Bool :=
  let rx := s.get (R.HOST_Q_CFG_RXLOG2 q)
  let tx := s.get (R.HOST_Q_CFG_TXLOG2 q)
  let buf := s.get (R.HOST_Q_CFG_BUF q)
  let c := s.get (R.HOST_Q_CFG_TXC q)
  decide (6 ≤ rx) && decide (rx ≤ 12) && decide (6 ≤ tx) && decide (tx ≤ 12) && decide (8 ≤ buf) && decide (buf ≤ 64)
    && decide (1 ≤ c) && decide (c ≤ 4096) && decide (c ≤ 2 ^ tx)
    && s.get (R.HOST_Q_RXBASE_LO_ADDR q) % 4096 == 0 && s.get (R.HOST_Q_TXBASE_LO_ADDR q) % 4096 == 0

/-- Q_CREATE. -/
def execQCreate (m : Master) (tag : BitVec 8) (s : State) : Answer :=
  .next (s.onCommand m .host tag fun s =>
    let q := s.argBits .host 0 0 6
    if s.get (R.HOST_Q_STATE_STATE q) = 1 then s.done .host .state
    else if !s.queueOk q then s.done .host .range
    else
      let rxC := 2 ^ s.get (R.HOST_Q_CFG_RXLOG2 q)
      let txC := s.get (R.HOST_Q_CFG_TXC q)
      let fresh (k : Link) (c : Nat) : Link := { k with c := c, producer := c, flight := 0, consumer := 0, host := 0, parked := 0, waiting := false }
      let s := (s.setLink (10 + q) fun k => fresh k rxC).setLink (74 + q) fun k => fresh k txC
      let s := s.setQueue q fun _ => {}
      let s := { s with host := { s.host with rxRing := mapErase s.host.rxRing q, txRing := mapErase s.host.txRing q } }
      (s.put (R.HOST_Q_STATE_STATE q) 1).done .host .ok)

/-- A from-host descriptor is written back (R565, R566): status, first cell, GEN; one credit returns. -/
def State.writeBack (s : State) (q : Nat) (c : Code) (cell : Nat) : State :=
  let x := s.queue q
  let size := 2 ^ s.get (R.HOST_Q_CFG_TXLOG2 q)
  let d := c.num + cell * 2 ^ 32 + (if x.txGen then 2 ^ 120 else 0)
  let s := { s with host := { s.host with txRing := mapSet s.host.txRing q (mapSet (mapGetD s.host.txRing q []) x.txIdx d) } }
  let s := s.setQueue q fun x => { x with
    posted := x.posted - 1, txIdx := (x.txIdx + 1) % size, txGen := if x.txIdx + 1 = size then !x.txGen else x.txGen }
  ((s.refund (74 + q)).bumpSat (R.HOST_Q_TX_PKTS_COUNT q) 1).coalTx q

/-- Q_DELETE. -/
def execQDelete (m : Master) (tag : BitVec 8) (s : State) : Answer :=
  .next (s.onCommand m .host tag fun s =>
    let q := s.argBits .host 0 0 6
    if s.get (R.HOST_Q_STATE_STATE q) = 0 then s.done .host .state
    else
      let s := if s.queueUp q then s.revoke q else s
      let s := (List.range (s.queue q).posted).foldl (fun s _ => s.writeBack q .aborted 0) s
      let gone (k : Link) : Link := { k with c := 0, producer := 0, flight := 0, consumer := 0, host := 0, parked := 0, waiting := false }
      let s := (s.setLink (10 + q) gone).setLink (74 + q) gone
      (s.put (R.HOST_Q_STATE_STATE q) 0).done .host .ok)

/-- RX_RET (R564): the host hands descriptors back. -/
def execRxRet (m : Master) (q : Fin 64) (n : BitVec 13) (s : State) : Answer :=
  let l := 10 + q.val
  .next (
    if !s.hears m then s
    else if !s.powered .host then s.offWrite
    else if (s.link l).host < n.toNat then s.refuse .host (0x1018 + 0x40 * q.val)
    else s.setLink l fun k => { k with
      host := k.host - n.toNat, producer := k.producer + n.toNat, waiting := k.waiting && n == 0 })

/-- TX_POST (R566): the host posts descriptors. -/
def execTxPost (m : Master) (q : Fin 64) (n : BitVec 13) (s : State) : Answer :=
  let l := 74 + q.val
  .next (
    if !s.hears m then s
    else if !s.powered .host then s.offWrite
    else if !s.queueUp q.val || decide ((s.link l).producer < n.toNat) then s.refuse .host (0x101C + 0x40 * q.val)
    else
      let s := s.setLink l fun k => { k with
        producer := k.producer - n.toNat, consumer := k.consumer + n.toNat, sent := k.sent + n.toNat, accepted := k.accepted + n.toNat }
      s.setQueue q.val fun x => { x with posted := x.posted + n.toNat })

/-! ## Frames from the host (R411, R565 to R567) -/

/-- TX_DESCRIPTOR_FETCH: the next posted descriptor of a queue and its frame, `data` its octets.  Without cells for the frame it is not fetched (R436). -/
def execTxDescriptorFetch (q : Fin 64) (len : BitVec 14) (dest : Fin 16) (tsReq oneStep : Bool) (tag : BitVec 16) (offset : BitVec 14)
    (x : FrameFacts) (data : List Octet) (s : State) : Answer :=
  let n := len.toNat
  let d := dest.val
  .next (
    if !s.queueUp q.val || s.fenced .host || (s.queue q.val).posted == 0 then s
    else
      let lenOk := if d = 15 then decide (1 ≤ n) && decide (n ≤ 2047) else decide (1 ≤ n) && decide (n ≤ 9212)
      if !lenOk || !(decide (d ≤ 9) || d == 11 || d == 12 || d == 15) then s.writeBack q.val .range 0
      else match s.allocPacket (64 + q.val) (if d = 15 then n else n + 4) with
        | none => s
        | some (s, cs) =>
          let s := ((s.passOctets 30 (data.take n)).fillCells cs (data.take n)).ledIn .host 1
          if d = 15 then
            let first := cs.headD 0
            let s := { s with host := { s.host with parked := mapSet s.host.parked first ⟨q.val, cs, n⟩ } }
            s.writeBack q.val .ok first
          else
            let f : Frame := {
              port := 15, queue := q.val, x := { x with octets := n + 4 }, len := n + 4, stage := .checked, cells := cs, pipe := d - 11
              desc := some { len := n, dest := d, tsReq := tsReq, oneStep := oneStep, tag := tag, offset := offset.toNat } }
            let b := if d ≤ 9 then dpBlock (dpOf d) else pipeBlock (d - 11)
            let fencedTo := if d ≤ 9 then s.groupFenced (txGroup d) else s.fenced b
            let lost (c : Cause) : State :=
              ((s.dropPacket .host c (n + 4) 15 (64 + q.val) 0).freeCells .drop cs).writeBack q.val .ok 0
            if 11 ≤ d then
              if fencedTo then ((((s.ledOut .host 1).sink b).sinkCells cs).dropRecord b .fenced (n + 4) 15 (64 + q.val) 0).writeBack q.val .fenced 0
              else (s.addFrame f).writeBack q.val .ok 0
            else if !s.powered (portBlock d) || !s.powered b then lost .power
            else if !s.credit d then lost .nocredit
            else if fencedTo then
              ((((s.ledOut .host 1).sink b).sinkCells cs).dropRecord b .fenced (n + 4) 15 (txGroup d) 0).writeBack q.val .fenced 0
            else
              let s := ((s.ledOut .host 1).handCells cs (txGroup d)).spend d
              (s.addFrame { f with stage := .forwarded, egress := [{ port := d }] }).writeBack q.val .ok 0)

/-- PARK_EXPIRED (R567): no job named the frame's cell in time. -/
def execParkExpired (cell : Nat) (s : State) : Answer :=
  .next (match mapGet s.host.parked cell with
    | none => s
    | some f =>
      let s := { s with host := { s.host with parked := mapErase s.host.parked cell } }
      ((s.freeCells .drop f.cells).ledDrop .host 1).evt .host E.HOST_PARK_EXPIRED)

/-! ## Packets toward the host (R561 to R564) -/

/-- Octets 8 to 31 of descriptor i of a packet's d: the layout of R562. -/
def descriptorOf (p : HostPkt) (buf seq i : Nat) (gen : Bool) : Nat :=
  let b (x : Bool) : Nat := if x then 1 else 0
  let last := i + 1 == p.descs
  let len := if last then p.octets - i * buf else buf
  len + 2 ^ 16 * b (i == 0) + 2 ^ 17 * b last + 2 ^ 18 * b p.authFail + 2 ^ 19 * b p.stamp.isSome + 2 ^ 24 * p.kind + 2 ^ 28 * p.src
    + 2 ^ 32 * (if i = 0 then p.octets else 0)
    + 2 ^ 64 * (p.stamp.getD 0).toNat
    + 2 ^ 128 * (p.sa.getD 0 + 2 ^ 14 * b p.sa.isSome)
    + 2 ^ 160 * (seq % 2 ^ 24) + 2 ^ 184 * b gen

/-- A message of control firmware of core c is offered to its queue (R135, R561). -/
def State.offerMessage (s : State) (c : Fin 4) (octets : Nat) : State :=
  match s.allocPacket (52 + c.val) octets with
  | none => s
  | some (t, cs) =>
    let p : HostPkt :=
      { kind := 2, src := c.val, octets := octets, stamp := some (s.stamp c.val 6), authFail := false, sa := none, cells := cs, descs := 0 }
    match t.offerHost (t.on R.HOST_MAP_FW_VALID) (t.get R.HOST_MAP_FW_Q) p with
    | (t, .taken) => t
    | (t, .noQueue) => t.freeCells .drop cs
    | (_, .noCredit k) => s.setLink (10 + k) fun k => { k with waiting := true }

/-- HOST_DELIVER: the first packet handed to a queue is written into its descriptors; or a message of control firmware, of a core and
of some octets, comes to be handed to its queue. -/
def execHostDeliver (q : Fin 64) (message : Option (Fin 4 × BitVec 18)) (s : State) : Answer :=
  .next (match message with
    | some (c, n) => if s.pdOn 13 && decide (0 < n.toNat) then s.offerMessage c n.toNat else s
    | none =>
      let k := q.val
      if !s.queueUp k || s.fenced .host then s
      else match (s.queue k).toHost with
        | [] => s
        | p :: rest =>
          let size := 2 ^ s.get (R.HOST_Q_CFG_RXLOG2 k)
          let buf := s.get (R.HOST_Q_CFG_BUF k) * 256
          let x := s.queue k
          let seq := x.seq + 1
          let gen (i : Nat) : Bool := if x.rxIdx + i < size then x.rxGen else !x.rxGen
          let ring := (List.range p.descs).foldl (fun m i => mapSet m ((x.rxIdx + i) % size) (descriptorOf p buf seq i (gen i)))
            (mapGetD s.host.rxRing k [])
          let s := { s with host := { s.host with rxRing := mapSet s.host.rxRing k ring, written := mapSet s.host.written k p.data } }
          let s := s.setQueue k fun x => { x with
            toHost := rest, seq := seq, rxIdx := (x.rxIdx + p.descs) % size, rxGen := gen p.descs }
          let s := s.setLink (10 + k) fun l => { l with consumer := l.consumer - p.descs, host := l.host + p.descs }
          let s := if p.data.isEmpty then s.passFree 31 (ceilDiv p.octets 32) else s.passOctets 31 p.data
          let s := (s.freeCells .out p.cells).ledOut .host 1
          (s.bumpSat (R.HOST_Q_RX_PKTS_COUNT k) 1).coalRx k)

/-! ## BAR2 (R558) -/

/-- BAR2_ACCESS: a write of octets, or a read of `n`, at an offset of the window; the data pass the PCIe FIFOs (R46). -/
def execBar2Access (write : Bool) (a : BitVec 28) (n : BitVec 12) (l : List Octet) (s : State) : Answer :=
  .next (
    if !s.powered .host then s
    else if write then
      let s := s.passOctets 30 l
      let s := s.dramWrite a.toNat (l.take (dramSize - a.toNat))
      if dramSize < a.toNat + l.length then s.bumpSat R.HOST_BAR2_UNMAPPED_COUNT 1 else s
    else
      let m := min n.toNat (dramSize - a.toNat)
      let l := s.dramRead a.toNat m ++ List.replicate (n.toNat - m) 0
      let s := s.passOctets 31 l
      { s with host := { s.host with bar2 := l } })

end Sys2Proof.Machine
end

