-- ==== Sys2Proof/Machine/Fence.lean ====
section
/-! DEFINITION. Fences (R35 to R45, R66 to R69, R205, R304, R306, R333, R397, R456, R503, R623): what the fence of each stage group does to
what is in it, and how a command in progress ends from outside. -/

namespace Sys2Proof.Machine

/-! ## The end of a command in progress (R66, R67, R82) -/

/-- A latched set goes back to the staged writes. -/
def State.unlatch (s : State) (b : Block) : State :=
  match (s.blk b).latched with
  | none => s
  | some l =>
    let s := s.setBlk b fun x => { x with
      latched := none, deferred := false, pend := x.pend ++ (l.writes.map (·.1)).filter fun k => !x.pend.contains k }
    ((s.put (R.H_CFG_PEND_APPLYING b.base) 0).put (R.H_CFG_PEND_DEFERRED b.base) 0).put (R.H_CFG_PEND_PENDING b.base) 1

/-- Posts of a hardware producer that wait are withdrawn; answers how many there were. -/
def State.dropPosts (s : State) (p : Nat) : State × Nat :=
  ({ s with peel := { s.peel with hwWait := s.peel.hwWait.filter fun x => x.producer != p } },
   (s.peel.hwWait.filter fun x => x.producer == p).length)

/-- A state change that ENTER_RUN, ENTER_TRIM or ENTER_HOLD started is stopped (R66): its one unit is the whole change, so the device is
again in the state it was leaving (log entry 73). -/
def State.stopTransition (s : State) : State :=
  let s := s.put R.PWR_STATE_TRANS 0
  if s.entering then { s with entering := false, wake := none }.regrant
  else if s.get R.PWR_STATE_STATE = 1 then s.enterTrim
  else s

/-- The running command of a block ends with a code, its completed units standing.  Of a device-wide COMMIT the blocks that have applied stay
so, and the sets not yet applied go back among the staged writes (R66; DESIGN CHOICE, log entry 72). -/
def State.endRunning (s : State) (b : Block) (c : Code) : State :=
  match (s.blk b).run with
  | none => s
  | some r =>
    if r.op = opCommit then
      match b with
      | .sys =>
        let s := Block.all.foldl (fun s k => match (s.blk k).latched with
          | some l => if l.device && !l.rxDone && !(s.blk k).deferred then s.unlatch k else s
          | none => s) s
        { s with devCommit := none }.done b c
      | _ => (if c = .fenced then s.deferSet b else s.unlatch b).done b c
    else match b with
      | .starter => s.dropKeyOp c
      | .pwr => s.stopTransition.done b c
      | .tb => if c = .aborted then s.abortSlew else s.endSlew c
      | .dir => (s.dropDirItem c).done b c
      | .crust x =>
        let s := match s.crust.deleting with
          | some (i, e) => if x.val = 0 then { s with crust := { deleting := none, sas := mapSet s.crust.sas i e } } else s
          | none => s
        s.done b c
      | .rf n => if r.op = opCalRun then s.cutCalRun n.val c else s.done b c
      | .wb n => ((s.setWb n.val fun w => { w with capture := none }).put (R.WB_CAP_STAT_BUSY n.val) 0).done b c
      | .flood => (({ s with peel := { s.peel with hwWait := s.peel.hwWait.filter fun x => !x.cmd } }).dropGap).done b c
      | .fwu => if r.op ≠ opActivate then s.done b c
        else if c = .aborted then s.setFwu fun f => { f with act := f.act.map fun a => { a with stop := true } }
        else s.cutActivation c
      | _ => s.done b c

/-! ## What is in a group when it is fenced -/

/-- A frame's cells that a group owns stay with the group, until they are reclaimed (R40, R456). -/
def State.leaveCells (s : State) (i g : Nat) : State :=
  s.setFrame i fun f => { f with cells := f.cells.filter fun c => match s.tag c with
    | some t => t.owner != g
    | none => false }

/-- The receive path of some ports (R45): frames in it are caught; what has left of them ends with a bad FCS. -/
def State.fenceRx (s : State) (g : Nat) : State :=
  s.frames.foldl (fun s x =>
    match mapGet s.frames x.1 with
    | none => s
    | some f =>
      if f.port < 10 ∧ rxGroup f.port = g ∧ f.icv = .pending then
        (((s.portPassed x.1 f).ledFence (dpBlock (dpOf f.port)) 1).leaveCells x.1 g).abandon x.1
      else s) s

/-- An egress in a fenced transmit path: the queue's slot stays taken until the group is unfenced. -/
def State.fenceEgress (s : State) (i g : Nat) (f : Frame) (e : Egress) : State :=
  let b := dpBlock (dpOf e.port)
  let s := if e.st = .waiting then s.sink b else s.ledFence b 1
  let s := if e.st = .sending then ((s.recordSent f e .bad).ledOut (portBlock e.port) 1).setFrame i fun f => { f with sent := true } else s
  (((s.leaveCells i g).setFrame i (·.dropEg e.port))).settle i

/-- The transmit path of some ports. -/
def State.fenceTx (s : State) (g : Nat) : State :=
  s.frames.foldl (fun s x =>
    (x.2.egress.filter fun e => txGroup e.port == g).foldl (fun s e =>
      match mapGet s.frames x.1 with
      | some f => (match f.eg e.port with
        | some e => s.fenceEgress x.1 g f e
        | none => s)
      | none => s) s) s

/-- The SA-fetch group of a datapath: keys in its working store are zeroised (R397). -/
def State.fenceSaFetch (s : State) (d : Nat) : State :=
  let wipe (x : Nat × SaEntry) : Nat × SaEntry :=
    if dpOfSa x.1 = d ∧ s.saInUse x.1 = true then
      (x.1, { x.2 with key := List.replicate x.2.key.length 0, hkey := List.replicate 16 0 })
    else x
  { s with crust := { s.crust with sas := s.crust.sas.map wipe, deleting := s.crust.deleting.map wipe } }

/-- Peel (R306, R333, R623): posts that wait end with FENCED. -/
def State.fencePeel (s : State) : State :=
  let w := s.mac.txnWait
  let s := { s with mac := { s.mac with txnWait := [] } }
  ((w.foldl (fun s x => s.fenceRec x.1 x.2) s).hwDrain).dirDrain

/-- The directory engine (R333, R304): its command ends, and restore items it has taken complete with FENCED. -/
def State.fenceDir (s : State) : State :=
  let s := s.dirFenced
  s.dir.work.foldl (fun s x =>
    let mine : Bool := match x.2, s.item x.1 with
      | .restore _, some it => it.st == .taken
      | _, _ => false
    if mine then { s with dir := { s.dir with work := mapErase s.dir.work x.1 } }.finishItem x.1 .fenced 0 else s) s

/-- The Viterbi pool of a chain: segments in it are caught (R220). -/
def State.fencePool (s : State) (n : Nat) : State :=
  let l := nth s.phy.pools n []
  { s with phy := { s.phy with pools := s.phy.pools.set n [], saved := s.phy.saved.filter fun x => x.1 / 32 != n } }.ledFence .phy l.length

/-- The MAC (R304, R623): node transactions it has taken or holds, and jobs it has in service. -/
def State.fenceMac (s : State) : State :=
  let (s, n) := s.dropPosts 6
  let s := s.ledFence .mac n
  let w := s.mac.txnWait
  let s := { s with mac := { s.mac with txnWait := [] } }
  let s := w.foldl (fun s x => (s.sink .mac).fenceRec x.1 x.2) s
  let taken := s.wb.flatMap fun p => p.2.recs.filterMap fun r => match r.2.item with
    | some id => if r.2.result.isNone then some (p.1, r.1, id) else none
    | none => none
  let s := taken.foldl (fun s x => match s.item x.2.2 with
    | some it => if it.st = .taken then ((s.sink .mac).fenceRec x.1 x.2.1).finishItem x.2.2 .fenced 0 else s
    | none => s) s
  let aiming := (s.peel.items.filter fun x => x.2.st == .aiming).map (·.1)
  let waiting := (s.mac.aims.filter fun x => x.2.returned).map (·.1)
  (aiming ++ waiting).foldl (fun s id => s.finishItem id .fenced 0) s

/-- Items that a control core has taken complete with FENCED (R304). -/
def State.fenceCore (s : State) (c : Nat) : State :=
  ((s.peel.items.filter fun x => x.2.st == .taken && x.2.target == 5 + c).map (·.1)).foldl (fun s id => s.finishItem id .fenced 0) s

/-- FLOOD: posts that wait are withdrawn, and relays whose timers are among them end. -/
def State.fenceFlood (s : State) : State :=
  let timers := s.peel.hwWait.filter fun x => x.producer == 8 && x.octets == 0 && nth x.words 5 0 == 0
  timers.foldl (fun s x => s.endRelay (nth x.words 4 0).toNat .fenced) (s.dropPosts 8).1

/-- Jobs of the check-value channels end. -/
def State.fenceCrc (s : State) : State :=
  (List.range 24).foldl (fun s c =>
    if s.crcRuns c then
      let s := ((s.put (R.CRC_STAT_STATE c) 3).put (R.CRC_STAT_RESULT c) Code.fenced.num).ledFence .crc 1
      let (x, s) := s.draw
      let s := { s with crc := { s.crc with rem := mapSet s.crc.rem c (x % 2 ^ 64) } }
      (s.bump (R.CRC_JOBS_COUNT c) 1).evt .crc (E.CRC_DONE + c)
    else s) s

/-- What the fence of a group does to what it holds. -/
def State.fenceHook (s : State) (g : Nat) : State :=
  if g = 0 ∨ g = 8 ∨ g = 16 ∨ g = 18 then s.fenceRx g
  else if g = 1 ∨ g = 9 ∨ g = 17 ∨ g = 19 then s.fenceTx g
  else if g = 2 then s.fenceSaFetch 0
  else if g = 10 then s.fenceSaFetch 1
  else if g = 20 then s.fenceSaFetch 2
  else if 28 ≤ g ∧ g ≤ 31 then s.fencePeel
  else if 32 ≤ g ∧ g ≤ 35 then s.fenceDir
  else if 36 ≤ g ∧ g ≤ 43 then (if g % 2 = 1 then s.fenceCtxs ((g - 37) / 2) else s)
  else if 44 ≤ g ∧ g ≤ 47 then s.fencePool (g - 44)
  else if g = 48 ∨ g = 51 then s.fenceMac
  else if g = 49 then
    let (s, n) := s.dropPosts 7
    s.ledFence .bcn n
  else if g = 50 then s.fenceFlood
  else if 52 ≤ g ∧ g ≤ 55 then s.fenceCore (g - 52)
  else if g = 56 then (s.dropKeyOp .fenced).setStarter fun t => { t with held := false }
  else if g = 58 then s.fenceCrc
  else s

/-- A group is fenced, if it is not already (R39, R41): its owner's command ends. -/
def State.fenceOne (s : State) (g cause : Nat) : State :=
  if 60 ≤ g || s.groupFenced g then s
  else
    let s := (s.fenceGroup g cause).fenceHook g
    match groupBlock g with
    | some b => if s.busy b then s.endRunning b .fenced else s
    | none => s

/-! ## Timeouts (R36, R37) -/

/-- Has the group a request outstanding, that is a token in work (R36)?  Crust's spare lanes carry none. -/
def State.groupWorks (s : State) (g : Nat) : Bool :=
  let rx (d : Nat → Bool) : Bool := s.frames.any fun x =>
    decide (x.2.port < 10) && d x.2.port && (x.2.stage != .forwarded || x.2.icv == .pending)
  let tx (d : Nat → Bool) : Bool := s.frames.any fun x => x.2.egress.any fun e => d e.port && e.st != .waiting
  let lookup (e : Nat) : Bool := s.frames.any fun x =>
    x.2.stage == .checked && (if x.2.port < 10 then servedBy x.2.port == e else x.2.pipe == e)
  let runs (b : Block) : Bool := s.busy b
  if g = 0 ∨ g = 8 ∨ g = 16 ∨ g = 18 then rx fun p => rxGroup p == g
  else if g = 1 ∨ g = 9 ∨ g = 17 ∨ g = 19 then tx fun p => txGroup p == g
  else if g = 2 ∨ g = 10 ∨ g = 20 then rx (fun p => saGroup (dpOf p) == g) || tx fun p => saGroup (dpOf p) == g
  else if g = 3 ∨ g = 11 ∨ g = 21 then rx fun p => saGroup (dpOf p) + 1 == g
  else if g = 6 ∨ g = 7 then lookup 0 || runs (.sieve 0)
  else if g = 14 ∨ g = 15 then lookup 1 || runs (.sieve 1)
  else if g = 22 ∨ g = 23 then lookup 0 || lookup 1 || runs (.sieve 2)
  else if 24 ≤ g ∧ g ≤ 27 then !s.rack.tags.isEmpty || runs .rack
  else if 28 ≤ g ∧ g ≤ 31 then !s.peel.items.isEmpty || !s.peel.hwWait.isEmpty || runs .peel
  else if 32 ≤ g ∧ g ≤ 35 then !s.dir.work.isEmpty || s.dir.waitWork.isSome || runs .dir
  else if 36 ≤ g ∧ g ≤ 43 then
    let w := s.wbOf ((g - 36) / 2)
    !w.ctxs.isEmpty || (g % 2 == 1 && !w.recs.isEmpty)
  else if 44 ≤ g ∧ g ≤ 47 then !(nth s.phy.pools (g - 44) []).isEmpty
  else if g = 48 ∨ g = 51 then
    !s.mac.aims.isEmpty || !s.mac.txnWait.isEmpty || s.peel.hwWait.any (fun x => x.producer == 6)
      || s.wb.any fun p => p.2.recs.any fun r => r.2.item.isSome
  else if g = 49 then s.peel.hwWait.any (fun x => x.producer == 7) || runs .bcn
  else if g = 50 then s.flood.seen.any (·.pending) || s.peel.hwWait.any (fun x => x.producer == 8) || runs .flood
  else if 52 ≤ g ∧ g ≤ 55 then s.peel.items.any fun x => x.2.st == .taken && x.2.target == 5 + (g - 52)
  else if g = 56 then s.starter.op.isSome || runs .starter
  else if g = 57 then runs .fwu
  else if g = 58 then (List.range 24).any s.crcRuns
  else if g = 59 then s.host.queues.any (fun x => !x.2.toHost.isEmpty || x.2.posted != 0) || runs .host
  else false

/-- Does the stage that the group's request waits for signal HOLD (R37): no credit, a full list, or an empty lease? -/
def State.groupHeld (s : State) (g : Nat) : Bool :=
  let owed (p : Nat) : Bool := s.peel.hwWait.any fun x => x.producer == p
  if 28 ≤ g ∧ g ≤ 31 then !s.peel.blocked.isEmpty
  else if 32 ≤ g ∧ g ≤ 35 then s.dir.waitWork.isSome
  else if 36 ≤ g ∧ g ≤ 43 then
    let n := (g - 36) / 2
    g % 2 == 1 && ((s.wbOf n).recs.any (fun r => r.2.holds && r.2.result.isSome) || s.mac.txnWait.any fun x => x.1 == n)
  else if g = 48 then owed 6 || !s.mac.txnWait.isEmpty
  else if g = 49 then owed 7
  else if g = 50 then owed 8
  else if g = 59 then (List.range 64).any fun q => (s.link (10 + q)).waiting
  else false

/-! ## UNFENCE (R42, R69, R87) -/

/-- Peel grants and takes again. -/
def State.resumePeel (s : State) : State := (s.regrant.hwDrain).txnDrain

/-- A group is unfenced: its latches are clear; queues that lost their frames have all their credits; Starter computes its branch keys
(R503); a block with no fenced group left applies a deferred set before any work. -/
def State.unfenceOne (s : State) (g : Nat) : State :=
  let was := s.groupFenced g
  let s := (s.setGroupFence g false).evt .fab E.FAB_UNFENCE_DONE
  let s := if was then s.emptyTx g else s
  let s := if was && g == 56 && s.boot.opened && !s.on R.STARTER_STATE_ROOT_BAD then s.setStarter fun t => { t with held := true } else s
  match groupBlock g with
  | none => s
  | some b =>
    if !was || s.fenced b then s
    else
      let s := s.applyDeferred b
      match b with
      | .peel => s.resumePeel
      | _ => s

/-! ## The commands -/

/-- What a FENCE written while a command runs does first (R67): that command ends with FENCED.  Answers _RES1 too. -/
def State.cutShort (s : State) (b : Block) : State × W32 :=
  if s.busy b then (s.endRunning b .fenced, BitVec.ofNat 32 (s.get (R.H_STATUS_SEQ b.base) + 256)) else (s, 0)

/-- FENCE on FAB_CMD (R41, R43, R61, R67). -/
def State.fabFence (s : State) (m : Master) (tag : BitVec 8) : State :=
  s.onPage m .fab fun s =>
    let (s, cut) := s.cutShort .fab
    let s := s.acceptCmd .fab tag
    let g := s.argBits .fab 0 0 6
    if 60 ≤ g then s.complete .fab .range 0 cut 0 0 else (s.fenceOne g 1).complete .fab .ok 0 cut 0 0

/-- UNFENCE on FAB_CMD (R42, R43). -/
def State.fabUnfence (s : State) (m : Master) (tag : BitVec 8) : State :=
  s.onCommon m .fab tag fun s =>
    let g := s.argBits .fab 0 0 6
    if 60 ≤ g then s.done .fab .range
    else if s.ownerHolds g then s.done .fab .state
    else (s.unfenceOne g).done .fab .ok

/-- FAB_FENCE. -/
def execFabFence (m : Master) (tag : BitVec 8) (s : State) : Answer := .next (s.fabFence m tag)

/-- FAB_UNFENCE. -/
def execFabUnfence (m : Master) (tag : BitVec 8) (s : State) : Answer := .next (s.fabUnfence m tag)

/-- FENCE on a block's own _CMD (R41, R67, R509). -/
def execFence (m : Master) (b : Block) (tag : BitVec 8) (s : State) : Answer :=
  .next (
    if b = .fab then s.fabFence m tag
    else if b = .proof then s.onCommon m b tag fun s => s.done b .state
    else s.onPage m b fun s =>
      let (s, cut) := s.cutShort b
      let s := s.acceptCmd b tag
      let s := b.groups.foldl (fun s g => if s.groupFenced g then s else (s.fenceGroup g 1).fenceHook g) s
      s.complete b .ok 0 cut 0 0)

/-- UNFENCE on a block's own _CMD (R69, R509): a set that a FENCE deferred on a page without groups applies too (R82). -/
def execUnfence (m : Master) (b : Block) (tag : BitVec 8) (s : State) : Answer :=
  .next (
    if b = .fab then s.fabUnfence m tag
    else s.onCommon m b tag fun s =>
      if b = .proof then s.done b .state
      else
        let free := b.groups.filter fun g => !s.groupFenced g || !s.ownerHolds g
        let s := free.foldl State.unfenceOne s
        if s.fenced b then s.done b .state else (s.applyDeferred b).done b .ok)

/-- FENCE_TIMEOUT (R36, R37, R39, R44): the timeout of a group that has a request outstanding, and is not in HOLD, expires; with the
acknowledgement first, the token completes and nothing else happens.  The token that timed out is counted FENCED. -/
def execFenceTimeout (g : Fin 64) (ackFirst : Bool) (s : State) : Answer :=
  .next (
    if ackFirst || !s.pdOn 3 || s.groupFenced g.val || !s.groupWorks g.val || s.groupHeld g.val then s
    else match groupBlock g.val with
      | none => s
      | some b =>
        if !s.powered b then s
        else
          let before := (s.blk b).led.fenced
          let s := s.fenceOne g.val 0
          if (s.blk b).led.fenced = before then s.sink b else s)

end Sys2Proof.Machine
end

