-- ==== Sys2Proof/Machine/Proof.lean ====
section
/-! DEFINITION. Proofer: the mailbox, the entries it takes, its supply monitor, the publication buffer, the seal port (R507 to R531). -/

namespace Sys2Proof.Machine

/-- Entries the hold queue holds (R511). -/
def holdSize : Nat := 16384

/-! ## The mailbox (R510 to R513) -/

/-- The outcome of a post, for the master that made it. -/
def State.postResult (s : State) (m : Master) (c : Code) : State := s.put (ownCopy m R.PROOF_POST_RES_CODE) c.num

/-- A control core writes PROOF_POST_GO.  While the PD2 rail is down the mailbox is as in a domain that is off (R21, R508). -/
def execProofPost (m : Master) (s : State) : Answer :=
  .next (
    if !s.hears m then s
    else if !s.prooferRuns then s.offWrite
    else match m with
      | .core _ =>
        let w := (List.range 12).flatMap fun i => leList 4 (s.get (ownCopy m (R.PROOF_POST_W_WORD i)))
        let kind := nth w 0 0
        if kind = 0 ∨ 3 < kind then s.postResult m .range
        else if holdSize ≤ s.proof.queue.length then (s.postResult m .full).evt .proof E.PROOF_FULL
        else
          let num := (s.proof.last + 1) % 2 ^ 32
          let e : ProofEntry := {
            num := num, gen := s.tb.stepgen, hold := s.tbMode == 3
            octets := w.take 3 ++ [s.lin / 2 ^ 32 % 256] ++ leList 4 s.short ++ w.drop 8 }
          let s := s.setProof fun p => { p with queue := p.queue ++ [e], last := num }
          let s := s.put R.PROOF_QUEUE_PEAK (max (s.get R.PROOF_QUEUE_PEAK) s.proof.queue.length)
          ((s.ledIn .proof 1).postResult m .ok).put (ownCopy m R.PROOF_POST_NUM_NUM) num
      | _ => (s.postResult m .locked).bumpSat R.PROOF_REFUSED_CNT_COUNT 1)

/-! ## Taking entries (R511, R516, R517) -/

/-- The entry Proofer takes next, if it is of a kind and Proofer takes entries. -/
def State.nextEntry (s : State) (kind : Nat) : Option ProofEntry :=
  if !s.prooferRuns || s.proof.act.isSome || s.pfWarn then none
  else match s.proof.queue with
    | [] => none
    | e :: _ => if nth e.octets 0 0 = kind then some e else none

/-- The entry leaves the hold queue. -/
def State.takeEntry (s : State) : State := s.setProof fun p => { p with queue := p.queue.drop 1 }

/-- An entry ends other than OK (R516): its cause and the counter of the cause. -/
def State.rejectEntry (s : State) (num cause : Nat) : State :=
  let f := match cause with
    | 1 => R.PROOF_AUTH_CNT_COUNT
    | 2 => R.PROOF_NOKEY_CNT_COUNT
    | _ => R.PROOF_BAD_CNT_COUNT
  let s := ((s.bumpSat f 1).put R.PROOF_REJ_LAST_NUM num).put R.PROOF_REJ_CAUSE_CAUSE cause
  (s.ledDrop .proof 1).evt .proof E.PROOF_REJECT

/-- The tag key, derived like an inline node key and never cached (R476, R515). -/
def State.tagKey (s : State) (g eui epoch : Nat) : State × Option (List Nat) :=
  if !s.pdOn 1 then (s, none)
  else if s.groupFenced 56 then (s.sink .starter, none)
  else match s.meshKey g with
    | none => ((s.ledIn .starter 1).ledDrop .starter 1, none)
    | some k =>
      if k.count ≠ uncounted ∧ s.pfWarn then ((s.ledIn .starter 1).ledDrop .starter 1, none) else
      let s := s.ledPass .starter
      let s := if k.count = uncounted then s
        else (s.setStarter (·.commitUpdate (512 + g) (some { k with count := k.count - 1 }))).evtIf (k.count == 1) .starter E.STARTER_EXH
      (s, some (nodeKey k.key eui epoch 0x10))

/-- The time, in ns, that a 40-bit count names before or at a reference (R136). -/
def extend40 (ref : Int) (s40 : Nat) : Int := ref - (ref - s40) % 2 ^ 40

/-- The legal instant of a reading in ns, whether HOLD is set, and whether ARRIVAL is (R517).  An entry accepted before a step is
corrected as R137 corrects a stamp (DEDUCED, log entry 45). -/
def State.readingTime (s : State) (e : ProofEntry) : Int × Bool × Bool :=
  let s40 := leNum (slice e.octets 4 4) + 2 ^ 32 * nth e.octets 3 0
  let step := toSigned 64 (s.get64 R.TB_LAST_STEP_LO_NS R.TB_LAST_STEP_HI_NS)
  let accBehind := s.behind e.gen.toNat
  let acc := extend40 (if accBehind = 0 then s.lin else s.lin - step) s40
  let st := leNum (slice e.octets 40 8)
  let r40 := natBits st 0 32 + 2 ^ 32 * natBits st 40 8
  let back := s.behind (natBits st 48 4)
  let t := extend40 (if back = 1 ∧ accBehind = 0 then acc - step else acc) r40
  let base := if back = 1 ∧ accBehind = 0 then acc - step else acc
  if 2 ≤ back ∨ s.proof.age * 10 ^ 9 < base - t then (acc, e.hold, true) else (t, natBit st 59, false)

/-- Proofer takes a READING entry (R514 to R518). -/
def execProofReading (s : State) : Answer :=
  .next (match s.nextEntry 1 with
    | none => s
    | some e =>
      let s := s.takeEntry
      let o := e.octets
      let g := nth o 1 0 % 4
      let eui := beNum (slice o 8 8)
      if 4 ≤ nth o 1 0 then s.rejectEntry e.num 3
      else if s.pdOn 1 ∧ g ≠ 0 ∧ (mapGet s.starter.slots (512 + g)).isNone then s.rejectEntry e.num 3
      else match s.tagKey g eui (nth o 2 0) with
        | (s, none) => s.rejectEntry e.num 2
        | (s, some tk) =>
          if (cmac tk (slice o 8 24)).take 8 ≠ slice o 32 8 then s.rejectEntry e.num 1
          else
            let (t, hold, arrival) := s.readingTime e
            let (sec, ns, unknown) := s.legalTime t.toNat
            let flags := 1 + (if hold then 16 else 0) + (if arrival then 32 else 0) + (if unknown then 64 else 0)
            let s := s.appendRecord ([flags, 0] ++ slice o 16 2 ++ leList 8 eui ++ slice o 20 4 ++ slice o 24 8 ++ leList 6 sec
              ++ leList 4 ns ++ slice o 18 2)
            let s := s.setProof fun p => { p with
              readings := (List.range 16).foldl (fun a c => mapModify a c 0 (· + 1)) p.readings }
            (s.bumpSat R.PROOF_OK_CNT_COUNT 1).ledOut .proof 1)

/-- Proofer takes a PARAM entry (R525, R527). -/
def execProofParam (s : State) : Answer :=
  .next (match s.nextEntry 2 with
    | none => s
    | some e =>
      let s := s.takeEntry
      let o := e.octets
      let id := nth o 1 0
      let v := leNum (slice o 8 4)
      let old := if id = 1 then s.proof.tcorr else if id = 2 then s.proof.age else s.proof.classEn
      let ok := if id = 1 then decide (1 ≤ v) && decide (v ≤ 60000) else if id = 2 then decide (1 ≤ v) && decide (v ≤ 600)
        else id == 3 && decide (v ≤ 0xFFFF)
      let zeros := nth o 2 0 == 0 && (o.drop 12).all (· == 0)
      if s.logFull || !zeros || !ok || v == old then s.rejectEntry e.num 3
      else
        let s := s.setProof fun p =>
          if id = 1 then { p with tcorr := v } else if id = 2 then { p with age := v } else { p with classEn := v }
        (s.logNow 2 (id :: leList 4 old ++ leList 4 v) true).ledOut .proof 1)

/-- Proofer takes an ACTIVATE entry (R525, R528 steps 1 to 3): appending pauses; an image that does not verify, or is older than the
image running, ends the activation. -/
def execProofActivate (s : State) : Answer :=
  .next (match s.nextEntry 3 with
    | none => s
    | some e =>
      let s := s.takeEntry
      let o := e.octets
      let zeros := decide (nth o 1 0 < 2) && nth o 2 0 == 0 && (o.drop 8).all (· == 0)
      if s.logFull || !zeros then s.rejectEntry e.num 3
      else
        let s := (s.put R.PROOF_STATE_PAUSED 1).evt .proof E.PROOF_PAUSE
        let slot := nth o 1 0
        let s := s.drive (s.slotReads (6 + slot))
        let (c, x) := s.verifyImage (6 + slot)
        if c ≠ .ok ∨ x.version < s.proof.version then (s.rejectEntry e.num 3).resumeProof
        else s.setProof fun p => { p with
          act := some { slot := slot, version := x.version, iface := x.iface, hash := slice (s.norRead (slotBase (6 + slot)) 384) 56 48 } })

/-- The new image passes or fails its self-test (R528 steps 4 and 5). -/
def execProofSelftestEnd (pass : Bool) (s : State) : Answer :=
  .next (match s.proof.act with
    | none => s
    | some a =>
      if !s.prooferRuns || s.pfWarn then s
      else
        let detail := [if pass then 0 else 1] ++ leList 4 s.proof.version ++ leList 4 a.version ++ a.hash.take 11
        let s := s.logNow 1 detail pass
        let s := if pass then
            (s.setProof fun p => { p with slot := a.slot, version := a.version, iface := a.iface, hash := a.hash }).ledOut .proof 1
          else s.ledDrop .proof 1
        s.resumeProof)

/-! ## The PD2 rail (R508, R520) -/

/-- The rail falls below 0.62 V for 1 µs: Proofer and its private memory stop. -/
def execPd2Undervolt (s : State) : Answer :=
  .next (if !s.prooferRuns then s
    else (s.blankBlock .proof).setProof fun p => { p with
      runs := false, queue := [], last := 0, pub := [], selected := [], waiting := [], logWait := [], act := none, response := [] })

/-- The rail is back. -/
def execPd2Restart (s : State) : Answer := .next (if s.pdOn 2 && !s.proof.runs then s.startProofer 1 else s)

/-! ## The publication buffer (R531) -/

/-- A master selects a record: what it reads is the record as it stood then, zeros if it is not among the 256 latest. -/
def execProofPubSelWrite (m : Master) (seq : BitVec 32) (s : State) : Answer :=
  .next (
    if !s.hears m then s
    else if !s.prooferRuns then s.offWrite
    else
      let s := s.put (ownCopy m R.PROOF_PUB_SEL_SEQ) seq.toNat
      let r := if s.proof.pub.contains seq.toNat then (s.record seq.toNat).getD [] else []
      s.setProof fun p => { p with selected := mapSet p.selected m.idx r })

/-! ## The seal port (R529, R530) -/

/-- A response: the header, the payload and the CRC-16 over everything after the first octet. -/
def sealResponse (cmd status : Nat) (payload : List Nat) : List Nat :=
  let body := [cmd, status] ++ leList 2 payload.length ++ payload
  0x5A :: body ++ leList 2 (crcOf 0 body)

/-- Proofer answers on the seal port while PD2 is on. -/
def State.sealAnswer (s : State) (cmd status : Nat) (payload : List Nat) : State :=
  if s.prooferRuns then s.setProof fun p => { p with response := sealResponse cmd status payload } else s

/-- IDENT. -/
def execSealIdent (s : State) : Answer :=
  .next (
    let p := s.proof
    s.sealAnswer 1 0 (leList 4 p.version ++ leList 2 p.iface ++ p.hash ++ leList 16 Config.uid.toNat ++ leList 4 p.sealCnt
      ++ leList 2 p.log.length ++ leList 2 (min p.lost 65535) ++ leList 4 p.head ++ [s.starter.lc]))

/-- LOG_READ: up to eight entries from an LSEQ. -/
def execSealLogRead (arg : BitVec 32) (s : State) : Answer :=
  .next (
    if s.proof.log.length < arg.toNat then s.sealAnswer 2 1 []
    else s.sealAnswer 2 0 ((List.range 8).flatMap fun i => (mapGet s.proof.log (arg.toNat + i)).getD []))

/-- REG_READ: up to eight records from a SEQ. -/
def execSealRegRead (arg : BitVec 32) (s : State) : Answer :=
  .next (
    if s.proof.head < arg.toNat then s.sealAnswer 3 1 []
    else if arg.toNat + registerSize ≤ s.proof.head then s.sealAnswer 3 2 []
    else s.sealAnswer 3 0 ((List.range 8).flatMap fun i => (s.record (arg.toNat + i)).getD []))

/-- HEADS: the latest record and the latest entry, zeros where there is none. -/
def execSealHeads (s : State) : Answer :=
  .next (s.sealAnswer 4 0 ((s.record s.proof.head).getD (List.replicate 64 0)
    ++ (mapGet s.proof.log s.proof.log.length).getD (List.replicate 64 0)))

/-- A request with a CMD that R529 does not list. -/
def execSealUnknownCmd (cmd : BitVec 8) (s : State) : Answer :=
  .next (if 1 ≤ cmd.toNat ∧ cmd.toNat ≤ 4 then s else s.sealAnswer cmd.toNat 0xFF [])

/-- A request that fails its CRC, or comes too slowly, gets no response. -/
def execSealRequestDiscard (s : State) : Answer :=
  .next (if s.prooferRuns then s.setProof fun p => { p with response := [] } else s)

end Sys2Proof.Machine
end

