-- ==== Sys2Proof/Machine/Starter.lean ====
section
/-! DEFINITION. The commands of Starter (R466 to R504), but for those that end in a reset or begin in the tamper monitor. -/

namespace Sys2Proof.Machine

/-- Arguments of a derivation (R502, R504): they come from the page or from an item's body. -/
structure DeriveArgs where
  a0 : W32
  a1 : W32
  a2 : W32
  a3 : W32
  /-- label and context -/
  data : List Nat
  /-- most octets the label and the context may have together -/
  room : Nat
  owner : Nat
  item : Option Nat

/-- DERIVE (R468 to R472, R474, R483, R504, R545). -/
def State.derive (s : State) (d : DeriveArgs) : State :=
  let fail (c : Code) := s.endKeyOp c 0 [] d.item
  let dst := bitsGet 0 10 d.a0
  let src := bitsGet 10 10 d.a0
  let dev := bitsGet 20 1 d.a0 == 1
  let len := if bitsGet 21 1 d.a0 = 1 then 32 else 16
  let msel := bitsGet 0 8 d.a1
  let ll := bitsGet 8 8 d.a1
  let cl := bitsGet 16 8 d.a1
  let count := bitsGet 0 24 d.a3
  let label := d.data.take ll
  let ctx := (d.data.drop ll).take cl
  if ll = 0 ∨ d.room < ll + cl then fail .range
  else match s.makeCheck dst d.a2 count len with
    | some c => fail c
    | none =>
      if dev && natBit d.a2.toNat useWrappable then fail .range
      else if (List.range 8).any fun i => natBit msel i && !(nth s.starter.mcLock i false) then fail .state
      else if s.on R.FWU_STATE_MEAS_STALE && (natBit msel 0 || natBit msel 1) then fail .state
      else if label == ascii "GZ-NK" && cl == 10 && nth ctx 9 0 / 16 == 1 then fail .locked
      else
        let full := [msel] ++ s.mcHash msel ++ ctx
        if dev then
          if !s.starter.held then fail .notFound
          else s.startKeyOp (makeOp dst (madeSlot d.a2 count (kdf (s.branchKey 1) label full len)) [] 0 [] d.item)
        else match s.useSlot src useDerive d.owner with
          | (s, .no c) => s.endKeyOp c 0 [] d.item
          | (s, .ok k u) => s.startKeyOp (makeOp dst (madeSlot d.a2 count (kdf k.key label full len)) u 0 [] d.item)

/-- DERIVE (R504). -/
def execDerive (m : Master) (tag : BitVec 8) (s : State) : Answer :=
  .next (s.onStarter m tag 1 false fun s =>
    s.derive ⟨s.arg .starter 0, s.arg .starter 1, s.arg .starter 2, s.arg .starter 3, s.starterData 64, 64, (masterOwnerBit m), none⟩)

/-- DERIVE_ITEM (R284, R494, R502): the idle derivation unit takes the head of its ready list. -/
def execDeriveItem (s : State) : Answer :=
  if !s.pdOn 1 || s.groupFenced 56 || s.starter.op.isSome then .next s
  else match s.takeReady 4 with
    | none => .next s
    | some (s, id, it) =>
      let s := s.ledIn .starter 1
      let w (i : Nat) : W32 := nth it.words i 0
      let data := ((it.words.drop 8).take 4).flatMap fun x => (leOctets 4 x.toNat).map (·.toNat)
      let owner := if it.producer = 0 then 8 else if it.producer = 1 then 9 else 10
      if s.on R.TAMP_STATE_ALARM then .next (s.endKeyOp .tampered 0 [] (some id))
      else if s.starter.lc = 0 ∨ s.starter.lc = 4 ∨ s.on R.STARTER_STATE_ROOT_BAD then .next (s.endKeyOp .locked 0 [] (some id))
      else .next (s.derive ⟨w 4, w 5, w 6, w 7, data, 16, owner, some id⟩)

/-- INLINE_DERIVE (R18, R476 to R479): the key of a node for a context of chain n, or for a job in service; `next`: the key of the epoch
after the one its entry holds. -/
def execInlineDerive (h : BitVec 18) (next : Bool) (n : Fin 4) (k : Fin 32) (s : State) : Answer :=
  match s.node h.toNat with
  | none => .next s
  | some e =>
    let epoch := (e.get N.KEY_EPOCH + if next then 1 else 0) % 256
    match s.inlineKey (e.get N.EUI) epoch 1 with
    | (s, made) =>
      match s.ctx n.val k.val with
      | some c => .next (if made then s.setCtx n.val k.val { c with keyed := true } else s)
      | none => .next s

/-- The 40 octets of a GZ4120 blob that KW wraps, and what R488 makes of the blob. -/
def State.unwrapLegacy (s : State) (blob : List Nat) (dst : Nat) (attrs : W32) (count : Nat) : State :=
  let fail (c : Code) := s.endKeyOp c 0 [] none
  let n := nth blob 1 0
  let usage := nth blob 2 0
  if s.starter.legacyOff ∨ !(s.starter.lc = 2 ∨ s.starter.lc = 3) then fail .locked
  else if nth blob 0 0 ≠ 2 ∨ !(n = 16 ∨ n = 32) ∨ (blob.drop 3).take 5 ≠ [0, 0, 0, 0, 0] then fail .range
  else if !(usage = 1 ∨ usage = 2) then fail .range
  else if usage = 1 ∧ !natBit attrs.toNat useSak then fail .range
  else if usage = 2 ∧ !(512 ≤ dst ∧ dst ≤ 515) then fail .range
  else match s.makeCheck dst attrs count n with
    | some c => fail c
    | none =>
      let key := kdf (s.branchKey 4) (ascii "GZ4120-KEK") [] 32
      if (cmac (key.drop 16) (blob.take 48)).take 8 ≠ (blob.drop 48).take 8 then fail .auth
      else match kwUnwrap (key.take 16) ((blob.drop 8).take 40) with
        | none => fail .auth
        | some x => s.startKeyOp (makeOp dst (madeSlot attrs count (x.take n)) [] 0 [] none)

/-- UNWRAP (R485, R488, R504). -/
def execUnwrap (m : Master) (tag : BitVec 8) (s : State) : Answer :=
  .next (s.onStarter m tag 2 false fun s =>
    let fail (c : Code) := s.endKeyOp c 0 [] none
    let a0 := s.arg .starter 0
    let dst := bitsGet 0 10 a0
    let fmt := bitsGet 20 2 a0
    let bl := s.argBits .starter 1 0 8
    let attrs := s.arg .starter 2
    let count := s.argBits .starter 3 0 24
    let blob := s.starterData bl
    if fmt = 1 then (if bl ≠ 56 then fail .range else s.unwrapLegacy blob dst attrs count)
    else if fmt ≠ 0 ∨ !(bl = 24 ∨ bl = 40) then fail .range
    else match s.makeCheck dst attrs count (bl - 8) with
      | some c => fail c
      | none =>
        match s.useSlot (bitsGet 10 10 a0) useKek (masterOwnerBit m) with
        | (s, .no c) => s.endKeyOp c 0 [] none
        | (s, .ok k u) =>
          match kwUnwrap k.key blob with
          | none => s.startKeyOp { updates := u, makes := none, out := [], res1 := 0, auth := true, item := none }
          | some x => s.startKeyOp (makeOp dst (madeSlot attrs count x) u 0 [] none))

/-- WRAP (R487, R504). -/
def execWrap (m : Master) (tag : BitVec 8) (s : State) : Answer :=
  .next (s.onStarter m tag 3 false fun s =>
    let a0 := s.arg .starter 0
    match s.useSlot (bitsGet 0 10 a0) useWrappable (masterOwnerBit m) with
    | (s, .no c) => s.endKeyOp c 0 [] none
    | (s, .ok k u) =>
      match s.useSlot (bitsGet 10 10 a0) useKek (masterOwnerBit m) with
      | (s, .no c) => s.endKeyOp c 0 [] none
      | (s, .ok q v) =>
        let blob := kwWrap q.key k.key
        s.startKeyOp { updates := u ++ v, makes := none, out := blob, res1 := blob.length, item := none })

/-- GENERATE (R487, R504): the key is a free value (log entry 5). -/
def execGenerate (m : Master) (tag : BitVec 8) (s : State) : Answer :=
  .next (s.onStarter m tag 4 false fun s =>
    let dst := s.argBits .starter 0 0 10
    let len := if s.argBits .starter 0 21 1 = 1 then 32 else 16
    let attrs := s.arg .starter 2
    let count := s.argBits .starter 3 0 24
    match s.makeCheck dst attrs count len with
    | some c => s.endKeyOp c 0 [] none
    | none =>
      let (r, s) := s.draw
      s.startKeyOp (makeOp dst (madeSlot attrs count (beList len (r % 2 ^ (8 * len)))) [] 0 [] none))

/-- MKA_KEYS (R486, R504): the ICK and KEK have the CAK's length. -/
def execMkaKeys (m : Master) (tag : BitVec 8) (s : State) : Answer :=
  .next (s.onStarter m tag 5 false fun s =>
    let fail (c : Code) := s.endKeyOp c 0 [] none
    let dst := s.argBits .starter 0 10 10
    let cl := s.argBits .starter 1 0 8
    let a2 := s.arg .starter 2
    let ckn := s.starterData cl
    let id := (ckn ++ List.replicate 16 0).take 16
    let cak := mapGet s.starter.slots (s.argBits .starter 0 0 10)
    let len := match cak with | some k => k.key.length | none => if natBit a2.toNat 13 then 32 else 16
    let attrs : W32 := (a2 &&& 0x2700#32) ||| 2#32
    if cl = 0 ∨ 32 < cl then fail .range
    else match s.makeCheck dst attrs uncounted len with
      | some c => fail c
      | none =>
        match s.useSlot (s.argBits .starter 0 0 10) useCak (masterOwnerBit m) with
        | (s, .no c) => s.endKeyOp c 0 [] none
        | (s, .ok k u) =>
          let kek := mkaKdf k.key (ascii "IEEE8021 KEK") id len
          let ick := mkaKdf k.key (ascii "IEEE8021 ICK") id len
          s.startKeyOp (makeOp dst (madeSlot attrs uncounted kek) u len ick none))

/-- SLOT_ZERO (R480, R484, R492, R504). -/
def execSlotZero (m : Master) (tag : BitVec 8) (s : State) : Answer :=
  .next (s.onStarter m tag 6 false fun s =>
    let fail (c : Code) := s.endKeyOp c 0 [] none
    let slot := s.argBits .starter 0 0 10
    if 575 < slot then fail .range
    else if 572 ≤ slot then fail .locked
    else match mapGet s.starter.slots slot with
      | none => fail .notFound
      | some k =>
        let may := if bitsGet 8 3 k.attrs = 0 then m != .host else k.has (masterOwnerBit m)
        if !may then fail .locked
        else if slot < 512 then (s.setStarter (·.storeNow slot none)).endKeyOp .ok 0 [] none
        else if s.pfWarn then fail .state
        else s.startKeyOp { updates := [(slot, none)], makes := none, out := [], res1 := 0, item := none })

/-- SLOT_INFO (R480, R504). -/
def execSlotInfo (m : Master) (tag : BitVec 8) (s : State) : Answer :=
  .next (s.onStarter m tag 7 true fun s =>
    let slot := s.argBits .starter 0 0 10
    if 575 < slot then s.endKeyOp .range 0 [] none
    else if 572 ≤ slot then s.endKeyOp .locked 0 [] none
    else match mapGet s.starter.slots slot with
      | none => s.endKeyOp .notFound 0 [] none
      | some k =>
        let s := (s.ledOut .starter 1).setStarter fun t => { t with out := [], outFor := some m }
        s.complete .starter .ok 0 k.attrs (BitVec.ofNat 32 k.count) (BitVec.ofNat 32 (if slot < 512 then 0 else s.starter.jseq slot)))

/-- Extend a measurement register (R97). -/
def State.mcExtend (s : State) (i : Nat) (meas : List Nat) : State :=
  s.setStarter fun t => { t with mc := t.mc.set i (sha384 (nth t.mc i [] ++ meas)) }

/-- Lock a measurement register. -/
def State.mcLockNow (s : State) (i : Nat) : State := s.setStarter fun t => { t with mcLock := t.mcLock.set i true }

/-- MC_EXTEND (R97, R504). -/
def execMcExtend (m : Master) (tag : BitVec 8) (s : State) : Answer :=
  .next (s.onStarter m tag 8 false fun s =>
    let r := s.argBits .starter 0 0 3
    let mine := match m with
      | .core _ => r == 6
      | .host => r == 7
      | .spi => false
    if !mine || nth s.starter.mcLock r false then s.endKeyOp .locked 0 [] none
    else
      let only := s.argBits .starter 0 9 1 == 1
      let s := if only then s else s.mcExtend r (s.starterData 48)
      let s := if only || s.argBits .starter 0 8 1 == 1 then s.mcLockNow r else s
      s.endKeyOp .ok 0 [] none)

/-- MC_READ (R504). -/
def execMcRead (m : Master) (tag : BitVec 8) (s : State) : Answer :=
  .next (s.onStarter m tag 9 true fun s => s.endKeyOp .ok 0 (nth s.starter.mc (s.argBits .starter 0 0 3) []) none)

/-- LEGACY_OFF (R489). -/
def execLegacyOff (m : Master) (tag : BitVec 8) (s : State) : Answer :=
  .next (s.onStarter m tag 11 false fun s =>
    if s.arg .starter 1 ≠ 0x4120 then s.endKeyOp .range 0 [] none
    else (s.setStarter fun t => { t with legacyOff := true }).endKeyOp .ok 0 [] none)

/-- RETAINED_UPDATE_COMMIT (R490, R500): the commit write of the update in progress; after the last one the operation completes. -/
def execRetainedUpdateCommit (s : State) : Answer :=
  match s.starter.op with
  | none => .next s
  | some o =>
    match o.updates with
    | [] => .next (s.finishKeyOp o)
    | (slot, new) :: r =>
      let s := s.setStarter (·.commitUpdate slot new)
      let s := s.evtIf (match new with | some k => k.count == 0 | none => false) .starter E.STARTER_EXH
      match r with
      | [] => .next (s.finishKeyOp { o with updates := [] })
      | (next, _) :: _ => .next (s.setStarter fun t => { t.beginUpdate next with op := some { o with updates := r } })

end Sys2Proof.Machine
end

