-- ==== Sys2Proof/Machine/Power.lean ====
section
/-! DEFINITION. Start-up, the power-fail warning, power states, resets and retained state (R91 to R116, R327, R462, R467, R491, R497, R549,
R595, R596, R620). -/

namespace Sys2Proof.Machine

/-! ## Start-up (R96, R97) -/

/-- POWER_ON (R91, R96, R114, R508, R595): VIN valid, at some value above 5.8 V (log entry 5); with DFT_EN high the device is held in
reset.  In MANUFACTURE the floors of the tamper sources are LOG (R495). -/
def execPowerOn (dftEn : Bool) (s : State) : Answer :=
  if s.boot ≠ .off then .next s
  else
    let s := s.unpowered.allOff
    if dftEn then .next { s with boot := .dft }
    else
      let s := (s.setDomains spared true).put ⟨R.PWR_RST_CAUSE_CAUSE.a, 0, 1⟩ 1
      let s := if s.starter.lc ≤ 1 then (List.range 8).foldl (fun s i => s.put (R.TAMP_CFG_RESP i) 1) (s.put R.TAMP_FLOOR_RESP 0x5555) else s
      let (r, s) := s.draw
      let (v, s) := s.draw
      .next ((((s.put (R.PWR_MS_ST 0) (r % 99)).put R.PWR_VIN_MV10 (581 + v % 5120)).beginStart).startProofer 0)

/-- A life-cycle transition that lost power between its bits and its marker is completed (R467). -/
def State.completeTransitions (s : State) : State :=
  (s.starter.rows.filter fun x => !x.2.marker).foldl (fun s x =>
    let (r, s) := s.drawOctets
    s.endTransition x.1 ((x.2.bits.zip r).map fun p => p.1 ||| p.2)) s

/-- Bit RESET of the attributes: the key does not outlive a reset or a power-up (R481, R482). -/
def attrReset : Nat := 12

/-- Each retained slot takes the valid copy with the higher sequence; copies whose CMAC fails are counted (R491).  A key with RESET = 1 is
zeroised, by an update of its slot as for SLOT_ZERO (R482, R492; DEDUCED, log entry 60). -/
def State.openSlots (s : State) : State :=
  let bad := (s.starter.copies.filter fun x => !x.2.good).length
  let s := s.bumpSat R.STARTER_JRNL_BAD bad
  (List.range 64).foldl (fun s i =>
    match (s.starter.current (512 + i)).2 with
    | some c => (match c.slot with
      | some k => s.setStarter fun t =>
        if k.has attrReset then t.commitUpdate (512 + i) none else { t with slots := mapSet t.slots (512 + i) k }
      | none => s)
    | none => s) s

/-- Octets that MC5 is extended with (R97). -/
def State.lifeOctets (s : State) : List Nat := beList 48 (Config.lifeMeasure s.starter.lc (s.on R.STARTER_STATE_DEBUG)).toNat

/-- STARTER_OPEN (R96, R462, R467, R491, R496 to R498): the 5 ms step. -/
def execStarterOpen (rootBad : Bool) (s : State) : Answer :=
  if s.boot ≠ .aon then .next s
  else
    let s := s.setDomains [1, 3] true
    let s := ((s.put R.PWR_GOV_VNOW_RAIL 40).put R.PWR_GOV_VNOW_TARGET 40).put R.PWR_GOV_VNOW_BURST 0
    let s := { s with gov := {} }.completeTransitions
    let s := if s.on R.TAMP_STATE_ZPEND then ((s.put R.TAMP_STATE_ZPEND 0).logNow 5 [] false).zeroiseRetained
      else if s.starter.zeroing then s.zeroiseRetained else s
    let s := s.openSlots.setStarter fun t => { t with
      held := !rootBad, mc := List.replicate 8 (List.replicate 48 0), mcLock := List.replicate 8 false }
    let s := s.putB R.STARTER_STATE_ROOT_BAD rootBad
    let s := (s.put R.STARTER_STATE_OPEN 1).evt .starter E.STARTER_OPEN
    let s := s.evtIf rootBad .starter E.STARTER_ROOT_BAD
    .next { (s.mcExtend 5 s.lifeOctets).mcLockNow 5 with boot := .starter }

/-- Stage 1 of the CTRL image in the slot that FWU's record names is verified, else of the other slot (R96, R549): the image chosen. -/
def State.bootImage (s : State) : State × Option SlotInfo :=
  let try' (s : State) : Option SlotInfo :=
    let (c, x) := s.verifyImage (s.unitSlot 0)
    if c = .ok then some x else none
  let first := s.slotReads (s.unitSlot 0)
  match try' s with
  | some x => (s.drive first, some x)
  | none =>
    let s := if s.fwu.phase = 2 ∧ nth s.fwu.trial 0 false = true then s.fallBack 3
      else s.setFwu fun f => { f with run := f.run.set 0 (!nth f.run 0 false) }
    (s.drive (first ++ s.slotReads (s.unitSlot 0)), try' s)

/-- STAGE1_VERIFIED (R96, R97, R329, R336, R548 to R550): with no image the start-up is over.  Under a power-fail warning FWU's record is
not written, so a trial waits (R93). -/
def execStage1Verified (s : State) : Answer :=
  if s.boot ≠ .starter ∨ (s.pfWarn ∧ s.fwu.phase = 2) then .next s
  else match s.bootTrial.bootImage with
    | (s, none) => .next { (s.put R.PWR_STATE_BOOT_FAIL 1).put R.PWR_STATE_TRANS 0 with boot := .halted }
    | (s, some x) =>
      let s := (s.mcExtend 0 (s.stage1Octets (s.unitSlot 0))).mcLockNow 0
      let s := s.setFwu fun f => { f with images := mapSet f.images 0 x }
      let s := if s.fwu.fbSignal then (s.setFwu fun f => { f with fbSignal := false }).evt .fwu E.FWU_FALLBACK else s
      let s := ((s.milestone 1).setDomains [4, 12] true).drawKeys
      let (r, s) := s.draw
      .next { s.put R.FLOOD_SEQ_NEXT r with boot := .stage1 }

/-- The epoch of a copy that is valid: its header says so and its seal verifies (R98). -/
def State.sealedEpoch (s : State) (b : Bool) : Option W32 :=
  let (e, v, x) := if b then (s.ret.epochB, s.ret.copyB, s.ret.sealB) else (s.ret.epochA, s.ret.copyA, s.ret.sealA)
  match e with
  | some e => if x = s.copySeal e v then some e else none
  | none => none

/-- The copy that RET applies: which, its epoch and values (R101, R103). -/
def State.validCopy (s : State) : Option (Bool × W32 × AMap W32) :=
  match s.sealedEpoch false, s.sealedEpoch true with
  | some a, some b => if a.toNat < b.toNat then some (true, b, s.ret.copyB) else some (false, a, s.ret.copyA)
  | some a, none => some (false, a, s.ret.copyA)
  | none, some b => some (true, b, s.ret.copyB)
  | none, none => none

/-- The 16 octets whose hash MC2 takes where no copy is restored (R97). -/
def factoryOctets : List Nat := ascii "FACTORY" ++ List.replicate 9 0

/-- RETAINED_CONFIG_APPLIED (R96, R97, R101 to R103): the 70 ms and 90 ms rows.  What it erases waits for the end of a power-fail warning
(R93). -/
def execRetainedConfigApplied (s : State) : Answer :=
  if s.boot ≠ .stage1 ∨ (s.pfWarn ∧ (s.ret.eraseAsked ∨ s.ret.sealLife ≠ s.starter.lc)) then .next s
  else
    let s := if s.ret.eraseAsked then
        let s := (s.voidCopy false).voidCopy true
        { s with ret := { s.ret with eraseAsked := false } }
      else s
    let changed := s.ret.sealLife != s.starter.lc
    let s := if changed then
        let s := (s.voidCopy false).voidCopy true
        { s with ret := { s.ret with records := [], marker := none, sealLife := s.starter.lc } }
      else s
    let pick := s.validCopy
    let why := if changed then 3 else if pick.isSome then 0 else if s.ret.written then 2 else 1
    let s := s.put R.RET_RESTORE_WHY why
    let s := s.put R.RET_RESTORE_SOURCE (match pick with
      | none => 0
      | some (false, _) => 1
      | some (true, _) => 2)
    let (e, values) : W32 × AMap W32 := match pick with
      | some (_, e, v) => (e, v)
      | none => (0, [])
    let s := { s with ret := { s.ret with committed := values, committedEpoch := e } }
    let (s, refused) := (Block.all.filter s.powered).foldl (fun a b =>
      let (t, n) := a.1.restoreBlock b
      (t.applyDeferred b, a.2 + n)) (s, 0)
    let s := if s.starter.lc ≤ 1 ∧ pick.isNone then (List.range 8).foldl (fun s i => s.put (R.TAMP_CFG_RESP i) 1) s else s
    let s := (s.put R.RET_COPY_A_EPOCH (match s.ret.epochA with | some a => a.toNat | none => 0)).put R.RET_COPY_B_EPOCH
      (match s.ret.epochB with | some b => b.toNat | none => 0)
    let s := (s.mcExtend 1 (s.controlOctets (s.unitSlot 0))).mcLockNow 1
    let s := (s.mcExtend 2 (sha384 (if pick.isSome then Config.copyOctets e values else factoryOctets))).mcLockNow 2
    let s := s.milestone 2
    let (s, more) := s.domainsOn [5, 6, 7, 8, 9, 13]
    let s := s.put R.RET_RESTORE_REFUSED (min 65535 (refused + more))
    let s := ((List.range 10).map (· + 5)).foldl (fun s u => s.loadUnit u) s
    let s := if s.fwu.phase = 2 then s.openWindow else s
    .next { s with boot := .config }

/-- DATA_PLANES_FORWARDING (R96, R97). -/
def execDataPlanesForwarding (s : State) : Answer :=
  if s.boot ≠ .config then .next s
  else
    let s := ((List.range 10).foldl (fun s p => s.mcExtend 4 (s.unitOctets (portUnit p))) s).mcLockNow 4
    .next { s.milestone 3 with boot := .planes }

/-- The entry of a node as rebuilt from its record (R107, R327). -/
def rebuilt (r : BitVec 192) : NodeEntry :=
  let f (lo w : Nat) : Nat := natBits r.toNat lo w
  let e : NodeEntry := 0
  let e := ((e.put N.EUI (f 0 64)).put N.FC_OUT (f 64 32)).put N.FC_IN (f 96 32)
  let e := (((e.put N.LAST_SAMPLE (f 128 32)).put N.PERIOD (f 160 10)).put N.DRIFT (f 170 12)).put N.KEY_EPOCH (f 182 8)
  let e := ((e.put N.STATE (f 190 2)).put N.LAST_HEARD (f 128 32)).put N.CRATE 2
  (((e.put N.SHORT 0xFFFE).put N.PARENT 0x3FFFF).put N.RSSI 0x80).put N.UNC 0xFFFF

/-- One record is placed, or not rebuilt (R620). -/
def State.rebuildOne (s : State) (h : Nat) (r : BitVec 192) : State :=
  let e := rebuilt r
  let eui := BitVec.ofNat 64 (e.get N.EUI)
  let fail (s : State) : State := ((s.markDirty h).bumpSat R.RET_REBUILD_FAIL_COUNT 1).evt .ret E.RET_REBUILD_FAIL
  if eui = 0 then s
  else if (s.findEui eui).isSome then fail s
  else match s.indexInsert eui h with
    | none => fail s
    | some (s, _) =>
      let s := { s with dir := { s.dir with nodes := mapSet s.dir.nodes h e } }
      let s := s.bump R.RET_RESTORE_STAT_NODES 1
      if e.get N.STATE = 1 then { s with ret := { s.ret with restore := s.ret.restore ++ [h] } } else s

/-- DIRECTORY_REBUILD (R96, R108, R109, R327, R620): records in ascending order of handle.  With the time free-running, which it is after
VIN was gone, no age is known yet: it is judged at the first lock (DEDUCED, log entry 48). -/
def execDirectoryRebuild (s : State) : Answer :=
  if s.boot ≠ .planes then .next s
  else
    let s : State := { s.put R.RET_REBUILD_FAIL_COUNT 0 with ret := { s.ret with restore := [], restoring := false } }
    let s : State := if s.tbMode = 0 then s else s.ageRecords
    let s : State := s.ret.records.foldl (fun s x => s.rebuildOne x.1 x.2) s
    let s : State := { s with boot := .rebuilt }
    let useless : Bool := match s.ret.marker with
      | none => true
      | some m => markerOld m s.lin
    let s : State := s.putB R.RET_RESTORE_STAT_MAXU useless
    let s := if useless ∨ s.ret.restore = [] then s.restoreDone false
      else if s.tbMode = 2 then s.startRestore else s
    .next s.regrant

/-- A chain locks, after a time of its own (log entry 5), and calibrates. -/
def State.bringUpChain (s : State) (n : Nat) : State :=
  let (r, s) := s.draw
  ((s.chainStart n).synthLock n (r % 8801)).calComplete n

/-- RADIO_CHAINS_CALIBRATED (R96, R97): the radio dies are on, and each chain has locked and calibrated.  An exit from HOLD ends with POWER_STATE_DONE. -/
def execRadioChainsCalibrated (s : State) : Answer :=
  if s.boot ≠ .rebuilt then .next s
  else
    let (s, refused) := s.domainsOn [10, 11]
    let s := s.bumpSat R.RET_RESTORE_REFUSED refused
    let s := [1, 2, 3, 4].foldl (fun s u => s.loadUnit u) s
    let s := ([1, 2, 3, 4].foldl (fun s u => s.mcExtend 3 (s.unitOctets u)) s).mcLockNow 3
    let s : State := { ([0, 1, 2, 3].foldl State.bringUpChain s).milestone 4 with boot := .running }
    .next (if s.get R.PWR_STATE_STATE = 2 then s else s.put R.PWR_STATE_TRANS 0)

/-! ## The power-fail warning (R93, R95, R100, R492) -/

/-- A store in progress is abandoned (R100). -/
def State.abandonStore (s : State) : State :=
  match s.ret.storing with
  | none => s
  | some b =>
    let s := { s with ret := { s.ret with storing := none, again := false, owed := some b } }
    (s.put R.RET_STORE_BUSY 0).evt .ret E.RET_STORE_FAIL

/-- A retained update in progress is abandoned: its operation ends with ABORTED (R492). -/
def State.abandonUpdate (s : State) : State :=
  match s.starter.op with
  | none => s
  | some o => if o.updates.isEmpty then s else (s.dropKeyOp .aborted).evt .starter E.STARTER_PF_ABORT

/-- PF_WARN (R93): VIN, in units of 10 mV, has stayed below the threshold. -/
def execPfWarn (mv10 : BitVec 16) (s : State) : Answer :=
  if !s.pdOn 0 || s.pfWarn || decide (s.get R.PWR_PF_THRESH_DV * 10 ≤ mv10.toNat) then .next s
  else
    let s := ((s.put R.PWR_VIN_MV10 mv10.toNat).put R.PWR_VIN_PF 1).evt .pwr E.PWR_PF_WARN
    .next (s.abandonStore.abandonUpdate).writeMarker

/-- CKPT_FLUSH writes every dirty record and completes. -/
def State.flushRecords (s : State) : State :=
  let n := s.ret.dirty.length
  (s.writeAllRecords.put (R.H_STATUS_PROGRESS Block.ret.base) n).done .ret .ok

/-- RET's opcodes. -/
def opCkptFlush : Nat := 1
def opEraseStore : Nat := 2

/-- PF_CLEAR (R95, R100, R113, R544): the warning ends without reset; what waited for it goes on. -/
def execPfClear (mv10 : BitVec 16) (s : State) : Answer :=
  if !s.pfWarn || decide (mv10.toNat ≤ s.get R.PWR_PF_THRESH_DV * 10 + 40) then .next s
  else
    let s := ((s.put R.PWR_VIN_MV10 mv10.toNat).put R.PWR_VIN_PF 0).evt .pwr E.PWR_PF_CLEAR
    let s := match s.ret.owed with
      | some b => s.startStore b
      | none => s
    let s : State := s.fwuResumed.proofResumed
    let s := if s.runOp .ret = some opCkptFlush then s.flushRecords else s
    .next (s.wakeBy 2)

/-- POWER_OFF (R91, R112): VIN has fallen below 4.5 V. -/
def execPowerOff (s : State) : Answer := .next (if s.boot = .off then s else s.ageRecords.unpowered.allOff)

/-! ## Power states (R112, R113, R115) -/

/-- Is a state change, or the start-up, in progress? -/
def State.inTransition (s : State) : Bool := s.on R.PWR_STATE_TRANS

/-- The device's power state: 0 RUN, 1 TRIM, 2 HOLD. -/
def State.powerState (s : State) : Nat := s.get R.PWR_STATE_STATE

/-- PWR's opcodes. -/
def opEnterRun : Nat := 1
def opEnterTrim : Nat := 2
def opEnterHold : Nat := 3
def opResetDevice : Nat := 4

/-- RUN to TRIM begins: jobs queued to chains 0 and 1 return with STATE. -/
def State.beginTrim (s : State) : State := ((s.put R.PWR_STATE_TRANS 1).returnQueued 0).returnQueued 1

/-- TRIM to RUN begins. -/
def State.beginRun (s : State) : State := (s.put R.PWR_STATE_TRANS 1).leaveTrim

/-- ENTER_RUN. -/
def execEnterRun (m : Master) (tag : BitVec 8) (s : State) : Answer :=
  .next (s.onCommand m .pwr tag fun s =>
    if s.inTransition then s.done .pwr .state
    else if s.powerState = 0 then s.done .pwr .ok
    else if s.powerState = 2 then s.done .pwr .state
    else (s.startRun .pwr (s.mkRun .pwr opEnterRun m tag false)).beginRun)

/-- ENTER_TRIM. -/
def execEnterTrim (m : Master) (tag : BitVec 8) (s : State) : Answer :=
  .next (s.onCommand m .pwr tag fun s =>
    if s.inTransition then s.done .pwr .state
    else if s.powerState = 1 then s.done .pwr .ok
    else if s.powerState = 2 then s.done .pwr .state
    else (s.startRun .pwr (s.mkRun .pwr opEnterTrim m tag false)).beginTrim)

/-- ENTER_HOLD: ports stop admitting and Peel stops dispatching. -/
def execEnterHold (m : Master) (tag : BitVec 8) (s : State) : Answer :=
  .next (s.onCommand m .pwr tag fun s =>
    if s.inTransition then s.done .pwr .state
    else if s.powerState = 2 then s.done .pwr .ok
    else { (s.startRun .pwr (s.mkRun .pwr opEnterHold m tag false)).put R.PWR_STATE_TRANS 1 with entering := true, wake := none })

/-- RESET_DEVICE: the software reset follows its completion. -/
def execResetDevice (m : Master) (tag : BitVec 8) (s : State) : Answer :=
  .next (
    let ok := s.reaches m .pwr && !s.busy .pwr && !s.inTransition && s.arg .pwr 0 == 0xB007
    let s := s.onCommand m .pwr tag fun s =>
      if s.inTransition then s.done .pwr .state
      else if s.arg .pwr 0 ≠ 0xB007 then s.done .pwr .range
      else s.done .pwr .ok
    if ok then s.restart 2 else s)

/-- AUTO_TRIM (R112): VIN below PWR_TRIM_THRESH for 1 ms. -/
def execAutoTrim (mv10 : BitVec 16) (s : State) : Answer :=
  let t := s.get R.PWR_TRIM_THRESH_DV
  if s.boot ≠ .running ∨ s.inTransition ∨ s.powerState ≠ 0 ∨ t = 0 ∨ t * 10 ≤ mv10.toNat then .next s
  else .next (((s.put R.PWR_VIN_MV10 mv10.toNat).evt .pwr E.PWR_AUTO_TRIM).beginTrim)

/-- AUTO_RUN (R112): VIN above the trim threshold plus 1.0 V for 1 s; a threshold of 0 counts as 0 V (log entry 72). -/
def execAutoRun (mv10 : BitVec 16) (s : State) : Answer :=
  let t := s.get R.PWR_TRIM_THRESH_DV
  if s.boot ≠ .running ∨ s.inTransition ∨ s.powerState ≠ 1 ∨ !s.on R.PWR_TRIM_THRESH_AUTO_RUN ∨ mv10.toNat ≤ t * 10 + 100 then .next s
  else .next ((s.put R.PWR_VIN_MV10 mv10.toNat).beginRun)

/-- The device is in HOLD: records and the marker are written, then the domains go off (R112); a latched wake starts the exit at once. -/
def State.finishHold (s : State) : State :=
  let s := s.writeAllRecords.writeMarker.loseVolatile
  let s := ({ s with boot := .hold, entering := false }.put R.PWR_STATE_STATE 2).nextSteps 10
  match s.wake with
  | some src => { s with wake := none }.wakeBy src
  | none => s

/-- A state change completes. -/
def State.stateDone (s : State) : State :=
  let s := s.evt .pwr E.PWR_STATE_DONE
  if (s.runOp .pwr).isSome then s.done .pwr .ok else s

/-- POWER_STATE_DONE (R112, R115).  Entry into HOLD waits for the end of a power-fail warning, because nothing is written under one; entry
into TRIM waits for the ramps of chains 0 and 1. -/
def execPowerStateDone (s : State) : Answer :=
  if s.boot ≠ .running ∨ !s.inTransition then .next s
  else if s.entering then
    if s.pfWarn then .next s else .next ((s.put R.PWR_STATE_TRANS 0).stateDone.finishHold)
  else if s.powerState = 0 then
    if s.transmits 0 ∨ s.transmits 1 then .next s
    else .next ((((s.enterTrim).put R.PWR_STATE_STATE 1).put R.PWR_STATE_TRANS 0).nextSteps 10).stateDone
  else .next ((s.put R.PWR_STATE_STATE 0).put R.PWR_STATE_TRANS 0).stateDone

/-- HOLD_WAKE (R112, R113): the GPIO wake line counts only as an input. -/
def execHoldWake (src : Fin 4) (s : State) : Answer :=
  if src.val = 0 ∧ s.on ⟨R.GPIO_DIR0_OE.a, 24, 1⟩ = true then .next s else .next (s.wakeBy src.val)

/-! ## Resets (R114, R596) -/

/-- May a reset reach the device? -/
def Boot.resettable : Boot → Bool
  | .off | .dft => false
  | _ => true

/-- PIN_RESET (R596): RST_N was low for `lowNs`; between 8 and 10 µs the outcome is open (log entry 5). -/
def execPinReset (lowNs : Nat) (s : State) : Answer :=
  if !s.boot.resettable || decide (lowNs < 8000) then .next s
  else if 10000 ≤ lowNs then .next (s.restart 1)
  else
    let (r, s) := s.draw
    .next (if r % 2 = 1 then s.restart 1 else s)

/-- SOFTWARE_RESET (R114, R466, R548): the reset that a life-cycle change or a fallback has started. -/
def execSoftwareReset (s : State) : Answer :=
  match s.resetAsked with
  | none => .next s
  | some c => .next (if s.boot.resettable then s.restart c else s)

/-! ## RET (R98 to R100, R105, R106, R109, R111, R116) -/

/-- RET_STORE_DONE (R98, R99): the header is written and the copy is valid; an epoch committed meanwhile is stored next. -/
def execRetStoreDone (s : State) : Answer :=
  match s.ret.storing with
  | none => .next s
  | some b =>
    if s.pfWarn || !s.boot.opened then .next s
    else
      let e := s.get R.RET_STORE_EPOCH_EPOCH
      let r := { s.ret with storing := none, written := true }
      let r := if b then { r with epochB := some (BitVec.ofNat 32 e) } else { r with epochA := some (BitVec.ofNat 32 e) }
      let s := { s with ret := r }.put (if b then R.RET_COPY_B_EPOCH else R.RET_COPY_A_EPOCH) e
      let s := (s.put R.RET_STORE_BUSY 0).evt .ret E.RET_STORE_DONE
      .next (if s.ret.again then s.startStore s.ret.olderCopy else s)

/-- CKPT_RECORD_WRITE (R93, R105, R106, R108, R259): the record of a handle, or at 2^18 that of the broadcast counter. -/
def execCkptRecordWrite (h : BitVec 19) (s : State) : Answer :=
  .next (if s.pfWarn || !s.boot.hasDirectory then s
    else if h.toNat = 2 ^ 18 then s.writeBroadcast else s.writeRecord h.toNat)

/-- CKPT_FLUSH (R116); under a power-fail warning it waits. -/
def execCkptFlush (m : Master) (tag : BitVec 8) (s : State) : Answer :=
  .next (s.onCommand m .ret tag fun s =>
    if s.pfWarn then s.startRun .ret (s.mkRun .ret opCkptFlush m tag false) else s.flushRecords)

/-- ERASE_STORE (R116). -/
def execEraseStore (m : Master) (tag : BitVec 8) (s : State) : Answer :=
  .next (s.onCommand m .ret tag fun s =>
    if s.arg .ret 0 ≠ 0xFAC7 then s.done .ret .range
    else { s with ret := { s.ret with eraseAsked := true } }.done .ret .ok)

/-- DRIFT_RESTORE_ITEM (R109): the restore item of a handle has its flow. -/
def execDriftRestoreItem (h : BitVec 18) (s : State) : Answer :=
  let mine := s.restoreItems.find? fun p => p.2 == .restore h.toNat && (match s.item p.1 with
    | some it => it.st == .taken
    | none => false)
  match mine with
  | none => .next (State.restorePump (s.ret.restore.length + 1) s)
  | some (id, _) =>
    let s := match s.node h.toNat with
      | none => s
      | some e =>
        if e.get N.STATE = 1 ∧ e.get N.UNC = 0xFFFF then
          let (u, s) := s.restoredUnc (e.get N.LAST_SAMPLE)
          s.setNode h.toNat ((e.put N.UNC u).put N.STEPGEN s.tb.stepgen.toNat)
        else s
    let s := { s with dir := { s.dir with work := mapErase s.dir.work id } }.finishItem id .ok 0
    .next (State.restorePump (s.ret.restore.length + 1) s)

/-- SECURED_WAIT_EXIT (R111, R462): at a frame boundary of the port. -/
def execSecuredWaitExit (p : Fin 10) (s : State) : Answer :=
  if s.powered (.port p) && s.swait p.val && s.secured p.val && !s.on R.STARTER_STATE_ROOT_BAD then
    .next (s.put (R.RET_SWAIT_ACTIVE p.val) 0)
  else .next s

end Sys2Proof.Machine
end

