-- ==== Sys2Proof/Machine/Gpio.lean ====
section
/-! DEFINITION. GPIO inputs (R599 to R601). -/

namespace Sys2Proof.Machine

/-- Bit k of a field pair for pins 0 to 31 and 32 to 47. -/
def pinFld (lo hi : Fld) (k : Nat) : Fld := if k < 32 then ⟨lo.a, k, 1⟩ else ⟨hi.a, k - 32, 1⟩

/-- GPIO_INPUT_CHANGE: the filtered level of a pin changes. -/
def execGpioInputChange (pin : Fin 48) (level : Bool) (s : State) : Answer :=
  let k := pin.val
  let inp := pinFld R.GPIO_IN0_LEVEL R.GPIO_IN1_LEVEL k
  .next (
    if !s.powered .gpio || s.on inp == level then s
    else
      let s := (s.putB inp level).put (pinFld R.GPIO_CHG0_CHG R.GPIO_CHG1_CHG k) 1
      let s := s.evtIf (s.on (pinFld R.GPIO_CHG_EN0_EN R.GPIO_CHG_EN1_EN k)) .gpio E.GPIO_CHANGE
      if k = 24 ∧ level = false ∧ s.on ⟨R.GPIO_DIR0_OE.a, 24, 1⟩ = false then (s.evt .gpio E.GPIO_WAKE).wakeBy 0 else s)

end Sys2Proof.Machine
end

