-- ==== Sys2Proof/Machine/Rack.lean ====
section
/-! DEFINITION. Rack's commands, leases and event FIFOs (R440 to R445, R451 to R459). -/

namespace Sys2Proof.Machine

/-- LEASE_EXPIRY (R440, R441): the host holds a credit, a producer waits at zero credit, and RACK_LEASE.MS has passed. -/
def execLeaseExpiry (q : Fin 64) (s : State) : Answer :=
  let k := s.link (10 + q.val)
  if !s.pdOn 3 || s.get R.RACK_LEASE_MS = 0 || k.host = 0 || !k.waiting || k.producer ≠ 0 || !s.queueUp q.val then .next s
  else .next (s.revoke q.val)

/-- A census difference report (R459). -/
def censusRow (kind who want found : Nat) : List W32 :=
  (8192 : W32) :: natWords 2 (kind + who * 2 ^ 8 + (want % 2 ^ 18) * 2 ^ 16 + (found % 2 ^ 18) * 2 ^ 34)

/-- Differences of a census (R433, R454): quarantined cells, which Rack counts under no owner, and links whose credits do not sum to C. -/
def State.censusRows (s : State) : List (List W32) :=
  let quar := (s.cellsOfOwner 254 true).length
  (if quar = 0 then [] else [censusRow 0 254 0 quar]) ++
  (List.range 142).filterMap fun l =>
    let k := s.link l
    let sum := k.producer + k.flight + k.consumer + k.host + k.parked
    if sum = k.c then none else some (censusRow 1 l k.c sum)

/-- CENSUS (R454, R459). -/
def execCensus (m : Master) (tag : BitVec 8) (unpaced : Bool) (s : State) : Answer :=
  let b : Block := .rack
  .next (s.onCommand m b tag fun s =>
    let rows := s.censusRows
    let r := { s.mkRun b 1 m tag unpaced with rows := rows, data := [8192, 0, rows.length, s.rack.free, s.rack.flight] }
    (s.startRun b r).goOn b)

/-- Is the owner one that RECLAIM may take from (R457)? -/
def State.reclaimable (s : State) (n : Nat) : Bool :=
  if n < 60 then s.groupFenced n
  else if 64 ≤ n ∧ n ≤ 127 then s.get (R.HOST_Q_STATE_STATE (n - 64)) == 2
  else if 128 ≤ n ∧ n ≤ 131 then s.get (R.RF_STATE_STATE (n - 128)) == 0
  else n == 254

/-- RECLAIM (R457). -/
def execReclaim (m : Master) (tag : BitVec 8) (s : State) : Answer :=
  let b : Block := .rack
  .next (s.onCommand m b tag fun s =>
    let n := s.argBits b 0 0 8
    if !s.reclaimable n then s.done b .state
    else
      let (s, cells, sops) := s.reclaim n
      let s := ((s.bumpSat R.RACK_RECLAIMED_COUNT cells).put (R.H_STATUS_PROGRESS b.base) 8192).evt b E.RACK_RECLAIM_DONE
      s.complete b .ok 0 (BitVec.ofNat 32 cells) (BitVec.ofNat 32 sops) 0)

/-- SNAP_ALL (R451). -/
def execSnapAll (m : Master) (tag : BitVec 8) (s : State) : Answer :=
  let b : Block := .rack
  .next (s.onCommand m b tag fun s =>
    let on := Block.all.filter s.powered
    let s := on.foldl State.snapshot s
    let snap (p : Nat × Link) : Nat × Link := (p.1, { p.2 with snapSent := p.2.sent, snapAccepted := p.2.accepted })
    let s := { s with rack := { s.rack with links := s.rack.links.map snap } }
    s.complete b .ok 0 (BitVec.ofNat 32 s.short) (BitVec.ofNat 32 on.length) 0)

/-- LINK_READ (R459). -/
def execLinkRead (m : Master) (tag : BitVec 8) (s : State) : Answer :=
  let b : Block := .rack
  .next (s.onCommand m b tag fun s =>
    let l := s.argBits b 0 0 8
    if 142 ≤ l then s.done b .range
    else
      let k := s.link l
      let s := { s with rack := { s.rack with lastLink := l } }
      let s := (s.setPair R.RACK_LINK_SENT_LO_COUNT.a k.snapSent).setPair R.RACK_LINK_ACC_LO_COUNT.a k.snapAccepted
      s.complete b .ok k.c (BitVec.ofNat 32 (k.producer + 2 ^ 16 * k.flight)) (BitVec.ofNat 32 (k.host + 2 ^ 16 * k.parked)) 0)

/-- Is the owner ID one that is used (R430)? -/
def ownerUsed (n : Nat) : Bool := decide (n < 60) || (decide (64 ≤ n) && decide (n ≤ 131)) || n == 254

/-- OWNER_READ (R459). -/
def execOwnerRead (m : Master) (tag : BitVec 8) (s : State) : Answer :=
  let b : Block := .rack
  .next (s.onCommand m b tag fun s =>
    let n := s.argBits b 0 0 8
    if !ownerUsed n then s.done b .range
    else
      let held := (s.cellsOfOwner n false).length
      s.complete b .ok 0 (BitVec.ofNat 32 held) (BitVec.ofNat 32 ((s.cellsOfOwner n true).length - held)) 0)

/-- REVOKE (R441, R459). -/
def execRevoke (m : Master) (tag : BitVec 8) (s : State) : Answer :=
  let b : Block := .rack
  .next (s.onCommand m b tag fun s =>
    let q := s.argBits b 0 0 6
    if s.get (R.HOST_Q_STATE_STATE q) = 2 then s.done b .state else (s.revoke q).done b .ok)

/-- A drop record as its four words (R444). -/
def DropRec.words (d : DropRec) : List W32 :=
  [d.ns, BitVec.ofNat 32 (d.type + 2 ^ 16 * d.inst + 2 ^ 24 * d.cause), BitVec.ofNat 32 (d.len + 2 ^ 16 * d.port + 2 ^ 24 * d.owner), d.detail]

/-- RACK_DROPREC_POP (R443, R444, R460): W3 is 0 when the FIFO was empty. -/
def execRackDroprecPop (m : Master) (s : State) : Answer :=
  if !s.reaches m .rack then .next { s with busData := 0 }
  else
    let own (s : State) (i : Nat) (v : W32) : State := s.put (ownCopy m (R.RACK_DROPREC_W_WORD i)) v.toNat
    match s.rack.drops with
    | [] => .next { own s 3 0 with busData := 0 }
    | d :: r =>
      let s := { s with rack := { s.rack with drops := r } }
      let w := d.words
      .next { own (own (own s 1 (nth w 1 0)) 2 (nth w 2 0)) 3 (nth w 3 0) with busData := d.ns }

/-- RACK_TRACE_POP (R443, R445, R460). -/
def execRackTracePop (m : Master) (s : State) : Answer :=
  if !s.reaches m .rack then .next { s with busData := 0 }
  else
    let own (s : State) (f : Fld) (x : Nat) : State := s.put (ownCopy m f) x
    match s.rack.trace with
    | [] => .next { own s R.RACK_TRACE_W1_VALID 0 with busData := 0 }
    | e :: r =>
      let s := { s with rack := { s.rack with trace := r } }
      let s := own (own (own (own s R.RACK_TRACE_W1_TYPE e.type) R.RACK_TRACE_W1_INST e.inst) R.RACK_TRACE_W1_BIT e.bit) R.RACK_TRACE_W1_VALID 1
      .next { s with busData := e.ns }

end Sys2Proof.Machine
end

