-- ==== Sys2Proof/Machine/Pages.lean ====
section
/-! DEFINITION. What every page offers (R57 to R90): event flags and counts, refused writes, chunks, time limits, staged configuration and
commits, ledger snapshots. -/

namespace Sys2Proof.Machine

/-! ## Event flags and counts (R75 to R77) -/

/-- The bits of _EVT that a block defines. -/
def definedEvents (b : Block) : W32 := match regAt b 0x40 with
  | some (r, _) => r.maskOf fun _ => true
  | none => 0

/-- Bits of a word that are 1. -/
def onesOf (v : W32) : List Nat := (List.range 32).filter fun i => natBit v.toNat i

/-- EVT_CLEAR (R75, R571); `hw`: flags that hardware sets at the same moment.  A write that leaves the condition true sends the block's
message. -/
def execEvtClear (m : Master) (b : Block) (v : BitVec 32) (hw : BitVec 32) (s : State) : Answer :=
  let a := b.base + 0x40
  match s.busWrite m a true v with
  | (s, .applied ..) =>
    let s := s.setWord a (s.word a &&& ~~~v)
    let s := if s.irqCond b then s.msi b.id else s
    .next (s.evts b (onesOf (hw &&& definedEvents b)))
  | (s, _) => .next s

/-- EVT_FORCE (R77). -/
def execEvtForce (m : Master) (b : Block) (v : BitVec 32) (s : State) : Answer :=
  match s.busWrite m (b.base + 0x48) true v with
  | (s, .applied ..) => .next (s.evts b (onesOf (v &&& definedEvents b)))
  | (s, _) => .next s

/-- EVT_CNT_CLEAR (R76): register k holds the counts of bits 4k to 4k + 3; `hw`: those that hardware sets at the same moment. -/
def execEvtCntClear (m : Master) (b : Block) (k : Fin 8) (v : BitVec 32) (hw : BitVec 4) (s : State) : Answer :=
  let a := b.base + 0x50 + 4 * k.val
  match s.busWrite m a true v with
  | (s, .applied ..) =>
    let s := [0, 1, 2, 3].foldl (fun s i => if bitsGet (8 * i) 8 v = 0 then s else s.put ⟨a, 8 * i, 8⟩ 0) s
    let set := ([0, 1, 2, 3].filter fun i => natBit hw.toNat i).map (4 * k.val + ·)
    .next (s.evts b (set.filter fun i => natBit (definedEvents b).toNat i))
  | (s, _) => .next s

/-- REFUSED_CLR (R57). -/
def execRefusedClr (m : Master) (b : Block) (s : State) : Answer :=
  match s.busWrite m (b.base + 0x34) true 0x80000000#32 with
  | (s, .applied ..) => .next ((s.put (R.H_REFUSED_COUNT b.base) 0).put (R.H_STATUS_ERR b.base) 0)
  | (s, _) => .next s

/-! ## Long operations and time limits (R65, R66, R74) -/

/-- PART_ACK (R74). -/
def execPartAck (m : Master) (b : Block) (chunk : BitVec 16) (s : State) : Answer :=
  .next (s.onPage m b fun s => match (s.blk b).part with
    | none => s
    | some p =>
      if p.chunk = chunk ∧ s.on (R.H_STATUS_PART b.base) = true then
        (s.setBlk b fun x => { x with part := some { p with acked := true } }).goOn b
      else s)

/-- PART_WAIT_TIMEOUT (R74). -/
def execPartWaitTimeout (b : Block) (s : State) : Answer :=
  .next (if s.powered b && s.pacing b then s.endRunning b .timeout else s)

/-- COMMAND_TIMEOUT (R65): the running command, or the job of a check-value channel, has made no progress for its time limit. -/
def execCommandTimeout (b : Block) (ch : Fin 24) (s : State) : Answer :=
  if !s.powered b then .next s
  else if b = .crc ∧ s.crcRuns ch.val = true then
    let (x, s) := s.draw
    .next (s.crcAbort ch.val .timeout (x % (s.get (R.CRC_LEN_OCTETS ch.val) / 1024 + 1)))
  else .next (if s.busy b && !s.pacing b then s.endRunning b .timeout else s)

/-- ABORT (R66, R70, R81). -/
def execAbort (m : Master) (b : Block) (tag : BitVec 8) (s : State) : Answer :=
  .next (
    if s.reaches m b && s.busy b then s.endRunning b .aborted
    else s.onCommon m b tag fun s => (s.discardStaged b).done b .ok)

/-! ## Staged configuration (R80 to R88) -/

/-- CFG_STAGE_WRITE (R81). -/
def execCfgStageWrite (m : Master) (b : Block) (v : BitVec 32) (s : State) : Answer := .next (s.busWrite m (b.base + 0x74) true v).1

/-- COMMIT on SYS_CMD (R83): the sets of every block staged under the epoch are latched, those deferred before among them. -/
def State.deviceCommit (s : State) (m : Master) (tag : BitVec 8) : State :=
  s.onCommon m .sys tag fun s =>
    let e := s.arg .sys 0
    let s := s.startRun .sys (s.mkRun .sys opCommit m tag false)
    let mine := Block.all.filter fun b =>
      b != .sys && s.on (R.H_CFG_PEND_PENDING b.base) && s.get (R.H_CFG_STAGE_EPOCH b.base) == e.toNat
    let s := mine.foldl (fun s b => (s.latch b true).setBlk b fun x => { x with deferred := false }) s
    ({ s with devCommit := some { epoch := e, step := 1, applied := 0, deferred := 0 } }).nextSteps 10

/-- DEVICE_COMMIT (R83). -/
def execDeviceCommit (m : Master) (tag : BitVec 8) (s : State) : Answer := .next (s.deviceCommit m tag)

/-- A block's latched set keeps waiting for its step of a device-wide commit when its own COMMIT adds to it. -/
def State.latchOwn (s : State) (b : Block) : State :=
  let device := match (s.blk b).latched with
    | some l => l.device && s.devCommit.isSome
    | none => false
  s.latch b device

/-- COMMIT (R82, R509): Proofer's page has no staged field, so its epoch advances at once.  A set that a FENCE deferred on a page that is not
fenced applies with it. -/
def execCommit (m : Master) (b : Block) (tag : BitVec 8) (s : State) : Answer :=
  .next (
    if b = .sys then s.deviceCommit m tag
    else s.onCommon m b tag fun s =>
      let s := s.latchOwn b
      if b = .proof then (s.applySet b).done b .ok
      else if s.fenced b then (s.deferSet b).done b .fenced
      else (s.setBlk b fun x => { x with deferred := false }).startRun b (s.mkRun b opCommit m tag false))

/-- A block reaches its safe boundary: may it apply? -/
def State.atBoundary (s : State) (b : Block) : Bool :=
  s.powered b && !s.fenced b && (b != .starter || s.starter.op.isNone)

/-- The set applies, and the block's own COMMIT completes. -/
def State.applyAndEnd (s : State) (b : Block) : State :=
  let s := s.applySet b
  if s.runOp b = some opCommit then s.done b .ok else s

/-- A block applies in the present step of the device-wide commit. -/
def State.applyStep (s : State) (b : Block) (c : DevCommit) : State :=
  let c := { c with first := some (c.first.getD s.lin), last := s.lin }
  if c.step = 3 then ({ s with devCommit := some c }.applyRx b).nextSteps 10
  else ({ s with devCommit := some { c with applied := c.applied + 1 } }.applyAndEnd b).nextSteps 10

/-- COMMIT_APPLY (R82, R85). -/
def execCommitApply (b : Block) (s : State) : Answer :=
  let s := s.nextSteps 10
  .next (match (s.blk b).latched with
    | none => s
    | some l =>
      if !s.atBoundary b || (s.blk b).deferred then s
      else match s.devCommit with
        | some c => if l.device then (if s.owesStep c.step b then s.applyStep b c else s) else s.applyAndEnd b
        | none => s.applyAndEnd b)

/-- DEVICE_COMMIT_DONE (R86 to R88, R98): every block has applied or been deferred. -/
def execDeviceCommitDone (s : State) : Answer :=
  let s := s.nextSteps 10
  .next (match s.devCommit with
    | none => s
    | some c =>
      if c.step < 9 then s
      else
        let s := s.complete .sys (if c.deferred = 0 then .ok else .fenced) 0 (BitVec.ofNat 32 (c.last - c.first.getD c.last)) (BitVec.ofNat 32 c.applied)
          (BitVec.ofNat 32 c.deferred)
        let kept := s.keptNow
        { s with devCommit := none, ret := { s.ret with committed := kept, committedEpoch := c.epoch } }.askStore)

/-! ## The rest (R70, R89) -/

/-- LEDGER_SNAPSHOT (R89). -/
def execLedgerSnapshot (m : Master) (b : Block) (tag : BitVec 8) (s : State) : Answer :=
  .next (s.onCommon m b tag fun s => (s.snapshot b).done b .ok)

/-- NOP (R70). -/
def execNop (m : Master) (b : Block) (tag : BitVec 8) (s : State) : Answer := .next (s.onCommon m b tag fun s => s.done b .ok)

/-- An opcode that no block or this block does not define (R68, R70). -/
def State.unknownCmd (s : State) (m : Master) (b : Block) (op : Nat) (tag : BitVec 8) : State :=
  s.onCommon m b tag fun s => s.done b (if op < 0xF0 && s.fenced b then .fenced else .range)

end Sys2Proof.Machine
end

