-- ==== Sys2Proof/Machine/TimeBase.lean ====
section
/-! DEFINITION. The time base and the trigger channels (R117 to R145). -/

namespace Sys2Proof.Machine

/-! ## Snapshots (R119) -/

/-- TB_LATCH. -/
def execTbLatch (m : Master) (s : State) : Answer :=
  if !s.hears m then .next s
  else if !s.powered .tb then .next s.offWrite
  else
    let set (s : State) (f : Fld) (x : Nat) : State := s.put (ownCopy m f) x
    let l := s.tb.L.toNat
    let s := set (set (set s R.TB_SNAP_NS_NS (s.lin % 10 ^ 9)) R.TB_SNAP_S_LO_S (s.seconds % 2 ^ 32)) R.TB_SNAP_S_HI_S (s.seconds / 2 ^ 32)
    let s := set (set s R.TB_SNAP_LIN_LO_L s.short) R.TB_SNAP_LIN_HI_L (s.lin / 2 ^ 32)
    let s := set (set s R.TB_SNAP_AUX_FRAC (l / 2 ^ 32 % 2 ^ 8)) R.TB_SNAP_AUX_WRAP (l / 2 ^ 72 % 2 ^ 8)
    let s := set (set s R.TB_SNAP_AUX_STEPGEN s.tb.stepgen.toNat) R.TB_SNAP_AUX_HOLD (if s.tbMode = 3 then 1 else 0)
    .next (set s R.TB_SNAP_ST_ST s.st)

/-! ## Sources (R120 to R128) -/

/-- SOURCE_QUALIFIED (R120): source 0 PTP, 1 GNSS, 2 peer beacons has been OK for TB_QUAL seconds. -/
def execSourceQualified (src : Fin 3) (s : State) : Answer :=
  match nth s.tb.okAt src.val none with
  | none => .next s
  | some t => if !s.pdOn 0 || !s.srcEnabled src.val then .next s else .next (s.advanceTo (s.qualAt t)).tbEval

/-- TB_SRC_SET_WRITE (R109, R121, R124). -/
def execTbSrcSetWrite (m : Master) (v : BitVec 32) (s : State) : Answer :=
  match s.busWrite m R.TB_SRC_SET_PTP_OK.a true v with
  | (s, .applied ..) =>
    let s := ((s.setOk 0 (s.on R.TB_SRC_SET_PTP_OK)).setOk 2 (s.on R.TB_SRC_SET_BCN_OK)).tbEval
    let lock := s.on R.TB_SRC_SET_LOCKED
    .next (
      if lock && s.tbMode == 1 then ((s.put R.TB_STATE_MODE 2).stratumNow).startRestore
      else if !lock && s.tbMode == 2 then (s.put R.TB_STATE_MODE 1).stratumNow
      else s)
  | (s, _) => .next s

/-- TB_RATE_WRITE (R117, R124). -/
def execTbRateWrite (m : Master) (v : BitVec 32) (s : State) : Answer :=
  match s.busWrite m R.TB_RATE_RATE.a true v with
  | (s, .applied ..) => .next (s.passBfifo 29 1 fun _ => v.toNat)
  | (s, _) => .next s

/-- SERVO_TIMEOUT (R125). -/
def execServoTimeout (s : State) : Answer :=
  .next (if s.tbMode = 1 ∨ s.tbMode = 2 then (s.evt .tb E.TB_SERVO_TMO).enterHoldover else s)

/-- A stamp comes from the time base through its boundary FIFO (R46) into a FIFO of stamp words; the oldest goes when it is full. -/
def State.pushStamp (s : State) (l : List Stamp) (cap : Nat) (x : Stamp) (set : State → List Stamp → State) (lost : Fld) (b : Block)
    (bit : Nat) : State :=
  let (l, full) := fifoPush cap l x
  let s := set (s.passBfifo 28 1 fun _ => x.toNat) l
  if full then (s.bumpSat lost 1).evt b bit else s

/-- PPS_INPUT (R121, R132, R133, R144): a selected 1PPS edge; `tenm`: the error measured against the 10 MHz input over the last second, if
that input is present. -/
def execPpsInput (tenm : Option (BitVec 32)) (s : State) : Answer :=
  if !s.pdOn 0 then .next s
  else
    let at' : Lin := s.tb.L - BitVec.ofInt 104 (toSigned 16 (s.get R.TB_PPS_CFG_IN_DELAY) * 2 ^ 40)
    let s := s.pushStamp s.tb.ppsFifo 16 (stampAt s at' 0 1) (fun s l => { s with tb := { s.tb with ppsFifo := l } })
      R.TB_PPSIN_LOST_COUNT .tb E.TB_PPSIN_LOST
    let s := s.put R.TB_TENM_ERR_ERR (match tenm with
      | some e => e.toNat
      | none => 0x80000000)
    let onTime : Bool := match s.tb.lastPps with
      | none => false
      | some p =>
        let d := (at' - p).toNat / 2 ^ 40
        decide (999 * 10 ^ 6 ≤ d) && decide (d ≤ 1001 * 10 ^ 6)
    let s := { s with tb := { s.tb with lastPps := some at', pps := onTime, tenm := tenm.isSome } }
    .next (s.judgeGnss.tbEval)

/-- GNSS_PPS_MISSING (R121): no edge came within 1 ms of the predicted second, or (`tenm`) the 10 MHz input goes absent. -/
def execGnssPpsMissing (tenm : Bool) (s : State) : Answer :=
  .next (
    if !s.pdOn 0 then s
    else if tenm then ({ s with tb := { s.tb with tenm := false } }).judgeGnss.tbEval
    else ({ s with tb := { s.tb with pps := false } }).judgeGnss.tbEval)

/-- REF_LOST (R127, R128): the ratio of the crystal stays as it was measured last (a free value, log entry 5), and the chains stop. -/
def execRefLost (s : State) : Answer :=
  if !s.pdOn 0 || s.on R.TB_STATE_REF_LOST then .next s
  else
    let s : State := { s with tb := { s.tb with crystal := (Config.crystalTick s.freeCtr).toNat }, freeCtr := s.freeCtr + 1 }
    let s := ((s.put R.TB_STATE_REF_LOST 1).evt .tb E.TB_REF_LOST).enterHoldover
    .next ([0, 1, 2, 3].foldl (fun s n => s.toOff n false) s)

/-- REF_BACK (R128). -/
def execRefBack (s : State) : Answer :=
  if !s.pdOn 0 || !s.on R.TB_STATE_REF_LOST then .next s
  else
    let s := ((s.put R.TB_STATE_REF_LOST 0).evt .tb E.TB_REF_BACK).tbEval
    .next ([0, 1, 2, 3].foldl (fun s n => s.chainStart n) s)

/-! ## Trigger channels (R138 to R143) -/

/-- What a fire does besides its stamp, by KIND (R140, R141). -/
def State.trigAct (s : State) (n : Nat) : State :=
  let sel := s.get (R.TRIG_CTL_SEL n)
  let param := s.get (R.TRIG_PARAM_PARAM n)
  let inDomain (d : Nat) (f : State → State) : State := if s.pdOn d then f s else s.bumpSat (R.TRIG_STAT_NOACT n) 1
  let radio := if sel < 2 then 10 else 11
  match s.get (R.TRIG_CTL_KIND n) with
  | 1 => inDomain radio fun s => s.releaseTrig sel
  | 2 => inDomain radio fun s => s.captureTrigger sel s.lin param
  | 3 => { s with trig := { s.trig with pulses := Fin.ofNat 16 n :: s.trig.pulses.filter (· != Fin.ofNat 16 n) } }
  | 4 => inDomain 2 fun s => s.closeLine sel
  | 5 => inDomain 13 fun s => s.msi (192 + sel)
  | 6 =>
    let pin := param % 64
    let f : Fld := if pin < 32 then ⟨R.GPIO_OUT0_LEVEL.a, pin, 1⟩ else ⟨R.GPIO_OUT1_LEVEL.a, pin - 32, 1⟩
    s.putB f (natBit param 8)
  | _ => s

/-- After a fire a one-shot channel disarms; a periodic one moves its target on by whole periods to the first after now, which lies `b`
units past the target; periods skipped are counted (R138). -/
def State.trigNext (s : State) (n b : Nat) : State :=
  let period := s.get (R.TRIG_PERIOD_PERIOD n)
  if period = 0 then s.put (R.TRIG_CTL_ARM n) 0
  else
    let p := period * 256 + s.get (R.TRIG_CTL_PERIOD_FRAC n)
    let f := mapGetD s.trig.frac n 0
    let k := ceilDiv ((b + 1) * 256 - f) p
    let x := f + k * p
    let s := s.put (R.TRIG_TGT_TGT n) ((s.get (R.TRIG_TGT_TGT n) + x / 256) % 2 ^ 32)
    let s := { s with trig := { s.trig with frac := mapSet s.trig.frac n (x % 256) } }
    if k ≤ 1 then s else (s.bumpSat (R.TRIG_STAT_MISSED n) (k - 1)).evt .trig E.TRIG_MISSED

/-- A channel fires, `b` units past its target (R138 to R141). -/
def State.fireTrig (s : State) (n b : Nat) : State :=
  let s := s.pushStamp s.trig.fifo 256 (s.stamp n 0) (fun s l => { s with trig := { s.trig with fifo := l } })
    R.TRIG_FIRE_LOST_COUNT .trig E.TRIG_FIFO_LOST
  let s := ((s.bump (R.TRIG_STAT_FIRES n) 1).put (R.TRIG_LAST_NS n) s.short).evt .trig (E.TRIG_FIRE + n)
  let s := (s.trigAct n).trigNext n b
  if n = 15 then s.wakeBy 1 else s

/-- Units by which the time has passed the target of a channel. -/
def State.pastTarget (s : State) (n : Nat) : Nat :=
  ((if s.on (R.TRIG_CTL_UNIT n) then s.st else s.short) + 2 ^ 32 - s.get (R.TRIG_TGT_TGT n)) % 2 ^ 32

/-- The instant at which an armed channel reaches its target; without the reference it fires at the first tick from then on
(`advanceTo`, R128). -/
def State.targetAt (s : State) (n : Nat) : Lin :=
  let tgt := s.get (R.TRIG_TGT_TGT n)
  if s.on (R.TRIG_CTL_UNIT n) then linOfTick (ticksOf s.tb.L + (tgt + 2 ^ 32 - s.st) % 2 ^ 32)
  else linOfNs (s.lin + (tgt + 2 ^ 32 - s.short) % 2 ^ 32)

/-- TRIGGER_FIRE (R128, R138, R140, R141). -/
def execTriggerFire (ch : Fin 16) (s : State) : Answer :=
  let n := ch.val
  if !s.pdOn 0 || !s.on (R.TRIG_CTL_ARM n) then .next s
  else
    let s := if s.trigReached n (s.on (R.TRIG_CTL_UNIT n)) then s else s.advanceTo (s.targetAt n)
    .next (s.fireTrig n (s.pastTarget n))

/-- A fire that is due as a write reaches the channel is carried out before a write that clears ARM (R142). -/
def State.fireDue (s : State) (m : Master) (n : Nat) (v : W32) : State :=
  if s.reaches m .trig && !natBit v.toNat 0 && s.on (R.TRIG_CTL_ARM n) && s.trigReached n (s.on (R.TRIG_CTL_UNIT n)) then
    s.fireTrig n (s.pastTarget n)
  else s

/-- TRIG_CTL_WRITE (R138 to R140, R142, R143). -/
def execTrigCtlWrite (m : Master) (ch : Fin 16) (v : BitVec 32) (s : State) : Answer :=
  let n := ch.val
  let s := s.fireDue m n v
  let past := s.armsInPast n v
  match s.busWrite m (R.TRIG_CTL_ARM n).a true v with
  | (s, .refused) => .next (s.evtIf past .trig E.TRIG_PAST_REFUSED)
  | (s, .applied ..) =>
    let s := { s with trig := { s.trig with frac := mapErase s.trig.frac n } }
    if s.on (R.TRIG_CTL_ARM n) && s.trigReached n (s.on (R.TRIG_CTL_UNIT n)) then
      .next ((s.evt .trig E.TRIG_PAST_FIRED).fireTrig n (s.pastTarget n))
    else .next s
  | (s, _) => .next s

/-- TRIGGER_PULSE_END (R140). -/
def execTriggerPulseEnd (ch : Fin 16) (s : State) : Answer :=
  .next { s with trig := { s.trig with pulses := s.trig.pulses.filter (· != ch) } }

/-! ## Setting the time (R129 to R131) -/

/-- An armed channel at a step from `old` to now (R131). -/
def State.trigStepped (s : State) (old : Lin) (n : Nat) : State :=
  if !s.on (R.TRIG_CTL_ARM n) then s
  else
    let unit (l : Lin) : Nat := if s.on (R.TRIG_CTL_UNIT n) then ticksOf l else l.toNat / 2 ^ 40
    let o := unit old
    let now := unit s.tb.L
    let inst := o + (s.get (R.TRIG_TGT_TGT n) + 2 ^ 32 - o % 2 ^ 32) % 2 ^ 32
    if inst ≤ now then s.fireTrig n (now - inst)
    else if 2 ^ 31 ≤ inst - now then (s.put (R.TRIG_CTL_ARM n) 0).evt .trig E.TRIG_STEP_DISARM
    else s

/-- What lasts a stretch of time goes on over a step: instants that the device remembers move with the time base (log entry 49). -/
def State.shiftInstants (s : State) (d : Lin) : State :=
  let ns := d.toInt / 2 ^ 40
  let sh (x : Nat) : Nat := ((x : Int) + ns).toNat
  let job (j : ChainJob) : ChainJob := if j.inService then { j with ts := sh j.ts } else j
  let chain (c : ChainSt) : ChainSt := { c with
    lockStart := sh c.lockStart, restore := c.restore.map fun x => (sh x.1, x.2), again := c.again.map fun x => (x.1, sh x.2)
    downAt := sh c.downAt, cal := c.cal.map fun x => { x with start := sh x.start }, jobs := c.jobs.map job }
  let mark (m : Mark) : Mark := { m with at_ := m.at_ + d }
  let wb (w : WbSt) : WbSt := { w with
    ctxs := w.ctxs.map fun x => (x.1, { x.2 with mark := mark x.2.mark, refAt := sh x.2.refAt })
    marks := w.marks.map mark, recs := w.recs.map fun x => (x.1, { x.2 with mark := mark x.2.mark })
    ring := w.ring.map fun b => { b with startNs := sh b.startNs } }
  let aim (a : AimState) : AimState := { a with sentEnd := a.sentEnd.map sh }
  let peer (x : Nat × Peer) : Nat × Peer := (x.1, { x.2 with heard := sh x.2.heard })
  let seen (x : SeenEntry) : SeenEntry := { x with firstNs := sh x.firstNs, due := sh x.due }
  { s with
    tb := { s.tb with okAt := s.tb.okAt.map fun x => x.map (· + d), lastPps := s.tb.lastPps.map (· + d), holdStart := s.tb.holdStart + d }
    tamp := { s.tamp with base := s.tamp.base + d.toInt }
    fwu := { s.fwu with trialEnd := sh s.fwu.trialEnd, act := s.fwu.act.map fun a => { a with start := sh a.start } }
    ret := { s.ret with dirty := s.ret.dirty.map fun x => (x.1, sh x.2) }
    rf := s.rf.map fun x => (x.1, chain x.2)
    wb := s.wb.map fun x => (x.1, wb x.2)
    mac := { s.mac with aims := s.mac.aims.map fun x => (x.1, aim x.2) }
    devCommit := s.devCommit.map fun c => { c with first := c.first.map sh, last := sh c.last }
    bcn := { s.bcn with peers := s.bcn.peers.map peer, judged := sh s.bcn.judged }
    flood := { s.flood with seen := s.flood.seen.map seen } }

/-- The time moves in one cycle (R129, R131, R295, R296, R524). -/
def State.stepTo (s : State) (new : Lin) (kind : Nat) : State :=
  let old := s.tb.L
  let ns : Int := ((new.toNat / 2 ^ 40 : Nat) : Int) - ((old.toNat / 2 ^ 40 : Nat) : Int)
  let s := s.shiftInstants (new - old)
  let s := s.passBfifo 29 1 fun _ => new.toNat
  let s := { s with tb := { s.tb with L := new, stepgen := s.tb.stepgen + 1 } }
  let s := s.put64 R.TB_LAST_STEP_LO_NS R.TB_LAST_STEP_HI_NS (ofSigned 64 ns)
  let s := ((s.bump R.TB_STEP_CNT_COUNT 1).evt .tb E.TB_STEP).logCorrection kind ns
  ((List.range 16).foldl (fun s n => s.trigStepped old n) s).peelStepped (ticksOf old)

/-- The opcode of SLEW. -/
def opSlew : Nat := 3

/-- SET_TIME (R124, R129). -/
def execSetTime (m : Master) (tag : BitVec 8) (s : State) : Answer :=
  .next (s.onCommand m .tb tag fun s =>
    let sec := (s.arg .tb 0).toNat + s.argBits .tb 1 0 16 * 2 ^ 32
    let ns := (s.arg .tb 2).toNat
    if 10 ^ 9 ≤ ns then s.done .tb .range
    else if s.tbMode = 3 then s.done .tb .state
    else (s.stepTo (linOfNs (sec * 10 ^ 9 + ns)) 1).done .tb .ok)

/-- STEP (R124, R129). -/
def execStep (m : Master) (tag : BitVec 8) (s : State) : Answer :=
  .next (s.onCommand m .tb tag fun s =>
    let off := toSigned 64 ((s.arg .tb 0).toNat + (s.arg .tb 1).toNat * 2 ^ 32)
    if off = 0 then s.done .tb .range
    else if s.tbMode = 3 then s.done .tb .state
    else (s.stepTo (s.tb.L + BitVec.ofInt 104 (off * 2 ^ 40)) 0).done .tb .ok)

/-- SLEW (R124, R130). -/
def execSlew (m : Master) (tag : BitVec 8) (s : State) : Answer :=
  .next (s.onCommand m .tb tag fun s =>
    let off := toSigned 32 (s.arg .tb 0).toNat
    let ppm := s.argBits .tb 1 0 9
    if off = 0 ∨ ppm = 0 ∨ 500 < ppm then s.done .tb .range
    else if s.tbMode = 3 then s.done .tb .state
    else
      let total := off.natAbs * 2 ^ 40
      let s := (s.startRun .tb (s.mkRun .tb opSlew m tag false)).logCorrection 2 off
      { s with tb := { s.tb with slew := some { neg := decide (off < 0), ppm := ppm, total := total, left := total, carry := 0 } } })

/-- SLEW_COMPLETE (R130): the cycles that it still takes have passed. -/
def execSlewComplete (s : State) : Answer :=
  match s.tb.slew with
  | none => .next s
  | some w =>
    let cycles := ceilDiv (w.left * 10 ^ 6) (w.ppm * 2 ^ 40)
    let move : Int := cycles * (2 ^ 40 + toSigned 32 (s.get R.TB_RATE_RATE)) + (if w.neg then -(w.left : Int) else w.left)
    .next ({ s with tb := { s.tb with L := s.tb.L + BitVec.ofInt 104 move, slew := some { w with left := 0 } } }.endSlew w.code)

/-! ## A cycle in which no command is waiting (log entry 2) -/

/-- The increment of one cycle in 2^-40 ns (R117). -/
def State.increment (s : State) : Int := 2 ^ 40 + toSigned 32 (s.get R.TB_RATE_RATE)

/-- What a slew adds in one cycle: ppm of a nanosecond, of which the part below 2^-40 ns is carried, until the offset is removed; what it
adds and the slew after it (R130). -/
def Slew.cycle (w : Slew) : Nat × Slew :=
  let x := w.ppm * 2 ^ 40 + w.carry
  let n := min w.left (x / 10 ^ 6)
  (n, { w with left := w.left - n, carry := x % 10 ^ 6 })

/-- One cycle of the time base (R117, R127, R130); while the reference is lost, one edge of the crystal. -/
def State.tickOnce (s : State) : State :=
  if s.on R.TB_STATE_REF_LOST then
    { s with tb := { s.tb with L := s.tb.L + BitVec.ofNat 104 s.crystalStep } }
  else match s.tb.slew with
    | none => { s with tb := { s.tb with L := s.tb.L + BitVec.ofInt 104 s.increment } }
    | some w =>
      let (n, w') := w.cycle
      let move : Int := s.increment + (if w.neg then -(n : Int) else n)
      let s : State := { s with tb := { s.tb with L := s.tb.L + BitVec.ofInt 104 move, slew := some w' } }
      if w'.left = 0 then s.endSlew w'.code else s

/-- A cycle in which no command waits: the time moves, records whose models have become too old say so (R108), the flood engine takes what its
list holds (R284), and the fabric reads what the receive FIFOs hold (R46). -/
def State.idleTick (s : State) : State := if !s.pdOn 0 then s else s.tickOnce.ageRecords.floodRun.drainRx

/-! ## FIFOs of stamps (R144, R145) -/

/-- TB_PPSIN_POP. -/
def execTbPpsinPop (m : Master) (s : State) : Answer :=
  if !s.reaches m .tb then .next { s with busData := 0 }
  else match s.tb.ppsFifo with
    | [] => .next { s.put R.TB_PPSIN_HI_STAMP 0 with busData := 0 }
    | x :: r => .next { s.put R.TB_PPSIN_HI_STAMP (x.toNat / 2 ^ 32) with busData := x.setWidth 32, tb := { s.tb with ppsFifo := r } }

/-- TRIG_FIRE_POP. -/
def execTrigFirePop (m : Master) (s : State) : Answer :=
  if !s.reaches m .trig then .next { s with busData := 0 }
  else match s.trig.fifo with
    | [] => .next { s.put R.TRIG_FIRE_HI_STAMP 0 with busData := 0 }
    | x :: r => .next { s.put R.TRIG_FIRE_HI_STAMP (x.toNat / 2 ^ 32) with busData := x.setWidth 32, trig := { s.trig with fifo := r } }

end Sys2Proof.Machine
end

