-- ==== Sys2Proof/Machine/View.lean ====
section
/-! DEFINITION. What a read of a register returns (R9, R21, R55 to R58, R72): the stored word, with the fields that show what the block
holds now.  Reads of POP registers, which also remove an item, have commands of their own. -/

namespace Sys2Proof.Machine

/-- A field of a word as read: lowest bit, width, value. -/
abbrev Shown := Nat × Nat × Nat

/-- Where a block's partial-result window starts (R72, R320, R342, R359, R459). -/
def windowAt : Block → Option Nat
  | .peel => some 0x3000
  | .dir => some 0x800
  | .sieve e => some (if e.val = 2 then 0x400 else 0x800)
  | .rack => some 0x1000
  | _ => none

/-- Octets a window takes with its chunk of 32 entries: of 16 octets on a layer-2 page, 8 on PEEL and RACK, 4 otherwise. -/
def windowSize : Block → Nat
  | .sieve e => if e.val = 2 then 0x90 else 0x210
  | .dir => 0x90
  | _ => 0x110

/-- A word of the window (R72). -/
def PartWindow.word (p : PartWindow) (o : Nat) : W32 :=
  if o = 0 then BitVec.ofNat 32 (p.chunk.toNat + p.tag.toNat * 2 ^ 16 + (p.entries.length % 2 ^ 8) * 2 ^ 24)
  else if o < 0x10 then 0
  else nth p.entries.flatten ((o - 0x10) / 4) 0

/-! ## The time base (R120, R126, R127) -/

/-- The best candidate: the highest-ranked enabled source that is OK, not qualified yet, and better than the active one (DEDUCED, log
entry 50). -/
def State.candidateSrc (s : State) : Option Lin :=
  let src := s.get R.TB_STATE_SRC
  (List.range 3).findSome? fun i =>
    if s.srcEnabled i && !nth s.tb.qualified i false && (src == 0 || decide (i + 1 < src)) then nth s.tb.okAt i none else none

/-- TB_STATE.QUAL_LEFT: seconds until it qualifies, rounded up. -/
def State.qualLeft (s : State) : Nat := match s.candidateSrc with
  | some t => ceilDiv ((s.qualAt t).toNat - s.tb.L.toNat) (10 ^ 9 * 2 ^ 40)
  | none => 0

/-- Nanoseconds since holdover began; 0 when not in holdover. -/
def State.holdNs (s : State) : Nat := if s.tbMode = 3 then (s.tb.L - s.tb.holdStart).toNat / 2 ^ 40 else 0

/-- TB_HOLD_BOUND (R126, R127). -/
def State.holdBound (s : State) : Nat :=
  let ppb := if s.on R.TB_STATE_REF_LOST then s.get R.TB_HOLD_PPB_XTAL else s.get R.TB_HOLD_PPB_PPB
  min (2 ^ 32 - 1) (s.holdNs * ppb / 10 ^ 9)

/-! ## Blocks -/

/-- _VER.IFACE: the epoch of the microcode or firmware that runs in the block (R57, R528). -/
def State.ifaceOf (s : State) : Block → Nat
  | .rf n => (s.unitImage (1 + n.val)).iface
  | .wb n => (s.unitImage (1 + n.val)).iface
  | .port p => (s.unitImage (portUnit p.val)).iface
  | .proof => if s.proof.runs then s.proof.iface else 0
  | _ => 0

/-- RET_CKPT_AGE.MS: the age of the oldest dirty record. -/
def State.ckptAge (s : State) : Nat :=
  min 65535 (s.ret.dirty.foldl (fun a x => max a ((s.lin - x.2) / 10 ^ 6)) 0)

/-- What RFn_STATE and RFn_CAL_STAT show besides the stored fields. -/
def State.rfShown (s : State) (n : Nat) : List Shown :=
  let c := s.chain n
  let cal := match c.cal with
    | some x => if s.rfState n = rfCal then [(4, 2, calAt x.start x.kinds s.lin), (6, 1, if x.prot then 1 else 0)] else []
    | none => (match c.restore with | some (_, k) => [(4, 2, k)] | none => [])
  cal ++ [(16, 2, c.jobs.length)]

/-- Calibrations due: those marked, those of a CAL_RUN that waits, and those of a set not completed. -/
def State.calPend (s : State) (n : Nat) : Nat :=
  let c := s.chain n
  let due := (match c.calWait with | some (ks, _) => ks | none => []) ++ (match c.cal with | some x => x.kinds | none => [])
    ++ c.again.map (·.1)
  (List.range 3).foldl (fun a k => if natBit (s.get (R.RF_CAL_STAT_PEND n)) k || due.contains k then a + 2 ^ k else a) 0

/-- Octets as 32-bit words, least significant first: word w. -/
def wordOf (l : List Nat) (w : Nat) : Nat := leNum (slice l (4 * w) 4)

/-- The image in a slot as last verified, shown by the slot registers (R554). -/
def State.slotShown (s : State) (k : Nat) (name : String) : List Shown :=
  let x := mapGetD s.fwu.slots k {}
  match name with
  | "FWU_SLOT_STAT" =>
    let part := slotPart k
    let runs : Bool := if part = 4 then slotOf 4 (s.proof.slot == 1) == k else (partUnits part).any fun u => s.unitSlot u == k
    let prev : Bool := decide (part < 4) && s.fwu.phase == 2
      && (partUnits part).any fun u => nth s.fwu.trial u false && slotOf part (nth s.fwu.prev u false) == k
    [(0, 1, if x.verified then 1 else 0), (1, 1, if x.bound then 1 else 0), (2, 1, if runs then 1 else 0), (3, 1, if prev then 1 else 0),
      (8, 8, x.result), (16, 2, x.key)]
  | "FWU_SLOT_VER" => [(0, 32, x.version)]
  | "FWU_SLOT_EP" => [(0, 16, x.iface), (16, 16, x.proto)]
  | "FWU_SLOT_MINA" => [(0, 16, x.minCtrl), (16, 16, x.minRadio)]
  | _ => [(0, 16, x.minPcs), (16, 16, x.minProof)]

/-- PROGRESS while a slew runs: the microseconds it has removed so far (R129). -/
def State.slewShown (s : State) (b : Block) : List Shown := match b, s.tb.slew with
  | .tb, some w => [(0, 16, w.removedUs)]
  | _, _ => []

/-- Fields that show what a block holds now, by register name; `k`: the number of the element, queue, list or slot. -/
def State.shown (s : State) (m : Master) (b : Block) (name : String) (k : Nat) : List Shown :=
  match name with
  | "H_VER" => [(16, 16, s.ifaceOf b)]
  | "H_STATUS" => [(28, 4, s.statusState b)] ++ s.slewShown b
  | "FAB_BFIFO_STAT" => [(0, 12, s.bfifoLevel k)]
  | "RET_CKPT_AGE" => [(0, 16, s.ckptAge)]
  | "TB_STATE" => [(16, 16, s.qualLeft)]
  | "TB_HOLD_ELAPSED" => [(0, 32, s.holdNs / 10 ^ 6)]
  | "TB_HOLD_BOUND" => [(0, 32, s.holdBound)]
  | "RF_STATE" => s.rfShown b.inst
  | "RF_CAL_STAT" => [(12, 3, s.calPend b.inst)]
  | "RF_FEM_NOW" => [(0, 4, s.femPattern b.inst)]
  | "WB_STATE" =>
    let w := s.wbOf b.inst
    [(0, 6, w.assigned.length), (8, 6, (w.ctxs.filter fun p => p.2.confirmed).length + (w.recs.filter fun p => p.2.holds && p.2.confirmed).length)]
  | "WB_CTX_MAP" => [(0, 32, (s.wbOf b.inst).assigned.foldl (fun a j => a ||| 2 ^ j) 0)]
  | "PHY_POOL" =>
    let l := s.pool k
    [(0, 4, (l.filter (·.active)).length), (8, 7, waitingSegs l)]
  | "PHY_SNR_LEVEL" => [(0, 11, s.phy.snr.length)]
  | "BCN_STATUS" => [(4, 7, s.bcn.peers.length)]
  | "FLOOD_CACHE" => [(0, 13, s.flood.seen.length), (16, 9, s.relaysPending)]
  | "PEEL_OUTST" => [(0, 19, s.outstanding k)]
  | "PEEL_STORE" => [(0, 19, 458752 - s.peel.items.length)]
  | "PEEL_FLOWS_HELD" => [(0, 19, (s.peel.items.filter fun p => p.2.st.holds).length)]
  | "PEEL_CREDIT" => [(0, 19, s.peelCredit m.idx)]
  | "PEEL_DONE_LEVEL" => [(0, 19, (mapGetD s.peel.done m.idx []).length)]
  | "PEEL_LIST_RDY" => if k = 10 then [] else [(0, 13, (s.readyItems k).length), (16, 13, readyCap k)]
  | "PEEL_LIST_DLY" => [(0, 19, (s.delayItems k).length)]
  | "PEEL_LIST_NEXT" => [(0, 32, (s.earliestDue k).getD 0)]
  | "DIR_NODES" => [(0, 19, s.dir.nodes.length)]
  | "SIEVE_ENTRIES" => [(0, 17, (mapGetD s.sieve b.inst {}).table.length)]
  | "SIEVEP_COUNT" => [(0, 15, s.prefixes.length)]
  | "CRUST_SA_INSTALLED" => [(0, 15, s.crust.sas.length)]
  | "RACK_CELLS" => [(0, 18, s.rack.free)]
  | "RACK_ALLOC" => [(0, 18, s.rack.alloc)]
  | "RACK_FLIGHT" => [(0, 18, s.rack.flight)]
  | "RACK_QUAR" => [(0, 18, (s.rack.tags.filter fun t => t.2.owner == 254).length)]
  | "RACK_POOL_LVL" => [(0, 18, s.poolLevel k)]
  | "STARTER_STATE" => [(0, 3, s.starter.lc), (5, 1, if s.starter.legacyOff then 1 else 0)]
  | "STARTER_UID" => [(0, 32, Config.uid.toNat / 2 ^ (32 * k))]
  | "STARTER_MESH" => (List.range 4).map fun g => (4 + g, 1, if (mapGet s.starter.slots (512 + g)).isSome then 1 else 0)
  | "STARTER_SLOTS" =>
    let vol := (s.starter.slots.filter fun x => decide (x.1 < 512)).length
    [(0, 10, vol), (16, 7, s.starter.slots.length - vol)]
  | "STARTER_OUT" => [(0, 32, if s.starter.outFor = some m then wordOf s.starter.out k else 0)]
  | "TAMP_BKUP_LO" => [(0, 32, s.backupTicks)]
  | "TAMP_BKUP_HI" => [(0, 16, s.backupTicks / 2 ^ 32)]
  | "PROOF_STATE" => [(2, 1, if s.proof.runs then s.proof.slot else 0)]
  | "PROOF_VERSION" => [(0, 32, if s.proof.runs then s.proof.version else 0)]
  | "PROOF_SEAL" => [(0, 32, s.proof.sealCnt)]
  | "PROOF_QUEUE" => [(0, 15, s.proof.queue.length)]
  | "PROOF_REG_HEAD" => [(0, 32, s.proof.head)]
  | "PROOF_LOG_HEAD" => [(0, 15, s.proof.log.length)]
  | "PROOF_HASH" => [(0, 32, if s.proof.runs then wordOf s.proof.hash k else 0)]
  | "PROOF_CREDIT" => [(0, 15, holdSize - s.proof.queue.length)]
  | "PROOF_PUB_W" => [(0, 32, wordOf (mapGetD s.proof.selected m.idx []) k)]
  | "FWU_STATE" => [(0, 2, s.fwu.phase), (16, 2, s.fwu.boots)]
  | "FWU_TRIAL_LEFT" => [(0, 17, if s.fwu.phase = 2 then ceilDiv (s.fwu.trialEnd - s.lin) (10 ^ 9) else 0)]
  | "FWU_LAST_FB" => [(0, 4, s.fwu.fbCause), (8, 3, s.fwu.fbParts), (16, 16, s.fwu.fbCount)]
  | "FWU_LAST_FB_TIME" => [(0, 32, s.fwu.fbTime)]
  | "FWU_KEYS" => [(0, 4, s.fwu.revoked)]
  | "FWU_PROTO" => [(0, 16, (s.unitImage 0).proto)]
  | "FWU_RUN" =>
    [(0, 1, if nth s.fwu.run k false then 1 else 0), (1, 1, if nth s.fwu.trial k false then 1 else 0), (8, 16, (s.unitImage k).iface)]
  | "FWU_SLOT_STAT" | "FWU_SLOT_VER" | "FWU_SLOT_EP" | "FWU_SLOT_MINA" | "FWU_SLOT_MINB" => s.slotShown k name
  | "HOST_Q_RX_PTR" => [(0, 12, (s.queue k).rxIdx), (16, 13, (s.link (10 + k)).host)]
  | "HOST_Q_TX_PTR" => [(0, 12, (s.queue k).txIdx), (16, 13, (s.link (74 + k)).producer)]
  | _ => []

/-- The number `shown` takes for a register: the list of PEEL page 2, the slot of FWU, the queue of HOST, or the element. -/
def shownIndex (b : Block) (o i : Nat) : Nat :=
  match b with
  | .peel => if 0x2100 ≤ o then (o - 0x2100) / 0x10 else i
  | .fwu => if 0x200 ≤ o then (o - 0x200) / 0x20 else i
  | _ => elementOf b o i

/-- Can software read the field? -/
def Acc.readable : Acc → Bool
  | .wo | .pop => false
  | _ => true

/-- What a read of the word at a BAR0 address returns to a master, POP registers apart. -/
def State.readWord (s : State) (m : Master) (a : Nat) : W32 :=
  match blockAt a with
  | none => 0
  | some (b, o) =>
    if !s.powered b then (if o = 0xC then 0x50000000 else 0)
    else match windowAt b with
      | some w =>
        if w ≤ o ∧ o < w + windowSize b then (match (s.blk b).part with
          | some p => p.word (o - w)
          | none => 0)
        else plain b o
      | none => plain b o
where
  plain (b : Block) (o : Nat) : W32 :=
    match regAt b o with
    | none => 0
    | some (r, i) =>
      let stored := s.word (regKey m b o r) &&& r.maskOf fun f => f.acc.readable
      (s.shown m b r.name (shownIndex b o i)).foldl (fun v x => bitsSet x.1 x.2.1 x.2.2 v) stored

end Sys2Proof.Machine
end

