-- ==== Sys2Proof/Machine/Bus.lean ====
section
/-! DEFINITION. The bus: a write of any register, by address, and the transactions of the management SPI (R56, R573, R574).  A write to a
register that starts something is the command of that name. -/

namespace Sys2Proof.Machine

/-- The state a meaning answers; `s` if it answers none. -/
def stateOf (s : State) : Answer → State
  | .next t => t
  | _ => s

/-! ## Opcodes (R70 and the opcode tables of the blocks) -/

def pwrOp (m : Master) (tag : BitVec 8) (s : State) : Nat → Option Answer
  | 1 => some (execEnterRun m tag s)
  | 2 => some (execEnterTrim m tag s)
  | 3 => some (execEnterHold m tag s)
  | 4 => some (execResetDevice m tag s)
  | _ => none

def retOp (m : Master) (tag : BitVec 8) (s : State) : Nat → Option Answer
  | 1 => some (execCkptFlush m tag s)
  | 2 => some (execEraseStore m tag s)
  | _ => none

def tbOp (m : Master) (tag : BitVec 8) (s : State) : Nat → Option Answer
  | 1 => some (execSetTime m tag s)
  | 2 => some (execStep m tag s)
  | 3 => some (execSlew m tag s)
  | _ => none

def rfOp (m : Master) (n : Fin 4) (tag : BitVec 8) (s : State) : Nat → Option Answer
  | 1 => some (execCalRun m n tag s)
  | 2 => some (execTxCut m n tag s)
  | 3 => some (execChainReset m n tag s)
  | _ => none

def wbOp (m : Master) (n : Fin 4) (tag : BitVec 8) (s : State) : Nat → Option Answer
  | 1 => some (execReplay m n tag s)
  | 2 => some (execCapture m n tag s)
  | _ => none

def floodOp (m : Master) (tag : BitVec 8) (s : State) : Nat → Option Answer
  | 1 => some (execOriginate m tag s)
  | 2 => some (execInject m tag s)
  | 3 => some (execDistStart m tag s)
  | _ => none

def peelOp (m : Master) (tag : BitVec 8) (unpaced : Bool) (s : State) : Nat → Option Answer
  | 1 => some (execCancel m tag s)
  | 2 => some (execFlowRead m tag s)
  | 3 => some (execFlowCancel m tag s)
  | 4 => some (execListDump m tag unpaced s)
  | _ => none

/-- The retries of a LOOKUP by command depend on moves at the same time: none here (R332). -/
def dirOp (m : Master) (tag : BitVec 8) (unpaced : Bool) (s : State) : Nat → Option Answer
  | 1 => some (execDirInsert m tag s)
  | 2 => some (execDirDelete m tag s)
  | 3 => some (execDirLookup m tag 0 s)
  | 4 => some (execDirUpdate m tag s)
  | 5 => some (execDirSearch m tag unpaced s)
  | 6 => some (execDirNext m tag s)
  | 7 => some (execDirFlushPort m tag s)
  | _ => none

def l2Op (m : Master) (e : Fin 2) (tag : BitVec 8) (unpaced : Bool) (s : State) : Nat → Option Answer
  | 1 => some (execL2Insert m e tag s)
  | 2 => some (execL2Delete m e tag s)
  | 3 => some (execL2Lookup m e tag s)
  | 4 => some (execL2Update m e tag s)
  | 5 => some (execL2Search m e tag unpaced s)
  | 6 => some (execL2Next m e tag s)
  | 7 => some (execFlushPort m e tag unpaced s)
  | _ => none

def prefixOp (m : Master) (tag : BitVec 8) (unpaced : Bool) (s : State) : Nat → Option Answer
  | 1 => some (execPrefixInsert m tag s)
  | 2 => some (execPrefixDelete m tag s)
  | 3 => some (execPrefixLookup m tag s)
  | 4 => some (execPrefixUpdate m tag s)
  | 5 => some (execPrefixSearch m tag unpaced s)
  | 6 => some (execPrefixNext m tag s)
  | 7 => some (execPrefixFlushPort m tag s)
  | _ => none

def portOp (m : Master) (p : Fin 10) (tag : BitVec 8) (s : State) : Nat → Option Answer
  | 1 => some (execRetrain m p tag s)
  | 2 => some (execForceDown m p tag s)
  | _ => none

def crustOp (m : Master) (tag : BitVec 8) (s : State) : Nat → Option Answer
  | 1 => some (execSaInstall m tag s)
  | 2 => some (execSaDelete m tag s)
  | 3 => some (execSaRead m tag s)
  | 4 => some (execSaPn m tag s)
  | _ => none

def crustxOp (m : Master) (x : Fin 3) (tag : BitVec 8) (s : State) : Nat → Option Answer
  | 1 => some (execTxArm m x tag s)
  | 2 => some (execTxSwitch m x tag s)
  | 3 => some (execTxDisarm m x tag s)
  | _ => none

def rackOp (m : Master) (tag : BitVec 8) (unpaced : Bool) (s : State) : Nat → Option Answer
  | 1 => some (execCensus m tag unpaced s)
  | 2 => some (execReclaim m tag s)
  | 3 => some (execSnapAll m tag s)
  | 4 => some (execLinkRead m tag s)
  | 5 => some (execOwnerRead m tag s)
  | 6 => some (execRevoke m tag s)
  | _ => none

def starterOp (m : Master) (tag : BitVec 8) (s : State) : Nat → Option Answer
  | 1 => some (execDerive m tag s)
  | 2 => some (execUnwrap m tag s)
  | 3 => some (execWrap m tag s)
  | 4 => some (execGenerate m tag s)
  | 5 => some (execMkaKeys m tag s)
  | 6 => some (execSlotZero m tag s)
  | 7 => some (execSlotInfo m tag s)
  | 8 => some (execMcExtend m tag s)
  | 9 => some (execMcRead m tag s)
  | 10 => some (execLcAdvance m tag s)
  | 11 => some (execLegacyOff m tag s)
  | _ => none

def fwuOp (m : Master) (tag : BitVec 8) (s : State) : Nat → Option Answer
  | 1 => some (execSlotErase m tag s)
  | 2 => some (execSlotWrite m tag s)
  | 3 => some (execSlotVerify m tag s)
  | 4 => some (execCheck m tag s)
  | 5 => some (execActivate m tag s)
  | 6 => some (execConfirm m tag s)
  | 7 => some (execFallback m tag s)
  | 8 => some (execKeyRevoke m tag s)
  | _ => none

def hostOp (m : Master) (tag : BitVec 8) (s : State) : Nat → Option Answer
  | 1 => some (execQCreate m tag s)
  | 2 => some (execQDelete m tag s)
  | _ => none

/-- One of the block's own opcodes. -/
def ownOp (m : Master) (b : Block) (tag : BitVec 8) (unpaced : Bool) (s : State) (op : Nat) : Option Answer :=
  match b with
  | .pwr => pwrOp m tag s op
  | .ret => retOp m tag s op
  | .tamp => if op = 1 then some (execThRelease m tag s) else none
  | .tb => tbOp m tag s op
  | .rf n => rfOp m n tag s op
  | .wb n => wbOp m n tag s op
  | .phy => if op = 1 then some (execMapCheck m tag s) else none
  | .mac => if op = 1 then some (execPredict m tag s) else none
  | .bcn => if op = 1 then some (execPeerRead m tag s) else none
  | .flood => floodOp m tag s op
  | .peel => peelOp m tag unpaced s op
  | .dir => dirOp m tag unpaced s op
  | .sieve e => if e.val = 2 then prefixOp m tag unpaced s op else l2Op m (Fin.ofNat 2 e.val) tag unpaced s op
  | .port p => portOp m p tag s op
  | .crust x => if x.val = 0 then crustOp m tag s op else crustxOp m (Fin.ofNat 3 (x.val - 1)) tag s op
  | .rack => rackOp m tag unpaced s op
  | .starter => starterOp m tag s op
  | .fwu => fwuOp m tag s op
  | .host => hostOp m tag s op
  | _ => none

/-- A write of _CMD (R57, R70, R83, R41, R42). -/
def State.cmdWrite (s : State) (m : Master) (b : Block) (v : W32) : State :=
  let op := bitsGet 0 8 v
  let tag : BitVec 8 := BitVec.ofNat 8 (bitsGet 16 8 v)
  stateOf s (
    if op = opCommit then execCommit m b tag s
    else if op = opAbort then execAbort m b tag s
    else if op = opFence then (if b = .fab then execFabFence m tag s else execFence m b tag s)
    else if op = opUnfence then (if b = .fab then execFabUnfence m tag s else execUnfence m b tag s)
    else if op = opSnapshot then execLedgerSnapshot m b tag s
    else if op = opNop then execNop m b tag s
    else (ownOp m b tag (natBit v.toNat 8) s op).getD (.next (s.unknownCmd m b op tag)))

/-! ## Registers that start something -/

/-- The first halves of two-register values take force with the second (R353, R413): until then the old one is noted. -/
def State.noteHalf (s : State) (m : Master) (a : Nat) (v : W32) : State :=
  match s.busWrite m a true v with
  | (t, .applied _ _ _ _ old) => if (mapGet t.applied a).isSome then t else { t with applied := mapSet t.applied a old }
  | (t, _) => t

/-- A plain write, then what follows from it. -/
def State.writeThen (s : State) (m : Master) (a : Nat) (v : W32) (f : State → State) : State :=
  match s.busWrite m a true v with
  | (t, .applied ..) => f t
  | (t, _) => t

/-- A write of TB_UTC: a change of OFFSET or VALID is logged (R524); the offset logged is that of the change (DEDUCED, log entry 51). -/
def State.utcWrite (s : State) (m : Master) (a : Nat) (v : W32) : State :=
  s.writeThen m a v fun t =>
    let d : Int := toSigned 16 (t.get R.TB_UTC_OFFSET) - toSigned 16 (s.get R.TB_UTC_OFFSET)
    if d ≠ 0 ∨ t.on R.TB_UTC_VALID ≠ s.on R.TB_UTC_VALID then t.logCorrection 3 (d * 10 ^ 9) else t

/-- A write of CRC_c_CTL: STOP of a channel, or GO (R578, R579); GO goes first where both are set (DEDUCED, log entry 51). -/
def State.crcCtl (s : State) (m : Master) (c : Nat) (v : W32) : State :=
  let c : Fin 24 := Fin.ofNat 24 c
  if natBit v.toNat 0 then stateOf s (execCrcGo m c s)
  else if natBit v.toNat 1 then stateOf s (execCrcStop m c s)
  else s

/-- A write of a register of the block's own, at an offset from 0x100. -/
def State.ownWrite (s : State) (m : Master) (b : Block) (o : Nat) (v : W32) : State :=
  let a := b.base + o
  let plain : State := (s.busWrite m a true v).1
  let go (f : State → Answer) : State := if natBit v.toNat 0 then stateOf s (f s) else plain
  match b with
  | .tamp => match o with
    | 0x138 => stateOf s (execTampClear m v s)
    | 0x134 => stateOf s (execTampLock m v s)
    | _ => plain
  | .tb => match o with
    | 0x100 => go (execTbLatch m)
    | 0x124 => stateOf s (execTbSrcSetWrite m v s)
    | 0x130 => stateOf s (execTbRateWrite m v s)
    | 0x128 => s.writeThen m a v fun t => t.judgeGnss.tbEval
    | 0x12C => s.writeThen m a v State.tbEval
    | 0x150 => s.utcWrite m a v
    | _ => plain
  | .trig =>
    if (regAt b o).any fun r => r.1.name == "TRIG_CTL" then stateOf s (execTrigCtlWrite m (Fin.ofNat 16 (elementOf b o 0)) v s)
    else plain
  | .rf n => match o with
    | 0x104 => stateOf s (execChainEnableWrite m n v s)
    | 0x108 => stateOf s (execCentreWrite m n v s)
    | 0x130 => if n.val = 0 then stateOf s (execXtxWrite m v s) else plain
    | _ => plain
  | .bcn => if o = 0x104 then stateOf s (execBcnParentWrite m v s) else plain
  | .peel =>
    if o = 0x1140 then go (execPeelPost m)
    else if o = 0x11D0 then stateOf s (execPeelFinish m v s)
    else if o = 0x10C then stateOf s (execPeelPauseWrite m v s)
    else if 0x110 ≤ o ∧ o ≤ 0x130 then
      let p := (o - 0x110) / 4
      s.writeThen m a v fun t => (t.evtIf (t.peelCredit p == 0 && s.peelCredit p != 0) .peel E.PEEL_CREDIT_ZERO).hwDrain.txnDrain
    else plain
  | .sieve e =>
    if e.val = 2 ∧ 0x800 ≤ o then
      (if o % 8 = 4 then stateOf s (execNextHopHiWrite m (BitVec.ofNat 8 ((o - 0x800) / 8)) v s) else s.noteHalf m a v)
    else plain
  | .port p =>
    if o = 0x100 then stateOf s (execPortModeWrite m p false v s)
    else if o = 0x104 then stateOf s (execPortModeWrite m p true v s)
    else plain
  | .crust x =>
    if x.val ≠ 0 then plain
    else if o = 0x104 then s.noteHalf m a v
    else if o = 0x108 then stateOf s (execPnThr64HiWrite m v s)
    else plain
  | .proof =>
    if o = 0x230 then go (execProofPost m)
    else if o = 0x300 then stateOf s (execProofPubSelWrite m v s)
    else plain
  | .host =>
    if 0x1000 ≤ o ∧ o < 0x2000 then
      let q : Fin 64 := Fin.ofNat 64 ((o - 0x1000) / 0x40)
      if o % 0x40 = 0x18 then stateOf s (execRxRet m q (BitVec.ofNat 13 (bitsGet 0 13 v)) s)
      else if o % 0x40 = 0x1C then stateOf s (execTxPost m q (BitVec.ofNat 13 (bitsGet 0 13 v)) s)
      else plain
    else if 0x2000 ≤ o ∧ o < 0x2400 ∧ o % 16 = 12 ∧ natBit v.toNat 0 = false then
      stateOf s (execMsixUnmask m (Fin.ofNat 64 ((o - 0x2000) / 16)) s)
    else plain
  | .crc =>
    if 0x1000 ≤ o ∧ o < 0x1000 + 24 * 0x40 ∧ o % 0x40 = 0x18 then
      (if s.powered .crc then s.crcCtl m ((o - 0x1000) / 0x40) v else plain)
    else plain
  | _ => plain

/-- A full-word write at a BAR0 address (R55 to R57). -/
def State.writeWord (s : State) (m : Master) (a : Nat) (v : W32) : State :=
  let plain : State := (s.busWrite m a true v).1
  match blockAt a with
  | none => plain
  | some (b, o) =>
    if windowAt b = some (o - 4) ∧ 4 ≤ o then stateOf s (execPartAck m b (BitVec.ofNat 16 (bitsGet 0 16 v)) s)
    else if 0x100 ≤ o then s.ownWrite m b o v
    else if o = 0x10 then s.cmdWrite m b v
    else if o = 0x34 then (if natBit v.toNat 31 then stateOf s (execRefusedClr m b s) else plain)
    else if o = 0x40 then stateOf s (execEvtClear m b v 0 s)
    else if o = 0x44 then s.withIrq b fun s => (s.busWrite m a true v).1
    else if o = 0x48 then stateOf s (execEvtForce m b v s)
    else if 0x50 ≤ o ∧ o ≤ 0x6C then stateOf s (execEvtCntClear m b (Fin.ofNat 8 ((o - 0x50) / 4)) v 0 s)
    else if o = 0x74 then stateOf s (execCfgStageWrite m b v s)
    else plain

/-- A write narrower than 32 bits (R56). -/
def State.writeNarrow (s : State) (m : Master) (a : Nat) : State :=
  match blockAt a with
  | some (b, o) =>
    if windowAt b = some (o - 4) ∧ 4 ≤ o ∧ s.reaches m b = true then s.refuse b o else (s.busWrite m a false 0).1
  | none => (s.busWrite m a false 0).1

/-- REGISTER_WRITE (R55, R56): `width` 0 an octet, 1 two octets, 2 a word, 3 two words, the lower address first.  The address is taken as
aligned to 32 bits. -/
def execRegisterWrite (m : Master) (addr : BitVec 26) (width : Fin 4) (v : BitVec 64) (s : State) : Answer :=
  let a := addr.toNat / 4 * 4
  .next (match width with
    | 0 | 1 => s.writeNarrow m a
    | 2 => s.writeWord m a (v.setWidth 32)
    | 3 => (s.writeWord m a (v.setWidth 32)).writeWord m (a + 4) ((v >>> 32).setWidth 32))

/-! ## The management SPI (R573, R574) -/

/-- The command of a POP register, by block and offset (R9). -/
def popOf (m : Master) (s : State) (b : Block) (o : Nat) : Option Answer :=
  match b with
  | .tb => if o = 0x158 then some (execTbPpsinPop m s) else none
  | .trig => if o = 0x300 then some (execTrigFirePop m s) else none
  | .phy => if o = 0x140 then some (execPhySnrPop m s) else none
  | .peel =>
    if o = 0x1150 then some (execPeelDonePop m s) else if o = 0x1180 then some (execPeelCorePop m s) else none
  | .sieve e => if e.val < 2 ∧ o = 0x160 then some (execSieveLfifoPop m (Fin.ofNat 2 e.val) s) else none
  | .port p => if o = 0x130 then some (execPortnTstxPop m p s) else none
  | .rack => if o = 0x200 then some (execRackDroprecPop m s) else if o = 0x220 then some (execRackTracePop m s) else none
  | .tamp => if o = 0x150 then some (execTampLogPop m s) else none
  | _ => none

/-- A read of the word at a BAR0 address, with its side effects: the value, and the state it leaves. -/
def State.busRead (s : State) (m : Master) (a : Nat) : State :=
  match (match blockAt a with | some (b, o) => popOf m s b o | none => none) with
  | some r => stateOf s r
  | none => { s with busData := s.readWord m a }

/-- A read of one octet or of two at a BAR0 address, which stand in one word: its lanes, with the side effects of the whole word (R56). -/
def State.busReadNarrow (s : State) (m : Master) (a : Nat) (two : Bool) : State :=
  let t := s.busRead m (a / 4 * 4)
  { t with busData := BitVec.ofNat 32 (bitsGet (8 * (a % 4)) (if two then 16 else 8) t.busData) }

/-- A 64-bit read: two reads, the lower address first (R56). -/
def State.busReadWide (s : State) (m : Master) (a : Nat) : State × BitVec 64 :=
  let t := s.busRead m (a / 4 * 4)
  let u := t.busRead m (a / 4 * 4 + 4)
  (u, u.busData ++ t.busData)

/-- Octets of a request: its code, the address most significant octet first, N − 1, and data words least significant octet first (R573). -/
def spiRequest (op : Nat) (a : BitVec 24) (n : Nat) (words : List W32) : List Nat :=
  op :: beList 3 a.toNat ++ [n] ++ words.flatMap fun w => leList 4 w.toNat

/-- The CRC-16 that ends a write, and a read's request (R573). -/
def spiWriteCrc (a : BitVec 24) (words : List W32) : BitVec 16 :=
  BitVec.ofNat 16 (crcOf 0 (spiRequest 0x02 a (words.length - 1) words))

def spiReadCrc (a : BitVec 24) (n : Fin 16) : BitVec 16 := BitVec.ofNat 16 (crcOf 0 (spiRequest 0x0B a n.val []))

/-- SPI_WRITE (R573, R574): applied only if its CRC verifies and SPI_CS_N rises after it (`risen`).  At most 16 words are applied, in
ascending order. -/
def execSpiWrite (a : BitVec 24) (words : List (BitVec 32)) (crc : BitVec 16) (risen : Bool) (s : State) : Answer :=
  .next (
    if !s.pdOn 0 then s
    else if !risen || crc != spiWriteCrc a words then { s with spiErr := s.spiErr + 1 }
    else ((words.take 16).foldl (fun x w => (x.1.writeWord .spi x.2 w, x.2 + 4)) (s, a.toNat / 4 * 4)).1)

/-- SPI_READ (R574): N words are fetched, with the side effects of their reads; `n` is N − 1.  A request whose CRC fails is not carried
out; whether SYS_SPI_ERR counts it the spec does not say: it does not here (log entry 52). -/
def execSpiRead (a : BitVec 24) (n : Fin 16) (crc : BitVec 16) (s : State) : Answer :=
  .next (
    if !s.pdOn 0 || crc != spiReadCrc a n then s
    else
      let (s, l) := (List.range (n.val + 1)).foldl (fun x i =>
        let t := x.1.busRead .spi (a.toNat / 4 * 4 + 4 * i)
        (t, x.2 ++ [t.busData])) (s, ([] : List W32))
      { s with spiData := l })

/-- What SPI_MISO carries once the words of a read are fetched: 0xA5, the words, their CRC-16 (R573). -/
def State.spiReply (s : State) : List Nat :=
  let l := s.spiData.flatMap fun w => leList 4 w.toNat
  0xA5 :: l ++ leList 2 (crcOf 0 l)

end Sys2Proof.Machine
end

