-- ==== Sys2Proof/Machine/Dispatch.lean ====
section
/-! DEFINITION. One arm per command: the direct call of its meaning. -/

namespace Sys2Proof.Machine

def exec (i : Instr) (s : State) : Host.Outcome State Fault Refusal :=
  match i with
  | .registerWrite m addr width v => Sys2Proof.Machine.execRegisterWrite m addr width v s
  | .evtClear m b v hw => Sys2Proof.Machine.execEvtClear m b v hw s
  | .evtForce m b v => Sys2Proof.Machine.execEvtForce m b v s
  | .evtCntClear m b k v hw => Sys2Proof.Machine.execEvtCntClear m b k v hw s
  | .refusedClr m b => Sys2Proof.Machine.execRefusedClr m b s
  | .cfgStageWrite m b v => Sys2Proof.Machine.execCfgStageWrite m b v s
  | .partAck m b chunk => Sys2Proof.Machine.execPartAck m b chunk s
  | .partWaitTimeout b => Sys2Proof.Machine.execPartWaitTimeout b s
  | .commandTimeout b ch => Sys2Proof.Machine.execCommandTimeout b ch s
  | .commit m b tag => Sys2Proof.Machine.execCommit m b tag s
  | .deviceCommit m tag => Sys2Proof.Machine.execDeviceCommit m tag s
  | .commitApply b => Sys2Proof.Machine.execCommitApply b s
  | .deviceCommitDone => Sys2Proof.Machine.execDeviceCommitDone s
  | .abort m b tag => Sys2Proof.Machine.execAbort m b tag s
  | .fence m b tag => Sys2Proof.Machine.execFence m b tag s
  | .unfence m b tag => Sys2Proof.Machine.execUnfence m b tag s
  | .ledgerSnapshot m b tag => Sys2Proof.Machine.execLedgerSnapshot m b tag s
  | .nop m b tag => Sys2Proof.Machine.execNop m b tag s
  | .fabFence m tag => Sys2Proof.Machine.execFabFence m tag s
  | .fabUnfence m tag => Sys2Proof.Machine.execFabUnfence m tag s
  | .fenceTimeout g ackFirst => Sys2Proof.Machine.execFenceTimeout g ackFirst s
  | .governorWindow busyNs tokenPs => Sys2Proof.Machine.execGovernorWindow busyNs tokenPs s
  | .burstJump p => Sys2Proof.Machine.execBurstJump p s
  | .powerOn dftEn => Sys2Proof.Machine.execPowerOn dftEn s
  | .starterOpen rootBad => Sys2Proof.Machine.execStarterOpen rootBad s
  | .stage1Verified => Sys2Proof.Machine.execStage1Verified s
  | .retainedConfigApplied => Sys2Proof.Machine.execRetainedConfigApplied s
  | .dataPlanesForwarding => Sys2Proof.Machine.execDataPlanesForwarding s
  | .directoryRebuild => Sys2Proof.Machine.execDirectoryRebuild s
  | .radioChainsCalibrated => Sys2Proof.Machine.execRadioChainsCalibrated s
  | .pfWarn mv10 => Sys2Proof.Machine.execPfWarn mv10 s
  | .pfClear mv10 => Sys2Proof.Machine.execPfClear mv10 s
  | .powerOff => Sys2Proof.Machine.execPowerOff s
  | .enterRun m tag => Sys2Proof.Machine.execEnterRun m tag s
  | .enterTrim m tag => Sys2Proof.Machine.execEnterTrim m tag s
  | .enterHold m tag => Sys2Proof.Machine.execEnterHold m tag s
  | .resetDevice m tag => Sys2Proof.Machine.execResetDevice m tag s
  | .autoTrim mv10 => Sys2Proof.Machine.execAutoTrim mv10 s
  | .autoRun mv10 => Sys2Proof.Machine.execAutoRun mv10 s
  | .powerStateDone => Sys2Proof.Machine.execPowerStateDone s
  | .holdWake src => Sys2Proof.Machine.execHoldWake src s
  | .pinReset lowNs => Sys2Proof.Machine.execPinReset lowNs s
  | .softwareReset => Sys2Proof.Machine.execSoftwareReset s
  | .retStoreDone => Sys2Proof.Machine.execRetStoreDone s
  | .ckptRecordWrite h => Sys2Proof.Machine.execCkptRecordWrite h s
  | .ckptFlush m tag => Sys2Proof.Machine.execCkptFlush m tag s
  | .eraseStore m tag => Sys2Proof.Machine.execEraseStore m tag s
  | .driftRestoreItem h => Sys2Proof.Machine.execDriftRestoreItem h s
  | .securedWaitExit p => Sys2Proof.Machine.execSecuredWaitExit p s
  | .tbLatch m => Sys2Proof.Machine.execTbLatch m s
  | .sourceQualified src => Sys2Proof.Machine.execSourceQualified src s
  | .tbSrcSetWrite m v => Sys2Proof.Machine.execTbSrcSetWrite m v s
  | .tbRateWrite m v => Sys2Proof.Machine.execTbRateWrite m v s
  | .servoTimeout => Sys2Proof.Machine.execServoTimeout s
  | .ppsInput tenm => Sys2Proof.Machine.execPpsInput tenm s
  | .gnssPpsMissing tenm => Sys2Proof.Machine.execGnssPpsMissing tenm s
  | .refLost => Sys2Proof.Machine.execRefLost s
  | .refBack => Sys2Proof.Machine.execRefBack s
  | .setTime m tag => Sys2Proof.Machine.execSetTime m tag s
  | .step m tag => Sys2Proof.Machine.execStep m tag s
  | .slew m tag => Sys2Proof.Machine.execSlew m tag s
  | .slewComplete => Sys2Proof.Machine.execSlewComplete s
  | .triggerFire ch => Sys2Proof.Machine.execTriggerFire ch s
  | .trigCtlWrite m ch v => Sys2Proof.Machine.execTrigCtlWrite m ch v s
  | .tbPpsinPop m => Sys2Proof.Machine.execTbPpsinPop m s
  | .trigFirePop m => Sys2Proof.Machine.execTrigFirePop m s
  | .centreWrite m n v => Sys2Proof.Machine.execCentreWrite m n v s
  | .retuneStart n => Sys2Proof.Machine.execRetuneStart n s
  | .retuneWaitTimeout n => Sys2Proof.Machine.execRetuneWaitTimeout n s
  | .chainEnableWrite m n v => Sys2Proof.Machine.execChainEnableWrite m n v s
  | .synthLock n ticks => Sys2Proof.Machine.execSynthLock n ticks s
  | .lockTimeout n => Sys2Proof.Machine.execLockTimeout n s
  | .txJobTake n => Sys2Proof.Machine.execTxJobTake n s
  | .txRampUpStart n => Sys2Proof.Machine.execTxRampUpStart n s
  | .txStart n => Sys2Proof.Machine.execTxStart n s
  | .txFrameEnd n => Sys2Proof.Machine.execTxFrameEnd n s
  | .txRampDownEnd n => Sys2Proof.Machine.execTxRampDownEnd n s
  | .blankingEnd n => Sys2Proof.Machine.execBlankingEnd n s
  | .trigJobTimeout n => Sys2Proof.Machine.execTrigJobTimeout n s
  | .txLatestStartPassed n => Sys2Proof.Machine.execTxLatestStartPassed n s
  | .calStart n => Sys2Proof.Machine.execCalStart n s
  | .calAbortForJob n => Sys2Proof.Machine.execCalAbortForJob n s
  | .calRestoreEnd n => Sys2Proof.Machine.execCalRestoreEnd n s
  | .calComplete n => Sys2Proof.Machine.execCalComplete n s
  | .calReschedule n => Sys2Proof.Machine.execCalReschedule n s
  | .chainTempSample n temp => Sys2Proof.Machine.execChainTempSample n temp s
  | .oscCal => Sys2Proof.Machine.execOscCal s
  | .calRun m n tag => Sys2Proof.Machine.execCalRun m n tag s
  | .txCut m n tag => Sys2Proof.Machine.execTxCut m n tag s
  | .chainReset m n tag => Sys2Proof.Machine.execChainReset m n tag s
  | .xtxWrite m v => Sys2Proof.Machine.execXtxWrite m v s
  | .feGainLoopBlock n blk => Sys2Proof.Machine.execFeGainLoopBlock n blk s
  | .preambleDetect n a t d => Sys2Proof.Machine.execPreambleDetect n a t d s
  | .antennaSelect n k w0 w1 => Sys2Proof.Machine.execAntennaSelect n k w0 w1 s
  | .phrDecoded n k h => Sys2Proof.Machine.execPhrDecoded n k h s
  | .headerLimitExpired n k coded => Sys2Proof.Machine.execHeaderLimitExpired n k coded s
  | .mapBlockDecoded n k bits => Sys2Proof.Machine.execMapBlockDecoded n k bits s
  | .markStale n id => Sys2Proof.Machine.execMarkStale n id s
  | .receptionComplete n k air => Sys2Proof.Machine.execReceptionComplete n k air s
  | .recordDeliver n r => Sys2Proof.Machine.execRecordDeliver n r s
  | .recTimeout n r => Sys2Proof.Machine.execRecTimeout n r s
  | .replay m n tag => Sys2Proof.Machine.execReplay m n tag s
  | .capture m n tag => Sys2Proof.Machine.execCapture m n tag s
  | .captureDone n => Sys2Proof.Machine.execCaptureDone n s
  | .slotPowerUpdate n p0 p1 => Sys2Proof.Machine.execSlotPowerUpdate n p0 p1 s
  | .segmentSubmit n k llrs => Sys2Proof.Machine.execSegmentSubmit n k llrs s
  | .segmentDecoded n k => Sys2Proof.Machine.execSegmentDecoded n k s
  | .mapCheck m tag => Sys2Proof.Machine.execMapCheck m tag s
  | .phySnrPop m => Sys2Proof.Machine.execPhySnrPop m s
  | .directoryLookup n k eui moves => Sys2Proof.Machine.execDirectoryLookup n k eui moves s
  | .inlineDerive h next n k => Sys2Proof.Machine.execInlineDerive h next n k s
  | .macNodeTransaction n r => Sys2Proof.Machine.execMacNodeTransaction n r s
  | .aimJob id => Sys2Proof.Machine.execAimJob id s
  | .ackWaitExpired id => Sys2Proof.Machine.execAckWaitExpired id s
  | .predict m tag => Sys2Proof.Machine.execPredict m tag s
  | .beaconDue c => Sys2Proof.Machine.execBeaconDue c s
  | .beaconRx n k air => Sys2Proof.Machine.execBeaconRx n k air s
  | .parentBeaconMiss => Sys2Proof.Machine.execParentBeaconMiss s
  | .peerExpire ix => Sys2Proof.Machine.execPeerExpire ix s
  | .bcnParentWrite m v => Sys2Proof.Machine.execBcnParentWrite m v s
  | .peerRead m tag => Sys2Proof.Machine.execPeerRead m tag s
  | .floodRx n k air => Sys2Proof.Machine.execFloodRx n k air s
  | .relayDelayEnd origin seq => Sys2Proof.Machine.execRelayDelayEnd origin seq s
  | .floodCacheExpire origin seq => Sys2Proof.Machine.execFloodCacheExpire origin seq s
  | .originate m tag => Sys2Proof.Machine.execOriginate m tag s
  | .inject m tag => Sys2Proof.Machine.execInject m tag s
  | .distStart m tag => Sys2Proof.Machine.execDistStart m tag s
  | .distBlockGap => Sys2Proof.Machine.execDistBlockGap s
  | .peelPost m => Sys2Proof.Machine.execPeelPost m s
  | .itemDue k => Sys2Proof.Machine.execItemDue k s
  | .grantAfterRoom k => Sys2Proof.Machine.execGrantAfterRoom k s
  | .parkDue k => Sys2Proof.Machine.execParkDue k s
  | .jobReturn n => Sys2Proof.Machine.execJobReturn n s
  | .peelCorePop m => Sys2Proof.Machine.execPeelCorePop m s
  | .peelFinish m v => Sys2Proof.Machine.execPeelFinish m v s
  | .taskTimeout id => Sys2Proof.Machine.execTaskTimeout id s
  | .peelDonePop m => Sys2Proof.Machine.execPeelDonePop m s
  | .peelPauseWrite m v => Sys2Proof.Machine.execPeelPauseWrite m v s
  | .cancel m tag => Sys2Proof.Machine.execCancel m tag s
  | .flowRead m tag => Sys2Proof.Machine.execFlowRead m tag s
  | .flowCancel m tag => Sys2Proof.Machine.execFlowCancel m tag s
  | .listDump m tag unpaced => Sys2Proof.Machine.execListDump m tag unpaced s
  | .dirInsert m tag => Sys2Proof.Machine.execDirInsert m tag s
  | .dirDelete m tag => Sys2Proof.Machine.execDirDelete m tag s
  | .dirLookup m tag moves => Sys2Proof.Machine.execDirLookup m tag moves s
  | .dirUpdate m tag => Sys2Proof.Machine.execDirUpdate m tag s
  | .dirSearch m tag unpaced => Sys2Proof.Machine.execDirSearch m tag unpaced s
  | .dirNext m tag => Sys2Proof.Machine.execDirNext m tag s
  | .dirFlushPort m tag => Sys2Proof.Machine.execDirFlushPort m tag s
  | .dirFlowGranted => Sys2Proof.Machine.execDirFlowGranted s
  | .dirFlowTimeout => Sys2Proof.Machine.execDirFlowTimeout s
  | .l2Insert m e tag => Sys2Proof.Machine.execL2Insert m e tag s
  | .l2Delete m e tag => Sys2Proof.Machine.execL2Delete m e tag s
  | .l2Lookup m e tag => Sys2Proof.Machine.execL2Lookup m e tag s
  | .l2Update m e tag => Sys2Proof.Machine.execL2Update m e tag s
  | .l2Search m e tag unpaced => Sys2Proof.Machine.execL2Search m e tag unpaced s
  | .l2Next m e tag => Sys2Proof.Machine.execL2Next m e tag s
  | .flushPort m e tag unpaced => Sys2Proof.Machine.execFlushPort m e tag unpaced s
  | .prefixInsert m tag => Sys2Proof.Machine.execPrefixInsert m tag s
  | .prefixDelete m tag => Sys2Proof.Machine.execPrefixDelete m tag s
  | .prefixLookup m tag => Sys2Proof.Machine.execPrefixLookup m tag s
  | .prefixUpdate m tag => Sys2Proof.Machine.execPrefixUpdate m tag s
  | .prefixSearch m tag unpaced => Sys2Proof.Machine.execPrefixSearch m tag unpaced s
  | .prefixNext m tag => Sys2Proof.Machine.execPrefixNext m tag s
  | .prefixFlushPort m tag => Sys2Proof.Machine.execPrefixFlushPort m tag s
  | .prefixSpareMove src dst => Sys2Proof.Machine.execPrefixSpareMove src dst s
  | .nextHopHiWrite m n v => Sys2Proof.Machine.execNextHopHiWrite m n v s
  | .sieveFrameLookup ix => Sys2Proof.Machine.execSieveFrameLookup ix s
  | .learnCommit ix => Sys2Proof.Machine.execLearnCommit ix s
  | .ageSweep e => Sys2Proof.Machine.execAgeSweep e s
  | .pinRelease e idx => Sys2Proof.Machine.execPinRelease e idx s
  | .sieveLfifoPop m e => Sys2Proof.Machine.execSieveLfifoPop m e s
  | .portFrameRx p x => Sys2Proof.Machine.execPortFrameRx p x s
  | .egressStart ix e under => Sys2Proof.Machine.execEgressStart ix e under s
  | .faultDecided p c => Sys2Proof.Machine.execFaultDecided p c s
  | .linkDown p => Sys2Proof.Machine.execLinkDown p s
  | .faultCleared p c => Sys2Proof.Machine.execFaultCleared p c s
  | .linkUp p => Sys2Proof.Machine.execLinkUp p s
  | .degradeInterval p n blocks unc ber => Sys2Proof.Machine.execDegradeInterval p n blocks unc ber s
  | .portModeWrite m p lane v => Sys2Proof.Machine.execPortModeWrite m p lane v s
  | .retrain m p tag => Sys2Proof.Machine.execRetrain m p tag s
  | .forceDown m p tag => Sys2Proof.Machine.execForceDown m p tag s
  | .portnTstxPop m p => Sys2Proof.Machine.execPortnTstxPop m p s
  | .saInstall m tag => Sys2Proof.Machine.execSaInstall m tag s
  | .saDelete m tag => Sys2Proof.Machine.execSaDelete m tag s
  | .saRead m tag => Sys2Proof.Machine.execSaRead m tag s
  | .saPn m tag => Sys2Proof.Machine.execSaPn m tag s
  | .pnThr64HiWrite m v => Sys2Proof.Machine.execPnThr64HiWrite m v s
  | .txArm m x tag => Sys2Proof.Machine.execTxArm m x tag s
  | .txSwitch m x tag => Sys2Proof.Machine.execTxSwitch m x tag s
  | .txSwitchApply p => Sys2Proof.Machine.execTxSwitchApply p s
  | .txDisarm m x tag => Sys2Proof.Machine.execTxDisarm m x tag s
  | .crustRxFrame ix => Sys2Proof.Machine.execCrustRxFrame ix s
  | .icvResult ix ok => Sys2Proof.Machine.execIcvResult ix ok s
  | .crustTxFrame ix p => Sys2Proof.Machine.execCrustTxFrame ix p s
  | .leaseExpiry q => Sys2Proof.Machine.execLeaseExpiry q s
  | .census m tag unpaced => Sys2Proof.Machine.execCensus m tag unpaced s
  | .reclaim m tag => Sys2Proof.Machine.execReclaim m tag s
  | .snapAll m tag => Sys2Proof.Machine.execSnapAll m tag s
  | .linkRead m tag => Sys2Proof.Machine.execLinkRead m tag s
  | .ownerRead m tag => Sys2Proof.Machine.execOwnerRead m tag s
  | .revoke m tag => Sys2Proof.Machine.execRevoke m tag s
  | .rackDroprecPop m => Sys2Proof.Machine.execRackDroprecPop m s
  | .rackTracePop m => Sys2Proof.Machine.execRackTracePop m s
  | .derive m tag => Sys2Proof.Machine.execDerive m tag s
  | .unwrap m tag => Sys2Proof.Machine.execUnwrap m tag s
  | .wrap m tag => Sys2Proof.Machine.execWrap m tag s
  | .generate m tag => Sys2Proof.Machine.execGenerate m tag s
  | .mkaKeys m tag => Sys2Proof.Machine.execMkaKeys m tag s
  | .slotZero m tag => Sys2Proof.Machine.execSlotZero m tag s
  | .slotInfo m tag => Sys2Proof.Machine.execSlotInfo m tag s
  | .mcExtend m tag => Sys2Proof.Machine.execMcExtend m tag s
  | .mcRead m tag => Sys2Proof.Machine.execMcRead m tag s
  | .lcAdvance m tag => Sys2Proof.Machine.execLcAdvance m tag s
  | .legacyOff m tag => Sys2Proof.Machine.execLegacyOff m tag s
  | .deriveItem => Sys2Proof.Machine.execDeriveItem s
  | .retainedUpdateCommit => Sys2Proof.Machine.execRetainedUpdateCommit s
  | .tamperDecided src => Sys2Proof.Machine.execTamperDecided src s
  | .zeroizeDone => Sys2Proof.Machine.execZeroizeDone s
  | .tampMeshPattern => Sys2Proof.Machine.execTampMeshPattern s
  | .tampClear m v => Sys2Proof.Machine.execTampClear m v s
  | .tampLock m v => Sys2Proof.Machine.execTampLock m v s
  | .thRelease m tag => Sys2Proof.Machine.execThRelease m tag s
  | .tampLogPop m => Sys2Proof.Machine.execTampLogPop m s
  | .proofPost m => Sys2Proof.Machine.execProofPost m s
  | .proofReading => Sys2Proof.Machine.execProofReading s
  | .proofParam => Sys2Proof.Machine.execProofParam s
  | .proofActivate => Sys2Proof.Machine.execProofActivate s
  | .proofSelftestEnd pass => Sys2Proof.Machine.execProofSelftestEnd pass s
  | .pd2Undervolt => Sys2Proof.Machine.execPd2Undervolt s
  | .pd2Restart => Sys2Proof.Machine.execPd2Restart s
  | .proofPubSelWrite m seq => Sys2Proof.Machine.execProofPubSelWrite m seq s
  | .sealIdent => Sys2Proof.Machine.execSealIdent s
  | .sealLogRead arg => Sys2Proof.Machine.execSealLogRead arg s
  | .sealRegRead arg => Sys2Proof.Machine.execSealRegRead arg s
  | .sealHeads => Sys2Proof.Machine.execSealHeads s
  | .sealUnknownCmd cmd => Sys2Proof.Machine.execSealUnknownCmd cmd s
  | .sealRequestDiscard => Sys2Proof.Machine.execSealRequestDiscard s
  | .slotErase m tag => Sys2Proof.Machine.execSlotErase m tag s
  | .slotWrite m tag => Sys2Proof.Machine.execSlotWrite m tag s
  | .slotVerify m tag => Sys2Proof.Machine.execSlotVerify m tag s
  | .check m tag => Sys2Proof.Machine.execCheck m tag s
  | .activate m tag => Sys2Proof.Machine.execActivate m tag s
  | .activateUnit => Sys2Proof.Machine.execActivateUnit s
  | .linkWaitTimeout => Sys2Proof.Machine.execLinkWaitTimeout s
  | .confirm m tag => Sys2Proof.Machine.execConfirm m tag s
  | .fallback m tag => Sys2Proof.Machine.execFallback m tag s
  | .trialWindowExpired => Sys2Proof.Machine.execTrialWindowExpired s
  | .keyRevoke m tag => Sys2Proof.Machine.execKeyRevoke m tag s
  | .pcieLinkLoss => Sys2Proof.Machine.execPcieLinkLoss s
  | .pcieFlr => Sys2Proof.Machine.execPcieFlr s
  | .perst => Sys2Proof.Machine.execPerst s
  | .dmaError crc q => Sys2Proof.Machine.execDmaError crc q s
  | .qCreate m tag => Sys2Proof.Machine.execQCreate m tag s
  | .qDelete m tag => Sys2Proof.Machine.execQDelete m tag s
  | .rxRet m q n => Sys2Proof.Machine.execRxRet m q n s
  | .txPost m q n => Sys2Proof.Machine.execTxPost m q n s
  | .txDescriptorFetch q len dest tsReq oneStep tag offset x data => Sys2Proof.Machine.execTxDescriptorFetch q len dest tsReq oneStep tag offset x data s
  | .hostDeliver q message => Sys2Proof.Machine.execHostDeliver q message s
  | .parkExpired cell => Sys2Proof.Machine.execParkExpired cell s
  | .coalTimer q tx => Sys2Proof.Machine.execCoalTimer q tx s
  | .msixUnmask m v => Sys2Proof.Machine.execMsixUnmask m v s
  | .bar2Access write a n l => Sys2Proof.Machine.execBar2Access write a n l s
  | .spiWrite a words crc risen => Sys2Proof.Machine.execSpiWrite a words crc risen s
  | .spiRead a n crc => Sys2Proof.Machine.execSpiRead a n crc s
  | .crcGo m c => Sys2Proof.Machine.execCrcGo m c s
  | .crcStop m c => Sys2Proof.Machine.execCrcStop m c s
  | .crcJobDone c host => Sys2Proof.Machine.execCrcJobDone c host s
  | .gpioInputChange pin level => Sys2Proof.Machine.execGpioInputChange pin level s
  | .saDeleteDrained => Sys2Proof.Machine.execSaDeleteDrained s
  | .fwuDrainExpired => Sys2Proof.Machine.execFwuDrainExpired s
  | .ctrlFirmwareRunning => Sys2Proof.Machine.execCtrlFirmwareRunning s
  | .tamperSourceCleared src => Sys2Proof.Machine.execTamperSourceCleared src s
  | .triggerPulseEnd ch => Sys2Proof.Machine.execTriggerPulseEnd ch s
  | .pcieLinkUp speed width => Sys2Proof.Machine.execPcieLinkUp speed width s

end Sys2Proof.Machine
end

