-- ==== Sys2Proof/WellFormed.lean ====
section
/-! DEFINITION. Which commands the outside can send: limits on operands that their types do not hold.  `exec` has a meaning for the
others too; nothing outside the device sends them. -/

namespace Sys2Proof

/-- Is the command one that the outside can send (R56, R573: addresses aligned to the width, 1 to 16 words; R28: twelve pipelines; R191:
80 samples a block; R187: a normalised correlation is at most 1; R197, R213, R222: a header of 16 or 30 bits, at most 2,047 octets; R565:
the frame of a descriptor has its LEN octets; 64 slot powers an antenna; a frame at a port has at least 64 octets; an access through
BAR2 carries octets)? -/
def Instr.wf : Instr → Bool
  | .registerWrite _ addr width _ => addr.toNat % 2 ^ width.val == 0
  | .evtClear _ _ _ _ => true
  | .evtForce _ _ _ => true
  | .evtCntClear _ _ _ _ _ => true
  | .refusedClr _ _ => true
  | .cfgStageWrite _ _ _ => true
  | .partAck _ _ _ => true
  | .partWaitTimeout _ => true
  | .commandTimeout _ _ => true
  | .commit _ _ _ => true
  | .deviceCommit _ _ => true
  | .commitApply _ => true
  | .deviceCommitDone => true
  | .abort _ _ _ => true
  | .fence _ _ _ => true
  | .unfence _ _ _ => true
  | .ledgerSnapshot _ _ _ => true
  | .nop _ _ _ => true
  | .fabFence _ _ => true
  | .fabUnfence _ _ => true
  | .fenceTimeout _ _ => true
  | .governorWindow busyNs _ => busyNs.length == 12
  | .burstJump _ => true
  | .powerOn _ => true
  | .starterOpen _ => true
  | .stage1Verified => true
  | .retainedConfigApplied => true
  | .dataPlanesForwarding => true
  | .directoryRebuild => true
  | .radioChainsCalibrated => true
  | .pfWarn _ => true
  | .pfClear _ => true
  | .powerOff => true
  | .enterRun _ _ => true
  | .enterTrim _ _ => true
  | .enterHold _ _ => true
  | .resetDevice _ _ => true
  | .autoTrim _ => true
  | .autoRun _ => true
  | .powerStateDone => true
  | .holdWake _ => true
  | .pinReset _ => true
  | .softwareReset => true
  | .retStoreDone => true
  | .ckptRecordWrite _ => true
  | .ckptFlush _ _ => true
  | .eraseStore _ _ => true
  | .driftRestoreItem _ => true
  | .securedWaitExit _ => true
  | .tbLatch _ => true
  | .sourceQualified _ => true
  | .tbSrcSetWrite _ _ => true
  | .tbRateWrite _ _ => true
  | .servoTimeout => true
  | .ppsInput _ => true
  | .gnssPpsMissing _ => true
  | .refLost => true
  | .refBack => true
  | .setTime _ _ => true
  | .step _ _ => true
  | .slew _ _ => true
  | .slewComplete => true
  | .triggerFire _ => true
  | .trigCtlWrite _ _ _ => true
  | .tbPpsinPop _ => true
  | .trigFirePop _ => true
  | .centreWrite _ _ _ => true
  | .retuneStart _ => true
  | .retuneWaitTimeout _ => true
  | .chainEnableWrite _ _ _ => true
  | .synthLock _ _ => true
  | .lockTimeout _ => true
  | .txJobTake _ => true
  | .txRampUpStart _ => true
  | .txStart _ => true
  | .txFrameEnd _ => true
  | .txRampDownEnd _ => true
  | .blankingEnd _ => true
  | .trigJobTimeout _ => true
  | .txLatestStartPassed _ => true
  | .calStart _ => true
  | .calAbortForJob _ => true
  | .calRestoreEnd _ => true
  | .calComplete _ => true
  | .calReschedule _ => true
  | .chainTempSample _ _ => true
  | .oscCal => true
  | .calRun _ _ _ => true
  | .txCut _ _ _ => true
  | .chainReset _ _ _ => true
  | .xtxWrite _ _ => true
  | .feGainLoopBlock _ blk => blk.s0.length == 80 && blk.s1.length == 80
  | .preambleDetect _ _ _ d => decide (d.norm0 ≤ 256) && decide (d.norm1 ≤ 256)
  | .antennaSelect _ _ _ _ => true
  | .phrDecoded _ _ h => h.bits.length == 16 || h.bits.length == 30
  | .headerLimitExpired _ _ _ => true
  | .mapBlockDecoded _ _ _ => true
  | .markStale _ _ => true
  | .receptionComplete _ _ air => decide (air.octets.length ≤ 2047)
  | .recordDeliver _ _ => true
  | .recTimeout _ _ => true
  | .replay _ _ _ => true
  | .capture _ _ _ => true
  | .captureDone _ => true
  | .slotPowerUpdate _ p0 p1 => p0.length == 64 && p1.length == 64
  | .segmentSubmit _ _ _ => true
  | .segmentDecoded _ _ => true
  | .mapCheck _ _ => true
  | .phySnrPop _ => true
  | .directoryLookup _ _ _ _ => true
  | .inlineDerive _ _ _ _ => true
  | .macNodeTransaction _ _ => true
  | .aimJob _ => true
  | .ackWaitExpired _ => true
  | .predict _ _ => true
  | .beaconDue _ => true
  | .beaconRx _ _ air => decide (air.octets.length ≤ 2047)
  | .parentBeaconMiss => true
  | .peerExpire _ => true
  | .bcnParentWrite _ _ => true
  | .peerRead _ _ => true
  | .floodRx _ _ air => decide (air.octets.length ≤ 2047)
  | .relayDelayEnd _ _ => true
  | .floodCacheExpire _ _ => true
  | .originate _ _ => true
  | .inject _ _ => true
  | .distStart _ _ => true
  | .distBlockGap => true
  | .peelPost _ => true
  | .itemDue _ => true
  | .grantAfterRoom _ => true
  | .parkDue _ => true
  | .jobReturn _ => true
  | .peelCorePop _ => true
  | .peelFinish _ _ => true
  | .taskTimeout _ => true
  | .peelDonePop _ => true
  | .peelPauseWrite _ _ => true
  | .cancel _ _ => true
  | .flowRead _ _ => true
  | .flowCancel _ _ => true
  | .listDump _ _ _ => true
  | .dirInsert _ _ => true
  | .dirDelete _ _ => true
  | .dirLookup _ _ _ => true
  | .dirUpdate _ _ => true
  | .dirSearch _ _ _ => true
  | .dirNext _ _ => true
  | .dirFlushPort _ _ => true
  | .dirFlowGranted => true
  | .dirFlowTimeout => true
  | .l2Insert _ _ _ => true
  | .l2Delete _ _ _ => true
  | .l2Lookup _ _ _ => true
  | .l2Update _ _ _ => true
  | .l2Search _ _ _ _ => true
  | .l2Next _ _ _ => true
  | .flushPort _ _ _ _ => true
  | .prefixInsert _ _ => true
  | .prefixDelete _ _ => true
  | .prefixLookup _ _ => true
  | .prefixUpdate _ _ => true
  | .prefixSearch _ _ _ => true
  | .prefixNext _ _ => true
  | .prefixFlushPort _ _ => true
  | .prefixSpareMove _ _ => true
  | .nextHopHiWrite _ _ _ => true
  | .sieveFrameLookup _ => true
  | .learnCommit _ => true
  | .ageSweep _ => true
  | .pinRelease _ _ => true
  | .sieveLfifoPop _ _ => true
  | .portFrameRx _ x => decide (64 ≤ x.octets)
  | .egressStart _ _ _ => true
  | .faultDecided _ _ => true
  | .linkDown _ => true
  | .faultCleared _ _ => true
  | .linkUp _ => true
  | .degradeInterval _ _ _ _ _ => true
  | .portModeWrite _ _ _ _ => true
  | .retrain _ _ _ => true
  | .forceDown _ _ _ => true
  | .portnTstxPop _ _ => true
  | .saInstall _ _ => true
  | .saDelete _ _ => true
  | .saRead _ _ => true
  | .saPn _ _ => true
  | .pnThr64HiWrite _ _ => true
  | .txArm _ _ _ => true
  | .txSwitch _ _ _ => true
  | .txSwitchApply _ => true
  | .txDisarm _ _ _ => true
  | .crustRxFrame _ => true
  | .icvResult _ _ => true
  | .crustTxFrame _ _ => true
  | .leaseExpiry _ => true
  | .census _ _ _ => true
  | .reclaim _ _ => true
  | .snapAll _ _ => true
  | .linkRead _ _ => true
  | .ownerRead _ _ => true
  | .revoke _ _ => true
  | .rackDroprecPop _ => true
  | .rackTracePop _ => true
  | .derive _ _ => true
  | .unwrap _ _ => true
  | .wrap _ _ => true
  | .generate _ _ => true
  | .mkaKeys _ _ => true
  | .slotZero _ _ => true
  | .slotInfo _ _ => true
  | .mcExtend _ _ => true
  | .mcRead _ _ => true
  | .lcAdvance _ _ => true
  | .legacyOff _ _ => true
  | .deriveItem => true
  | .retainedUpdateCommit => true
  | .tamperDecided _ => true
  | .zeroizeDone => true
  | .tampMeshPattern => true
  | .tampClear _ _ => true
  | .tampLock _ _ => true
  | .thRelease _ _ => true
  | .tampLogPop _ => true
  | .proofPost _ => true
  | .proofReading => true
  | .proofParam => true
  | .proofActivate => true
  | .proofSelftestEnd _ => true
  | .pd2Undervolt => true
  | .pd2Restart => true
  | .proofPubSelWrite _ _ => true
  | .sealIdent => true
  | .sealLogRead _ => true
  | .sealRegRead _ => true
  | .sealHeads => true
  | .sealUnknownCmd _ => true
  | .sealRequestDiscard => true
  | .slotErase _ _ => true
  | .slotWrite _ _ => true
  | .slotVerify _ _ => true
  | .check _ _ => true
  | .activate _ _ => true
  | .activateUnit => true
  | .linkWaitTimeout => true
  | .confirm _ _ => true
  | .fallback _ _ => true
  | .trialWindowExpired => true
  | .keyRevoke _ _ => true
  | .pcieLinkLoss => true
  | .pcieFlr => true
  | .perst => true
  | .dmaError _ _ => true
  | .qCreate _ _ => true
  | .qDelete _ _ => true
  | .rxRet _ _ _ => true
  | .txPost _ _ _ => true
  | .txDescriptorFetch _ len _ _ _ _ _ _ data => data.length == len.toNat
  | .hostDeliver _ _ => true
  | .parkExpired _ => true
  | .coalTimer _ _ => true
  | .msixUnmask _ _ => true
  | .bar2Access write _ n l => if write then !l.isEmpty else n != 0#12 && l.isEmpty
  | .spiWrite a words _ _ => a.toNat % 4 == 0 && decide (1 ≤ words.length) && decide (words.length ≤ 16)
  | .spiRead a _ _ => a.toNat % 4 == 0
  | .crcGo _ _ => true
  | .crcStop _ _ => true
  | .crcJobDone _ _ => true
  | .gpioInputChange _ _ => true
  | .saDeleteDrained => true
  | .fwuDrainExpired => true
  | .ctrlFirmwareRunning => true
  | .tamperSourceCleared _ => true
  | .triggerPulseEnd _ => true
  | .pcieLinkUp _ _ => true

end Sys2Proof
end

