-- ==== Sys2Proof/Safety.lean ====
section
/-! DEFINITION. What statements call a good state and a good step. -/

namespace Sys2Proof.Machine

/-- The ledger equation of R450 holds in every block. -/
def State.ledgersBalance (s : State) : Prop := ∀ b : Block, (s.blk b).led.balanced

/-- The DRAM is in its canonical form: addresses strictly rising, and no octet listed that an unlisted address reads as. -/
def State.dramCanonical (s : State) : Prop := Memory.wf s.dram = true

/-- The logbook holds entries 1 to n and no others (R524). -/
def State.logInOrder (s : State) : Prop := ∀ n, (mapGet s.proof.log n).isSome = true ↔ 1 ≤ n ∧ n ≤ s.proof.log.length

/-- From `s` to `t` only the pages of a block and its command in progress change: no other register, no token counted, nothing else of the
device but the count of writes to domains that are off. -/
def State.onlyPage (s t : State) (b : Block) : Prop :=
  t = { s with regs := t.regs, blocks := t.blocks, offWrites := t.offWrites }
  ∧ (∀ a, a < b.base ∨ b.base + 4096 * b.pages ≤ a → t.word a = s.word a)
  ∧ ∀ c, (t.blk c).led = (s.blk c).led ∧ (c ≠ b → t.blk c = s.blk c)

/-- The commands that wait are those the outside can send. -/
def State.commandsOk (s : State) : Prop := ∀ c ∈ s.pending, c.wf = true

/-- A page takes a command of a master: it reaches the page, which carries none out, and no stage group of the block is fenced (R21, R61,
R68, R96). -/
def State.takes (s : State) (m : Master) (b : Block) : Prop := s.reaches m b = true ∧ s.busy b = false ∧ s.fenced b = false

/-- The command answers a next state, and P holds of it. -/
def answers (c : Instr) (s : State) (P : State → Prop) : Prop := ∃ t, exec c s = .next t ∧ P t

/-- The page carries out no command, and its last one ended with this code (R58, R62, R71). -/
def State.ended (t : State) (b : Block) (c : Code) : Prop := t.busy b = false ∧ t.get (R.H_RES0_CODE b.base) = c.num

/-- The counts of a ledger in the order in which a page shows them (R57, R89). -/
def Ledger.counts (l : Ledger) : List (BitVec 64) := [l.inn, l.out, l.drop, l.held, l.fenced]

/-- Can a held job be sent from its ramp-up instant (R156, R157, R254, R257)?  Its entry of the power table is valid, its frame has the key it
needs, and the counter it needs is assigned. -/
def State.canSend (s : State) (n : Nat) (j : ChainJob) : Prop :=
  natBit (s.word (R.RF_PTAB_BIAS n (min (s.jobItem j).jobPwr (s.get (R.RF_TX_CFG_PWR_MAX n)))).a).toNat 31 = true
  ∧ ((262144 ≤ (s.jobItem j).flow ∧ (s.jobItem j).producer ≤ 6) ∨ s.jobLevel (s.jobItem j) = 0 ∨ (s.frameKey (s.jobItem j)).isSome = true)
  ∧ ∃ u fc, (s.advanceTo (linOfNs (max j.ts (s.lin + s.leadRamp n) - s.leadRamp n))).frameCounter (s.jobItem j) j.fcWaited = (u, .ok fc)

/-- A timer of FLOOD is the item that Peel grants next, as it falls due, and the idle engine takes it (R280, R284, R291). -/
def State.timerReady (s : State) (w4 gap id : Nat) (it : Item) : Prop :=
  s.timerOf w4 gap = some (id, it) ∧ s.item id = some it ∧ it.target = 9 ∧ s.peelRuns = true ∧ s.fenced .flood = false
  ∧ (s.advanceTo (linOfTick it.due)).mayGrant it = true ∧ (∀ p ∈ s.peel.items, p.2.before it = false) ∧ s.readyItems 9 = []

/-- Starter carries out key commands: no alarm, a life-cycle state other than BLANK and DECOMMISSIONED, and the root is good (R464, R494, R503). -/
def State.keysOpen (s : State) : Prop :=
  s.on R.TAMP_STATE_ALARM = false ∧ s.starter.lc ≠ 0 ∧ s.starter.lc ≠ 4 ∧ s.on R.STARTER_STATE_ROOT_BAD = false

end Sys2Proof.Machine

namespace Sys2Proof

/-- The sender, the page and the tag of a command that is a write of the page's _CMD (R57, R70 and the opcode tables), if it is one. -/
def Instr.page : Instr → Option (Master × Block × BitVec 8)
  | .commit m b tag | .abort m b tag | .fence m b tag | .unfence m b tag | .ledgerSnapshot m b tag | .nop m b tag => some (m, b, tag)
  | .deviceCommit m tag => some (m, .sys, tag)
  | .fabFence m tag | .fabUnfence m tag => some (m, .fab, tag)
  | .enterRun m tag | .enterTrim m tag | .enterHold m tag | .resetDevice m tag => some (m, .pwr, tag)
  | .ckptFlush m tag | .eraseStore m tag => some (m, .ret, tag)
  | .setTime m tag | .step m tag | .slew m tag => some (m, .tb, tag)
  | .calRun m n tag | .txCut m n tag | .chainReset m n tag => some (m, .rf n, tag)
  | .replay m n tag | .capture m n tag => some (m, .wb n, tag)
  | .mapCheck m tag => some (m, .phy, tag)
  | .predict m tag => some (m, .mac, tag)
  | .peerRead m tag => some (m, .bcn, tag)
  | .originate m tag | .inject m tag | .distStart m tag => some (m, .flood, tag)
  | .cancel m tag | .flowRead m tag | .flowCancel m tag | .listDump m tag _ => some (m, .peel, tag)
  | .dirInsert m tag | .dirDelete m tag | .dirLookup m tag _ | .dirUpdate m tag | .dirSearch m tag _ | .dirNext m tag
  | .dirFlushPort m tag => some (m, .dir, tag)
  | .l2Insert m e tag | .l2Delete m e tag | .l2Lookup m e tag | .l2Update m e tag | .l2Search m e tag _ | .l2Next m e tag
  | .flushPort m e tag _ => some (m, Machine.l2Block e, tag)
  | .prefixInsert m tag | .prefixDelete m tag | .prefixLookup m tag | .prefixUpdate m tag | .prefixSearch m tag _ | .prefixNext m tag
  | .prefixFlushPort m tag => some (m, .sieve 2, tag)
  | .retrain m p tag | .forceDown m p tag => some (m, .port p, tag)
  | .saInstall m tag | .saDelete m tag | .saRead m tag | .saPn m tag => some (m, .crust 0, tag)
  | .txArm m x tag | .txSwitch m x tag | .txDisarm m x tag => some (m, Machine.xBlock x, tag)
  | .census m tag _ | .reclaim m tag | .snapAll m tag | .linkRead m tag | .ownerRead m tag | .revoke m tag => some (m, .rack, tag)
  | .derive m tag | .unwrap m tag | .wrap m tag | .generate m tag | .mkaKeys m tag | .slotZero m tag | .slotInfo m tag | .mcExtend m tag
  | .mcRead m tag | .lcAdvance m tag | .legacyOff m tag => some (m, .starter, tag)
  | .thRelease m tag => some (m, .tamp, tag)
  | .slotErase m tag | .slotWrite m tag | .slotVerify m tag | .check m tag | .activate m tag | .confirm m tag | .fallback m tag
  | .keyRevoke m tag => some (m, .fwu, tag)
  | .qCreate m tag | .qDelete m tag => some (m, .host, tag)
  | _ => none

end Sys2Proof
end

