-- ==== Sys2Proof/Certificates/Slice0/Obligations.lean ====
section
/-! DEFINITION. The statements about the device, for the provers.  Those named …Complete say, for the commands of a family, that a command
answers a next state and what holds of it. -/

open Sys2Proof Sys2Proof.Machine

/-- A step carries out the command at the front of the queue, on the state with the queue's rest. -/
def Obligations.StepRunsFrontCommand : Prop :=
  ∀ (c : Instr) (rest : List Instr) (s : State), s.pending = c :: rest → step s = exec c { s with pending := rest }

/-- With no command waiting a step is one cycle of the time base (log entry 2, the model's choice).  While Peel's ready list of the flood engine
is empty, the time moves by 1 ns and RATE, or by one edge of the crystal while the reference is lost (R117, R127), the checkpoint records
grow older (R108), the fabric reads the receive FIFOs (R46), and nothing else changes. -/
def Obligations.EmptyQueueIsOneCycle : Prop :=
  ∀ (s : State), s.pending = [] → s.pdOn 0 = true → s.tb.slew = none → s.readyItems 9 = [] →
    ∃ t, step s = .next t ∧ t = { s with
      tb := { s.tb with L := s.tb.L + (if s.on R.TB_STATE_REF_LOST then BitVec.ofNat 104 (max 1 s.tb.crystal)
                              else BitVec.ofInt 104 (2 ^ 40 + toSigned 32 (s.get R.TB_RATE_RATE))) }
      ret := t.ret, bfifo := t.bfifo }
    ∧ t.ret = { s.ret with records := t.ret.records }

/-- Every command has an effect on every state, and leaves the commands that wait as they are; so every step answers a next state. -/
def Obligations.EveryCommandAnswersANextState : Prop :=
  (∀ (c : Instr) (s : State), answers c s fun t => t.pending = s.pending) ∧ ∀ (s : State), ∃ t, step s = .next t

/-- What reset leaves: every register at its Reset value, some of them by number; no token counted, no command in progress, nothing waiting. -/
def Obligations.ResetState : Prop :=
  (∀ a, State.reset.word a = resetWord a)
  ∧ State.reset.get R.PWR_STATE_DOMAINS = 0x3FFF ∧ State.reset.get R.PWR_GOV_VNOW_TARGET = 40 ∧ State.reset.get R.PWR_GOV_CEIL_CODE = 60
  ∧ State.reset.get (R.PORT_LINK_UP 0) = 0 ∧ State.reset.get (R.HOST_Q_STATE_STATE 0) = 0 ∧ State.reset.get (R.CRC_STAT_STATE 0) = 0
  ∧ State.reset.pending = [] ∧ State.reset.dram = []
  ∧ ∀ b, State.reset.busy b = false ∧ (State.reset.blk b).led = {} ∧ (State.reset.blk b).run = none ∧ State.reset.fenced b = false
    ∧ State.reset.word (b.base + 0x40) = 0

/-- R450: IN = OUT + DROP + HELD + FENCED in every block, in every state a step leads to, whatever the command. -/
def Obligations.LedgerEquationKept : Prop :=
  ∀ (s t : State), s.ledgersBalance → step s = .next t → t.ledgersBalance

/-- The DRAM stays in its canonical form. -/
def Obligations.DramCanonicalKept : Prop :=
  ∀ (s t : State), s.dramCanonical → step s = .next t → t.dramCanonical

/-- R524: no step overwrites or removes an entry of the logbook; entries are numbered from 1 without a gap. -/
def Obligations.LogbookEntriesNeverChange : Prop :=
  ∀ (s t : State), s.logInOrder → step s = .next t → t.logInOrder ∧ ∀ n e, mapGet s.proof.log n = some e → mapGet t.proof.log n = some e

/-- R464, R489, R553: what is a fuse stays blown: a revoked update key, LEGACY_OFF, and the life cycle, which moves on only. -/
def Obligations.FusesStayBlown : Prop :=
  ∀ (s t : State), step s = .next t →
    (∀ k, natBit s.fwu.revoked k = true → natBit t.fwu.revoked k = true)
    ∧ (s.starter.legacyOff = true → t.starter.legacyOff = true) ∧ s.starter.lc ≤ t.starter.lc

/-- The invariants hold at reset. -/
def Obligations.InvariantsHoldAtReset : Prop :=
  State.reset.ledgersBalance ∧ State.reset.dramCanonical ∧ State.reset.logInOrder ∧ State.reset.commandsOk

/-- R63, R70: a command that only reads leaves everything but its own page as it is, whatever its operands and however it ends. -/
def Obligations.ReadCommandsChangeOnlyTheirPage : Prop :=
  ∀ (m : Master) (tag : BitVec 8) (e : Fin 2) (b : Block) (c : Instr) (s t : State), c.page = some (m, b, tag) →
    c ∈ [.nop m b tag, .dirNext m tag, .l2Lookup m e tag, .l2Next m e tag, .prefixLookup m tag, .prefixNext m tag, .ownerRead m tag,
      .peerRead m tag, .flowRead m tag, .mapCheck m tag, .predict m tag, .check m tag] →
    exec c s = .next t → s.onlyPage t b

/-- R553, R558, R577: a store changes the octets it is for and no other: erasing and programming the NOR, which leave the DRAM as it is, and a
check-value job that moves its octets into the DRAM window, which leaves the NOR. -/
def Obligations.StoresChangeOnlyTheirOctets : Prop :=
  (∀ (m : Master) (tag : BitVec 8) (s t : State), exec (.slotErase m tag) s = .next t → t.dram = s.dram
    ∧ ∀ a, a < slotBase (s.argBits .fwu 0 0 3) ∨ slotBase (s.argBits .fwu 0 0 3) + slotSize (s.argBits .fwu 0 0 3) ≤ a → t.norOctet a = s.norOctet a)
  ∧ (∀ (m : Master) (tag : BitVec 8) (a0 : Nat) (s t : State), exec (.slotWrite m tag) s = .next t →
    a0 = slotBase (s.argBits .fwu 0 0 3) + (s.arg .fwu 1).toNat → t.dram = s.dram
    ∧ ∀ a, a < a0 ∨ a0 + (s.arg .fwu 3).toNat ≤ a → t.norOctet a = s.norOctet a)
  ∧ (∀ (c : Fin 24) (l : List Octet) (a0 : Nat) (s : State), s.powered .crc = true → s.crcRuns c.val = true → s.dramCanonical →
    s.get (R.CRC_CFG_MODE c.val) = 1 → s.on (R.CRC_CFG_LAST c.val) = false → s.on (R.CRC_CFG_SRC_SP c.val) = false →
    s.on (R.CRC_CFG_DST_SP c.val) = true → s.get (R.CRC_LEN_OCTETS c.val) = l.length →
    s.get64 (R.CRC_DST_LO_ADDR c.val) (R.CRC_DST_HI_ADDR c.val) = a0 →
    answers (.crcJobDone c l) s fun t => t.nor = s.nor ∧ ∀ b, Memory.read t.dram b
      = if a0 ≤ b ∧ b < a0 + l.length ∧ b < dramSize then l.getD (b - a0) 0 else Memory.read s.dram b)

/-- R21: a page whose domain is off takes no write, and no command, and counts each one; a read over the SPI finds 0, but STATE = 5 (OFF) in the
_STATUS word.  The writes are those of a master that is answered, which all are unless the start-up has failed (R96). -/
def Obligations.PageOfDomainThatIsOff : Prop :=
  (∀ (c : Instr) (m : Master) (b : Block) (tag : BitVec 8) (s : State), c.page = some (m, b, tag) → s.hears m = true → s.powered b = false →
    exec c s = .next s.offWrite)
  ∧ (∀ (m : Master) (b : Block) (a : Nat) (w : Fin 4) (v : BitVec 64) (s : State), s.hears m = true → s.powered b = false → b.base ≤ a →
    a < b.base + 4096 * b.pages → a % 4 = 0 → w.val < 3 →
    answers (.registerWrite m (BitVec.ofNat 26 a) w v) s fun t => t = s.offWrite)
  ∧ (∀ (b : Block) (a : Nat) (s : State), s.pdOn 0 = true → s.powered b = false → b.base ≤ a → a < b.base + 4096 * b.pages → a % 4 = 0 →
    answers (.spiRead (BitVec.ofNat 24 a) 0 (spiReadCrc (BitVec.ofNat 24 a) 0)) s fun t => t.regs = s.regs
      ∧ t.spiData = [if a = b.base + 0xC then 0x50000000 else 0])

/-- R61: a command write while the page is busy is not accepted, unless it is ABORT or FENCE: BUSY_REJECT and the tag stand in _CMD_REJ, its
COUNT advances, and nothing else changes: SEQ, the results and the running command stay. -/
def Obligations.CommandToBusyPageIsRejected : Prop :=
  ∀ (c : Instr) (m : Master) (b : Block) (tag : BitVec 8) (s : State), c.page = some (m, b, tag) → s.reaches m b = true → s.busy b = true →
    c ≠ .abort m b tag → c ≠ .fence m b tag → c ≠ .fabFence m tag →
    answers c s fun t => t = s.rejectCmd b tag
      ∧ t.get (R.H_CMD_REJ_CODE b.base) = Code.busyReject.num ∧ t.get (R.H_CMD_REJ_TAG b.base) = tag.toNat
      ∧ t.get (R.H_CMD_REJ_COUNT b.base) = min (s.get (R.H_CMD_REJ_COUNT b.base) + 1) (2 ^ 16 - 1)
      ∧ t.blocks = s.blocks ∧ ∀ a, a ≠ b.base + 0x38 → t.word a = s.word a

/-- R68: in a fenced block a command of the block's own, of any opcode 0x00 to 0xEF, is accepted and ends with FENCED, without effect. -/
def Obligations.OwnCommandOfFencedBlockEndsFenced : Prop :=
  (∀ (c : Instr) (m : Master) (b : Block) (tag : BitVec 8) (s : State), c.page = some (m, b, tag) → s.reaches m b = true → s.busy b = false →
    s.fenced b = true → (c ≠ .commit m b tag ∧ c ≠ .abort m b tag ∧ c ≠ .fence m b tag ∧ c ≠ .unfence m b tag
      ∧ c ≠ .ledgerSnapshot m b tag ∧ c ≠ .nop m b tag) →
    exec c s = .next ((s.acceptCmd b tag).done b .fenced))
  ∧ (∀ (m : Master) (b : Block) (v : BitVec 64) (s : State), s.reaches m b = true → s.busy b = false → s.fenced b = true →
    v.toNat % 256 < 0xF0 →
    answers (.registerWrite m (BitVec.ofNat 26 (b.base + 0x10)) 2 v) s fun t =>
      t = (s.acceptCmd b (BitVec.ofNat 8 (v.toNat / 2 ^ 16))).done b .fenced)

/-- R78: a write narrower than 32 bits to a register with a field that is not RO, and a write of a value outside a field's range, are refused as a
whole: the register keeps its value (unless it is _REFUSED itself), ERR, OFFSET, PAGE and COUNT say so, and nothing else changes. The
second clause names the blocks whose own registers start nothing when written. -/
def Obligations.RefusedWriteChangesNothing : Prop :=
  (∀ (m : Master) (b : Block) (o i : Nat) (w : Fin 4) (v : BitVec 64) (r : RegSpec) (s : State), s.reaches m b = true → o % 4 = 0 →
    o < 4096 * b.pages → regAt b o = some (r, i) → (r.fields.any fun f => f.acc != .ro) = true → w.val < 2 →
    answers (.registerWrite m (BitVec.ofNat 26 (b.base + o)) w v) s fun t => t = s.refuse b o ∧ t.on (R.H_STATUS_ERR b.base) = true
      ∧ t.get (R.H_REFUSED_OFFSET b.base) = o % 0x1000 ∧ t.get (R.H_REFUSED_PAGE b.base) = o / 0x1000
      ∧ t.get (R.H_REFUSED_COUNT b.base) = min (s.get (R.H_REFUSED_COUNT b.base) + 1) (2 ^ 15 - 1)
      ∧ ∀ a, a ≠ b.base + 0xC → a ≠ b.base + 0x34 → t.word a = s.word a)
  ∧ (∀ (m : Master) (b : Block) (o i : Nat) (v : BitVec 64) (r : RegSpec) (s : State),
    b ∈ [.pwr, .fab, .ret, .phy, .mac, .flood, .dir, .rack, .starter, .fwu, .gpio] → s.reaches m b = true → o % 4 = 0 → 0x100 ≤ o →
    o < 4096 * b.pages → windowAt b ≠ some (o - 4) → regAt b o = some (r, i) → r.rangesOk (v.setWidth 32) = false →
    answers (.registerWrite m (BitVec.ofNat 26 (b.base + o)) 2 v) s fun t => t = s.refuse b o)

/-- R57, R75, R76, R77, R56, R60, R78, R81: EVT_CLEAR clears the flags named, EVT_FORCE sets them, EVT_CNT_CLEAR clears the counts named, on a page
that the master reaches. REGISTER_WRITE of an argument register stores the word, and one narrower than 32 bits is refused as a whole;
REFUSED_CLR clears COUNT and ERR; CFG_STAGE_WRITE of a later epoch stores it. -/
def Obligations.RegisterCommandsComplete : Prop :=
  (∀ (m : Master) (b : Block) (v : BitVec 32) (s : State), s.reaches m b = true → (regAt b 0x40).isSome = true →
    answers (.evtClear m b v 0) s fun t => t.word (b.base + 0x40) = s.word (b.base + 0x40) &&& ~~~v)
  ∧ (∀ (m : Master) (b : Block) (v : BitVec 32) (i : Nat) (s : State), s.reaches m b = true → i < 32 → natBit v.toNat i = true →
      natBit (definedEvents b).toNat i = true →
      answers (.evtForce m b v) s fun t => natBit (t.word (b.base + 0x40)).toNat i = true)
  ∧ (∀ (m : Master) (b : Block) (k : Fin 8) (v : BitVec 32) (j : Fin 4) (s : State), s.reaches m b = true →
      answers (.evtCntClear m b k v 0) s fun t => t.get ⟨b.base + 0x50 + 4 * k.val, 8 * j.val, 8⟩
        = if bitsGet (8 * j.val) 8 v = 0 then s.get ⟨b.base + 0x50 + 4 * k.val, 8 * j.val, 8⟩ else 0)
  ∧ (∀ (m : Master) (b : Block) (i : Fin 4) (v : BitVec 64) (s : State), s.reaches m b = true →
    answers (.registerWrite m (BitVec.ofNat 26 (b.base + 0x14 + 4 * i.val)) 2 v) s fun t =>
      t = s.setWord (b.base + 0x14 + 4 * i.val) (v.setWidth 32))
  ∧ (∀ (m : Master) (b : Block) (i : Fin 4) (w : Fin 4) (v : BitVec 64) (s : State), s.reaches m b = true → w.val < 2 →
      answers (.registerWrite m (BitVec.ofNat 26 (b.base + 0x14 + 4 * i.val)) w v) s fun t =>
        t = s.refuse b (0x14 + 4 * i.val))
  ∧ (∀ (m : Master) (b : Block) (s : State), s.reaches m b = true →
      answers (.refusedClr m b) s fun t => t.get (R.H_REFUSED_COUNT b.base) = 0 ∧ t.get (R.H_STATUS_ERR b.base) = 0
        ∧ t.get (R.H_REFUSED_OFFSET b.base) = s.get (R.H_REFUSED_OFFSET b.base))
  ∧ (∀ (m : Master) (b : Block) (v : BitVec 32) (s : State), s.reaches m b = true → s.get (R.H_CFG_EPOCH_EPOCH b.base) < v.toNat →
      answers (.cfgStageWrite m b v) s fun t => t = s.setWord (b.base + 0x74) v)

/-- R65, R66, R70, R74, R81, R89, R130: NOP ends with OK. ABORT of a page with no command in progress discards its staged writes and ends with OK;
of a page with one it ends that with ABORTED, except that a slew, a set of calibrations and an activation, which end later, are not named
here. LEDGER_SNAPSHOT shows the counts of one instant in full. PART_ACK of the chunk shown lets an operation publish the next one, with the
number after it; with no more rows than fill it, the operation ends with OK. PART_WAIT_TIMEOUT and COMMAND_TIMEOUT end an operation with
TIMEOUT; COMMAND_TIMEOUT of a check-value job ends that, and of a slew, the slew. -/
def Obligations.CommonCommandsComplete : Prop :=
  (∀ (m : Master) (b : Block) (tag : BitVec 8) (s : State), s.reaches m b = true → s.busy b = false →
    answers (.nop m b tag) s fun t => t = (s.acceptCmd b tag).done b .ok)
  ∧ (∀ (m : Master) (b : Block) (tag : BitVec 8) (s : State), s.reaches m b = true → s.busy b = false →
    answers (.abort m b tag) s fun t => t.ended b .ok ∧ (t.blk b).pend = [] ∧ (t.blk b).latched = (s.blk b).latched)
  ∧ (∀ (m : Master) (b : Block) (tag : BitVec 8) (r : RunCmd) (s : State), s.reaches m b = true → s.busy b = true → (s.blk b).run = some r →
    b ≠ .starter → b ≠ .tb → b ≠ .fwu → (∀ n, b ≠ .rf n) →
    answers (.abort m b tag) s fun t => t.ended b .aborted ∧ (t.blk b).run = none)
  ∧ (∀ (m : Master) (b : Block) (tag : BitVec 8) (s : State), s.reaches m b = true → s.busy b = false →
    answers (.ledgerSnapshot m b tag) s fun t => t.ended b .ok ∧ (t.blk b).led = (s.blk b).led
      ∧ ∀ i, i < 5 → t.word (b.base + 0x80 + 8 * i) = (nth (s.blk b).led.counts i 0).setWidth 32
        ∧ t.word (b.base + 0x84 + 8 * i) = ((nth (s.blk b).led.counts i 0) >>> 32).setWidth 32)
  ∧ (∀ (m : Master) (b : Block) (r : RunCmd) (p : PartWindow) (s : State), s.reaches m b = true → (s.blk b).run = some r →
    (s.blk b).part = some p → s.on (R.H_STATUS_PART b.base) = true → r.rows ≠ [] → r.unpaced = false →
    (∀ e, b = .sieve e → r.op ≠ opFlushPort) →
    answers (.partAck m b p.chunk) s fun t => (∃ q, (t.blk b).part = some q ∧ q.tag = r.tag ∧ q.chunk = p.chunk + 1
        ∧ q.entries = (r.rows.take 32).map (·.drop 1))
      ∧ (r.rows.length ≤ 32 → t.ended b .ok))
  ∧ (∀ (b : Block) (r : RunCmd) (s : State), s.powered b = true → (s.blk b).run = some r → s.pacing b = true →
    b ≠ .starter → b ≠ .tb → b ≠ .fwu → (∀ n, b ≠ .rf n) →
    answers (.partWaitTimeout b) s fun t => t.ended b .timeout)
  ∧ (∀ (b : Block) (ch : Fin 24) (r : RunCmd) (s : State), s.powered b = true → (s.blk b).run = some r → s.busy b = true → s.pacing b = false →
    b ≠ .starter → b ≠ .tb → b ≠ .fwu → (∀ n, b ≠ .rf n) → (b = .crc → s.crcRuns ch.val = false) →
    answers (.commandTimeout b ch) s fun t => t.ended b .timeout)
  ∧ (∀ (ch : Fin 24) (s : State), s.powered .crc = true → s.crcRuns ch.val = true →
    answers (.commandTimeout .crc ch) s fun t => t.get (R.CRC_STAT_STATE ch.val) = 3 ∧ t.get (R.CRC_STAT_RESULT ch.val) = Code.timeout.num
      ∧ (t.blk .crc).led = (s.blk .crc).led.lose 1)
  ∧ (∀ (ch : Fin 24) (w : Slew) (r : RunCmd) (s : State), s.powered .tb = true → s.tb.slew = some w → (s.blk .tb).run = some r →
    r.op = opSlew → s.busy .tb = true → s.pacing .tb = false →
    answers (.commandTimeout .tb ch) s fun t => t.ended .tb .timeout ∧ t.tb.slew = none)

/-- R82, R85, R86, R87, R88, R36, R39 to R44, R67, R69, R509: COMMIT latches the staged writes of a page that is not fenced and waits; COMMIT_APPLY
at the boundary ends it with OK and the epoch of the set; DEVICE_COMMIT takes the epoch of its argument; DEVICE_COMMIT_DONE ends it and
makes its epoch the committed one. A COMMIT of a fenced page ends with FENCED and waits; Proofer's page has nothing to apply. FENCE and UNFENCE
on FAB_CMD, of Rack's groups, and on a page's own _CMD, where a command in progress is named in _RES1; the timeout of a group of Rack's
that has a token in work; an acknowledgement that comes first leaves everything as it was. -/
def Obligations.CommitAndFenceCommandsComplete : Prop :=
  (∀ (m : Master) (b : Block) (tag : BitVec 8) (s : State), s.takes m b → b ≠ .sys → b ≠ .proof →
    answers (.commit m b tag) s fun t => t.busy b = true ∧ t.runOp b = some opCommit ∧ (t.blk b).pend = []
      ∧ ∃ l, (t.blk b).latched = some l ∧ l.epoch = s.word (b.base + 0x74))
  ∧ (∀ (m : Master) (b : Block) (tag : BitVec 8) (s : State), s.reaches m b = true → s.busy b = false → s.fenced b = true → b ≠ .sys → b ≠ .proof →
    answers (.commit m b tag) s fun t => t.ended b .fenced ∧ (t.blk b).deferred = true
      ∧ ∃ l, (t.blk b).latched = some l ∧ l.epoch = s.word (b.base + 0x74))
  ∧ (∀ (m : Master) (tag : BitVec 8) (s : State), s.takes m .proof →
    answers (.commit m .proof tag) s fun t => t.ended .proof .ok ∧ t.word (Block.proof.base + 0x70) = s.word (Block.proof.base + 0x74))
  ∧ (∀ (b : Block) (l : StagedSet) (s : State), s.devCommit = none → s.atBoundary b = true → (s.blk b).deferred = false →
      (s.blk b).latched = some l → s.runOp b = some opCommit →
      answers (.commitApply b) s fun t => b ≠ .peel → t.ended b .ok ∧ t.word (b.base + 0x70) = l.epoch ∧ (t.blk b).latched = none)
  ∧ (∀ (m : Master) (tag : BitVec 8) (s : State), s.takes m .sys →
      answers (.deviceCommit m tag) s fun t => ∃ c, t.devCommit = some c ∧ c.epoch = s.arg .sys 0)
  ∧ (∀ (c : DevCommit) (s : State), s.devCommit = some c → 9 ≤ c.step →
      answers .deviceCommitDone s fun t => t.devCommit = none ∧ t.ended .sys (if c.deferred = 0 then .ok else .fenced)
        ∧ t.ret.committedEpoch = c.epoch)
  ∧ (∀ (m : Master) (tag : BitVec 8) (s : State), s.takes m .fab → s.argBits .fab 0 0 6 < 60 →
    answers (.fabFence m tag) s fun t => t.ended .fab .ok)
  ∧ (∀ (m : Master) (tag : BitVec 8) (g : Nat) (s : State), s.takes m .fab → s.argBits .fab 0 0 6 = g → 24 ≤ g → g ≤ 27 → s.busy .rack = false →
      answers (.fabFence m tag) s fun t => t.groupFenced g = true)
  ∧ (∀ (m : Master) (tag : BitVec 8) (g : Nat) (s : State), s.takes m .fab → s.argBits .fab 0 0 6 = g → 24 ≤ g → g ≤ 27 → s.ownerHolds g = false →
      (s.blk .rack).deferred = false →
      answers (.fabUnfence m tag) s fun t => t.groupFenced g = false ∧ t.ended .fab .ok)
  ∧ (∀ (m : Master) (b : Block) (tag : BitVec 8) (s : State), s.reaches m b = true → b ≠ .fab → b ≠ .proof →
      answers (.fence m b tag) s fun t => t.ended b .ok
        ∧ t.word (b.base + 0x28) = if s.busy b then BitVec.ofNat 32 (s.get (R.H_STATUS_SEQ b.base) + 256) else 0)
  ∧ (∀ (m : Master) (b : Block) (tag : BitVec 8) (s : State), s.reaches m b = true → s.busy b = false → b ≠ .fab → b ≠ .proof →
      (∀ g ∈ b.groups, s.ownerHolds g = false) →
      answers (.unfence m b tag) s fun t => t.ended b .ok)
  ∧ (∀ (g : Fin 64) (s : State), 24 ≤ g.val → g.val ≤ 27 → s.pdOn 3 = true → s.busy .rack = false → s.rack.tags ≠ [] →
      answers (.fenceTimeout g false) s fun t => t.groupFenced g.val = true)
  ∧ (∀ (m : Master) (tag : BitVec 8) (s : State), s.takes m .proof →
      answers (.fence m .proof tag) s (fun t => t.ended .proof .state) ∧ answers (.unfence m .proof tag) s fun t => t.ended .proof .state)
  ∧ (∀ (g : Fin 64) (s : State), answers (.fenceTimeout g true) s fun t => t = s)

/-- R27, R28, R29, R30: at the end of a window the governor sets its target by the rule of R29, with the busy fraction of the busiest enabled
pipeline; in a mode with a lower limit the target lies between the limits, in FIXED it is VFIX. The receive boundary FIFO of a port, of 256
tokens, filled beyond half makes the target jump to the ceiling in force, and the next window does not change it. -/
def Obligations.GovernorCommandsComplete : Prop :=
  (∀ (busyNs : List Nat) (tokenPs lower m T len busy : Nat) (s : State), s.boot.configured = true → s.boot ≠ .hold → s.gov.burstWindows < 2 →
    s.govBoundary.govFloor = some lower → s.get R.PWR_GOV_MARGIN_MARGIN = m → s.get R.PWR_GOV_VNOW_TARGET = T →
    len = s.get R.PWR_GOV_WINDOW_US * 1000 → busy = min (s.busiest busyNs).2 len →
    answers (.governorWindow busyNs tokenPs) s fun t =>
      t.get R.PWR_GOV_VNOW_TARGET = max lower (min
        (if len * (100 - m) < busy * 100 then T + 2 else if busy * 100 < len * (100 - 2 * m) then T - 1 else T) (s.get R.PWR_GOV_CEIL_CODE)))
  ∧ (∀ (busyNs : List Nat) (tokenPs : Nat) (s : State), s.boot.configured = true → s.boot ≠ .hold → s.gov.burstWindows < 2 →
    s.govBoundary.govFloor = none →
    answers (.governorWindow busyNs tokenPs) s fun t => t.get R.PWR_GOV_VNOW_TARGET = s.get R.PWR_GOV_VFIX_CODE)
  ∧ (∀ (p : Fin 10) (lower : Nat) (s : State), s.boot.configured = true → s.boot ≠ .hold → s.govFloor = some lower → lower < 64 → s.gov.ceil < 64 →
    128 < s.bfifoLevel (rxBfifo p.val) →
    answers (.burstJump p) s fun t => t.get R.PWR_GOV_VNOW_TARGET = max lower s.gov.ceil
      ∧ t.on R.PWR_GOV_VNOW_BURST = true
      ∧ ∀ l x, answers (.governorWindow l x) t fun u => u.get R.PWR_GOV_VNOW_TARGET = t.get R.PWR_GOV_VNOW_TARGET)

/-- R96, R97, R101, R103, R109, R462, R549, R595, R91, R93, R95, R112: each row of the start-up leads to the next one, and a CTRL image that
does not verify halts it. The power-fail warning begins with the marker written, and ends without a reset; power-off. -/
def Obligations.StartUpAndPowerFailCommandsComplete : Prop :=
  (∀ (s : State), s.boot = .off → answers (.powerOn true) s fun t => t.boot = .dft)
  ∧ (∀ (s : State), s.boot = .off → answers (.powerOn false) s fun t => t.boot = .aon ∧ t.proof.runs = true)
  ∧ (∀ (bad : Bool) (s : State), s.boot = .aon → answers (.starterOpen bad) s fun t =>
      t.boot = .starter ∧ t.on R.STARTER_STATE_OPEN = true ∧ t.starter.held = !bad)
  ∧ (∀ (s : State), s.boot = .starter → s.pfWarn = false → answers .stage1Verified s fun t =>
      if (s.bootTrial.bootImage).2.isSome then t.boot = .stage1 else t.boot = .halted ∧ t.on R.PWR_STATE_BOOT_FAIL = true)
  ∧ (∀ (s : State), s.boot = .stage1 → s.pfWarn = false → answers .retainedConfigApplied s fun t => t.boot = .config)
  ∧ (∀ (s : State), s.boot = .config → answers .dataPlanesForwarding s fun t =>
      t.boot = .planes ∧ t.get (R.PWR_MS_ST 3) = s.backupTicks % 2 ^ 32)
  ∧ (∀ (s : State), s.boot = .planes → s.ret.marker = none → answers .directoryRebuild s fun t => ∃ u : State, u.boot = .rebuilt
      ∧ u.on R.RET_RESTORE_STAT_DONE = true ∧ t = u.regrant)
  ∧ (∀ (s : State), s.boot = .rebuilt → answers .radioChainsCalibrated s fun t =>
      t.boot = .running ∧ (t.powerState ≠ 2 → t.inTransition = false))
  ∧ (∀ (mv : BitVec 16) (s : State), s.pdOn 0 = true → s.pfWarn = false → mv.toNat < s.get R.PWR_PF_THRESH_DV * 10 →
    answers (.pfWarn mv) s fun t => t.ret.marker = some t.lin ∧ (s.starter.op = none → t.pfWarn = true))
  ∧ (∀ (mv : BitVec 16) (s : State), s.pfWarn = true → s.get R.PWR_PF_THRESH_DV * 10 + 40 < mv.toNat → s.ret.owed = none →
      s.runOp .ret ≠ some opCkptFlush → s.proof.logWait = [] → s.proof.waiting = [] → s.fwu.act = none → s.fwu.phase ≠ 2 →
      s.runOp .fwu ≠ some opConfirm →
      answers (.pfClear mv) s fun t => t.pfWarn = false ∧ t.get R.PWR_VIN_MV10 = mv.toNat)
  ∧ (∀ (s : State), s.boot ≠ .off → answers .powerOff s fun t => t.boot = .off ∧ t.get R.PWR_STATE_DOMAINS = 0 ∧ t.ret.records = s.ageRecords.ret.records)

/-- R112, R115, R113: commands and events that change the power state. A change begins with TRANS = 1; what it does then to chains and domains
is that of the operations named. A change of the power state ends; HOLD is left by an enabled wake source. -/
def Obligations.PowerStateCommandsComplete : Prop :=
  (∀ (m : Master) (tag : BitVec 8) (s : State), s.takes m .pwr → s.inTransition = false → s.powerState = 0 →
    answers (.enterRun m tag) s fun t => t.ended .pwr .ok)
  ∧ (∀ (m : Master) (tag : BitVec 8) (s : State), s.takes m .pwr → s.inTransition = false → s.powerState = 1 →
    answers (.enterRun m tag) s fun t => ∃ u : State, t = u.leaveTrim ∧ u.inTransition = true ∧ u.runOp .pwr = some opEnterRun)
  ∧ (∀ (m : Master) (tag : BitVec 8) (s : State), s.takes m .pwr → s.inTransition = false → s.powerState = 0 →
    answers (.enterTrim m tag) s fun t => ∃ u : State, t = (u.returnQueued 0).returnQueued 1 ∧ u.inTransition = true
      ∧ u.runOp .pwr = some opEnterTrim)
  ∧ (∀ (m : Master) (tag : BitVec 8) (s : State), s.takes m .pwr → s.inTransition = false → s.powerState ≠ 2 →
    answers (.enterHold m tag) s fun t => t.entering = true ∧ t.wake = none ∧ t.inTransition = true ∧ t.runOp .pwr = some opEnterHold)
  ∧ (∀ (m : Master) (tag : BitVec 8) (s : State), s.takes m .pwr → s.inTransition = false → s.arg .pwr 0 = 0xB007 →
    answers (.resetDevice m tag) s fun t => ∃ u : State, u.ended .pwr .ok ∧ t = u.restart 2)
  ∧ (∀ (mv : BitVec 16) (s : State), s.boot = .running → s.inTransition = false → s.powerState = 0 →
    mv.toNat < s.get R.PWR_TRIM_THRESH_DV * 10 →
    answers (.autoTrim mv) s fun t => ∃ u : State, t = (u.returnQueued 0).returnQueued 1 ∧ u.inTransition = true
      ∧ u.get R.PWR_VIN_MV10 = mv.toNat)
  ∧ (∀ (mv : BitVec 16) (s : State), s.boot = .running → s.inTransition = false → s.powerState = 1 →
    s.on R.PWR_TRIM_THRESH_AUTO_RUN = true → s.get R.PWR_TRIM_THRESH_DV * 10 + 100 < mv.toNat →
    answers (.autoRun mv) s fun t => ∃ u : State, t = u.leaveTrim ∧ u.inTransition = true)
  ∧ (∀ (s : State), s.boot = .running → s.inTransition = true → s.entering = false → s.powerState = 0 → s.transmits 0 = false →
    s.transmits 1 = false → answers .powerStateDone s fun t => t.powerState = 1 ∧ t.inTransition = false)
  ∧ (∀ (s : State), s.boot = .running → s.inTransition = true → s.entering = false → s.powerState = 1 →
    answers .powerStateDone s fun t => t.powerState = 0 ∧ t.inTransition = false ∧ ((s.runOp .pwr).isSome = true → t.ended .pwr .ok))
  ∧ (∀ (s : State), s.boot = .running → s.inTransition = true → s.entering = true → s.pfWarn = false → s.wake = none →
    answers .powerStateDone s fun t => t.boot = .hold ∧ t.entering = false)
  ∧ (∀ (src : Fin 4) (s : State), s.boot = .hold → natBit (s.get R.PWR_WAKE_EN_SRC) src = true →
    (src.val = 0 → s.on ⟨R.GPIO_DIR0_OE.a, 24, 1⟩ = false) →
    answers (.holdWake src) s fun t => t.boot = .aon ∧ t.get R.PWR_WAKE_SRC_SRC = 2 ^ src.val)

/-- R20, R114, R497, R596: a pin reset that was low for 10 µs, and a software reset that was asked for, restart the device, and
PWR_RST_CAUSE records which; a shorter low than 8 µs does nothing. At a restart PD0 and PD2 stay as they are, the other domains are off
until the start-up switches them on, the time base and Proofer go on, and what the fabric and the DRAM held is lost. TAMPER_HOLD outlasts
a reset. -/
def Obligations.ResetsRestart : Prop :=
  (∀ (lowNs : Nat) (s : State), s.boot.resettable = true → s.boot ≠ .tamperHold → 10000 ≤ lowNs →
    answers (.pinReset lowNs) s fun t => t = s.restart 1 ∧ t.boot = .aon ∧ t.on ⟨R.PWR_RST_CAUSE_CAUSE.a, 1, 1⟩ = true)
  ∧ (∀ (lowNs : Nat) (s : State), lowNs < 8000 → answers (.pinReset lowNs) s fun t => t = s)
  ∧ (∀ (c : Nat) (s : State), s.resetAsked = some c → c < 32 → s.boot.resettable = true → s.boot ≠ .tamperHold →
    answers .softwareReset s fun t => t = s.restart c ∧ t.boot = .aon ∧ t.resetAsked = none ∧ t.on ⟨R.PWR_RST_CAUSE_CAUSE.a, c, 1⟩ = true)
  ∧ (∀ (lowNs : Nat) (s : State), s.boot = .tamperHold → 10000 ≤ lowNs → answers (.pinReset lowNs) s fun t => t.boot = .tamperHold)
  ∧ (∀ (c d : Nat) (s : State), s.devCommit = none → 1 ≤ d → d < 14 → (s.restart c).pdOn d = (d == 2 && s.pdOn 2))
  ∧ (∀ (c : Nat) (s : State), (s.restart c).tb = s.tb ∧ (s.restart c).proof = s.proof ∧ (s.restart c).frames = []
    ∧ (s.restart c).peel.items = [] ∧ (s.restart c).dram = [])

/-- R98, R99, R105, R106, R109, R110, R111, R116: stores, checkpoint records, flush, erasure, restore items and the end of secured-wait. -/
def Obligations.RetainedStateCommandsComplete : Prop :=
  (∀ (b : Bool) (s : State), s.ret.storing = some b → s.pfWarn = false → s.boot.opened = true → s.ret.again = false →
    answers .retStoreDone s fun t => t.ret.storing = none ∧ t.on R.RET_STORE_BUSY = false
      ∧ (if b then t.ret.epochB else t.ret.epochA) = some (BitVec.ofNat 32 (s.get R.RET_STORE_EPOCH_EPOCH)))
  ∧ (∀ (h : BitVec 19) (since : Nat) (s : State), s.pfWarn = false → s.boot.hasDirectory = true → h.toNat < 2 ^ 18 →
    mapGet s.ret.dirty h.toNat = some since →
    answers (.ckptRecordWrite h) s fun t => mapGet t.ret.dirty h.toNat = none ∧ (t.blk .ret).led = (s.blk .ret).led.leave 1)
  ∧ (∀ (s : State), s.pfWarn = false → s.boot.hasDirectory = true → s.ret.bcastDirty = true →
    answers (.ckptRecordWrite 0x40000) s fun t => t.ret.bcastDirty = false
      ∧ t.ret.bcastCeil.toNat = min 0xFFFFFFFF (s.ret.bcastCounter.toNat + 2 ^ s.get R.RET_FC_RESERVE_LOG2))
  ∧ (∀ (m : Master) (tag : BitVec 8) (s : State), s.takes m .ret → s.pfWarn = false →
    answers (.ckptFlush m tag) s fun t => t.ended .ret .ok)
  ∧ (∀ (m : Master) (tag : BitVec 8) (s : State), s.takes m .ret → s.arg .ret 0 = 0xFAC7 →
    answers (.eraseStore m tag) s fun t => t.ended .ret .ok ∧ t.ret.eraseAsked = true ∧ t.ret.copyA = s.ret.copyA ∧ t.ret.copyB = s.ret.copyB)
  ∧ (∀ (h : BitVec 18) (id : Nat) (w : DirWork) (e : NodeEntry) (s : State),
    (s.restoreItems.find? fun p => p.2 == .restore h.toNat && (match s.item p.1 with | some it => it.st == .taken | none => false)) = some (id, w) →
    s.node h.toNat = some e → e.get N.STATE = 1 → e.get N.UNC = 0xFFFF →
    answers (.driftRestoreItem h) s fun t => ∃ u v : State,
      u.node h.toNat = some ((e.put N.UNC (s.restoredUnc (e.get N.LAST_SAMPLE)).1).put N.STEPGEN s.tb.stepgen.toNat)
      ∧ v = State.finishItem { u with dir := { u.dir with work := mapErase u.dir.work id } } id .ok 0
      ∧ t = State.restorePump (v.ret.restore.length + 1) v)
  ∧ (∀ (p : Fin 10) (s : State), s.powered (.port p) = true → s.swait p.val = true → s.secured p.val = true →
    s.on R.STARTER_STATE_ROOT_BAD = false → answers (.securedWaitExit p) s fun t => t = s.put (R.RET_SWAIT_ACTIVE p.val) 0)

/-- R119, R144, R145, R138, R139, R140, R142: a write of TB_LATCH latches one instant for its master and changes no other register; reads of the
stamp FIFOs take the oldest stamp, or 0 where there is none. A channel is armed and disarmed; a fire that is due comes before a write that
disarms; a fire counts, disarms a channel without a period, and one of KIND 3 starts a pulse; a pulse ends. -/
def Obligations.SnapshotStampTriggerCommandsComplete : Prop :=
  (∀ (m : Master) (s : State), s.reaches m .tb = true →
    answers (.tbLatch m) s fun t => t.get (ownCopy m R.TB_SNAP_NS_NS) = s.lin % 10 ^ 9
      ∧ t.get (ownCopy m R.TB_SNAP_S_LO_S) = s.seconds % 2 ^ 32 ∧ t.get (ownCopy m R.TB_SNAP_LIN_LO_L) = s.short
      ∧ t.get (ownCopy m R.TB_SNAP_AUX_STEPGEN) = s.tb.stepgen.toNat ∧ t.get (ownCopy m R.TB_SNAP_ST_ST) = s.st
      ∧ (∀ a, a < masterStride → t.word a = s.word a) ∧ t.tb = s.tb)
  ∧ (∀ (m : Master) (x : Stamp) (r : List Stamp) (s : State), s.reaches m .tb = true → s.tb.ppsFifo = x :: r →
    answers (.tbPpsinPop m) s fun t => t.busData = x.setWidth 32 ∧ t.get R.TB_PPSIN_HI_STAMP = x.toNat / 2 ^ 32 ∧ t.tb.ppsFifo = r)
  ∧ (∀ (m : Master) (s : State), s.reaches m .tb = true → s.tb.ppsFifo = [] →
    answers (.tbPpsinPop m) s fun t => t.busData = 0 ∧ t.get R.TB_PPSIN_HI_STAMP = 0 ∧ t.tb = s.tb)
  ∧ (∀ (m : Master) (x : Stamp) (r : List Stamp) (s : State), s.reaches m .trig = true → s.trig.fifo = x :: r →
    answers (.trigFirePop m) s fun t => t.busData = x.setWidth 32 ∧ t.get R.TRIG_FIRE_HI_STAMP = x.toNat / 2 ^ 32 ∧ t.trig.fifo = r)
  ∧ (∀ (m : Master) (s : State), s.reaches m .trig = true → s.trig.fifo = [] →
    answers (.trigFirePop m) s fun t => t.busData = 0 ∧ t.get R.TRIG_FIRE_HI_STAMP = 0 ∧ t.trig = s.trig)
  ∧ (∀ (m : Master) (ch : Fin 16) (v : BitVec 32) (s : State), s.reaches m .trig = true → bitsGet 4 4 v ≤ 6 →
    trigPairOk (bitsGet 4 4 v) (bitsGet 8 4 v) (s.get (R.TRIG_PARAM_PARAM ch.val)) = true → s.trigReached ch.val (natBit v.toNat 2) = false →
    (natBit v.toNat 0 = true ∨ s.on (R.TRIG_CTL_ARM ch.val) = false ∨ s.trigReached ch.val (s.on (R.TRIG_CTL_UNIT ch.val)) = false) →
    answers (.trigCtlWrite m ch v) s fun t => t.on (R.TRIG_CTL_ARM ch.val) = natBit v.toNat 0 ∧ t.get (R.TRIG_CTL_KIND ch.val) = bitsGet 4 4 v)
  ∧ (∀ (m : Master) (ch : Fin 16) (v : BitVec 32) (s : State), s.reaches m .trig = true → natBit v.toNat 0 = false →
    s.on (R.TRIG_CTL_ARM ch.val) = true → s.trigReached ch.val (s.on (R.TRIG_CTL_UNIT ch.val)) = true → s.get (R.TRIG_CTL_KIND ch.val) = 0 →
    answers (.trigCtlWrite m ch v) s fun t => t.get (R.TRIG_STAT_FIRES ch.val) = (s.get (R.TRIG_STAT_FIRES ch.val) + 1) % 2 ^ 16)
  ∧ (∀ (ch : Fin 16) (s : State), s.pdOn 0 = true → s.on (R.TRIG_CTL_ARM ch.val) = true → s.get (R.TRIG_CTL_KIND ch.val) = 0 →
    answers (.triggerFire ch) s fun t => t.get (R.TRIG_STAT_FIRES ch.val) = (s.get (R.TRIG_STAT_FIRES ch.val) + 1) % 2 ^ 16
      ∧ (s.get (R.TRIG_PERIOD_PERIOD ch.val) = 0 → t.on (R.TRIG_CTL_ARM ch.val) = false))
  ∧ (∀ (ch : Fin 16) (s : State), s.pdOn 0 = true → s.on (R.TRIG_CTL_ARM ch.val) = true → s.get (R.TRIG_CTL_KIND ch.val) = 3 →
    answers (.triggerFire ch) s fun t => ch ∈ t.trig.pulses)
  ∧ (∀ (ch : Fin 16) (s : State), answers (.triggerPulseEnd ch) s fun t => ch ∉ t.trig.pulses)

/-- R120, R121, R124, R125: a source that was OK for TB_QUAL seconds is qualified; writes of TB_SRC_SET and TB_RATE; a servo timeout is
holdover; 1PPS edges are stamped; a missing one, or with TENM the loss of the 10 MHz input, makes GNSS not OK; the reference is lost and back. -/
def Obligations.TimeSourceCommandsComplete : Prop :=
  (∀ (src : Fin 3) (t0 : Lin) (s : State), nth s.tb.okAt src.val none = some t0 → s.pdOn 0 = true → s.srcEnabled src.val = true →
    s.on R.TB_STATE_REF_LOST = false →
    answers (.sourceQualified src) s fun t => nth t.tb.qualified src.val false = true)
  ∧ (∀ (m : Master) (v : BitVec 32) (s : State), s.reaches m .tb = true → s.tb.okAt.length = 3 → natBit v.toNat 2 = false →
    answers (.tbSrcSetWrite m v) s fun t => (nth t.tb.okAt 0 none).isSome = natBit v.toNat 0 ∧ (nth t.tb.okAt 2 none).isSome = natBit v.toNat 1)
  ∧ (∀ (m : Master) (v : BitVec 32) (t0 : Lin) (s : State), s.reaches m .tb = true → s.tb.okAt.length = 3 → s.tbMode = 1 →
    s.get R.TB_STATE_SRC = 1 → nth s.tb.okAt 0 none = some t0 → nth s.tb.qualified 0 false = true → s.srcEnabled 0 = true →
    natBit v.toNat 0 = true → natBit v.toNat 2 = true → s.ret.marker = none →
    answers (.tbSrcSetWrite m v) s fun t => t.tbMode = 2)
  ∧ (∀ (m : Master) (v : BitVec 32) (s : State), s.reaches m .tb = true → s.tbMode ≠ 3 →
    answers (.tbRateWrite m v) s fun t => t = (s.setWord R.TB_RATE_RATE.a v).passBfifo 29 1 fun _ => v.toNat)
  ∧ (∀ (m : Master) (v : BitVec 32) (s : State), s.reaches m .tb = true → s.tbMode = 3 →
    answers (.tbRateWrite m v) s fun t => t.word R.TB_RATE_RATE.a = s.word R.TB_RATE_RATE.a ∧ t.on (R.H_STATUS_ERR Block.tb.base) = true)
  ∧ (∀ (s : State), s.tbMode = 1 ∨ s.tbMode = 2 →
    answers .servoTimeout s fun t => t.tbMode = 3 ∧ t.get R.TB_STATE_SRC = 0 ∧ t.tb.holdStart = s.tb.L)
  ∧ (∀ (e : Option (BitVec 32)) (s : State), s.pdOn 0 = true → s.tb.ppsFifo.length < 16 →
    answers (.ppsInput e) s fun t => t.tb.ppsFifo = s.tb.ppsFifo
        ++ [stampAt s (s.tb.L - BitVec.ofInt 104 (toSigned 16 (s.get R.TB_PPS_CFG_IN_DELAY) * 2 ^ 40)) 0 1]
      ∧ t.get R.TB_TENM_ERR_ERR = (e.getD 0x80000000#32).toNat)
  ∧ (∀ (tenm : Bool) (s : State), s.pdOn 0 = true → s.tb.okAt.length = 3 → (tenm = true → s.on R.TB_SRC_EN_TENM = true) →
    answers (.gnssPpsMissing tenm) s fun t => nth t.tb.okAt 1 none = none)
  ∧ (∀ (s : State), s.pdOn 0 = true → s.on R.TB_STATE_REF_LOST = false →
    answers .refLost s fun t => ∃ u : State, u.on R.TB_STATE_REF_LOST = true ∧ u.tbMode = 3
      ∧ t = (((u.toOff 0 false).toOff 1 false).toOff 2 false).toOff 3 false)
  ∧ (∀ (s : State), s.pdOn 0 = true → s.on R.TB_STATE_REF_LOST = true →
    answers .refBack s fun t => ∃ u : State, u.on R.TB_STATE_REF_LOST = false
      ∧ t = (((u.chainStart 0).chainStart 1).chainStart 2).chainStart 3)

/-- R129, R130, R66: SET_TIME, STEP and SLEW outside holdover; with no channel armed and Peel off, a step leaves the new time and the next step
generation. ABORT cuts what a slew has still to remove; a slew ends with OK, or with ABORTED after that. -/
def Obligations.TimeSettingCommandsComplete : Prop :=
  (∀ (m : Master) (tag : BitVec 8) (s : State), s.takes m .tb → (s.arg .tb 2).toNat < 10 ^ 9 → s.tbMode ≠ 3 →
    answers (.setTime m tag) s fun t => t.ended .tb .ok
      ∧ (s.pdOn 4 = false → (∀ n, n < 16 → s.on (R.TRIG_CTL_ARM n) = false) → t.tb.stepgen = s.tb.stepgen + 1
        ∧ t.tb.L = linOfNs (((s.arg .tb 0).toNat + s.argBits .tb 1 0 16 * 2 ^ 32) * 10 ^ 9 + (s.arg .tb 2).toNat)))
  ∧ (∀ (m : Master) (tag : BitVec 8) (off : Int) (s : State), s.takes m .tb → s.tbMode ≠ 3 → off ≠ 0 →
    off = toSigned 64 ((s.arg .tb 0).toNat + (s.arg .tb 1).toNat * 2 ^ 32) →
    answers (.step m tag) s fun t => t.ended .tb .ok
      ∧ (s.pdOn 4 = false → (∀ n, n < 16 → s.on (R.TRIG_CTL_ARM n) = false) → t.tb.stepgen = s.tb.stepgen + 1
        ∧ t.tb.L = s.tb.L + BitVec.ofInt 104 (off * 2 ^ 40)))
  ∧ (∀ (m : Master) (tag : BitVec 8) (off : Int) (s : State), s.takes m .tb → s.tbMode ≠ 3 → off = toSigned 32 (s.arg .tb 0).toNat → off ≠ 0 →
    1 ≤ s.argBits .tb 1 0 9 → s.argBits .tb 1 0 9 ≤ 500 →
    answers (.slew m tag) s fun t => t.busy .tb = true ∧ t.runOp .tb = some opSlew
      ∧ t.tb.slew = some { neg := decide (off < 0), ppm := s.argBits .tb 1 0 9, total := off.natAbs * 2 ^ 40, left := off.natAbs * 2 ^ 40, carry := 0 })
  ∧ (∀ (w : Slew) (s : State), s.tb.slew = some w → answers .slewComplete s fun t => t.tb.slew = none ∧ t.ended .tb w.code)
  ∧ (∀ (m : Master) (tag : BitVec 8) (w : Slew) (r : RunCmd) (s : State), s.reaches m .tb = true → s.busy .tb = true →
    (s.blk .tb).run = some r → r.op = opSlew → s.tb.slew = some w →
    answers (.abort m .tb tag) s fun t => if w.cut.left = 0 then t.tb.slew = none ∧ t.ended .tb w.cut.code
      else t.tb.slew = some w.cut ∧ t.busy .tb = true)

/-- R148 to R152, R180, R182: writes of the centre frequency and of EN, the start of a retune, lock and lock timeout. The commands of an RF
page. -/
def Obligations.RadioTuningAndPageCommandsComplete : Prop :=
  (∀ (m : Master) (n : Fin 4) (v : BitVec 32) (s : State), s.reaches m (.rf n) = true →
    (n.val ≠ 3 → 386400 ≤ bitsGet 0 22 v ∧ bitsGet 0 22 v ≤ 1013600) → (n.val = 3 → 2406400 ≤ bitsGet 0 22 v ∧ bitsGet 0 22 v ≤ 2477100) →
    answers (.centreWrite m n v) s fun t => t.get (R.RF_CENTRE_KHZ n.val) = bitsGet 0 22 v ∧ t.on (R.RF_STATE_RETUNE_PEND n.val) = true
      ∧ (t.chain n.val).retuneOver = false)
  ∧ (∀ (n : Fin 4) (s : State), s.rfState n.val = rfRx → s.on (R.RF_STATE_RETUNE_PEND n.val) = true → s.confirmedRx n.val = false →
    answers (.retuneStart n) s fun t => t.rfState n.val = rfSettle ∧ t.on (R.RF_STATE_LOCKED n.val) = false
      ∧ (t.chain n.val).settle = some .slice ∧ (t.chain n.val).loKhz = s.get (R.RF_CENTRE_KHZ n.val))
  ∧ (∀ (n : Fin 4) (s : State), s.rfPowered n.val = true → s.rfState n.val = rfRx → s.on (R.RF_STATE_RETUNE_PEND n.val) = true →
    answers (.retuneWaitTimeout n) s fun t => t.rfState n.val = rfSettle ∧ (t.chain n.val).settle = some .slice)
  ∧ (∀ (m : Master) (n : Fin 4) (v : BitVec 32) (s : State), s.reaches m (.rf n) = true → s.rfState n.val = rfOff → natBit v.toNat 0 = true →
    s.on (R.RF_STATE_FAULT n.val) = false → s.on R.TB_STATE_REF_LOST = false → s.fwu.unloaded.contains (n.val + 1) = false →
    answers (.chainEnableWrite m n v) s fun t => t.rfState n.val = rfSettle ∧ (t.chain n.val).settle = some .fromOff)
  ∧ (∀ (m : Master) (n : Fin 4) (v : BitVec 32) (s : State), s.reaches m (.rf n) = true → natBit v.toNat 0 = false →
    answers (.chainEnableWrite m n v) s fun t => ∃ u : State, u.on (R.RF_CTL_EN n.val) = false ∧ t = u.toOff n.val false)
  ∧ (∀ (n : Fin 4) (ticks : Nat) (s : State), s.rfState n.val = rfSettle → s.on (R.RF_STATE_LOCKED n.val) = false →
    (s.chain n.val).settle = some .back → s.on (R.RF_STATE_RETUNE_PEND n.val) = false →
    answers (.synthLock n ticks) s fun t => t.rfState n.val = rfRx ∧ t.on (R.RF_STATE_LOCKED n.val) = true
      ∧ t.get (R.RF_SYN_STAT_LAST n.val) = min ticks 65535)
  ∧ (∀ (n : Fin 4) (ticks : Nat) (s : State), s.rfState n.val = rfSettle → s.on (R.RF_STATE_LOCKED n.val) = false →
    (s.chain n.val).settle = some .fromOff →
    answers (.synthLock n ticks) s fun t => t.rfState n.val = rfCal ∧ ∃ c, (t.chain n.val).cal = some c ∧ c.kinds = [0, 1, 2])
  ∧ (∀ (n : Fin 4) (s : State), s.rfState n.val = rfSettle → s.on (R.RF_STATE_LOCKED n.val) = false → (s.chain n.val).secondTry = false →
    answers (.lockTimeout n) s fun t => t.rfState n.val = rfSettle ∧ (t.chain n.val).secondTry = true ∧ (t.chain n.val).lockStart = s.lin)
  ∧ (∀ (n : Fin 4) (s : State), s.rfState n.val = rfSettle → s.on (R.RF_STATE_LOCKED n.val) = false → (s.chain n.val).secondTry = true →
    answers (.lockTimeout n) s fun t => ∃ u : State, u.on (R.RF_STATE_FAULT n.val) = true ∧ t = u.toOff n.val false)
  ∧ (∀ (m : Master) (n : Fin 4) (tag : BitVec 8) (s : State), s.takes m (.rf n) → s.rfState n.val ≠ rfOff →
    bitList (s.argBits (.rf n) 0 0 3) 3 ≠ [] →
    answers (.calRun m n tag) s fun t => t.busy (.rf n) = true ∧ t.runOp (.rf n) = some opCalRun
      ∧ (t.chain n.val).calWait = some (bitList (s.argBits (.rf n) 0 0 3) 3, s.argBits (.rf n) 0 8 1 == 1))
  ∧ (∀ (m : Master) (n : Fin 4) (tag : BitVec 8) (s : State), s.takes m (.rf n) → s.rfState n.val = rfUp ∨ s.rfState n.val = rfTx →
    answers (.txCut m n tag) s fun t => t.rfState n.val = rfDown ∧ t.ended (.rf n) .ok)
  ∧ (∀ (m : Master) (n : Fin 4) (tag : BitVec 8) (s : State), s.takes m (.rf n) → s.rfState n.val = rfOff → s.on (R.RF_CTL_EN n.val) = true →
    s.on R.TB_STATE_REF_LOST = false → s.fwu.unloaded.contains (n.val + 1) = false →
    answers (.chainReset m n tag) s fun t => t.rfState n.val = rfSettle ∧ t.on (R.RF_STATE_FAULT n.val) = false
      ∧ t.runOp (.rf n) = some opChainReset)
  ∧ (∀ (m : Master) (v : BitVec 32) (s : State), s.reaches m (.rf 0) = true → natBit v.toNat 0 = false →
    answers (.xtxWrite m v) s fun t => t.on R.RF0_XTX_FORBID = false ∧ t.rf = s.rf)
  ∧ (∀ (m : Master) (v : BitVec 32) (s : State), s.reaches m (.rf 0) = true → natBit v.toNat 0 = true → natBit v.toNat 1 = false →
    (∀ k, k < 4 → (s.chain k).jobs = []) → answers (.xtxWrite m v) s fun t => t.on R.RF0_XTX_FORBID = true)

/-- R152, R153, R160 to R167, R171: a job is taken, ramps up, starts, ends and returns; blanking ends; jobs that wait too long return with LATE. -/
def Obligations.TransmitJobCommandsComplete : Prop :=
  (∀ (n : Fin 4) (s u : State) (id : Nat) (it : Item), s.rfPowered n.val = true → (s.chain n.val).jobs.length < 2 → s.credit (138 + n.val) = true →
    s.takeReady n.val = some (u, id, it) →
    answers (.txJobTake n) s fun t => ∃ w : State, t = w.judgeJob n.val id it ∧ ∃ j ∈ (w.chain n.val).jobs, j.id = id)
  ∧ (∀ (n : Fin 4) (j : ChainJob) (l : List ChainJob) (s : State), (s.chain n.val).jobs = j :: l → j.inService = false →
    j.released = true → s.rfState n.val = rfRx → s.on (R.RF_STATE_OUT_OF_SLICE n.val) = false → s.jobInSlice n.val (s.jobItem j) = true →
    s.on R.RF0_XTX_FORBID = false → s.on (R.RF_TX_CFG_DEFER_RX n.val) = false → s.policyOk n.val = true →
    max j.ts (s.lin + s.leadRamp n.val) ≤ j.tl → s.canSend n.val j →
    answers (.txRampUpStart n) s fun t => ∃ w : State, w.rfState n.val = rfUp ∧ t = w.blank n.val
      ∧ ∃ k, (w.chain n.val).jobs.head? = some k ∧ k.id = j.id ∧ k.inService = true ∧ k.ts = max j.ts (s.lin + s.leadRamp n.val)
        ∧ k.idx = min (s.jobItem j).jobPwr (s.get (R.RF_TX_CFG_PWR_MAX n.val)))
  ∧ (∀ (n : Fin 4) (j : ChainJob) (l : List ChainJob) (s : State), (s.chain n.val).jobs = j :: l → s.rfState n.val = rfUp →
    answers (.txStart n) s fun t => t.rfState n.val = rfTx ∧ ∃ k, (t.chain n.val).jobs.head? = some k ∧ k.id = j.id
      ∧ k.stamp = stampAt (s.advanceTo (linOfNs j.ts)) ((s.advanceTo (linOfNs j.ts)).tb.L + linOfNs j.planeNs) n.val 5
      ∧ (t.chain n.val).onAir = j.waves)
  ∧ (∀ (n : Fin 4) (j : ChainJob) (l : List ChainJob) (s : State), (s.chain n.val).jobs = j :: l → s.rfState n.val = rfTx →
    answers (.txFrameEnd n) s fun t => t.rfState n.val = rfDown ∧ (t.chain n.val).downAt = t.lin
      ∧ (t.chain n.val).jobs = (s.chain n.val).jobs)
  ∧ (∀ (n : Fin 4) (j : ChainJob) (s : State), (s.chain n.val).jobs = [j] → s.rfState n.val = rfDown → j.cut = false →
    s.on (R.RF_STATE_OUT_OF_SLICE n.val) = false → s.on (R.RF_STATE_RETUNE_PEND n.val) = false →
    answers (.txRampDownEnd n) s fun t => t.rfState n.val = rfRx ∧ (t.chain n.val).jobs = []
      ∧ (t.chain n.val).returned = (s.chain n.val).returned ++ [(j.id, 0, j.stamp)]
      ∧ t.get (R.RF_TX_STAT_SENT n.val) = (s.get (R.RF_TX_STAT_SENT n.val) + 1) % 2 ^ 16)
  ∧ (∀ (n : Fin 4) (s : State), s.transmits n.val = false →
    answers (.blankingEnd n) s fun t => ∀ k, k < 4 → n.val ∉ (t.chain k).blankedBy)
  ∧ (∀ (n : Fin 4) (j : ChainJob) (s : State), ((s.chain n.val).jobs.find? fun j => j.trig && !j.released) = some j →
    answers (.trigJobTimeout n) s fun t => (t.chain n.val).jobs = (s.chain n.val).jobs.filter (fun k => k.id != j.id)
      ∧ (t.chain n.val).returned = (s.chain n.val).returned ++ [(j.id, Code.late.num, 0)])
  ∧ (∀ (n : Fin 4) (j : ChainJob) (s : State), (s.chain n.val).firstLate = some j → j ∈ (s.chain n.val).jobs →
    answers (.txLatestStartPassed n) s fun t => (t.chain n.val).jobs = (s.chain n.val).jobs.filter (fun k => k.id != j.id)
      ∧ (t.chain n.val).returned = (s.chain n.val).returned ++ [(j.id, Code.late.num, 0)])

/-- R169, R172 to R178: calibrations start, are given up for a job, restore, complete and are run again; temperature samples; the reference
error. -/
def Obligations.CalibrationCommandsComplete : Prop :=
  (∀ (n : Fin 4) (s : State), s.calAllowed n.val = true → s.calsDue n.val ≠ [] →
    answers (.calStart n) s fun t => t.rfState n.val = rfCal ∧ ∃ c, (t.chain n.val).cal = some c ∧ c.kinds = s.calsDue n.val)
  ∧ (∀ (n : Fin 4) (c : CalRun) (p : Nat × Nat × List Nat) (s : State), (s.chain n.val).cal = some c → c.next s.lin = some p →
    s.rfState n.val = rfCal → s.calYields n.val p = true →
    answers (.calAbortForJob n) s fun t => (t.chain n.val).cal = none ∧ (t.chain n.val).restore = some (p.1 + p.2.1, p.2.2.headD 0)
      ∧ ∀ k ∈ p.2.2, mapGet (t.chain n.val).again k = some p.1)
  ∧ (∀ (n : Fin 4) (x : Nat × Nat) (s : State), (s.chain n.val).restore = some x → s.rfState n.val = rfCal →
    s.on (R.RF_STATE_RETUNE_PEND n.val) = false → (s.chain n.val).jobs = [] →
    answers (.calRestoreEnd n) s fun t => t.rfState n.val = rfRx ∧ (t.chain n.val).restore = none)
  ∧ (∀ (n : Fin 4) (c : CalRun) (s : State), (s.chain n.val).cal = some c → s.rfState n.val = rfCal →
    s.on (R.RF_STATE_RETUNE_PEND n.val) = false →
    answers (.calComplete n) s fun t => t.rfState n.val = rfRx ∧ (t.chain n.val).cal = none)
  ∧ (∀ (n : Fin 4) (x : Nat × Nat) (s : State), x ∈ (s.chain n.val).again → x.2 + 50000000 ≤ s.lin → s.calAllowed n.val = true →
    answers (.calReschedule n) s fun t => t.rfState n.val = rfCal ∧ (∃ c, (t.chain n.val).cal = some c) ∧ x ∉ (t.chain n.val).again)
  ∧ (∀ (n : Fin 4) (temp : BitVec 8) (s : State), s.rfPowered n.val = true →
    answers (.chainTempSample n temp) s fun t => t.get (R.RF_CAL_STAT_TEMP n.val) = temp.toNat)
  ∧ (∀ (s : State), s.tbMode = 2 → s.rfPowered 0 = true →
    answers .oscCal s fun t => ∃ up : Nat, up ≤ 1
      ∧ t.get R.RF0_OSC_ERR_PPM = ofSigned 32 (-(toSigned 32 (s.get R.TB_RATE_RATE)) * 10 ^ 9 / (2 ^ 40 : Int) + up))

/-- R190 to R192, R201, R210, R211: a block of samples ends: peaks, gain codes, the ring; captures; slot powers. -/
def Obligations.SampleCommandsComplete : Prop :=
  (∀ (n : Fin 4) (x : SampleBlock) (s : State), s.powered (.wb n) = true → s.groupFenced (36 + 2 * n.val) = false →
    3 ≤ s.get (R.RF_STATE_STATE n.val) →
    answers (.feGainLoopBlock n x) s fun t => t.get (R.WB_FE_STAT_PEAK0 n.val) = x.peak0.toNat ∧ t.get (R.WB_FE_STAT_PEAK1 n.val) = x.peak1.toNat
      ∧ (∃ b, (t.wbOf n.val).ring.head? = some b ∧ b.s0 = (x.s0.take 80).map ringSample ∧ b.s1 = (x.s1.take 80).map ringSample)
      ∧ (s.on (R.WB_FE_CFG_MANUAL n.val) = true → t.get (R.WB_STATE_FEG0 n.val) = s.get (R.WB_FE_CFG_CODE n.val)
        ∧ t.get (R.WB_STATE_FEG1 n.val) = s.get (R.WB_FE_CFG_CODE n.val))
      ∧ (s.on (R.WB_FE_CFG_MANUAL n.val) = false → x.clip0 = true → t.get (R.WB_STATE_FEG0 n.val) = s.get (R.WB_STATE_FEG0 n.val) - 6)
      ∧ (s.on (R.WB_FE_CFG_MANUAL n.val) = false → x.clip1 = true → t.get (R.WB_STATE_FEG1 n.val) = s.get (R.WB_STATE_FEG1 n.val) - 6))
  ∧ (∀ (m : Master) (n : Fin 4) (tag : BitVec 8) (s : State), s.takes m (.wb n) → (s.wbOf n.val).capture = none →
    -1950 ≤ toSigned 32 (s.arg (.wb n) 0).toNat → toSigned 32 (s.arg (.wb n) 0).toNat ≤ 0 → 1 ≤ (s.arg (.wb n) 1).toNat →
    (s.arg (.wb n) 1).toNat ≤ 2000 →
    answers (.capture m n tag) s fun t => t.busy (.wb n) = true ∧ t.runOp (.wb n) = some 2 ∧ t.on (R.WB_CAP_STAT_BUSY n.val) = true
      ∧ t.get (R.WB_CAP_STAT_LEN n.val) = (s.arg (.wb n) 1).toNat ∧ (t.wbOf n.val).capture.isSome = true)
  ∧ (∀ (n : Fin 4) (c : Capture) (s : State), (s.wbOf n.val).capture = some c → c.left = 0 →
    answers (.captureDone n) s fun t => (t.wbOf n.val).capture = none ∧ t.on (R.WB_CAP_STAT_BUSY n.val) = false
      ∧ (c.byCommand = true → s.runOp (.wb n) = some 2 → t.ended (.wb n) .ok))
  ∧ (∀ (n : Fin 4) (p0 p1 : List (BitVec 16)) (s : State), s.powered (.wb n) = true →
    answers (.slotPowerUpdate n p0 p1) s fun t => ∀ i, i < 64 →
      t.get (R.WB_SLOT_PWR_ANT0 n.val i) = (nth p0 i 0).toNat ∧ t.get (R.WB_SLOT_PWR_ANT1 n.val i) = (nth p1 i 0).toNat)

/-- R187, R188, R193 to R198, R202, R203, R625: a detection takes a context, restarts one, or takes none where its allocation is at its limit; a
context keeps an antenna, confirms its header or ends as a false detection; marks become stale; REPLAY. -/
def Obligations.DetectionCommandsComplete : Prop :=
  (∀ (n : Fin 4) (a : Fin 32) (y : Fin 9) (d : Detection) (k : Nat) (s : State), s.watches n.val a.val y.val = true → s.detects n.val y.val d = true →
    (∀ b ∈ (s.wbOf n.val).ring, natBit b.tag0.toNat 57 = false ∧ natBit b.tag0.toNat 59 = false) → s.groupFenced (37 + 2 * n.val) = false →
    (s.wbOf n.val).allocConfirmed a.val = false → s.on (R.WB_RESTART_EN n.val) = false →
    (s.wbOf n.val).allocHeld a.val ≤ s.ap (R.WB_CHAN_LIMIT n.val a.val) → (s.wbOf n.val).freeCtx = some k →
    answers (.preambleDetect n a y d) s fun t =>
      (∃ c, t.ctx n.val k = some c ∧ c.mark = s.newMark n.val a.val y.val d ∧ c.confirmed = false)
      ∧ t.get (R.WB_MARK_LAST_ID n.val) = (s.get (R.WB_MARK_LAST_ID n.val) + 1) % 65536
      ∧ (t.blk (.wb n)).led = (s.blk (.wb n)).led.enter 1)
  ∧ (∀ (n : Fin 4) (a : Fin 32) (y : Fin 9) (d : Detection) (k : Nat) (c : Ctx) (s : State), s.watches n.val a.val y.val = true →
    s.detects n.val y.val d = true → (∀ b ∈ (s.wbOf n.val).ring, natBit b.tag0.toNat 57 = false ∧ natBit b.tag0.toNat 59 = false) →
    s.groupFenced (37 + 2 * n.val) = false → (s.wbOf n.val).allocConfirmed a.val = false →
    (s.wbOf n.val).allocHeld a.val ≤ s.ap (R.WB_CHAN_LIMIT n.val a.val) → s.on (R.WB_RESTART_EN n.val) = true →
    (s.wbOf n.val).restartee a.val (max d.corr0.toNat d.corr1.toNat) (2 * s.get (R.WB_RESTART_MARGIN n.val)) = some (k, c) →
    answers (.preambleDetect n a y d) s fun t => ∃ e, t.ctx n.val k = some e ∧ e.mark = s.newMark n.val a.val y.val d
      ∧ e.chan = c.chan ∧ e.confirmed = false)
  ∧ (∀ (n : Fin 4) (a : Fin 32) (y : Fin 9) (d : Detection) (s : State), s.watches n.val a.val y.val = true →
    s.detects n.val y.val d = true → (∀ b ∈ (s.wbOf n.val).ring, natBit b.tag0.toNat 57 = false ∧ natBit b.tag0.toNat 59 = false) →
    s.groupFenced (37 + 2 * n.val) = false → s.ap (R.WB_CHAN_LIMIT n.val a.val) < (s.wbOf n.val).allocHeld a.val →
    answers (.preambleDetect n a y d) s fun t => (t.wbOf n.val).ctxs = (s.wbOf n.val).ctxs
      ∧ t.get (R.WB_DROP_LIMIT_COUNT n.val) = min (s.get (R.WB_DROP_LIMIT_COUNT n.val) + 1) (2 ^ 32 - 1))
  ∧ (∀ (n : Fin 4) (k : Fin 32) (x y : List Nat) (c : Ctx) (q : Nat) (s : State), s.ctx n.val k.val = some c → c.antMode = 0 → c.ant = none →
    q = s.get (R.WB_ANT_SEL n.val) → q ≤ x.length → q ≤ y.length →
    answers (.antennaSelect n k x y) s fun t =>
      t.ctx n.val k.val = some { c with ant := some (if (x.take q).sum < (y.take q).sum then 1 else 0) })
  ∧ (∀ (n : Fin 4) (k : Fin 32) (h : PhyHeader) (c : Ctx) (r : ReadPhr) (s : State), s.ctx n.val k.val = some c → c.confirmed = false → c.readPhr h = some r →
    answers (.phrDecoded n k h) s fun t => ∃ e, t.ctx n.val k.val = some e ∧ e.confirmed = true ∧ e.len = r.len ∧ e.rate = r.rate ∧ e.crumb = r.crumb
      ∧ e.ant = some (c.ant.getD 0))
  ∧ (∀ (n : Fin 4) (k : Fin 32) (h : PhyHeader) (c : Ctx) (s : State), s.ctx n.val k.val = some c → c.confirmed = false → c.readPhr h = none →
    answers (.phrDecoded n k h) s fun t => t.ctx n.val k.val = none
      ∧ t.get (R.WB_FALSE_COUNT n.val) = min (s.get (R.WB_FALSE_COUNT n.val) + 1) (2 ^ 32 - 1))
  ∧ (∀ (n : Fin 4) (k : Fin 32) (coded : Bool) (c : Ctx) (s : State), s.ctx n.val k.val = some c → c.confirmed = false →
    s.groupFenced (36 + 2 * n.val) = true → s.ringEnd n.val < c.mark.at_.toNat / 2 ^ 40 + s.headerLimit n.val c.mark.type coded →
    answers (.headerLimitExpired n k coded) s fun t => t.ctx n.val k.val = none
      ∧ t.get (R.WB_ENDED_COUNT n.val) = min (s.get (R.WB_ENDED_COUNT n.val) + 1) (2 ^ 32 - 1))
  ∧ (∀ (n : Fin 4) (k : Fin 32) (coded : Bool) (c : Ctx) (s : State), s.ctx n.val k.val = some c → c.confirmed = false →
    (s.groupFenced (36 + 2 * n.val) = true → c.mark.at_.toNat / 2 ^ 40 + s.headerLimit n.val c.mark.type coded ≤ s.ringEnd n.val) →
    answers (.headerLimitExpired n k coded) s fun t => t.ctx n.val k.val = none
      ∧ t.get (R.WB_FALSE_COUNT n.val) = min (s.get (R.WB_FALSE_COUNT n.val) + 1) (2 ^ 32 - 1))
  ∧ (∀ (n : Fin 4) (id : BitVec 16) (s : State), s.powered (.wb n) = true → (∃ m ∈ (s.wbOf n.val).marks, m.id = id.toNat) →
    answers (.markStale n id) s fun t => ∀ m ∈ (t.wbOf n.val).marks, m.id = id.toNat → m.stale = true)
  ∧ (∀ (m : Master) (n : Fin 4) (tag : BitVec 8) (x : Mark) (c : Nat) (s : State), s.takes m (.wb n) → s.argBits (.wb n) 1 0 2 ≠ 3 →
    ((s.wbOf n.val).marks.find? fun k => k.id == s.argBits (.wb n) 0 0 16) = some x → x.stale = false → 50000 ≤ s.markLeft n.val x →
    (s.wbOf n.val).freeCtx = some c →
    answers (.replay m n tag) s fun t => t.ended (.wb n) .ok ∧ t.word (Block.base (.wb n) + 0x28) = BitVec.ofNat 32 c
      ∧ ∃ e, t.ctx n.val c = some e ∧ e.replayed = true ∧ e.mark = x)

/-- R204, R206 to R208, R217 to R231, R237, R238: a reception ends with its record; records go to their host queue or are dropped; decoder
pools; MAP_CHECK; the SNR FIFO. -/
def Obligations.ReceptionCommandsComplete : Prop :=
  (∀ (n : Fin 4) (k : Fin 32) (l : List Bool) (c : Ctx) (s : State), s.ctx n.val k.val = some c → c.confirmed = true → c.crumb = true →
    answers (.mapBlockDecoded n k l) s fun t =>
      t.ctx n.val k.val = (readMapBlock (c.mark.type - 4) l).map fun x => { c with map := x })
  ∧ (∀ (n : Fin 4) (k : Fin 32) (x : RxAir) (f : RxFrame) (c : Ctx) (s : State), s.ctx n.val k.val = some c → c.confirmed = true →
    s.groupFenced (36 + 2 * n.val) = false → s.groupFenced (37 + 2 * n.val) = false → s.rxFrame n.val k.val c x = f →
    (f.fcsOk = false ∧ s.on (R.WB_REPLAY_CFG_ON_FCS n.val) = false) ∨ (f.fcsOk = true ∧ (c.looked = some none ∨ (c.looked = none ∧ f.src = none))) →
    answers (.receptionComplete n k x) s fun t => t.ctx n.val k.val = none)
  ∧ (∀ (n : Fin 4) (k : Fin 32) (x : RxAir) (f : RxFrame) (c : Ctx) (s : State), s.ctx n.val k.val = some c → c.confirmed = true →
    s.groupFenced (36 + 2 * n.val) = false → s.groupFenced (37 + 2 * n.val) = false → s.rxFrame n.val k.val c x = f → f.fcsOk = false →
    s.on (R.WB_REPLAY_CFG_ON_FCS n.val) = true → c.antMode = 0 → c.second = false → c.mark.stale = false →
    answers (.receptionComplete n k x) s fun t => ∃ e, t.ctx n.val k.val = some e ∧ e.replayed = true ∧ e.second = true ∧ e.mark = c.mark
      ∧ e.ant = some (if c.ant.getD 0 = 0 then 1 else 0))
  ∧ (∀ (n : Fin 4) (k : Fin 32) (x : RxAir) (f : RxFrame) (c : Ctx) (h : Nat) (s : State), s.ctx n.val k.val = some c → c.confirmed = true →
    s.groupFenced (36 + 2 * n.val) = false → s.groupFenced (37 + 2 * n.val) = false → s.rxFrame n.val k.val c x = f → f.fcsOk = true →
    c.looked = some (some h) →
    answers (.receptionComplete n k x) s fun t => ∃ (u : State) (r : Nat), u.ctx n.val k.val = none ∧ t = u.postTxn n.val r h f
      ∧ ∃ y, u.wrec n.val r = some y ∧ y.handle = some h ∧ y.frame = some f ∧ y.result = none)
  ∧ (∀ (n : Fin 4) (r q : Nat) (x : WbRec) (s : State), s.wrec n.val r = some x → x.result ≠ none → s.groupFenced (37 + 2 * n.val) = false →
    x.cells ≠ [] → s.on (R.HOST_MAP_CHAIN_VALID n.val) = true → s.get (R.HOST_MAP_CHAIN_Q n.val) = q →
    s.descsOf q (recOctets x.len) ≤ s.hostCredit q → s.fenced .host = false →
    answers (.recordDeliver n r) s fun t => t.wrec n.val r = none ∧ (t.blk (.wb n)).led = (s.blk (.wb n)).led.leave 1)
  ∧ (∀ (n : Fin 4) (r : Nat) (x : WbRec) (s : State), s.wrec n.val r = some x → x.result ≠ none →
    answers (.recTimeout n r) s fun t => t.wrec n.val r = none)
  ∧ (∀ (n : Fin 4) (k : Fin 32) (l : List (BitVec 5)) (c : Ctx) (s : State), s.pdOn 4 = true → s.ctx n.val k.val = some c →
    s.groupFenced (44 + n.val) = false → ((s.pool n.val).filter fun x => x.ctx == k.val).length < 2 → s.phy.pools.length = 4 →
    answers (.segmentSubmit n k l) s fun t => t.pool n.val = fillDecoders (s.pool n.val ++
        [⟨k.val, false, c.softBits (l.map (·.toInt)), (c.code.getD (1, 0)).1, (c.code.getD (1, 0)).2⟩])
      ∧ (t.blk .phy).led = (s.blk .phy).led.enter 1)
  ∧ (∀ (n : Fin 4) (k : Fin 32) (x : Segment) (s : State), (s.pool n.val).find? (fun x => x.ctx == k.val && x.active) = some x →
    s.phy.pools.length = 4 →
    answers (.segmentDecoded n k) s fun t => t.pool n.val = fillDecoders ((s.pool n.val).erase x)
      ∧ t.decoder n.val k.val = (s.decoder n.val k.val).segment (codeNo x.code) (keepOf x.rate) x.llrs
      ∧ (t.blk .phy).led = (s.blk .phy).led.leave 1)
  ∧ (∀ (m : Master) (tag : BitVec 8) (map opt rate : Nat) (s : State), s.takes m .phy →
    map = (s.arg .phy 0).toNat + 2 ^ 32 * (s.arg .phy 1).toNat → opt = s.argBits .phy 2 0 2 → rate = s.argBits .phy 2 2 2 →
    answers (.mapCheck m tag) s fun t => if mapValid opt map = true ∧ rate ≠ 3 then t.ended .phy .ok
        ∧ t.word (Block.phy.base + 0x28) = BitVec.ofNat 32 (mapNcbps opt map) ∧ t.word (Block.phy.base + 0x2C) = BitVec.ofNat 32 (mapRate opt map rate)
      else t.ended .phy .range)
  ∧ (∀ (m : Master) (r : List W32) (l : List (List W32)) (s : State), s.reaches m .phy = true → s.phy.snr = r :: l →
    answers (.phySnrPop m) s fun t => t.busData = nth r 0 0 ∧ t.phy.snr = l
      ∧ ∀ i, i < 11 → t.word (ownCopy m (R.PHY_SNR_W_WORD (i + 1))).a = nth r (i + 1) 0)

/-- R241 to R255, R277, R296 to R303, R332: lookups of the radio path, node transactions, aimed jobs, their waits and returns, PREDICT. -/
def Obligations.NodeTrafficCommandsComplete : Prop :=
  (∀ (n : Fin 4) (k : Fin 32) (eui : BitVec 64) (moves x : Nat) (h : Option Nat) (c : Ctx) (s u : State), s.ctx n.val k.val = some c →
    c.confirmed = true → c.looked = none → s.fenced .dir = false → s.lookupEui eui moves = (u, h, x) →
    answers (.directoryLookup n k eui moves) s fun t => t.ctx n.val k.val = some { c with looked := some h })
  ∧ (∀ (n : Fin 4) (r h id : Nat) (x : WbRec) (f : RxFrame) (it : Item) (e : NodeEntry) (s u : State), s.wrec n.val r = some x → x.handle = some h →
    x.frame = some f → x.result = none → x.item = some id → s.item id = some it → it.st = .taken → s.fenced .mac = false → s.node h = some e →
    f.src = some (BitVec.ofNat 64 (e.get N.EUI)) → s.secure h e f x.policy = (u, 0) →
    answers (.macNodeTransaction n r) s fun t => ∃ w : State, t = w.finishItem id .ok 0 ∧ ∀ y, w.wrec n.val r = some y → y.result = some 0)
  ∧ (∀ (id : Nat) (it : Item) (s : State), s.item id = some it → it.st = .aiming → s.pdOn 4 = true →
    answers (.aimJob id) s fun t => t = s.aimJob id none)
  ∧ (∀ (id t0 : Nat) (a : AimState) (s : State), mapGet s.mac.aims id = some a → a.sentEnd = some t0 → a.returned = true → a.acked = false →
    s.ackOpen a.node (t0 + s.get R.MAC_TRAIN_CFG_ACK_WAIT * 1000) = false → a.full = true →
    answers (.ackWaitExpired id) s fun t => ∃ w : State, t = w.finishItem id .timeout a.stamp
      ∧ w.get R.MAC_UNREACHED_COUNT = min (s.get R.MAC_UNREACHED_COUNT + 1) (2 ^ 32 - 1))
  ∧ (∀ (id t0 : Nat) (a : AimState) (e : NodeEntry) (s : State), mapGet s.mac.aims id = some a → a.sentEnd = some t0 → a.returned = true →
    a.acked = false → s.ackOpen a.node (t0 + s.get R.MAC_TRAIN_CFG_ACK_WAIT * 1000) = false → a.full = false → s.node a.node = some e →
    answers (.ackWaitExpired id) s fun t => ∃ w : State, t = w.aimJob id none
      ∧ ∃ x, w.node a.node = some x ∧ x.get N.ATTEMPT = min 2 (e.get N.ATTEMPT + 1))
  ∧ (∀ (n : Fin 4) (id code : Nat) (stamp : Stamp) (rest : List (Nat × Nat × Stamp)) (it : Item) (s : State),
    (s.chain n.val).returned = (id, code, stamp) :: rest → s.item id = some it → it.st ≠ .done → it.jobAim = false →
    answers (.jobReturn n) s fun t => ∃ w : State, (w.chain n.val).returned = rest ∧ t = w.finishItem id (codeOfNum code) stamp)
  ∧ (∀ (m : Master) (tag : BitVec 8) (e : NodeEntry) (s : State), s.takes m .mac → s.node (s.argBits .mac 0 0 18) = some e →
    answers (.predict m tag) s fun t => t.ended .mac .ok
      ∧ t.word (Block.mac.base + 0x2C) = BitVec.ofNat 32 ((s.acceptCmd .mac tag).predict e none).gUs)

/-- R259 to R266, R278: beacons are sent and heard, peers expire, the parent is missed and named, PEER_READ. -/
def Obligations.BeaconCommandsComplete : Prop :=
  (∀ (c : Fin 128) (s : State), s.pdOn 4 = true → s.apOn (R.BCN_CELL_EN c.val) = true → s.fenced .bcn = false →
    s.apOn (R.WB_CHAN_EN (c.val / 32) (c.val % 32)) = true →
    answers (.beaconDue c) s fun t => ∃ (u : State) (p : HwPost), t = u.hwSend p ∧ p.producer = 7 ∧ (u.blk .bcn).led = (s.blk .bcn).led.enter 1)
  ∧ (∀ (n : Fin 4) (k : Fin 32) (x : RxAir) (b : List Octet) (f : RxFrame) (c : Ctx) (s : State), s.ctx n.val k.val = some c → c.confirmed = true →
    s.pdOn 4 = true → s.beaconHeard n.val k.val c x = some (b, f) → s.fenced .bcn = false →
    answers (.beaconRx n k x) s fun t => t.ctx n.val k.val = none
      ∧ ∃ y ∈ t.bcn.peers, y.2.rid = leNat (b.take 2) % 2 ^ 14 ∧ y.2.stratum = leNat (piece b 2 1) % 16
        ∧ y.2.parent = leNat (piece b 18 2) % 2 ^ 14 ∧ y.2.beacon = true)
  ∧ (∀ (i win : Nat) (p : Peer) (s : State), s.pdOn 4 = true → s.on R.BCN_PARENT_VALID = true → s.peerOf (s.get R.BCN_PARENT_RID) = some (i, p) →
    win = s.get R.BCN_CFG_WIN * 1000000 → s.openWithin (s.expected p - win) (s.expected p + win) = false →
    answers .parentBeaconMiss s fun t => t.get R.BCN_PARENT_MISSES = min 3 (s.get R.BCN_PARENT_MISSES + 1)
      ∧ (s.get R.BCN_PARENT_MISSES = 2 → t.on R.BCN_PARENT_ADRIFT = true))
  ∧ (∀ (i : Fin 64) (p : Peer) (s : State), mapGet s.bcn.peers i.val = some p →
    answers (.peerExpire i) s fun t => mapGet t.bcn.peers i.val = none)
  ∧ (∀ (m : Master) (v : BitVec 32) (s : State), s.reaches m .bcn = true →
    answers (.bcnParentWrite m v) s fun t => t.get R.BCN_PARENT_RID = bitsGet 0 14 v ∧ t.on R.BCN_PARENT_VALID = natBit v.toNat 14
      ∧ t.get R.BCN_PARENT_MISSES = 0 ∧ t.on R.BCN_PARENT_ADRIFT = false)
  ∧ (∀ (m : Master) (tag : BitVec 8) (p : Peer) (s : State), s.takes m .bcn → (s.arg .bcn 0).toNat ≤ 63 →
    mapGet s.bcn.peers (s.arg .bcn 0).toNat = some p →
    answers (.peerRead m tag) s fun t => t.ended .bcn .ok
      ∧ t.word (Block.bcn.base + 0x28) = BitVec.ofNat 32 (p.rid + p.stratum * 2 ^ 14 + (if p.hold then 2 ^ 18 else 0)))

/-- R267 to R275, R280, R284: floods are heard, relayed or suppressed, expire from the cache, and are originated, injected and distributed. The
clauses of the relay's delay and the gap between blocks are of a timer that Peel can grant as it falls due, before any other item, with the
engine's ready list empty. -/
def Obligations.FloodCommandsComplete : Prop :=
  (∀ (n : Fin 4) (k : Fin 32) (x : RxAir) (l p : List Octet) (f : RxFrame) (r o q : Nat) (c : Ctx) (s : State), s.ctx n.val k.val = some c →
    c.confirmed = true → s.pdOn 4 = true → s.floodHeard n.val k.val c x = some (l, p, f, r) → s.fenced .flood = false → s.fenced .peel = false →
    o = leNat (piece l 0 2) % 2 ^ 14 → q = leNat (piece l 4 2) →
    answers (.floodRx n k x) s fun t => t.ctx n.val k.val = none
      ∧ (∀ e, s.seenOf o q = some e → ∃ y ∈ t.flood.seen, y.origin = e.origin ∧ y.seq = e.seq ∧ y.copies = e.copies + 1)
      ∧ (s.seenOf o q = none → s.flood.seen.length < 4096 →
        ∃ y ∈ t.flood.seen, y.origin = o ∧ y.seq = q ∧ y.ttl = leNat (piece l 2 1) % 16 ∧ y.copies = 0
          ∧ y.data = l.drop 6 ∧ y.pending = (s.on R.FLOOD_CFG_RELAY_EN && y.ttl != 0 && decide (s.relaysPending < 256))))
  ∧ (∀ (o : BitVec 14) (q : BitVec 16) (id : Nat) (it : Item) (e : SeenEntry) (s : State), s.timerReady (o.toNat + q.toNat * 2 ^ 16) 0 id it →
    (s.flood.seen.find? fun x => x.origin + x.seq * 2 ^ 16 == o.toNat + q.toNat * 2 ^ 16 && x.pending) = some e →
    answers (.relayDelayEnd o q) s fun t => ∃ u : State, t = u.finishItem id .ok 0
      ∧ (s.get R.FLOOD_CFG_K ≤ e.copies → (u.blk .flood).led = (s.blk .flood).led.lose 1
        ∧ u.get R.FLOOD_SUPP_CNT_COUNT = min (s.get R.FLOOD_SUPP_CNT_COUNT + 1) (2 ^ 32 - 1))
      ∧ (e.copies < s.get R.FLOOD_CFG_K → s.floodCells ≠ [] → ∃ v : State,
        u = (v.sendMessage (e.payload (e.ttl - 1)) false).evt .flood E.FLOOD_RELAYED
        ∧ v.get R.FLOOD_RELAY_CNT_COUNT = min (s.get R.FLOOD_RELAY_CNT_COUNT + 1) (2 ^ 32 - 1)))
  ∧ (∀ (o : BitVec 14) (q : BitVec 16) (e : SeenEntry) (s : State), s.seenOf o.toNat q.toNat = some e → s.pdOn 4 = true →
    answers (.floodCacheExpire o q) s fun t => t.seenOf o.toNat q.toNat = none)
  ∧ (∀ (m : Master) (tag : BitVec 8) (s : State), s.takes m .flood → 1 ≤ (s.arg .flood 1).toNat → (s.arg .flood 1).toNat ≤ 1900 →
    (s.arg .flood 0).toNat + (s.arg .flood 1).toNat ≤ 2 ^ 26 → s.flood.seen.length < 4096 →
    answers (.originate m tag) s fun t => ∃ (u : State) (e : SeenEntry), t = (u.sendMessage (e.payload e.ttl) true).hwDrain
      ∧ u.runOp .flood = some opOriginate ∧ u.get R.FLOOD_SEQ_NEXT = (s.get R.FLOOD_SEQ_NEXT + 1) % 2 ^ 16
      ∧ e ∈ u.flood.seen ∧ e.seq = s.get R.FLOOD_SEQ_NEXT ∧ e.origin = Config.routerId.toNat ∧ e.kind = s.argBits .flood 2 0 2
      ∧ e.ttl = (if s.argBits .flood 2 4 4 = 0 then s.get R.FLOOD_CFG_TTL else s.argBits .flood 2 4 4)
      ∧ e.data = s.dramRead (s.arg .flood 0).toNat (s.arg .flood 1).toNat)
  ∧ (∀ (m : Master) (tag : BitVec 8) (s : State), s.takes m .flood → 1 ≤ (s.arg .flood 3).toNat → (s.arg .flood 3).toNat ≤ 1900 →
    (s.arg .flood 2).toNat + (s.arg .flood 3).toNat ≤ 2 ^ 26 → s.flood.seen.length < 4096 →
    s.seenOf (s.argBits .flood 0 0 14) (s.argBits .flood 1 0 16) = none →
    answers (.inject m tag) s fun t => ∃ (u : State) (e : SeenEntry), t = (u.sendMessage (e.payload e.ttl) true).hwDrain
      ∧ u.runOp .flood = some opInject ∧ e ∈ u.flood.seen ∧ e.origin = s.argBits .flood 0 0 14 ∧ e.seq = s.argBits .flood 1 0 16
      ∧ e.ttl = s.argBits .flood 1 16 4 ∧ e.kind = s.argBits .flood 1 20 2
      ∧ e.data = s.dramRead (s.arg .flood 2).toNat (s.arg .flood 3).toNat)
  ∧ (∀ (m : Master) (tag : BitVec 8) (off len size gap : Nat) (s : State), s.takes m .flood → off = (s.arg .flood 0).toNat →
    len = (s.arg .flood 1).toNat → size = s.argBits .flood 2 16 11 → gap = s.argBits .flood 3 0 16 → off % 8 = 0 → off < 2 ^ 27 →
    1 ≤ len → len ≤ 2 ^ 27 - off → 16 ≤ size → size ≤ 1024 → 10 ≤ gap → gap ≤ 60000 →
    answers (.distStart m tag) s fun t => t.get R.FLOOD_DIST_STAT_BLOCK = 0 ∧ (len ≤ size → t.ended .flood .ok)
      ∧ (size < len → s.fenced .peel = false → t.runOp .flood = some opDistStart))
  ∧ (∀ (r : RunCmd) (b total size id : Nat) (it : Item) (s : State), (s.blk .flood).run = some r → r.op = opDistStart →
    b = nth r.data 0 0 → total = (r.arg 1).toNat → size = bitsGet 16 11 (r.arg 2) → s.timerReady b 1 id it →
    answers .distBlockGap s fun t => ∃ u : State, t = u.finishItem id .ok 0 ∧ (total ≤ (b + 1) * size → u.ended .flood .ok)
      ∧ ((b + 1) * size < total → ∃ q, (u.blk .flood).run = some q ∧ q.op = opDistStart ∧ q.data = [b + 1]))

/-- R280 to R284, R305, R312, R313: items are posted, taken by control cores, finished, time out, and leave with their completion records. -/
def Obligations.PeelQueueCommandsComplete : Prop :=
  (∀ (m : Master) (it : Item) (s : State), s.reaches m .peel = true → s.fenced .peel = false →
    it = { words := (List.range 16).map fun i => s.word (ownCopy m (R.PEEL_POST_W_WORD i)).a, due := 0, seq := 0, st := .delay } →
    postOk m.idx it = true → s.peelCredit m.idx ≠ 0 → it.type ≠ 0 →
    answers (.peelPost m) s fun t => t.get (ownCopy m R.PEEL_POST_RES_CODE) = Code.ok.num ∧ (t.blk .peel).led = (s.blk .peel).led.enter 1
      ∧ ∃ x, t.item (mapFirstFree s.peel.items) = some x ∧ x.st = .delay ∧ x.seq = s.peel.seq)
  ∧ (∀ (m : Master) (it : Item) (cs : List Nat) (u s : State), s.reaches m .peel = true → s.fenced .peel = false →
    it = { words := (List.range 16).map fun i => s.word (ownCopy m (R.PEEL_POST_W_WORD i)).a, due := 0, seq := 0, st := .delay } →
    postOk m.idx it = true → s.peelCredit m.idx ≠ 0 → it.type = 0 → s.postCells m.idx it.jobCell = some (u, cs) →
    answers (.peelPost m) s fun t => t.get (ownCopy m R.PEEL_POST_RES_CODE) = Code.ok.num ∧ (t.blk .peel).led = (s.blk .peel).led.enter 1
      ∧ ∃ x, t.item (mapFirstFree s.peel.items) = some x ∧ x.st = .delay ∧ x.cells = cs ∧ x.octets = it.jobLen)
  ∧ (∀ (m : Master) (s : State), s.reaches m .peel = true → s.fenced .peel = true →
    answers (.peelPost m) s fun t => t.get (ownCopy m R.PEEL_POST_RES_CODE) = Code.fenced.num ∧ t.peel = s.peel)
  ∧ (∀ (m : Master) (r : DoneRec) (rest : List DoneRec) (s : State), s.reaches m .peel = true → mapGetD s.peel.done m.idx [] = r :: rest →
    answers (.peelDonePop m) s fun t => t.busData = BitVec.ofNat 32 (r.id + r.result * 2 ^ 19 + r.type * 2 ^ 27 + 2 ^ 31)
      ∧ mapGetD t.peel.done m.idx [] = rest ∧ t.item r.id = none)
  ∧ (∀ (m : Master) (s : State), s.reaches m .peel = true → mapGetD s.peel.done m.idx [] = [] →
    answers (.peelDonePop m) s fun t => t.busData = 0 ∧ t.peel = s.peel)
  ∧ (∀ (m : Master) (k id : Nat) (it : Item) (s u : State), s.reaches m .peel = true → coreTarget m = some k → s.takeReady k = some (u, id, it) →
    answers (.peelCorePop m) s fun t => t.busData = BitVec.ofNat 32 (id + 2 ^ 31)
      ∧ ∀ i, i < 16 → t.word (ownCopy m (R.PEEL_CORE_R_WORD i)).a = nth it.words i 0)
  ∧ (∀ (m : Master) (v : BitVec 32) (k : Nat) (it : Item) (s : State), s.reaches m .peel = true → bitsGet 19 8 v ≤ 13 → coreTarget m = some k →
    s.item (bitsGet 0 19 v) = some it → it.st = .taken → it.target = k →
    answers (.peelFinish m v) s fun t => ∃ u : State, t = u.finishItem (bitsGet 0 19 v) (codeOfNum (bitsGet 19 8 v)) 0
      ∧ u.get (ownCopy m R.PEEL_FINISH_RES_CODE) = Code.ok.num)
  ∧ (∀ (m : Master) (v : BitVec 32) (s : State), s.reaches m .peel = true → bitsGet 19 8 v ≤ 13 → s.item (bitsGet 0 19 v) = none →
    answers (.peelFinish m v) s fun t => t.get (ownCopy m R.PEEL_FINISH_RES_CODE) = Code.notFound.num ∧ t.peel = s.peel)
  ∧ (∀ (id : Nat) (it : Item) (s : State), s.item id = some it → it.st = .taken → 5 ≤ it.target → it.target ≤ 8 →
    answers (.taskTimeout id) s fun t => ∃ u : State, t = u.finishItem id .timeout 0
      ∧ u.get R.PEEL_TMO_CNT_COUNT = min (s.get R.PEEL_TMO_CNT_COUNT + 1) (2 ^ 32 - 1))

/-- R287 to R298, R303, R316, R320: items fall due, wait for their flow or for room, and parked jobs come back. The commands of Peel's page. In
the clauses of ITEM_DUE and PARK_DUE u is the state at the due time, with what came due before the item granted; FLOOD's engine has no task
to take. -/
def Obligations.PeelGrantAndPageCommandsComplete : Prop :=
  (∀ (k : Fin 11) (id : Nat) (it : Item) (u s : State), s.delayHead k.val = some (id, it) → it.st = .delay → s.peelRuns = true →
    u = (s.advanceTo (linOfTick it.due)).grantBefore it → u.item id = some it → u.flowHolder it.flow = none → u.overtakes it = false →
    u.readyItems 9 = [] →
    (it.target = 15 → answers (.itemDue k) s fun t => ∃ x, t.item id = some x ∧ x.st = .taken)
    ∧ (it.target ≤ 8 → s.pausedTarget it.target = false → u.roomFor it = true → (it.type = 0 → u.chainOff it.target = false) →
      answers (.itemDue k) s fun t => ∃ x, t.item id = some x ∧ x.st = (if it.type = 0 ∧ it.jobAim = true then .aiming else .ready)))
  ∧ (∀ (k : Fin 11) (id : Nat) (it : Item) (u s : State), s.delayHead k.val = some (id, it) → it.st = .delay → s.peelRuns = true →
    (it.target ≠ 15 → s.pausedTarget it.target = false) → u = (s.advanceTo (linOfTick it.due)).grantBefore it → u.item id = some it →
    (u.flowHolder it.flow).isSome = true ∨ u.overtakes it = true →
    answers (.itemDue k) s fun t => t.item id = some { it with st := .flowq })
  ∧ (∀ (k : Fin 11) (id : Nat) (it : Item) (u s : State), s.delayHead k.val = some (id, it) → it.st = .parked → s.peelRuns = true →
    s.pausedTarget it.target = false → u = (s.advanceTo (linOfTick it.due)).grantBefore it → u.item id = some it →
    u.chainOff it.target = false → u.readyRoom it.target = true →
    answers (.parkDue k) s fun t => ∃ x, t.item id = some x ∧ x.st = .ready)
  ∧ (∀ (k : Fin 10) (s : State), s.peel.blocked.contains k.val = true → s.readyRoom k.val = true → s.peelRuns = true →
    answers (.grantAfterRoom k) s fun t => ∃ u : State, t = u.regrant ∧ u.peel.blocked.contains k.val = false)
  ∧ (∀ (m : Master) (v : BitVec 32) (s : State), s.reaches m .peel = true →
    answers (.peelPauseWrite m v) s fun t => ∃ u : State, t = u.regrant ∧ u.get R.PEEL_PAUSE_TARGETS = bitsGet 0 10 v)
  ∧ (∀ (m : Master) (tag : BitVec 8) (it : Item) (s : State), s.takes m .peel → s.item (s.argBits .peel 0 0 19) = some it → it.st.cancellable = true →
    answers (.cancel m tag) s fun t => t.ended .peel .ok)
  ∧ (∀ (m : Master) (tag : BitVec 8) (s : State), s.takes m .peel → s.item (s.argBits .peel 0 0 19) = none →
    answers (.cancel m tag) s fun t => t.ended .peel .notFound ∧ t.peel = s.peel)
  ∧ (∀ (m : Master) (tag : BitVec 8) (f : Nat) (s : State), s.takes m .peel → s.argBits .peel 0 0 19 = f → f < 266240 →
    answers (.flowRead m tag) s fun t => t.ended .peel .ok ∧ t.peel = s.peel
      ∧ t.word (Block.peel.base + 0x2C)
        = BitVec.ofNat 32 (s.peel.items.filter fun p => p.2.flow == f && (p.2.st == .delay || p.2.st == .flowq)).length)
  ∧ (∀ (m : Master) (tag : BitVec 8) (f : Nat) (s : State), s.takes m .peel → s.argBits .peel 0 0 19 = f → f < 266240 →
    answers (.flowCancel m tag) s fun t => t.ended .peel .ok
      ∧ t.word (Block.peel.base + 0x28) = BitVec.ofNat 32 (s.peel.items.filter fun p => p.2.flow == f && p.2.st.cancellable).length)
  ∧ (∀ (m : Master) (tag : BitVec 8) (unpaced : Bool) (s : State), s.takes m .peel → s.argBits .peel 0 0 4 ≤ 10 →
    answers (.listDump m tag unpaced) s fun t => (s.delayItems (s.argBits .peel 0 0 4) = [] → t.ended .peel .ok)
      ∧ (s.delayItems (s.argBits .peel 0 0 4) ≠ [] → (t.blk .peel).part.isSome = true))

/-- R330, R332, R335, R354: the directory's own table commands. -/
def Obligations.DirectoryTableCommandsComplete : Prop :=
  (∀ (m : Master) (tag : BitVec 8) (h i : Nat) (s : State), s.takes m .dir → s.argEui ≠ 0 → s.findEui s.argEui = none →
    natBit (s.arg .dir 2).toNat 31 = false → s.argBits .dir 2 0 18 = h → s.handleFree h = true → s.freeWay (s.h1 s.argEui) = some i →
    answers (.dirInsert m tag) s fun t => t.ended .dir .ok ∧ t.word (Block.dir.base + 0x28) = BitVec.ofNat 32 h
      ∧ t.word (Block.dir.base + 0x2C) = 0 ∧ t.node h = some (s.stagedNode s.argEui))
  ∧ (∀ (m : Master) (tag : BitVec 8) (h : Nat) (s : State), s.takes m .dir → s.argEui ≠ 0 → s.findEui s.argEui = some h →
    answers (.dirInsert m tag) s fun t => t.ended .dir .state ∧ t.word (Block.dir.base + 0x28) = BitVec.ofNat 32 h ∧ t.dir = s.dir)
  ∧ (∀ (m : Master) (tag : BitVec 8) (moves h : Nat) (e : NodeEntry) (s : State), s.takes m .dir → natBit (s.arg .dir 2).toNat 0 = false →
    s.argEui ≠ 0 → s.findEui s.argEui = some h → s.node h = some e →
    answers (.dirLookup m tag moves) s fun t => t.ended .dir .ok ∧ t.word (Block.dir.base + 0x28) = BitVec.ofNat 32 h
      ∧ ∀ i, i < 12 → t.word (R.DIR_RENT_WORD i).a = e.word i)
  ∧ (∀ (m : Master) (tag : BitVec 8) (moves : Nat) (e : NodeEntry) (s : State), s.takes m .dir → natBit (s.arg .dir 2).toNat 0 = true →
    s.node (s.arg .dir 0).toNat = some e →
    answers (.dirLookup m tag moves) s fun t => t.ended .dir .ok ∧ t.dir.nodes = s.dir.nodes ∧ ∀ i, i < 12 → t.word (R.DIR_RENT_WORD i).a = e.word i)
  ∧ (∀ (m : Master) (tag : BitVec 8) (unpaced : Bool) (s : State), s.takes m .dir → (s.arg .dir 0).toNat < 12 → unpaced = true →
    answers (.dirSearch m tag unpaced) s fun t => t.ended .dir .ok ∧ t.word (Block.dir.base + 0x28) = BitVec.ofNat 32
      ((s.nodesFrom (s.arg .dir 3).toNat).filter fun p => p.2.word (s.arg .dir 0).toNat &&& s.arg .dir 1 == s.arg .dir 2).length)
  ∧ (∀ (m : Master) (tag : BitVec 8) (h : Nat) (e : NodeEntry) (rest : List (Nat × NodeEntry)) (s : State), s.takes m .dir →
    s.nodesFrom (s.arg .dir 0).toNat = (h, e) :: rest →
    answers (.dirNext m tag) s fun t => t.ended .dir .ok ∧ t.word (Block.dir.base + 0x28) = BitVec.ofNat 32 h
      ∧ ∀ i, i < 12 → t.word (R.DIR_RENT_WORD i).a = e.word i)
  ∧ (∀ (m : Master) (tag : BitVec 8) (s : State), s.takes m .dir → answers (.dirFlushPort m tag) s fun t => t.ended .dir .range ∧ t.dir = s.dir)

/-- R333, R334: DIR_DELETE and DIR_UPDATE run as inline items of the node's flow, and write when the flow is theirs; or they time out. -/
def Obligations.DirectoryFlowCommandsComplete : Prop :=
  (∀ (m : Master) (tag : BitVec 8) (s : State), s.takes m .dir → (s.node (s.arg .dir 0).toNat).isSome = true → s.argBits .dir 1 0 2 = 0 →
    answers (.dirUpdate m tag) s fun t => ∃ u : State, u.runOp .dir = some opUpdate
      ∧ t = u.dirPost (.update (s.arg .dir 0).toNat (s.argBits .dir 1 0 12) ((List.range 12).map fun i => s.word (R.DIR_ENT_WORD i).a)))
  ∧ (∀ (m : Master) (tag : BitVec 8) (s : State), s.takes m .dir → (s.node (s.arg .dir 0).toNat).isSome = true → s.fenced .peel = false →
    answers (.dirDelete m tag) s fun t => ∃ u : State, t = u.dirPost (.delete (s.arg .dir 0).toNat) ∧ u.runOp .dir = some opDelete)
  ∧ (∀ (id h mask : Nat) (words : List W32) (it : Item) (e : NodeEntry) (s : State), s.dir.cmdItem = some id → s.item id = some it →
    it.st = .taken → mapGet s.dir.work id = some (.update h mask words) → s.node h = some e → natBit mask 0 = false → natBit mask 1 = false →
    answers .dirFlowGranted s fun t => t.ended .dir .ok ∧ t.dir.cmdItem = none ∧ ∃ (u : State) (x : NodeEntry), t = (u.dropDirItem .ok).done .dir .ok
      ∧ u.node h = some x ∧ ∀ i, i < 12 → x.word i = if natBit mask i then nth words i 0 else e.word i)
  ∧ (∀ (id h : Nat) (it : Item) (e : NodeEntry) (s : State), s.dir.cmdItem = some id → s.item id = some it →
    it.st = .taken → mapGet s.dir.work id = some (.delete h) → s.node h = some e →
    answers .dirFlowGranted s fun t => t.ended .dir .ok ∧ t.dir.cmdItem = none
      ∧ ∃ u : State, t = (u.dropDirItem .ok).done .dir .ok ∧ u.node h = none ∧ u.handleFree h = false)
  ∧ (∀ (id : Nat) (it : Item) (s : State), s.dir.cmdItem = some id → s.item id = some it → it.st ≠ .taken →
    answers .dirFlowTimeout s fun t => t.ended .dir .timeout ∧ t.dir.cmdItem = none)

/-- R336, R337, R346, R354: the table commands of the layer-2 pages; x is the staged entry, VALID set. -/
def Obligations.LayerTwoTableCommandsComplete : Prop :=
  (∀ (m : Master) (e : Fin 2) (tag : BitVec 8) (x : L2Entry) (i : Nat) (s : State), s.takes m (l2Block e) →
    x = (s.stagedL2 e.val).put L.VALID 1 → x.get L.PORT < 10 ∨ 13 < x.get L.PORT →
    s.l2Find e.val (BitVec.ofNat 48 (x.get L.MAC)) (BitVec.ofNat 12 (x.get L.FID)) = none →
    s.l2Free e.val (BitVec.ofNat 48 (x.get L.MAC)) (BitVec.ofNat 12 (x.get L.FID)) = some i →
    answers (.l2Insert m e tag) s fun t => t.ended (l2Block e) .ok ∧ mapGet (t.pipe e.val).table i = some x
      ∧ t.word ((l2Block e).base + 0x28) = BitVec.ofNat 32 i)
  ∧ (∀ (m : Master) (e : Fin 2) (tag : BitVec 8) (i : Nat) (x : L2Entry) (s : State), s.takes m (l2Block e) →
    s.l2Find e.val (s.argKey (l2Block e)).1 (s.argKey (l2Block e)).2 = some (i, x) →
    answers (.l2Delete m e tag) s (fun t => t.ended (l2Block e) .ok ∧ mapGet (t.pipe e.val).table i = none)
    ∧ answers (.l2Lookup m e tag) s fun t => t.ended (l2Block e) .ok ∧ t.word ((l2Block e).base + 0x28) = BitVec.ofNat 32 i
      ∧ ∀ w, w < 4 → t.word (R.SIEVE_RENT_WORD e.val w).a = BitVec.ofNat 32 (natBits x.toNat (32 * w) 32))
  ∧ (∀ (m : Master) (e : Fin 2) (tag : BitVec 8) (i : Nat) (x y : L2Entry) (s : State), s.takes m (l2Block e) →
    x = (s.stagedL2 e.val).put L.VALID 1 → x.get L.PORT < 10 ∨ 13 < x.get L.PORT →
    x.get L.MAC = (s.argKey (l2Block e)).1.toNat → x.get L.FID = (s.argKey (l2Block e)).2.toNat →
    s.l2Find e.val (s.argKey (l2Block e)).1 (s.argKey (l2Block e)).2 = some (i, y) →
    answers (.l2Update m e tag) s fun t => t.ended (l2Block e) .ok ∧ mapGet (t.pipe e.val).table i = some x)
  ∧ (∀ (m : Master) (e : Fin 2) (tag : BitVec 8) (s : State), s.takes m (l2Block e) → (s.arg (l2Block e) 0).toNat < 4 →
    answers (.l2Search m e tag true) s fun t => t.ended (l2Block e) .ok ∧ (t.pipe e.val).table = (s.pipe e.val).table)
  ∧ (∀ (m : Master) (e : Fin 2) (tag : BitVec 8) (i : Nat) (x : L2Entry) (s : State), s.takes m (l2Block e) →
    ((s.pipe e.val).table.find? fun p => decide ((s.arg (l2Block e) 0).toNat ≤ p.1)) = some (i, x) →
    answers (.l2Next m e tag) s fun t => t.ended (l2Block e) .ok ∧ t.word ((l2Block e).base + 0x28) = BitVec.ofNat 32 i)
  ∧ (∀ (m : Master) (e : Fin 2) (tag : BitVec 8) (unpaced : Bool) (s : State), s.takes m (l2Block e) →
    natBit (s.arg (l2Block e) 1).toNat 1 = false →
    mapWf (s.pipe e.val).table = true →
    answers (.flushPort m e tag unpaced) s fun t => t.ended (l2Block e) .ok
      ∧ (t.pipe e.val).table = (s.pipe e.val).table.filter fun p =>
        !flushed (s.argBits (l2Block e) 0 0 4) (natBit (s.arg (l2Block e) 1).toNat 0) p.2)

/-- R349 to R354: the prefix commands, the engine's own moves, and the write of a next hop. -/
def Obligations.PrefixCommandsComplete : Prop :=
  (∀ (m : Master) (tag : BitVec 8) (u : State) (slot moves : Nat) (s : State), s.takes m (.sieve 2) →
    prefixOk s.stagedPrefix (s.argBits (.sieve 2) 0 0 8) = true → s.exact s.stagedPrefix (s.argBits (.sieve 2) 0 0 8) = none →
    s.makeRoom (s.argBits (.sieve 2) 0 0 8) = some (u, slot, moves) →
    answers (.prefixInsert m tag) s fun t => t.ended (.sieve 2) .ok
      ∧ t.prefixes = mapSet u.prefixes slot ⟨s.stagedPrefix, s.argBits (.sieve 2) 0 0 8, s.argBits (.sieve 2) 0 8 8⟩
      ∧ t.word ((Block.sieve 2).base + 0x28) = BitVec.ofNat 32 slot ∧ t.word ((Block.sieve 2).base + 0x2C) = BitVec.ofNat 32 moves)
  ∧ (∀ (m : Master) (tag : BitVec 8) (i : Nat) (x : PrefixEntry) (s : State), s.takes m (.sieve 2) →
    s.exact s.stagedPrefix (s.argBits (.sieve 2) 0 0 8) = some (i, x) →
    answers (.prefixDelete m tag) s (fun t => t.ended (.sieve 2) .ok ∧ mapGet t.prefixes i = none)
    ∧ answers (.prefixUpdate m tag) s (fun t => t.ended (.sieve 2) .ok
        ∧ mapGet t.prefixes i = some ⟨x.addr, x.len, s.argBits (.sieve 2) 0 8 8⟩)
    ∧ (natBit (s.arg (.sieve 2) 0).toNat 8 = false → answers (.prefixLookup m tag) s fun t => t.ended (.sieve 2) .ok
        ∧ t.word ((Block.sieve 2).base + 0x28) = BitVec.ofNat 32 i))
  ∧ (∀ (m : Master) (tag : BitVec 8) (i : Nat) (x : PrefixEntry) (s : State), s.takes m (.sieve 2) → natBit (s.arg (.sieve 2) 0).toNat 8 = true →
    s.longest s.stagedPrefix = some (i, x) →
    answers (.prefixLookup m tag) s fun t => t.ended (.sieve 2) .ok ∧ t.word ((Block.sieve 2).base + 0x28) = BitVec.ofNat 32 i
      ∧ t.word ((Block.sieve 2).base + 0x2C) = BitVec.ofNat 32 (x.len + 256 * x.nh))
  ∧ (∀ (m : Master) (tag : BitVec 8) (s : State), s.takes m (.sieve 2) →
    answers (.prefixSearch m tag true) s fun t => t.ended (.sieve 2) .ok ∧ t.prefixes = s.prefixes
      ∧ t.word ((Block.sieve 2).base + 0x28) = BitVec.ofNat 32 (s.prefixes.filter fun p => p.2.nh == s.argBits (.sieve 2) 0 0 8).length)
  ∧ (∀ (m : Master) (tag : BitVec 8) (i : Nat) (x : PrefixEntry) (s : State), s.takes m (.sieve 2) →
    (s.prefixes.find? fun p => decide ((s.arg (.sieve 2) 0).toNat ≤ p.1)) = some (i, x) →
    answers (.prefixNext m tag) s fun t => t.ended (.sieve 2) .ok ∧ t.word ((Block.sieve 2).base + 0x28) = BitVec.ofNat 32 i)
  ∧ (∀ (m : Master) (tag : BitVec 8) (s : State), s.takes m (.sieve 2) →
    answers (.prefixFlushPort m tag) s fun t => t.ended (.sieve 2) .ok ∧ t.prefixes = s.prefixes ∧ ∀ n, n < 256 →
      t.get (R.SIEVEP_NH_HI_PORT n) = if s.get (R.SIEVEP_NH_HI_PORT n) = s.argBits (.sieve 2) 0 0 4 then 15 else s.get (R.SIEVEP_NH_HI_PORT n))
  ∧ (∀ (src dst : BitVec 14) (s : State), s.powered (.sieve 2) = true → s.fenced (.sieve 2) = false → s.busy (.sieve 2) = false →
    (mapGet s.prefixes src.toNat).isSome = true →
    mapGet s.prefixes dst.toNat = none → prefixOrder (s.movePrefix src.toNat dst.toNat).prefixes = true →
    answers (.prefixSpareMove src dst) s fun t => mapGet t.prefixes src.toNat = none ∧ mapGet t.prefixes dst.toNat = mapGet s.prefixes src.toNat)
  ∧ (∀ (m : Master) (n : BitVec 8) (v : W32) (s : State), s.reaches m (.sieve 2) = true → bitsGet 28 4 v < 10 ∨ 13 < bitsGet 28 4 v →
    answers (.nextHopHiWrite m n v) s fun t => t.nextHop n.toNat
      = (s.get (R.SIEVEP_NH_LO_MAC n.toNat) + 2 ^ 32 * bitsGet 0 16 v, bitsGet 16 12 v, bitsGet 28 4 v))

/-- R338 to R344: the lookup of a unicast frame whose destination is in the table; learning, ageing, pins, and the learn FIFO. -/
def Obligations.SieveFrameCommandsComplete : Prop :=
  (∀ (i k p q : Nat) (f : Frame) (y : L2Entry) (s : State), mapGet s.frames i = some f → f.stage = .checked → f.port = p → p < 10 →
    s.powered (pipeBlock (servedBy p)) = true → s.fenced (pipeBlock (servedBy p)) = false → f.hostOnly = false →
    s.on (R.SIEVE_L2_CFG_PIN_DROP (servedBy p)) = false → s.isPtp p f.x = false → s.apPrefix R.SIEVEP_CFG_EN = 0 → isGroup f.x.da = false →
    s.l2Find (servedBy p) f.x.da (f.x.vid.getD 0) = some (k, y) → y.get L.PORT = q →
    (q = p → answers (.sieveFrameLookup i) s fun t =>
      (t.blk (pipeBlock (servedBy p))).led = ((s.blk (pipeBlock (servedBy p))).led.enter 1).lose 1)
    ∧ (q ≠ p → q < 10 → s.handCause q = none → s.groupFenced (txGroup q) = false →
      answers (.sieveFrameLookup i) s fun t => ∃ g, mapGet t.frames i = some g ∧ g.stage = .forwarded ∧ g.egress = [{ port := q }]
        ∧ (t.blk (pipeBlock (servedBy p))).led = ((s.blk (pipeBlock (servedBy p))).led.enter 1).leave 1))
  ∧ (∀ (i w : Nat) (a : BitVec 48) (v : BitVec 12) (f : Frame) (s : State), mapGet s.frames i = some f → f.learn = some (a, v) → f.port < 10 →
    f.errored = false → f.icv = .good →
    s.powered (pipeBlock (servedBy f.port)) = true → s.fenced (pipeBlock (servedBy f.port)) = false →
    s.on (R.SIEVE_L2_CFG_LEARN (servedBy f.port)) = true → isGroup a = false →
    s.l2Find (servedBy f.port) a v = none → s.l2Free (servedBy f.port) a v = some w →
    answers (.learnCommit i) s fun t => ∃ x, mapGet (t.pipe (servedBy f.port)).table w = some x ∧ x.get L.MAC = a.toNat
      ∧ x.get L.FID = v.toNat ∧ x.get L.PORT = f.port ∧ x.get L.VALID = 1 ∧ x.get L.AGE = 0)
  ∧ (∀ (e : Fin 2) (i : Nat) (x : L2Entry) (s : State), s.powered (l2Block e) = true → s.get (R.SIEVE_L2_CFG_AGE e.val) ≠ 0 →
    mapWf (s.pipe e.val).table = true → mapGet (s.pipe e.val).table i = some x → x.on L.STATIC = false → x.on L.PINNED = false →
    answers (.ageSweep e) s fun t => mapGet (t.pipe e.val).table i = if x.get L.AGE < 3 then some (x.put L.AGE (x.get L.AGE + 1)) else none)
  ∧ (∀ (e : Fin 2) (i : BitVec 16) (x : L2Entry) (s : State), s.powered (l2Block e) = true → mapGet (s.pipe e.val).table i.toNat = some x →
    x.on L.PINNED = true → s.get (R.SIEVE_PIN_HOLD_S e.val) ≠ 0 →
    answers (.pinRelease e i) s fun t => mapGet (t.pipe e.val).table i.toNat = some ((x.put L.PINNED 0).put L.MOVES 0))
  ∧ (∀ (m : Master) (e : Fin 2) (n : Notice) (rest : List Notice) (s : State), s.reaches m (l2Block e) = true → (s.pipe e.val).lfifo = n :: rest →
    answers (.sieveLfifoPop m e) s fun t => t.busData = BitVec.ofNat 32 n.mac ∧ (t.pipe e.val).lfifo = rest
      ∧ t.get (ownCopy m (R.SIEVE_LFIFO_W2_VALID e.val)) = 1 ∧ t.get (ownCopy m (R.SIEVE_LFIFO_W2_KIND e.val)) = n.kind % 4)
  ∧ (∀ (m : Master) (e : Fin 2) (s : State), s.reaches m (l2Block e) = true → (s.pipe e.val).lfifo = [] →
    answers (.sieveLfifoPop m e) s fun t => t.busData = 0 ∧ t.get (ownCopy m (R.SIEVE_LFIFO_W2_VALID e.val)) = 0)

/-- R32, R33, R50, R371, R385, R432, R367, R373, R563: a port takes a whole frame into cells; one that finds its FIFO full is cut; below the
admission mark it drops it; a port that is down receives nothing. A frame leaves at a port, or a copy goes to its host queue; the
transmit-stamp FIFO. In the clauses of reception u is the state after the fabric's reads before the frame. -/
def Obligations.PortReceptionAndEgressComplete : Prop :=
  (∀ (p : Fin 10) (n : Nat) (x : FrameFacts) (u s : State), p.val = n → s.linkUp n = true → s.on (R.PORT_MODE_EN n) = true →
    s.boot.forwards = true → s.entering = false → u = ((s.ledIn (portBlock n) 1).rxStats n x).drainBfifo (rxBfifo n) x.before →
    (256 - (u.bfifoOf (rxBfifo n)).writerLevel 256 < s.get R.FAB_ADMIT_MARK_MARK →
      answers (.portFrameRx p x) s fun t => t.frames = s.frames
        ∧ (t.blk (portBlock n)).led = ((s.blk (portBlock n)).led.enter 1).lose 1
        ∧ t.get (R.PORT_DROP_ADMIT_COUNT n) = min (s.get (R.PORT_DROP_ADMIT_COUNT n) + 1) (2 ^ 32 - 1))
    ∧ (s.get R.FAB_ADMIT_MARK_MARK ≤ 256 - (u.bfifoOf (rxBfifo n)).writerLevel 256 → (x.tag.isNone = true → x.etherType ≠ 0x8808) →
      s.swait n = false → cellsOf (s.ap (R.PORT_MTU_OCTETS n)) ≤ s.poolRoom (poolOf (rxGroup n)) → x.octets ≤ s.ap (R.PORT_MTU_OCTETS n) →
      x.eccFix = 0 → x.eccBad = 0 →
      (tokensOf (rxBfifo n) x.octets ≤ 256 - (u.bfifoOf (rxBfifo n)).writerLevel 256 →
        answers (.portFrameRx p x) s fun t => (t.blk (portBlock n)).led = (s.blk (portBlock n)).led.enter 1
          ∧ ∃ f, mapGet t.frames (mapFirstFree s.frames) = some f ∧ f.port = n ∧ f.x = x ∧ f.len = x.octets ∧ f.stage = .fifo
            ∧ f.errored = !x.fcsOk ∧ f.cells.length = cellsOf x.octets ∧ f.stamp = s.portStamp n false)
      ∧ (∀ (v : State) (w : Nat), u.arriveBfifo (rxBfifo n) (tokensOf (rxBfifo n) x.octets) x.during = (v, w) →
        w < tokensOf (rxBfifo n) x.octets → w ≠ 0 →
        answers (.portFrameRx p x) s fun t => (t.blk (portBlock n)).led = ((s.blk (portBlock n)).led.enter 1).lose 1
          ∧ t.get (R.PORT_DROP_TRUNC_COUNT n) = min (s.get (R.PORT_DROP_TRUNC_COUNT n) + 1) (2 ^ 32 - 1)
          ∧ ∃ f, mapGet t.frames (mapFirstFree s.frames) = some f ∧ f.errored = true
            ∧ f.len = min x.octets (w * (bfifoWidth (rxBfifo n) / 8)))))
  ∧ (∀ (p : Fin 10) (x : FrameFacts) (s : State), s.linkUp p.val = false → answers (.portFrameRx p x) s fun t => t = s)
  ∧ (∀ (i p : Nat) (e : BitVec 4) (f : Frame) (g : Egress) (s : State), mapGet s.frames i = some f → e.toNat = p → p < 10 → f.eg p = some g →
    g.st = .inCrust → s.linkUp p = true → f.icv ≠ .pending → f.desc = none →
    answers (.egressStart i e false) s fun t => (t.blk (portBlock p)).led = ((s.blk (portBlock p)).led.enter 1).leave 1
      ∧ ∃ x, (t.port p).last = some x ∧ x.da = f.x.da ∧ x.sa = f.x.sa ∧ x.vid = f.x.vid ∧ x.tag = g.tag ∧ x.fcs = f.fcs)
  ∧ (∀ (i q : Nat) (under : Bool) (f : Frame) (s : State), mapGet s.frames i = some f → f.stage = .forwarded → f.icv ≠ .pending →
    f.toHost = true → f.errored = false → f.egress = [] → f.ctl = false → s.on (R.HOST_MAP_PORT_DVALID f.port) = true →
    s.get (R.HOST_MAP_PORT_DATA f.port) = q → s.descsOf q (f.len - 4) ≤ s.hostCredit q → s.fenced .host = false →
    answers (.egressStart i 14 under) s fun t => ∃ x, (t.queue q).toHost = (s.queue q).toHost ++ [x] ∧ x.kind = 0 ∧ x.src = f.port
      ∧ x.octets = f.len - 4 ∧ x.stamp = some f.stamp ∧ x.cells = f.cells)
  ∧ (∀ (m : Master) (p : Fin 10) (n : Nat) (st : Stamp) (tag : BitVec 16) (ref : Bool) (rest : List (Stamp × BitVec 16 × Bool)) (s : State),
    p.val = n → s.reaches m (portBlock n) = true → (s.port n).tstx = (st, tag, ref) :: rest →
    answers (.portnTstxPop m p) s fun t => t.busData = st.setWidth 32 ∧ (t.port n).tstx = rest
      ∧ t.get (ownCopy m (R.PORT_TSTX_HI_STAMP n)) = st.toNat / 2 ^ 32 ∧ t.get (ownCopy m (R.PORT_TSTX_TAG_TAG n)) = tag.toNat
      ∧ t.on (ownCopy m (R.PORT_TSTX_TAG_VALID n)) = true)
  ∧ (∀ (m : Master) (p : Fin 10) (n : Nat) (s : State), p.val = n → s.reaches m (portBlock n) = true → (s.port n).tstx = [] →
    answers (.portnTstxPop m p) s fun t => t.busData = 0 ∧ t.on (ownCopy m (R.PORT_TSTX_TAG_VALID n)) = false)

/-- R365, R378 to R384, R386: faults, link-down and link-up, degradation, and the commands of a port. -/
def Obligations.PortLinkCommandsComplete : Prop :=
  (∀ (p : Fin 10) (n : Nat) (c : Fin 5) (s : State), p.val = n → s.linkUp n = true → (s.port n).faults.contains (c.val + 1) = false →
    answers (.faultDecided p c) s fun t => (t.port n).faults = (s.port n).faults ++ [c.val + 1] ∧ t.on (R.PORT_LINK_HOLDOFF n) = true
      ∧ t.on (R.PORT_LINK_UP n) = true)
  ∧ (∀ (p : Fin 10) (n c : Nat) (rest : List Nat) (s : State), p.val = n → s.linkUp n = true → (s.port n).faults = c :: rest → c < 8 →
    answers (.linkDown p) s fun t => t.on (R.PORT_LINK_UP n) = false ∧ t.get (R.PORT_LINK_CAUSE n) = c)
  ∧ (∀ (p : Fin 10) (n : Nat) (c : BitVec 3) (s : State), p.val = n → s.powered (portBlock n) = true → (s.port n).faults = [c.toNat] →
    s.on (R.PORT_LINK_FORCED n) = false →
    answers (.faultCleared p c) s fun t => (t.port n).faults = []
      ∧ (if s.on (R.PORT_LINK_UP n) then t.on (R.PORT_LINK_HOLDOFF n) = false else t.on (R.PORT_LINK_HOLDUP n) = true))
  ∧ (∀ (p : Fin 10) (n : Nat) (s : State), p.val = n → s.powered (portBlock n) = true → s.on (R.PORT_LINK_UP n) = false →
    (s.port n).faults = [] → s.on (R.PORT_LINK_FORCED n) = false → s.on (R.PORT_MODE_EN n) = true → s.fwu.unloaded = [] →
    answers (.linkUp p) s fun t => t.linkUp n = true ∧ (s.runOp (portBlock n) = some opRetrain → t.ended (portBlock n) .ok))
  ∧ (∀ (p : Fin 10) (q n blocks unc ber : Nat) (s : State), p.val = q → s.powered (portBlock q) = true → s.get (R.PORT_DEGRADE_THRESH q) ≠ 0 →
    answers (.degradeInterval p n blocks unc ber) s fun t =>
      t.on (R.PORT_LINK_DEGRADE q) = decide (s.get (R.PORT_DEGRADE_THRESH q) < n))
  ∧ (∀ (m : Master) (p : Fin 10) (n : Nat) (v : W32) (s : State), p.val = n → 2 ≤ n → s.reaches m (portBlock n) = true → 1 ≤ bitsGet 4 4 v →
    bitsGet 4 4 v ≤ 4 →
    answers (.portModeWrite m p false v) s fun t => t.get (R.PORT_MODE_EN n) = bitsGet 0 1 v ∧ t.get (R.PORT_MODE_MODE n) = bitsGet 4 4 v
      ∧ 7 ∈ (t.port n).faults ∧ t.on (R.PORT_LINK_UP n) = false ∧ (s.on (R.PORT_LINK_UP n) = true → t.get (R.PORT_LINK_CAUSE n) = 7))
  ∧ (∀ (m : Master) (p : Fin 10) (n : Nat) (tag : BitVec 8) (s : State), p.val = n → s.takes m (portBlock n) →
    answers (.retrain m p tag) s fun t => t.runOp (portBlock n) = some opRetrain ∧ t.busy (portBlock n) = true ∧ 7 ∈ (t.port n).faults
      ∧ t.on (R.PORT_LINK_UP n) = false)
  ∧ (∀ (m : Master) (p : Fin 10) (n : Nat) (tag : BitVec 8) (s : State), p.val = n → s.takes m (portBlock n) →
    natBit (s.arg (portBlock n) 0).toNat 0 = true →
    answers (.forceDown m p tag) s fun t => t.ended (portBlock n) .ok ∧ t.on (R.PORT_LINK_FORCED n) = true ∧ t.on (R.PORT_LINK_UP n) = false)
  ∧ (∀ (m : Master) (p : Fin 10) (n : Nat) (tag : BitVec 8) (s : State), p.val = n → s.takes m (portBlock n) →
    natBit (s.arg (portBlock n) 0).toNat 0 = false →
    answers (.forceDown m p tag) s fun t => t.ended (portBlock n) .ok ∧ t.on (R.PORT_LINK_FORCED n) = false)

/-- R399 to R403, R426: the SA commands, on an SA whose datapath is on and not fenced. -/
def Obligations.SaCommandsComplete : Prop :=
  (∀ (m : Master) (tag : BitVec 8) (i : Nat) (k : KeySlot) (ups : List (Nat × Option KeySlot)) (u s : State), s.takes m (.crust 0) →
    i = (s.arg (.crust 0) 0).toNat → s.powered (dpBlock (dpOfSa i)) = true → s.fenced (dpBlock (dpOfSa i)) = false →
    s.saCheck i s.stagedSa = none → s.fenced .starter = false → s.on R.TAMP_STATE_ALARM = false → s.starter.lc ≠ 0 → s.starter.lc ≠ 4 →
    s.on R.STARTER_STATE_ROOT_BAD = false → s.useSlot (s.argBits (.crust 0) 1 0 10) useSak 11 = (u, .ok k ups) →
    k.key.length = suiteKey s.stagedSa.suite →
    answers (.saInstall m tag) s fun t => t.ended (.crust 0) .ok
      ∧ t.sa i = some { s.stagedSa with key := k.key, hkey := aesEnc k.key (List.replicate 16 0) })
  ∧ (∀ (m : Master) (tag : BitVec 8) (i : Nat) (e : SaEntry) (s : State), s.takes m (.crust 0) → i = (s.arg (.crust 0) 0).toNat →
    s.powered (dpBlock (dpOfSa i)) = true → s.fenced (dpBlock (dpOfSa i)) = false → s.sa i = some e →
    (s.saCur i e = false → s.saArmed i e = false →
      answers (.saDelete m tag) s fun t => t.sa i = none ∧ (s.saInUse i = false → t.ended (.crust 0) .ok)
        ∧ (s.saInUse i = true → t.runOp (.crust 0) = some opSaDelete ∧ t.crust.deleting = some (i, e)))
    ∧ (s.saCur i e = true → answers (.saDelete m tag) s fun t => t.ended (.crust 0) .state ∧ t.crust = s.crust)
    ∧ (i < 16384 → answers (.saRead m tag) s fun t => t.ended (.crust 0) .ok ∧ t.crust = s.crust
        ∧ ∀ w, w < 20 → t.word (R.CRUST_SA_RD_WORD w).a = s.saWord i e w)
    ∧ (∀ pn, pn = (s.arg (.crust 0) 1).toNat + 2 ^ 32 * (s.arg (.crust 0) 2).toNat → (e.suite < 2 → pn < 2 ^ 32) →
        (e.tx = false → e.limit < pn → answers (.saPn m tag) s fun t => t.ended (.crust 0) .ok ∧ t.sa i = some { e with limit := pn })
        ∧ (e.tx = true → answers (.saPn m tag) s fun t => t.ended (.crust 0) .ok
            ∧ t.sa i = some { e with limit := pn, thr := decide (pn ≤ e.next) })))
  ∧ (∀ (i : Nat) (e : SaEntry) (s : State), s.crust.deleting = some (i, e) → s.saInUse i = false →
    answers .saDeleteDrained s fun t => t.ended (.crust 0) .ok ∧ t.crust.deleting = none ∧ t.crust.sas = s.crust.sas)
  ∧ (∀ (m : Master) (v : W32) (suite : Nat) (s : State), s.reaches m (.crust 0) = true → v ≠ 0 → 2 ≤ suite →
    answers (.pnThr64HiWrite m v) s fun t => t.defaultThr suite = s.get R.CRUST_PN_THR64_LO_THRESH + 2 ^ 32 * v.toNat)

/-- R419 to R422, R427: arming, switching and disarming the transmit SA of a port. -/
def Obligations.TransmitSwitchCommandsComplete : Prop :=
  (∀ (m : Master) (x : Fin 3) (tag : BitVec 8) (p i : Nat) (e : SaEntry) (s : State), s.takes m (xBlock x) →
    dpPort x.val (s.argBits (xBlock x) 0 0 3) = some p → s.argBits (xBlock x) 1 0 14 = i → s.sa i = some e → e.port = p → e.tx = true →
    s.curSa p ≠ some i → e.exh = false →
    answers (.txArm m x tag) s fun t => t.ended (xBlock x) .ok ∧ t.armedSa p = some i ∧ t.curSa p = s.curSa p)
  ∧ (∀ (m : Master) (x : Fin 3) (tag : BitVec 8) (p i : Nat) (s : State), s.takes m (xBlock x) →
    dpPort x.val (s.argBits (xBlock x) 0 0 3) = some p → s.armedSa p = some i →
    (s.encrypting p = false ∨ s.linkUp p = false → answers (.txSwitch m x tag) s fun t => t.ended (xBlock x) .ok ∧ t.curSa p = some i
      ∧ t.armedSa p = none)
    ∧ (s.encrypting p = true → s.linkUp p = true → answers (.txSwitch m x tag) s fun t => t.runOp (xBlock x) = some opTxSwitch
      ∧ t.busy (xBlock x) = true ∧ t.curSa p = s.curSa p))
  ∧ (∀ (p : Fin 10) (n i : Nat) (s : State), p.val = n → s.switchWaits n = true → s.encrypting n = false → s.armedSa n = some i →
    answers (.txSwitchApply p) s fun t => t.ended (dpBlock (dpOf n)) .ok ∧ t.curSa n = some i ∧ t.armedSa n = none)
  ∧ (∀ (m : Master) (x : Fin 3) (tag : BitVec 8) (p : Nat) (s : State), s.takes m (xBlock x) →
    dpPort x.val (s.argBits (xBlock x) 0 0 3) = some p →
    answers (.txDisarm m x tag) s fun t => t.ended (xBlock x) .ok ∧ t.armedSa p = none ∧ t.curSa p = s.curSa p)

/-- R391, R392, R404 to R408, R412 to R416: a frame through Crust in both directions, clear and protected, and the outcome of its ICV. -/
def Obligations.CrustFrameCommandsComplete : Prop :=
  (∀ (i p : Nat) (f : Frame) (s : State), mapGet s.frames i = some f → f.stage = .fifo → f.port = p → p < 10 →
    s.powered (dpBlock (dpOf p)) = true → s.fenced (dpBlock (dpOf p)) = false → f.hostOnly = false → f.clear = false →
    (s.apOn (R.CRUSTX_CTL_RX_EN (dpOf p) (pkOf p)) = false →
      answers (.crustRxFrame i) s fun t => ∃ g, mapGet t.frames i = some g ∧ g.stage = .checked ∧ g.portHeld = false ∧ g.icv = f.icv
        ∧ (t.blk (dpBlock (dpOf p))).led = ((s.blk (dpBlock (dpOf p))).led.enter 1).leave 1)
    ∧ (s.apOn (R.CRUSTX_CTL_RX_EN (dpOf p) (pkOf p)) = true → f.x.tag = none → isEapol f.x = false →
      s.apOn (R.CRUSTX_CTL_VALIDATE (dpOf p) (pkOf p)) = false →
      answers (.crustRxFrame i) s fun t => mapGet t.frames i = none
        ∧ (t.blk (dpBlock (dpOf p))).led = ((s.blk (dpBlock (dpOf p))).led.enter 1).lose 1)
    ∧ (∀ (a : TagFacts) (sc : Nat) (e : SaEntry), s.apOn (R.CRUSTX_CTL_RX_EN (dpOf p) (pkOf p)) = true → f.x.tag = some a → a.valid = true →
      a.pn ≠ 0 → s.rxChannel p a = some sc → s.sa (4 * sc + a.an.val) = some e → e.tx = false → e.port = p → f.errored = false →
      s.apOn (R.CRUSTX_REPLAY_RP (dpOf p) (pkOf p)) = false →
      answers (.crustRxFrame i) s fun t => ∃ g, mapGet t.frames i = some g ∧ g.stage = .checked ∧ g.icv = .pending
        ∧ g.rxSa = some (4 * sc + a.an.val) ∧ g.len = f.len - (if a.sci.isSome then 32 else 24)))
  ∧ (∀ (i j : Nat) (f : Frame) (e : SaEntry) (s : State), mapGet s.frames i = some f → f.icv = .pending → f.port < 10 → f.rxSa = some j →
    s.sa j = some e →
    answers (.icvResult i true) s (fun t => ∃ x, t.sa j = some x ∧ x.pktsOk = e.pktsOk + 1 ∧ x.octets = e.octets + f.len
        ∧ x.next = min (max e.next (f.pn + 1)) (if e.suite < 2 then 2 ^ 32 else 2 ^ 64 - 1))
    ∧ answers (.icvResult i false) s fun t => ∃ x, t.sa j = some x ∧ x.pktsBad = e.pktsBad + 1 ∧ x.pktsOk = e.pktsOk ∧ x.next = e.next)
  ∧ (∀ (i n : Nat) (p : Fin 10) (f : Frame) (g : Egress) (s : State), mapGet s.frames i = some f → p.val = n → f.eg n = some g → g.st = .waiting →
    s.linkUp n = true → s.powered (dpBlock (dpOf n)) = true → s.swait n = false → s.groupFenced (txGroup n) = false → s.canStart f n = true →
    (s.apOn (R.CRUSTX_CTL_TX_EN (dpOf n) (pkOf n)) = false →
      answers (.crustTxFrame i p) s fun t => ∃ y, mapGet t.frames i = some y ∧ y.eg n = some { g with st := .inCrust }
        ∧ (t.blk (dpBlock (dpOf n))).led = (s.blk (dpBlock (dpOf n))).led.enter 1)
    ∧ (∀ (j : Nat) (e : SaEntry), s.apOn (R.CRUSTX_CTL_TX_EN (dpOf n) (pkOf n)) = true → isEapol f.x = false → s.isPtp n f.x = false →
      s.switchWaits n = false → s.on (R.CRUSTX_TXSA_EXH (dpOf n) (pkOf n)) = false → s.curSa n = some j → s.sa j = some e → e.exh = false →
      s.groupFenced (saGroup (dpOf n)) = false → f.len + 32 ≤ 9216 →
      answers (.crustTxFrame i p) s fun t => ∃ y h a x, mapGet t.frames i = some y ∧ y.eg n = some h ∧ h.st = .inCrust ∧ h.tag = some a
        ∧ a.sa = j ∧ a.pn = e.next ∧ t.sa j = some x ∧ x.next = min (e.next + 1) (2 ^ 64 - 1) ∧ x.pktsOk = e.pktsOk + 1
        ∧ x.octets = e.octets + f.len))

/-- R440, R441, R451, R454, R457, R459, R443 to R445, R460: Rack's commands and the expiry of a lease. The FIFOs of drop records and of trace
entries. -/
def Obligations.RackCommandsComplete : Prop :=
  (∀ (q : Fin 64) (s : State), s.pdOn 3 = true → s.get R.RACK_LEASE_MS ≠ 0 → (s.link (10 + q.val)).host ≠ 0 →
    (s.link (10 + q.val)).waiting = true → (s.link (10 + q.val)).producer = 0 → s.queueUp q.val = true →
    answers (.leaseExpiry q) s fun t => t.get (R.HOST_Q_STATE_STATE q.val) = 2 ∧ (t.link (10 + q.val)).host = 0
      ∧ (t.queue q.val).toHost = [] ∧ t.cellsOfOwner (64 + q.val) true = [])
  ∧ (∀ (m : Master) (tag : BitVec 8) (s : State), s.takes m .rack →
    answers (.census m tag true) s fun t => t.ended .rack .ok ∧ t.word (Block.rack.base + 0x28) = BitVec.ofNat 32 s.censusRows.length
      ∧ t.rack.tags = s.rack.tags)
  ∧ (∀ (m : Master) (tag : BitVec 8) (n : Nat) (s : State), s.takes m .rack → s.argBits .rack 0 0 8 = n → s.reclaimable n = true →
    answers (.reclaim m tag) s fun t => t.ended .rack .ok ∧ t.cellsOfOwner n true = []
      ∧ t.word (Block.rack.base + 0x28) = BitVec.ofNat 32 (s.cellsOfOwner n true).length)
  ∧ (∀ (m : Master) (tag : BitVec 8) (s : State), s.takes m .rack →
    answers (.snapAll m tag) s fun t => t.ended .rack .ok ∧ t.word (Block.rack.base + 0x28) = BitVec.ofNat 32 s.short
      ∧ ∀ p ∈ t.rack.links, p.2.snapSent = p.2.sent ∧ p.2.snapAccepted = p.2.accepted)
  ∧ (∀ (m : Master) (tag : BitVec 8) (l : Nat) (s : State), s.takes m .rack → s.argBits .rack 0 0 8 = l → l < 142 →
    answers (.linkRead m tag) s fun t => t.ended .rack .ok
      ∧ t.word (Block.rack.base + 0x28) = BitVec.ofNat 32 ((s.link l).producer + 2 ^ 16 * (s.link l).flight)
      ∧ t.word (Block.rack.base + 0x2C) = BitVec.ofNat 32 ((s.link l).host + 2 ^ 16 * (s.link l).parked))
  ∧ (∀ (m : Master) (tag : BitVec 8) (n : Nat) (s : State), s.takes m .rack → s.argBits .rack 0 0 8 = n → ownerUsed n = true →
    answers (.ownerRead m tag) s fun t => t.ended .rack .ok
      ∧ t.word (Block.rack.base + 0x28) = BitVec.ofNat 32 (s.cellsOfOwner n false).length)
  ∧ (∀ (m : Master) (tag : BitVec 8) (q : Nat) (s : State), s.takes m .rack → s.argBits .rack 0 0 6 = q → s.get (R.HOST_Q_STATE_STATE q) ≠ 2 →
    answers (.revoke m tag) s fun t => t.ended .rack .ok ∧ t.get (R.HOST_Q_STATE_STATE q) = 2 ∧ t.cellsOfOwner (64 + q) true = [])
  ∧ (∀ (m : Master) (d : DropRec) (rest : List DropRec) (s : State), s.reaches m .rack = true → s.rack.drops = d :: rest →
    answers (.rackDroprecPop m) s fun t => t.busData = d.ns ∧ t.rack.drops = rest
      ∧ ∀ i, 1 ≤ i → i ≤ 3 → t.word (ownCopy m (R.RACK_DROPREC_W_WORD i)).a = nth d.words i 0)
  ∧ (∀ (m : Master) (s : State), s.reaches m .rack = true → s.rack.drops = [] →
    answers (.rackDroprecPop m) s fun t => t.busData = 0 ∧ t.word (ownCopy m (R.RACK_DROPREC_W_WORD 3)).a = 0 ∧ t.rack = s.rack)
  ∧ (∀ (m : Master) (e : TraceEntry) (rest : List TraceEntry) (s : State), s.reaches m .rack = true → s.rack.trace = e :: rest → e.bit < 32 →
    answers (.rackTracePop m) s fun t => t.busData = e.ns ∧ t.rack.trace = rest ∧ t.on (ownCopy m R.RACK_TRACE_W1_VALID) = true
      ∧ t.get (ownCopy m R.RACK_TRACE_W1_BIT) = e.bit)
  ∧ (∀ (m : Master) (s : State), s.reaches m .rack = true → s.rack.trace = [] →
    answers (.rackTracePop m) s fun t => t.busData = 0 ∧ t.on (ownCopy m R.RACK_TRACE_W1_VALID) = false ∧ t.rack = s.rack)

/-- R468 to R488, R504: the commands that make a key, into a volatile slot from a source whose use count asks no update of the journal. -/
def Obligations.KeyMakingCommandsComplete : Prop :=
  (∀ (m : Master) (tag : BitVec 8) (dst len ll cl : Nat) (k : KeySlot) (u s : State), s.takes m .starter → s.keysOpen →
    dst = s.argBits .starter 0 0 10 → dst < 512 → len = (if s.argBits .starter 0 21 1 = 1 then 32 else 16) → s.argBits .starter 0 20 1 = 0 →
    s.argBits .starter 1 0 8 = 0 → ll = s.argBits .starter 1 8 8 → cl = s.argBits .starter 1 16 8 → ll ≠ 0 → ll + cl ≤ 64 →
    s.makeCheck dst (s.arg .starter 2) (s.argBits .starter 3 0 24) len = none → (s.starterData 64).take ll ≠ ascii "GZ-NK" →
    s.useSlot (s.argBits .starter 0 10 10) useDerive (masterOwnerBit m) = (u, .ok k []) →
    answers (.derive m tag) s fun t => t.ended .starter .ok ∧ mapGet t.starter.slots dst = some (madeSlot (s.arg .starter 2)
      (s.argBits .starter 3 0 24) (kdf k.key ((s.starterData 64).take ll)
        ([0] ++ List.replicate 48 0 ++ ((s.starterData 64).drop ll).take cl) len)))
  ∧ (∀ (m : Master) (tag : BitVec 8) (dst bl : Nat) (k : KeySlot) (u s : State), s.takes m .starter → s.keysOpen →
    dst = s.argBits .starter 0 0 10 → dst < 512 → s.argBits .starter 0 20 2 = 0 → bl = s.argBits .starter 1 0 8 → bl = 24 ∨ bl = 40 →
    s.makeCheck dst (s.arg .starter 2) (s.argBits .starter 3 0 24) (bl - 8) = none →
    s.useSlot (s.argBits .starter 0 10 10) useKek (masterOwnerBit m) = (u, .ok k []) →
    (∀ x, kwUnwrap k.key (s.starterData bl) = some x → answers (.unwrap m tag) s fun t => t.ended .starter .ok
      ∧ mapGet t.starter.slots dst = some (madeSlot (s.arg .starter 2) (s.argBits .starter 3 0 24) x))
    ∧ (kwUnwrap k.key (s.starterData bl) = none → answers (.unwrap m tag) s fun t => t.ended .starter .auth
      ∧ t.starter.slots = u.starter.slots))
  ∧ (∀ (m : Master) (tag : BitVec 8) (k q : KeySlot) (u v s : State), s.takes m .starter → s.keysOpen →
    s.useSlot (s.argBits .starter 0 0 10) useWrappable (masterOwnerBit m) = (u, .ok k []) →
    u.useSlot (s.argBits .starter 0 10 10) useKek (masterOwnerBit m) = (v, .ok q []) →
    answers (.wrap m tag) s fun t => t.ended .starter .ok ∧ t.starter.out = kwWrap q.key k.key ∧ t.starter.outFor = some m)
  ∧ (∀ (m : Master) (tag : BitVec 8) (dst len : Nat) (s : State), s.takes m .starter → s.keysOpen → dst = s.argBits .starter 0 0 10 → dst < 512 →
    len = (if s.argBits .starter 0 21 1 = 1 then 32 else 16) →
    s.makeCheck dst (s.arg .starter 2) (s.argBits .starter 3 0 24) len = none →
    answers (.generate m tag) s fun t => t.ended .starter .ok ∧ ∃ key, key.length = len
      ∧ mapGet t.starter.slots dst = some (madeSlot (s.arg .starter 2) (s.argBits .starter 3 0 24) key))
  ∧ (∀ (m : Master) (tag : BitVec 8) (dst cl : Nat) (k : KeySlot) (u s : State), s.takes m .starter → s.keysOpen →
    dst = s.argBits .starter 0 10 10 → dst < 512 → cl = s.argBits .starter 1 0 8 → 1 ≤ cl → cl ≤ 32 →
    s.makeCheck dst ((s.arg .starter 2 &&& 0x2700#32) ||| 2#32) uncounted k.key.length = none →
    mapGet s.starter.slots (s.argBits .starter 0 0 10) = some k →
    s.useSlot (s.argBits .starter 0 0 10) useCak (masterOwnerBit m) = (u, .ok k []) →
    answers (.mkaKeys m tag) s fun t => t.ended .starter .ok
      ∧ t.starter.out = mkaKdf k.key (ascii "IEEE8021 ICK") ((s.starterData cl ++ List.replicate 16 0).take 16) k.key.length
      ∧ ∃ x, mapGet t.starter.slots dst = some x
        ∧ x.key = mkaKdf k.key (ascii "IEEE8021 KEK") ((s.starterData cl ++ List.replicate 16 0).take 16) k.key.length)

/-- R480, R482, R484, R490, R504: slots are zeroed and shown; a retained slot changes when its update commits. -/
def Obligations.SlotCommandsComplete : Prop :=
  (∀ (m : Master) (tag : BitVec 8) (slot : Nat) (k : KeySlot) (s : State), s.takes m .starter → s.keysOpen → slot = s.argBits .starter 0 0 10 →
    slot < 572 → mapGet s.starter.slots slot = some k → k.has (masterOwnerBit m) = true →
    (slot < 512 → answers (.slotZero m tag) s fun t => t.ended .starter .ok ∧ mapGet t.starter.slots slot = none)
    ∧ (512 ≤ slot → s.pfWarn = false → answers (.slotZero m tag) s fun t => t.busy .starter = true ∧ t.starter.slots = s.starter.slots
        ∧ ∃ o, t.starter.op = some o ∧ o.updates = [(slot, none)]))
  ∧ (∀ (m : Master) (tag : BitVec 8) (slot : Nat) (k : KeySlot) (s : State), s.takes m .starter → s.starter.lc ≠ 0 →
    slot = s.argBits .starter 0 0 10 → slot < 572 → mapGet s.starter.slots slot = some k →
    answers (.slotInfo m tag) s fun t => t.ended .starter .ok ∧ t.word (Block.starter.base + 0x28) = k.attrs
      ∧ t.word (Block.starter.base + 0x2C) = BitVec.ofNat 32 k.count ∧ t.starter.slots = s.starter.slots)
  ∧ (∀ (o : KeyOp) (slot : Nat) (new : Option KeySlot) (s : State), s.starter.op = some o → o.updates = [(slot, new)] → o.makes = none →
    o.item = none →
    answers .retainedUpdateCommit s fun t => t.ended .starter (if o.auth then .auth else .ok) ∧ t.starter.op = none
      ∧ mapGet t.starter.slots slot = new ∧ t.starter.jseq slot = s.starter.jseq slot + 1)
  ∧ (∀ (o : KeyOp) (slot next : Nat) (new x : Option KeySlot) (rest : List (Nat × Option KeySlot)) (s : State), s.starter.op = some o →
    o.updates = (slot, new) :: (next, x) :: rest →
    answers .retainedUpdateCommit s fun t => mapGet t.starter.slots slot = new ∧ t.starter.op = some { o with updates := (next, x) :: rest })

/-- R97, R466, R476 to R479, R489, R502, R504: measurements, the life cycle, the end of legacy formats, Peel's items and inline derivation. -/
def Obligations.StarterDeviceCommandsComplete : Prop :=
  (∀ (c : Fin 4) (tag : BitVec 8) (s : State), s.takes (.core c) .starter → s.keysOpen → s.argBits .starter 0 0 3 = 6 → s.argBits .starter 0 9 1 = 0 →
    nth s.starter.mcLock 6 false = false → s.starter.mc.length = 8 →
    answers (.mcExtend (.core c) tag) s fun t => t.ended .starter .ok
      ∧ nth t.starter.mc 6 [] = sha384 (nth s.starter.mc 6 [] ++ s.starterData 48))
  ∧ (∀ (m : Master) (tag : BitVec 8) (s : State), s.takes m .starter → s.starter.lc ≠ 0 →
    answers (.mcRead m tag) s fun t => t.ended .starter .ok ∧ t.starter.out = nth s.starter.mc (s.argBits .starter 0 0 3) []
      ∧ t.starter.outFor = some m)
  ∧ (∀ (m : Master) (tag : BitVec 8) (target : Nat) (s : State), s.takes m .starter → s.keysOpen → m ≠ .host →
    target = s.argBits .starter 0 0 3 → lcStep s.starter.lc target = true → s.arg .starter 1 = 0x1CAD →
    answers (.lcAdvance m tag) s fun t => t.ended .starter .ok ∧ t.starter.lc = target ∧ t.starter.slots = [] ∧ t.resetAsked = some 2)
  ∧ (∀ (m : Master) (tag : BitVec 8) (s : State), s.takes m .starter → s.keysOpen → s.arg .starter 1 = 0x4120 →
    answers (.legacyOff m tag) s fun t => t.ended .starter .ok ∧ t.starter.legacyOff = true)
  ∧ (∀ (id dst : Nat) (it : Item) (u v s : State) (k : KeySlot) (a0 a1 a2 a3 : W32) (data : List Nat), s.pdOn 1 = true →
    s.groupFenced 56 = false → s.starter.op = none → s.keysOpen → s.takeReady 4 = some (u, id, it) → a0 = nth it.words 4 0 →
    a1 = nth it.words 5 0 → a2 = nth it.words 6 0 → a3 = nth it.words 7 0 →
    data = ((it.words.drop 8).take 4).flatMap (fun x => (leOctets 4 x.toNat).map (·.toNat)) → dst = bitsGet 0 10 a0 → dst < 512 →
    bitsGet 20 1 a0 = 0 → bitsGet 0 8 a1 = 0 → bitsGet 8 8 a1 ≠ 0 → bitsGet 8 8 a1 + bitsGet 16 8 a1 ≤ 16 →
    s.makeCheck dst a2 (bitsGet 0 24 a3) (if bitsGet 21 1 a0 = 1 then 32 else 16) = none → data.take (bitsGet 8 8 a1) ≠ ascii "GZ-NK" →
    s.useSlot (bitsGet 10 10 a0) useDerive (if it.producer = 0 then 8 else if it.producer = 1 then 9 else 10) = (v, .ok k []) →
    answers .deriveItem s fun t => ∃ w : State, t = w.finishItem id .ok 0 ∧ ∃ x, mapGet w.starter.slots dst = some x
      ∧ x.key = kdf k.key (data.take (bitsGet 8 8 a1))
        ([0] ++ List.replicate 48 0 ++ (data.drop (bitsGet 8 8 a1)).take (bitsGet 16 8 a1)) (if bitsGet 21 1 a0 = 1 then 32 else 16))
  ∧ (∀ (h : BitVec 18) (n : Fin 4) (k : Fin 32) (e : NodeEntry) (c : Ctx) (mk : KeySlot) (s : State), s.node h.toNat = some e →
    s.ctx n.val k.val = some c → s.groupFenced 56 = false → s.meshKey (e.get N.KEY_EPOCH / 64) = some mk →
    mk.count = uncounted ∨ s.pfWarn = false →
    answers (.inlineDerive h false n k) s fun t => t.ctx n.val k.val = some { c with keyed := true })

/-- R493 to R501: what a tamper source does, zeroisation, and the registers of the monitor. -/
def Obligations.TamperCommandsComplete : Prop :=
  (∀ (src : Fin 8) (s : State), s.pdOn 0 = true → s.boot = .running → s.entering = false → s.on (R.TAMP_CFG_EN src.val) = true →
    answers (.tamperDecided src) s fun t => natBit (t.get R.TAMP_STATE_ACTIVE) src.val = true
      ∧ (2 ≤ s.get (R.TAMP_CFG_RESP src.val) → t.on R.TAMP_STATE_ALARM = true)
      ∧ (s.get (R.TAMP_CFG_RESP src.val) = 3 → t.starter.zeroing = true ∧ t.crust.sas = [] ∧ t.starter.cache = []
        ∧ ∀ x ∈ t.starter.slots, 512 ≤ x.1)
      ∧ (s.get (R.TAMP_CFG_RESP src.val) ≠ 0 → ∃ x, t.tamp.log.getLast? = some x ∧ x.src = src.val ∧ x.resp = s.get (R.TAMP_CFG_RESP src.val)))
  ∧ (∀ (src : Fin 8) (s : State), s.pdOn 0 = true → s.boot = .aon → 2 ≤ natBits (s.get R.TAMP_FLOOR_RESP) (2 * src.val) 2 →
    answers (.tamperDecided src) s fun t => t.boot = .tamperHold ∧ t.on R.TAMP_STATE_THOLD = true ∧ t.on R.TAMP_STATE_ALARM = true)
  ∧ (∀ (src : Fin 8) (s : State), s.pdOn 0 = true →
    answers (.tamperSourceCleared src) s fun t => natBit (t.get R.TAMP_STATE_ACTIVE) src.val = false)
  ∧ (∀ (s : State), s.starter.zeroing = true → s.pdOn 1 = true →
    answers .zeroizeDone s fun t => t.starter.zeroing = false ∧ t.starter.copies = [] ∧ ∀ x ∈ t.starter.slots, x.1 < 512)
  ∧ (∀ (s : State), s.pdOn 0 = true → answers .tampMeshPattern s fun t => t.tamp.patterns = s.tamp.patterns + 1)
  ∧ (∀ (m : Master) (v : BitVec 32) (s : State), s.reaches m .tamp = true → natBit v.toNat 0 = true → s.get R.TAMP_STATE_ACTIVE = 0 →
    answers (.tampClear m v) s fun t => t.on R.TAMP_STATE_ALARM = false)
  ∧ (∀ (m : Master) (v : BitVec 32) (s : State), s.reaches m .tamp = true → s.get R.TAMP_STATE_ACTIVE ≠ 0 →
    answers (.tampClear m v) s fun t => t.on R.TAMP_STATE_ALARM = s.on R.TAMP_STATE_ALARM)
  ∧ (∀ (m : Master) (v : BitVec 32) (s : State), s.reaches m .tamp = true → natBit v.toNat 0 = true →
    answers (.tampLock m v) s fun t => t.on R.TAMP_STATE_LOCKED = true)
  ∧ (∀ (tag : BitVec 8) (s : State), s.takes .spi .tamp → s.boot = .tamperHold → s.get R.TAMP_STATE_ACTIVE = 0 →
    answers (.thRelease .spi tag) s fun t => t.ended .tamp .ok ∧ t.boot = .aon ∧ t.on R.TAMP_STATE_THOLD = false)
  ∧ (∀ (m : Master) (tag : BitVec 8) (s : State), s.takes m .tamp → m ≠ .spi → answers (.thRelease m tag) s fun t => t.ended .tamp .locked ∧ t.boot = s.boot)
  ∧ (∀ (m : Master) (x : TampEntry) (rest : List TampEntry) (s : State), s.reaches m .tamp = true → s.tamp.log = x :: rest →
    answers (.tampLogPop m) s fun t => t.busData = BitVec.ofNat 32 x.ticks ∧ t.tamp.log = rest
      ∧ t.word (ownCopy m R.TAMP_LOG_W1_TICKS).a
        = BitVec.ofNat 32 (x.ticks / 2 ^ 32 + x.src * 2 ^ 16 + x.phase * 2 ^ 19 + x.resp * 2 ^ 22 + 2 ^ 31))

/-- R510 to R513, R508, R529 to R531: PROOF_POST_GO from a control core, with room and without; from another master it is refused. The PD2 rail,
the publication buffer, the seal port. -/
def Obligations.ProoferPortCommandsComplete : Prop :=
  (∀ (c : Fin 4) (s : State), s.hears (.core c) = true → s.prooferRuns = true → 1 ≤ s.get (ownCopy (.core c) (R.PROOF_POST_W_WORD 0)) % 256 →
    s.get (ownCopy (.core c) (R.PROOF_POST_W_WORD 0)) % 256 ≤ 3 → s.proof.queue.length < holdSize →
    answers (.proofPost (.core c)) s fun t => t.get (ownCopy (.core c) R.PROOF_POST_RES_CODE) = Code.ok.num
      ∧ t.get (ownCopy (.core c) R.PROOF_POST_NUM_NUM) = (s.proof.last + 1) % 2 ^ 32 ∧ (t.blk .proof).led = (s.blk .proof).led.enter 1
      ∧ ∃ e, t.proof.queue = s.proof.queue ++ [e] ∧ e.num = (s.proof.last + 1) % 2 ^ 32 ∧ e.gen = s.tb.stepgen)
  ∧ (∀ (c : Fin 4) (s : State), s.hears (.core c) = true → s.prooferRuns = true → 1 ≤ s.get (ownCopy (.core c) (R.PROOF_POST_W_WORD 0)) % 256 →
    s.get (ownCopy (.core c) (R.PROOF_POST_W_WORD 0)) % 256 ≤ 3 → holdSize ≤ s.proof.queue.length →
    answers (.proofPost (.core c)) s fun t => t.get (ownCopy (.core c) R.PROOF_POST_RES_CODE) = Code.full.num ∧ t.proof = s.proof)
  ∧ (∀ (m : Master) (s : State), s.hears m = true → s.prooferRuns = true → (∀ c, m ≠ .core c) →
    answers (.proofPost m) s fun t => t.get (ownCopy m R.PROOF_POST_RES_CODE) = Code.locked.num ∧ t.proof = s.proof
      ∧ t.get R.PROOF_REFUSED_CNT_COUNT = min (s.get R.PROOF_REFUSED_CNT_COUNT + 1) (2 ^ 32 - 1))
  ∧ (∀ (s : State), s.prooferRuns = true → answers .pd2Undervolt s fun t => t.prooferRuns = false ∧ t.proof.queue = [] ∧ t.proof.pub = []
    ∧ t.proof.records = s.proof.records ∧ t.proof.log = s.proof.log ∧ t.proof.head = s.proof.head)
  ∧ (∀ (s : State), s.pdOn 2 = true → s.proof.runs = false → s.pfWarn = false → s.proof.log.length < logSize →
    answers .pd2Restart s fun t => t.prooferRuns = true ∧ t.proof.queue = [] ∧ (mapGet t.proof.log (s.proof.log.length + 1)).isSome = true)
  ∧ (∀ (m : Master) (seq : BitVec 32) (r : List Nat) (s : State), s.hears m = true → s.prooferRuns = true → s.record seq.toNat = some r →
    answers (.proofPubSelWrite m seq) s fun t =>
      mapGet t.proof.selected m.idx = some (if s.proof.pub.contains seq.toNat then r else []))
  ∧ (∀ (s : State), s.prooferRuns = true → answers .sealIdent s fun t => ∃ tail, t.proof.response
      = sealResponse 1 0 (leList 4 s.proof.version ++ leList 2 s.proof.iface ++ s.proof.hash ++ leList 16 Config.uid.toNat
        ++ leList 4 s.proof.sealCnt ++ tail))
  ∧ (∀ (arg : BitVec 32) (s : State), s.prooferRuns = true → answers (.sealLogRead arg) s fun t => t.proof.response
      = if s.proof.log.length < arg.toNat then sealResponse 2 1 []
        else sealResponse 2 0 ((List.range 8).flatMap fun i => (mapGet s.proof.log (arg.toNat + i)).getD []))
  ∧ (∀ (arg : BitVec 32) (s : State), s.prooferRuns = true → answers (.sealRegRead arg) s fun t => t.proof.response
      = if s.proof.head < arg.toNat then sealResponse 3 1 [] else if arg.toNat + registerSize ≤ s.proof.head then sealResponse 3 2 []
        else sealResponse 3 0 ((List.range 8).flatMap fun i => (s.record (arg.toNat + i)).getD []))
  ∧ (∀ (s : State) (r l : List Nat), s.prooferRuns = true → s.record s.proof.head = some r → mapGet s.proof.log s.proof.log.length = some l →
    answers .sealHeads s fun t => t.proof.response = sealResponse 4 0 (r ++ l))
  ∧ (∀ (cmd : BitVec 8) (s : State), s.prooferRuns = true → cmd = 0 ∨ 4 < cmd.toNat →
    answers (.sealUnknownCmd cmd) s fun t => t.proof.response = sealResponse cmd.toNat 0xFF [])
  ∧ (∀ (s : State), s.prooferRuns = true → answers .sealRequestDiscard s fun t => t.proof.response = [])

/-- R514 to R518, R525, R527, R528: what Proofer does with the entry it takes; the clauses on images read no result of the signature check in a
hypothesis. -/
def Obligations.ProoferEntriesComplete : Prop :=
  (∀ (e : ProofEntry) (k : KeySlot) (g : Nat) (s : State), s.nextEntry 1 = some e → nth e.octets 1 0 = g → g < 4 → s.pdOn 1 = true →
    s.groupFenced 56 = false → s.meshKey g = some k →
    (cmac (nodeKey k.key (beNum (slice e.octets 8 8)) (nth e.octets 2 0) 0x10) (slice e.octets 8 24)).take 8 = slice e.octets 32 8 →
    answers .proofReading s fun t => t.proof.queue = s.proof.queue.drop 1 ∧ t.proof.head = s.proof.head + 1
      ∧ (t.blk .proof).led = (s.blk .proof).led.leave 1 ∧ t.get R.PROOF_OK_CNT_COUNT = min (s.get R.PROOF_OK_CNT_COUNT + 1) (2 ^ 32 - 1)
      ∧ ∃ r, mapGet t.proof.records ((s.proof.head + 1) % registerSize) = some r ∧ r.take 4 = leList 4 (s.proof.head + 1))
  ∧ (∀ (e : ProofEntry) (s : State), s.nextEntry 1 = some e → 4 ≤ nth e.octets 1 0 →
    answers .proofReading s fun t => t.proof.head = s.proof.head ∧ t.get R.PROOF_REJ_CAUSE_CAUSE = 3 ∧ (t.blk .proof).led = (s.blk .proof).led.lose 1)
  ∧ (∀ (e : ProofEntry) (s : State), s.nextEntry 2 = some e → nth e.octets 1 0 = 2 → nth e.octets 2 0 = 0 →
    (e.octets.drop 12).all (· == 0) = true → s.logFull = false → 1 ≤ leNum (slice e.octets 8 4) → leNum (slice e.octets 8 4) ≤ 600 →
    leNum (slice e.octets 8 4) ≠ s.proof.age →
    answers .proofParam s fun t => t.proof.age = leNum (slice e.octets 8 4) ∧ t.proof.queue = s.proof.queue.drop 1
      ∧ (t.blk .proof).led = (s.blk .proof).led.leave 1 ∧ t.proof.sealCnt = (s.proof.sealCnt + 1) % 2 ^ 32
      ∧ (mapGet t.proof.log (s.proof.log.length + 1)).isSome = true)
  ∧ (∀ (e : ProofEntry) (s : State), s.nextEntry 3 = some e → nth e.octets 1 0 < 2 → nth e.octets 2 0 = 0 →
    (e.octets.drop 8).all (· == 0) = true → s.logFull = false →
    answers .proofActivate s fun t => t.proof.queue = s.proof.queue.drop 1 ∧ ∀ c x, s.verifyImage (6 + nth e.octets 1 0) = (c, x) →
      (c = .ok → s.proof.version ≤ x.version → t.on R.PROOF_STATE_PAUSED = true ∧ ∃ a, t.proof.act = some a ∧ a.slot = nth e.octets 1 0
        ∧ a.version = x.version)
      ∧ (c ≠ .ok → t.on R.PROOF_STATE_PAUSED = false ∧ t.proof.act = none ∧ t.get R.PROOF_REJ_CAUSE_CAUSE = 3 ∧ t.proof.version = s.proof.version))
  ∧ (∀ (a : ProofAct) (pass : Bool) (s : State), s.proof.act = some a → s.prooferRuns = true → s.pfWarn = false →
    answers (.proofSelftestEnd pass) s fun t => t.proof.act = none ∧ t.on R.PROOF_STATE_PAUSED = false
      ∧ t.proof.version = (if pass then a.version else s.proof.version) ∧ t.proof.slot = (if pass then a.slot else s.proof.slot)
      ∧ (t.blk .proof).led = if pass then (s.blk .proof).led.leave 1 else (s.blk .proof).led.lose 1)

/-- R533, R535, R538, R553: the commands on slots, on sets of images, and on update keys. -/
def Obligations.SlotImageCommandsComplete : Prop :=
  (∀ (m : Master) (tag : BitVec 8) (slot : Nat) (s : State), s.takes m .fwu → s.argBits .fwu 0 0 3 = slot → s.slotBusy slot = false →
    answers (.slotErase m tag) s fun t => t.ended .fwu .ok ∧ ∀ i, i < slotSize slot → t.norOctet (slotBase slot + i) = 0xFF)
  ∧ (∀ (m : Master) (tag : BitVec 8) (slot off src len : Nat) (s : State), s.takes m .fwu → s.argBits .fwu 0 0 3 = slot →
    (s.arg .fwu 1).toNat = off → (s.arg .fwu 2).toNat = src → (s.arg .fwu 3).toNat = len → off % 256 = 0 → src % 8 = 0 → len ≠ 0 →
    len % 256 = 0 → off + len ≤ slotSize slot → src + len ≤ exchangeSize → s.slotBusy slot = false →
    answers (.slotWrite m tag) s fun t => t.ended .fwu .ok ∧ ∀ i, i < len → s.norOctet (slotBase slot + off + i) = 0xFF →
      t.norOctet (slotBase slot + off + i) = (Memory.read s.dram (src + i)).toNat)
  ∧ (∀ (m : Master) (tag : BitVec 8) (slot : Nat) (c : Code) (x : SlotInfo) (s : State), s.takes m .fwu → s.argBits .fwu 0 0 3 = slot →
    s.verifyImage slot = (c, x) →
    answers (.slotVerify m tag) s fun t => t.ended .fwu c ∧ mapGet t.fwu.slots slot = some { x with verified := c == .ok, result := c.num })
  ∧ (∀ (m : Master) (tag : BitVec 8) (s : State), s.takes m .fwu → s.argBits .fwu 0 0 3 ≠ 0 → s.argBits .fwu 2 0 16 ≠ 0 →
    (s.checkSets s.namedParts (s.argBits .fwu 2 0 16) = none → answers (.check m tag) s fun t => t.ended .fwu .ok ∧ t.fwu = s.fwu)
    ∧ (∀ a b, s.checkSets s.namedParts (s.argBits .fwu 2 0 16) = some (a, b) → answers (.check m tag) s fun t => t.ended .fwu .state
      ∧ t.word (Block.fwu.base + 0x28) = BitVec.ofNat 32 a ∧ t.word (Block.fwu.base + 0x2C) = BitVec.ofNat 32 b ∧ t.fwu = s.fwu))
  ∧ (∀ (m : Master) (tag : BitVec 8) (k j : Nat) (s : State), s.takes m .fwu → s.argBits .fwu 0 0 2 = k → s.arg .fwu 1 = 0x4B1D → j < 4 → j ≠ k →
    natBit s.fwu.revoked j = false →
    answers (.keyRevoke m tag) s fun t => t.ended .fwu .ok ∧ natBit t.fwu.revoked k = true ∧ natBit t.fwu.revoked j = false)

/-- R539 to R544, R546 to R549, R551: an activation begins, goes on unit by unit, and ends; the loading of a unit reads no result of the
signature check in a hypothesis. A trial is confirmed, falls back on command, or at the end of its window. -/
def Obligations.ActivationAndTrialCommandsComplete : Prop :=
  (∀ (m : Master) (tag : BitVec 8) (s : State), s.takes m .fwu → s.argBits .fwu 0 0 3 ≠ 0 → s.checkSets s.namedParts s.proof.iface = none →
    s.mayActivate s.namedParts = true →
    answers (.activate m tag) s fun t => t.runOp .fwu = some opActivate ∧ t.busy .fwu = true ∧ t.fwu.phase = 1 ∧ t.fwu.prev = s.fwu.run
      ∧ ∃ a, t.fwu.act = some a ∧ a.parts = s.namedParts ∧ a.stage = .start ∧ a.done = [])
  ∧ (∀ (a : Activation) (u : Nat) (rest : List Nat) (s : State), s.fwu.act = some a → a.units = u :: rest → a.stage = .start → a.stop = false →
    s.fenced .fwu = false → s.pfWarn = false → s.pdOn 3 = true → s.pdOn (unitDomain u) = true → u = 0 ∨ 5 ≤ u →
    answers .activateUnit s fun t => t.fwu.act = some { a with stage := .back } ∧ nth t.fwu.trial u false = decide (u < s.fwu.trial.length)
      ∧ t.get R.FWU_STATE_UNIT = u % 16)
  ∧ (∀ (a : Activation) (u : Nat) (s : State), s.fwu.act = some a → a.units = [u] → a.stage = .back → s.fenced .fwu = false → s.pfWarn = false → s.pdOn 3 = true →
    5 ≤ u → s.linkUp (unitPort u) = true →
    answers .activateUnit s fun t => t.ended .fwu .ok ∧ t.fwu.act = none ∧ t.fwu.phase = (if s.fwu.trial.contains true then 2 else 0)
      ∧ t.word (Block.fwu.base + 0x2C) = BitVec.ofNat 32 (a.done.length + 1))
  ∧ (∀ (a : Activation) (u v : Nat) (rest : List Nat) (s : State), s.fwu.act = some a → a.units = u :: v :: rest → a.stage = .back →
    a.stop = false → s.fenced .fwu = false → s.pfWarn = false → s.pdOn 3 = true → 5 ≤ u → s.linkUp (unitPort u) = true →
    answers .activateUnit s fun t => t.fwu.act = some { a with units := v :: rest, stage := .start, done := a.done ++ [u] })
  ∧ (∀ (a : Activation) (u : Nat) (rest : List Nat) (s : State), s.fwu.act = some a → a.units = u :: rest → a.stage = .back →
    s.fenced .fwu = false → s.pfWarn = false → 5 ≤ u → s.linkUp (unitPort u) = false →
    answers .linkWaitTimeout s fun t => t.ended .fwu .timeout ∧ t.fwu.act = none ∧ t.on R.FWU_STATE_PARTIAL = true
      ∧ nth t.fwu.trial u false = false)
  ∧ (∀ (a : Activation) (u : Nat) (rest : List Nat) (s : State), s.fwu.act = some a → a.units = u :: rest → a.stage = .drain →
    s.fenced .fwu = false → s.pfWarn = false →
    answers .fwuDrainExpired s fun t => t.fwu.act = some { a with stage := .back })
  ∧ (∀ (a : Activation) (s : State), s.fwu.act = some a → a.units = [0] → a.stage = .back → s.pfWarn = false →
    answers .ctrlFirmwareRunning s fun t => t.ended .fwu .ok ∧ t.fwu.act = none)
  ∧ (∀ (c : Fin 4) (tag : BitVec 8) (s : State), s.takes (.core c) .fwu → s.fwu.phase = 2 → s.pfWarn = false →
    answers (.confirm (.core c) tag) s fun t => t.ended .fwu .ok ∧ t.fwu.phase = 0 ∧ t.fwu.run = s.fwu.run ∧ t.fwu.trial = List.replicate 15 false)
  ∧ (∀ (m : Master) (tag : BitVec 8) (s : State), s.takes m .fwu → (∀ c, m ≠ .core c) →
    answers (.confirm m tag) s fun t => t.ended .fwu .locked ∧ t.fwu = s.fwu)
  ∧ (∀ (m : Master) (tag : BitVec 8) (s : State), s.takes m .fwu → s.arg .fwu 0 = 0xFA11 → s.fwu.phase = 2 → s.pfWarn = false →
    answers (.fallback m tag) s fun t => t.resetAsked = some 3 ∧ t.busy .fwu = true ∧ t.fwu.phase = 0 ∧ t.fwu.fbCause = 2
      ∧ t.fwu.run = (List.range 15).map fun u => if nth s.fwu.trial u false then nth s.fwu.prev u false else nth s.fwu.run u false)
  ∧ (∀ (s : State), s.fwu.phase = 2 → s.pdOn 3 = true → s.pfWarn = false →
    answers .trialWindowExpired s fun t => t.resetAsked = some 3 ∧ t.fwu.phase = 0 ∧ t.fwu.fbCause = 1)

/-- R555 to R557, R597, R559, R560, R564, R566: the PCIe link comes and goes; every queue that was up is revoked; a DMA error. Queue pairs are
created and deleted; the host hands descriptors back and posts them. -/
def Obligations.PcieLinkAndQueuePairCommandsComplete : Prop :=
  (∀ (q : Nat) (s : State), s.powered .host = true → q < 64 →
    answers .pcieLinkLoss s (fun t => t.get R.HOST_LINK_SPEED = 0 ∧ t.get R.HOST_LINK_WIDTH = 0
      ∧ t.get R.HOST_LINK_DOWNS = (s.get R.HOST_LINK_DOWNS + 1) % 2 ^ 16 ∧ (s.queueUp q = true → t.get (R.HOST_Q_STATE_STATE q) = 2))
    ∧ answers .pcieFlr s (fun t => t.get R.HOST_LINK_SPEED = s.get R.HOST_LINK_SPEED ∧ (s.queueUp q = true → t.get (R.HOST_Q_STATE_STATE q) = 2))
    ∧ answers .perst s fun t => t.get R.HOST_LINK_SPEED = 0 ∧ (s.queueUp q = true → t.get (R.HOST_Q_STATE_STATE q) = 2))
  ∧ (∀ (speed : Fin 4) (width : Fin 3) (s : State), s.powered .host = true →
    answers (.pcieLinkUp speed width) s fun t => t.get R.HOST_LINK_SPEED = speed.val + 1 ∧ t.get R.HOST_LINK_WIDTH = 2 ^ width.val)
  ∧ (∀ (q : Fin 64) (s : State), s.queueUp q.val = true →
    answers (.dmaError false q) s fun t => t.get (R.HOST_Q_STATE_STATE q.val) = 2 ∧ (t.queue q.val).toHost = [])
  ∧ (∀ (q : Fin 64) (s : State), s.powered .crc = true → s.crcRuns (q.val % 24) = true →
    answers (.dmaError true q) s fun t => t.get (R.CRC_STAT_STATE (q.val % 24)) = 3
      ∧ t.get (R.CRC_STAT_RESULT (q.val % 24)) = Code.aborted.num ∧ (t.blk .crc).led = (s.blk .crc).led.lose 1)
  ∧ (∀ (m : Master) (tag : BitVec 8) (q : Nat) (s : State), s.takes m .host → s.argBits .host 0 0 6 = q → s.get (R.HOST_Q_STATE_STATE q) ≠ 1 →
    s.queueOk q = true →
    answers (.qCreate m tag) s fun t => t.ended .host .ok ∧ t.get (R.HOST_Q_STATE_STATE q) = 1
      ∧ (t.link (10 + q)).c = 2 ^ s.get (R.HOST_Q_CFG_RXLOG2 q) ∧ (t.link (10 + q)).producer = 2 ^ s.get (R.HOST_Q_CFG_RXLOG2 q)
      ∧ (t.link (74 + q)).producer = s.get (R.HOST_Q_CFG_TXC q) ∧ (t.link (10 + q)).host = 0)
  ∧ (∀ (m : Master) (tag : BitVec 8) (q : Nat) (s : State), s.takes m .host → s.argBits .host 0 0 6 = q → s.get (R.HOST_Q_STATE_STATE q) ≠ 0 →
    answers (.qDelete m tag) s fun t => t.ended .host .ok ∧ t.get (R.HOST_Q_STATE_STATE q) = 0 ∧ (t.link (10 + q)).c = 0 ∧ (t.link (74 + q)).c = 0)
  ∧ (∀ (m : Master) (q : Fin 64) (n : BitVec 13) (l : Nat) (s : State), s.reaches m .host = true → l = 10 + q.val →
    (n.toNat ≤ (s.link l).host → answers (.rxRet m q n) s fun t => (t.link l).host = (s.link l).host - n.toNat
      ∧ (t.link l).producer = (s.link l).producer + n.toNat ∧ (t.link l).c = (s.link l).c)
    ∧ ((s.link l).host < n.toNat → answers (.rxRet m q n) s fun t => t = s.refuse .host (0x1018 + 0x40 * q.val)))
  ∧ (∀ (m : Master) (q : Fin 64) (n : BitVec 13) (l : Nat) (s : State), s.hears m = true → s.queueUp q.val = true → l = 74 + q.val →
    (n.toNat ≤ (s.link l).producer → answers (.txPost m q n) s fun t => (t.link l).producer = (s.link l).producer - n.toNat
      ∧ (t.link l).consumer = (s.link l).consumer + n.toNat ∧ (t.queue q.val).posted = (s.queue q.val).posted + n.toNat)
    ∧ ((s.link l).producer < n.toNat → answers (.txPost m q n) s fun t => t = s.refuse .host (0x101C + 0x40 * q.val)))

/-- R439, R561 to R567: a frame of the host goes to a port or is parked; a packet for the host, and a message of control firmware. -/
def Obligations.HostPacketCommandsComplete : Prop :=
  (∀ (q : Fin 64) (n : BitVec 14) (dest : Fin 16) (d : Nat) (ts one : Bool) (tag : BitVec 16) (offset : BitVec 14) (x : FrameFacts) (data : List Octet)
    (s : State),
    s.queueUp q.val = true → s.fenced .host = false → (s.queue q.val).posted ≠ 0 → 1 ≤ n.toNat → n.toNat ≤ 9212 → dest.val = d → d ≤ 9 →
    cellsOf (n.toNat + 4) ≤ s.poolRoom (poolOf (64 + q.val)) → s.powered (portBlock d) = true → s.powered (dpBlock (dpOf d)) = true →
    s.credit d = true → s.groupFenced (txGroup d) = false →
    answers (.txDescriptorFetch q n dest ts one tag offset x data) s fun t => (t.queue q.val).posted = (s.queue q.val).posted - 1
      ∧ (t.blk .host).led = ((s.blk .host).led.enter 1).leave 1
      ∧ ∃ f, mapGet t.frames (mapFirstFree s.frames) = some f ∧ f.x.da = x.da ∧ f.len = n.toNat + 4 ∧ f.stage = .forwarded
        ∧ f.egress = [{ port := d }] ∧ f.cells.length = cellsOf (n.toNat + 4))
  ∧ (∀ (q : Fin 64) (n : BitVec 14) (ts one : Bool) (tag : BitVec 16) (offset : BitVec 14) (x : FrameFacts) (data : List Octet)
    (s : State),
    s.queueUp q.val = true → s.fenced .host = false → (s.queue q.val).posted ≠ 0 → 1 ≤ n.toNat → n.toNat ≤ 2047 →
    cellsOf n.toNat ≤ s.poolRoom (poolOf (64 + q.val)) →
    answers (.txDescriptorFetch q n 15 ts one tag offset x data) s fun t => (t.queue q.val).posted = (s.queue q.val).posted - 1
      ∧ ∃ cell p, mapGet t.host.parked cell = some p ∧ p.queue = q.val ∧ p.octets = n.toNat ∧ p.cells.length = cellsOf n.toNat
        ∧ p.cells.head? = some cell)
  ∧ (∀ (q : Fin 64) (p : HostPkt) (rest : List HostPkt) (s : State), s.queueUp q.val = true → s.fenced .host = false →
    (s.queue q.val).toHost = p :: rest →
    answers (.hostDeliver q none) s fun t => (t.queue q.val).toHost = rest ∧ (t.queue q.val).seq = (s.queue q.val).seq + 1
      ∧ (t.queue q.val).rxIdx = ((s.queue q.val).rxIdx + p.descs) % 2 ^ s.get (R.HOST_Q_CFG_RXLOG2 q.val)
      ∧ (t.blk .host).led = (s.blk .host).led.leave 1 ∧ (t.link (10 + q.val)).host = (s.link (10 + q.val)).host + p.descs)
  ∧ (∀ (q : Fin 64) (c : Fin 4) (n : BitVec 18) (k : Nat) (s : State), s.pdOn 13 = true → s.fenced .host = false → 0 < n.toNat →
    cellsOf n.toNat ≤ s.poolRoom (poolOf (52 + c.val)) → s.on R.HOST_MAP_FW_VALID = true → s.get R.HOST_MAP_FW_Q = k →
    s.descsOf k n.toNat ≤ s.hostCredit k →
    answers (.hostDeliver q (some (c, n))) s fun t => ∃ x, (t.queue k).toHost = (s.queue k).toHost ++ [x] ∧ x.kind = 2 ∧ x.src = c.val
      ∧ x.octets = n.toNat ∧ x.cells.length = cellsOf n.toNat)
  ∧ (∀ (cell : Nat) (p : Parked) (s : State), mapGet s.host.parked cell = some p →
    answers (.parkExpired cell) s fun t => mapGet t.host.parked cell = none ∧ (t.blk .host).led = (s.blk .host).led.lose 1)

/-- R571, R572, R558: the coalescing timers and the unmasking of a vector. A write through BAR2 stores its octets there and changes no other; a
read returns what stands there. -/
def Obligations.HostTimersAndWindowCommandsComplete : Prop :=
  (∀ (q : Fin 64) (s : State), s.powered .host = true → s.on (R.HOST_Q_COAL_US q.val) = true → (s.queue q.val).rxSince ≠ 0 →
    answers (.coalTimer q false) s fun t => (t.queue q.val).rxSince = 0 ∧ (t.queue q.val).txSince = (s.queue q.val).txSince)
  ∧ (∀ (q : Fin 64) (s : State), s.powered .host = true → s.on (R.HOST_Q_COAL_US q.val) = true → (s.queue q.val).txSince ≠ 0 →
    answers (.coalTimer q true) s fun t => (t.queue q.val).txSince = 0 ∧ (t.queue q.val).rxSince = (s.queue q.val).rxSince)
  ∧ (∀ (m : Master) (v : Fin 64) (f : Fld) (s : State), s.reaches m .host = true → f = ⟨(R.HOST_MSIX_PBA_PEND (v.val / 32)).a, v.val % 32, 1⟩ →
    answers (.msixUnmask m v) s fun t => t.on (R.HOST_MSIX_CTL_MASK v.val) = false ∧ t.on f = false
      ∧ mapGetD t.msixSent v.val 0 = mapGetD s.msixSent v.val 0 + if s.on f then 1 else 0)
  ∧ (∀ (a : BitVec 28) (n : BitVec 12) (l : List Octet) (s : State), s.powered .host = true → s.dramCanonical →
    answers (.bar2Access true a n l) s fun t => ∀ b, Memory.read t.dram b
      = if a.toNat ≤ b ∧ b < a.toNat + l.length ∧ b < dramSize then l.getD (b - a.toNat) 0 else Memory.read s.dram b)
  ∧ (∀ (a : BitVec 28) (n : BitVec 12) (l : List Octet) (s : State), s.powered .host = true → a.toNat + n.toNat ≤ dramSize →
    answers (.bar2Access false a n l) s fun t => t.host.bar2 = (List.range n.toNat).map (fun i => Memory.read s.dram (a.toNat + i))
      ∧ t.dram = s.dram)

/-- R576 to R581, R585, R574, R599, R600: a check-value channel starts, stops, and ends with the check value of the octets it read. Transactions
of the management SPI, and a GPIO input that changes. -/
def Obligations.CheckValueSpiGpioCommandsComplete : Prop :=
  (∀ (m : Master) (c : Fin 24) (s : State), s.reaches m .crc = true → s.crcRuns c.val = false → s.fenced .crc = false →
    s.get (R.CRC_LEN_OCTETS c.val) ≠ 0 → s.get (R.CRC_CFG_MODE c.val) ≠ 2 →
    answers (.crcGo m c) s fun t => t.crcRuns c.val = true ∧ (t.blk .crc).led = (s.blk .crc).led.enter 1)
  ∧ (∀ (m : Master) (c : Fin 24) (s : State), s.reaches m .crc = true → s.crcRuns c.val = false → s.fenced .crc = true →
    answers (.crcGo m c) s fun t => t.get (R.CRC_STAT_RESULT c.val) = Code.fenced.num ∧ t.crcRuns c.val = false
      ∧ (t.blk .crc).led = ((s.blk .crc).led.enter 1).catch 1)
  ∧ (∀ (m : Master) (c : Fin 24) (s : State), s.reaches m .crc = true → s.crcRuns c.val = true →
    answers (.crcGo m c) s (fun t => t = s.refuse .crc (0x1018 + 0x40 * c.val))
    ∧ answers (.crcStop m c) s fun t => t.get (R.CRC_STAT_STATE c.val) = 3 ∧ t.get (R.CRC_STAT_RESULT c.val) = Code.aborted.num
      ∧ (t.blk .crc).led = (s.blk .crc).led.lose 1)
  ∧ (∀ (c : Fin 24) (l : List Octet) (alg : Nat) (s : State), s.powered .crc = true → s.crcRuns c.val = true →
    s.get (R.CRC_CFG_MODE c.val) = 0 → s.on (R.CRC_CFG_FIRST c.val) = true → s.on (R.CRC_CFG_LAST c.val) = true →
    s.on (R.CRC_CFG_SRC_SP c.val) = false → s.get (R.CRC_CFG_ALG c.val) = alg → s.get (R.CRC_LEN_OCTETS c.val) = l.length →
    answers (.crcJobDone c l) s fun t => t.get64 (R.CRC_VAL_LO_VALUE c.val) (R.CRC_VAL_HI_VALUE c.val) = crcOf alg (l.map (·.toNat)) % 2 ^ 64
      ∧ t.get (R.CRC_STAT_RESULT c.val) = Code.ok.num ∧ t.get (R.CRC_STAT_STATE c.val) = 2
      ∧ (t.blk .crc).led = (s.blk .crc).led.leave 1)
  ∧ (∀ (a : BitVec 24) (words : List (BitVec 32)) (c : BitVec 16) (risen : Bool) (s : State), s.pdOn 0 = true →
    risen = false ∨ c ≠ spiWriteCrc a words → answers (.spiWrite a words c risen) s fun t => t = { s with spiErr := s.spiErr + 1 })
  ∧ (∀ (b : Block) (i : Fin 4) (v : BitVec 32) (s : State), s.pdOn 0 = true → s.powered b = true →
    answers (.spiWrite (BitVec.ofNat 24 (b.base + 0x14 + 4 * i.val)) [v] (spiWriteCrc (BitVec.ofNat 24 (b.base + 0x14 + 4 * i.val)) [v]) true) s
      fun t => t = s.setWord (b.base + 0x14 + 4 * i.val) v)
  ∧ (∀ (b : Block) (i : Fin 4) (s : State), s.pdOn 0 = true → s.powered b = true →
    answers (.spiRead (BitVec.ofNat 24 (b.base + 0x14 + 4 * i.val)) 0 (spiReadCrc (BitVec.ofNat 24 (b.base + 0x14 + 4 * i.val)) 0)) s
      fun t => t.spiData = [s.arg b i.val] ∧ t.regs = s.regs)
  ∧ (∀ (pin : Fin 48) (level : Bool) (s : State), s.powered .gpio = true → pin.val ≠ 24 ∨ s.boot ≠ .hold →
    s.on (pinFld R.GPIO_IN0_LEVEL R.GPIO_IN1_LEVEL pin.val) ≠ level →
    answers (.gpioInputChange pin level) s fun t => t.on (pinFld R.GPIO_IN0_LEVEL R.GPIO_IN1_LEVEL pin.val) = level
      ∧ t.on (pinFld R.GPIO_CHG0_CHG R.GPIO_CHG1_CHG pin.val) = true)
end

