-- ==== Sys2Proof/Laws/AMap.lean ====
section
/-! SUPPORT. The laws of finite maps: reading after writing, erasing, the canonical form. -/

namespace Sys2Proof.Machine

@[simp] theorem mapGet_nil {α : Type} (k : Nat) : mapGet ([] : AMap α) k = none := rfl

@[simp] theorem mapGet_mapSet_same {α : Type} (m : AMap α) (k : Nat) (v : α) : mapGet (mapSet m k v) k = some v := by
  induction m with
  | nil => simp [mapSet, mapGet]
  | cons x r ih =>
    obtain ⟨k', w⟩ := x
    by_cases h : k < k'
    · simp [mapSet, mapGet, h]
    · by_cases e : k' = k
      · simp [mapSet, mapGet, e]
      · simp [mapSet, mapGet, h, e, ih]

theorem mapGet_mapSet_ne {α : Type} (m : AMap α) {k j : Nat} (v : α) (hj : k ≠ j) : mapGet (mapSet m k v) j = mapGet m j := by
  induction m with
  | nil => simp [mapSet, mapGet, hj]
  | cons x r ih =>
    obtain ⟨k', w⟩ := x
    by_cases h : k < k'
    · simp [mapSet, mapGet, h, hj]
    · by_cases e : k' = k
      · subst e; simp [mapSet, mapGet, hj]
      · simp [mapSet, mapGet, h, e, ih]

/-- Reading a map after a write. -/
theorem mapGet_mapSet {α : Type} (m : AMap α) (k j : Nat) (v : α) :
    mapGet (mapSet m k v) j = if k = j then some v else mapGet m j := by
  by_cases h : k = j
  · subst h; simp
  · simp [h, mapGet_mapSet_ne m v h]

/-- Reading a map with a default after a write. -/
theorem mapGetD_mapSet {α : Type} (m : AMap α) (k j : Nat) (v d : α) :
    mapGetD (mapSet m k v) j d = if k = j then v else mapGetD m j d := by
  unfold mapGetD; rw [mapGet_mapSet]; split <;> rfl

@[simp] theorem mapGetD_mapSet_same {α : Type} (m : AMap α) (k : Nat) (v d : α) : mapGetD (mapSet m k v) k d = v := by
  simp [mapGetD_mapSet]

/-- Reading a map after a key is erased. -/
theorem mapGet_mapErase {α : Type} (m : AMap α) (k j : Nat) :
    mapGet (mapErase m k) j = if k = j then none else mapGet m j := by
  induction m with
  | nil => simp [mapErase, mapGet]
  | cons x r ih =>
    obtain ⟨k', w⟩ := x
    have step : mapErase ((k', w) :: r) k = if k' = k then mapErase r k else (k', w) :: mapErase r k := by
      by_cases e : k' = k <;> simp [mapErase, e]
    rw [step]
    by_cases e : k' = k
    · subst e
      rw [if_pos rfl, ih]
      by_cases h : k' = j
      · simp [h]
      · simp [h, mapGet]
    · rw [if_neg e]
      by_cases h : k' = j
      · subst h; simp [mapGet, Ne.symm e]
      · simp [mapGet, h, ih]

/-- Every key after a write is an old one or the one written. -/
theorem mem_mapSet {α : Type} {m : AMap α} {k : Nat} {v : α} {x : Nat × α} (h : x ∈ mapSet m k v) : x = (k, v) ∨ x ∈ m := by
  induction m with
  | nil => simpa [mapSet] using h
  | cons y r ih =>
    obtain ⟨k', w⟩ := y
    simp only [mapSet] at h
    split at h
    · rcases List.mem_cons.1 h with h | h
      · exact .inl h
      · exact .inr h
    · split at h
      · rcases List.mem_cons.1 h with h | h
        · exact .inl h
        · exact .inr (List.mem_cons_of_mem _ h)
      · rcases List.mem_cons.1 h with h | h
        · exact .inr (h ▸ List.mem_cons_self)
        · rcases ih h with h | h
          · exact .inl h
          · exact .inr (List.mem_cons_of_mem _ h)

/-- A new key makes the map longer by one. -/
theorem mapSet_length_new {α : Type} (m : AMap α) (k : Nat) (v : α) (h : mapGet m k = none) : (mapSet m k v).length = m.length + 1 := by
  induction m with
  | nil => rfl
  | cons x r ih =>
    obtain ⟨k', w⟩ := x
    simp only [mapGet] at h
    split at h
    · cases h
    · rename_i ne
      simp only [mapSet]
      split
      · rfl
      · simp only [List.length_cons, ih h]

/-- The canonical form as a chain. -/
theorem mapWf_cons {α : Type} (x : Nat × α) (r : AMap α) :
    mapWf (x :: r) = true ↔ (∀ y, r.head? = some y → x.1 < y.1) ∧ mapWf r = true := by
  cases r with
  | nil => simp [mapWf]
  | cons y r => obtain ⟨k, v⟩ := x; obtain ⟨k', v'⟩ := y; simp [mapWf]

theorem mapSet_head {α : Type} (m : AMap α) (k : Nat) (v : α) (y : Nat × α) (h : (mapSet m k v).head? = some y) :
    y.1 = k ∨ m.head? = some y := by
  cases m with
  | nil => simp [mapSet] at h; exact .inl (h ▸ rfl)
  | cons x r =>
    obtain ⟨k', w⟩ := x
    simp only [mapSet] at h
    split at h
    · simp at h; exact .inl (h ▸ rfl)
    · split at h
      · simp at h; exact .inl (h ▸ rfl)
      · exact .inr h

/-- A write keeps the canonical form. -/
theorem mapWf_mapSet {α : Type} (m : AMap α) (k : Nat) (v : α) (h : mapWf m = true) : mapWf (mapSet m k v) = true := by
  induction m with
  | nil => rfl
  | cons x r ih =>
    obtain ⟨k', w⟩ := x
    have hr := ((mapWf_cons _ _).1 h).2
    have hh := ((mapWf_cons _ _).1 h).1
    simp only [mapSet]
    split
    · rename_i c
      exact (mapWf_cons _ _).2 ⟨fun y hy => by simp at hy; subst hy; exact c, h⟩
    · rename_i c
      split
      · rename_i e
        subst e
        exact (mapWf_cons _ _).2 ⟨hh, hr⟩
      · rename_i e
        refine (mapWf_cons _ _).2 ⟨fun y hy => ?_, ih hr⟩
        rcases mapSet_head r k v y hy with h | h
        · simp only; omega
        · exact hh y h

end Sys2Proof.Machine
end

