-- ==== Sys2Proof/Laws/Bfifo.lean ====
section
/-! SUPPORT. What the operations of Machine/Bfifo.lean do to a boundary FIFO. -/

namespace Sys2Proof.Machine

/-- A writer writes no more than it has, and all of it where there is room. -/
theorem BFifo.fits_le (d n taken late : Nat) (f : BFifo) : f.fits d n taken late ≤ n := by
  unfold BFifo.fits; dsimp only; split <;> omega

theorem BFifo.fits_room (d n taken late : Nat) (f : BFifo) (h : n ≤ d - f.writerLevel d) : f.fits d n taken late = n := by
  simp [BFifo.fits, h]

/-- Of tokens that arrive, those the FIFO has room for are written, whatever the fabric reads late. -/
theorem State.arriveBfifo_written (s : State) (i n reads : Nat) : ∃ late, (s.arriveBfifo i n reads).2
    = (s.bfifoOf i).fits (bfifoDepth i) n (min reads ((s.bfifoOf i).level (bfifoDepth i) + n)) late :=
  ⟨s.draw.1 % 4, rfl⟩

/-- Another FIFO stays as it is. -/
theorem State.setBfifo_other (s : State) (i j : Nat) (f : BFifo → BFifo) (h : j ≠ i) : (s.setBfifo i f).bfifoOf j = s.bfifoOf j := by
  simp [State.setBfifo, State.bfifoOf, mapGetD, mapGet_mapSet_ne _ _ h.symm]

/-- Both pointers move on by what passed. -/
theorem BFifo.pass_pointers (d n : Nat) (val : Nat → Nat) (f : BFifo) :
    (f.pass d n val).wr = (f.wr + n) % (2 * d) ∧ (f.pass d n val).rd = (f.rd + n) % (2 * d) := ⟨rfl, rfl⟩

end Sys2Proof.Machine
end

