-- ==== Sys2Proof/Laws/Coding.lean ====
section
/-! SUPPORT. Octets and their bits on the air, and the FCS of a frame. -/

namespace Sys2Proof.Machine

/-- Eight bits to an octet. -/
theorem sentBits_length (l : List Octet) : (sentBits l).length = 8 * l.length := by
  induction l with
  | nil => rfl
  | cons b r ih => simp only [sentBits, List.flatMap_cons, List.length_append] at ih ⊢; simp [ih]; omega

theorem packBits_length (l : List Bool) : (packBits l).length = l.length / 8 := by simp [packBits]

/-- An octet is what its bits say. -/
theorem packBits_octet : ∀ b : Octet, BitVec.ofNat 8 (msbNum (((List.range 8).map fun i => b.getLsbD i)).reverse) = b := by decide +kernel

/-- Octets come back from their bits. -/
theorem packBits_sentBits (l : List Octet) : packBits (sentBits l) = l := by
  induction l with
  | nil => rfl
  | cons b r ih =>
    have hb : ((List.range 8).map fun i => b.getLsbD i).length = 8 := by simp
    have hs : sentBits (b :: r) = ((List.range 8).map fun i => b.getLsbD i) ++ sentBits r := rfl
    have hn : (sentBits (b :: r)).length / 8 = r.length + 1 := by rw [sentBits_length, List.length_cons]; omega
    unfold packBits
    rw [hn, List.range_succ_eq_map, List.map_cons, List.map_map]
    refine congr (congrArg List.cons ?_) ?_
    · rw [hs]
      simp only [Nat.mul_zero, List.drop_zero]
      rw [List.take_append_of_le_length (by omega), List.take_of_length_le (by omega)]
      exact packBits_octet b
    · have e := ih
      unfold packBits at e
      rw [sentBits_length, Nat.mul_div_cancel_left _ (by decide)] at e
      refine Eq.trans (List.map_congr_left fun i _ => ?_) e
      have hd : (sentBits (b :: r)).drop (8 * (i + 1)) = (sentBits r).drop (8 * i) := by
        rw [hs, Nat.mul_add, Nat.add_comm, List.drop_append, List.drop_of_length_le (by omega), hb]
        simp
      simp only [Function.comp, Nat.succ_eq_add_one, hd]

theorem fcsOctets_length (four : Bool) (l : List Octet) : (fcsOctets four l).length = if four then 4 else 2 := by
  cases four <;> simp [fcsOctets, packBits_length, msbBits]

/-- A frame that ends with its FCS has a good one. -/
theorem fcsGood_withFcs (four : Bool) (l : List Octet) : fcsGood four (withFcs four l) = true := by
  have h : (withFcs four l).length - (if four then 4 else 2) = l.length := by
    simp [withFcs, fcsOctets_length]
  simp only [fcsGood, h]
  simp [withFcs]

end Sys2Proof.Machine
end

