-- ==== Sys2Proof/Laws/State.lean ====
section
/-! SUPPORT. One lemma per field of State per named update: what the update leaves alone. -/

namespace Sys2Proof.Machine

variable (s : State)

/-! ### `State.setWord` -/

@[simp] theorem State.setWord_applied (a : Nat) (v : W32) : (s.setWord a v).applied = s.applied := rfl
@[simp] theorem State.setWord_blocks (a : Nat) (v : W32) : (s.setWord a v).blocks = s.blocks := rfl
@[simp] theorem State.setWord_devCommit (a : Nat) (v : W32) : (s.setWord a v).devCommit = s.devCommit := rfl
@[simp] theorem State.setWord_offWrites (a : Nat) (v : W32) : (s.setWord a v).offWrites = s.offWrites := rfl
@[simp] theorem State.setWord_unmapped (a : Nat) (v : W32) : (s.setWord a v).unmapped = s.unmapped := rfl
@[simp] theorem State.setWord_spiErr (a : Nat) (v : W32) : (s.setWord a v).spiErr = s.spiErr := rfl
@[simp] theorem State.setWord_gov (a : Nat) (v : W32) : (s.setWord a v).gov = s.gov := rfl
@[simp] theorem State.setWord_bfifo (a : Nat) (v : W32) : (s.setWord a v).bfifo = s.bfifo := rfl
@[simp] theorem State.setWord_tb (a : Nat) (v : W32) : (s.setWord a v).tb = s.tb := rfl
@[simp] theorem State.setWord_trig (a : Nat) (v : W32) : (s.setWord a v).trig = s.trig := rfl
@[simp] theorem State.setWord_rack (a : Nat) (v : W32) : (s.setWord a v).rack = s.rack := rfl
@[simp] theorem State.setWord_boot (a : Nat) (v : W32) : (s.setWord a v).boot = s.boot := rfl
@[simp] theorem State.setWord_entering (a : Nat) (v : W32) : (s.setWord a v).entering = s.entering := rfl
@[simp] theorem State.setWord_wake (a : Nat) (v : W32) : (s.setWord a v).wake = s.wake := rfl
@[simp] theorem State.setWord_peel (a : Nat) (v : W32) : (s.setWord a v).peel = s.peel := rfl
@[simp] theorem State.setWord_dir (a : Nat) (v : W32) : (s.setWord a v).dir = s.dir := rfl
@[simp] theorem State.setWord_ret (a : Nat) (v : W32) : (s.setWord a v).ret = s.ret := rfl
@[simp] theorem State.setWord_host (a : Nat) (v : W32) : (s.setWord a v).host = s.host := rfl
@[simp] theorem State.setWord_wb (a : Nat) (v : W32) : (s.setWord a v).wb = s.wb := rfl
@[simp] theorem State.setWord_phy (a : Nat) (v : W32) : (s.setWord a v).phy = s.phy := rfl
@[simp] theorem State.setWord_rf (a : Nat) (v : W32) : (s.setWord a v).rf = s.rf := rfl
@[simp] theorem State.setWord_mac (a : Nat) (v : W32) : (s.setWord a v).mac = s.mac := rfl
@[simp] theorem State.setWord_bcn (a : Nat) (v : W32) : (s.setWord a v).bcn = s.bcn := rfl
@[simp] theorem State.setWord_flood (a : Nat) (v : W32) : (s.setWord a v).flood = s.flood := rfl
@[simp] theorem State.setWord_starter (a : Nat) (v : W32) : (s.setWord a v).starter = s.starter := rfl
@[simp] theorem State.setWord_tamp (a : Nat) (v : W32) : (s.setWord a v).tamp = s.tamp := rfl
@[simp] theorem State.setWord_ports (a : Nat) (v : W32) : (s.setWord a v).ports = s.ports := rfl
@[simp] theorem State.setWord_frames (a : Nat) (v : W32) : (s.setWord a v).frames = s.frames := rfl
@[simp] theorem State.setWord_sieve (a : Nat) (v : W32) : (s.setWord a v).sieve = s.sieve := rfl
@[simp] theorem State.setWord_prefixes (a : Nat) (v : W32) : (s.setWord a v).prefixes = s.prefixes := rfl
@[simp] theorem State.setWord_crust (a : Nat) (v : W32) : (s.setWord a v).crust = s.crust := rfl
@[simp] theorem State.setWord_proof (a : Nat) (v : W32) : (s.setWord a v).proof = s.proof := rfl
@[simp] theorem State.setWord_fwu (a : Nat) (v : W32) : (s.setWord a v).fwu = s.fwu := rfl
@[simp] theorem State.setWord_crc (a : Nat) (v : W32) : (s.setWord a v).crc = s.crc := rfl
@[simp] theorem State.setWord_tap (a : Nat) (v : W32) : (s.setWord a v).tap = s.tap := rfl
@[simp] theorem State.setWord_nor (a : Nat) (v : W32) : (s.setWord a v).nor = s.nor := rfl
@[simp] theorem State.setWord_qspi (a : Nat) (v : W32) : (s.setWord a v).qspi = s.qspi := rfl
@[simp] theorem State.setWord_resetAsked (a : Nat) (v : W32) : (s.setWord a v).resetAsked = s.resetAsked := rfl
@[simp] theorem State.setWord_dram (a : Nat) (v : W32) : (s.setWord a v).dram = s.dram := rfl
@[simp] theorem State.setWord_busData (a : Nat) (v : W32) : (s.setWord a v).busData = s.busData := rfl
@[simp] theorem State.setWord_spiData (a : Nat) (v : W32) : (s.setWord a v).spiData = s.spiData := rfl
@[simp] theorem State.setWord_msixSent (a : Nat) (v : W32) : (s.setWord a v).msixSent = s.msixSent := rfl
@[simp] theorem State.setWord_freeCtr (a : Nat) (v : W32) : (s.setWord a v).freeCtr = s.freeCtr := rfl
@[simp] theorem State.setWord_pending (a : Nat) (v : W32) : (s.setWord a v).pending = s.pending := rfl

/-! ### `State.put` -/

@[simp] theorem State.put_applied (f : Fld) (x : Nat) : (s.put f x).applied = s.applied := rfl
@[simp] theorem State.put_blocks (f : Fld) (x : Nat) : (s.put f x).blocks = s.blocks := rfl
@[simp] theorem State.put_devCommit (f : Fld) (x : Nat) : (s.put f x).devCommit = s.devCommit := rfl
@[simp] theorem State.put_offWrites (f : Fld) (x : Nat) : (s.put f x).offWrites = s.offWrites := rfl
@[simp] theorem State.put_unmapped (f : Fld) (x : Nat) : (s.put f x).unmapped = s.unmapped := rfl
@[simp] theorem State.put_spiErr (f : Fld) (x : Nat) : (s.put f x).spiErr = s.spiErr := rfl
@[simp] theorem State.put_gov (f : Fld) (x : Nat) : (s.put f x).gov = s.gov := rfl
@[simp] theorem State.put_bfifo (f : Fld) (x : Nat) : (s.put f x).bfifo = s.bfifo := rfl
@[simp] theorem State.put_tb (f : Fld) (x : Nat) : (s.put f x).tb = s.tb := rfl
@[simp] theorem State.put_trig (f : Fld) (x : Nat) : (s.put f x).trig = s.trig := rfl
@[simp] theorem State.put_rack (f : Fld) (x : Nat) : (s.put f x).rack = s.rack := rfl
@[simp] theorem State.put_boot (f : Fld) (x : Nat) : (s.put f x).boot = s.boot := rfl
@[simp] theorem State.put_entering (f : Fld) (x : Nat) : (s.put f x).entering = s.entering := rfl
@[simp] theorem State.put_wake (f : Fld) (x : Nat) : (s.put f x).wake = s.wake := rfl
@[simp] theorem State.put_peel (f : Fld) (x : Nat) : (s.put f x).peel = s.peel := rfl
@[simp] theorem State.put_dir (f : Fld) (x : Nat) : (s.put f x).dir = s.dir := rfl
@[simp] theorem State.put_ret (f : Fld) (x : Nat) : (s.put f x).ret = s.ret := rfl
@[simp] theorem State.put_host (f : Fld) (x : Nat) : (s.put f x).host = s.host := rfl
@[simp] theorem State.put_wb (f : Fld) (x : Nat) : (s.put f x).wb = s.wb := rfl
@[simp] theorem State.put_phy (f : Fld) (x : Nat) : (s.put f x).phy = s.phy := rfl
@[simp] theorem State.put_rf (f : Fld) (x : Nat) : (s.put f x).rf = s.rf := rfl
@[simp] theorem State.put_mac (f : Fld) (x : Nat) : (s.put f x).mac = s.mac := rfl
@[simp] theorem State.put_bcn (f : Fld) (x : Nat) : (s.put f x).bcn = s.bcn := rfl
@[simp] theorem State.put_flood (f : Fld) (x : Nat) : (s.put f x).flood = s.flood := rfl
@[simp] theorem State.put_starter (f : Fld) (x : Nat) : (s.put f x).starter = s.starter := rfl
@[simp] theorem State.put_tamp (f : Fld) (x : Nat) : (s.put f x).tamp = s.tamp := rfl
@[simp] theorem State.put_ports (f : Fld) (x : Nat) : (s.put f x).ports = s.ports := rfl
@[simp] theorem State.put_frames (f : Fld) (x : Nat) : (s.put f x).frames = s.frames := rfl
@[simp] theorem State.put_sieve (f : Fld) (x : Nat) : (s.put f x).sieve = s.sieve := rfl
@[simp] theorem State.put_prefixes (f : Fld) (x : Nat) : (s.put f x).prefixes = s.prefixes := rfl
@[simp] theorem State.put_crust (f : Fld) (x : Nat) : (s.put f x).crust = s.crust := rfl
@[simp] theorem State.put_proof (f : Fld) (x : Nat) : (s.put f x).proof = s.proof := rfl
@[simp] theorem State.put_fwu (f : Fld) (x : Nat) : (s.put f x).fwu = s.fwu := rfl
@[simp] theorem State.put_crc (f : Fld) (x : Nat) : (s.put f x).crc = s.crc := rfl
@[simp] theorem State.put_tap (f : Fld) (x : Nat) : (s.put f x).tap = s.tap := rfl
@[simp] theorem State.put_nor (f : Fld) (x : Nat) : (s.put f x).nor = s.nor := rfl
@[simp] theorem State.put_qspi (f : Fld) (x : Nat) : (s.put f x).qspi = s.qspi := rfl
@[simp] theorem State.put_resetAsked (f : Fld) (x : Nat) : (s.put f x).resetAsked = s.resetAsked := rfl
@[simp] theorem State.put_dram (f : Fld) (x : Nat) : (s.put f x).dram = s.dram := rfl
@[simp] theorem State.put_busData (f : Fld) (x : Nat) : (s.put f x).busData = s.busData := rfl
@[simp] theorem State.put_spiData (f : Fld) (x : Nat) : (s.put f x).spiData = s.spiData := rfl
@[simp] theorem State.put_msixSent (f : Fld) (x : Nat) : (s.put f x).msixSent = s.msixSent := rfl
@[simp] theorem State.put_freeCtr (f : Fld) (x : Nat) : (s.put f x).freeCtr = s.freeCtr := rfl
@[simp] theorem State.put_pending (f : Fld) (x : Nat) : (s.put f x).pending = s.pending := rfl

/-! ### `State.putB` -/

@[simp] theorem State.putB_applied (f : Fld) (x : Bool) : (s.putB f x).applied = s.applied := rfl
@[simp] theorem State.putB_blocks (f : Fld) (x : Bool) : (s.putB f x).blocks = s.blocks := rfl
@[simp] theorem State.putB_devCommit (f : Fld) (x : Bool) : (s.putB f x).devCommit = s.devCommit := rfl
@[simp] theorem State.putB_offWrites (f : Fld) (x : Bool) : (s.putB f x).offWrites = s.offWrites := rfl
@[simp] theorem State.putB_unmapped (f : Fld) (x : Bool) : (s.putB f x).unmapped = s.unmapped := rfl
@[simp] theorem State.putB_spiErr (f : Fld) (x : Bool) : (s.putB f x).spiErr = s.spiErr := rfl
@[simp] theorem State.putB_gov (f : Fld) (x : Bool) : (s.putB f x).gov = s.gov := rfl
@[simp] theorem State.putB_bfifo (f : Fld) (x : Bool) : (s.putB f x).bfifo = s.bfifo := rfl
@[simp] theorem State.putB_tb (f : Fld) (x : Bool) : (s.putB f x).tb = s.tb := rfl
@[simp] theorem State.putB_trig (f : Fld) (x : Bool) : (s.putB f x).trig = s.trig := rfl
@[simp] theorem State.putB_rack (f : Fld) (x : Bool) : (s.putB f x).rack = s.rack := rfl
@[simp] theorem State.putB_boot (f : Fld) (x : Bool) : (s.putB f x).boot = s.boot := rfl
@[simp] theorem State.putB_entering (f : Fld) (x : Bool) : (s.putB f x).entering = s.entering := rfl
@[simp] theorem State.putB_wake (f : Fld) (x : Bool) : (s.putB f x).wake = s.wake := rfl
@[simp] theorem State.putB_peel (f : Fld) (x : Bool) : (s.putB f x).peel = s.peel := rfl
@[simp] theorem State.putB_dir (f : Fld) (x : Bool) : (s.putB f x).dir = s.dir := rfl
@[simp] theorem State.putB_ret (f : Fld) (x : Bool) : (s.putB f x).ret = s.ret := rfl
@[simp] theorem State.putB_host (f : Fld) (x : Bool) : (s.putB f x).host = s.host := rfl
@[simp] theorem State.putB_wb (f : Fld) (x : Bool) : (s.putB f x).wb = s.wb := rfl
@[simp] theorem State.putB_phy (f : Fld) (x : Bool) : (s.putB f x).phy = s.phy := rfl
@[simp] theorem State.putB_rf (f : Fld) (x : Bool) : (s.putB f x).rf = s.rf := rfl
@[simp] theorem State.putB_mac (f : Fld) (x : Bool) : (s.putB f x).mac = s.mac := rfl
@[simp] theorem State.putB_bcn (f : Fld) (x : Bool) : (s.putB f x).bcn = s.bcn := rfl
@[simp] theorem State.putB_flood (f : Fld) (x : Bool) : (s.putB f x).flood = s.flood := rfl
@[simp] theorem State.putB_starter (f : Fld) (x : Bool) : (s.putB f x).starter = s.starter := rfl
@[simp] theorem State.putB_tamp (f : Fld) (x : Bool) : (s.putB f x).tamp = s.tamp := rfl
@[simp] theorem State.putB_ports (f : Fld) (x : Bool) : (s.putB f x).ports = s.ports := rfl
@[simp] theorem State.putB_frames (f : Fld) (x : Bool) : (s.putB f x).frames = s.frames := rfl
@[simp] theorem State.putB_sieve (f : Fld) (x : Bool) : (s.putB f x).sieve = s.sieve := rfl
@[simp] theorem State.putB_prefixes (f : Fld) (x : Bool) : (s.putB f x).prefixes = s.prefixes := rfl
@[simp] theorem State.putB_crust (f : Fld) (x : Bool) : (s.putB f x).crust = s.crust := rfl
@[simp] theorem State.putB_proof (f : Fld) (x : Bool) : (s.putB f x).proof = s.proof := rfl
@[simp] theorem State.putB_fwu (f : Fld) (x : Bool) : (s.putB f x).fwu = s.fwu := rfl
@[simp] theorem State.putB_crc (f : Fld) (x : Bool) : (s.putB f x).crc = s.crc := rfl
@[simp] theorem State.putB_tap (f : Fld) (x : Bool) : (s.putB f x).tap = s.tap := rfl
@[simp] theorem State.putB_nor (f : Fld) (x : Bool) : (s.putB f x).nor = s.nor := rfl
@[simp] theorem State.putB_qspi (f : Fld) (x : Bool) : (s.putB f x).qspi = s.qspi := rfl
@[simp] theorem State.putB_resetAsked (f : Fld) (x : Bool) : (s.putB f x).resetAsked = s.resetAsked := rfl
@[simp] theorem State.putB_dram (f : Fld) (x : Bool) : (s.putB f x).dram = s.dram := rfl
@[simp] theorem State.putB_busData (f : Fld) (x : Bool) : (s.putB f x).busData = s.busData := rfl
@[simp] theorem State.putB_spiData (f : Fld) (x : Bool) : (s.putB f x).spiData = s.spiData := rfl
@[simp] theorem State.putB_msixSent (f : Fld) (x : Bool) : (s.putB f x).msixSent = s.msixSent := rfl
@[simp] theorem State.putB_freeCtr (f : Fld) (x : Bool) : (s.putB f x).freeCtr = s.freeCtr := rfl
@[simp] theorem State.putB_pending (f : Fld) (x : Bool) : (s.putB f x).pending = s.pending := rfl

/-! ### `State.bump` -/

@[simp] theorem State.bump_applied (f : Fld) (n : Nat) : (s.bump f n).applied = s.applied := rfl
@[simp] theorem State.bump_blocks (f : Fld) (n : Nat) : (s.bump f n).blocks = s.blocks := rfl
@[simp] theorem State.bump_devCommit (f : Fld) (n : Nat) : (s.bump f n).devCommit = s.devCommit := rfl
@[simp] theorem State.bump_offWrites (f : Fld) (n : Nat) : (s.bump f n).offWrites = s.offWrites := rfl
@[simp] theorem State.bump_unmapped (f : Fld) (n : Nat) : (s.bump f n).unmapped = s.unmapped := rfl
@[simp] theorem State.bump_spiErr (f : Fld) (n : Nat) : (s.bump f n).spiErr = s.spiErr := rfl
@[simp] theorem State.bump_gov (f : Fld) (n : Nat) : (s.bump f n).gov = s.gov := rfl
@[simp] theorem State.bump_bfifo (f : Fld) (n : Nat) : (s.bump f n).bfifo = s.bfifo := rfl
@[simp] theorem State.bump_tb (f : Fld) (n : Nat) : (s.bump f n).tb = s.tb := rfl
@[simp] theorem State.bump_trig (f : Fld) (n : Nat) : (s.bump f n).trig = s.trig := rfl
@[simp] theorem State.bump_rack (f : Fld) (n : Nat) : (s.bump f n).rack = s.rack := rfl
@[simp] theorem State.bump_boot (f : Fld) (n : Nat) : (s.bump f n).boot = s.boot := rfl
@[simp] theorem State.bump_entering (f : Fld) (n : Nat) : (s.bump f n).entering = s.entering := rfl
@[simp] theorem State.bump_wake (f : Fld) (n : Nat) : (s.bump f n).wake = s.wake := rfl
@[simp] theorem State.bump_peel (f : Fld) (n : Nat) : (s.bump f n).peel = s.peel := rfl
@[simp] theorem State.bump_dir (f : Fld) (n : Nat) : (s.bump f n).dir = s.dir := rfl
@[simp] theorem State.bump_ret (f : Fld) (n : Nat) : (s.bump f n).ret = s.ret := rfl
@[simp] theorem State.bump_host (f : Fld) (n : Nat) : (s.bump f n).host = s.host := rfl
@[simp] theorem State.bump_wb (f : Fld) (n : Nat) : (s.bump f n).wb = s.wb := rfl
@[simp] theorem State.bump_phy (f : Fld) (n : Nat) : (s.bump f n).phy = s.phy := rfl
@[simp] theorem State.bump_rf (f : Fld) (n : Nat) : (s.bump f n).rf = s.rf := rfl
@[simp] theorem State.bump_mac (f : Fld) (n : Nat) : (s.bump f n).mac = s.mac := rfl
@[simp] theorem State.bump_bcn (f : Fld) (n : Nat) : (s.bump f n).bcn = s.bcn := rfl
@[simp] theorem State.bump_flood (f : Fld) (n : Nat) : (s.bump f n).flood = s.flood := rfl
@[simp] theorem State.bump_starter (f : Fld) (n : Nat) : (s.bump f n).starter = s.starter := rfl
@[simp] theorem State.bump_tamp (f : Fld) (n : Nat) : (s.bump f n).tamp = s.tamp := rfl
@[simp] theorem State.bump_ports (f : Fld) (n : Nat) : (s.bump f n).ports = s.ports := rfl
@[simp] theorem State.bump_frames (f : Fld) (n : Nat) : (s.bump f n).frames = s.frames := rfl
@[simp] theorem State.bump_sieve (f : Fld) (n : Nat) : (s.bump f n).sieve = s.sieve := rfl
@[simp] theorem State.bump_prefixes (f : Fld) (n : Nat) : (s.bump f n).prefixes = s.prefixes := rfl
@[simp] theorem State.bump_crust (f : Fld) (n : Nat) : (s.bump f n).crust = s.crust := rfl
@[simp] theorem State.bump_proof (f : Fld) (n : Nat) : (s.bump f n).proof = s.proof := rfl
@[simp] theorem State.bump_fwu (f : Fld) (n : Nat) : (s.bump f n).fwu = s.fwu := rfl
@[simp] theorem State.bump_crc (f : Fld) (n : Nat) : (s.bump f n).crc = s.crc := rfl
@[simp] theorem State.bump_tap (f : Fld) (n : Nat) : (s.bump f n).tap = s.tap := rfl
@[simp] theorem State.bump_nor (f : Fld) (n : Nat) : (s.bump f n).nor = s.nor := rfl
@[simp] theorem State.bump_qspi (f : Fld) (n : Nat) : (s.bump f n).qspi = s.qspi := rfl
@[simp] theorem State.bump_resetAsked (f : Fld) (n : Nat) : (s.bump f n).resetAsked = s.resetAsked := rfl
@[simp] theorem State.bump_dram (f : Fld) (n : Nat) : (s.bump f n).dram = s.dram := rfl
@[simp] theorem State.bump_busData (f : Fld) (n : Nat) : (s.bump f n).busData = s.busData := rfl
@[simp] theorem State.bump_spiData (f : Fld) (n : Nat) : (s.bump f n).spiData = s.spiData := rfl
@[simp] theorem State.bump_msixSent (f : Fld) (n : Nat) : (s.bump f n).msixSent = s.msixSent := rfl
@[simp] theorem State.bump_freeCtr (f : Fld) (n : Nat) : (s.bump f n).freeCtr = s.freeCtr := rfl
@[simp] theorem State.bump_pending (f : Fld) (n : Nat) : (s.bump f n).pending = s.pending := rfl

/-! ### `State.bumpSat` -/

@[simp] theorem State.bumpSat_applied (f : Fld) (n : Nat) : (s.bumpSat f n).applied = s.applied := rfl
@[simp] theorem State.bumpSat_blocks (f : Fld) (n : Nat) : (s.bumpSat f n).blocks = s.blocks := rfl
@[simp] theorem State.bumpSat_devCommit (f : Fld) (n : Nat) : (s.bumpSat f n).devCommit = s.devCommit := rfl
@[simp] theorem State.bumpSat_offWrites (f : Fld) (n : Nat) : (s.bumpSat f n).offWrites = s.offWrites := rfl
@[simp] theorem State.bumpSat_unmapped (f : Fld) (n : Nat) : (s.bumpSat f n).unmapped = s.unmapped := rfl
@[simp] theorem State.bumpSat_spiErr (f : Fld) (n : Nat) : (s.bumpSat f n).spiErr = s.spiErr := rfl
@[simp] theorem State.bumpSat_gov (f : Fld) (n : Nat) : (s.bumpSat f n).gov = s.gov := rfl
@[simp] theorem State.bumpSat_bfifo (f : Fld) (n : Nat) : (s.bumpSat f n).bfifo = s.bfifo := rfl
@[simp] theorem State.bumpSat_tb (f : Fld) (n : Nat) : (s.bumpSat f n).tb = s.tb := rfl
@[simp] theorem State.bumpSat_trig (f : Fld) (n : Nat) : (s.bumpSat f n).trig = s.trig := rfl
@[simp] theorem State.bumpSat_rack (f : Fld) (n : Nat) : (s.bumpSat f n).rack = s.rack := rfl
@[simp] theorem State.bumpSat_boot (f : Fld) (n : Nat) : (s.bumpSat f n).boot = s.boot := rfl
@[simp] theorem State.bumpSat_entering (f : Fld) (n : Nat) : (s.bumpSat f n).entering = s.entering := rfl
@[simp] theorem State.bumpSat_wake (f : Fld) (n : Nat) : (s.bumpSat f n).wake = s.wake := rfl
@[simp] theorem State.bumpSat_peel (f : Fld) (n : Nat) : (s.bumpSat f n).peel = s.peel := rfl
@[simp] theorem State.bumpSat_dir (f : Fld) (n : Nat) : (s.bumpSat f n).dir = s.dir := rfl
@[simp] theorem State.bumpSat_ret (f : Fld) (n : Nat) : (s.bumpSat f n).ret = s.ret := rfl
@[simp] theorem State.bumpSat_host (f : Fld) (n : Nat) : (s.bumpSat f n).host = s.host := rfl
@[simp] theorem State.bumpSat_wb (f : Fld) (n : Nat) : (s.bumpSat f n).wb = s.wb := rfl
@[simp] theorem State.bumpSat_phy (f : Fld) (n : Nat) : (s.bumpSat f n).phy = s.phy := rfl
@[simp] theorem State.bumpSat_rf (f : Fld) (n : Nat) : (s.bumpSat f n).rf = s.rf := rfl
@[simp] theorem State.bumpSat_mac (f : Fld) (n : Nat) : (s.bumpSat f n).mac = s.mac := rfl
@[simp] theorem State.bumpSat_bcn (f : Fld) (n : Nat) : (s.bumpSat f n).bcn = s.bcn := rfl
@[simp] theorem State.bumpSat_flood (f : Fld) (n : Nat) : (s.bumpSat f n).flood = s.flood := rfl
@[simp] theorem State.bumpSat_starter (f : Fld) (n : Nat) : (s.bumpSat f n).starter = s.starter := rfl
@[simp] theorem State.bumpSat_tamp (f : Fld) (n : Nat) : (s.bumpSat f n).tamp = s.tamp := rfl
@[simp] theorem State.bumpSat_ports (f : Fld) (n : Nat) : (s.bumpSat f n).ports = s.ports := rfl
@[simp] theorem State.bumpSat_frames (f : Fld) (n : Nat) : (s.bumpSat f n).frames = s.frames := rfl
@[simp] theorem State.bumpSat_sieve (f : Fld) (n : Nat) : (s.bumpSat f n).sieve = s.sieve := rfl
@[simp] theorem State.bumpSat_prefixes (f : Fld) (n : Nat) : (s.bumpSat f n).prefixes = s.prefixes := rfl
@[simp] theorem State.bumpSat_crust (f : Fld) (n : Nat) : (s.bumpSat f n).crust = s.crust := rfl
@[simp] theorem State.bumpSat_proof (f : Fld) (n : Nat) : (s.bumpSat f n).proof = s.proof := rfl
@[simp] theorem State.bumpSat_fwu (f : Fld) (n : Nat) : (s.bumpSat f n).fwu = s.fwu := rfl
@[simp] theorem State.bumpSat_crc (f : Fld) (n : Nat) : (s.bumpSat f n).crc = s.crc := rfl
@[simp] theorem State.bumpSat_tap (f : Fld) (n : Nat) : (s.bumpSat f n).tap = s.tap := rfl
@[simp] theorem State.bumpSat_nor (f : Fld) (n : Nat) : (s.bumpSat f n).nor = s.nor := rfl
@[simp] theorem State.bumpSat_qspi (f : Fld) (n : Nat) : (s.bumpSat f n).qspi = s.qspi := rfl
@[simp] theorem State.bumpSat_resetAsked (f : Fld) (n : Nat) : (s.bumpSat f n).resetAsked = s.resetAsked := rfl
@[simp] theorem State.bumpSat_dram (f : Fld) (n : Nat) : (s.bumpSat f n).dram = s.dram := rfl
@[simp] theorem State.bumpSat_busData (f : Fld) (n : Nat) : (s.bumpSat f n).busData = s.busData := rfl
@[simp] theorem State.bumpSat_spiData (f : Fld) (n : Nat) : (s.bumpSat f n).spiData = s.spiData := rfl
@[simp] theorem State.bumpSat_msixSent (f : Fld) (n : Nat) : (s.bumpSat f n).msixSent = s.msixSent := rfl
@[simp] theorem State.bumpSat_freeCtr (f : Fld) (n : Nat) : (s.bumpSat f n).freeCtr = s.freeCtr := rfl
@[simp] theorem State.bumpSat_pending (f : Fld) (n : Nat) : (s.bumpSat f n).pending = s.pending := rfl

/-! ### `State.put64` -/

@[simp] theorem State.put64_applied (l h : Fld) (x : Nat) : (s.put64 l h x).applied = s.applied := rfl
@[simp] theorem State.put64_blocks (l h : Fld) (x : Nat) : (s.put64 l h x).blocks = s.blocks := rfl
@[simp] theorem State.put64_devCommit (l h : Fld) (x : Nat) : (s.put64 l h x).devCommit = s.devCommit := rfl
@[simp] theorem State.put64_offWrites (l h : Fld) (x : Nat) : (s.put64 l h x).offWrites = s.offWrites := rfl
@[simp] theorem State.put64_unmapped (l h : Fld) (x : Nat) : (s.put64 l h x).unmapped = s.unmapped := rfl
@[simp] theorem State.put64_spiErr (l h : Fld) (x : Nat) : (s.put64 l h x).spiErr = s.spiErr := rfl
@[simp] theorem State.put64_gov (l h : Fld) (x : Nat) : (s.put64 l h x).gov = s.gov := rfl
@[simp] theorem State.put64_bfifo (l h : Fld) (x : Nat) : (s.put64 l h x).bfifo = s.bfifo := rfl
@[simp] theorem State.put64_tb (l h : Fld) (x : Nat) : (s.put64 l h x).tb = s.tb := rfl
@[simp] theorem State.put64_trig (l h : Fld) (x : Nat) : (s.put64 l h x).trig = s.trig := rfl
@[simp] theorem State.put64_rack (l h : Fld) (x : Nat) : (s.put64 l h x).rack = s.rack := rfl
@[simp] theorem State.put64_boot (l h : Fld) (x : Nat) : (s.put64 l h x).boot = s.boot := rfl
@[simp] theorem State.put64_entering (l h : Fld) (x : Nat) : (s.put64 l h x).entering = s.entering := rfl
@[simp] theorem State.put64_wake (l h : Fld) (x : Nat) : (s.put64 l h x).wake = s.wake := rfl
@[simp] theorem State.put64_peel (l h : Fld) (x : Nat) : (s.put64 l h x).peel = s.peel := rfl
@[simp] theorem State.put64_dir (l h : Fld) (x : Nat) : (s.put64 l h x).dir = s.dir := rfl
@[simp] theorem State.put64_ret (l h : Fld) (x : Nat) : (s.put64 l h x).ret = s.ret := rfl
@[simp] theorem State.put64_host (l h : Fld) (x : Nat) : (s.put64 l h x).host = s.host := rfl
@[simp] theorem State.put64_wb (l h : Fld) (x : Nat) : (s.put64 l h x).wb = s.wb := rfl
@[simp] theorem State.put64_phy (l h : Fld) (x : Nat) : (s.put64 l h x).phy = s.phy := rfl
@[simp] theorem State.put64_rf (l h : Fld) (x : Nat) : (s.put64 l h x).rf = s.rf := rfl
@[simp] theorem State.put64_mac (l h : Fld) (x : Nat) : (s.put64 l h x).mac = s.mac := rfl
@[simp] theorem State.put64_bcn (l h : Fld) (x : Nat) : (s.put64 l h x).bcn = s.bcn := rfl
@[simp] theorem State.put64_flood (l h : Fld) (x : Nat) : (s.put64 l h x).flood = s.flood := rfl
@[simp] theorem State.put64_starter (l h : Fld) (x : Nat) : (s.put64 l h x).starter = s.starter := rfl
@[simp] theorem State.put64_tamp (l h : Fld) (x : Nat) : (s.put64 l h x).tamp = s.tamp := rfl
@[simp] theorem State.put64_ports (l h : Fld) (x : Nat) : (s.put64 l h x).ports = s.ports := rfl
@[simp] theorem State.put64_frames (l h : Fld) (x : Nat) : (s.put64 l h x).frames = s.frames := rfl
@[simp] theorem State.put64_sieve (l h : Fld) (x : Nat) : (s.put64 l h x).sieve = s.sieve := rfl
@[simp] theorem State.put64_prefixes (l h : Fld) (x : Nat) : (s.put64 l h x).prefixes = s.prefixes := rfl
@[simp] theorem State.put64_crust (l h : Fld) (x : Nat) : (s.put64 l h x).crust = s.crust := rfl
@[simp] theorem State.put64_proof (l h : Fld) (x : Nat) : (s.put64 l h x).proof = s.proof := rfl
@[simp] theorem State.put64_fwu (l h : Fld) (x : Nat) : (s.put64 l h x).fwu = s.fwu := rfl
@[simp] theorem State.put64_crc (l h : Fld) (x : Nat) : (s.put64 l h x).crc = s.crc := rfl
@[simp] theorem State.put64_tap (l h : Fld) (x : Nat) : (s.put64 l h x).tap = s.tap := rfl
@[simp] theorem State.put64_nor (l h : Fld) (x : Nat) : (s.put64 l h x).nor = s.nor := rfl
@[simp] theorem State.put64_qspi (l h : Fld) (x : Nat) : (s.put64 l h x).qspi = s.qspi := rfl
@[simp] theorem State.put64_resetAsked (l h : Fld) (x : Nat) : (s.put64 l h x).resetAsked = s.resetAsked := rfl
@[simp] theorem State.put64_dram (l h : Fld) (x : Nat) : (s.put64 l h x).dram = s.dram := rfl
@[simp] theorem State.put64_busData (l h : Fld) (x : Nat) : (s.put64 l h x).busData = s.busData := rfl
@[simp] theorem State.put64_spiData (l h : Fld) (x : Nat) : (s.put64 l h x).spiData = s.spiData := rfl
@[simp] theorem State.put64_msixSent (l h : Fld) (x : Nat) : (s.put64 l h x).msixSent = s.msixSent := rfl
@[simp] theorem State.put64_freeCtr (l h : Fld) (x : Nat) : (s.put64 l h x).freeCtr = s.freeCtr := rfl
@[simp] theorem State.put64_pending (l h : Fld) (x : Nat) : (s.put64 l h x).pending = s.pending := rfl

/-! ### `State.rejectCmd` -/

@[simp] theorem State.rejectCmd_applied (b : Block) (g : BitVec 8) : (s.rejectCmd b g).applied = s.applied := rfl
@[simp] theorem State.rejectCmd_blocks (b : Block) (g : BitVec 8) : (s.rejectCmd b g).blocks = s.blocks := rfl
@[simp] theorem State.rejectCmd_devCommit (b : Block) (g : BitVec 8) : (s.rejectCmd b g).devCommit = s.devCommit := rfl
@[simp] theorem State.rejectCmd_offWrites (b : Block) (g : BitVec 8) : (s.rejectCmd b g).offWrites = s.offWrites := rfl
@[simp] theorem State.rejectCmd_unmapped (b : Block) (g : BitVec 8) : (s.rejectCmd b g).unmapped = s.unmapped := rfl
@[simp] theorem State.rejectCmd_spiErr (b : Block) (g : BitVec 8) : (s.rejectCmd b g).spiErr = s.spiErr := rfl
@[simp] theorem State.rejectCmd_gov (b : Block) (g : BitVec 8) : (s.rejectCmd b g).gov = s.gov := rfl
@[simp] theorem State.rejectCmd_bfifo (b : Block) (g : BitVec 8) : (s.rejectCmd b g).bfifo = s.bfifo := rfl
@[simp] theorem State.rejectCmd_tb (b : Block) (g : BitVec 8) : (s.rejectCmd b g).tb = s.tb := rfl
@[simp] theorem State.rejectCmd_trig (b : Block) (g : BitVec 8) : (s.rejectCmd b g).trig = s.trig := rfl
@[simp] theorem State.rejectCmd_rack (b : Block) (g : BitVec 8) : (s.rejectCmd b g).rack = s.rack := rfl
@[simp] theorem State.rejectCmd_boot (b : Block) (g : BitVec 8) : (s.rejectCmd b g).boot = s.boot := rfl
@[simp] theorem State.rejectCmd_entering (b : Block) (g : BitVec 8) : (s.rejectCmd b g).entering = s.entering := rfl
@[simp] theorem State.rejectCmd_wake (b : Block) (g : BitVec 8) : (s.rejectCmd b g).wake = s.wake := rfl
@[simp] theorem State.rejectCmd_peel (b : Block) (g : BitVec 8) : (s.rejectCmd b g).peel = s.peel := rfl
@[simp] theorem State.rejectCmd_dir (b : Block) (g : BitVec 8) : (s.rejectCmd b g).dir = s.dir := rfl
@[simp] theorem State.rejectCmd_ret (b : Block) (g : BitVec 8) : (s.rejectCmd b g).ret = s.ret := rfl
@[simp] theorem State.rejectCmd_host (b : Block) (g : BitVec 8) : (s.rejectCmd b g).host = s.host := rfl
@[simp] theorem State.rejectCmd_wb (b : Block) (g : BitVec 8) : (s.rejectCmd b g).wb = s.wb := rfl
@[simp] theorem State.rejectCmd_phy (b : Block) (g : BitVec 8) : (s.rejectCmd b g).phy = s.phy := rfl
@[simp] theorem State.rejectCmd_rf (b : Block) (g : BitVec 8) : (s.rejectCmd b g).rf = s.rf := rfl
@[simp] theorem State.rejectCmd_mac (b : Block) (g : BitVec 8) : (s.rejectCmd b g).mac = s.mac := rfl
@[simp] theorem State.rejectCmd_bcn (b : Block) (g : BitVec 8) : (s.rejectCmd b g).bcn = s.bcn := rfl
@[simp] theorem State.rejectCmd_flood (b : Block) (g : BitVec 8) : (s.rejectCmd b g).flood = s.flood := rfl
@[simp] theorem State.rejectCmd_starter (b : Block) (g : BitVec 8) : (s.rejectCmd b g).starter = s.starter := rfl
@[simp] theorem State.rejectCmd_tamp (b : Block) (g : BitVec 8) : (s.rejectCmd b g).tamp = s.tamp := rfl
@[simp] theorem State.rejectCmd_ports (b : Block) (g : BitVec 8) : (s.rejectCmd b g).ports = s.ports := rfl
@[simp] theorem State.rejectCmd_frames (b : Block) (g : BitVec 8) : (s.rejectCmd b g).frames = s.frames := rfl
@[simp] theorem State.rejectCmd_sieve (b : Block) (g : BitVec 8) : (s.rejectCmd b g).sieve = s.sieve := rfl
@[simp] theorem State.rejectCmd_prefixes (b : Block) (g : BitVec 8) : (s.rejectCmd b g).prefixes = s.prefixes := rfl
@[simp] theorem State.rejectCmd_crust (b : Block) (g : BitVec 8) : (s.rejectCmd b g).crust = s.crust := rfl
@[simp] theorem State.rejectCmd_proof (b : Block) (g : BitVec 8) : (s.rejectCmd b g).proof = s.proof := rfl
@[simp] theorem State.rejectCmd_fwu (b : Block) (g : BitVec 8) : (s.rejectCmd b g).fwu = s.fwu := rfl
@[simp] theorem State.rejectCmd_crc (b : Block) (g : BitVec 8) : (s.rejectCmd b g).crc = s.crc := rfl
@[simp] theorem State.rejectCmd_tap (b : Block) (g : BitVec 8) : (s.rejectCmd b g).tap = s.tap := rfl
@[simp] theorem State.rejectCmd_nor (b : Block) (g : BitVec 8) : (s.rejectCmd b g).nor = s.nor := rfl
@[simp] theorem State.rejectCmd_qspi (b : Block) (g : BitVec 8) : (s.rejectCmd b g).qspi = s.qspi := rfl
@[simp] theorem State.rejectCmd_resetAsked (b : Block) (g : BitVec 8) : (s.rejectCmd b g).resetAsked = s.resetAsked := rfl
@[simp] theorem State.rejectCmd_dram (b : Block) (g : BitVec 8) : (s.rejectCmd b g).dram = s.dram := rfl
@[simp] theorem State.rejectCmd_busData (b : Block) (g : BitVec 8) : (s.rejectCmd b g).busData = s.busData := rfl
@[simp] theorem State.rejectCmd_spiData (b : Block) (g : BitVec 8) : (s.rejectCmd b g).spiData = s.spiData := rfl
@[simp] theorem State.rejectCmd_msixSent (b : Block) (g : BitVec 8) : (s.rejectCmd b g).msixSent = s.msixSent := rfl
@[simp] theorem State.rejectCmd_freeCtr (b : Block) (g : BitVec 8) : (s.rejectCmd b g).freeCtr = s.freeCtr := rfl
@[simp] theorem State.rejectCmd_pending (b : Block) (g : BitVec 8) : (s.rejectCmd b g).pending = s.pending := rfl

/-! ### `State.acceptCmd` -/

@[simp] theorem State.acceptCmd_applied (b : Block) (g : BitVec 8) : (s.acceptCmd b g).applied = s.applied := rfl
@[simp] theorem State.acceptCmd_blocks (b : Block) (g : BitVec 8) : (s.acceptCmd b g).blocks = s.blocks := rfl
@[simp] theorem State.acceptCmd_devCommit (b : Block) (g : BitVec 8) : (s.acceptCmd b g).devCommit = s.devCommit := rfl
@[simp] theorem State.acceptCmd_offWrites (b : Block) (g : BitVec 8) : (s.acceptCmd b g).offWrites = s.offWrites := rfl
@[simp] theorem State.acceptCmd_unmapped (b : Block) (g : BitVec 8) : (s.acceptCmd b g).unmapped = s.unmapped := rfl
@[simp] theorem State.acceptCmd_spiErr (b : Block) (g : BitVec 8) : (s.acceptCmd b g).spiErr = s.spiErr := rfl
@[simp] theorem State.acceptCmd_gov (b : Block) (g : BitVec 8) : (s.acceptCmd b g).gov = s.gov := rfl
@[simp] theorem State.acceptCmd_bfifo (b : Block) (g : BitVec 8) : (s.acceptCmd b g).bfifo = s.bfifo := rfl
@[simp] theorem State.acceptCmd_tb (b : Block) (g : BitVec 8) : (s.acceptCmd b g).tb = s.tb := rfl
@[simp] theorem State.acceptCmd_trig (b : Block) (g : BitVec 8) : (s.acceptCmd b g).trig = s.trig := rfl
@[simp] theorem State.acceptCmd_rack (b : Block) (g : BitVec 8) : (s.acceptCmd b g).rack = s.rack := rfl
@[simp] theorem State.acceptCmd_boot (b : Block) (g : BitVec 8) : (s.acceptCmd b g).boot = s.boot := rfl
@[simp] theorem State.acceptCmd_entering (b : Block) (g : BitVec 8) : (s.acceptCmd b g).entering = s.entering := rfl
@[simp] theorem State.acceptCmd_wake (b : Block) (g : BitVec 8) : (s.acceptCmd b g).wake = s.wake := rfl
@[simp] theorem State.acceptCmd_peel (b : Block) (g : BitVec 8) : (s.acceptCmd b g).peel = s.peel := rfl
@[simp] theorem State.acceptCmd_dir (b : Block) (g : BitVec 8) : (s.acceptCmd b g).dir = s.dir := rfl
@[simp] theorem State.acceptCmd_ret (b : Block) (g : BitVec 8) : (s.acceptCmd b g).ret = s.ret := rfl
@[simp] theorem State.acceptCmd_host (b : Block) (g : BitVec 8) : (s.acceptCmd b g).host = s.host := rfl
@[simp] theorem State.acceptCmd_wb (b : Block) (g : BitVec 8) : (s.acceptCmd b g).wb = s.wb := rfl
@[simp] theorem State.acceptCmd_phy (b : Block) (g : BitVec 8) : (s.acceptCmd b g).phy = s.phy := rfl
@[simp] theorem State.acceptCmd_rf (b : Block) (g : BitVec 8) : (s.acceptCmd b g).rf = s.rf := rfl
@[simp] theorem State.acceptCmd_mac (b : Block) (g : BitVec 8) : (s.acceptCmd b g).mac = s.mac := rfl
@[simp] theorem State.acceptCmd_bcn (b : Block) (g : BitVec 8) : (s.acceptCmd b g).bcn = s.bcn := rfl
@[simp] theorem State.acceptCmd_flood (b : Block) (g : BitVec 8) : (s.acceptCmd b g).flood = s.flood := rfl
@[simp] theorem State.acceptCmd_starter (b : Block) (g : BitVec 8) : (s.acceptCmd b g).starter = s.starter := rfl
@[simp] theorem State.acceptCmd_tamp (b : Block) (g : BitVec 8) : (s.acceptCmd b g).tamp = s.tamp := rfl
@[simp] theorem State.acceptCmd_ports (b : Block) (g : BitVec 8) : (s.acceptCmd b g).ports = s.ports := rfl
@[simp] theorem State.acceptCmd_frames (b : Block) (g : BitVec 8) : (s.acceptCmd b g).frames = s.frames := rfl
@[simp] theorem State.acceptCmd_sieve (b : Block) (g : BitVec 8) : (s.acceptCmd b g).sieve = s.sieve := rfl
@[simp] theorem State.acceptCmd_prefixes (b : Block) (g : BitVec 8) : (s.acceptCmd b g).prefixes = s.prefixes := rfl
@[simp] theorem State.acceptCmd_crust (b : Block) (g : BitVec 8) : (s.acceptCmd b g).crust = s.crust := rfl
@[simp] theorem State.acceptCmd_proof (b : Block) (g : BitVec 8) : (s.acceptCmd b g).proof = s.proof := rfl
@[simp] theorem State.acceptCmd_fwu (b : Block) (g : BitVec 8) : (s.acceptCmd b g).fwu = s.fwu := rfl
@[simp] theorem State.acceptCmd_crc (b : Block) (g : BitVec 8) : (s.acceptCmd b g).crc = s.crc := rfl
@[simp] theorem State.acceptCmd_tap (b : Block) (g : BitVec 8) : (s.acceptCmd b g).tap = s.tap := rfl
@[simp] theorem State.acceptCmd_nor (b : Block) (g : BitVec 8) : (s.acceptCmd b g).nor = s.nor := rfl
@[simp] theorem State.acceptCmd_qspi (b : Block) (g : BitVec 8) : (s.acceptCmd b g).qspi = s.qspi := rfl
@[simp] theorem State.acceptCmd_resetAsked (b : Block) (g : BitVec 8) : (s.acceptCmd b g).resetAsked = s.resetAsked := rfl
@[simp] theorem State.acceptCmd_dram (b : Block) (g : BitVec 8) : (s.acceptCmd b g).dram = s.dram := rfl
@[simp] theorem State.acceptCmd_busData (b : Block) (g : BitVec 8) : (s.acceptCmd b g).busData = s.busData := rfl
@[simp] theorem State.acceptCmd_spiData (b : Block) (g : BitVec 8) : (s.acceptCmd b g).spiData = s.spiData := rfl
@[simp] theorem State.acceptCmd_msixSent (b : Block) (g : BitVec 8) : (s.acceptCmd b g).msixSent = s.msixSent := rfl
@[simp] theorem State.acceptCmd_freeCtr (b : Block) (g : BitVec 8) : (s.acceptCmd b g).freeCtr = s.freeCtr := rfl
@[simp] theorem State.acceptCmd_pending (b : Block) (g : BitVec 8) : (s.acceptCmd b g).pending = s.pending := rfl

/-! ### `State.setBlk` -/

@[simp] theorem State.setBlk_regs (b : Block) (f : BlockSt → BlockSt) : (s.setBlk b f).regs = s.regs := rfl
@[simp] theorem State.setBlk_applied (b : Block) (f : BlockSt → BlockSt) : (s.setBlk b f).applied = s.applied := rfl
@[simp] theorem State.setBlk_devCommit (b : Block) (f : BlockSt → BlockSt) : (s.setBlk b f).devCommit = s.devCommit := rfl
@[simp] theorem State.setBlk_offWrites (b : Block) (f : BlockSt → BlockSt) : (s.setBlk b f).offWrites = s.offWrites := rfl
@[simp] theorem State.setBlk_unmapped (b : Block) (f : BlockSt → BlockSt) : (s.setBlk b f).unmapped = s.unmapped := rfl
@[simp] theorem State.setBlk_spiErr (b : Block) (f : BlockSt → BlockSt) : (s.setBlk b f).spiErr = s.spiErr := rfl
@[simp] theorem State.setBlk_gov (b : Block) (f : BlockSt → BlockSt) : (s.setBlk b f).gov = s.gov := rfl
@[simp] theorem State.setBlk_bfifo (b : Block) (f : BlockSt → BlockSt) : (s.setBlk b f).bfifo = s.bfifo := rfl
@[simp] theorem State.setBlk_tb (b : Block) (f : BlockSt → BlockSt) : (s.setBlk b f).tb = s.tb := rfl
@[simp] theorem State.setBlk_trig (b : Block) (f : BlockSt → BlockSt) : (s.setBlk b f).trig = s.trig := rfl
@[simp] theorem State.setBlk_rack (b : Block) (f : BlockSt → BlockSt) : (s.setBlk b f).rack = s.rack := rfl
@[simp] theorem State.setBlk_boot (b : Block) (f : BlockSt → BlockSt) : (s.setBlk b f).boot = s.boot := rfl
@[simp] theorem State.setBlk_entering (b : Block) (f : BlockSt → BlockSt) : (s.setBlk b f).entering = s.entering := rfl
@[simp] theorem State.setBlk_wake (b : Block) (f : BlockSt → BlockSt) : (s.setBlk b f).wake = s.wake := rfl
@[simp] theorem State.setBlk_peel (b : Block) (f : BlockSt → BlockSt) : (s.setBlk b f).peel = s.peel := rfl
@[simp] theorem State.setBlk_dir (b : Block) (f : BlockSt → BlockSt) : (s.setBlk b f).dir = s.dir := rfl
@[simp] theorem State.setBlk_ret (b : Block) (f : BlockSt → BlockSt) : (s.setBlk b f).ret = s.ret := rfl
@[simp] theorem State.setBlk_host (b : Block) (f : BlockSt → BlockSt) : (s.setBlk b f).host = s.host := rfl
@[simp] theorem State.setBlk_wb (b : Block) (f : BlockSt → BlockSt) : (s.setBlk b f).wb = s.wb := rfl
@[simp] theorem State.setBlk_phy (b : Block) (f : BlockSt → BlockSt) : (s.setBlk b f).phy = s.phy := rfl
@[simp] theorem State.setBlk_rf (b : Block) (f : BlockSt → BlockSt) : (s.setBlk b f).rf = s.rf := rfl
@[simp] theorem State.setBlk_mac (b : Block) (f : BlockSt → BlockSt) : (s.setBlk b f).mac = s.mac := rfl
@[simp] theorem State.setBlk_bcn (b : Block) (f : BlockSt → BlockSt) : (s.setBlk b f).bcn = s.bcn := rfl
@[simp] theorem State.setBlk_flood (b : Block) (f : BlockSt → BlockSt) : (s.setBlk b f).flood = s.flood := rfl
@[simp] theorem State.setBlk_starter (b : Block) (f : BlockSt → BlockSt) : (s.setBlk b f).starter = s.starter := rfl
@[simp] theorem State.setBlk_tamp (b : Block) (f : BlockSt → BlockSt) : (s.setBlk b f).tamp = s.tamp := rfl
@[simp] theorem State.setBlk_ports (b : Block) (f : BlockSt → BlockSt) : (s.setBlk b f).ports = s.ports := rfl
@[simp] theorem State.setBlk_frames (b : Block) (f : BlockSt → BlockSt) : (s.setBlk b f).frames = s.frames := rfl
@[simp] theorem State.setBlk_sieve (b : Block) (f : BlockSt → BlockSt) : (s.setBlk b f).sieve = s.sieve := rfl
@[simp] theorem State.setBlk_prefixes (b : Block) (f : BlockSt → BlockSt) : (s.setBlk b f).prefixes = s.prefixes := rfl
@[simp] theorem State.setBlk_crust (b : Block) (f : BlockSt → BlockSt) : (s.setBlk b f).crust = s.crust := rfl
@[simp] theorem State.setBlk_proof (b : Block) (f : BlockSt → BlockSt) : (s.setBlk b f).proof = s.proof := rfl
@[simp] theorem State.setBlk_fwu (b : Block) (f : BlockSt → BlockSt) : (s.setBlk b f).fwu = s.fwu := rfl
@[simp] theorem State.setBlk_crc (b : Block) (f : BlockSt → BlockSt) : (s.setBlk b f).crc = s.crc := rfl
@[simp] theorem State.setBlk_tap (b : Block) (f : BlockSt → BlockSt) : (s.setBlk b f).tap = s.tap := rfl
@[simp] theorem State.setBlk_nor (b : Block) (f : BlockSt → BlockSt) : (s.setBlk b f).nor = s.nor := rfl
@[simp] theorem State.setBlk_qspi (b : Block) (f : BlockSt → BlockSt) : (s.setBlk b f).qspi = s.qspi := rfl
@[simp] theorem State.setBlk_resetAsked (b : Block) (f : BlockSt → BlockSt) : (s.setBlk b f).resetAsked = s.resetAsked := rfl
@[simp] theorem State.setBlk_dram (b : Block) (f : BlockSt → BlockSt) : (s.setBlk b f).dram = s.dram := rfl
@[simp] theorem State.setBlk_busData (b : Block) (f : BlockSt → BlockSt) : (s.setBlk b f).busData = s.busData := rfl
@[simp] theorem State.setBlk_spiData (b : Block) (f : BlockSt → BlockSt) : (s.setBlk b f).spiData = s.spiData := rfl
@[simp] theorem State.setBlk_msixSent (b : Block) (f : BlockSt → BlockSt) : (s.setBlk b f).msixSent = s.msixSent := rfl
@[simp] theorem State.setBlk_freeCtr (b : Block) (f : BlockSt → BlockSt) : (s.setBlk b f).freeCtr = s.freeCtr := rfl
@[simp] theorem State.setBlk_pending (b : Block) (f : BlockSt → BlockSt) : (s.setBlk b f).pending = s.pending := rfl

/-! ### `State.ledger` -/

@[simp] theorem State.ledger_regs (b : Block) (f : Ledger → Ledger) : (s.ledger b f).regs = s.regs := rfl
@[simp] theorem State.ledger_applied (b : Block) (f : Ledger → Ledger) : (s.ledger b f).applied = s.applied := rfl
@[simp] theorem State.ledger_devCommit (b : Block) (f : Ledger → Ledger) : (s.ledger b f).devCommit = s.devCommit := rfl
@[simp] theorem State.ledger_offWrites (b : Block) (f : Ledger → Ledger) : (s.ledger b f).offWrites = s.offWrites := rfl
@[simp] theorem State.ledger_unmapped (b : Block) (f : Ledger → Ledger) : (s.ledger b f).unmapped = s.unmapped := rfl
@[simp] theorem State.ledger_spiErr (b : Block) (f : Ledger → Ledger) : (s.ledger b f).spiErr = s.spiErr := rfl
@[simp] theorem State.ledger_gov (b : Block) (f : Ledger → Ledger) : (s.ledger b f).gov = s.gov := rfl
@[simp] theorem State.ledger_bfifo (b : Block) (f : Ledger → Ledger) : (s.ledger b f).bfifo = s.bfifo := rfl
@[simp] theorem State.ledger_tb (b : Block) (f : Ledger → Ledger) : (s.ledger b f).tb = s.tb := rfl
@[simp] theorem State.ledger_trig (b : Block) (f : Ledger → Ledger) : (s.ledger b f).trig = s.trig := rfl
@[simp] theorem State.ledger_rack (b : Block) (f : Ledger → Ledger) : (s.ledger b f).rack = s.rack := rfl
@[simp] theorem State.ledger_boot (b : Block) (f : Ledger → Ledger) : (s.ledger b f).boot = s.boot := rfl
@[simp] theorem State.ledger_entering (b : Block) (f : Ledger → Ledger) : (s.ledger b f).entering = s.entering := rfl
@[simp] theorem State.ledger_wake (b : Block) (f : Ledger → Ledger) : (s.ledger b f).wake = s.wake := rfl
@[simp] theorem State.ledger_peel (b : Block) (f : Ledger → Ledger) : (s.ledger b f).peel = s.peel := rfl
@[simp] theorem State.ledger_dir (b : Block) (f : Ledger → Ledger) : (s.ledger b f).dir = s.dir := rfl
@[simp] theorem State.ledger_ret (b : Block) (f : Ledger → Ledger) : (s.ledger b f).ret = s.ret := rfl
@[simp] theorem State.ledger_host (b : Block) (f : Ledger → Ledger) : (s.ledger b f).host = s.host := rfl
@[simp] theorem State.ledger_wb (b : Block) (f : Ledger → Ledger) : (s.ledger b f).wb = s.wb := rfl
@[simp] theorem State.ledger_phy (b : Block) (f : Ledger → Ledger) : (s.ledger b f).phy = s.phy := rfl
@[simp] theorem State.ledger_rf (b : Block) (f : Ledger → Ledger) : (s.ledger b f).rf = s.rf := rfl
@[simp] theorem State.ledger_mac (b : Block) (f : Ledger → Ledger) : (s.ledger b f).mac = s.mac := rfl
@[simp] theorem State.ledger_bcn (b : Block) (f : Ledger → Ledger) : (s.ledger b f).bcn = s.bcn := rfl
@[simp] theorem State.ledger_flood (b : Block) (f : Ledger → Ledger) : (s.ledger b f).flood = s.flood := rfl
@[simp] theorem State.ledger_starter (b : Block) (f : Ledger → Ledger) : (s.ledger b f).starter = s.starter := rfl
@[simp] theorem State.ledger_tamp (b : Block) (f : Ledger → Ledger) : (s.ledger b f).tamp = s.tamp := rfl
@[simp] theorem State.ledger_ports (b : Block) (f : Ledger → Ledger) : (s.ledger b f).ports = s.ports := rfl
@[simp] theorem State.ledger_frames (b : Block) (f : Ledger → Ledger) : (s.ledger b f).frames = s.frames := rfl
@[simp] theorem State.ledger_sieve (b : Block) (f : Ledger → Ledger) : (s.ledger b f).sieve = s.sieve := rfl
@[simp] theorem State.ledger_prefixes (b : Block) (f : Ledger → Ledger) : (s.ledger b f).prefixes = s.prefixes := rfl
@[simp] theorem State.ledger_crust (b : Block) (f : Ledger → Ledger) : (s.ledger b f).crust = s.crust := rfl
@[simp] theorem State.ledger_proof (b : Block) (f : Ledger → Ledger) : (s.ledger b f).proof = s.proof := rfl
@[simp] theorem State.ledger_fwu (b : Block) (f : Ledger → Ledger) : (s.ledger b f).fwu = s.fwu := rfl
@[simp] theorem State.ledger_crc (b : Block) (f : Ledger → Ledger) : (s.ledger b f).crc = s.crc := rfl
@[simp] theorem State.ledger_tap (b : Block) (f : Ledger → Ledger) : (s.ledger b f).tap = s.tap := rfl
@[simp] theorem State.ledger_nor (b : Block) (f : Ledger → Ledger) : (s.ledger b f).nor = s.nor := rfl
@[simp] theorem State.ledger_qspi (b : Block) (f : Ledger → Ledger) : (s.ledger b f).qspi = s.qspi := rfl
@[simp] theorem State.ledger_resetAsked (b : Block) (f : Ledger → Ledger) : (s.ledger b f).resetAsked = s.resetAsked := rfl
@[simp] theorem State.ledger_dram (b : Block) (f : Ledger → Ledger) : (s.ledger b f).dram = s.dram := rfl
@[simp] theorem State.ledger_busData (b : Block) (f : Ledger → Ledger) : (s.ledger b f).busData = s.busData := rfl
@[simp] theorem State.ledger_spiData (b : Block) (f : Ledger → Ledger) : (s.ledger b f).spiData = s.spiData := rfl
@[simp] theorem State.ledger_msixSent (b : Block) (f : Ledger → Ledger) : (s.ledger b f).msixSent = s.msixSent := rfl
@[simp] theorem State.ledger_freeCtr (b : Block) (f : Ledger → Ledger) : (s.ledger b f).freeCtr = s.freeCtr := rfl
@[simp] theorem State.ledger_pending (b : Block) (f : Ledger → Ledger) : (s.ledger b f).pending = s.pending := rfl

/-! ### `State.ledIn` -/

@[simp] theorem State.ledIn_regs (b : Block) (n : Nat) : (s.ledIn b n).regs = s.regs := rfl
@[simp] theorem State.ledIn_applied (b : Block) (n : Nat) : (s.ledIn b n).applied = s.applied := rfl
@[simp] theorem State.ledIn_devCommit (b : Block) (n : Nat) : (s.ledIn b n).devCommit = s.devCommit := rfl
@[simp] theorem State.ledIn_offWrites (b : Block) (n : Nat) : (s.ledIn b n).offWrites = s.offWrites := rfl
@[simp] theorem State.ledIn_unmapped (b : Block) (n : Nat) : (s.ledIn b n).unmapped = s.unmapped := rfl
@[simp] theorem State.ledIn_spiErr (b : Block) (n : Nat) : (s.ledIn b n).spiErr = s.spiErr := rfl
@[simp] theorem State.ledIn_gov (b : Block) (n : Nat) : (s.ledIn b n).gov = s.gov := rfl
@[simp] theorem State.ledIn_bfifo (b : Block) (n : Nat) : (s.ledIn b n).bfifo = s.bfifo := rfl
@[simp] theorem State.ledIn_tb (b : Block) (n : Nat) : (s.ledIn b n).tb = s.tb := rfl
@[simp] theorem State.ledIn_trig (b : Block) (n : Nat) : (s.ledIn b n).trig = s.trig := rfl
@[simp] theorem State.ledIn_rack (b : Block) (n : Nat) : (s.ledIn b n).rack = s.rack := rfl
@[simp] theorem State.ledIn_boot (b : Block) (n : Nat) : (s.ledIn b n).boot = s.boot := rfl
@[simp] theorem State.ledIn_entering (b : Block) (n : Nat) : (s.ledIn b n).entering = s.entering := rfl
@[simp] theorem State.ledIn_wake (b : Block) (n : Nat) : (s.ledIn b n).wake = s.wake := rfl
@[simp] theorem State.ledIn_peel (b : Block) (n : Nat) : (s.ledIn b n).peel = s.peel := rfl
@[simp] theorem State.ledIn_dir (b : Block) (n : Nat) : (s.ledIn b n).dir = s.dir := rfl
@[simp] theorem State.ledIn_ret (b : Block) (n : Nat) : (s.ledIn b n).ret = s.ret := rfl
@[simp] theorem State.ledIn_host (b : Block) (n : Nat) : (s.ledIn b n).host = s.host := rfl
@[simp] theorem State.ledIn_wb (b : Block) (n : Nat) : (s.ledIn b n).wb = s.wb := rfl
@[simp] theorem State.ledIn_phy (b : Block) (n : Nat) : (s.ledIn b n).phy = s.phy := rfl
@[simp] theorem State.ledIn_rf (b : Block) (n : Nat) : (s.ledIn b n).rf = s.rf := rfl
@[simp] theorem State.ledIn_mac (b : Block) (n : Nat) : (s.ledIn b n).mac = s.mac := rfl
@[simp] theorem State.ledIn_bcn (b : Block) (n : Nat) : (s.ledIn b n).bcn = s.bcn := rfl
@[simp] theorem State.ledIn_flood (b : Block) (n : Nat) : (s.ledIn b n).flood = s.flood := rfl
@[simp] theorem State.ledIn_starter (b : Block) (n : Nat) : (s.ledIn b n).starter = s.starter := rfl
@[simp] theorem State.ledIn_tamp (b : Block) (n : Nat) : (s.ledIn b n).tamp = s.tamp := rfl
@[simp] theorem State.ledIn_ports (b : Block) (n : Nat) : (s.ledIn b n).ports = s.ports := rfl
@[simp] theorem State.ledIn_frames (b : Block) (n : Nat) : (s.ledIn b n).frames = s.frames := rfl
@[simp] theorem State.ledIn_sieve (b : Block) (n : Nat) : (s.ledIn b n).sieve = s.sieve := rfl
@[simp] theorem State.ledIn_prefixes (b : Block) (n : Nat) : (s.ledIn b n).prefixes = s.prefixes := rfl
@[simp] theorem State.ledIn_crust (b : Block) (n : Nat) : (s.ledIn b n).crust = s.crust := rfl
@[simp] theorem State.ledIn_proof (b : Block) (n : Nat) : (s.ledIn b n).proof = s.proof := rfl
@[simp] theorem State.ledIn_fwu (b : Block) (n : Nat) : (s.ledIn b n).fwu = s.fwu := rfl
@[simp] theorem State.ledIn_crc (b : Block) (n : Nat) : (s.ledIn b n).crc = s.crc := rfl
@[simp] theorem State.ledIn_tap (b : Block) (n : Nat) : (s.ledIn b n).tap = s.tap := rfl
@[simp] theorem State.ledIn_nor (b : Block) (n : Nat) : (s.ledIn b n).nor = s.nor := rfl
@[simp] theorem State.ledIn_qspi (b : Block) (n : Nat) : (s.ledIn b n).qspi = s.qspi := rfl
@[simp] theorem State.ledIn_resetAsked (b : Block) (n : Nat) : (s.ledIn b n).resetAsked = s.resetAsked := rfl
@[simp] theorem State.ledIn_dram (b : Block) (n : Nat) : (s.ledIn b n).dram = s.dram := rfl
@[simp] theorem State.ledIn_busData (b : Block) (n : Nat) : (s.ledIn b n).busData = s.busData := rfl
@[simp] theorem State.ledIn_spiData (b : Block) (n : Nat) : (s.ledIn b n).spiData = s.spiData := rfl
@[simp] theorem State.ledIn_msixSent (b : Block) (n : Nat) : (s.ledIn b n).msixSent = s.msixSent := rfl
@[simp] theorem State.ledIn_freeCtr (b : Block) (n : Nat) : (s.ledIn b n).freeCtr = s.freeCtr := rfl
@[simp] theorem State.ledIn_pending (b : Block) (n : Nat) : (s.ledIn b n).pending = s.pending := rfl

/-! ### `State.ledOut` -/

@[simp] theorem State.ledOut_regs (b : Block) (n : Nat) : (s.ledOut b n).regs = s.regs := rfl
@[simp] theorem State.ledOut_applied (b : Block) (n : Nat) : (s.ledOut b n).applied = s.applied := rfl
@[simp] theorem State.ledOut_devCommit (b : Block) (n : Nat) : (s.ledOut b n).devCommit = s.devCommit := rfl
@[simp] theorem State.ledOut_offWrites (b : Block) (n : Nat) : (s.ledOut b n).offWrites = s.offWrites := rfl
@[simp] theorem State.ledOut_unmapped (b : Block) (n : Nat) : (s.ledOut b n).unmapped = s.unmapped := rfl
@[simp] theorem State.ledOut_spiErr (b : Block) (n : Nat) : (s.ledOut b n).spiErr = s.spiErr := rfl
@[simp] theorem State.ledOut_gov (b : Block) (n : Nat) : (s.ledOut b n).gov = s.gov := rfl
@[simp] theorem State.ledOut_bfifo (b : Block) (n : Nat) : (s.ledOut b n).bfifo = s.bfifo := rfl
@[simp] theorem State.ledOut_tb (b : Block) (n : Nat) : (s.ledOut b n).tb = s.tb := rfl
@[simp] theorem State.ledOut_trig (b : Block) (n : Nat) : (s.ledOut b n).trig = s.trig := rfl
@[simp] theorem State.ledOut_rack (b : Block) (n : Nat) : (s.ledOut b n).rack = s.rack := rfl
@[simp] theorem State.ledOut_boot (b : Block) (n : Nat) : (s.ledOut b n).boot = s.boot := rfl
@[simp] theorem State.ledOut_entering (b : Block) (n : Nat) : (s.ledOut b n).entering = s.entering := rfl
@[simp] theorem State.ledOut_wake (b : Block) (n : Nat) : (s.ledOut b n).wake = s.wake := rfl
@[simp] theorem State.ledOut_peel (b : Block) (n : Nat) : (s.ledOut b n).peel = s.peel := rfl
@[simp] theorem State.ledOut_dir (b : Block) (n : Nat) : (s.ledOut b n).dir = s.dir := rfl
@[simp] theorem State.ledOut_ret (b : Block) (n : Nat) : (s.ledOut b n).ret = s.ret := rfl
@[simp] theorem State.ledOut_host (b : Block) (n : Nat) : (s.ledOut b n).host = s.host := rfl
@[simp] theorem State.ledOut_wb (b : Block) (n : Nat) : (s.ledOut b n).wb = s.wb := rfl
@[simp] theorem State.ledOut_phy (b : Block) (n : Nat) : (s.ledOut b n).phy = s.phy := rfl
@[simp] theorem State.ledOut_rf (b : Block) (n : Nat) : (s.ledOut b n).rf = s.rf := rfl
@[simp] theorem State.ledOut_mac (b : Block) (n : Nat) : (s.ledOut b n).mac = s.mac := rfl
@[simp] theorem State.ledOut_bcn (b : Block) (n : Nat) : (s.ledOut b n).bcn = s.bcn := rfl
@[simp] theorem State.ledOut_flood (b : Block) (n : Nat) : (s.ledOut b n).flood = s.flood := rfl
@[simp] theorem State.ledOut_starter (b : Block) (n : Nat) : (s.ledOut b n).starter = s.starter := rfl
@[simp] theorem State.ledOut_tamp (b : Block) (n : Nat) : (s.ledOut b n).tamp = s.tamp := rfl
@[simp] theorem State.ledOut_ports (b : Block) (n : Nat) : (s.ledOut b n).ports = s.ports := rfl
@[simp] theorem State.ledOut_frames (b : Block) (n : Nat) : (s.ledOut b n).frames = s.frames := rfl
@[simp] theorem State.ledOut_sieve (b : Block) (n : Nat) : (s.ledOut b n).sieve = s.sieve := rfl
@[simp] theorem State.ledOut_prefixes (b : Block) (n : Nat) : (s.ledOut b n).prefixes = s.prefixes := rfl
@[simp] theorem State.ledOut_crust (b : Block) (n : Nat) : (s.ledOut b n).crust = s.crust := rfl
@[simp] theorem State.ledOut_proof (b : Block) (n : Nat) : (s.ledOut b n).proof = s.proof := rfl
@[simp] theorem State.ledOut_fwu (b : Block) (n : Nat) : (s.ledOut b n).fwu = s.fwu := rfl
@[simp] theorem State.ledOut_crc (b : Block) (n : Nat) : (s.ledOut b n).crc = s.crc := rfl
@[simp] theorem State.ledOut_tap (b : Block) (n : Nat) : (s.ledOut b n).tap = s.tap := rfl
@[simp] theorem State.ledOut_nor (b : Block) (n : Nat) : (s.ledOut b n).nor = s.nor := rfl
@[simp] theorem State.ledOut_qspi (b : Block) (n : Nat) : (s.ledOut b n).qspi = s.qspi := rfl
@[simp] theorem State.ledOut_resetAsked (b : Block) (n : Nat) : (s.ledOut b n).resetAsked = s.resetAsked := rfl
@[simp] theorem State.ledOut_dram (b : Block) (n : Nat) : (s.ledOut b n).dram = s.dram := rfl
@[simp] theorem State.ledOut_busData (b : Block) (n : Nat) : (s.ledOut b n).busData = s.busData := rfl
@[simp] theorem State.ledOut_spiData (b : Block) (n : Nat) : (s.ledOut b n).spiData = s.spiData := rfl
@[simp] theorem State.ledOut_msixSent (b : Block) (n : Nat) : (s.ledOut b n).msixSent = s.msixSent := rfl
@[simp] theorem State.ledOut_freeCtr (b : Block) (n : Nat) : (s.ledOut b n).freeCtr = s.freeCtr := rfl
@[simp] theorem State.ledOut_pending (b : Block) (n : Nat) : (s.ledOut b n).pending = s.pending := rfl

/-! ### `State.ledDrop` -/

@[simp] theorem State.ledDrop_regs (b : Block) (n : Nat) : (s.ledDrop b n).regs = s.regs := rfl
@[simp] theorem State.ledDrop_applied (b : Block) (n : Nat) : (s.ledDrop b n).applied = s.applied := rfl
@[simp] theorem State.ledDrop_devCommit (b : Block) (n : Nat) : (s.ledDrop b n).devCommit = s.devCommit := rfl
@[simp] theorem State.ledDrop_offWrites (b : Block) (n : Nat) : (s.ledDrop b n).offWrites = s.offWrites := rfl
@[simp] theorem State.ledDrop_unmapped (b : Block) (n : Nat) : (s.ledDrop b n).unmapped = s.unmapped := rfl
@[simp] theorem State.ledDrop_spiErr (b : Block) (n : Nat) : (s.ledDrop b n).spiErr = s.spiErr := rfl
@[simp] theorem State.ledDrop_gov (b : Block) (n : Nat) : (s.ledDrop b n).gov = s.gov := rfl
@[simp] theorem State.ledDrop_bfifo (b : Block) (n : Nat) : (s.ledDrop b n).bfifo = s.bfifo := rfl
@[simp] theorem State.ledDrop_tb (b : Block) (n : Nat) : (s.ledDrop b n).tb = s.tb := rfl
@[simp] theorem State.ledDrop_trig (b : Block) (n : Nat) : (s.ledDrop b n).trig = s.trig := rfl
@[simp] theorem State.ledDrop_rack (b : Block) (n : Nat) : (s.ledDrop b n).rack = s.rack := rfl
@[simp] theorem State.ledDrop_boot (b : Block) (n : Nat) : (s.ledDrop b n).boot = s.boot := rfl
@[simp] theorem State.ledDrop_entering (b : Block) (n : Nat) : (s.ledDrop b n).entering = s.entering := rfl
@[simp] theorem State.ledDrop_wake (b : Block) (n : Nat) : (s.ledDrop b n).wake = s.wake := rfl
@[simp] theorem State.ledDrop_peel (b : Block) (n : Nat) : (s.ledDrop b n).peel = s.peel := rfl
@[simp] theorem State.ledDrop_dir (b : Block) (n : Nat) : (s.ledDrop b n).dir = s.dir := rfl
@[simp] theorem State.ledDrop_ret (b : Block) (n : Nat) : (s.ledDrop b n).ret = s.ret := rfl
@[simp] theorem State.ledDrop_host (b : Block) (n : Nat) : (s.ledDrop b n).host = s.host := rfl
@[simp] theorem State.ledDrop_wb (b : Block) (n : Nat) : (s.ledDrop b n).wb = s.wb := rfl
@[simp] theorem State.ledDrop_phy (b : Block) (n : Nat) : (s.ledDrop b n).phy = s.phy := rfl
@[simp] theorem State.ledDrop_rf (b : Block) (n : Nat) : (s.ledDrop b n).rf = s.rf := rfl
@[simp] theorem State.ledDrop_mac (b : Block) (n : Nat) : (s.ledDrop b n).mac = s.mac := rfl
@[simp] theorem State.ledDrop_bcn (b : Block) (n : Nat) : (s.ledDrop b n).bcn = s.bcn := rfl
@[simp] theorem State.ledDrop_flood (b : Block) (n : Nat) : (s.ledDrop b n).flood = s.flood := rfl
@[simp] theorem State.ledDrop_starter (b : Block) (n : Nat) : (s.ledDrop b n).starter = s.starter := rfl
@[simp] theorem State.ledDrop_tamp (b : Block) (n : Nat) : (s.ledDrop b n).tamp = s.tamp := rfl
@[simp] theorem State.ledDrop_ports (b : Block) (n : Nat) : (s.ledDrop b n).ports = s.ports := rfl
@[simp] theorem State.ledDrop_frames (b : Block) (n : Nat) : (s.ledDrop b n).frames = s.frames := rfl
@[simp] theorem State.ledDrop_sieve (b : Block) (n : Nat) : (s.ledDrop b n).sieve = s.sieve := rfl
@[simp] theorem State.ledDrop_prefixes (b : Block) (n : Nat) : (s.ledDrop b n).prefixes = s.prefixes := rfl
@[simp] theorem State.ledDrop_crust (b : Block) (n : Nat) : (s.ledDrop b n).crust = s.crust := rfl
@[simp] theorem State.ledDrop_proof (b : Block) (n : Nat) : (s.ledDrop b n).proof = s.proof := rfl
@[simp] theorem State.ledDrop_fwu (b : Block) (n : Nat) : (s.ledDrop b n).fwu = s.fwu := rfl
@[simp] theorem State.ledDrop_crc (b : Block) (n : Nat) : (s.ledDrop b n).crc = s.crc := rfl
@[simp] theorem State.ledDrop_tap (b : Block) (n : Nat) : (s.ledDrop b n).tap = s.tap := rfl
@[simp] theorem State.ledDrop_nor (b : Block) (n : Nat) : (s.ledDrop b n).nor = s.nor := rfl
@[simp] theorem State.ledDrop_qspi (b : Block) (n : Nat) : (s.ledDrop b n).qspi = s.qspi := rfl
@[simp] theorem State.ledDrop_resetAsked (b : Block) (n : Nat) : (s.ledDrop b n).resetAsked = s.resetAsked := rfl
@[simp] theorem State.ledDrop_dram (b : Block) (n : Nat) : (s.ledDrop b n).dram = s.dram := rfl
@[simp] theorem State.ledDrop_busData (b : Block) (n : Nat) : (s.ledDrop b n).busData = s.busData := rfl
@[simp] theorem State.ledDrop_spiData (b : Block) (n : Nat) : (s.ledDrop b n).spiData = s.spiData := rfl
@[simp] theorem State.ledDrop_msixSent (b : Block) (n : Nat) : (s.ledDrop b n).msixSent = s.msixSent := rfl
@[simp] theorem State.ledDrop_freeCtr (b : Block) (n : Nat) : (s.ledDrop b n).freeCtr = s.freeCtr := rfl
@[simp] theorem State.ledDrop_pending (b : Block) (n : Nat) : (s.ledDrop b n).pending = s.pending := rfl

/-! ### `State.ledFence` -/

@[simp] theorem State.ledFence_regs (b : Block) (n : Nat) : (s.ledFence b n).regs = s.regs := rfl
@[simp] theorem State.ledFence_applied (b : Block) (n : Nat) : (s.ledFence b n).applied = s.applied := rfl
@[simp] theorem State.ledFence_devCommit (b : Block) (n : Nat) : (s.ledFence b n).devCommit = s.devCommit := rfl
@[simp] theorem State.ledFence_offWrites (b : Block) (n : Nat) : (s.ledFence b n).offWrites = s.offWrites := rfl
@[simp] theorem State.ledFence_unmapped (b : Block) (n : Nat) : (s.ledFence b n).unmapped = s.unmapped := rfl
@[simp] theorem State.ledFence_spiErr (b : Block) (n : Nat) : (s.ledFence b n).spiErr = s.spiErr := rfl
@[simp] theorem State.ledFence_gov (b : Block) (n : Nat) : (s.ledFence b n).gov = s.gov := rfl
@[simp] theorem State.ledFence_bfifo (b : Block) (n : Nat) : (s.ledFence b n).bfifo = s.bfifo := rfl
@[simp] theorem State.ledFence_tb (b : Block) (n : Nat) : (s.ledFence b n).tb = s.tb := rfl
@[simp] theorem State.ledFence_trig (b : Block) (n : Nat) : (s.ledFence b n).trig = s.trig := rfl
@[simp] theorem State.ledFence_rack (b : Block) (n : Nat) : (s.ledFence b n).rack = s.rack := rfl
@[simp] theorem State.ledFence_boot (b : Block) (n : Nat) : (s.ledFence b n).boot = s.boot := rfl
@[simp] theorem State.ledFence_entering (b : Block) (n : Nat) : (s.ledFence b n).entering = s.entering := rfl
@[simp] theorem State.ledFence_wake (b : Block) (n : Nat) : (s.ledFence b n).wake = s.wake := rfl
@[simp] theorem State.ledFence_peel (b : Block) (n : Nat) : (s.ledFence b n).peel = s.peel := rfl
@[simp] theorem State.ledFence_dir (b : Block) (n : Nat) : (s.ledFence b n).dir = s.dir := rfl
@[simp] theorem State.ledFence_ret (b : Block) (n : Nat) : (s.ledFence b n).ret = s.ret := rfl
@[simp] theorem State.ledFence_host (b : Block) (n : Nat) : (s.ledFence b n).host = s.host := rfl
@[simp] theorem State.ledFence_wb (b : Block) (n : Nat) : (s.ledFence b n).wb = s.wb := rfl
@[simp] theorem State.ledFence_phy (b : Block) (n : Nat) : (s.ledFence b n).phy = s.phy := rfl
@[simp] theorem State.ledFence_rf (b : Block) (n : Nat) : (s.ledFence b n).rf = s.rf := rfl
@[simp] theorem State.ledFence_mac (b : Block) (n : Nat) : (s.ledFence b n).mac = s.mac := rfl
@[simp] theorem State.ledFence_bcn (b : Block) (n : Nat) : (s.ledFence b n).bcn = s.bcn := rfl
@[simp] theorem State.ledFence_flood (b : Block) (n : Nat) : (s.ledFence b n).flood = s.flood := rfl
@[simp] theorem State.ledFence_starter (b : Block) (n : Nat) : (s.ledFence b n).starter = s.starter := rfl
@[simp] theorem State.ledFence_tamp (b : Block) (n : Nat) : (s.ledFence b n).tamp = s.tamp := rfl
@[simp] theorem State.ledFence_ports (b : Block) (n : Nat) : (s.ledFence b n).ports = s.ports := rfl
@[simp] theorem State.ledFence_frames (b : Block) (n : Nat) : (s.ledFence b n).frames = s.frames := rfl
@[simp] theorem State.ledFence_sieve (b : Block) (n : Nat) : (s.ledFence b n).sieve = s.sieve := rfl
@[simp] theorem State.ledFence_prefixes (b : Block) (n : Nat) : (s.ledFence b n).prefixes = s.prefixes := rfl
@[simp] theorem State.ledFence_crust (b : Block) (n : Nat) : (s.ledFence b n).crust = s.crust := rfl
@[simp] theorem State.ledFence_proof (b : Block) (n : Nat) : (s.ledFence b n).proof = s.proof := rfl
@[simp] theorem State.ledFence_fwu (b : Block) (n : Nat) : (s.ledFence b n).fwu = s.fwu := rfl
@[simp] theorem State.ledFence_crc (b : Block) (n : Nat) : (s.ledFence b n).crc = s.crc := rfl
@[simp] theorem State.ledFence_tap (b : Block) (n : Nat) : (s.ledFence b n).tap = s.tap := rfl
@[simp] theorem State.ledFence_nor (b : Block) (n : Nat) : (s.ledFence b n).nor = s.nor := rfl
@[simp] theorem State.ledFence_qspi (b : Block) (n : Nat) : (s.ledFence b n).qspi = s.qspi := rfl
@[simp] theorem State.ledFence_resetAsked (b : Block) (n : Nat) : (s.ledFence b n).resetAsked = s.resetAsked := rfl
@[simp] theorem State.ledFence_dram (b : Block) (n : Nat) : (s.ledFence b n).dram = s.dram := rfl
@[simp] theorem State.ledFence_busData (b : Block) (n : Nat) : (s.ledFence b n).busData = s.busData := rfl
@[simp] theorem State.ledFence_spiData (b : Block) (n : Nat) : (s.ledFence b n).spiData = s.spiData := rfl
@[simp] theorem State.ledFence_msixSent (b : Block) (n : Nat) : (s.ledFence b n).msixSent = s.msixSent := rfl
@[simp] theorem State.ledFence_freeCtr (b : Block) (n : Nat) : (s.ledFence b n).freeCtr = s.freeCtr := rfl
@[simp] theorem State.ledFence_pending (b : Block) (n : Nat) : (s.ledFence b n).pending = s.pending := rfl

/-! ### `State.startRun` -/

@[simp] theorem State.startRun_regs (b : Block) (r : RunCmd) : (s.startRun b r).regs = s.regs := rfl
@[simp] theorem State.startRun_applied (b : Block) (r : RunCmd) : (s.startRun b r).applied = s.applied := rfl
@[simp] theorem State.startRun_devCommit (b : Block) (r : RunCmd) : (s.startRun b r).devCommit = s.devCommit := rfl
@[simp] theorem State.startRun_offWrites (b : Block) (r : RunCmd) : (s.startRun b r).offWrites = s.offWrites := rfl
@[simp] theorem State.startRun_unmapped (b : Block) (r : RunCmd) : (s.startRun b r).unmapped = s.unmapped := rfl
@[simp] theorem State.startRun_spiErr (b : Block) (r : RunCmd) : (s.startRun b r).spiErr = s.spiErr := rfl
@[simp] theorem State.startRun_gov (b : Block) (r : RunCmd) : (s.startRun b r).gov = s.gov := rfl
@[simp] theorem State.startRun_bfifo (b : Block) (r : RunCmd) : (s.startRun b r).bfifo = s.bfifo := rfl
@[simp] theorem State.startRun_tb (b : Block) (r : RunCmd) : (s.startRun b r).tb = s.tb := rfl
@[simp] theorem State.startRun_trig (b : Block) (r : RunCmd) : (s.startRun b r).trig = s.trig := rfl
@[simp] theorem State.startRun_rack (b : Block) (r : RunCmd) : (s.startRun b r).rack = s.rack := rfl
@[simp] theorem State.startRun_boot (b : Block) (r : RunCmd) : (s.startRun b r).boot = s.boot := rfl
@[simp] theorem State.startRun_entering (b : Block) (r : RunCmd) : (s.startRun b r).entering = s.entering := rfl
@[simp] theorem State.startRun_wake (b : Block) (r : RunCmd) : (s.startRun b r).wake = s.wake := rfl
@[simp] theorem State.startRun_peel (b : Block) (r : RunCmd) : (s.startRun b r).peel = s.peel := rfl
@[simp] theorem State.startRun_dir (b : Block) (r : RunCmd) : (s.startRun b r).dir = s.dir := rfl
@[simp] theorem State.startRun_ret (b : Block) (r : RunCmd) : (s.startRun b r).ret = s.ret := rfl
@[simp] theorem State.startRun_host (b : Block) (r : RunCmd) : (s.startRun b r).host = s.host := rfl
@[simp] theorem State.startRun_wb (b : Block) (r : RunCmd) : (s.startRun b r).wb = s.wb := rfl
@[simp] theorem State.startRun_phy (b : Block) (r : RunCmd) : (s.startRun b r).phy = s.phy := rfl
@[simp] theorem State.startRun_rf (b : Block) (r : RunCmd) : (s.startRun b r).rf = s.rf := rfl
@[simp] theorem State.startRun_mac (b : Block) (r : RunCmd) : (s.startRun b r).mac = s.mac := rfl
@[simp] theorem State.startRun_bcn (b : Block) (r : RunCmd) : (s.startRun b r).bcn = s.bcn := rfl
@[simp] theorem State.startRun_flood (b : Block) (r : RunCmd) : (s.startRun b r).flood = s.flood := rfl
@[simp] theorem State.startRun_starter (b : Block) (r : RunCmd) : (s.startRun b r).starter = s.starter := rfl
@[simp] theorem State.startRun_tamp (b : Block) (r : RunCmd) : (s.startRun b r).tamp = s.tamp := rfl
@[simp] theorem State.startRun_ports (b : Block) (r : RunCmd) : (s.startRun b r).ports = s.ports := rfl
@[simp] theorem State.startRun_frames (b : Block) (r : RunCmd) : (s.startRun b r).frames = s.frames := rfl
@[simp] theorem State.startRun_sieve (b : Block) (r : RunCmd) : (s.startRun b r).sieve = s.sieve := rfl
@[simp] theorem State.startRun_prefixes (b : Block) (r : RunCmd) : (s.startRun b r).prefixes = s.prefixes := rfl
@[simp] theorem State.startRun_crust (b : Block) (r : RunCmd) : (s.startRun b r).crust = s.crust := rfl
@[simp] theorem State.startRun_proof (b : Block) (r : RunCmd) : (s.startRun b r).proof = s.proof := rfl
@[simp] theorem State.startRun_fwu (b : Block) (r : RunCmd) : (s.startRun b r).fwu = s.fwu := rfl
@[simp] theorem State.startRun_crc (b : Block) (r : RunCmd) : (s.startRun b r).crc = s.crc := rfl
@[simp] theorem State.startRun_tap (b : Block) (r : RunCmd) : (s.startRun b r).tap = s.tap := rfl
@[simp] theorem State.startRun_nor (b : Block) (r : RunCmd) : (s.startRun b r).nor = s.nor := rfl
@[simp] theorem State.startRun_qspi (b : Block) (r : RunCmd) : (s.startRun b r).qspi = s.qspi := rfl
@[simp] theorem State.startRun_resetAsked (b : Block) (r : RunCmd) : (s.startRun b r).resetAsked = s.resetAsked := rfl
@[simp] theorem State.startRun_dram (b : Block) (r : RunCmd) : (s.startRun b r).dram = s.dram := rfl
@[simp] theorem State.startRun_busData (b : Block) (r : RunCmd) : (s.startRun b r).busData = s.busData := rfl
@[simp] theorem State.startRun_spiData (b : Block) (r : RunCmd) : (s.startRun b r).spiData = s.spiData := rfl
@[simp] theorem State.startRun_msixSent (b : Block) (r : RunCmd) : (s.startRun b r).msixSent = s.msixSent := rfl
@[simp] theorem State.startRun_freeCtr (b : Block) (r : RunCmd) : (s.startRun b r).freeCtr = s.freeCtr := rfl
@[simp] theorem State.startRun_pending (b : Block) (r : RunCmd) : (s.startRun b r).pending = s.pending := rfl

/-! ### `State.complete` -/

@[simp] theorem State.complete_applied (b : Block) (c : Code) (d : Nat) (x y z : W32) : (s.complete b c d x y z).applied = s.applied := rfl
@[simp] theorem State.complete_devCommit (b : Block) (c : Code) (d : Nat) (x y z : W32) : (s.complete b c d x y z).devCommit = s.devCommit := rfl
@[simp] theorem State.complete_offWrites (b : Block) (c : Code) (d : Nat) (x y z : W32) : (s.complete b c d x y z).offWrites = s.offWrites := rfl
@[simp] theorem State.complete_unmapped (b : Block) (c : Code) (d : Nat) (x y z : W32) : (s.complete b c d x y z).unmapped = s.unmapped := rfl
@[simp] theorem State.complete_spiErr (b : Block) (c : Code) (d : Nat) (x y z : W32) : (s.complete b c d x y z).spiErr = s.spiErr := rfl
@[simp] theorem State.complete_gov (b : Block) (c : Code) (d : Nat) (x y z : W32) : (s.complete b c d x y z).gov = s.gov := rfl
@[simp] theorem State.complete_bfifo (b : Block) (c : Code) (d : Nat) (x y z : W32) : (s.complete b c d x y z).bfifo = s.bfifo := rfl
@[simp] theorem State.complete_tb (b : Block) (c : Code) (d : Nat) (x y z : W32) : (s.complete b c d x y z).tb = s.tb := rfl
@[simp] theorem State.complete_trig (b : Block) (c : Code) (d : Nat) (x y z : W32) : (s.complete b c d x y z).trig = s.trig := rfl
@[simp] theorem State.complete_rack (b : Block) (c : Code) (d : Nat) (x y z : W32) : (s.complete b c d x y z).rack = s.rack := rfl
@[simp] theorem State.complete_boot (b : Block) (c : Code) (d : Nat) (x y z : W32) : (s.complete b c d x y z).boot = s.boot := rfl
@[simp] theorem State.complete_entering (b : Block) (c : Code) (d : Nat) (x y z : W32) : (s.complete b c d x y z).entering = s.entering := rfl
@[simp] theorem State.complete_wake (b : Block) (c : Code) (d : Nat) (x y z : W32) : (s.complete b c d x y z).wake = s.wake := rfl
@[simp] theorem State.complete_peel (b : Block) (c : Code) (d : Nat) (x y z : W32) : (s.complete b c d x y z).peel = s.peel := rfl
@[simp] theorem State.complete_dir (b : Block) (c : Code) (d : Nat) (x y z : W32) : (s.complete b c d x y z).dir = s.dir := rfl
@[simp] theorem State.complete_ret (b : Block) (c : Code) (d : Nat) (x y z : W32) : (s.complete b c d x y z).ret = s.ret := rfl
@[simp] theorem State.complete_host (b : Block) (c : Code) (d : Nat) (x y z : W32) : (s.complete b c d x y z).host = s.host := rfl
@[simp] theorem State.complete_wb (b : Block) (c : Code) (d : Nat) (x y z : W32) : (s.complete b c d x y z).wb = s.wb := rfl
@[simp] theorem State.complete_phy (b : Block) (c : Code) (d : Nat) (x y z : W32) : (s.complete b c d x y z).phy = s.phy := rfl
@[simp] theorem State.complete_rf (b : Block) (c : Code) (d : Nat) (x y z : W32) : (s.complete b c d x y z).rf = s.rf := rfl
@[simp] theorem State.complete_mac (b : Block) (c : Code) (d : Nat) (x y z : W32) : (s.complete b c d x y z).mac = s.mac := rfl
@[simp] theorem State.complete_bcn (b : Block) (c : Code) (d : Nat) (x y z : W32) : (s.complete b c d x y z).bcn = s.bcn := rfl
@[simp] theorem State.complete_flood (b : Block) (c : Code) (d : Nat) (x y z : W32) : (s.complete b c d x y z).flood = s.flood := rfl
@[simp] theorem State.complete_starter (b : Block) (c : Code) (d : Nat) (x y z : W32) : (s.complete b c d x y z).starter = s.starter := rfl
@[simp] theorem State.complete_tamp (b : Block) (c : Code) (d : Nat) (x y z : W32) : (s.complete b c d x y z).tamp = s.tamp := rfl
@[simp] theorem State.complete_ports (b : Block) (c : Code) (d : Nat) (x y z : W32) : (s.complete b c d x y z).ports = s.ports := rfl
@[simp] theorem State.complete_frames (b : Block) (c : Code) (d : Nat) (x y z : W32) : (s.complete b c d x y z).frames = s.frames := rfl
@[simp] theorem State.complete_sieve (b : Block) (c : Code) (d : Nat) (x y z : W32) : (s.complete b c d x y z).sieve = s.sieve := rfl
@[simp] theorem State.complete_prefixes (b : Block) (c : Code) (d : Nat) (x y z : W32) : (s.complete b c d x y z).prefixes = s.prefixes := rfl
@[simp] theorem State.complete_crust (b : Block) (c : Code) (d : Nat) (x y z : W32) : (s.complete b c d x y z).crust = s.crust := rfl
@[simp] theorem State.complete_proof (b : Block) (c : Code) (d : Nat) (x y z : W32) : (s.complete b c d x y z).proof = s.proof := rfl
@[simp] theorem State.complete_fwu (b : Block) (c : Code) (d : Nat) (x y z : W32) : (s.complete b c d x y z).fwu = s.fwu := rfl
@[simp] theorem State.complete_crc (b : Block) (c : Code) (d : Nat) (x y z : W32) : (s.complete b c d x y z).crc = s.crc := rfl
@[simp] theorem State.complete_tap (b : Block) (c : Code) (d : Nat) (x y z : W32) : (s.complete b c d x y z).tap = s.tap := rfl
@[simp] theorem State.complete_nor (b : Block) (c : Code) (d : Nat) (x y z : W32) : (s.complete b c d x y z).nor = s.nor := rfl
@[simp] theorem State.complete_qspi (b : Block) (c : Code) (d : Nat) (x y z : W32) : (s.complete b c d x y z).qspi = s.qspi := rfl
@[simp] theorem State.complete_resetAsked (b : Block) (c : Code) (d : Nat) (x y z : W32) : (s.complete b c d x y z).resetAsked = s.resetAsked := rfl
@[simp] theorem State.complete_dram (b : Block) (c : Code) (d : Nat) (x y z : W32) : (s.complete b c d x y z).dram = s.dram := rfl
@[simp] theorem State.complete_busData (b : Block) (c : Code) (d : Nat) (x y z : W32) : (s.complete b c d x y z).busData = s.busData := rfl
@[simp] theorem State.complete_spiData (b : Block) (c : Code) (d : Nat) (x y z : W32) : (s.complete b c d x y z).spiData = s.spiData := rfl
@[simp] theorem State.complete_msixSent (b : Block) (c : Code) (d : Nat) (x y z : W32) : (s.complete b c d x y z).msixSent = s.msixSent := rfl
@[simp] theorem State.complete_freeCtr (b : Block) (c : Code) (d : Nat) (x y z : W32) : (s.complete b c d x y z).freeCtr = s.freeCtr := rfl
@[simp] theorem State.complete_pending (b : Block) (c : Code) (d : Nat) (x y z : W32) : (s.complete b c d x y z).pending = s.pending := rfl

/-! ### `State.done` -/

@[simp] theorem State.done_applied (b : Block) (c : Code) : (s.done b c).applied = s.applied := rfl
@[simp] theorem State.done_devCommit (b : Block) (c : Code) : (s.done b c).devCommit = s.devCommit := rfl
@[simp] theorem State.done_offWrites (b : Block) (c : Code) : (s.done b c).offWrites = s.offWrites := rfl
@[simp] theorem State.done_unmapped (b : Block) (c : Code) : (s.done b c).unmapped = s.unmapped := rfl
@[simp] theorem State.done_spiErr (b : Block) (c : Code) : (s.done b c).spiErr = s.spiErr := rfl
@[simp] theorem State.done_gov (b : Block) (c : Code) : (s.done b c).gov = s.gov := rfl
@[simp] theorem State.done_bfifo (b : Block) (c : Code) : (s.done b c).bfifo = s.bfifo := rfl
@[simp] theorem State.done_tb (b : Block) (c : Code) : (s.done b c).tb = s.tb := rfl
@[simp] theorem State.done_trig (b : Block) (c : Code) : (s.done b c).trig = s.trig := rfl
@[simp] theorem State.done_rack (b : Block) (c : Code) : (s.done b c).rack = s.rack := rfl
@[simp] theorem State.done_boot (b : Block) (c : Code) : (s.done b c).boot = s.boot := rfl
@[simp] theorem State.done_entering (b : Block) (c : Code) : (s.done b c).entering = s.entering := rfl
@[simp] theorem State.done_wake (b : Block) (c : Code) : (s.done b c).wake = s.wake := rfl
@[simp] theorem State.done_peel (b : Block) (c : Code) : (s.done b c).peel = s.peel := rfl
@[simp] theorem State.done_dir (b : Block) (c : Code) : (s.done b c).dir = s.dir := rfl
@[simp] theorem State.done_ret (b : Block) (c : Code) : (s.done b c).ret = s.ret := rfl
@[simp] theorem State.done_host (b : Block) (c : Code) : (s.done b c).host = s.host := rfl
@[simp] theorem State.done_wb (b : Block) (c : Code) : (s.done b c).wb = s.wb := rfl
@[simp] theorem State.done_phy (b : Block) (c : Code) : (s.done b c).phy = s.phy := rfl
@[simp] theorem State.done_rf (b : Block) (c : Code) : (s.done b c).rf = s.rf := rfl
@[simp] theorem State.done_mac (b : Block) (c : Code) : (s.done b c).mac = s.mac := rfl
@[simp] theorem State.done_bcn (b : Block) (c : Code) : (s.done b c).bcn = s.bcn := rfl
@[simp] theorem State.done_flood (b : Block) (c : Code) : (s.done b c).flood = s.flood := rfl
@[simp] theorem State.done_starter (b : Block) (c : Code) : (s.done b c).starter = s.starter := rfl
@[simp] theorem State.done_tamp (b : Block) (c : Code) : (s.done b c).tamp = s.tamp := rfl
@[simp] theorem State.done_ports (b : Block) (c : Code) : (s.done b c).ports = s.ports := rfl
@[simp] theorem State.done_frames (b : Block) (c : Code) : (s.done b c).frames = s.frames := rfl
@[simp] theorem State.done_sieve (b : Block) (c : Code) : (s.done b c).sieve = s.sieve := rfl
@[simp] theorem State.done_prefixes (b : Block) (c : Code) : (s.done b c).prefixes = s.prefixes := rfl
@[simp] theorem State.done_crust (b : Block) (c : Code) : (s.done b c).crust = s.crust := rfl
@[simp] theorem State.done_proof (b : Block) (c : Code) : (s.done b c).proof = s.proof := rfl
@[simp] theorem State.done_fwu (b : Block) (c : Code) : (s.done b c).fwu = s.fwu := rfl
@[simp] theorem State.done_crc (b : Block) (c : Code) : (s.done b c).crc = s.crc := rfl
@[simp] theorem State.done_tap (b : Block) (c : Code) : (s.done b c).tap = s.tap := rfl
@[simp] theorem State.done_nor (b : Block) (c : Code) : (s.done b c).nor = s.nor := rfl
@[simp] theorem State.done_qspi (b : Block) (c : Code) : (s.done b c).qspi = s.qspi := rfl
@[simp] theorem State.done_resetAsked (b : Block) (c : Code) : (s.done b c).resetAsked = s.resetAsked := rfl
@[simp] theorem State.done_dram (b : Block) (c : Code) : (s.done b c).dram = s.dram := rfl
@[simp] theorem State.done_busData (b : Block) (c : Code) : (s.done b c).busData = s.busData := rfl
@[simp] theorem State.done_spiData (b : Block) (c : Code) : (s.done b c).spiData = s.spiData := rfl
@[simp] theorem State.done_msixSent (b : Block) (c : Code) : (s.done b c).msixSent = s.msixSent := rfl
@[simp] theorem State.done_freeCtr (b : Block) (c : Code) : (s.done b c).freeCtr = s.freeCtr := rfl
@[simp] theorem State.done_pending (b : Block) (c : Code) : (s.done b c).pending = s.pending := rfl

/-! ### `State.offWrite` -/

@[simp] theorem State.offWrite_regs : s.offWrite.regs = s.regs := rfl
@[simp] theorem State.offWrite_applied : s.offWrite.applied = s.applied := rfl
@[simp] theorem State.offWrite_blocks : s.offWrite.blocks = s.blocks := rfl
@[simp] theorem State.offWrite_devCommit : s.offWrite.devCommit = s.devCommit := rfl
@[simp] theorem State.offWrite_unmapped : s.offWrite.unmapped = s.unmapped := rfl
@[simp] theorem State.offWrite_spiErr : s.offWrite.spiErr = s.spiErr := rfl
@[simp] theorem State.offWrite_gov : s.offWrite.gov = s.gov := rfl
@[simp] theorem State.offWrite_bfifo : s.offWrite.bfifo = s.bfifo := rfl
@[simp] theorem State.offWrite_tb : s.offWrite.tb = s.tb := rfl
@[simp] theorem State.offWrite_trig : s.offWrite.trig = s.trig := rfl
@[simp] theorem State.offWrite_rack : s.offWrite.rack = s.rack := rfl
@[simp] theorem State.offWrite_boot : s.offWrite.boot = s.boot := rfl
@[simp] theorem State.offWrite_entering : s.offWrite.entering = s.entering := rfl
@[simp] theorem State.offWrite_wake : s.offWrite.wake = s.wake := rfl
@[simp] theorem State.offWrite_peel : s.offWrite.peel = s.peel := rfl
@[simp] theorem State.offWrite_dir : s.offWrite.dir = s.dir := rfl
@[simp] theorem State.offWrite_ret : s.offWrite.ret = s.ret := rfl
@[simp] theorem State.offWrite_host : s.offWrite.host = s.host := rfl
@[simp] theorem State.offWrite_wb : s.offWrite.wb = s.wb := rfl
@[simp] theorem State.offWrite_phy : s.offWrite.phy = s.phy := rfl
@[simp] theorem State.offWrite_rf : s.offWrite.rf = s.rf := rfl
@[simp] theorem State.offWrite_mac : s.offWrite.mac = s.mac := rfl
@[simp] theorem State.offWrite_bcn : s.offWrite.bcn = s.bcn := rfl
@[simp] theorem State.offWrite_flood : s.offWrite.flood = s.flood := rfl
@[simp] theorem State.offWrite_starter : s.offWrite.starter = s.starter := rfl
@[simp] theorem State.offWrite_tamp : s.offWrite.tamp = s.tamp := rfl
@[simp] theorem State.offWrite_ports : s.offWrite.ports = s.ports := rfl
@[simp] theorem State.offWrite_frames : s.offWrite.frames = s.frames := rfl
@[simp] theorem State.offWrite_sieve : s.offWrite.sieve = s.sieve := rfl
@[simp] theorem State.offWrite_prefixes : s.offWrite.prefixes = s.prefixes := rfl
@[simp] theorem State.offWrite_crust : s.offWrite.crust = s.crust := rfl
@[simp] theorem State.offWrite_proof : s.offWrite.proof = s.proof := rfl
@[simp] theorem State.offWrite_fwu : s.offWrite.fwu = s.fwu := rfl
@[simp] theorem State.offWrite_crc : s.offWrite.crc = s.crc := rfl
@[simp] theorem State.offWrite_tap : s.offWrite.tap = s.tap := rfl
@[simp] theorem State.offWrite_nor : s.offWrite.nor = s.nor := rfl
@[simp] theorem State.offWrite_qspi : s.offWrite.qspi = s.qspi := rfl
@[simp] theorem State.offWrite_resetAsked : s.offWrite.resetAsked = s.resetAsked := rfl
@[simp] theorem State.offWrite_dram : s.offWrite.dram = s.dram := rfl
@[simp] theorem State.offWrite_busData : s.offWrite.busData = s.busData := rfl
@[simp] theorem State.offWrite_spiData : s.offWrite.spiData = s.spiData := rfl
@[simp] theorem State.offWrite_msixSent : s.offWrite.msixSent = s.msixSent := rfl
@[simp] theorem State.offWrite_freeCtr : s.offWrite.freeCtr = s.freeCtr := rfl
@[simp] theorem State.offWrite_pending : s.offWrite.pending = s.pending := rfl

end Sys2Proof.Machine
end

