-- ==== Sys2Proof/Laws/Notices.lean ====
section
/-! SUPPORT. What the shared notices can do: an event, a message and a drop record change registers, Rack's FIFOs and the messages sent, and
nothing else; one lemma per field they leave alone. -/

namespace Sys2Proof.Machine

/-- From `s` to `t` only registers, Rack's state and the messages sent change. -/
def State.onlyNotices (s t : State) : Prop := ∃ r k m, t = { s with regs := r, rack := k, msixSent := m }

theorem State.onlyNotices_refl (s : State) : s.onlyNotices s := ⟨_, _, _, rfl⟩

theorem State.onlyNotices_trans {s t u : State} (h : s.onlyNotices t) (k : t.onlyNotices u) : s.onlyNotices u := by
  obtain ⟨_, _, _, rfl⟩ := h
  obtain ⟨_, _, _, rfl⟩ := k
  exact ⟨_, _, _, rfl⟩

theorem State.put_onlyNotices (s : State) (f : Fld) (x : Nat) : s.onlyNotices (s.put f x) := ⟨_, _, _, rfl⟩

/-- Everything a message can do. -/
theorem State.msi_onlyNotices (s : State) (n : Nat) : s.onlyNotices (s.msi n) := by
  unfold State.msi
  dsimp only
  split
  · exact s.onlyNotices_refl
  · split
    · exact s.put_onlyNotices _ _
    · exact ⟨_, _, _, rfl⟩

/-- Everything the setting of a flag can do. -/
theorem State.raiseEvt_onlyNotices (s : State) (b : Block) (i : Nat) : s.onlyNotices (s.raiseEvt b i) := by
  unfold State.raiseEvt State.withIrq
  have h : s.onlyNotices ((s.put ⟨b.base + 0x40, i, 1⟩ 1).countEvt b i) :=
    State.onlyNotices_trans (s.put_onlyNotices _ _) (State.put_onlyNotices _ _ _)
  dsimp only
  split
  · exact State.onlyNotices_trans h (State.msi_onlyNotices _ _)
  · exact h

theorem State.traceEvt_onlyNotices (s : State) (b : Block) (i : Nat) : s.onlyNotices (s.traceEvt b i) := by
  unfold State.traceEvt
  split
  · exact s.onlyNotices_refl
  · split
    rename_i l lost _
    have h : s.onlyNotices { s with rack := { s.rack with trace := l } } := ⟨_, _, _, rfl⟩
    dsimp only
    split
    · exact State.onlyNotices_trans h (State.onlyNotices_trans (State.put_onlyNotices _ _ _) (State.raiseEvt_onlyNotices _ _ _))
    · exact h

/-- Everything an event can do. -/
theorem State.evt_onlyNotices (s : State) (b : Block) (i : Nat) : s.onlyNotices (s.evt b i) :=
  State.onlyNotices_trans (s.raiseEvt_onlyNotices b i) (State.traceEvt_onlyNotices _ _ _)

theorem State.evtIf_onlyNotices (s : State) (c : Bool) (b : Block) (i : Nat) : s.onlyNotices (s.evtIf c b i) := by
  unfold State.evtIf
  split
  · exact s.evt_onlyNotices b i
  · exact s.onlyNotices_refl

/-- Everything a drop record can do. -/
theorem State.dropRecord_onlyNotices (s : State) (b : Block) (c : Cause) (len port owner : Nat) (d : W32) :
    s.onlyNotices (s.dropRecord b c len port owner d) := by
  unfold State.dropRecord
  split
  · exact s.onlyNotices_refl
  · split
    rename_i l lost _
    have h : s.onlyNotices { s with rack := { s.rack with drops := l } } := ⟨_, _, _, rfl⟩
    dsimp only
    split
    · exact State.onlyNotices_trans h (State.onlyNotices_trans (State.put_onlyNotices _ _ _) (State.evt_onlyNotices _ _ _))
    · exact h

/-! ### `State.msi` -/

@[simp] theorem State.msi_applied (s : State) (n : Nat) : (s.msi n).applied = s.applied := by
  obtain ⟨_, _, _, e⟩ := s.msi_onlyNotices n; rw [e]
@[simp] theorem State.msi_blocks (s : State) (n : Nat) : (s.msi n).blocks = s.blocks := by
  obtain ⟨_, _, _, e⟩ := s.msi_onlyNotices n; rw [e]
@[simp] theorem State.msi_devCommit (s : State) (n : Nat) : (s.msi n).devCommit = s.devCommit := by
  obtain ⟨_, _, _, e⟩ := s.msi_onlyNotices n; rw [e]
@[simp] theorem State.msi_offWrites (s : State) (n : Nat) : (s.msi n).offWrites = s.offWrites := by
  obtain ⟨_, _, _, e⟩ := s.msi_onlyNotices n; rw [e]
@[simp] theorem State.msi_unmapped (s : State) (n : Nat) : (s.msi n).unmapped = s.unmapped := by
  obtain ⟨_, _, _, e⟩ := s.msi_onlyNotices n; rw [e]
@[simp] theorem State.msi_spiErr (s : State) (n : Nat) : (s.msi n).spiErr = s.spiErr := by
  obtain ⟨_, _, _, e⟩ := s.msi_onlyNotices n; rw [e]
@[simp] theorem State.msi_gov (s : State) (n : Nat) : (s.msi n).gov = s.gov := by
  obtain ⟨_, _, _, e⟩ := s.msi_onlyNotices n; rw [e]
@[simp] theorem State.msi_bfifo (s : State) (n : Nat) : (s.msi n).bfifo = s.bfifo := by
  obtain ⟨_, _, _, e⟩ := s.msi_onlyNotices n; rw [e]
@[simp] theorem State.msi_tb (s : State) (n : Nat) : (s.msi n).tb = s.tb := by
  obtain ⟨_, _, _, e⟩ := s.msi_onlyNotices n; rw [e]
@[simp] theorem State.msi_trig (s : State) (n : Nat) : (s.msi n).trig = s.trig := by
  obtain ⟨_, _, _, e⟩ := s.msi_onlyNotices n; rw [e]
@[simp] theorem State.msi_boot (s : State) (n : Nat) : (s.msi n).boot = s.boot := by
  obtain ⟨_, _, _, e⟩ := s.msi_onlyNotices n; rw [e]
@[simp] theorem State.msi_entering (s : State) (n : Nat) : (s.msi n).entering = s.entering := by
  obtain ⟨_, _, _, e⟩ := s.msi_onlyNotices n; rw [e]
@[simp] theorem State.msi_wake (s : State) (n : Nat) : (s.msi n).wake = s.wake := by
  obtain ⟨_, _, _, e⟩ := s.msi_onlyNotices n; rw [e]
@[simp] theorem State.msi_peel (s : State) (n : Nat) : (s.msi n).peel = s.peel := by
  obtain ⟨_, _, _, e⟩ := s.msi_onlyNotices n; rw [e]
@[simp] theorem State.msi_dir (s : State) (n : Nat) : (s.msi n).dir = s.dir := by
  obtain ⟨_, _, _, e⟩ := s.msi_onlyNotices n; rw [e]
@[simp] theorem State.msi_ret (s : State) (n : Nat) : (s.msi n).ret = s.ret := by
  obtain ⟨_, _, _, e⟩ := s.msi_onlyNotices n; rw [e]
@[simp] theorem State.msi_host (s : State) (n : Nat) : (s.msi n).host = s.host := by
  obtain ⟨_, _, _, e⟩ := s.msi_onlyNotices n; rw [e]
@[simp] theorem State.msi_wb (s : State) (n : Nat) : (s.msi n).wb = s.wb := by
  obtain ⟨_, _, _, e⟩ := s.msi_onlyNotices n; rw [e]
@[simp] theorem State.msi_phy (s : State) (n : Nat) : (s.msi n).phy = s.phy := by
  obtain ⟨_, _, _, e⟩ := s.msi_onlyNotices n; rw [e]
@[simp] theorem State.msi_rf (s : State) (n : Nat) : (s.msi n).rf = s.rf := by
  obtain ⟨_, _, _, e⟩ := s.msi_onlyNotices n; rw [e]
@[simp] theorem State.msi_mac (s : State) (n : Nat) : (s.msi n).mac = s.mac := by
  obtain ⟨_, _, _, e⟩ := s.msi_onlyNotices n; rw [e]
@[simp] theorem State.msi_bcn (s : State) (n : Nat) : (s.msi n).bcn = s.bcn := by
  obtain ⟨_, _, _, e⟩ := s.msi_onlyNotices n; rw [e]
@[simp] theorem State.msi_flood (s : State) (n : Nat) : (s.msi n).flood = s.flood := by
  obtain ⟨_, _, _, e⟩ := s.msi_onlyNotices n; rw [e]
@[simp] theorem State.msi_starter (s : State) (n : Nat) : (s.msi n).starter = s.starter := by
  obtain ⟨_, _, _, e⟩ := s.msi_onlyNotices n; rw [e]
@[simp] theorem State.msi_tamp (s : State) (n : Nat) : (s.msi n).tamp = s.tamp := by
  obtain ⟨_, _, _, e⟩ := s.msi_onlyNotices n; rw [e]
@[simp] theorem State.msi_ports (s : State) (n : Nat) : (s.msi n).ports = s.ports := by
  obtain ⟨_, _, _, e⟩ := s.msi_onlyNotices n; rw [e]
@[simp] theorem State.msi_frames (s : State) (n : Nat) : (s.msi n).frames = s.frames := by
  obtain ⟨_, _, _, e⟩ := s.msi_onlyNotices n; rw [e]
@[simp] theorem State.msi_sieve (s : State) (n : Nat) : (s.msi n).sieve = s.sieve := by
  obtain ⟨_, _, _, e⟩ := s.msi_onlyNotices n; rw [e]
@[simp] theorem State.msi_prefixes (s : State) (n : Nat) : (s.msi n).prefixes = s.prefixes := by
  obtain ⟨_, _, _, e⟩ := s.msi_onlyNotices n; rw [e]
@[simp] theorem State.msi_crust (s : State) (n : Nat) : (s.msi n).crust = s.crust := by
  obtain ⟨_, _, _, e⟩ := s.msi_onlyNotices n; rw [e]
@[simp] theorem State.msi_proof (s : State) (n : Nat) : (s.msi n).proof = s.proof := by
  obtain ⟨_, _, _, e⟩ := s.msi_onlyNotices n; rw [e]
@[simp] theorem State.msi_fwu (s : State) (n : Nat) : (s.msi n).fwu = s.fwu := by
  obtain ⟨_, _, _, e⟩ := s.msi_onlyNotices n; rw [e]
@[simp] theorem State.msi_crc (s : State) (n : Nat) : (s.msi n).crc = s.crc := by
  obtain ⟨_, _, _, e⟩ := s.msi_onlyNotices n; rw [e]
@[simp] theorem State.msi_tap (s : State) (n : Nat) : (s.msi n).tap = s.tap := by
  obtain ⟨_, _, _, e⟩ := s.msi_onlyNotices n; rw [e]
@[simp] theorem State.msi_nor (s : State) (n : Nat) : (s.msi n).nor = s.nor := by
  obtain ⟨_, _, _, e⟩ := s.msi_onlyNotices n; rw [e]
@[simp] theorem State.msi_qspi (s : State) (n : Nat) : (s.msi n).qspi = s.qspi := by
  obtain ⟨_, _, _, e⟩ := s.msi_onlyNotices n; rw [e]
@[simp] theorem State.msi_resetAsked (s : State) (n : Nat) : (s.msi n).resetAsked = s.resetAsked := by
  obtain ⟨_, _, _, e⟩ := s.msi_onlyNotices n; rw [e]
@[simp] theorem State.msi_dram (s : State) (n : Nat) : (s.msi n).dram = s.dram := by
  obtain ⟨_, _, _, e⟩ := s.msi_onlyNotices n; rw [e]
@[simp] theorem State.msi_busData (s : State) (n : Nat) : (s.msi n).busData = s.busData := by
  obtain ⟨_, _, _, e⟩ := s.msi_onlyNotices n; rw [e]
@[simp] theorem State.msi_spiData (s : State) (n : Nat) : (s.msi n).spiData = s.spiData := by
  obtain ⟨_, _, _, e⟩ := s.msi_onlyNotices n; rw [e]
@[simp] theorem State.msi_freeCtr (s : State) (n : Nat) : (s.msi n).freeCtr = s.freeCtr := by
  obtain ⟨_, _, _, e⟩ := s.msi_onlyNotices n; rw [e]
@[simp] theorem State.msi_pending (s : State) (n : Nat) : (s.msi n).pending = s.pending := by
  obtain ⟨_, _, _, e⟩ := s.msi_onlyNotices n; rw [e]

/-! ### `State.raiseEvt` -/

@[simp] theorem State.raiseEvt_applied (s : State) (b : Block) (i : Nat) : (s.raiseEvt b i).applied = s.applied := by
  obtain ⟨_, _, _, e⟩ := s.raiseEvt_onlyNotices b i; rw [e]
@[simp] theorem State.raiseEvt_blocks (s : State) (b : Block) (i : Nat) : (s.raiseEvt b i).blocks = s.blocks := by
  obtain ⟨_, _, _, e⟩ := s.raiseEvt_onlyNotices b i; rw [e]
@[simp] theorem State.raiseEvt_devCommit (s : State) (b : Block) (i : Nat) : (s.raiseEvt b i).devCommit = s.devCommit := by
  obtain ⟨_, _, _, e⟩ := s.raiseEvt_onlyNotices b i; rw [e]
@[simp] theorem State.raiseEvt_offWrites (s : State) (b : Block) (i : Nat) : (s.raiseEvt b i).offWrites = s.offWrites := by
  obtain ⟨_, _, _, e⟩ := s.raiseEvt_onlyNotices b i; rw [e]
@[simp] theorem State.raiseEvt_unmapped (s : State) (b : Block) (i : Nat) : (s.raiseEvt b i).unmapped = s.unmapped := by
  obtain ⟨_, _, _, e⟩ := s.raiseEvt_onlyNotices b i; rw [e]
@[simp] theorem State.raiseEvt_spiErr (s : State) (b : Block) (i : Nat) : (s.raiseEvt b i).spiErr = s.spiErr := by
  obtain ⟨_, _, _, e⟩ := s.raiseEvt_onlyNotices b i; rw [e]
@[simp] theorem State.raiseEvt_gov (s : State) (b : Block) (i : Nat) : (s.raiseEvt b i).gov = s.gov := by
  obtain ⟨_, _, _, e⟩ := s.raiseEvt_onlyNotices b i; rw [e]
@[simp] theorem State.raiseEvt_bfifo (s : State) (b : Block) (i : Nat) : (s.raiseEvt b i).bfifo = s.bfifo := by
  obtain ⟨_, _, _, e⟩ := s.raiseEvt_onlyNotices b i; rw [e]
@[simp] theorem State.raiseEvt_tb (s : State) (b : Block) (i : Nat) : (s.raiseEvt b i).tb = s.tb := by
  obtain ⟨_, _, _, e⟩ := s.raiseEvt_onlyNotices b i; rw [e]
@[simp] theorem State.raiseEvt_trig (s : State) (b : Block) (i : Nat) : (s.raiseEvt b i).trig = s.trig := by
  obtain ⟨_, _, _, e⟩ := s.raiseEvt_onlyNotices b i; rw [e]
@[simp] theorem State.raiseEvt_boot (s : State) (b : Block) (i : Nat) : (s.raiseEvt b i).boot = s.boot := by
  obtain ⟨_, _, _, e⟩ := s.raiseEvt_onlyNotices b i; rw [e]
@[simp] theorem State.raiseEvt_entering (s : State) (b : Block) (i : Nat) : (s.raiseEvt b i).entering = s.entering := by
  obtain ⟨_, _, _, e⟩ := s.raiseEvt_onlyNotices b i; rw [e]
@[simp] theorem State.raiseEvt_wake (s : State) (b : Block) (i : Nat) : (s.raiseEvt b i).wake = s.wake := by
  obtain ⟨_, _, _, e⟩ := s.raiseEvt_onlyNotices b i; rw [e]
@[simp] theorem State.raiseEvt_peel (s : State) (b : Block) (i : Nat) : (s.raiseEvt b i).peel = s.peel := by
  obtain ⟨_, _, _, e⟩ := s.raiseEvt_onlyNotices b i; rw [e]
@[simp] theorem State.raiseEvt_dir (s : State) (b : Block) (i : Nat) : (s.raiseEvt b i).dir = s.dir := by
  obtain ⟨_, _, _, e⟩ := s.raiseEvt_onlyNotices b i; rw [e]
@[simp] theorem State.raiseEvt_ret (s : State) (b : Block) (i : Nat) : (s.raiseEvt b i).ret = s.ret := by
  obtain ⟨_, _, _, e⟩ := s.raiseEvt_onlyNotices b i; rw [e]
@[simp] theorem State.raiseEvt_host (s : State) (b : Block) (i : Nat) : (s.raiseEvt b i).host = s.host := by
  obtain ⟨_, _, _, e⟩ := s.raiseEvt_onlyNotices b i; rw [e]
@[simp] theorem State.raiseEvt_wb (s : State) (b : Block) (i : Nat) : (s.raiseEvt b i).wb = s.wb := by
  obtain ⟨_, _, _, e⟩ := s.raiseEvt_onlyNotices b i; rw [e]
@[simp] theorem State.raiseEvt_phy (s : State) (b : Block) (i : Nat) : (s.raiseEvt b i).phy = s.phy := by
  obtain ⟨_, _, _, e⟩ := s.raiseEvt_onlyNotices b i; rw [e]
@[simp] theorem State.raiseEvt_rf (s : State) (b : Block) (i : Nat) : (s.raiseEvt b i).rf = s.rf := by
  obtain ⟨_, _, _, e⟩ := s.raiseEvt_onlyNotices b i; rw [e]
@[simp] theorem State.raiseEvt_mac (s : State) (b : Block) (i : Nat) : (s.raiseEvt b i).mac = s.mac := by
  obtain ⟨_, _, _, e⟩ := s.raiseEvt_onlyNotices b i; rw [e]
@[simp] theorem State.raiseEvt_bcn (s : State) (b : Block) (i : Nat) : (s.raiseEvt b i).bcn = s.bcn := by
  obtain ⟨_, _, _, e⟩ := s.raiseEvt_onlyNotices b i; rw [e]
@[simp] theorem State.raiseEvt_flood (s : State) (b : Block) (i : Nat) : (s.raiseEvt b i).flood = s.flood := by
  obtain ⟨_, _, _, e⟩ := s.raiseEvt_onlyNotices b i; rw [e]
@[simp] theorem State.raiseEvt_starter (s : State) (b : Block) (i : Nat) : (s.raiseEvt b i).starter = s.starter := by
  obtain ⟨_, _, _, e⟩ := s.raiseEvt_onlyNotices b i; rw [e]
@[simp] theorem State.raiseEvt_tamp (s : State) (b : Block) (i : Nat) : (s.raiseEvt b i).tamp = s.tamp := by
  obtain ⟨_, _, _, e⟩ := s.raiseEvt_onlyNotices b i; rw [e]
@[simp] theorem State.raiseEvt_ports (s : State) (b : Block) (i : Nat) : (s.raiseEvt b i).ports = s.ports := by
  obtain ⟨_, _, _, e⟩ := s.raiseEvt_onlyNotices b i; rw [e]
@[simp] theorem State.raiseEvt_frames (s : State) (b : Block) (i : Nat) : (s.raiseEvt b i).frames = s.frames := by
  obtain ⟨_, _, _, e⟩ := s.raiseEvt_onlyNotices b i; rw [e]
@[simp] theorem State.raiseEvt_sieve (s : State) (b : Block) (i : Nat) : (s.raiseEvt b i).sieve = s.sieve := by
  obtain ⟨_, _, _, e⟩ := s.raiseEvt_onlyNotices b i; rw [e]
@[simp] theorem State.raiseEvt_prefixes (s : State) (b : Block) (i : Nat) : (s.raiseEvt b i).prefixes = s.prefixes := by
  obtain ⟨_, _, _, e⟩ := s.raiseEvt_onlyNotices b i; rw [e]
@[simp] theorem State.raiseEvt_crust (s : State) (b : Block) (i : Nat) : (s.raiseEvt b i).crust = s.crust := by
  obtain ⟨_, _, _, e⟩ := s.raiseEvt_onlyNotices b i; rw [e]
@[simp] theorem State.raiseEvt_proof (s : State) (b : Block) (i : Nat) : (s.raiseEvt b i).proof = s.proof := by
  obtain ⟨_, _, _, e⟩ := s.raiseEvt_onlyNotices b i; rw [e]
@[simp] theorem State.raiseEvt_fwu (s : State) (b : Block) (i : Nat) : (s.raiseEvt b i).fwu = s.fwu := by
  obtain ⟨_, _, _, e⟩ := s.raiseEvt_onlyNotices b i; rw [e]
@[simp] theorem State.raiseEvt_crc (s : State) (b : Block) (i : Nat) : (s.raiseEvt b i).crc = s.crc := by
  obtain ⟨_, _, _, e⟩ := s.raiseEvt_onlyNotices b i; rw [e]
@[simp] theorem State.raiseEvt_tap (s : State) (b : Block) (i : Nat) : (s.raiseEvt b i).tap = s.tap := by
  obtain ⟨_, _, _, e⟩ := s.raiseEvt_onlyNotices b i; rw [e]
@[simp] theorem State.raiseEvt_nor (s : State) (b : Block) (i : Nat) : (s.raiseEvt b i).nor = s.nor := by
  obtain ⟨_, _, _, e⟩ := s.raiseEvt_onlyNotices b i; rw [e]
@[simp] theorem State.raiseEvt_qspi (s : State) (b : Block) (i : Nat) : (s.raiseEvt b i).qspi = s.qspi := by
  obtain ⟨_, _, _, e⟩ := s.raiseEvt_onlyNotices b i; rw [e]
@[simp] theorem State.raiseEvt_resetAsked (s : State) (b : Block) (i : Nat) : (s.raiseEvt b i).resetAsked = s.resetAsked := by
  obtain ⟨_, _, _, e⟩ := s.raiseEvt_onlyNotices b i; rw [e]
@[simp] theorem State.raiseEvt_dram (s : State) (b : Block) (i : Nat) : (s.raiseEvt b i).dram = s.dram := by
  obtain ⟨_, _, _, e⟩ := s.raiseEvt_onlyNotices b i; rw [e]
@[simp] theorem State.raiseEvt_busData (s : State) (b : Block) (i : Nat) : (s.raiseEvt b i).busData = s.busData := by
  obtain ⟨_, _, _, e⟩ := s.raiseEvt_onlyNotices b i; rw [e]
@[simp] theorem State.raiseEvt_spiData (s : State) (b : Block) (i : Nat) : (s.raiseEvt b i).spiData = s.spiData := by
  obtain ⟨_, _, _, e⟩ := s.raiseEvt_onlyNotices b i; rw [e]
@[simp] theorem State.raiseEvt_freeCtr (s : State) (b : Block) (i : Nat) : (s.raiseEvt b i).freeCtr = s.freeCtr := by
  obtain ⟨_, _, _, e⟩ := s.raiseEvt_onlyNotices b i; rw [e]
@[simp] theorem State.raiseEvt_pending (s : State) (b : Block) (i : Nat) : (s.raiseEvt b i).pending = s.pending := by
  obtain ⟨_, _, _, e⟩ := s.raiseEvt_onlyNotices b i; rw [e]

/-! ### `State.evt` -/

@[simp] theorem State.evt_applied (s : State) (b : Block) (i : Nat) : (s.evt b i).applied = s.applied := by
  obtain ⟨_, _, _, e⟩ := s.evt_onlyNotices b i; rw [e]
@[simp] theorem State.evt_blocks (s : State) (b : Block) (i : Nat) : (s.evt b i).blocks = s.blocks := by
  obtain ⟨_, _, _, e⟩ := s.evt_onlyNotices b i; rw [e]
@[simp] theorem State.evt_devCommit (s : State) (b : Block) (i : Nat) : (s.evt b i).devCommit = s.devCommit := by
  obtain ⟨_, _, _, e⟩ := s.evt_onlyNotices b i; rw [e]
@[simp] theorem State.evt_offWrites (s : State) (b : Block) (i : Nat) : (s.evt b i).offWrites = s.offWrites := by
  obtain ⟨_, _, _, e⟩ := s.evt_onlyNotices b i; rw [e]
@[simp] theorem State.evt_unmapped (s : State) (b : Block) (i : Nat) : (s.evt b i).unmapped = s.unmapped := by
  obtain ⟨_, _, _, e⟩ := s.evt_onlyNotices b i; rw [e]
@[simp] theorem State.evt_spiErr (s : State) (b : Block) (i : Nat) : (s.evt b i).spiErr = s.spiErr := by
  obtain ⟨_, _, _, e⟩ := s.evt_onlyNotices b i; rw [e]
@[simp] theorem State.evt_gov (s : State) (b : Block) (i : Nat) : (s.evt b i).gov = s.gov := by
  obtain ⟨_, _, _, e⟩ := s.evt_onlyNotices b i; rw [e]
@[simp] theorem State.evt_bfifo (s : State) (b : Block) (i : Nat) : (s.evt b i).bfifo = s.bfifo := by
  obtain ⟨_, _, _, e⟩ := s.evt_onlyNotices b i; rw [e]
@[simp] theorem State.evt_tb (s : State) (b : Block) (i : Nat) : (s.evt b i).tb = s.tb := by
  obtain ⟨_, _, _, e⟩ := s.evt_onlyNotices b i; rw [e]
@[simp] theorem State.evt_trig (s : State) (b : Block) (i : Nat) : (s.evt b i).trig = s.trig := by
  obtain ⟨_, _, _, e⟩ := s.evt_onlyNotices b i; rw [e]
@[simp] theorem State.evt_boot (s : State) (b : Block) (i : Nat) : (s.evt b i).boot = s.boot := by
  obtain ⟨_, _, _, e⟩ := s.evt_onlyNotices b i; rw [e]
@[simp] theorem State.evt_entering (s : State) (b : Block) (i : Nat) : (s.evt b i).entering = s.entering := by
  obtain ⟨_, _, _, e⟩ := s.evt_onlyNotices b i; rw [e]
@[simp] theorem State.evt_wake (s : State) (b : Block) (i : Nat) : (s.evt b i).wake = s.wake := by
  obtain ⟨_, _, _, e⟩ := s.evt_onlyNotices b i; rw [e]
@[simp] theorem State.evt_peel (s : State) (b : Block) (i : Nat) : (s.evt b i).peel = s.peel := by
  obtain ⟨_, _, _, e⟩ := s.evt_onlyNotices b i; rw [e]
@[simp] theorem State.evt_dir (s : State) (b : Block) (i : Nat) : (s.evt b i).dir = s.dir := by
  obtain ⟨_, _, _, e⟩ := s.evt_onlyNotices b i; rw [e]
@[simp] theorem State.evt_ret (s : State) (b : Block) (i : Nat) : (s.evt b i).ret = s.ret := by
  obtain ⟨_, _, _, e⟩ := s.evt_onlyNotices b i; rw [e]
@[simp] theorem State.evt_host (s : State) (b : Block) (i : Nat) : (s.evt b i).host = s.host := by
  obtain ⟨_, _, _, e⟩ := s.evt_onlyNotices b i; rw [e]
@[simp] theorem State.evt_wb (s : State) (b : Block) (i : Nat) : (s.evt b i).wb = s.wb := by
  obtain ⟨_, _, _, e⟩ := s.evt_onlyNotices b i; rw [e]
@[simp] theorem State.evt_phy (s : State) (b : Block) (i : Nat) : (s.evt b i).phy = s.phy := by
  obtain ⟨_, _, _, e⟩ := s.evt_onlyNotices b i; rw [e]
@[simp] theorem State.evt_rf (s : State) (b : Block) (i : Nat) : (s.evt b i).rf = s.rf := by
  obtain ⟨_, _, _, e⟩ := s.evt_onlyNotices b i; rw [e]
@[simp] theorem State.evt_mac (s : State) (b : Block) (i : Nat) : (s.evt b i).mac = s.mac := by
  obtain ⟨_, _, _, e⟩ := s.evt_onlyNotices b i; rw [e]
@[simp] theorem State.evt_bcn (s : State) (b : Block) (i : Nat) : (s.evt b i).bcn = s.bcn := by
  obtain ⟨_, _, _, e⟩ := s.evt_onlyNotices b i; rw [e]
@[simp] theorem State.evt_flood (s : State) (b : Block) (i : Nat) : (s.evt b i).flood = s.flood := by
  obtain ⟨_, _, _, e⟩ := s.evt_onlyNotices b i; rw [e]
@[simp] theorem State.evt_starter (s : State) (b : Block) (i : Nat) : (s.evt b i).starter = s.starter := by
  obtain ⟨_, _, _, e⟩ := s.evt_onlyNotices b i; rw [e]
@[simp] theorem State.evt_tamp (s : State) (b : Block) (i : Nat) : (s.evt b i).tamp = s.tamp := by
  obtain ⟨_, _, _, e⟩ := s.evt_onlyNotices b i; rw [e]
@[simp] theorem State.evt_ports (s : State) (b : Block) (i : Nat) : (s.evt b i).ports = s.ports := by
  obtain ⟨_, _, _, e⟩ := s.evt_onlyNotices b i; rw [e]
@[simp] theorem State.evt_frames (s : State) (b : Block) (i : Nat) : (s.evt b i).frames = s.frames := by
  obtain ⟨_, _, _, e⟩ := s.evt_onlyNotices b i; rw [e]
@[simp] theorem State.evt_sieve (s : State) (b : Block) (i : Nat) : (s.evt b i).sieve = s.sieve := by
  obtain ⟨_, _, _, e⟩ := s.evt_onlyNotices b i; rw [e]
@[simp] theorem State.evt_prefixes (s : State) (b : Block) (i : Nat) : (s.evt b i).prefixes = s.prefixes := by
  obtain ⟨_, _, _, e⟩ := s.evt_onlyNotices b i; rw [e]
@[simp] theorem State.evt_crust (s : State) (b : Block) (i : Nat) : (s.evt b i).crust = s.crust := by
  obtain ⟨_, _, _, e⟩ := s.evt_onlyNotices b i; rw [e]
@[simp] theorem State.evt_proof (s : State) (b : Block) (i : Nat) : (s.evt b i).proof = s.proof := by
  obtain ⟨_, _, _, e⟩ := s.evt_onlyNotices b i; rw [e]
@[simp] theorem State.evt_fwu (s : State) (b : Block) (i : Nat) : (s.evt b i).fwu = s.fwu := by
  obtain ⟨_, _, _, e⟩ := s.evt_onlyNotices b i; rw [e]
@[simp] theorem State.evt_crc (s : State) (b : Block) (i : Nat) : (s.evt b i).crc = s.crc := by
  obtain ⟨_, _, _, e⟩ := s.evt_onlyNotices b i; rw [e]
@[simp] theorem State.evt_tap (s : State) (b : Block) (i : Nat) : (s.evt b i).tap = s.tap := by
  obtain ⟨_, _, _, e⟩ := s.evt_onlyNotices b i; rw [e]
@[simp] theorem State.evt_nor (s : State) (b : Block) (i : Nat) : (s.evt b i).nor = s.nor := by
  obtain ⟨_, _, _, e⟩ := s.evt_onlyNotices b i; rw [e]
@[simp] theorem State.evt_qspi (s : State) (b : Block) (i : Nat) : (s.evt b i).qspi = s.qspi := by
  obtain ⟨_, _, _, e⟩ := s.evt_onlyNotices b i; rw [e]
@[simp] theorem State.evt_resetAsked (s : State) (b : Block) (i : Nat) : (s.evt b i).resetAsked = s.resetAsked := by
  obtain ⟨_, _, _, e⟩ := s.evt_onlyNotices b i; rw [e]
@[simp] theorem State.evt_dram (s : State) (b : Block) (i : Nat) : (s.evt b i).dram = s.dram := by
  obtain ⟨_, _, _, e⟩ := s.evt_onlyNotices b i; rw [e]
@[simp] theorem State.evt_busData (s : State) (b : Block) (i : Nat) : (s.evt b i).busData = s.busData := by
  obtain ⟨_, _, _, e⟩ := s.evt_onlyNotices b i; rw [e]
@[simp] theorem State.evt_spiData (s : State) (b : Block) (i : Nat) : (s.evt b i).spiData = s.spiData := by
  obtain ⟨_, _, _, e⟩ := s.evt_onlyNotices b i; rw [e]
@[simp] theorem State.evt_freeCtr (s : State) (b : Block) (i : Nat) : (s.evt b i).freeCtr = s.freeCtr := by
  obtain ⟨_, _, _, e⟩ := s.evt_onlyNotices b i; rw [e]
@[simp] theorem State.evt_pending (s : State) (b : Block) (i : Nat) : (s.evt b i).pending = s.pending := by
  obtain ⟨_, _, _, e⟩ := s.evt_onlyNotices b i; rw [e]

/-! ### `State.evtIf` -/

@[simp] theorem State.evtIf_applied (s : State) (c : Bool) (b : Block) (i : Nat) : (s.evtIf c b i).applied = s.applied := by
  obtain ⟨_, _, _, e⟩ := s.evtIf_onlyNotices c b i; rw [e]
@[simp] theorem State.evtIf_blocks (s : State) (c : Bool) (b : Block) (i : Nat) : (s.evtIf c b i).blocks = s.blocks := by
  obtain ⟨_, _, _, e⟩ := s.evtIf_onlyNotices c b i; rw [e]
@[simp] theorem State.evtIf_devCommit (s : State) (c : Bool) (b : Block) (i : Nat) : (s.evtIf c b i).devCommit = s.devCommit := by
  obtain ⟨_, _, _, e⟩ := s.evtIf_onlyNotices c b i; rw [e]
@[simp] theorem State.evtIf_offWrites (s : State) (c : Bool) (b : Block) (i : Nat) : (s.evtIf c b i).offWrites = s.offWrites := by
  obtain ⟨_, _, _, e⟩ := s.evtIf_onlyNotices c b i; rw [e]
@[simp] theorem State.evtIf_unmapped (s : State) (c : Bool) (b : Block) (i : Nat) : (s.evtIf c b i).unmapped = s.unmapped := by
  obtain ⟨_, _, _, e⟩ := s.evtIf_onlyNotices c b i; rw [e]
@[simp] theorem State.evtIf_spiErr (s : State) (c : Bool) (b : Block) (i : Nat) : (s.evtIf c b i).spiErr = s.spiErr := by
  obtain ⟨_, _, _, e⟩ := s.evtIf_onlyNotices c b i; rw [e]
@[simp] theorem State.evtIf_gov (s : State) (c : Bool) (b : Block) (i : Nat) : (s.evtIf c b i).gov = s.gov := by
  obtain ⟨_, _, _, e⟩ := s.evtIf_onlyNotices c b i; rw [e]
@[simp] theorem State.evtIf_bfifo (s : State) (c : Bool) (b : Block) (i : Nat) : (s.evtIf c b i).bfifo = s.bfifo := by
  obtain ⟨_, _, _, e⟩ := s.evtIf_onlyNotices c b i; rw [e]
@[simp] theorem State.evtIf_tb (s : State) (c : Bool) (b : Block) (i : Nat) : (s.evtIf c b i).tb = s.tb := by
  obtain ⟨_, _, _, e⟩ := s.evtIf_onlyNotices c b i; rw [e]
@[simp] theorem State.evtIf_trig (s : State) (c : Bool) (b : Block) (i : Nat) : (s.evtIf c b i).trig = s.trig := by
  obtain ⟨_, _, _, e⟩ := s.evtIf_onlyNotices c b i; rw [e]
@[simp] theorem State.evtIf_boot (s : State) (c : Bool) (b : Block) (i : Nat) : (s.evtIf c b i).boot = s.boot := by
  obtain ⟨_, _, _, e⟩ := s.evtIf_onlyNotices c b i; rw [e]
@[simp] theorem State.evtIf_entering (s : State) (c : Bool) (b : Block) (i : Nat) : (s.evtIf c b i).entering = s.entering := by
  obtain ⟨_, _, _, e⟩ := s.evtIf_onlyNotices c b i; rw [e]
@[simp] theorem State.evtIf_wake (s : State) (c : Bool) (b : Block) (i : Nat) : (s.evtIf c b i).wake = s.wake := by
  obtain ⟨_, _, _, e⟩ := s.evtIf_onlyNotices c b i; rw [e]
@[simp] theorem State.evtIf_peel (s : State) (c : Bool) (b : Block) (i : Nat) : (s.evtIf c b i).peel = s.peel := by
  obtain ⟨_, _, _, e⟩ := s.evtIf_onlyNotices c b i; rw [e]
@[simp] theorem State.evtIf_dir (s : State) (c : Bool) (b : Block) (i : Nat) : (s.evtIf c b i).dir = s.dir := by
  obtain ⟨_, _, _, e⟩ := s.evtIf_onlyNotices c b i; rw [e]
@[simp] theorem State.evtIf_ret (s : State) (c : Bool) (b : Block) (i : Nat) : (s.evtIf c b i).ret = s.ret := by
  obtain ⟨_, _, _, e⟩ := s.evtIf_onlyNotices c b i; rw [e]
@[simp] theorem State.evtIf_host (s : State) (c : Bool) (b : Block) (i : Nat) : (s.evtIf c b i).host = s.host := by
  obtain ⟨_, _, _, e⟩ := s.evtIf_onlyNotices c b i; rw [e]
@[simp] theorem State.evtIf_wb (s : State) (c : Bool) (b : Block) (i : Nat) : (s.evtIf c b i).wb = s.wb := by
  obtain ⟨_, _, _, e⟩ := s.evtIf_onlyNotices c b i; rw [e]
@[simp] theorem State.evtIf_phy (s : State) (c : Bool) (b : Block) (i : Nat) : (s.evtIf c b i).phy = s.phy := by
  obtain ⟨_, _, _, e⟩ := s.evtIf_onlyNotices c b i; rw [e]
@[simp] theorem State.evtIf_rf (s : State) (c : Bool) (b : Block) (i : Nat) : (s.evtIf c b i).rf = s.rf := by
  obtain ⟨_, _, _, e⟩ := s.evtIf_onlyNotices c b i; rw [e]
@[simp] theorem State.evtIf_mac (s : State) (c : Bool) (b : Block) (i : Nat) : (s.evtIf c b i).mac = s.mac := by
  obtain ⟨_, _, _, e⟩ := s.evtIf_onlyNotices c b i; rw [e]
@[simp] theorem State.evtIf_bcn (s : State) (c : Bool) (b : Block) (i : Nat) : (s.evtIf c b i).bcn = s.bcn := by
  obtain ⟨_, _, _, e⟩ := s.evtIf_onlyNotices c b i; rw [e]
@[simp] theorem State.evtIf_flood (s : State) (c : Bool) (b : Block) (i : Nat) : (s.evtIf c b i).flood = s.flood := by
  obtain ⟨_, _, _, e⟩ := s.evtIf_onlyNotices c b i; rw [e]
@[simp] theorem State.evtIf_starter (s : State) (c : Bool) (b : Block) (i : Nat) : (s.evtIf c b i).starter = s.starter := by
  obtain ⟨_, _, _, e⟩ := s.evtIf_onlyNotices c b i; rw [e]
@[simp] theorem State.evtIf_tamp (s : State) (c : Bool) (b : Block) (i : Nat) : (s.evtIf c b i).tamp = s.tamp := by
  obtain ⟨_, _, _, e⟩ := s.evtIf_onlyNotices c b i; rw [e]
@[simp] theorem State.evtIf_ports (s : State) (c : Bool) (b : Block) (i : Nat) : (s.evtIf c b i).ports = s.ports := by
  obtain ⟨_, _, _, e⟩ := s.evtIf_onlyNotices c b i; rw [e]
@[simp] theorem State.evtIf_frames (s : State) (c : Bool) (b : Block) (i : Nat) : (s.evtIf c b i).frames = s.frames := by
  obtain ⟨_, _, _, e⟩ := s.evtIf_onlyNotices c b i; rw [e]
@[simp] theorem State.evtIf_sieve (s : State) (c : Bool) (b : Block) (i : Nat) : (s.evtIf c b i).sieve = s.sieve := by
  obtain ⟨_, _, _, e⟩ := s.evtIf_onlyNotices c b i; rw [e]
@[simp] theorem State.evtIf_prefixes (s : State) (c : Bool) (b : Block) (i : Nat) : (s.evtIf c b i).prefixes = s.prefixes := by
  obtain ⟨_, _, _, e⟩ := s.evtIf_onlyNotices c b i; rw [e]
@[simp] theorem State.evtIf_crust (s : State) (c : Bool) (b : Block) (i : Nat) : (s.evtIf c b i).crust = s.crust := by
  obtain ⟨_, _, _, e⟩ := s.evtIf_onlyNotices c b i; rw [e]
@[simp] theorem State.evtIf_proof (s : State) (c : Bool) (b : Block) (i : Nat) : (s.evtIf c b i).proof = s.proof := by
  obtain ⟨_, _, _, e⟩ := s.evtIf_onlyNotices c b i; rw [e]
@[simp] theorem State.evtIf_fwu (s : State) (c : Bool) (b : Block) (i : Nat) : (s.evtIf c b i).fwu = s.fwu := by
  obtain ⟨_, _, _, e⟩ := s.evtIf_onlyNotices c b i; rw [e]
@[simp] theorem State.evtIf_crc (s : State) (c : Bool) (b : Block) (i : Nat) : (s.evtIf c b i).crc = s.crc := by
  obtain ⟨_, _, _, e⟩ := s.evtIf_onlyNotices c b i; rw [e]
@[simp] theorem State.evtIf_tap (s : State) (c : Bool) (b : Block) (i : Nat) : (s.evtIf c b i).tap = s.tap := by
  obtain ⟨_, _, _, e⟩ := s.evtIf_onlyNotices c b i; rw [e]
@[simp] theorem State.evtIf_nor (s : State) (c : Bool) (b : Block) (i : Nat) : (s.evtIf c b i).nor = s.nor := by
  obtain ⟨_, _, _, e⟩ := s.evtIf_onlyNotices c b i; rw [e]
@[simp] theorem State.evtIf_qspi (s : State) (c : Bool) (b : Block) (i : Nat) : (s.evtIf c b i).qspi = s.qspi := by
  obtain ⟨_, _, _, e⟩ := s.evtIf_onlyNotices c b i; rw [e]
@[simp] theorem State.evtIf_resetAsked (s : State) (c : Bool) (b : Block) (i : Nat) : (s.evtIf c b i).resetAsked = s.resetAsked := by
  obtain ⟨_, _, _, e⟩ := s.evtIf_onlyNotices c b i; rw [e]
@[simp] theorem State.evtIf_dram (s : State) (c : Bool) (b : Block) (i : Nat) : (s.evtIf c b i).dram = s.dram := by
  obtain ⟨_, _, _, e⟩ := s.evtIf_onlyNotices c b i; rw [e]
@[simp] theorem State.evtIf_busData (s : State) (c : Bool) (b : Block) (i : Nat) : (s.evtIf c b i).busData = s.busData := by
  obtain ⟨_, _, _, e⟩ := s.evtIf_onlyNotices c b i; rw [e]
@[simp] theorem State.evtIf_spiData (s : State) (c : Bool) (b : Block) (i : Nat) : (s.evtIf c b i).spiData = s.spiData := by
  obtain ⟨_, _, _, e⟩ := s.evtIf_onlyNotices c b i; rw [e]
@[simp] theorem State.evtIf_freeCtr (s : State) (c : Bool) (b : Block) (i : Nat) : (s.evtIf c b i).freeCtr = s.freeCtr := by
  obtain ⟨_, _, _, e⟩ := s.evtIf_onlyNotices c b i; rw [e]
@[simp] theorem State.evtIf_pending (s : State) (c : Bool) (b : Block) (i : Nat) : (s.evtIf c b i).pending = s.pending := by
  obtain ⟨_, _, _, e⟩ := s.evtIf_onlyNotices c b i; rw [e]

/-! ### `State.dropRecord` -/

@[simp] theorem State.dropRecord_applied (s : State) (b : Block) (c : Cause) (len port owner : Nat) (d : W32) : (s.dropRecord b c len port owner d).applied = s.applied := by
  obtain ⟨_, _, _, e⟩ := s.dropRecord_onlyNotices b c len port owner d; rw [e]
@[simp] theorem State.dropRecord_blocks (s : State) (b : Block) (c : Cause) (len port owner : Nat) (d : W32) : (s.dropRecord b c len port owner d).blocks = s.blocks := by
  obtain ⟨_, _, _, e⟩ := s.dropRecord_onlyNotices b c len port owner d; rw [e]
@[simp] theorem State.dropRecord_devCommit (s : State) (b : Block) (c : Cause) (len port owner : Nat) (d : W32) : (s.dropRecord b c len port owner d).devCommit = s.devCommit := by
  obtain ⟨_, _, _, e⟩ := s.dropRecord_onlyNotices b c len port owner d; rw [e]
@[simp] theorem State.dropRecord_offWrites (s : State) (b : Block) (c : Cause) (len port owner : Nat) (d : W32) : (s.dropRecord b c len port owner d).offWrites = s.offWrites := by
  obtain ⟨_, _, _, e⟩ := s.dropRecord_onlyNotices b c len port owner d; rw [e]
@[simp] theorem State.dropRecord_unmapped (s : State) (b : Block) (c : Cause) (len port owner : Nat) (d : W32) : (s.dropRecord b c len port owner d).unmapped = s.unmapped := by
  obtain ⟨_, _, _, e⟩ := s.dropRecord_onlyNotices b c len port owner d; rw [e]
@[simp] theorem State.dropRecord_spiErr (s : State) (b : Block) (c : Cause) (len port owner : Nat) (d : W32) : (s.dropRecord b c len port owner d).spiErr = s.spiErr := by
  obtain ⟨_, _, _, e⟩ := s.dropRecord_onlyNotices b c len port owner d; rw [e]
@[simp] theorem State.dropRecord_gov (s : State) (b : Block) (c : Cause) (len port owner : Nat) (d : W32) : (s.dropRecord b c len port owner d).gov = s.gov := by
  obtain ⟨_, _, _, e⟩ := s.dropRecord_onlyNotices b c len port owner d; rw [e]
@[simp] theorem State.dropRecord_bfifo (s : State) (b : Block) (c : Cause) (len port owner : Nat) (d : W32) : (s.dropRecord b c len port owner d).bfifo = s.bfifo := by
  obtain ⟨_, _, _, e⟩ := s.dropRecord_onlyNotices b c len port owner d; rw [e]
@[simp] theorem State.dropRecord_tb (s : State) (b : Block) (c : Cause) (len port owner : Nat) (d : W32) : (s.dropRecord b c len port owner d).tb = s.tb := by
  obtain ⟨_, _, _, e⟩ := s.dropRecord_onlyNotices b c len port owner d; rw [e]
@[simp] theorem State.dropRecord_trig (s : State) (b : Block) (c : Cause) (len port owner : Nat) (d : W32) : (s.dropRecord b c len port owner d).trig = s.trig := by
  obtain ⟨_, _, _, e⟩ := s.dropRecord_onlyNotices b c len port owner d; rw [e]
@[simp] theorem State.dropRecord_boot (s : State) (b : Block) (c : Cause) (len port owner : Nat) (d : W32) : (s.dropRecord b c len port owner d).boot = s.boot := by
  obtain ⟨_, _, _, e⟩ := s.dropRecord_onlyNotices b c len port owner d; rw [e]
@[simp] theorem State.dropRecord_entering (s : State) (b : Block) (c : Cause) (len port owner : Nat) (d : W32) : (s.dropRecord b c len port owner d).entering = s.entering := by
  obtain ⟨_, _, _, e⟩ := s.dropRecord_onlyNotices b c len port owner d; rw [e]
@[simp] theorem State.dropRecord_wake (s : State) (b : Block) (c : Cause) (len port owner : Nat) (d : W32) : (s.dropRecord b c len port owner d).wake = s.wake := by
  obtain ⟨_, _, _, e⟩ := s.dropRecord_onlyNotices b c len port owner d; rw [e]
@[simp] theorem State.dropRecord_peel (s : State) (b : Block) (c : Cause) (len port owner : Nat) (d : W32) : (s.dropRecord b c len port owner d).peel = s.peel := by
  obtain ⟨_, _, _, e⟩ := s.dropRecord_onlyNotices b c len port owner d; rw [e]
@[simp] theorem State.dropRecord_dir (s : State) (b : Block) (c : Cause) (len port owner : Nat) (d : W32) : (s.dropRecord b c len port owner d).dir = s.dir := by
  obtain ⟨_, _, _, e⟩ := s.dropRecord_onlyNotices b c len port owner d; rw [e]
@[simp] theorem State.dropRecord_ret (s : State) (b : Block) (c : Cause) (len port owner : Nat) (d : W32) : (s.dropRecord b c len port owner d).ret = s.ret := by
  obtain ⟨_, _, _, e⟩ := s.dropRecord_onlyNotices b c len port owner d; rw [e]
@[simp] theorem State.dropRecord_host (s : State) (b : Block) (c : Cause) (len port owner : Nat) (d : W32) : (s.dropRecord b c len port owner d).host = s.host := by
  obtain ⟨_, _, _, e⟩ := s.dropRecord_onlyNotices b c len port owner d; rw [e]
@[simp] theorem State.dropRecord_wb (s : State) (b : Block) (c : Cause) (len port owner : Nat) (d : W32) : (s.dropRecord b c len port owner d).wb = s.wb := by
  obtain ⟨_, _, _, e⟩ := s.dropRecord_onlyNotices b c len port owner d; rw [e]
@[simp] theorem State.dropRecord_phy (s : State) (b : Block) (c : Cause) (len port owner : Nat) (d : W32) : (s.dropRecord b c len port owner d).phy = s.phy := by
  obtain ⟨_, _, _, e⟩ := s.dropRecord_onlyNotices b c len port owner d; rw [e]
@[simp] theorem State.dropRecord_rf (s : State) (b : Block) (c : Cause) (len port owner : Nat) (d : W32) : (s.dropRecord b c len port owner d).rf = s.rf := by
  obtain ⟨_, _, _, e⟩ := s.dropRecord_onlyNotices b c len port owner d; rw [e]
@[simp] theorem State.dropRecord_mac (s : State) (b : Block) (c : Cause) (len port owner : Nat) (d : W32) : (s.dropRecord b c len port owner d).mac = s.mac := by
  obtain ⟨_, _, _, e⟩ := s.dropRecord_onlyNotices b c len port owner d; rw [e]
@[simp] theorem State.dropRecord_bcn (s : State) (b : Block) (c : Cause) (len port owner : Nat) (d : W32) : (s.dropRecord b c len port owner d).bcn = s.bcn := by
  obtain ⟨_, _, _, e⟩ := s.dropRecord_onlyNotices b c len port owner d; rw [e]
@[simp] theorem State.dropRecord_flood (s : State) (b : Block) (c : Cause) (len port owner : Nat) (d : W32) : (s.dropRecord b c len port owner d).flood = s.flood := by
  obtain ⟨_, _, _, e⟩ := s.dropRecord_onlyNotices b c len port owner d; rw [e]
@[simp] theorem State.dropRecord_starter (s : State) (b : Block) (c : Cause) (len port owner : Nat) (d : W32) : (s.dropRecord b c len port owner d).starter = s.starter := by
  obtain ⟨_, _, _, e⟩ := s.dropRecord_onlyNotices b c len port owner d; rw [e]
@[simp] theorem State.dropRecord_tamp (s : State) (b : Block) (c : Cause) (len port owner : Nat) (d : W32) : (s.dropRecord b c len port owner d).tamp = s.tamp := by
  obtain ⟨_, _, _, e⟩ := s.dropRecord_onlyNotices b c len port owner d; rw [e]
@[simp] theorem State.dropRecord_ports (s : State) (b : Block) (c : Cause) (len port owner : Nat) (d : W32) : (s.dropRecord b c len port owner d).ports = s.ports := by
  obtain ⟨_, _, _, e⟩ := s.dropRecord_onlyNotices b c len port owner d; rw [e]
@[simp] theorem State.dropRecord_frames (s : State) (b : Block) (c : Cause) (len port owner : Nat) (d : W32) : (s.dropRecord b c len port owner d).frames = s.frames := by
  obtain ⟨_, _, _, e⟩ := s.dropRecord_onlyNotices b c len port owner d; rw [e]
@[simp] theorem State.dropRecord_sieve (s : State) (b : Block) (c : Cause) (len port owner : Nat) (d : W32) : (s.dropRecord b c len port owner d).sieve = s.sieve := by
  obtain ⟨_, _, _, e⟩ := s.dropRecord_onlyNotices b c len port owner d; rw [e]
@[simp] theorem State.dropRecord_prefixes (s : State) (b : Block) (c : Cause) (len port owner : Nat) (d : W32) : (s.dropRecord b c len port owner d).prefixes = s.prefixes := by
  obtain ⟨_, _, _, e⟩ := s.dropRecord_onlyNotices b c len port owner d; rw [e]
@[simp] theorem State.dropRecord_crust (s : State) (b : Block) (c : Cause) (len port owner : Nat) (d : W32) : (s.dropRecord b c len port owner d).crust = s.crust := by
  obtain ⟨_, _, _, e⟩ := s.dropRecord_onlyNotices b c len port owner d; rw [e]
@[simp] theorem State.dropRecord_proof (s : State) (b : Block) (c : Cause) (len port owner : Nat) (d : W32) : (s.dropRecord b c len port owner d).proof = s.proof := by
  obtain ⟨_, _, _, e⟩ := s.dropRecord_onlyNotices b c len port owner d; rw [e]
@[simp] theorem State.dropRecord_fwu (s : State) (b : Block) (c : Cause) (len port owner : Nat) (d : W32) : (s.dropRecord b c len port owner d).fwu = s.fwu := by
  obtain ⟨_, _, _, e⟩ := s.dropRecord_onlyNotices b c len port owner d; rw [e]
@[simp] theorem State.dropRecord_crc (s : State) (b : Block) (c : Cause) (len port owner : Nat) (d : W32) : (s.dropRecord b c len port owner d).crc = s.crc := by
  obtain ⟨_, _, _, e⟩ := s.dropRecord_onlyNotices b c len port owner d; rw [e]
@[simp] theorem State.dropRecord_tap (s : State) (b : Block) (c : Cause) (len port owner : Nat) (d : W32) : (s.dropRecord b c len port owner d).tap = s.tap := by
  obtain ⟨_, _, _, e⟩ := s.dropRecord_onlyNotices b c len port owner d; rw [e]
@[simp] theorem State.dropRecord_nor (s : State) (b : Block) (c : Cause) (len port owner : Nat) (d : W32) : (s.dropRecord b c len port owner d).nor = s.nor := by
  obtain ⟨_, _, _, e⟩ := s.dropRecord_onlyNotices b c len port owner d; rw [e]
@[simp] theorem State.dropRecord_qspi (s : State) (b : Block) (c : Cause) (len port owner : Nat) (d : W32) : (s.dropRecord b c len port owner d).qspi = s.qspi := by
  obtain ⟨_, _, _, e⟩ := s.dropRecord_onlyNotices b c len port owner d; rw [e]
@[simp] theorem State.dropRecord_resetAsked (s : State) (b : Block) (c : Cause) (len port owner : Nat) (d : W32) : (s.dropRecord b c len port owner d).resetAsked = s.resetAsked := by
  obtain ⟨_, _, _, e⟩ := s.dropRecord_onlyNotices b c len port owner d; rw [e]
@[simp] theorem State.dropRecord_dram (s : State) (b : Block) (c : Cause) (len port owner : Nat) (d : W32) : (s.dropRecord b c len port owner d).dram = s.dram := by
  obtain ⟨_, _, _, e⟩ := s.dropRecord_onlyNotices b c len port owner d; rw [e]
@[simp] theorem State.dropRecord_busData (s : State) (b : Block) (c : Cause) (len port owner : Nat) (d : W32) : (s.dropRecord b c len port owner d).busData = s.busData := by
  obtain ⟨_, _, _, e⟩ := s.dropRecord_onlyNotices b c len port owner d; rw [e]
@[simp] theorem State.dropRecord_spiData (s : State) (b : Block) (c : Cause) (len port owner : Nat) (d : W32) : (s.dropRecord b c len port owner d).spiData = s.spiData := by
  obtain ⟨_, _, _, e⟩ := s.dropRecord_onlyNotices b c len port owner d; rw [e]
@[simp] theorem State.dropRecord_freeCtr (s : State) (b : Block) (c : Cause) (len port owner : Nat) (d : W32) : (s.dropRecord b c len port owner d).freeCtr = s.freeCtr := by
  obtain ⟨_, _, _, e⟩ := s.dropRecord_onlyNotices b c len port owner d; rw [e]
@[simp] theorem State.dropRecord_pending (s : State) (b : Block) (c : Cause) (len port owner : Nat) (d : W32) : (s.dropRecord b c len port owner d).pending = s.pending := by
  obtain ⟨_, _, _, e⟩ := s.dropRecord_onlyNotices b c len port owner d; rw [e]

end Sys2Proof.Machine
end

