-- ==== Sys2Proof/Laws/Regs.lean ====
section
/-! SUPPORT. The laws of register fields: reading a field after writing it, or after writing another. -/

namespace Sys2Proof.Machine

/-! ## Bits -/

theorem testBit_bitsGet (lo w : Nat) (v : W32) (i : Nat) :
    (bitsGet lo w v).testBit i = (decide (i < w) && v.toNat.testBit (lo + i)) := by
  simp [bitsGet, Nat.testBit_mod_two_pow, Nat.testBit_shiftRight]

theorem testBit_bitsMask (lo w i : Nat) (h : lo + w ≤ 32) :
    (bitsMask lo w).toNat.testBit i = (decide (lo ≤ i) && decide (i < lo + w)) := by
  have e : (bitsMask lo w).toNat.testBit i = (bitsMask lo w).getLsbD i := rfl
  rw [e, bitsMask, BitVec.getLsbD_shiftLeft, BitVec.getLsbD_ofNat]
  by_cases a : i < 32
  · by_cases b : i < lo
    · simp [b] <;> omega
    · have c : i - lo < 32 := by omega
      by_cases d : i < lo + w
      · have : i - lo < w := by omega
        simp [a, b, c, d, this, Nat.testBit_two_pow_sub_one]; omega
      · have : ¬ i - lo < w := by omega
        simp [d, this, Nat.testBit_two_pow_sub_one]
  · have : ¬ i < lo + w := by omega
    simp [a, this]

theorem testBit_bitsSet (lo w x : Nat) (v : W32) (i : Nat) (h : lo + w ≤ 32) :
    (bitsSet lo w x v).toNat.testBit i =
      if lo ≤ i ∧ i < lo + w then (x % 2 ^ w).testBit (i - lo) else v.toNat.testBit i := by
  have e : (bitsSet lo w x v).toNat.testBit i = (bitsSet lo w x v).getLsbD i := rfl
  have m : (bitsMask lo w).getLsbD i = (decide (lo ≤ i) && decide (i < lo + w)) := testBit_bitsMask lo w i h
  have ev : v.toNat.testBit i = v.getLsbD i := rfl
  rw [e, bitsSet, BitVec.getLsbD_or, BitVec.getLsbD_and, BitVec.getLsbD_not, m, BitVec.getLsbD_shiftLeft, BitVec.getLsbD_ofNat, ev]
  by_cases a : i < 32
  · by_cases b : i < lo
    · have c : ¬ lo ≤ i := by omega
      simp [a, b, c]
    · have c : lo ≤ i := by omega
      by_cases d : i < lo + w
      · have f : i - lo < 32 := by omega
        simp [a, b, c, d, f]
      · have f : ¬ i - lo < w := by omega
        simp [a, b, d, f, Nat.testBit_mod_two_pow]
  · have d : ¬ i < lo + w := by omega
    have z : v.getLsbD i = false := BitVec.getLsbD_of_ge v i (by omega)
    simp [a, d, z]

/-- A field reads as written, modulo its width. -/
theorem bitsGet_bitsSet_same (lo w x : Nat) (v : W32) (h : lo + w ≤ 32) : bitsGet lo w (bitsSet lo w x v) = x % 2 ^ w := by
  apply Nat.eq_of_testBit_eq
  intro i
  rw [testBit_bitsGet, testBit_bitsSet _ _ _ _ _ h]
  by_cases a : i < w
  · simp [a]
  · simp [a, Nat.testBit_mod_two_pow]

/-- Another field of the word reads as before. -/
theorem bitsGet_bitsSet_other (lo w x lo' w' : Nat) (v : W32) (h : lo + w ≤ 32) (d : lo' + w' ≤ lo ∨ lo + w ≤ lo') :
    bitsGet lo' w' (bitsSet lo w x v) = bitsGet lo' w' v := by
  apply Nat.eq_of_testBit_eq
  intro i
  rw [testBit_bitsGet, testBit_bitsGet, testBit_bitsSet _ _ _ _ _ h]
  by_cases a : i < w'
  · have : ¬ (lo ≤ lo' + i ∧ lo' + i < lo + w) := by omega
    simp [this]
  · simp [a]

theorem bitsGet_lt (lo w : Nat) (v : W32) : bitsGet lo w v < 2 ^ w := Nat.mod_lt _ (Nat.two_pow_pos w)

/-! ## Words and fields of the state -/

/-- Reading a word after a word is stored. -/
theorem State.word_setWord (s : State) (a a' : Nat) (v : W32) :
    (s.setWord a v).word a' = if a = a' then v else s.word a' := by
  unfold State.word State.setWord; rw [mapGetD_mapSet]

@[simp] theorem State.word_setWord_same (s : State) (a : Nat) (v : W32) : (s.setWord a v).word a = v := by
  simp [State.word_setWord]

theorem State.word_setWord_ne (s : State) {a a' : Nat} (v : W32) (h : a ≠ a') : (s.setWord a v).word a' = s.word a' := by
  simp [State.word_setWord, h]

/-- A field reads as it was written, modulo its width. -/
theorem State.get_put_same (s : State) (f : Fld) (x : Nat) (h : f.ok) : (s.put f x).get f = x % 2 ^ f.w := by
  unfold State.get State.put; rw [State.word_setWord_same]; exact bitsGet_bitsSet_same _ _ _ _ h

/-- A field reads as before where another was written. -/
theorem State.get_put_apart (s : State) (f g : Fld) (x : Nat) (h : f.ok) (d : f.apart g) : (s.put f x).get g = s.get g := by
  unfold State.get State.put
  rw [State.word_setWord]
  split
  · rename_i e
    rcases d with d | d | d
    · exact absurd e d
    · rw [bitsGet_bitsSet_other _ _ _ _ _ _ h (.inr d), e]
    · rw [bitsGet_bitsSet_other _ _ _ _ _ _ h (.inl d), e]
  · rfl

theorem State.word_put_ne (s : State) (f : Fld) (x a : Nat) (h : f.a ≠ a) : (s.put f x).word a = s.word a := by
  unfold State.put; exact State.word_setWord_ne _ _ h

theorem State.get_setWord_ne (s : State) (a : Nat) (v : W32) (g : Fld) (h : a ≠ g.a) : (s.setWord a v).get g = s.get g := by
  unfold State.get; rw [State.word_setWord_ne _ _ h]

theorem State.get_setWord_same (s : State) (v : W32) (g : Fld) : (s.setWord g.a v).get g = bitsGet g.lo g.w v := by
  unfold State.get; simp

theorem State.get_lt (s : State) (f : Fld) : s.get f < 2 ^ f.w := bitsGet_lt _ _ _

/-- A flag reads as it was written. -/
theorem State.on_putB_same (s : State) (f : Fld) (x : Bool) (h : f.ok) (w : 0 < f.w) : (s.putB f x).on f = x := by
  unfold State.on State.putB
  rw [State.get_put_same _ _ _ h]
  have : 1 < 2 ^ f.w := Nat.one_lt_two_pow (by omega)
  cases x
  · simp
  · simp [Nat.mod_eq_of_lt this]

/-- The stored words keep the canonical form. -/
theorem State.regs_wf_setWord (s : State) (a : Nat) (v : W32) (h : mapWf s.regs = true) : mapWf (s.setWord a v).regs = true :=
  mapWf_mapSet _ _ _ h

end Sys2Proof.Machine
end

