-- ==== Sys2Proof/Laws/Ops.lean ====
section
/-! SUPPORT. What the shared operations on commands can do: acceptance, rejection, completion, in the words of _STATUS, _RES0 and _CMD_REJ. -/

namespace Sys2Proof.Machine

/-! ## Reading back -/

theorem State.get_put_ne (s : State) (f g : Fld) (x : Nat) (h : f.a ≠ g.a) : (s.put f x).get g = s.get g := by
  unfold State.get; rw [State.word_put_ne _ _ _ _ h]

/-- The same laws of fields given by their places, for a simplifier to use. -/
theorem State.get_put_lit (s : State) (a lo w x : Nat) (h : lo + w ≤ 32) : (s.put ⟨a, lo, w⟩ x).get ⟨a, lo, w⟩ = x % 2 ^ w :=
  State.get_put_same s ⟨a, lo, w⟩ x h

theorem State.get_put_lit_apart (s : State) (a lo w lo' w' x : Nat) (h : lo + w ≤ 32) (d : lo + w ≤ lo' ∨ lo' + w' ≤ lo) :
    (s.put ⟨a, lo, w⟩ x).get ⟨a, lo', w'⟩ = s.get ⟨a, lo', w'⟩ :=
  State.get_put_apart s ⟨a, lo, w⟩ ⟨a, lo', w'⟩ x h (.inr d)

theorem State.get_put_lit_ne (s : State) (a lo w a' lo' w' x : Nat) (h : a ≠ a') :
    (s.put ⟨a, lo, w⟩ x).get ⟨a', lo', w'⟩ = s.get ⟨a', lo', w'⟩ :=
  State.get_put_ne s ⟨a, lo, w⟩ ⟨a', lo', w'⟩ x h

theorem State.on_put_one (s : State) (f : Fld) (h : f.ok) (w : f.w = 1) : (s.put f 1).on f = true := by
  unfold State.on; rw [State.get_put_same _ _ _ h, w]; rfl

theorem State.on_put_zero (s : State) (f : Fld) (h : f.ok) : (s.put f 0).on f = false := by
  unfold State.on; rw [State.get_put_same _ _ _ h]; simp

theorem Code.num_lt (c : Code) : c.num < 256 := by cases c <;> decide

@[simp] theorem State.word_setBlk (s : State) (b : Block) (f : BlockSt → BlockSt) (a : Nat) : (s.setBlk b f).word a = s.word a := rfl
@[simp] theorem State.get_setBlk (s : State) (b : Block) (f : BlockSt → BlockSt) (g : Fld) : (s.setBlk b f).get g = s.get g := rfl
@[simp] theorem State.get_startRun (s : State) (b : Block) (r : RunCmd) (g : Fld) : (s.startRun b r).get g = s.get g := rfl
@[simp] theorem State.get_ledIn (s : State) (b : Block) (n : Nat) (g : Fld) : (s.ledIn b n).get g = s.get g := rfl
@[simp] theorem State.get_ledOut (s : State) (b : Block) (n : Nat) (g : Fld) : (s.ledOut b n).get g = s.get g := rfl
@[simp] theorem State.get_ledDrop (s : State) (b : Block) (n : Nat) (g : Fld) : (s.ledDrop b n).get g = s.get g := rfl
@[simp] theorem State.get_ledFence (s : State) (b : Block) (n : Nat) (g : Fld) : (s.ledFence b n).get g = s.get g := rfl

/-- What a block has besides its registers, after a change of a block. -/
theorem State.blk_setBlk (s : State) (b c : Block) (f : BlockSt → BlockSt) :
    (s.setBlk b f).blk c = if b.id = c.id then f (s.blk b) else s.blk c := by
  unfold State.blk State.setBlk
  rw [mapGetD_mapSet]
  rfl

@[simp] theorem State.blk_setBlk_same (s : State) (b : Block) (f : BlockSt → BlockSt) : (s.setBlk b f).blk b = f (s.blk b) := by
  rw [State.blk_setBlk, if_pos rfl]

@[simp] theorem State.blk_setWord (s : State) (a : Nat) (v : W32) (b : Block) : (s.setWord a v).blk b = s.blk b := rfl
@[simp] theorem State.blk_put (s : State) (f : Fld) (x : Nat) (b : Block) : (s.put f x).blk b = s.blk b := rfl

/-! ## Acceptance (R59) -/

/-- Acceptance, as one word of _STATUS: BUSY and STALE 1, SEQ the tag, PART and PROGRESS 0. -/
theorem State.acceptCmd_get (s : State) (b : Block) (g : BitVec 8) :
    (s.acceptCmd b g).get (R.H_STATUS_BUSY b.base) = 1 ∧ (s.acceptCmd b g).get (R.H_STATUS_STALE b.base) = 1
    ∧ (s.acceptCmd b g).get (R.H_STATUS_SEQ b.base) = g.toNat ∧ (s.acceptCmd b g).get (R.H_STATUS_PART b.base) = 0
    ∧ (s.acceptCmd b g).get (R.H_STATUS_PROGRESS b.base) = 0 := by
  unfold State.acceptCmd
  have hl := g.isLt
  refine ⟨?_, ?_, ?_, ?_, ?_⟩ <;>
  simp [State.get_put_lit, State.get_put_lit_apart, R.H_STATUS_BUSY, R.H_STATUS_SEQ, R.H_STATUS_STALE, R.H_STATUS_PART,
    R.H_STATUS_PROGRESS]
  exact hl

/-- After acceptance the page is busy. -/
@[simp] theorem State.acceptCmd_busy (s : State) (b : Block) (g : BitVec 8) : (s.acceptCmd b g).busy b = true := by
  unfold State.busy State.on; rw [(s.acceptCmd_get b g).1]; rfl

/-- Acceptance writes _STATUS and no other register. -/
theorem State.acceptCmd_word (s : State) (b : Block) (g : BitVec 8) (a : Nat) (h : a ≠ b.base + 0xC) : (s.acceptCmd b g).word a = s.word a := by
  unfold State.acceptCmd
  iterate 5 rw [State.word_put_ne _ _ _ _ (Ne.symm h)]

theorem State.acceptCmd_getNe (s : State) (b : Block) (g : BitVec 8) (f : Fld) (h : f.a ≠ b.base + 0xC) :
    (s.acceptCmd b g).get f = s.get f := by
  unfold State.get; rw [State.acceptCmd_word _ _ _ _ h]

@[simp] theorem State.acceptCmd_arg (s : State) (b : Block) (g : BitVec 8) (i : Nat) : (s.acceptCmd b g).arg b i = s.arg b i := by
  unfold State.arg; exact State.acceptCmd_word _ _ _ _ (by omega)

@[simp] theorem State.acceptCmd_argBits (s : State) (b : Block) (g : BitVec 8) (i lo w : Nat) :
    (s.acceptCmd b g).argBits b i lo w = s.argBits b i lo w := by
  unfold State.argBits; rw [State.acceptCmd_arg]

@[simp] theorem State.acceptCmd_blk (s : State) (b c : Block) (g : BitVec 8) : (s.acceptCmd b g).blk c = s.blk c := rfl

/-! ## Pages and fields elsewhere -/

/-- No page's _STATUS word is the word of a register outside every page's header. -/
theorem State.acceptCmd_powered (s : State) (b c : Block) (g : BitVec 8) : (s.acceptCmd b g).powered c = s.powered c := by
  unfold State.powered State.pdOn
  rw [State.acceptCmd_getNe]
  cases b <;> simp [R.PWR_STATE_DOMAINS, Block.base] <;> omega

/-! ## Completion (R58, R62, R63) -/

/-- The results that a completion stores, before _STATUS shows it. -/
def State.results (s : State) (b : Block) (v x y z : W32) : State :=
  (((s.setWord (b.base + 0x24) v).setWord (b.base + 0x28) x).setWord (b.base + 0x2C) y).setWord (b.base + 0x30) z

theorem State.complete_eq (s : State) (b : Block) (c : Code) (d : Nat) (x y z : W32) :
    s.complete b c d x y z
      = (((s.results b (BitVec.ofNat 32 (c.num + s.get (R.H_STATUS_SEQ b.base) * 2 ^ 8 + (d % 2 ^ 16) * 2 ^ 16)) x y z).put
          (R.H_STATUS_BUSY b.base) 0).put (R.H_STATUS_STALE b.base) 0).setBlk b
          fun k => { k with run := none, last := if c = .ok then .ok else .fail } := rfl

theorem State.results_word (s : State) (b : Block) (v x y z : W32) :
    (s.results b v x y z).word (b.base + 0x24) = v ∧ (s.results b v x y z).word (b.base + 0x28) = x
    ∧ (s.results b v x y z).word (b.base + 0x2C) = y ∧ (s.results b v x y z).word (b.base + 0x30) = z := by
  unfold State.results
  refine ⟨?_, ?_, ?_, ?_⟩
  · rw [State.word_setWord_ne _ _ (by omega), State.word_setWord_ne _ _ (by omega), State.word_setWord_ne _ _ (by omega),
      State.word_setWord_same]
  · rw [State.word_setWord_ne _ _ (by omega), State.word_setWord_ne _ _ (by omega), State.word_setWord_same]
  · rw [State.word_setWord_ne _ _ (by omega), State.word_setWord_same]
  · rw [State.word_setWord_same]

/-- Completion changes _STATUS and the result words. -/
theorem State.complete_word_results (s : State) (b : Block) (c : Code) (d : Nat) (x y z : W32) (a : Nat) (h : a ≠ b.base + 0xC) :
    (s.complete b c d x y z).word a
      = (s.results b (BitVec.ofNat 32 (c.num + s.get (R.H_STATUS_SEQ b.base) * 2 ^ 8 + (d % 2 ^ 16) * 2 ^ 16)) x y z).word a := by
  rw [State.complete_eq, State.word_setBlk, State.word_put_ne _ _ _ _ (Ne.symm h), State.word_put_ne _ _ _ _ (Ne.symm h)]

/-- Completion writes the results into _RES1 to _RES3. -/
theorem State.complete_res (s : State) (b : Block) (c : Code) (d : Nat) (x y z : W32) :
    (s.complete b c d x y z).word (b.base + 0x28) = x ∧ (s.complete b c d x y z).word (b.base + 0x2C) = y
    ∧ (s.complete b c d x y z).word (b.base + 0x30) = z := by
  refine ⟨?_, ?_, ?_⟩ <;> rw [State.complete_word_results _ _ _ _ _ _ _ _ (by omega)]
  · exact (State.results_word _ _ _ _ _ _).2.1
  · exact (State.results_word _ _ _ _ _ _).2.2.1
  · exact (State.results_word _ _ _ _ _ _).2.2.2

theorem State.complete_status (s : State) (b : Block) (c : Code) (d : Nat) (x y z : W32) :
    (s.complete b c d x y z).get (R.H_STATUS_BUSY b.base) = 0 ∧ (s.complete b c d x y z).get (R.H_STATUS_STALE b.base) = 0 := by
  rw [State.complete_eq, State.get_setBlk, State.get_setBlk]
  generalize s.results b _ x y z = r
  unfold R.H_STATUS_BUSY R.H_STATUS_STALE
  refine ⟨?_, ?_⟩
  · rw [State.get_put_lit_apart _ _ _ _ _ _ _ (by decide) (by decide), State.get_put_lit _ _ _ _ _ (by decide), Nat.zero_mod]
  · rw [State.get_put_lit _ _ _ _ _ (by decide), Nat.zero_mod]

/-- The fields of a _RES0 word put together. -/
theorem res0_fields (c t d : Nat) (hc : c < 256) (ht : t < 256) :
    bitsGet 0 8 (BitVec.ofNat 32 (c + t * 2 ^ 8 + (d % 2 ^ 16) * 2 ^ 16)) = c
    ∧ bitsGet 8 8 (BitVec.ofNat 32 (c + t * 2 ^ 8 + (d % 2 ^ 16) * 2 ^ 16)) = t
    ∧ bitsGet 16 16 (BitVec.ofNat 32 (c + t * 2 ^ 8 + (d % 2 ^ 16) * 2 ^ 16)) = d % 2 ^ 16 := by
  have hd : d % 2 ^ 16 < 65536 := by omega
  generalize d % 2 ^ 16 = e at *
  simp only [bitsGet, BitVec.toNat_ofNat, Nat.shiftRight_eq_div_pow]
  refine ⟨?_, ?_, ?_⟩ <;> omega

/-- Completion writes the code, the tag and 16 bits of data into _RES0. -/
theorem State.complete_res0 (s : State) (b : Block) (c : Code) (d : Nat) (x y z : W32) :
    (s.complete b c d x y z).get (R.H_RES0_CODE b.base) = c.num
    ∧ (s.complete b c d x y z).get (R.H_RES0_TAG b.base) = s.get (R.H_STATUS_SEQ b.base)
    ∧ (s.complete b c d x y z).get (R.H_RES0_DATA b.base) = d % 2 ^ 16 := by
  have ht : s.get (R.H_STATUS_SEQ b.base) < 256 := State.get_lt _ _
  have e := res0_fields c.num (s.get (R.H_STATUS_SEQ b.base)) d (Code.num_lt c) ht
  have w : (s.complete b c d x y z).word (b.base + 0x24) = _ :=
    (State.complete_word_results s b c d x y z _ (by omega)).trans (State.results_word _ _ _ _ _ _).1
  refine ⟨?_, ?_, ?_⟩
  · exact (congrArg (bitsGet 0 8) w).trans e.1
  · exact (congrArg (bitsGet 8 8) w).trans e.2.1
  · exact (congrArg (bitsGet 16 16) w).trans e.2.2

@[simp] theorem State.complete_busy (s : State) (b : Block) (c : Code) (d : Nat) (x y z : W32) : (s.complete b c d x y z).busy b = false := by
  unfold State.busy State.on; rw [(s.complete_status b c d x y z).1]; rfl

@[simp] theorem State.complete_code (s : State) (b : Block) (c : Code) (d : Nat) (x y z : W32) :
    (s.complete b c d x y z).get (R.H_RES0_CODE b.base) = c.num := (s.complete_res0 b c d x y z).1

@[simp] theorem State.done_busy (s : State) (b : Block) (c : Code) : (s.done b c).busy b = false := s.complete_busy b c 0 0 0 0

@[simp] theorem State.done_code (s : State) (b : Block) (c : Code) : (s.done b c).get (R.H_RES0_CODE b.base) = c.num :=
  s.complete_code b c 0 0 0 0

/-- Completion writes the page's result words and _STATUS, and no other register. -/
theorem State.complete_word (s : State) (b : Block) (c : Code) (d : Nat) (x y z : W32) (a : Nat)
    (h : a ≠ b.base + 0xC) (k : a < b.base + 0x24 ∨ b.base + 0x34 ≤ a) : (s.complete b c d x y z).word a = s.word a := by
  rw [State.complete_word_results _ _ _ _ _ _ _ _ h]
  unfold State.results
  rw [State.word_setWord_ne _ _ (by omega), State.word_setWord_ne _ _ (by omega), State.word_setWord_ne _ _ (by omega),
    State.word_setWord_ne _ _ (by omega)]

theorem State.done_word (s : State) (b : Block) (c : Code) (a : Nat) (h : a ≠ b.base + 0xC) (k : a < b.base + 0x24 ∨ b.base + 0x34 ≤ a) :
    (s.done b c).word a = s.word a := s.complete_word b c 0 0 0 0 a h k

/-! ## The checks before a command (R21, R61, R68) -/

/-- A write of a master that is answered, to a page whose domain is on, arrives. -/
theorem State.onPage_reaches (s : State) (m : Master) (b : Block) (f : State → State) (h : s.reaches m b = true) : s.onPage m b f = f s := by
  unfold State.reaches at h
  rw [Bool.and_eq_true] at h
  unfold State.onPage
  rw [h.1, h.2]
  rfl

/-- After BOOT_FAIL a write of another master than the management SPI does nothing (R96). -/
theorem State.onPage_deaf (s : State) (m : Master) (b : Block) (f : State → State) (h : s.hears m = false) : s.onPage m b f = s := by
  unfold State.onPage; rw [h]; rfl

theorem State.onPage_off (s : State) (m : Master) (b : Block) (f : State → State) (h : s.hears m = true) (hp : s.powered b = false) :
    s.onPage m b f = s.offWrite := by
  unfold State.onPage; rw [h, hp]; rfl

/-- A page that takes a command carries it out. -/
theorem State.onCommon_takes (s : State) (m : Master) (b : Block) (g : BitVec 8) (f : State → State) (hp : s.reaches m b = true)
    (hb : s.busy b = false) : s.onCommon m b g f = f (s.acceptCmd b g) := by
  unfold State.onCommon; rw [State.onPage_reaches _ _ _ _ hp, hb]; rfl

theorem State.onCommon_off (s : State) (m : Master) (b : Block) (g : BitVec 8) (f : State → State) (h : s.hears m = true)
    (hp : s.powered b = false) : s.onCommon m b g f = s.offWrite := s.onPage_off _ _ _ h hp

theorem State.onCommon_deaf (s : State) (m : Master) (b : Block) (g : BitVec 8) (f : State → State) (h : s.hears m = false) :
    s.onCommon m b g f = s := s.onPage_deaf _ _ _ h

theorem State.onCommon_busy (s : State) (m : Master) (b : Block) (g : BitVec 8) (f : State → State) (hp : s.reaches m b = true)
    (hb : s.busy b = true) : s.onCommon m b g f = s.rejectCmd b g := by
  unfold State.onCommon; rw [State.onPage_reaches _ _ _ _ hp, hb]; rfl

/-! ## What acceptance leaves alone -/

/-- The fence bits stand in no page's _STATUS. -/
theorem State.acceptCmd_groupFenced (s : State) (b : Block) (g : BitVec 8) (k : Nat) : (s.acceptCmd b g).groupFenced k = s.groupFenced k := by
  unfold State.groupFenced
  rw [State.acceptCmd_getNe, State.acceptCmd_getNe]
  · cases b <;> simp [R.FAB_FENCED_HI_GROUPS, Block.base] <;> omega
  · cases b <;> simp [R.FAB_FENCED_LO_GROUPS, Block.base] <;> omega

theorem State.acceptCmd_fenced (s : State) (b c : Block) (g : BitVec 8) : (s.acceptCmd b g).fenced c = s.fenced c := by
  unfold State.fenced
  congr 1
  exact funext fun k => s.acceptCmd_groupFenced b g k

/-- A page that takes a command of its own carries it out. -/
theorem State.onCommand_takes (s : State) (m : Master) (b : Block) (g : BitVec 8) (f : State → State) (hp : s.reaches m b = true)
    (hb : s.busy b = false) (hf : s.fenced b = false) : s.onCommand m b g f = f (s.acceptCmd b g) := by
  unfold State.onCommand
  rw [State.onCommon_takes _ _ _ _ _ hp hb, State.acceptCmd_fenced, hf]
  rfl

/-- In a fenced block its own opcodes end with FENCED (R68). -/
theorem State.onCommand_fenced (s : State) (m : Master) (b : Block) (g : BitVec 8) (f : State → State) (hp : s.reaches m b = true)
    (hb : s.busy b = false) (hf : s.fenced b = true) : s.onCommand m b g f = (s.acceptCmd b g).done b .fenced := by
  unfold State.onCommand
  rw [State.onCommon_takes _ _ _ _ _ hp hb, State.acceptCmd_fenced, hf]
  rfl

/-! ## The registers that notices change -/

/-- The registers that an event of a block can change: its flags and counts, Rack's count of lost trace entries and that event, the pending
bits of masked messages. -/
def evtTouches (b : Block) (a : Nat) : Prop :=
  (b.base + 0x40 ≤ a ∧ a < b.base + 0x70) ∨ (Block.rack.base + 0x40 ≤ a ∧ a < Block.rack.base + 0x70) ∨ a = R.RACK_TRACE_LOST_COUNT.a
  ∨ (0xC2400 ≤ a ∧ a < 0xC2408)

theorem State.msi_word (s : State) (n a : Nat) (h : ¬ (0xC2400 ≤ a ∧ a < 0xC2408)) : (s.msi n).word a = s.word a := by
  unfold State.msi
  dsimp only
  split
  · rfl
  · split
    · rw [State.word_put_ne]
      dsimp only
      have : s.irqMap n % 64 < 64 := Nat.mod_lt _ (by decide)
      omega
    · rfl

theorem State.raiseEvt_word (s : State) (b : Block) (i a : Nat) (hi : i < 32) (h : ¬ (b.base + 0x40 ≤ a ∧ a < b.base + 0x70))
    (k : ¬ (0xC2400 ≤ a ∧ a < 0xC2408)) : (s.raiseEvt b i).word a = s.word a := by
  unfold State.raiseEvt State.withIrq
  have e : ((s.put ⟨b.base + 0x40, i, 1⟩ 1).countEvt b i).word a = s.word a := by
    unfold State.countEvt
    rw [State.word_put_ne _ _ _ _ (by dsimp only; omega), State.word_put_ne _ _ _ _ (by dsimp only; omega)]
  dsimp only
  split
  · rw [State.msi_word _ _ _ k, e]
  · exact e

/-- An event changes no register but those of `evtTouches`. -/
theorem State.evt_word (s : State) (b : Block) (i a : Nat) (hi : i < 32) (h : ¬ evtTouches b a) : (s.evt b i).word a = s.word a := by
  simp only [evtTouches, not_or] at h
  obtain ⟨h1, h2, h3, h4⟩ := h
  unfold State.evt
  have r := State.raiseEvt_word s b i a hi h1 h4
  unfold State.traceEvt
  split
  · exact r
  · split
    rename_i l lost _
    dsimp only
    split
    · rw [State.raiseEvt_word _ _ _ _ (by decide) h2 h4]
      exact (State.word_put_ne _ _ _ _ (Ne.symm h3)).trans r
    · exact r

theorem State.evt_get (s : State) (b : Block) (i : Nat) (f : Fld) (hi : i < 32) (h : ¬ evtTouches b f.a) : (s.evt b i).get f = s.get f := by
  unfold State.get; rw [State.evt_word _ _ _ _ hi h]

theorem State.evt_blk (s : State) (b c : Block) (i : Nat) : (s.evt b i).blk c = s.blk c := by
  unfold State.blk; rw [State.evt_blocks]

theorem State.dropRecord_blk (s : State) (b d : Block) (c : Cause) (len port owner : Nat) (x : W32) :
    (s.dropRecord b c len port owner x).blk d = s.blk d := by
  unfold State.blk; rw [State.dropRecord_blocks]

/-! ## Ledgers (R90, R450) -/

theorem State.blk_ledger (s : State) (b c : Block) (f : Ledger → Ledger) :
    ((s.ledger b f).blk c).led = if b.id = c.id then f (s.blk b).led else (s.blk c).led := by
  unfold State.ledger
  rw [State.blk_setBlk]
  split <;> rfl

/-- What a ledger reads after each of its moves. -/
theorem State.ledIn_led (s : State) (b : Block) (n : Nat) : ((s.ledIn b n).blk b).led = (s.blk b).led.enter n := by
  unfold State.ledIn; rw [State.blk_ledger, if_pos rfl]
theorem State.ledOut_led (s : State) (b : Block) (n : Nat) : ((s.ledOut b n).blk b).led = (s.blk b).led.leave n := by
  unfold State.ledOut; rw [State.blk_ledger, if_pos rfl]
theorem State.ledDrop_led (s : State) (b : Block) (n : Nat) : ((s.ledDrop b n).blk b).led = (s.blk b).led.lose n := by
  unfold State.ledDrop; rw [State.blk_ledger, if_pos rfl]
theorem State.ledFence_led (s : State) (b : Block) (n : Nat) : ((s.ledFence b n).blk b).led = (s.blk b).led.catch n := by
  unfold State.ledFence; rw [State.blk_ledger, if_pos rfl]

end Sys2Proof.Machine
end

