-- ==== Sys2Proof/Laws/Ended.lean ====
section
/-! SUPPORT. How a command's answer and end are shown: from its meaning's one call to what holds of the state after it. -/

namespace Sys2Proof.Machine

theorem answers_of {c : Instr} {s t : State} {P : State → Prop} (e : exec c s = .next t) (h : P t) : answers c s P := ⟨t, e, h⟩

/-- A command of a block's own, where the page takes it. -/
theorem answers_command {c : Instr} {s : State} {m : Master} {b : Block} {tag : BitVec 8} {f : State → State} {P : State → Prop}
    (ht : s.takes m b) (e : exec c s = .next (s.onCommand m b tag f)) (h : P (f (s.acceptCmd b tag))) : answers c s P :=
  ⟨_, e, by rw [State.onCommand_takes _ _ _ _ _ ht.1 ht.2.1 ht.2.2]; exact h⟩

/-- A common command, where the master reaches the page and it is not busy. -/
theorem answers_common {c : Instr} {s : State} {m : Master} {b : Block} {tag : BitVec 8} {f : State → State} {P : State → Prop}
    (hp : s.reaches m b = true) (hb : s.busy b = false) (e : exec c s = .next (s.onCommon m b tag f)) (h : P (f (s.acceptCmd b tag))) :
    answers c s P :=
  ⟨_, e, by rw [State.onCommon_takes _ _ _ _ _ hp hb]; exact h⟩

theorem State.ended_done (s : State) (b : Block) (c : Code) : (s.done b c).ended b c := ⟨s.done_busy b c, s.done_code b c⟩

theorem State.ended_complete (s : State) (b : Block) (c : Code) (d : Nat) (x y z : W32) : (s.complete b c d x y z).ended b c :=
  ⟨s.complete_busy b c d x y z, s.complete_code b c d x y z⟩

/-- An end is a matter of the page's own registers. -/
theorem State.ended_congr {s t : State} {b : Block} {c : Code} (h : s.ended b c) (e1 : t.word (b.base + 0xC) = s.word (b.base + 0xC))
    (e2 : t.word (b.base + 0x24) = s.word (b.base + 0x24)) : t.ended b c := by
  refine ⟨?_, ?_⟩
  · have := h.1
    unfold State.busy State.on State.get at *
    rw [show (R.H_STATUS_BUSY b.base).a = b.base + 0xC from rfl] at *
    rw [e1]; exact this
  · have := h.2
    unfold State.get at *
    rw [show (R.H_RES0_CODE b.base).a = b.base + 0x24 from rfl] at *
    rw [e2]; exact this

end Sys2Proof.Machine
end

