-- ==== Sys2Proof/Laws/Memory.lean ====
section
/-! SUPPORT. The laws of the DRAM behind BAR2: every operation keeps the canonical form; a read after a write gives the octet written, and
every other address reads as before. -/

namespace Sys2Proof.Machine

theorem Memory.wf_cons (c : Host.Cell) (r : List Host.Cell) :
    Memory.wf (c :: r) = true ↔ c.2 ≠ dramDefault ∧ (∀ d, r.head? = some d → c.1 < d.1) ∧ Memory.wf r = true := by
  cases r with
  | nil => simp [Memory.wf]
  | cons d r => simp [Memory.wf, and_assoc]

theorem Memory.write_head (m : List Host.Cell) (a : Nat) (v : Octet) (k : Nat) (hk : k < a) (hm : ∀ d, m.head? = some d → k < d.1)
    (h : Memory.wf m = true) : ∀ d, (Memory.write m a v).head? = some d → k < d.1 := by
  cases m with
  | nil =>
    intro d hd
    simp only [Memory.write] at hd
    split at hd
    · simp at hd
    · simp at hd; subst hd; exact hk
  | cons c r =>
    obtain ⟨b, w⟩ := c
    have hb := hm _ rfl
    have hr := (Memory.wf_cons _ _).1 h
    intro d hd
    simp only [Memory.write] at hd
    split at hd
    · split at hd
      · exact hm d hd
      · simp at hd; subst hd; exact hk
    · split at hd
      · split at hd
        · exact Nat.lt_trans hb (hr.2.1 d hd)
        · simp at hd; subst hd; exact hk
      · simp at hd; subst hd; exact hb

/-- A write keeps the canonical form. -/
theorem Memory.wf_write (m : List Host.Cell) (a : Nat) (v : Octet) (h : Memory.wf m = true) : Memory.wf (Memory.write m a v) = true := by
  induction m with
  | nil =>
    simp only [Memory.write]
    split
    · rfl
    · rename_i hv
      exact (Memory.wf_cons _ _).2 ⟨hv, by simp, rfl⟩
  | cons c r ih =>
    obtain ⟨k, w⟩ := c
    have hc := (Memory.wf_cons _ _).1 h
    simp only [Memory.write]
    split
    · rename_i lt
      split
      · exact h
      · rename_i hv
        exact (Memory.wf_cons _ _).2 ⟨hv, by intro d hd; simp at hd; subst hd; exact lt, h⟩
    · rename_i lt
      split
      · rename_i eq
        subst eq
        split
        · exact hc.2.2
        · rename_i hv
          exact (Memory.wf_cons _ _).2 ⟨hv, hc.2.1, hc.2.2⟩
      · rename_i ne
        refine (Memory.wf_cons _ _).2 ⟨hc.1, ?_, ih hc.2.2⟩
        exact Memory.write_head r a v k (by omega) hc.2.1 hc.2.2

/-- Writing a list of octets keeps the canonical form. -/
theorem Memory.wf_writeAll (l : List Octet) (m : List Host.Cell) (a : Nat) (h : Memory.wf m = true) :
    Memory.wf (Memory.writeAll m a l) = true := by
  induction l generalizing m a with
  | nil => exact h
  | cons v r ih => exact ih _ _ (Memory.wf_write m a v h)

/-- Below the first listed address, everything reads as the default. -/
theorem Memory.read_below (m : List Host.Cell) (a : Nat) (h : Memory.wf m = true) (ha : ∀ d, m.head? = some d → a < d.1) :
    Memory.read m a = dramDefault := by
  induction m with
  | nil => rfl
  | cons c r ih =>
    obtain ⟨k, w⟩ := c
    have hk := ha _ rfl
    have hc := (Memory.wf_cons _ _).1 h
    have hne : k ≠ a := by simp only at hk; omega
    simp only [Memory.read, if_neg hne]
    exact ih hc.2.2 fun d hd => Nat.lt_trans hk (hc.2.1 d hd)

/-- What an address reads as after a write. -/
theorem Memory.read_write (m : List Host.Cell) (a b : Nat) (v : Octet) (h : Memory.wf m = true) :
    Memory.read (Memory.write m a v) b = if a = b then v else Memory.read m b := by
  induction m with
  | nil =>
    simp only [Memory.write]
    split
    · rename_i hv; subst hv; simp [Memory.read]
    · simp [Memory.read]
  | cons c r ih =>
    obtain ⟨k, w⟩ := c
    have hc := (Memory.wf_cons _ _).1 h
    simp only [Memory.write]
    split
    · rename_i lt
      split
      · rename_i hv
        subst hv
        by_cases e : a = b
        · subst e
          rw [if_pos rfl]
          exact Memory.read_below _ _ h fun d hd => by simp at hd; subst hd; exact lt
        · rw [if_neg e]
      · simp only [Memory.read]
    · rename_i lt
      split
      · rename_i eq
        subst eq
        split
        · rename_i hv
          subst hv
          by_cases e : k = b
          · subst e
            rw [if_pos rfl]
            exact Memory.read_below r k hc.2.2 hc.2.1
          · simp only [Memory.read, if_neg e]
        · by_cases e : k = b <;> simp [Memory.read, e]
      · rename_i ne
        simp only [Memory.read]
        by_cases e : k = b
        · subst e
          simp [Ne.symm ne]
        · simp only [if_neg e]
          exact ih hc.2.2

/-- What an address reads as after a list of octets is written. -/
theorem Memory.read_writeAll (l : List Octet) (m : List Host.Cell) (a b : Nat) (h : Memory.wf m = true) :
    Memory.read (Memory.writeAll m a l) b = if a ≤ b then (l[b - a]?).getD (Memory.read m b) else Memory.read m b := by
  induction l generalizing m a with
  | nil => simp [Memory.writeAll]
  | cons v r ih =>
    simp only [Memory.writeAll]
    rw [ih _ _ (Memory.wf_write m a v h), Memory.read_write m a b v h]
    by_cases e : a = b
    · subst e
      rw [if_neg (by omega : ¬ a + 1 ≤ a)]
      simp
    · by_cases le : a ≤ b
      · have h1 : a + 1 ≤ b := by omega
        have h2 : b - a = (b - (a + 1)) + 1 := by omega
        rw [if_pos h1, if_pos le, if_neg e, h2, List.getElem?_cons_succ]
      · have h1 : ¬ a + 1 ≤ b := by omega
        rw [if_neg h1, if_neg le, if_neg e]

/-- The empty memory is canonical. -/
theorem Memory.wf_nil : Memory.wf [] = true := rfl

end Sys2Proof.Machine
end

