-- ==== Sys2Proof/Laws/Keeps.lean ====
section
/-! SUPPORT. What no operation of the device breaks: the queue stays as it is, the DRAM stays canonical, the ledgers stay balanced,
logbook entries, blown fuses and the life cycle stay.  `Keeps s t` says so of two states; each operation has one lemma about it. -/

namespace Sys2Proof.Machine

theorem natBit_eq_testBit (x i : Nat) : natBit x i = x.testBit i := by
  simp [natBit, Nat.testBit, Nat.and_comm 1, Nat.and_one_is_mod, bne, BEq.beq]

theorem natBit_or_left {a b k : Nat} (h : natBit a k = true) : natBit (a ||| b) k = true := by
  rw [natBit_eq_testBit] at *
  rw [Nat.testBit_or, h, Bool.true_or]

/-- The entry after the last keeps the logbook in order. -/
theorem logInOrder_append {s : State} {e : List Nat} (h : s.logInOrder) (n : Nat) :
    (mapGet (mapSet s.proof.log (s.proof.log.length + 1) e) n).isSome = true
      ↔ 1 ≤ n ∧ n ≤ (mapSet s.proof.log (s.proof.log.length + 1) e).length := by
  have new : mapGet s.proof.log (s.proof.log.length + 1) = none := by
    have := h (s.proof.log.length + 1)
    cases c : mapGet s.proof.log (s.proof.log.length + 1) with
    | none => rfl
    | some y => rw [c] at this; have := this.1 rfl; omega
  rw [mapSet_length_new _ _ _ new, mapGet_mapSet]
  split
  · rename_i e; subst e; simp
  · rename_i ne; rw [h n]; omega

/-- From `s` to `t` nothing is broken. -/
structure Keeps (s t : State) : Prop where
  pending : t.pending = s.pending
  dram : s.dramCanonical → t.dramCanonical
  led : s.ledgersBalance → t.ledgersBalance
  log : s.logInOrder → t.logInOrder ∧ ∀ n e, mapGet s.proof.log n = some e → mapGet t.proof.log n = some e
  revoked : ∀ k, natBit s.fwu.revoked k = true → natBit t.fwu.revoked k = true
  legacy : s.starter.legacyOff = true → t.starter.legacyOff = true
  life : s.starter.lc ≤ t.starter.lc

/-- The same of a meaning's answer. -/
structure KeepsA (s : State) (a : Answer) : Prop where
  imp : ∀ t, a = .next t → Keeps s t

/-- The same of an operation that may answer a state and something beside it. -/
structure KeepsO {β : Type} (s : State) (o : Option (State × β)) : Prop where
  imp : ∀ y, o = some y → Keeps s y.1

/-- The same of an operation that may answer. -/
structure KeepsOA (s : State) (o : Option Answer) : Prop where
  imp : ∀ y, o = some y → KeepsA s y

namespace Keeps

theorem refl (s : State) : Keeps s s :=
  ⟨rfl, id, id, fun h => ⟨h, fun _ _ e => e⟩, fun _ h => h, id, Nat.le_refl _⟩

theorem trans {s t u : State} (a : Keeps s t) (b : Keeps t u) : Keeps s u where
  pending := b.pending.trans a.pending
  dram h := b.dram (a.dram h)
  led h := b.led (a.led h)
  log h := ⟨(b.log (a.log h).1).1, fun n e x => (b.log (a.log h).1).2 n e ((a.log h).2 n e x)⟩
  revoked k h := b.revoked k (a.revoked k h)
  legacy h := b.legacy (a.legacy h)
  life := Nat.le_trans a.life b.life

/-- A state that agrees in everything the relation looks at. -/
theorem of_eq {s0 s t : State} (h : Keeps s0 s) (hq : t.pending = s.pending) (hd : t.dram = s.dram) (hb : t.blocks = s.blocks)
    (hp : t.proof.log = s.proof.log) (hf : t.fwu.revoked = s.fwu.revoked) (hg : t.starter.legacyOff = s.starter.legacyOff)
    (hl : t.starter.lc = s.starter.lc) : Keeps s0 t :=
  h.trans {
    pending := hq
    dram := fun x => by unfold State.dramCanonical at *; rw [hd]; exact x
    led := fun x b => by have := x b; unfold State.blk at *; rw [hb]; exact this
    log := fun x => ⟨fun n => by have := x n; rw [hp]; exact this, fun n e y => by rw [hp]; exact y⟩
    revoked := fun k x => by rw [hf]; exact x
    legacy := fun x => by rw [hg]; exact x
    life := Nat.le_of_eq hl.symm }

/-- A record update of other fields. -/
theorem mk_iff {s0 s : State} {regs applied : AMap W32} {devCommit : Option DevCommit} {offWrites unmapped spiErr : Nat} {gov : GovSt} {bfifo : AMap BFifo}
    {tb : TbSt} {trig : TrigSt} {rack : RackSt} {boot : Boot} {entering : Bool} {wake : Option Nat} {peel : PeelSt} {dir : DirSt} {ret : RetSt}
    {host : HostSt} {wb : AMap WbSt} {phy : PhySt} {rf : AMap ChainSt} {mac : MacSt} {bcn : BcnSt} {flood : FloodSt} {starter : StarterSt}
    {tamp : TampSt} {ports : AMap PortSt} {frames : AMap Frame} {sieve : AMap SieveSt} {prefixes : AMap PrefixEntry} {crust : CrustSt}
    {proof : ProofSt} {fwu : FwuSt} {crc : CrcSt} {tap : TapSt} {nor : AMap Nat} {qspi : List NorCmd} {resetAsked : Option Nat} {busData : W32} {spiData : List W32}
    {msixSent : AMap Nat} {freeCtr : Nat} (hp : proof.log = s.proof.log) (hf : fwu.revoked = s.fwu.revoked)
    (hg : starter.legacyOff = s.starter.legacyOff) (hl : starter.lc = s.starter.lc) :
    Keeps s0 (State.mk regs applied s.blocks devCommit offWrites unmapped spiErr gov bfifo tb trig rack boot entering wake peel dir ret host wb phy
      rf mac bcn flood starter tamp ports frames sieve prefixes crust proof fwu crc tap nor qspi resetAsked s.dram busData spiData msixSent freeCtr
      s.pending) ↔ Keeps s0 s :=
  ⟨fun h => of_eq h rfl rfl rfl hp.symm hf.symm hg.symm hl.symm, fun h => of_eq h rfl rfl rfl hp hf hg hl⟩

theorem ite {s0 a b : State} {c : Prop} [Decidable c] (ha : Keeps s0 a) (hb : Keeps s0 b) : Keeps s0 (if c then a else b) := by
  split <;> assumption

theorem foldl {s0 s : State} {α : Type} {f : State → α → State} {l : List α} (hf : ∀ s x, Keeps s0 s → Keeps s0 (f s x)) (h : Keeps s0 s) :
    Keeps s0 (l.foldl f s) := by
  induction l generalizing s with
  | nil => exact h
  | cons x r ih => exact ih (hf s x h)

theorem foldl_fst {s0 : State} {α β : Type} {f : State × β → α → State × β} {l : List α} {p : State × β}
    (hf : ∀ p x, Keeps s0 p.1 → Keeps s0 (f p x).1) (h : Keeps s0 p.1) : Keeps s0 (l.foldl f p).1 := by
  induction l generalizing p with
  | nil => exact h
  | cons x r ih => exact ih (hf p x h)

/-- The first part of a pair that a match has named. -/
theorem of_pair {s0 a : State} {β : Type} {p : State × β} {b : β} (h : p = (a, b)) (k : Keeps s0 p.1) : Keeps s0 a := by
  subst h; exact k

theorem of_pair' {s0 a : State} {β : Type} {p : β × State} {b : β} (h : p = (b, a)) (k : Keeps s0 p.2) : Keeps s0 a := by
  subst h; exact k

theorem of_some {s0 a : State} {β : Type} {p : Option (State × β)} {b : β} (h : p = some (a, b)) (k : KeepsO s0 p) :
    Keeps s0 a := k.imp _ h

theorem of_someO {s0 a : State} {β : Type} {b : β} (k : KeepsO s0 (some (a, b))) : Keeps s0 a := k.imp _ rfl

theorem of_someA {s0 : State} {p : Option Answer} {a : Answer} (h : p = some a) (k : KeepsOA s0 p) : KeepsA s0 a := k.imp _ h

theorem fst_ite {s0 : State} {β : Type} {a b : State × β} {c : Prop} [Decidable c] (ha : Keeps s0 a.1) (hb : Keeps s0 b.1) :
    Keeps s0 (if c then a else b).1 := by split <;> assumption

/-- A change of what a block has besides its registers that leaves its ledger alone. -/
theorem setBlk {s0 s : State} {b : Block} {f : BlockSt → BlockSt} (h : Keeps s0 s) (hf : ∀ x, (f x).led = x.led) :
    Keeps s0 (s.setBlk b f) := by
  refine h.trans ⟨rfl, id, fun x c => ?_, fun x => ⟨x, fun _ _ y => y⟩, fun _ x => x, id, Nat.le_refl _⟩
  have hc := x c
  have hb := x b
  unfold State.blk State.setBlk at *
  rw [mapGetD_mapSet]
  split
  · rw [hf]; exact hb
  · exact hc

/-- A balanced change of a block's ledger. -/
theorem ledger {s0 s : State} {b : Block} {f : Ledger → Ledger} (h : Keeps s0 s) (hf : ∀ l : Ledger, l.balanced → (f l).balanced) :
    Keeps s0 (s.ledger b f) := by
  refine h.trans ⟨rfl, id, fun x c => ?_, fun x => ⟨x, fun _ _ y => y⟩, fun _ x => x, id, Nat.le_refl _⟩
  have hc := x c
  have hb := x b
  unfold State.blk State.ledger State.setBlk at *
  rw [mapGetD_mapSet]
  split
  · exact hf _ hb
  · exact hc

/-- Changes of what the relation looks at, each by its own reason. -/
theorem change {s0 s t : State} (h : Keeps s0 s) (hq : t.pending = s.pending) (hd : s.dramCanonical → t.dramCanonical)
    (hb : ∀ b, (t.blk b).led = (s.blk b).led ∨ (t.blk b).led.balanced) (hp : t.proof.log = s.proof.log)
    (hf : ∀ k, natBit s.fwu.revoked k = true → natBit t.fwu.revoked k = true)
    (hg : s.starter.legacyOff = true → t.starter.legacyOff = true) (hl : s.starter.lc ≤ t.starter.lc) : Keeps s0 t :=
  h.trans {
    pending := hq
    dram := hd
    led := fun x b => by
      rcases hb b with e | e
      · have := x b; rw [← e] at this; exact this
      · exact e
    log := fun x => ⟨fun n => by have := x n; rw [hp]; exact this, fun n e y => by rw [hp]; exact y⟩
    revoked := hf
    legacy := hg
    life := hl }

end Keeps

namespace KeepsA

theorem next {s t : State} (h : Keeps s t) : KeepsA s (.next t) := ⟨fun u e => by
  have : t = u := by injection e
  exact this ▸ h⟩

theorem ite {s : State} {a b : Answer} {c : Prop} [Decidable c] (ha : KeepsA s a) (hb : KeepsA s b) : KeepsA s (if c then a else b) := by
  split <;> assumption

end KeepsA

namespace KeepsO

theorem none {s0 : State} {β : Type} : KeepsO s0 (none : Option (State × β)) := ⟨fun _ e => nomatch e⟩

theorem some {s0 : State} {β : Type} {p : State × β} (h : Keeps s0 p.1) : KeepsO s0 (some p) := ⟨fun _ e => by
  cases e; exact h⟩

theorem ite {s0 : State} {β : Type} {a b : Option (State × β)} {c : Prop} [Decidable c] (ha : KeepsO s0 a) (hb : KeepsO s0 b) :
    KeepsO s0 (if c then a else b) := by split <;> assumption

end KeepsO

namespace KeepsOA

theorem none {s0 : State} : KeepsOA s0 none := ⟨fun _ e => nomatch e⟩

theorem some {s0 : State} {a : Answer} (h : KeepsA s0 a) : KeepsOA s0 (some a) := ⟨fun _ e => by
  cases e; exact h⟩

theorem ite {s0 : State} {a b : Option Answer} {c : Prop} [Decidable c] (ha : KeepsOA s0 a) (hb : KeepsOA s0 b) :
    KeepsOA s0 (if c then a else b) := by split <;> assumption

theorem getD {s0 : State} {o : Option Answer} {a : Answer} (ho : KeepsOA s0 o) (ha : KeepsA s0 a) : KeepsA s0 (o.getD a) := by
  cases o with
  | none => exact ha
  | some b => exact ho.imp _ rfl

end KeepsOA

/-! ## Ledgers -/

theorem Ledger.enter_balanced (l : Ledger) (n : Nat) (h : l.balanced) : (l.enter n).balanced := by
  simp only [Ledger.balanced, Ledger.enter] at *
  rw [h]; ac_rfl

/-- What leaves HELD goes elsewhere. -/
theorem held_moves (held n : BitVec 64) : ∃ k, held = k + n ∧ held - n = k :=
  ⟨held - n, (BitVec.sub_add_cancel held n).symm, rfl⟩

theorem Ledger.leave_balanced (l : Ledger) (n : Nat) (h : l.balanced) : (l.leave n).balanced := by
  obtain ⟨k, e, d⟩ := held_moves l.held (BitVec.ofNat 64 n)
  simp only [Ledger.balanced, Ledger.leave] at *
  rw [h, d, e]; ac_rfl

theorem Ledger.lose_balanced (l : Ledger) (n : Nat) (h : l.balanced) : (l.lose n).balanced := by
  obtain ⟨k, e, d⟩ := held_moves l.held (BitVec.ofNat 64 n)
  simp only [Ledger.balanced, Ledger.lose] at *
  rw [h, d, e]; ac_rfl

theorem Ledger.catch_balanced (l : Ledger) (n : Nat) (h : l.balanced) : (l.catch n).balanced := by
  obtain ⟨k, e, d⟩ := held_moves l.held (BitVec.ofNat 64 n)
  simp only [Ledger.balanced, Ledger.catch] at *
  rw [h, d, e]; ac_rfl

end Sys2Proof.Machine
end

