-- ==== Sys2Proof/Laws/KeepsRegs.lean ====
section
/-! SUPPORT. The operations of Machine/Regs.lean break nothing (`Keeps`). -/

set_option linter.unusedSimpArgs false

namespace Sys2Proof.Machine

theorem State.setWord_keeps {s0 : State} (s : State) (a : Nat) (v : W32) (h : Keeps s0 s) :
    Keeps s0 (State.setWord s a v) := by
  unfold State.setWord
  repeat' first
    | with_reducible assumption
    | simp -zeta only [Keeps.mk_iff]

theorem State.put_keeps {s0 : State} (s : State) (f : Fld) (xx : Nat) (h : Keeps s0 s) :
    Keeps s0 (State.put s f xx) := by
  unfold State.put
  repeat' first
    | with_reducible assumption
    | with_reducible apply State.setWord_keeps

theorem State.putB_keeps {s0 : State} (s : State) (f : Fld) (xx : Bool) (h : Keeps s0 s) :
    Keeps s0 (State.putB s f xx) := by
  unfold State.putB
  repeat' first
    | with_reducible assumption
    | with_reducible apply State.put_keeps

theorem State.bump_keeps {s0 : State} (s : State) (f : Fld) (n : Nat) (h : Keeps s0 s) :
    Keeps s0 (State.bump s f n) := by
  unfold State.bump
  repeat' first
    | with_reducible assumption
    | with_reducible apply State.put_keeps

theorem State.bumpSat_keeps {s0 : State} (s : State) (f : Fld) (n : Nat) (h : Keeps s0 s) :
    Keeps s0 (State.bumpSat s f n) := by
  unfold State.bumpSat
  repeat' first
    | with_reducible assumption
    | with_reducible apply State.put_keeps

theorem State.put64_keeps {s0 : State} (s : State) (lo : Fld) (hi : Fld) (xx : Nat) (h : Keeps s0 s) :
    Keeps s0 (State.put64 s lo hi xx) := by
  unfold State.put64
  repeat' first
    | with_reducible assumption
    | with_reducible apply State.put_keeps

theorem State.bump64_keeps {s0 : State} (s : State) (lo : Fld) (hi : Fld) (n : Nat) (h : Keeps s0 s) :
    Keeps s0 (State.bump64 s lo hi n) := by
  unfold State.bump64
  repeat' first
    | with_reducible assumption
    | with_reducible apply State.put64_keeps

theorem State.draw_keeps {s0 : State} (s : State) (h : Keeps s0 s) :
    Keeps s0 (State.draw s).2 := by
  unfold State.draw
  repeat' first
    | with_reducible assumption
    | simp -zeta only [Keeps.mk_iff]

end Sys2Proof.Machine
end

