-- ==== Sys2Proof/Laws/KeepsOps.lean ====
section
/-! SUPPORT. The operations of Machine/Ops.lean break nothing (`Keeps`). -/

set_option linter.unusedSimpArgs false

namespace Sys2Proof.Machine

theorem State.advanceTo_keeps {s0 : State} (s : State) (l : Lin) (h : Keeps s0 s) :
    Keeps s0 (State.advanceTo s l) := by
  unfold State.advanceTo
  repeat' first
    | with_reducible assumption
    | (extract_lets +onlyGivenNames x; clear_value x; revert x; intro _)
    | with_reducible apply Keeps.ite
    | simp -zeta only [Keeps.mk_iff]

theorem State.setBlk_keeps {s0 : State} (s : State) (b : Block) (f : BlockSt → BlockSt) (h : Keeps s0 s) (hf : ∀ x, (f x).led = x.led) :
    Keeps s0 (State.setBlk s b f) := h.setBlk hf

theorem State.setGroupFence_keeps {s0 : State} (s : State) (g : Nat) (v : Bool) (h : Keeps s0 s) :
    Keeps s0 (State.setGroupFence s g v) := by
  unfold State.setGroupFence
  repeat' first
    | with_reducible assumption
    | with_reducible apply Keeps.ite
    | with_reducible apply State.putB_keeps

theorem State.msi_keeps {s0 : State} (s : State) (src : Nat) (h : Keeps s0 s) :
    Keeps s0 (State.msi s src) := by
  unfold State.msi
  repeat' first
    | with_reducible assumption
    | (extract_lets +onlyGivenNames x; clear_value x; revert x; intro _)
    | with_reducible apply Keeps.ite
    | with_reducible apply State.put_keeps
    | simp -zeta only [Keeps.mk_iff]

theorem State.withIrq_keeps {s0 : State} (s : State) (b : Block) (f : State → State) (h : Keeps s0 s) (h_f : ∀ x, Keeps s0 x → Keeps s0 (f x)) :
    Keeps s0 (State.withIrq s b f) := by
  unfold State.withIrq
  repeat' first
    | with_reducible assumption
    | (extract_lets +onlyGivenNames x; have hx : Keeps s0 (by with_reducible apply x) := ?_; clear_value x; revert x; intro _ _; rotate_left; subst x)
    | with_reducible apply Keeps.ite
    | with_reducible apply State.msi_keeps
    | with_reducible apply h_f

theorem State.countEvt_keeps {s0 : State} (s : State) (b : Block) (bit : Nat) (h : Keeps s0 s) :
    Keeps s0 (State.countEvt s b bit) := by
  unfold State.countEvt
  repeat' first
    | with_reducible assumption
    | (extract_lets +onlyGivenNames x; clear_value x; revert x; intro _)
    | with_reducible apply State.put_keeps

theorem State.raiseEvt_keeps {s0 : State} (s : State) (b : Block) (bit : Nat) (h : Keeps s0 s) :
    Keeps s0 (State.raiseEvt s b bit) := by
  unfold State.raiseEvt
  repeat' first
    | with_reducible assumption
    | intro _
    | with_reducible apply State.countEvt_keeps
    | with_reducible apply State.withIrq_keeps
    | with_reducible apply State.put_keeps

theorem State.traceEvt_keeps {s0 : State} (s : State) (b : Block) (bit : Nat) (h : Keeps s0 s) :
    Keeps s0 (State.traceEvt s b bit) := by
  unfold State.traceEvt
  repeat' first
    | with_reducible assumption
    | (extract_lets +onlyGivenNames x; clear_value x; revert x; intro _)
    | with_reducible apply Keeps.ite
    | with_reducible apply State.raiseEvt_keeps
    | with_reducible apply State.bumpSat_keeps
    | simp -zeta only [Keeps.mk_iff]

theorem State.evt_keeps {s0 : State} (s : State) (b : Block) (bit : Nat) (h : Keeps s0 s) :
    Keeps s0 (State.evt s b bit) := by
  unfold State.evt
  repeat' first
    | with_reducible assumption
    | with_reducible apply State.traceEvt_keeps
    | with_reducible apply State.raiseEvt_keeps

theorem State.evtIf_keeps {s0 : State} (s : State) (c : Bool) (b : Block) (bit : Nat) (h : Keeps s0 s) :
    Keeps s0 (State.evtIf s c b bit) := by
  unfold State.evtIf
  repeat' first
    | with_reducible assumption
    | with_reducible apply Keeps.ite
    | with_reducible apply State.evt_keeps

theorem State.evts_keeps {s0 : State} (s : State) (b : Block) (bits : List Nat) (h : Keeps s0 s) :
    Keeps s0 (State.evts s b bits) := by
  unfold State.evts
  repeat' first
    | with_reducible assumption
    | intro _
    | with_reducible apply State.evt_keeps
    | with_reducible apply Keeps.foldl

theorem State.ledger_keeps {s0 : State} (s : State) (b : Block) (f : Ledger → Ledger) (h : Keeps s0 s) (hf : ∀ l : Ledger, l.balanced → (f l).balanced) :
    Keeps s0 (State.ledger s b f) := h.ledger hf

theorem State.ledIn_keeps {s0 : State} (s : State) (b : Block) (n : Nat) (h : Keeps s0 s) :
    Keeps s0 (State.ledIn s b n) := h.ledger fun l => l.enter_balanced n

theorem State.ledOut_keeps {s0 : State} (s : State) (b : Block) (n : Nat) (h : Keeps s0 s) :
    Keeps s0 (State.ledOut s b n) := h.ledger fun l => l.leave_balanced n

theorem State.ledDrop_keeps {s0 : State} (s : State) (b : Block) (n : Nat) (h : Keeps s0 s) :
    Keeps s0 (State.ledDrop s b n) := h.ledger fun l => l.lose_balanced n

theorem State.ledFence_keeps {s0 : State} (s : State) (b : Block) (n : Nat) (h : Keeps s0 s) :
    Keeps s0 (State.ledFence s b n) := h.ledger fun l => l.catch_balanced n

theorem State.ledPass_keeps {s0 : State} (s : State) (b : Block) (h : Keeps s0 s) :
    Keeps s0 (State.ledPass s b) := by
  unfold State.ledPass
  repeat' first
    | with_reducible assumption
    | with_reducible apply State.ledOut_keeps
    | with_reducible apply State.ledIn_keeps

theorem State.sink_keeps {s0 : State} (s : State) (b : Block) (h : Keeps s0 s) :
    Keeps s0 (State.sink s b) := by
  unfold State.sink
  repeat' first
    | with_reducible assumption
    | with_reducible apply State.ledFence_keeps
    | with_reducible apply State.ledIn_keeps

theorem State.dropRecord_keeps {s0 : State} (s : State) (b : Block) (c : Cause) (len : Nat) (port : Nat) (owner : Nat) (detail : W32) (h : Keeps s0 s) :
    Keeps s0 (State.dropRecord s b c len port owner detail) := by
  unfold State.dropRecord
  repeat' first
    | with_reducible assumption
    | (extract_lets +onlyGivenNames x; clear_value x; revert x; intro _)
    | with_reducible apply Keeps.ite
    | with_reducible apply State.evt_keeps
    | with_reducible apply State.bumpSat_keeps
    | simp -zeta only [Keeps.mk_iff]

theorem State.dropPacket_keeps {s0 : State} (s : State) (b : Block) (c : Cause) (len : Nat) (port : Nat) (owner : Nat) (detail : W32) (h : Keeps s0 s) :
    Keeps s0 (State.dropPacket s b c len port owner detail) := by
  unfold State.dropPacket
  repeat' first
    | with_reducible assumption
    | with_reducible apply State.dropRecord_keeps
    | with_reducible apply State.ledDrop_keeps

theorem State.offWrite_keeps {s0 : State} (s : State) (h : Keeps s0 s) :
    Keeps s0 (State.offWrite s) := by
  unfold State.offWrite
  repeat' first
    | with_reducible assumption
    | simp -zeta only [Keeps.mk_iff]

theorem State.rejectCmd_keeps {s0 : State} (s : State) (b : Block) (tag : BitVec 8) (h : Keeps s0 s) :
    Keeps s0 (State.rejectCmd s b tag) := by
  unfold State.rejectCmd
  repeat' first
    | with_reducible assumption
    | with_reducible apply State.bumpSat_keeps
    | with_reducible apply State.put_keeps

theorem State.acceptCmd_keeps {s0 : State} (s : State) (b : Block) (tag : BitVec 8) (h : Keeps s0 s) :
    Keeps s0 (State.acceptCmd s b tag) := by
  unfold State.acceptCmd
  repeat' first
    | with_reducible assumption
    | with_reducible apply State.put_keeps

theorem State.complete_keeps {s0 : State} (s : State) (b : Block) (c : Code) (data : Nat) (r1 : W32) (r2 : W32) (r3 : W32) (h : Keeps s0 s) :
    Keeps s0 (State.complete s b c data r1 r2 r3) := by
  unfold State.complete
  repeat' first
    | with_reducible assumption
    | intro _
    | (extract_lets +onlyGivenNames x; have hx : Keeps s0 (by with_reducible apply x) := ?_; clear_value x; revert x; intro _ _; rotate_left; subst x)
    | (extract_lets +onlyGivenNames x; clear_value x; revert x; intro _)
    | with_reducible apply State.setBlk_keeps
    | with_reducible apply State.put_keeps
    | with_reducible apply State.setWord_keeps
    | simp -zeta only [Keeps.mk_iff]

theorem State.done_keeps {s0 : State} (s : State) (b : Block) (c : Code) (h : Keeps s0 s) :
    Keeps s0 (State.done s b c) := by
  unfold State.done
  repeat' first
    | with_reducible assumption
    | with_reducible apply State.complete_keeps

theorem State.startRun_keeps {s0 : State} (s : State) (b : Block) (r : RunCmd) (h : Keeps s0 s) :
    Keeps s0 (State.startRun s b r) := by
  unfold State.startRun
  repeat' first
    | with_reducible assumption
    | intro _
    | with_reducible apply State.setBlk_keeps
    | simp -zeta only [Keeps.mk_iff]

theorem State.onPage_keeps {s0 : State} (s : State) (m : Master) (b : Block) (body : State → State) (h : Keeps s0 s) (h_body : ∀ x, Keeps s0 x → Keeps s0 (body x)) :
    Keeps s0 (State.onPage s m b body) := by
  unfold State.onPage
  repeat' first
    | with_reducible assumption
    | with_reducible apply Keeps.ite
    | with_reducible apply State.offWrite_keeps
    | with_reducible apply h_body

theorem State.onCommon_keeps {s0 : State} (s : State) (m : Master) (b : Block) (tag : BitVec 8) (body : State → State) (h : Keeps s0 s) (h_body : ∀ x, Keeps s0 x → Keeps s0 (body x)) :
    Keeps s0 (State.onCommon s m b tag body) := by
  unfold State.onCommon
  repeat' first
    | with_reducible assumption
    | intro _
    | with_reducible apply Keeps.ite
    | with_reducible apply State.onPage_keeps
    | with_reducible apply State.acceptCmd_keeps
    | with_reducible apply State.rejectCmd_keeps
    | with_reducible apply h_body

theorem State.onCommand_keeps {s0 : State} (s : State) (m : Master) (b : Block) (tag : BitVec 8) (body : State → State) (h : Keeps s0 s) (h_body : ∀ x, Keeps s0 x → Keeps s0 (body x)) :
    Keeps s0 (State.onCommand s m b tag body) := by
  unfold State.onCommand
  repeat' first
    | with_reducible assumption
    | intro _
    | with_reducible apply Keeps.ite
    | with_reducible apply State.onCommon_keeps
    | with_reducible apply State.done_keeps
    | with_reducible apply h_body

theorem State.publish_keeps {s0 : State} (s : State) (b : Block) (n : Nat) (r : RunCmd) (h : Keeps s0 s) :
    Keeps s0 (State.publish s b n r) := by
  unfold State.publish
  repeat' first
    | with_reducible assumption
    | intro _
    | (extract_lets +onlyGivenNames x; have hx : Keeps s0 (by with_reducible apply x) := ?_; clear_value x; revert x; intro _ _; rotate_left; subst x)
    | (extract_lets +onlyGivenNames x; clear_value x; revert x; intro _)
    | with_reducible apply State.setBlk_keeps
    | with_reducible apply State.put_keeps
    | simp -zeta only [Keeps.mk_iff]

theorem State.pump_keeps {s0 : State} (b : Block) (n : Nat) (a0 : Nat) (s : State) (h : Keeps s0 s) :
    Keeps s0 (State.pump b n a0 s) := by
  induction a0 generalizing s with
  | zero => exact h
  | succ k ih =>
    unfold State.pump
    split
    · exact h
    · split
      · exact State.complete_keeps _ _ _ _ _ _ _ (State.put_keeps _ _ _ h)
      · split
        · exact h
        · exact ih _ (State.publish_keeps _ _ _ _ h)

theorem State.startLong_keeps {s0 : State} (s : State) (b : Block) (chunk : Nat) (r : RunCmd) (rows : List (List W32)) (data : List Nat) (h : Keeps s0 s) :
    Keeps s0 (State.startLong s b chunk r rows data) := by
  unfold State.startLong
  repeat' first
    | with_reducible assumption
    | with_reducible apply State.pump_keeps
    | with_reducible apply State.startRun_keeps

theorem State.fenceGroup_keeps {s0 : State} (s : State) (g : Nat) (cause : Nat) (h : Keeps s0 s) :
    Keeps s0 (State.fenceGroup s g cause) := by
  unfold State.fenceGroup
  repeat' first
    | with_reducible assumption
    | (extract_lets +onlyGivenNames x; have hx : Keeps s0 (by with_reducible apply x) := ?_; clear_value x; revert x; intro _ _; rotate_left; subst x)
    | with_reducible apply Keeps.ite
    | with_reducible apply State.evt_keeps
    | with_reducible apply State.setGroupFence_keeps
    | with_reducible apply State.bumpSat_keeps
    | with_reducible apply State.put_keeps

theorem State.catchTokens_keeps {s0 : State} (s : State) (b : Block) (n : Nat) (h : Keeps s0 s) :
    Keeps s0 (State.catchTokens s b n) := by
  unfold State.catchTokens
  repeat' first
    | with_reducible assumption
    | (extract_lets +onlyGivenNames x; clear_value x; revert x; intro _)
    | with_reducible apply State.ledFence_keeps
    | with_reducible apply State.ledIn_keeps

end Sys2Proof.Machine
end

