-- ==== Sys2Proof/Laws/KeepsBfifo.lean ====
section
/-! SUPPORT. The operations of Machine/Bfifo.lean break nothing (`Keeps`). -/

set_option linter.unusedSimpArgs false

namespace Sys2Proof.Machine

theorem State.setBfifo_keeps {s0 : State} (s : State) (i : Nat) (f : BFifo → BFifo) (h : Keeps s0 s) :
    Keeps s0 (State.setBfifo s i f) := by
  unfold State.setBfifo
  repeat' first
    | with_reducible assumption
    | simp -zeta only [Keeps.mk_iff]

theorem State.drawEntries_keeps {s0 : State} (s : State) (n : Nat) (h : Keeps s0 s) :
    Keeps s0 (State.drawEntries s n).2 := by
  unfold State.drawEntries
  repeat' first
    | with_reducible assumption
    | simp -zeta only [Keeps.mk_iff]

theorem State.passBfifo_keeps {s0 : State} (s : State) (i : Nat) (n : Nat) (val : Nat → Nat) (h : Keeps s0 s) :
    Keeps s0 (State.passBfifo s i n val) := by
  unfold State.passBfifo
  repeat' first
    | with_reducible assumption
    | with_reducible apply State.setBfifo_keeps

theorem State.passFree_keeps {s0 : State} (s : State) (i : Nat) (n : Nat) (h : Keeps s0 s) :
    Keeps s0 (State.passFree s i n) := by
  unfold State.passFree
  repeat' first
    | with_reducible assumption
    | with_reducible apply State.passBfifo_keeps
    | with_reducible apply State.drawEntries_keeps

theorem State.drainBfifo_keeps {s0 : State} (s : State) (i : Nat) (n : Nat) (h : Keeps s0 s) :
    Keeps s0 (State.drainBfifo s i n) := by
  unfold State.drainBfifo
  repeat' first
    | with_reducible assumption
    | with_reducible apply State.setBfifo_keeps

theorem State.arriveBfifo_keeps {s0 : State} (s : State) (i : Nat) (n : Nat) (reads : Nat) (h : Keeps s0 s) :
    Keeps s0 (State.arriveBfifo s i n reads).1 := by
  unfold State.arriveBfifo
  repeat' first
    | with_reducible assumption
    | (extract_lets +onlyGivenNames x; clear_value x; revert x; intro _)
    | with_reducible apply Keeps.ite
    | with_reducible apply State.drawEntries_keeps
    | with_reducible apply State.setBfifo_keeps
    | with_reducible apply State.evt_keeps
    | with_reducible apply State.draw_keeps
    | with_reducible apply State.bumpSat_keeps

theorem State.drainRx_keeps {s0 : State} (s : State) (h : Keeps s0 s) :
    Keeps s0 (State.drainRx s) := by
  unfold State.drainRx
  repeat' first
    | with_reducible assumption
    | intro _
    | with_reducible apply State.drainBfifo_keeps
    | with_reducible apply Keeps.foldl

theorem State.passOctets_keeps {s0 : State} (s : State) (i : Nat) (l : List Octet) (h : Keeps s0 s) :
    Keeps s0 (State.passOctets s i l) := by
  unfold State.passOctets
  repeat' first
    | with_reducible assumption
    | with_reducible apply State.passBfifo_keeps

end Sys2Proof.Machine
end

