-- ==== Sys2Proof/Laws/KeepsCells.lean ====
section
/-! SUPPORT. The operations of Machine/Cells.lean break nothing (`Keeps`). -/

set_option linter.unusedSimpArgs false

namespace Sys2Proof.Machine

theorem State.setLevel_keeps {s0 : State} (s : State) (p : Nat) (v : Nat) (h : Keeps s0 s) :
    Keeps s0 (State.setLevel s p v) := by
  unfold State.setLevel
  repeat' first
    | with_reducible assumption
    | with_reducible apply State.evtIf_keeps
    | simp -zeta only [Keeps.mk_iff]

theorem State.allocCell_keeps {s0 : State} (s : State) (owner : Nat) (sop : Bool) (eop : Bool) (h : Keeps s0 s) :
    Keeps s0 (State.allocCell s owner sop eop).1 := by
  unfold State.allocCell
  repeat' first
    | with_reducible assumption
    | with_reducible apply State.setLevel_keeps
    | with_reducible apply State.ledIn_keeps
    | simp -zeta only [Keeps.mk_iff]

theorem State.allocCells_keeps {s0 : State} (s : State) (owner : Nat) (total : Nat) (a0 : Nat) (h : Keeps s0 s) :
    Keeps s0 (State.allocCells s owner total a0).1 := by
  induction a0 generalizing s with
  | zero => exact h
  | succ n ih => exact ih _ (State.allocCell_keeps _ _ _ _ h)

theorem State.fillCells_keeps {s0 : State} (s : State) (a0 : List Nat) (a1 : List Octet) (h : Keeps s0 s) :
    Keeps s0 (State.fillCells s a0 a1) := by
  induction a0 generalizing s a1 with
  | nil => exact h
  | cons c r ih =>
    unfold State.fillCells
    split
    · exact ih _ _ (Keeps.of_eq h rfl rfl rfl rfl rfl rfl rfl)
    · exact ih _ _ h

theorem State.allocPacket_keeps {s0 : State} (s : State) (owner : Nat) (octets : Nat) (h : Keeps s0 s) :
    KeepsO s0 (State.allocPacket s owner octets) := by
  unfold State.allocPacket
  repeat' first
    | with_reducible assumption
    | with_reducible exact KeepsO.none
    | with_reducible apply KeepsO.some
    | with_reducible apply KeepsO.ite
    | with_reducible apply State.allocCells_keeps

theorem Freed.count_keeps {s0 : State} (k : Freed) (s : State) (h : Keeps s0 s) :
    Keeps s0 (Freed.count k s) := by
  unfold Freed.count
  repeat' first
    | with_reducible assumption
    | with_reducible apply State.ledFence_keeps
    | with_reducible apply State.ledDrop_keeps
    | with_reducible apply State.ledOut_keeps
    | split

theorem State.freeCell_keeps {s0 : State} (s : State) (k : Freed) (c : Nat) (reclaim : Bool) (h : Keeps s0 s) :
    Keeps s0 (State.freeCell s k c reclaim) := by
  unfold State.freeCell
  repeat' first
    | with_reducible assumption
    | with_reducible apply Freed.count_keeps
    | with_reducible apply State.setLevel_keeps
    | simp -zeta only [Keeps.mk_iff]
    | split

theorem State.freeCells_keeps {s0 : State} (s : State) (k : Freed) (cs : List Nat) (h : Keeps s0 s) :
    Keeps s0 (State.freeCells s k cs) := by
  unfold State.freeCells
  repeat' first
    | with_reducible assumption
    | intro _
    | with_reducible apply State.freeCell_keeps
    | with_reducible apply Keeps.foldl

theorem State.retag_keeps {s0 : State} (s : State) (c : Nat) (owner : Nat) (inFlight : Bool) (h : Keeps s0 s) :
    Keeps s0 (State.retag s c owner inFlight) := by
  unfold State.retag
  repeat' first
    | with_reducible assumption
    | simp -zeta only [Keeps.mk_iff]
    | split

theorem State.handCells_keeps {s0 : State} (s : State) (cs : List Nat) (owner : Nat) (h : Keeps s0 s) :
    Keeps s0 (State.handCells s cs owner) := by
  unfold State.handCells
  repeat' first
    | with_reducible assumption
    | intro _
    | with_reducible apply State.retag_keeps
    | with_reducible apply Keeps.foldl

theorem State.quarantine_keeps {s0 : State} (s : State) (c : Nat) (h : Keeps s0 s) :
    Keeps s0 (State.quarantine s c) := by
  unfold State.quarantine
  repeat' first
    | with_reducible assumption
    | (extract_lets +onlyGivenNames x; have hx : Keeps s0 (by with_reducible apply x) := ?_; clear_value x; revert x; intro _ _; rotate_left; subst x)
    | with_reducible apply State.retag_keeps
    | with_reducible apply State.evt_keeps
    | with_reducible apply State.bumpSat_keeps
    | simp -zeta only [Keeps.mk_iff]
    | split

theorem State.freeOwner_keeps {s0 : State} (s : State) (owner : Nat) (fl : Bool) (h : Keeps s0 s) :
    Keeps s0 (State.freeOwner s owner fl).1 := by
  unfold State.freeOwner
  repeat' first
    | with_reducible assumption
    | intro _
    | with_reducible apply State.freeCell_keeps
    | with_reducible apply Keeps.foldl

theorem State.sinkCells_keeps {s0 : State} (s : State) (cs : List Nat) (h : Keeps s0 s) :
    Keeps s0 (State.sinkCells s cs) := by
  unfold State.sinkCells
  repeat' first
    | with_reducible assumption
    | with_reducible apply State.freeCells_keeps
    | with_reducible apply State.bumpSat_keeps

theorem State.setLink_keeps {s0 : State} (s : State) (l : Nat) (f : Link → Link) (h : Keeps s0 s) :
    Keeps s0 (State.setLink s l f) := by
  unfold State.setLink
  repeat' first
    | with_reducible assumption
    | simp -zeta only [Keeps.mk_iff]

theorem State.spend_keeps {s0 : State} (s : State) (l : Nat) (h : Keeps s0 s) :
    Keeps s0 (State.spend s l) := by
  unfold State.spend
  repeat' first
    | with_reducible assumption
    | with_reducible apply State.setLink_keeps

theorem State.refund_keeps {s0 : State} (s : State) (l : Nat) (h : Keeps s0 s) :
    Keeps s0 (State.refund s l) := by
  unfold State.refund
  repeat' first
    | with_reducible assumption
    | with_reducible apply State.setLink_keeps

end Sys2Proof.Machine
end

