-- ==== Sys2Proof/Laws/KeepsPeelOps.lean ====
section
/-! SUPPORT. The operations of Machine/PeelOps.lean break nothing (`Keeps`). -/

set_option linter.unusedSimpArgs false

namespace Sys2Proof.Machine

theorem State.setItem_keeps {s0 : State} (s : State) (id : Nat) (f : Item → Item) (h : Keeps s0 s) :
    Keeps s0 (State.setItem s id f) := by
  unfold State.setItem
  repeat' first
    | with_reducible assumption
    | (extract_lets +onlyGivenNames x; clear_value x; revert x; intro _)
    | simp -zeta only [Keeps.mk_iff]
    | split

theorem State.acceptItem_keeps {s0 : State} (s : State) (p : Nat) (words : List W32) (cells : List Nat) (octets : Nat) (h : Keeps s0 s) :
    Keeps s0 (State.acceptItem s p words cells octets).1 := by
  unfold State.acceptItem
  repeat' first
    | with_reducible assumption
    | (extract_lets +onlyGivenNames x; have hx : Keeps s0 (by with_reducible apply x) := ?_; clear_value x; revert x; intro _ _; rotate_left; subst x)
    | (extract_lets +onlyGivenNames x; clear_value x; revert x; intro _)
    | with_reducible apply State.ledIn_keeps
    | with_reducible apply State.evtIf_keeps
    | simp -zeta only [Keeps.mk_iff]

theorem State.hwPost_keeps {s0 : State} (s : State) (p : Nat) (words : List W32) (h : Keeps s0 s) :
    Keeps s0 (State.hwPost s p words).1 := by
  unfold State.hwPost
  repeat' first
    | with_reducible assumption
    | with_reducible apply State.acceptItem_keeps
    | simp -zeta only [Keeps.mk_iff]
    | split

theorem State.hwTry_keeps {s0 : State} (s : State) (xx : HwPost) (h : Keeps s0 s) :
    Keeps s0 (State.hwTry s xx).1 := by
  unfold State.hwTry
  repeat' first
    | with_reducible assumption
    | (extract_lets +onlyGivenNames x; clear_value x; revert x; intro _)
    | with_reducible apply State.hwPost_keeps
    | with_reducible apply State.acceptItem_keeps
    | with_reducible apply State.setItem_keeps
    | with_reducible apply State.handCells_keeps
    | with_reducible apply State.allocPacket_keeps
    | with_reducible apply State.fillCells_keeps
    | simp -zeta only [Keeps.mk_iff]
    | split
    | with_reducible refine Keeps.of_some (by assumption) ?_

theorem State.endRelay_keeps {s0 : State} (s : State) (w4 : Nat) (c : Code) (h : Keeps s0 s) :
    Keeps s0 (State.endRelay s w4 c) := by
  unfold State.endRelay
  repeat' first
    | with_reducible assumption
    | (extract_lets +onlyGivenNames x; have hx : Keeps s0 (by with_reducible apply x) := ?_; clear_value x; revert x; intro _ _; rotate_left; subst x)
    | (extract_lets +onlyGivenNames x; clear_value x; revert x; intro _)
    | with_reducible apply Keeps.ite
    | with_reducible apply State.ledFence_keeps
    | with_reducible apply State.ledDrop_keeps
    | simp -zeta only [Keeps.mk_iff]

theorem State.timerEnds_keeps {s0 : State} (s : State) (w4 : Nat) (gap : Nat) (c : Code) (h : Keeps s0 s) :
    Keeps s0 (State.timerEnds s w4 gap c) := by
  unfold State.timerEnds
  repeat' first
    | with_reducible assumption
    | with_reducible apply Keeps.ite
    | with_reducible apply State.endRelay_keeps
    | with_reducible apply State.done_keeps

theorem State.hwReturn_keeps {s0 : State} (s : State) (it : Item) (c : Code) (h : Keeps s0 s) :
    Keeps s0 (State.hwReturn s it c) := by
  unfold State.hwReturn
  repeat' first
    | with_reducible assumption
    | (extract_lets +onlyGivenNames x; have hx : Keeps s0 (by with_reducible apply x) := ?_; clear_value x; revert x; intro _ _; rotate_left; subst x)
    | with_reducible apply Keeps.ite
    | with_reducible apply State.timerEnds_keeps
    | with_reducible apply State.ledDrop_keeps
    | with_reducible apply State.ledOut_keeps
    | with_reducible apply State.evt_keeps
    | with_reducible apply State.bumpSat_keeps
    | split

theorem State.endAim_keeps {s0 : State} (s : State) (id : Nat) (c : Code) (h : Keeps s0 s) :
    Keeps s0 (State.endAim s id c) := by
  unfold State.endAim
  repeat' first
    | with_reducible assumption
    | (extract_lets +onlyGivenNames x; have hx : Keeps s0 (by with_reducible apply x) := ?_; clear_value x; revert x; intro _ _; rotate_left; subst x)
    | (extract_lets +onlyGivenNames x; clear_value x; revert x; intro _)
    | with_reducible apply State.ledFence_keeps
    | with_reducible apply State.ledDrop_keeps
    | with_reducible apply State.ledOut_keeps
    | simp -zeta only [Keeps.mk_iff]
    | split

theorem State.completeItem_keeps {s0 : State} (s : State) (id : Nat) (c : Code) (stamp : Stamp) (h : Keeps s0 s) :
    Keeps s0 (State.completeItem s id c stamp) := by
  unfold State.completeItem
  repeat' first
    | with_reducible assumption
    | (extract_lets +onlyGivenNames x; have hx : Keeps s0 (by with_reducible apply x) := ?_; clear_value x; revert x; intro _ _; rotate_left; subst x)
    | (extract_lets +onlyGivenNames x; clear_value x; revert x; intro _)
    | with_reducible apply Keeps.ite
    | with_reducible apply State.endAim_keeps
    | with_reducible apply State.hwReturn_keeps
    | with_reducible apply State.setItem_keeps
    | with_reducible apply State.freeCells_keeps
    | with_reducible apply State.ledFence_keeps
    | with_reducible apply State.ledDrop_keeps
    | with_reducible apply State.ledOut_keeps
    | with_reducible apply State.bumpSat_keeps
    | simp -zeta only [Keeps.mk_iff]
    | split

theorem State.makeReady_keeps {s0 : State} (s : State) (id : Nat) (h : Keeps s0 s) :
    Keeps s0 (State.makeReady s id) := by
  unfold State.makeReady
  repeat' first
    | with_reducible assumption
    | (extract_lets +onlyGivenNames x; have hx : Keeps s0 (by with_reducible apply x) := ?_; clear_value x; revert x; intro _ _; rotate_left; subst x)
    | (extract_lets +onlyGivenNames x; clear_value x; revert x; intro _)
    | with_reducible apply State.setItem_keeps
    | simp -zeta only [Keeps.mk_iff]

theorem State.countLate_keeps {s0 : State} (s : State) (it : Item) (h : Keeps s0 s) :
    Keeps s0 (State.countLate s it) := by
  unfold State.countLate
  repeat' first
    | with_reducible assumption
    | with_reducible apply Keeps.ite
    | with_reducible apply State.evt_keeps
    | with_reducible apply State.bumpSat_keeps

theorem State.offItem_keeps {s0 : State} (s : State) (id : Nat) (h : Keeps s0 s) :
    Keeps s0 (State.offItem s id) := by
  unfold State.offItem
  repeat' first
    | with_reducible assumption
    | with_reducible apply State.completeItem_keeps
    | with_reducible apply State.evt_keeps
    | with_reducible apply State.bumpSat_keeps

theorem State.grant_keeps {s0 : State} (s : State) (id : Nat) (h : Keeps s0 s) :
    Keeps s0 (State.grant s id) := by
  unfold State.grant
  repeat' first
    | with_reducible assumption
    | (extract_lets +onlyGivenNames x; have hx : Keeps s0 (by with_reducible apply x) := ?_; clear_value x; revert x; intro _ _; rotate_left; subst x)
    | with_reducible apply Keeps.ite
    | with_reducible apply State.offItem_keeps
    | with_reducible apply State.countLate_keeps
    | with_reducible apply State.makeReady_keeps
    | with_reducible apply State.setItem_keeps
    | with_reducible apply State.bump_keeps
    | split

theorem State.unpark_keeps {s0 : State} (s : State) (id : Nat) (h : Keeps s0 s) :
    Keeps s0 (State.unpark s id) := by
  unfold State.unpark
  repeat' first
    | with_reducible assumption
    | with_reducible apply Keeps.ite
    | with_reducible apply State.offItem_keeps
    | with_reducible apply State.makeReady_keeps
    | split

theorem State.rdyWait_keeps {s0 : State} (s : State) (target : Nat) (h : Keeps s0 s) :
    Keeps s0 (State.rdyWait s target) := by
  unfold State.rdyWait
  repeat' first
    | with_reducible assumption
    | (extract_lets +onlyGivenNames x; have hx : Keeps s0 (by with_reducible apply x) := ?_; clear_value x; revert x; intro _ _; rotate_left; subst x)
    | (extract_lets +onlyGivenNames x; clear_value x; revert x; intro _)
    | with_reducible apply Keeps.ite
    | with_reducible apply State.evt_keeps
    | with_reducible apply State.bumpSat_keeps
    | simp -zeta only [Keeps.mk_iff]

theorem State.grantOrWait_keeps {s0 : State} (s : State) (id : Nat) (it : Item) (h : Keeps s0 s) :
    Keeps s0 (State.grantOrWait s id it) := by
  unfold State.grantOrWait
  repeat' first
    | with_reducible assumption
    | with_reducible apply Keeps.ite
    | with_reducible apply State.rdyWait_keeps
    | with_reducible apply State.unpark_keeps
    | with_reducible apply State.grant_keeps

theorem State.grantAll_keeps {s0 : State} (ok : Item → Bool) (a0 : Nat) (s : State) (h : Keeps s0 s) :
    Keeps s0 (State.grantAll ok a0 s) := by
  induction a0 generalizing s with
  | zero => exact h
  | succ n ih =>
    unfold State.grantAll
    split
    · exact h
    · split
      · exact h
      · exact ih _ (State.grantOrWait_keeps _ _ _ h)

theorem State.regrant_keeps {s0 : State} (s : State) (h : Keeps s0 s) :
    Keeps s0 (State.regrant s) := by
  unfold State.regrant
  repeat' first
    | with_reducible assumption
    | with_reducible apply State.grantAll_keeps

theorem State.grantBefore_keeps {s0 : State} (s : State) (it : Item) (h : Keeps s0 s) :
    Keeps s0 (State.grantBefore s it) := by
  unfold State.grantBefore
  repeat' first
    | with_reducible assumption
    | with_reducible apply State.grantAll_keeps

theorem State.grantFlow_keeps {s0 : State} (s : State) (f : Nat) (h : Keeps s0 s) :
    Keeps s0 (State.grantFlow s f) := by
  unfold State.grantFlow
  repeat' first
    | with_reducible assumption
    | with_reducible apply Keeps.ite
    | with_reducible apply State.grantOrWait_keeps
    | split

theorem State.hwRefused_keeps {s0 : State} (s : State) (p : Nat) (h : Keeps s0 s) :
    Keeps s0 (State.hwRefused s p) := by
  unfold State.hwRefused
  repeat' first
    | with_reducible assumption
    | with_reducible apply Keeps.ite
    | with_reducible apply State.ledDrop_keeps

theorem State.timerRefused_keeps {s0 : State} (s : State) (xx : HwPost) (h : Keeps s0 s) :
    Keeps s0 (State.timerRefused s xx) := by
  unfold State.timerRefused
  repeat' first
    | with_reducible assumption
    | with_reducible apply Keeps.ite
    | with_reducible apply State.timerEnds_keeps

theorem State.floodPosted_keeps {s0 : State} (s : State) (h : Keeps s0 s) :
    Keeps s0 (State.floodPosted s) := by
  unfold State.floodPosted
  repeat' first
    | with_reducible assumption
    | with_reducible apply Keeps.ite
    | with_reducible apply State.complete_keeps
    | split

theorem State.hwDrain_keeps {s0 : State} (s : State) (h : Keeps s0 s) :
    Keeps s0 (State.hwDrain s) := by
  unfold State.hwDrain
  repeat' first
    | with_reducible assumption
    | intro _
    | (extract_lets +onlyGivenNames x; clear_value x; revert x; intro _)
    | with_reducible apply Keeps.ite
    | with_reducible apply State.floodPosted_keeps
    | with_reducible apply State.timerRefused_keeps
    | with_reducible apply State.hwRefused_keeps
    | with_reducible apply State.hwTry_keeps
    | with_reducible apply Keeps.foldl
    | simp -zeta only [Keeps.mk_iff]
    | split
    | with_reducible refine Keeps.of_pair (by assumption) ?_

theorem State.hwSend_keeps {s0 : State} (s : State) (xx : HwPost) (h : Keeps s0 s) :
    Keeps s0 (State.hwSend s xx) := by
  unfold State.hwSend
  repeat' first
    | with_reducible assumption
    | (extract_lets +onlyGivenNames x; clear_value x; revert x; intro _)
    | with_reducible apply Keeps.ite
    | with_reducible apply State.timerRefused_keeps
    | with_reducible apply State.hwRefused_keeps
    | with_reducible apply State.hwTry_keeps
    | simp -zeta only [Keeps.mk_iff]
    | split
    | with_reducible refine Keeps.of_pair (by assumption) ?_

theorem State.dirPost_keeps {s0 : State} (s : State) (w : DirWork) (h : Keeps s0 s) :
    Keeps s0 (State.dirPost s w) := by
  unfold State.dirPost
  repeat' first
    | with_reducible assumption
    | (extract_lets +onlyGivenNames x; clear_value x; revert x; intro _)
    | with_reducible apply State.hwPost_keeps
    | with_reducible apply State.done_keeps
    | simp -zeta only [Keeps.mk_iff]
    | split
    | with_reducible refine Keeps.of_pair (by assumption) ?_

theorem State.dirDrain_keeps {s0 : State} (s : State) (h : Keeps s0 s) :
    Keeps s0 (State.dirDrain s) := by
  unfold State.dirDrain
  repeat' first
    | with_reducible assumption
    | with_reducible apply State.dirPost_keeps
    | split

theorem State.txnDrain_keeps {s0 : State} (s : State) (h : Keeps s0 s) :
    Keeps s0 (State.txnDrain s) := by
  unfold State.txnDrain
  repeat' first
    | with_reducible assumption
    | intro _
    | (extract_lets +onlyGivenNames x; clear_value x; revert x; intro _)
    | with_reducible apply State.dirDrain_keeps
    | with_reducible apply State.hwPost_keeps
    | with_reducible apply Keeps.foldl
    | simp -zeta only [Keeps.mk_iff]
    | split
    | with_reducible refine Keeps.of_pair (by assumption) ?_

theorem State.finishItem_keeps {s0 : State} (s : State) (id : Nat) (c : Code) (stamp : Stamp) (h : Keeps s0 s) :
    Keeps s0 (State.finishItem s id c stamp) := by
  unfold State.finishItem
  repeat' first
    | with_reducible assumption
    | with_reducible apply State.txnDrain_keeps
    | with_reducible apply State.hwDrain_keeps
    | with_reducible apply State.grantFlow_keeps
    | with_reducible apply State.completeItem_keeps
    | split

theorem State.flushReady_keeps {s0 : State} (s : State) (k : Nat) (h : Keeps s0 s) :
    Keeps s0 (State.flushReady s k) := by
  unfold State.flushReady
  repeat' first
    | with_reducible assumption
    | intro _
    | with_reducible apply State.finishItem_keeps
    | with_reducible apply State.evt_keeps
    | with_reducible apply State.bumpSat_keeps
    | with_reducible apply Keeps.foldl

theorem State.takeReady_keeps {s0 : State} (s : State) (k : Nat) (h : Keeps s0 s) :
    KeepsO s0 (State.takeReady s k) := by
  unfold State.takeReady
  repeat' first
    | with_reducible assumption
    | (extract_lets +onlyGivenNames x; have hx : Keeps s0 (by with_reducible apply x) := ?_; clear_value x; revert x; intro _ _; rotate_left; subst x)
    | with_reducible exact KeepsO.none
    | with_reducible apply KeepsO.some
    | with_reducible apply KeepsO.ite
    | with_reducible apply State.setItem_keeps
    | with_reducible apply State.bump_keeps
    | split

end Sys2Proof.Machine
end

