-- ==== Sys2Proof/Laws/KeepsDirOps.lean ====
section
/-! SUPPORT. The operations of Machine/DirOps.lean break nothing (`Keeps`). -/

set_option linter.unusedSimpArgs false

namespace Sys2Proof.Machine

theorem State.markDirty_keeps {s0 : State} (s : State) (h0 : Nat) (h : Keeps s0 s) :
    Keeps s0 (State.markDirty s h0) := by
  unfold State.markDirty
  repeat' first
    | with_reducible assumption
    | (extract_lets +onlyGivenNames x; have hx : Keeps s0 (by with_reducible apply x) := ?_; clear_value x; revert x; intro _ _; rotate_left; subst x)
    | (extract_lets +onlyGivenNames x; clear_value x; revert x; intro _)
    | with_reducible apply Keeps.ite
    | with_reducible apply State.ledIn_keeps
    | with_reducible apply State.put_keeps
    | simp -zeta only [Keeps.mk_iff]

theorem State.cacheRows_keeps {s0 : State} (s : State) (rows : List Nat) (h : Keeps s0 s) :
    Keeps s0 (State.cacheRows s rows) := by
  unfold State.cacheRows
  repeat' first
    | with_reducible assumption
    | (extract_lets +onlyGivenNames x; clear_value x; revert x; intro _)
    | simp -zeta only [Keeps.mk_iff]

theorem State.setNode_keeps {s0 : State} (s : State) (h0 : Nat) (e : NodeEntry) (h : Keeps s0 s) :
    Keeps s0 (State.setNode s h0 e) := by
  unfold State.setNode
  repeat' first
    | with_reducible assumption
    | (extract_lets +onlyGivenNames x; clear_value x; revert x; intro _)
    | with_reducible apply Keeps.ite
    | with_reducible apply State.cacheRows_keeps
    | with_reducible apply State.markDirty_keeps
    | simp -zeta only [Keeps.mk_iff]

theorem State.clearNode_keeps {s0 : State} (s : State) (h0 : Nat) (h : Keeps s0 s) :
    Keeps s0 (State.clearNode s h0) := by
  unfold State.clearNode
  repeat' first
    | with_reducible assumption
    | (extract_lets +onlyGivenNames x; clear_value x; revert x; intro _)
    | with_reducible apply State.cacheRows_keeps
    | with_reducible apply State.markDirty_keeps
    | simp -zeta only [Keeps.mk_iff]

theorem State.setWay_keeps {s0 : State} (s : State) (k : Nat) (w : Nat) (xx : Option IndexWord) (moved : Bool) (h : Keeps s0 s) :
    Keeps s0 (State.setWay s k w xx moved) := by
  unfold State.setWay
  repeat' first
    | with_reducible assumption
    | (extract_lets +onlyGivenNames x; have hx : Keeps s0 (by with_reducible apply x) := ?_; clear_value x; revert x; intro _ _; rotate_left; subst x)
    | (extract_lets +onlyGivenNames x; clear_value x; revert x; intro _)
    | with_reducible apply State.cacheRows_keeps
    | simp -zeta only [Keeps.mk_iff]

theorem State.lookupEui_keeps {s0 : State} (s : State) (eui : BitVec 64) (moves : Nat) (h : Keeps s0 s) :
    Keeps s0 (State.lookupEui s eui moves).1 := by
  unfold State.lookupEui
  repeat' first
    | with_reducible assumption
    | (extract_lets +onlyGivenNames x; have hx : Keeps s0 (by with_reducible apply x) := ?_; clear_value x; revert x; intro _ _; rotate_left; subst x)
    | (extract_lets +onlyGivenNames x; clear_value x; revert x; intro _)
    | with_reducible apply Keeps.ite
    | with_reducible apply State.cacheRows_keeps
    | with_reducible apply State.ledDrop_keeps
    | with_reducible apply State.ledOut_keeps
    | with_reducible apply State.ledIn_keeps
    | with_reducible apply State.evt_keeps
    | with_reducible apply State.bumpSat_keeps
    | with_reducible apply State.bump_keeps

theorem State.relocate_keeps {s0 : State} (s : State) (dest : Nat) (a0 : List (Nat × Nat)) (h : Keeps s0 s) :
    Keeps s0 (State.relocate s dest a0) := by
  induction a0 generalizing s dest with
  | nil => exact h
  | cons p r ih =>
    unfold State.relocate
    split
    · exact h
    · exact ih _ _ (State.setWay_keeps _ _ _ _ _ (State.setWay_keeps _ _ _ _ _ h))

theorem State.indexInsert_keeps {s0 : State} (s : State) (eui : BitVec 64) (h0 : Nat) (h : Keeps s0 s) :
    KeepsO s0 (State.indexInsert s eui h0) := by
  unfold State.indexInsert
  repeat' first
    | with_reducible assumption
    | (extract_lets +onlyGivenNames x; have hx : Keeps s0 (by with_reducible apply x) := ?_; clear_value x; revert x; intro _ _; rotate_left; subst x)
    | (extract_lets +onlyGivenNames x; clear_value x; revert x; intro _)
    | with_reducible exact KeepsO.none
    | with_reducible apply KeepsO.some
    | with_reducible apply State.relocate_keeps
    | with_reducible apply State.setWay_keeps
    | split

theorem State.indexRemove_keeps {s0 : State} (s : State) (eui : BitVec 64) (h0 : Nat) (h : Keeps s0 s) :
    Keeps s0 (State.indexRemove s eui h0) := by
  unfold State.indexRemove
  repeat' first
    | with_reducible assumption
    | intro _
    | with_reducible apply State.setWay_keeps
    | with_reducible apply Keeps.foldl
    | split

theorem State.takeCounter_keeps {s0 : State} (s : State) (h0 : Nat) (waited : Bool) (h : Keeps s0 s) :
    Keeps s0 (State.takeCounter s h0 waited).1 := by
  unfold State.takeCounter
  repeat' first
    | with_reducible assumption
    | (extract_lets +onlyGivenNames x; have hx : Keeps s0 (by with_reducible apply x) := ?_; clear_value x; revert x; intro _ _; rotate_left; subst x)
    | (extract_lets +onlyGivenNames x; clear_value x; revert x; intro _)
    | with_reducible apply Keeps.ite
    | with_reducible apply State.setNode_keeps
    | with_reducible apply State.markDirty_keeps
    | with_reducible apply State.evt_keeps
    | with_reducible apply State.bumpSat_keeps
    | split

theorem State.takeBroadcast_keeps {s0 : State} (s : State) (waited : Bool) (h : Keeps s0 s) :
    Keeps s0 (State.takeBroadcast s waited).1 := by
  unfold State.takeBroadcast
  repeat' first
    | with_reducible assumption
    | (extract_lets +onlyGivenNames x; have hx : Keeps s0 (by with_reducible apply x) := ?_; clear_value x; revert x; intro _ _; rotate_left; subst x)
    | (extract_lets +onlyGivenNames x; clear_value x; revert x; intro _)
    | with_reducible apply Keeps.ite
    | with_reducible apply State.evt_keeps
    | with_reducible apply State.bumpSat_keeps
    | simp -zeta only [Keeps.mk_iff]
    | split

theorem State.writeBroadcast_keeps {s0 : State} (s : State) (h : Keeps s0 s) :
    Keeps s0 (State.writeBroadcast s) := by
  unfold State.writeBroadcast
  repeat' first
    | with_reducible assumption
    | (extract_lets +onlyGivenNames x; clear_value x; revert x; intro _)
    | with_reducible apply Keeps.ite
    | simp -zeta only [Keeps.mk_iff]

end Sys2Proof.Machine
end

