-- ==== Sys2Proof/Laws/KeepsHostOps.lean ====
section
/-! SUPPORT. The operations of Machine/HostOps.lean break nothing (`Keeps`). -/

set_option linter.unusedSimpArgs false

namespace Sys2Proof.Machine

theorem State.setQueue_keeps {s0 : State} (s : State) (q : Nat) (f : QueueSt → QueueSt) (h : Keeps s0 s) :
    Keeps s0 (State.setQueue s q f) := by
  unfold State.setQueue
  repeat' first
    | with_reducible assumption
    | (extract_lets +onlyGivenNames x; clear_value x; revert x; intro _)
    | simp -zeta only [Keeps.mk_iff]

theorem State.toQueue_keeps {s0 : State} (s : State) (q : Nat) (p : HostPkt) (h : Keeps s0 s) :
    Keeps s0 (State.toQueue s q p) := by
  unfold State.toQueue
  repeat' first
    | with_reducible assumption
    | (extract_lets +onlyGivenNames x; have hx : Keeps s0 (by with_reducible apply x) := ?_; clear_value x; revert x; intro _ _; rotate_left; subst x)
    | (extract_lets +onlyGivenNames x; clear_value x; revert x; intro _)
    | with_reducible apply State.setQueue_keeps
    | with_reducible apply State.setLink_keeps
    | with_reducible apply State.handCells_keeps
    | with_reducible apply State.ledIn_keeps

theorem State.offerHost_keeps {s0 : State} (s : State) (valid : Bool) (q : Nat) (p : HostPkt) (h : Keeps s0 s) :
    Keeps s0 (State.offerHost s valid q p).1 := by
  unfold State.offerHost
  repeat' first
    | with_reducible assumption
    | with_reducible apply State.toQueue_keeps
    | with_reducible apply State.setLink_keeps
    | with_reducible apply State.sinkCells_keeps
    | with_reducible apply State.dropRecord_keeps
    | with_reducible apply State.sink_keeps
    | with_reducible apply State.bumpSat_keeps
    | split

theorem State.forgetCells_keeps {s0 : State} (s : State) (cs : List Nat) (h : Keeps s0 s) :
    Keeps s0 (State.forgetCells s cs) := by
  unfold State.forgetCells
  repeat' first
    | with_reducible assumption
    | (extract_lets +onlyGivenNames x; clear_value x; revert x; intro _)
    | simp -zeta only [Keeps.mk_iff]

theorem State.revoke_keeps {s0 : State} (s : State) (q : Nat) (h : Keeps s0 s) :
    Keeps s0 (State.revoke s q) := by
  unfold State.revoke
  repeat' first
    | with_reducible assumption
    | (extract_lets +onlyGivenNames x; have hx : Keeps s0 (by with_reducible apply x) := ?_; clear_value x; revert x; intro _ _; rotate_left; subst x)
    | (extract_lets +onlyGivenNames x; clear_value x; revert x; intro _)
    | with_reducible apply State.forgetCells_keeps
    | with_reducible apply State.setQueue_keeps
    | with_reducible apply State.setLink_keeps
    | with_reducible apply State.freeOwner_keeps
    | with_reducible apply State.ledFence_keeps
    | with_reducible apply State.evt_keeps
    | with_reducible apply State.bumpSat_keeps
    | with_reducible apply State.put_keeps
    | simp -zeta only [Keeps.mk_iff]

theorem State.dramWrite_keeps {s0 : State} (s : State) (a : Nat) (l : List Octet) (h : Keeps s0 s) :
    Keeps s0 (State.dramWrite s a l) := h.change rfl (fun x => Memory.wf_writeAll l s.dram a x) (fun _ => .inl rfl) rfl (fun _ x => x) id (Nat.le_refl _)

end Sys2Proof.Machine
end

