-- ==== Sys2Proof/Laws/KeepsWbOps.lean ====
section
/-! SUPPORT. The operations of Machine/WbOps.lean break nothing (`Keeps`). -/

set_option linter.unusedSimpArgs false

namespace Sys2Proof.Machine

theorem State.setWb_keeps {s0 : State} (s : State) (n : Nat) (f : WbSt → WbSt) (h : Keeps s0 s) :
    Keeps s0 (State.setWb s n f) := by
  unfold State.setWb
  repeat' first
    | with_reducible assumption
    | simp -zeta only [Keeps.mk_iff]

theorem State.setCtx_keeps {s0 : State} (s : State) (n : Nat) (k : Nat) (c : Ctx) (h : Keeps s0 s) :
    Keeps s0 (State.setCtx s n k c) := by
  unfold State.setCtx
  repeat' first
    | with_reducible assumption
    | with_reducible apply State.setWb_keeps

theorem State.setPool_keeps {s0 : State} (s : State) (n : Nat) (l : List Segment) (h : Keeps s0 s) :
    Keeps s0 (State.setPool s n l) := by
  unfold State.setPool
  repeat' first
    | with_reducible assumption
    | (extract_lets +onlyGivenNames x; clear_value x; revert x; intro _)
    | simp -zeta only [Keeps.mk_iff]

theorem State.dropSegments_keeps {s0 : State} (s : State) (n : Nat) (k : Nat) (h : Keeps s0 s) :
    Keeps s0 (State.dropSegments s n k) := by
  unfold State.dropSegments
  repeat' first
    | with_reducible assumption
    | (extract_lets +onlyGivenNames x; have hx : Keeps s0 (by with_reducible apply x) := ?_; clear_value x; revert x; intro _ _; rotate_left; subst x)
    | (extract_lets +onlyGivenNames x; clear_value x; revert x; intro _)
    | with_reducible apply State.setPool_keeps
    | with_reducible apply State.ledDrop_keeps
    | simp -zeta only [Keeps.mk_iff]

theorem State.releaseCtx_keeps {s0 : State} (s : State) (n : Nat) (k : Nat) (h : Keeps s0 s) :
    Keeps s0 (State.releaseCtx s n k) := by
  unfold State.releaseCtx
  repeat' first
    | with_reducible assumption
    | with_reducible apply State.dropSegments_keeps
    | with_reducible apply State.setWb_keeps

theorem State.falseCtx_keeps {s0 : State} (s : State) (n : Nat) (k : Nat) (h : Keeps s0 s) :
    Keeps s0 (State.falseCtx s n k) := by
  unfold State.falseCtx
  repeat' first
    | with_reducible assumption
    | with_reducible apply State.releaseCtx_keeps
    | with_reducible apply State.ledDrop_keeps
    | with_reducible apply State.bumpSat_keeps

theorem State.setRec_keeps {s0 : State} (s : State) (n : Nat) (id : Nat) (r : WbRec) (h : Keeps s0 s) :
    Keeps s0 (State.setRec s n id r) := by
  unfold State.setRec
  repeat' first
    | with_reducible assumption
    | with_reducible apply State.setWb_keeps

theorem State.dropRec_keeps {s0 : State} (s : State) (n : Nat) (id : Nat) (fenced : Bool) (c : Cause) (h : Keeps s0 s) :
    Keeps s0 (State.dropRec s n id fenced c) := by
  unfold State.dropRec
  repeat' first
    | with_reducible assumption
    | (extract_lets +onlyGivenNames x; have hx : Keeps s0 (by with_reducible apply x) := ?_; clear_value x; revert x; intro _ _; rotate_left; subst x)
    | with_reducible apply Keeps.ite
    | with_reducible apply State.setWb_keeps
    | with_reducible apply State.freeCells_keeps
    | with_reducible apply State.dropRecord_keeps
    | with_reducible apply State.ledFence_keeps
    | with_reducible apply State.ledDrop_keeps
    | split

theorem State.settleRec_keeps {s0 : State} (s : State) (n : Nat) (id : Nat) (result : Nat) (h : Keeps s0 s) :
    Keeps s0 (State.settleRec s n id result) := by
  unfold State.settleRec
  repeat' first
    | with_reducible assumption
    | (extract_lets +onlyGivenNames x; have hx : Keeps s0 (by with_reducible apply x) := ?_; clear_value x; revert x; intro _ _; rotate_left; subst x)
    | with_reducible apply Keeps.ite
    | with_reducible apply State.dropRec_keeps
    | with_reducible apply State.setRec_keeps
    | with_reducible apply State.setWb_keeps
    | split

theorem State.ctxToRec_keeps {s0 : State} (s : State) (n : Nat) (k : Nat) (r : WbRec) (h : Keeps s0 s) :
    Keeps s0 (State.ctxToRec s n k r).1 := by
  unfold State.ctxToRec
  repeat' first
    | with_reducible assumption
    | (extract_lets +onlyGivenNames x; have hx : Keeps s0 (by with_reducible apply x) := ?_; clear_value x; revert x; intro _ _; rotate_left; subst x)
    | (extract_lets +onlyGivenNames x; clear_value x; revert x; intro _)
    | with_reducible apply State.setRec_keeps
    | with_reducible apply State.dropSegments_keeps
    | with_reducible apply State.setWb_keeps
    | with_reducible apply State.allocPacket_keeps
    | split
    | with_reducible refine Keeps.of_some (by assumption) ?_

theorem State.endCtx_keeps {s0 : State} (s : State) (n : Nat) (result : Nat) (k : Nat) (h : Keeps s0 s) :
    Keeps s0 (State.endCtx s n result k) := by
  unfold State.endCtx
  repeat' first
    | with_reducible assumption
    | (extract_lets +onlyGivenNames x; have hx : Keeps s0 (by with_reducible apply x) := ?_; clear_value x; revert x; intro _ _; rotate_left; subst x)
    | with_reducible apply State.ctxToRec_keeps
    | with_reducible apply State.settleRec_keeps
    | with_reducible apply State.evt_keeps
    | with_reducible apply State.bumpSat_keeps
    | simp -zeta only [Keeps.mk_iff]
    | split

theorem State.endCtxs_keeps {s0 : State} (s : State) (n : Nat) (result : Nat) (h : Keeps s0 s) :
    Keeps s0 (State.endCtxs s n result) := by
  unfold State.endCtxs
  repeat' first
    | with_reducible assumption
    | intro _
    | with_reducible apply State.endCtx_keeps
    | with_reducible apply Keeps.foldl

theorem State.fenceCtxs_keeps {s0 : State} (s : State) (n : Nat) (h : Keeps s0 s) :
    Keeps s0 (State.fenceCtxs s n) := by
  unfold State.fenceCtxs
  repeat' first
    | with_reducible assumption
    | intro _
    | (extract_lets +onlyGivenNames x; have hx : Keeps s0 (by with_reducible apply x) := ?_; clear_value x; revert x; intro _ _; rotate_left; subst x)
    | with_reducible apply State.releaseCtx_keeps
    | with_reducible apply State.setWb_keeps
    | with_reducible apply State.ledFence_keeps
    | with_reducible apply State.evt_keeps
    | with_reducible apply State.bumpSat_keeps
    | with_reducible apply Keeps.foldl
    | split

theorem State.staleMarks_keeps {s0 : State} (s : State) (n : Nat) (p : Mark → Bool) (h : Keeps s0 s) :
    Keeps s0 (State.staleMarks s n p) := by
  unfold State.staleMarks
  repeat' first
    | with_reducible assumption
    | intro _
    | (extract_lets +onlyGivenNames x; have hx : Keeps s0 (by with_reducible apply x) := ?_; clear_value x; revert x; intro _ _; rotate_left; subst x)
    | (extract_lets +onlyGivenNames x; clear_value x; revert x; intro _)
    | with_reducible apply Keeps.ite
    | with_reducible apply State.setCtx_keeps
    | with_reducible apply State.setWb_keeps
    | with_reducible apply State.evt_keeps
    | with_reducible apply State.bumpSat_keeps
    | with_reducible apply Keeps.foldl

theorem State.wbRetune_keeps {s0 : State} (s : State) (n : Nat) (h : Keeps s0 s) :
    Keeps s0 (State.wbRetune s n) := by
  unfold State.wbRetune
  repeat' first
    | with_reducible assumption
    | with_reducible apply State.staleMarks_keeps
    | with_reducible apply State.endCtxs_keeps
    | with_reducible apply State.setWb_keeps

theorem State.pushSnr_keeps {s0 : State} (s : State) (r : List W32) (h : Keeps s0 s) :
    Keeps s0 (State.pushSnr s r) := by
  unfold State.pushSnr
  repeat' first
    | with_reducible assumption
    | (extract_lets +onlyGivenNames x; clear_value x; revert x; intro _)
    | with_reducible apply Keeps.ite
    | with_reducible apply State.evt_keeps
    | with_reducible apply State.bumpSat_keeps
    | simp -zeta only [Keeps.mk_iff]

end Sys2Proof.Machine
end

