-- ==== Sys2Proof/Laws/KeepsWideband.lean ====
section
/-! SUPPORT. The operations of Machine/Wideband.lean break nothing (`Keeps`). -/

set_option linter.unusedSimpArgs false

namespace Sys2Proof.Machine

theorem State.setChain_keeps {s0 : State} (s : State) (n : Nat) (f : ChainSt → ChainSt) (h : Keeps s0 s) :
    Keeps s0 (State.setChain s n f) := by
  unfold State.setChain
  repeat' first
    | with_reducible assumption
    | simp -zeta only [Keeps.mk_iff]

theorem State.captureBlock_keeps {s0 : State} (s : State) (n : Nat) (b : RingBlock) (h : Keeps s0 s) :
    Keeps s0 (State.captureBlock s n b) := by
  unfold State.captureBlock
  repeat' first
    | with_reducible assumption
    | (extract_lets +onlyGivenNames x; have hx : Keeps s0 (by with_reducible apply x) := ?_; clear_value x; revert x; intro _ _; rotate_left; subst x)
    | (extract_lets +onlyGivenNames x; clear_value x; revert x; intro _)
    | with_reducible apply Keeps.ite
    | with_reducible apply State.setWb_keeps
    | with_reducible apply State.dramWrite_keeps
    | split

theorem State.startCapture_keeps {s0 : State} (s : State) (n : Nat) (fromNs : Nat) (us : Nat) (byCommand : Bool) (h : Keeps s0 s) :
    Keeps s0 (State.startCapture s n fromNs us byCommand) := by
  unfold State.startCapture
  repeat' first
    | with_reducible assumption
    | intro _
    | (extract_lets +onlyGivenNames x; have hx : Keeps s0 (by with_reducible apply x) := ?_; clear_value x; revert x; intro _ _; rotate_left; subst x)
    | (extract_lets +onlyGivenNames x; clear_value x; revert x; intro _)
    | with_reducible apply State.captureBlock_keeps
    | with_reducible apply State.setWb_keeps
    | with_reducible apply State.put_keeps
    | with_reducible apply Keeps.foldl

theorem State.captureTrigger_keeps {s0 : State} (s : State) (n : Nat) (fireNs : Nat) (us : Nat) (h : Keeps s0 s) :
    Keeps s0 (State.captureTrigger s n fireNs us) := by
  unfold State.captureTrigger
  repeat' first
    | with_reducible assumption
    | with_reducible apply Keeps.ite
    | with_reducible apply State.startCapture_keeps
    | with_reducible apply State.evt_keeps
    | with_reducible apply State.bumpSat_keeps

theorem execFeGainLoopBlock_keeps {s0 : State} (n : Fin 4) (blk : SampleBlock) (s : State) (h : Keeps s0 s) :
    KeepsA s0 (execFeGainLoopBlock n blk s) := by
  unfold execFeGainLoopBlock
  repeat' first
    | with_reducible assumption
    | intro _
    | (extract_lets +onlyGivenNames x; have hx : Keeps s0 (by with_reducible apply x) := ?_; clear_value x; revert x; intro _ _; rotate_left; subst x)
    | (extract_lets +onlyGivenNames x; clear_value x; revert x; intro _)
    | with_reducible apply KeepsA.next
    | with_reducible apply KeepsA.ite
    | with_reducible apply Keeps.ite
    | with_reducible apply State.captureBlock_keeps
    | with_reducible apply State.setCtx_keeps
    | with_reducible apply State.setWb_keeps
    | with_reducible apply State.passBfifo_keeps
    | with_reducible apply State.evtIf_keeps
    | with_reducible apply State.evt_keeps
    | with_reducible apply State.bumpSat_keeps
    | with_reducible apply State.bump_keeps
    | with_reducible apply State.put_keeps
    | with_reducible apply Keeps.foldl

theorem execPreambleDetect_keeps {s0 : State} (n : Fin 4) (a : Fin 32) (t : Fin 9) (d : Detection) (s : State) (h : Keeps s0 s) :
    KeepsA s0 (execPreambleDetect n a t d s) := by
  unfold execPreambleDetect
  repeat' first
    | with_reducible assumption
    | (extract_lets +onlyGivenNames x; have hx : Keeps s0 (by with_reducible apply x) := ?_; clear_value x; revert x; intro _ _; rotate_left; subst x)
    | (extract_lets +onlyGivenNames x; clear_value x; revert x; intro _)
    | with_reducible apply KeepsA.next
    | with_reducible apply KeepsA.ite
    | with_reducible apply State.dropSegments_keeps
    | with_reducible apply State.setCtx_keeps
    | with_reducible apply State.setWb_keeps
    | with_reducible apply State.sink_keeps
    | with_reducible apply State.ledDrop_keeps
    | with_reducible apply State.ledIn_keeps
    | with_reducible apply State.evt_keeps
    | with_reducible apply State.bumpSat_keeps
    | with_reducible apply State.put_keeps
    | split

theorem execAntennaSelect_keeps {s0 : State} (n : Fin 4) (k : Fin 32) (w0 : List Nat) (w1 : List Nat) (s : State) (h : Keeps s0 s) :
    KeepsA s0 (execAntennaSelect n k w0 w1 s) := by
  unfold execAntennaSelect
  repeat' first
    | with_reducible assumption
    | (extract_lets +onlyGivenNames x; clear_value x; revert x; intro _)
    | with_reducible apply KeepsA.next
    | with_reducible apply KeepsA.ite
    | with_reducible apply State.setCtx_keeps
    | split

theorem execPhrDecoded_keeps {s0 : State} (n : Fin 4) (k : Fin 32) (h0 : PhyHeader) (s : State) (h : Keeps s0 s) :
    KeepsA s0 (execPhrDecoded n k h0 s) := by
  unfold execPhrDecoded
  repeat' first
    | with_reducible assumption
    | (extract_lets +onlyGivenNames x; have hx : Keeps s0 (by with_reducible apply x) := ?_; clear_value x; revert x; intro _ _; rotate_left; subst x)
    | (extract_lets +onlyGivenNames x; clear_value x; revert x; intro _)
    | with_reducible apply KeepsA.next
    | with_reducible apply KeepsA.ite
    | with_reducible apply Keeps.ite
    | with_reducible apply State.falseCtx_keeps
    | with_reducible apply State.setCtx_keeps
    | with_reducible apply State.bumpSat_keeps
    | split

theorem execHeaderLimitExpired_keeps {s0 : State} (n : Fin 4) (k : Fin 32) (coded : Bool) (s : State) (h : Keeps s0 s) :
    KeepsA s0 (execHeaderLimitExpired n k coded s) := by
  unfold execHeaderLimitExpired
  repeat' first
    | with_reducible assumption
    | with_reducible apply KeepsA.next
    | with_reducible apply KeepsA.ite
    | with_reducible apply State.endCtx_keeps
    | with_reducible apply State.falseCtx_keeps
    | split

theorem execMapBlockDecoded_keeps {s0 : State} (n : Fin 4) (k : Fin 32) (bits : List Bool) (s : State) (h : Keeps s0 s) :
    KeepsA s0 (execMapBlockDecoded n k bits s) := by
  unfold execMapBlockDecoded
  repeat' first
    | with_reducible assumption
    | (extract_lets +onlyGivenNames x; have hx : Keeps s0 (by with_reducible apply x) := ?_; clear_value x; revert x; intro _ _; rotate_left; subst x)
    | with_reducible apply KeepsA.next
    | with_reducible apply KeepsA.ite
    | with_reducible apply State.ctxToRec_keeps
    | with_reducible apply State.settleRec_keeps
    | with_reducible apply State.setCtx_keeps
    | with_reducible apply State.evt_keeps
    | with_reducible apply State.bumpSat_keeps
    | simp -zeta only [Keeps.mk_iff]
    | split

theorem execMarkStale_keeps {s0 : State} (n : Fin 4) (id : BitVec 16) (s : State) (h : Keeps s0 s) :
    KeepsA s0 (execMarkStale n id s) := by
  unfold execMarkStale
  repeat' first
    | with_reducible assumption
    | with_reducible apply KeepsA.next
    | with_reducible apply KeepsA.ite
    | with_reducible apply State.staleMarks_keeps

theorem execRecordDeliver_keeps {s0 : State} (n : Fin 4) (r : Nat) (s : State) (h : Keeps s0 s) :
    KeepsA s0 (execRecordDeliver n r s) := by
  unfold execRecordDeliver
  repeat' first
    | with_reducible assumption
    | (extract_lets +onlyGivenNames x; have hx : Keeps s0 (by with_reducible apply x) := ?_; clear_value x; revert x; intro _ _; rotate_left; subst x)
    | (extract_lets +onlyGivenNames x; have hx : KeepsO s0 (by with_reducible apply x) := ?_; clear_value x; revert x; intro _ _; rotate_left; subst x)
    | (extract_lets +onlyGivenNames x; clear_value x; revert x; intro _)
    | with_reducible apply KeepsA.next
    | with_reducible apply KeepsA.ite
    | with_reducible apply KeepsO.some
    | with_reducible apply KeepsO.ite
    | with_reducible apply State.setRec_keeps
    | with_reducible apply State.setWb_keeps
    | with_reducible apply State.offerHost_keeps
    | with_reducible apply State.freeCells_keeps
    | with_reducible apply State.allocPacket_keeps
    | with_reducible apply State.fillCells_keeps
    | with_reducible apply State.ledDrop_keeps
    | with_reducible apply State.ledOut_keeps
    | split
    | with_reducible refine Keeps.of_pair (by assumption) ?_
    | with_reducible exact Keeps.of_someO (by assumption)

theorem execRecTimeout_keeps {s0 : State} (n : Fin 4) (r : Nat) (s : State) (h : Keeps s0 s) :
    KeepsA s0 (execRecTimeout n r s) := by
  unfold execRecTimeout
  repeat' first
    | with_reducible assumption
    | with_reducible apply KeepsA.next
    | with_reducible apply KeepsA.ite
    | with_reducible apply State.dropRec_keeps
    | with_reducible apply State.evt_keeps
    | with_reducible apply State.bumpSat_keeps
    | split

theorem execReplay_keeps {s0 : State} (xm : Master) (n : Fin 4) (tag : BitVec 8) (s : State) (h : Keeps s0 s) :
    KeepsA s0 (execReplay xm n tag s) := by
  unfold execReplay
  repeat' first
    | with_reducible assumption
    | intro _
    | (extract_lets +onlyGivenNames x; have hx : Keeps s0 (by with_reducible apply x) := ?_; clear_value x; revert x; intro _ _; rotate_left; subst x)
    | (extract_lets +onlyGivenNames x; clear_value x; revert x; intro _)
    | with_reducible apply KeepsA.next
    | with_reducible apply Keeps.ite
    | with_reducible apply State.setCtx_keeps
    | with_reducible apply State.onCommand_keeps
    | with_reducible apply State.done_keeps
    | with_reducible apply State.complete_keeps
    | with_reducible apply State.ledIn_keeps
    | split

theorem execCapture_keeps {s0 : State} (m : Master) (n : Fin 4) (tag : BitVec 8) (s : State) (h : Keeps s0 s) :
    KeepsA s0 (execCapture m n tag s) := by
  unfold execCapture
  repeat' first
    | with_reducible assumption
    | intro _
    | (extract_lets +onlyGivenNames x; clear_value x; revert x; intro _)
    | with_reducible apply KeepsA.next
    | with_reducible apply Keeps.ite
    | with_reducible apply State.startCapture_keeps
    | with_reducible apply State.onCommand_keeps
    | with_reducible apply State.startRun_keeps
    | with_reducible apply State.done_keeps

theorem execCaptureDone_keeps {s0 : State} (n : Fin 4) (s : State) (h : Keeps s0 s) :
    KeepsA s0 (execCaptureDone n s) := by
  unfold execCaptureDone
  repeat' first
    | with_reducible assumption
    | (extract_lets +onlyGivenNames x; have hx : Keeps s0 (by with_reducible apply x) := ?_; clear_value x; revert x; intro _ _; rotate_left; subst x)
    | with_reducible apply KeepsA.next
    | with_reducible apply KeepsA.ite
    | with_reducible apply Keeps.ite
    | with_reducible apply State.setWb_keeps
    | with_reducible apply State.done_keeps
    | with_reducible apply State.evt_keeps
    | with_reducible apply State.put_keeps
    | split

theorem execSlotPowerUpdate_keeps {s0 : State} (n : Fin 4) (p0 : List (BitVec 16)) (p1 : List (BitVec 16)) (s : State) (h : Keeps s0 s) :
    KeepsA s0 (execSlotPowerUpdate n p0 p1 s) := by
  unfold execSlotPowerUpdate
  repeat' first
    | with_reducible assumption
    | intro _
    | with_reducible apply KeepsA.next
    | with_reducible apply KeepsA.ite
    | with_reducible apply State.put_keeps
    | with_reducible apply Keeps.foldl

end Sys2Proof.Machine
end

