-- ==== Sys2Proof/Laws/KeepsPhy.lean ====
section
/-! SUPPORT. The operations of Machine/Phy.lean break nothing (`Keeps`). -/

set_option linter.unusedSimpArgs false

namespace Sys2Proof.Machine

theorem execSegmentSubmit_keeps {s0 : State} (n : Fin 4) (k : Fin 32) (llrs : List (BitVec 5)) (s : State) (h : Keeps s0 s) :
    KeepsA s0 (execSegmentSubmit n k llrs s) := by
  unfold execSegmentSubmit
  repeat' first
    | with_reducible assumption
    | (extract_lets +onlyGivenNames x; have hx : Keeps s0 (by with_reducible apply x) := ?_; clear_value x; revert x; intro _ _; rotate_left; subst x)
    | (extract_lets +onlyGivenNames x; clear_value x; revert x; intro _)
    | with_reducible apply KeepsA.next
    | with_reducible apply KeepsA.ite
    | with_reducible apply State.setPool_keeps
    | with_reducible apply State.sink_keeps
    | with_reducible apply State.ledIn_keeps
    | with_reducible apply State.put_keeps
    | simp -zeta only [Keeps.mk_iff]
    | split

theorem execSegmentDecoded_keeps {s0 : State} (n : Fin 4) (k : Fin 32) (s : State) (h : Keeps s0 s) :
    KeepsA s0 (execSegmentDecoded n k s) := by
  unfold execSegmentDecoded
  repeat' first
    | with_reducible assumption
    | (extract_lets +onlyGivenNames x; have hx : Keeps s0 (by with_reducible apply x) := ?_; clear_value x; revert x; intro _ _; rotate_left; subst x)
    | (extract_lets +onlyGivenNames x; clear_value x; revert x; intro _)
    | with_reducible apply KeepsA.next
    | with_reducible apply State.setPool_keeps
    | with_reducible apply State.setCtx_keeps
    | with_reducible apply State.ledOut_keeps
    | simp -zeta only [Keeps.mk_iff]
    | split

theorem execMapCheck_keeps {s0 : State} (xm : Master) (tag : BitVec 8) (s : State) (h : Keeps s0 s) :
    KeepsA s0 (execMapCheck xm tag s) := by
  unfold execMapCheck
  repeat' first
    | with_reducible assumption
    | intro _
    | (extract_lets +onlyGivenNames x; clear_value x; revert x; intro _)
    | with_reducible apply KeepsA.next
    | with_reducible apply Keeps.ite
    | with_reducible apply State.onCommand_keeps
    | with_reducible apply State.done_keeps
    | with_reducible apply State.complete_keeps

theorem State.onBus_keeps {s0 : State} (s : State) (v : W32) (h : Keeps s0 s) :
    Keeps s0 (State.onBus s v) := by
  unfold State.onBus
  repeat' first
    | with_reducible assumption
    | simp -zeta only [Keeps.mk_iff]

theorem execPhySnrPop_keeps {s0 : State} (m : Master) (s : State) (h : Keeps s0 s) :
    KeepsA s0 (execPhySnrPop m s) := by
  unfold execPhySnrPop
  repeat' first
    | with_reducible assumption
    | intro _
    | (extract_lets +onlyGivenNames x; have hx : Keeps s0 (by with_reducible apply x) := ?_; clear_value x; revert x; intro _ _; rotate_left; subst x)
    | (extract_lets +onlyGivenNames x; clear_value x; revert x; intro _)
    | with_reducible apply KeepsA.next
    | with_reducible apply KeepsA.ite
    | with_reducible apply State.onBus_keeps
    | with_reducible apply State.setWord_keeps
    | with_reducible apply Keeps.foldl
    | simp -zeta only [Keeps.mk_iff]

end Sys2Proof.Machine
end

