-- ==== Sys2Proof/Laws/KeepsRegWrite.lean ====
section
/-! SUPPORT. The operations of Machine/RegWrite.lean break nothing (`Keeps`). -/

set_option linter.unusedSimpArgs false

namespace Sys2Proof.Machine

theorem State.refuse_keeps {s0 : State} (s : State) (b : Block) (o : Nat) (h : Keeps s0 s) :
    Keeps s0 (State.refuse s b o) := by
  unfold State.refuse
  repeat' first
    | with_reducible assumption
    | (extract_lets +onlyGivenNames x; have hx : Keeps s0 (by with_reducible apply x) := ?_; clear_value x; revert x; intro _ _; rotate_left; subst x)
    | with_reducible apply State.bumpSat_keeps
    | with_reducible apply State.put_keeps

theorem State.noteStaged_keeps {s0 : State} (s : State) (b : Block) (key : Nat) (old : W32) (h : Keeps s0 s) :
    Keeps s0 (State.noteStaged s b key old) := by
  unfold State.noteStaged
  repeat' first
    | with_reducible assumption
    | intro _
    | (extract_lets +onlyGivenNames x; have hx : Keeps s0 (by with_reducible apply x) := ?_; clear_value x; revert x; intro _ _; rotate_left; subst x)
    | with_reducible apply Keeps.ite
    | with_reducible apply State.setBlk_keeps
    | with_reducible apply State.put_keeps
    | simp -zeta only [Keeps.mk_iff]

theorem State.busWrite_keeps {s0 : State} (s : State) (m : Master) (a : Nat) (full : Bool) (v : W32) (h : Keeps s0 s) :
    Keeps s0 (State.busWrite s m a full v).1 := by
  unfold State.busWrite
  repeat' first
    | with_reducible assumption
    | (extract_lets +onlyGivenNames x; have hx : Keeps s0 (by with_reducible apply x) := ?_; clear_value x; revert x; intro _ _; rotate_left; subst x)
    | (extract_lets +onlyGivenNames x; clear_value x; revert x; intro _)
    | with_reducible apply Keeps.ite
    | with_reducible apply State.noteStaged_keeps
    | with_reducible apply State.refuse_keeps
    | with_reducible apply State.offWrite_keeps
    | with_reducible apply State.setWord_keeps
    | simp -zeta only [Keeps.mk_iff]
    | split

end Sys2Proof.Machine
end

