-- ==== Sys2Proof/Laws/KeepsStarterOps.lean ====
section
/-! SUPPORT. The operations of Machine/StarterOps.lean break nothing (`Keeps`). -/

set_option linter.unusedSimpArgs false

namespace Sys2Proof.Machine

@[simp] theorem StarterSt.commitUpdate_lc (t : StarterSt) (n : Nat) (k : Option KeySlot) : (t.commitUpdate n k).lc = t.lc := rfl
@[simp] theorem StarterSt.commitUpdate_off (t : StarterSt) (n : Nat) (k : Option KeySlot) : (t.commitUpdate n k).legacyOff = t.legacyOff := rfl
@[simp] theorem StarterSt.beginUpdate_lc (t : StarterSt) (n : Nat) : (t.beginUpdate n).lc = t.lc := rfl
@[simp] theorem StarterSt.beginUpdate_off (t : StarterSt) (n : Nat) : (t.beginUpdate n).legacyOff = t.legacyOff := rfl
@[simp] theorem StarterSt.storeNow_lc (t : StarterSt) (n : Nat) (k : Option KeySlot) : (t.storeNow n k).lc = t.lc := by
  unfold StarterSt.storeNow; split <;> rfl
@[simp] theorem StarterSt.storeNow_off (t : StarterSt) (n : Nat) (k : Option KeySlot) : (t.storeNow n k).legacyOff = t.legacyOff := by
  unfold StarterSt.storeNow; split <;> rfl
@[simp] theorem StarterSt.commitAll_lc (t : StarterSt) (l : List (Nat × Option KeySlot)) :
    (l.foldl (fun t u => t.commitUpdate u.1 u.2) t).lc = t.lc := by
  induction l generalizing t with
  | nil => rfl
  | cons u r ih => exact ih _
@[simp] theorem StarterSt.commitAll_off (t : StarterSt) (l : List (Nat × Option KeySlot)) :
    (l.foldl (fun t u => t.commitUpdate u.1 u.2) t).legacyOff = t.legacyOff := by
  induction l generalizing t with
  | nil => rfl
  | cons u r ih => exact ih _

theorem State.setStarter_keeps {s0 : State} (s : State) (f : StarterSt → StarterSt) (h : Keeps s0 s) (hg : ∀ x, (f x).legacyOff = x.legacyOff) (hl : ∀ x, (f x).lc = x.lc) :
    Keeps s0 (State.setStarter s f) := Keeps.of_eq h rfl rfl rfl rfl rfl (hg _) (hl _)

theorem State.useSlot_keeps {s0 : State} (s : State) (slot : Nat) (use : Nat) (owner : Nat) (h : Keeps s0 s) :
    Keeps s0 (State.useSlot s slot use owner).1 := by
  unfold State.useSlot
  repeat' first
    | with_reducible assumption
    | intro _
    | (extract_lets +onlyGivenNames x; clear_value x; revert x; intro _)
    | with_reducible apply State.setStarter_keeps
    | with_reducible apply State.evtIf_keeps
    | split
    | simp only [StarterSt.storeNow_lc, StarterSt.storeNow_off, StarterSt.commitUpdate_lc, StarterSt.commitUpdate_off, StarterSt.beginUpdate_lc, StarterSt.beginUpdate_off, StarterSt.commitAll_lc, StarterSt.commitAll_off]

theorem State.endKeyOp_keeps {s0 : State} (s : State) (c : Code) (res1 : Nat) (out : List Nat) (item : Option Nat) (h : Keeps s0 s) :
    Keeps s0 (State.endKeyOp s c res1 out item) := by
  unfold State.endKeyOp
  repeat' first
    | with_reducible assumption
    | intro _
    | (extract_lets +onlyGivenNames x; have hx : Keeps s0 (by with_reducible apply x) := ?_; clear_value x; revert x; intro _ _; rotate_left; subst x)
    | (extract_lets +onlyGivenNames x; clear_value x; revert x; intro _)
    | with_reducible apply Keeps.ite
    | with_reducible apply State.setStarter_keeps
    | with_reducible apply State.finishItem_keeps
    | with_reducible apply State.complete_keeps
    | with_reducible apply State.ledFence_keeps
    | with_reducible apply State.ledDrop_keeps
    | with_reducible apply State.ledOut_keeps
    | with_reducible apply State.evtIf_keeps
    | simp -zeta only [Keeps.mk_iff]
    | split

theorem State.finishKeyOp_keeps {s0 : State} (s : State) (o : KeyOp) (h : Keeps s0 s) :
    Keeps s0 (State.finishKeyOp s o) := by
  unfold State.finishKeyOp
  repeat' first
    | with_reducible assumption
    | intro _
    | (extract_lets +onlyGivenNames x; have hx : Keeps s0 (by with_reducible apply x) := ?_; clear_value x; revert x; intro _ _; rotate_left; subst x)
    | (extract_lets +onlyGivenNames x; have hx : StarterSt := (by with_reducible apply x); clear hx; subst x)
    | with_reducible apply State.endKeyOp_keeps
    | with_reducible apply State.setStarter_keeps
    | simp -zeta only [Keeps.mk_iff]
    | split
    | simp only [StarterSt.storeNow_lc, StarterSt.storeNow_off, StarterSt.commitUpdate_lc, StarterSt.commitUpdate_off, StarterSt.beginUpdate_lc, StarterSt.beginUpdate_off, StarterSt.commitAll_lc, StarterSt.commitAll_off]

theorem State.startKeyOp_keeps {s0 : State} (s : State) (o : KeyOp) (h : Keeps s0 s) :
    Keeps s0 (State.startKeyOp s o) := by
  unfold State.startKeyOp
  repeat' first
    | with_reducible assumption
    | intro _
    | (extract_lets +onlyGivenNames x; have hx : StarterSt := (by with_reducible apply x); clear hx; subst x)
    | with_reducible apply State.finishKeyOp_keeps
    | with_reducible apply State.setStarter_keeps
    | simp -zeta only [Keeps.mk_iff]
    | split
    | simp only [StarterSt.storeNow_lc, StarterSt.storeNow_off, StarterSt.commitUpdate_lc, StarterSt.commitUpdate_off, StarterSt.beginUpdate_lc, StarterSt.beginUpdate_off, StarterSt.commitAll_lc, StarterSt.commitAll_off]

theorem State.dropKeyOp_keeps {s0 : State} (s : State) (c : Code) (h : Keeps s0 s) :
    Keeps s0 (State.dropKeyOp s c) := by
  unfold State.dropKeyOp
  repeat' first
    | with_reducible assumption
    | intro _
    | with_reducible apply State.endKeyOp_keeps
    | with_reducible apply State.setStarter_keeps
    | simp -zeta only [Keeps.mk_iff]
    | split

theorem State.onStarter_keeps {s0 : State} (s : State) (m : Master) (tag : BitVec 8) (op : Nat) (exempt : Bool) (body : State → State) (h : Keeps s0 s) (h_body : ∀ x, Keeps s0 x → Keeps s0 (body x)) :
    Keeps s0 (State.onStarter s m tag op exempt body) := by
  unfold State.onStarter
  repeat' first
    | with_reducible assumption
    | intro _
    | (extract_lets +onlyGivenNames x; have hx : Keeps s0 (by with_reducible apply x) := ?_; clear_value x; revert x; intro _ _; rotate_left; subst x)
    | with_reducible apply Keeps.ite
    | with_reducible apply State.endKeyOp_keeps
    | with_reducible apply State.onCommand_keeps
    | with_reducible apply State.startRun_keeps
    | with_reducible apply State.ledIn_keeps
    | with_reducible apply h_body

theorem State.inlineKey_keeps {s0 : State} (s : State) (eui : Nat) (epoch : Nat) (purpose : Nat) (h : Keeps s0 s) :
    Keeps s0 (State.inlineKey s eui epoch purpose).1 := by
  unfold State.inlineKey
  repeat' first
    | with_reducible assumption
    | intro _
    | (extract_lets +onlyGivenNames x; have hx : Keeps s0 (by with_reducible apply x) := ?_; clear_value x; revert x; intro _ _; rotate_left; subst x)
    | (extract_lets +onlyGivenNames x; clear_value x; revert x; intro _)
    | with_reducible apply Keeps.ite
    | with_reducible apply State.setStarter_keeps
    | with_reducible apply State.sink_keeps
    | with_reducible apply State.ledDrop_keeps
    | with_reducible apply State.ledOut_keeps
    | with_reducible apply State.ledIn_keeps
    | with_reducible apply State.evtIf_keeps
    | with_reducible apply State.bump_keeps
    | simp -zeta only [Keeps.mk_iff]
    | split
    | simp only [StarterSt.storeNow_lc, StarterSt.storeNow_off, StarterSt.commitUpdate_lc, StarterSt.commitUpdate_off, StarterSt.beginUpdate_lc, StarterSt.beginUpdate_off, StarterSt.commitAll_lc, StarterSt.commitAll_off]

end Sys2Proof.Machine
end

