-- ==== Sys2Proof/Laws/KeepsRadioOps.lean ====
section
/-! SUPPORT. The operations of Machine/RadioOps.lean break nothing (`Keeps`). -/

set_option linter.unusedSimpArgs false

namespace Sys2Proof.Machine

theorem State.beginSettle_keeps {s0 : State} (s : State) (n : Nat) (why : Settle) (khz : Nat) (h : Keeps s0 s) :
    Keeps s0 (State.beginSettle s n why khz) := by
  unfold State.beginSettle
  repeat' first
    | with_reducible assumption
    | (extract_lets +onlyGivenNames x; have hx : Keeps s0 (by with_reducible apply x) := ?_; clear_value x; revert x; intro _ _; rotate_left; subst x)
    | with_reducible apply Keeps.ite
    | with_reducible apply State.setChain_keeps
    | with_reducible apply State.wbRetune_keeps
    | with_reducible apply State.put_keeps

theorem State.chainStart_keeps {s0 : State} (s : State) (n : Nat) (h : Keeps s0 s) :
    Keeps s0 (State.chainStart s n) := by
  unfold State.chainStart
  repeat' first
    | with_reducible assumption
    | with_reducible apply Keeps.ite
    | with_reducible apply State.beginSettle_keeps

theorem State.setJob_keeps {s0 : State} (s : State) (n : Nat) (id : Nat) (f : ChainJob → ChainJob) (h : Keeps s0 s) :
    Keeps s0 (State.setJob s n id f) := by
  unfold State.setJob
  repeat' first
    | with_reducible assumption
    | with_reducible apply State.setChain_keeps

theorem State.tuneBack_keeps {s0 : State} (s : State) (n : Nat) (h : Keeps s0 s) :
    Keeps s0 (State.tuneBack s n) := by
  unfold State.tuneBack
  repeat' first
    | with_reducible assumption
    | (extract_lets +onlyGivenNames x; clear_value x; revert x; intro _)
    | with_reducible apply Keeps.ite
    | with_reducible apply State.beginSettle_keeps

theorem State.returnJob_keeps {s0 : State} (s : State) (n : Nat) (id : Nat) (c : Code) (h : Keeps s0 s) :
    Keeps s0 (State.returnJob s n id c) := by
  unfold State.returnJob
  repeat' first
    | with_reducible assumption
    | (extract_lets +onlyGivenNames x; have hx : Keeps s0 (by with_reducible apply x) := ?_; clear_value x; revert x; intro _ _; rotate_left; subst x)
    | (extract_lets +onlyGivenNames x; clear_value x; revert x; intro _)
    | with_reducible apply Keeps.ite
    | with_reducible apply State.tuneBack_keeps
    | with_reducible apply State.setChain_keeps
    | with_reducible apply State.refund_keeps
    | with_reducible apply State.ledDrop_keeps
    | with_reducible apply State.ledOut_keeps
    | with_reducible apply State.evt_keeps
    | with_reducible apply State.bumpSat_keeps
    | split

theorem State.forbidJob_keeps {s0 : State} (s : State) (n : Nat) (id : Nat) (h : Keeps s0 s) :
    Keeps s0 (State.forbidJob s n id) := by
  unfold State.forbidJob
  repeat' first
    | with_reducible assumption
    | with_reducible apply State.returnJob_keeps
    | with_reducible apply State.evt_keeps
    | with_reducible apply State.bumpSat_keeps

theorem State.calsDone_keeps {s0 : State} (s : State) (n : Nat) (ks : List Nat) (h : Keeps s0 s) :
    Keeps s0 (State.calsDone s n ks) := by
  unfold State.calsDone
  repeat' first
    | with_reducible assumption
    | intro _
    | (extract_lets +onlyGivenNames x; have hx : Keeps s0 (by with_reducible apply x) := ?_; clear_value x; revert x; intro _ _; rotate_left; subst x)
    | with_reducible apply State.setChain_keeps
    | with_reducible apply State.put_keeps
    | with_reducible apply Keeps.foldl

theorem State.startCal_keeps {s0 : State} (s : State) (n : Nat) (ks : List Nat) (prot : Bool) (byCommand : Bool) (h : Keeps s0 s) :
    Keeps s0 (State.startCal s n ks prot byCommand) := by
  unfold State.startCal
  repeat' first
    | with_reducible assumption
    | (extract_lets +onlyGivenNames x; have hx : Keeps s0 (by with_reducible apply x) := ?_; clear_value x; revert x; intro _ _; rotate_left; subst x)
    | (extract_lets +onlyGivenNames x; clear_value x; revert x; intro _)
    | with_reducible apply State.setChain_keeps
    | with_reducible apply State.endCtxs_keeps
    | with_reducible apply State.evtIf_keeps
    | with_reducible apply State.put_keeps

theorem State.endCalRun_keeps {s0 : State} (s : State) (n : Nat) (c : Code) (h : Keeps s0 s) :
    Keeps s0 (State.endCalRun s n c) := by
  unfold State.endCalRun
  repeat' first
    | with_reducible assumption
    | with_reducible apply Keeps.ite
    | with_reducible apply State.done_keeps

theorem State.abortCal_keeps {s0 : State} (s : State) (n : Nat) (c : CalRun) (p : Nat × Nat × List Nat) (command : Bool) (h : Keeps s0 s) :
    Keeps s0 (State.abortCal s n c p command) := by
  unfold State.abortCal
  repeat' first
    | with_reducible assumption
    | intro _
    | (extract_lets +onlyGivenNames x; have hx : Keeps s0 (by with_reducible apply x) := ?_; clear_value x; revert x; intro _ _; rotate_left; subst x)
    | (extract_lets +onlyGivenNames x; clear_value x; revert x; intro _)
    | with_reducible apply Keeps.ite
    | with_reducible apply State.endCalRun_keeps
    | with_reducible apply State.calsDone_keeps
    | with_reducible apply State.setChain_keeps
    | with_reducible apply State.evt_keeps
    | with_reducible apply State.advanceTo_keeps
    | with_reducible apply State.put_keeps
    | with_reducible apply Keeps.foldl

theorem State.enterRx_keeps {s0 : State} (s : State) (n : Nat) (h : Keeps s0 s) :
    Keeps s0 (State.enterRx s n) := by
  unfold State.enterRx
  repeat' first
    | with_reducible assumption
    | (extract_lets +onlyGivenNames x; have hx : Keeps s0 (by with_reducible apply x) := ?_; clear_value x; revert x; intro _ _; rotate_left; subst x)
    | with_reducible apply Keeps.ite
    | with_reducible apply State.beginSettle_keeps
    | with_reducible apply State.setChain_keeps
    | with_reducible apply State.done_keeps
    | with_reducible apply State.put_keeps

theorem State.toOff_keeps {s0 : State} (s : State) (n : Nat) (reset : Bool) (h : Keeps s0 s) :
    Keeps s0 (State.toOff s n reset) := by
  unfold State.toOff
  repeat' first
    | with_reducible assumption
    | intro _
    | (extract_lets +onlyGivenNames x; have hx : Keeps s0 (by with_reducible apply x) := ?_; clear_value x; revert x; intro _ _; rotate_left; subst x)
    | with_reducible apply Keeps.ite
    | with_reducible apply State.endCalRun_keeps
    | with_reducible apply State.returnJob_keeps
    | with_reducible apply State.setChain_keeps
    | with_reducible apply State.endCtxs_keeps
    | with_reducible apply State.done_keeps
    | with_reducible apply State.put_keeps
    | with_reducible apply Keeps.foldl

theorem State.frameCounter_keeps {s0 : State} (s : State) (it : Item) (waited : Bool) (h : Keeps s0 s) :
    Keeps s0 (State.frameCounter s it waited).1 := by
  unfold State.frameCounter
  repeat' first
    | with_reducible assumption
    | with_reducible apply State.takeBroadcast_keeps
    | with_reducible apply State.takeCounter_keeps
    | split

theorem State.blank_keeps {s0 : State} (s : State) (n : Nat) (h : Keeps s0 s) :
    Keeps s0 (State.blank s n) := by
  unfold State.blank
  repeat' first
    | with_reducible assumption
    | intro _
    | (extract_lets +onlyGivenNames x; have hx : Keeps s0 (by with_reducible apply x) := ?_; clear_value x; revert x; intro _ _; rotate_left; subst x)
    | with_reducible apply Keeps.ite
    | with_reducible apply State.setChain_keeps
    | with_reducible apply State.endCtxs_keeps
    | with_reducible apply Keeps.foldl

theorem State.enterRampUp_keeps {s0 : State} (s : State) (n : Nat) (j : ChainJob) (it : Item) (h : Keeps s0 s) :
    Keeps s0 (State.enterRampUp s n j it) := by
  unfold State.enterRampUp
  repeat' first
    | with_reducible assumption
    | (extract_lets +onlyGivenNames x; have hx : Keeps s0 (by with_reducible apply x) := ?_; clear_value x; revert x; intro _ _; rotate_left; subst x)
    | (extract_lets +onlyGivenNames x; clear_value x; revert x; intro _)
    | with_reducible apply Keeps.ite
    | with_reducible apply State.blank_keeps
    | with_reducible apply State.frameCounter_keeps
    | with_reducible apply State.returnJob_keeps
    | with_reducible apply State.setJob_keeps
    | with_reducible apply State.setChain_keeps
    | with_reducible apply State.evt_keeps
    | with_reducible apply State.advanceTo_keeps
    | with_reducible apply State.bumpSat_keeps
    | with_reducible apply State.put_keeps
    | simp -zeta only [Keeps.mk_iff]
    | split
    | with_reducible refine Keeps.of_pair (by assumption) ?_

theorem State.policyWait_keeps {s0 : State} (s : State) (n : Nat) (j : ChainJob) (h : Keeps s0 s) :
    Keeps s0 (State.policyWait s n j) := by
  unfold State.policyWait
  repeat' first
    | with_reducible assumption
    | with_reducible apply Keeps.ite
    | with_reducible apply State.setJob_keeps
    | with_reducible apply State.evt_keeps
    | with_reducible apply State.bumpSat_keeps

theorem State.releaseTrig_keeps {s0 : State} (s : State) (n : Nat) (h : Keeps s0 s) :
    Keeps s0 (State.releaseTrig s n) := by
  unfold State.releaseTrig
  repeat' first
    | with_reducible assumption
    | (extract_lets +onlyGivenNames x; clear_value x; revert x; intro _)
    | with_reducible apply State.setChain_keeps

theorem State.cutTx_keeps {s0 : State} (s : State) (n : Nat) (h : Keeps s0 s) :
    Keeps s0 (State.cutTx s n) := by
  unfold State.cutTx
  repeat' first
    | with_reducible assumption
    | with_reducible apply Keeps.ite
    | with_reducible apply State.setChain_keeps
    | with_reducible apply State.put_keeps

end Sys2Proof.Machine
end

