-- ==== Sys2Proof/Laws/KeepsMacOps.lean ====
section
/-! SUPPORT. The operations of Machine/MacOps.lean break nothing (`Keeps`). -/

set_option linter.unusedSimpArgs false

namespace Sys2Proof.Machine

theorem State.park_keeps {s0 : State} (s : State) (id : Nat) (it : Item) (e : NodeEntry) (after : Option Int) (h : Keeps s0 s) :
    Keeps s0 (State.park s id it e after) := by
  unfold State.park
  repeat' first
    | with_reducible assumption
    | (extract_lets +onlyGivenNames x; have hx : Keeps s0 (by with_reducible apply x) := ?_; clear_value x; revert x; intro _ _; rotate_left; subst x)
    | (extract_lets +onlyGivenNames x; clear_value x; revert x; intro _)
    | with_reducible apply State.setItem_keeps
    | with_reducible apply State.evtIf_keeps
    | simp -zeta only [Keeps.mk_iff]

theorem State.aimJob_keeps {s0 : State} (s : State) (id : Nat) (after : Option Int) (h : Keeps s0 s) :
    Keeps s0 (State.aimJob s id after) := by
  unfold State.aimJob
  repeat' first
    | with_reducible assumption
    | (extract_lets +onlyGivenNames x; have hx : Keeps s0 (by with_reducible apply x) := ?_; clear_value x; revert x; intro _ _; rotate_left; subst x)
    | (extract_lets +onlyGivenNames x; clear_value x; revert x; intro _)
    | with_reducible apply Keeps.ite
    | with_reducible apply State.park_keeps
    | with_reducible apply State.finishItem_keeps
    | with_reducible apply State.sink_keeps
    | with_reducible apply State.ledIn_keeps
    | simp -zeta only [Keeps.mk_iff]
    | split

theorem State.secure_keeps {s0 : State} (s : State) (h0 : Nat) (e : NodeEntry) (f : RxFrame) (policy : W32) (h : Keeps s0 s) :
    Keeps s0 (State.secure s h0 e f policy).1 := by
  unfold State.secure
  repeat' first
    | with_reducible assumption
    | (extract_lets +onlyGivenNames x; clear_value x; revert x; intro _)
    | with_reducible apply State.setNode_keeps
    | with_reducible apply State.evtIf_keeps
    | with_reducible apply State.evt_keeps
    | with_reducible apply State.bumpSat_keeps
    | split

theorem State.heard_keeps {s0 : State} (s : State) (h0 : Nat) (n : Nat) (r : WbRec) (f : RxFrame) (h : Keeps s0 s) :
    Keeps s0 (State.heard s h0 n r f) := by
  unfold State.heard
  repeat' first
    | with_reducible assumption
    | (extract_lets +onlyGivenNames x; clear_value x; revert x; intro _)
    | with_reducible apply State.draw_keeps
    | with_reducible apply State.setNode_keeps
    | split

theorem State.postAck_keeps {s0 : State} (s : State) (h0 : Nat) (n : Nat) (r : WbRec) (f : RxFrame) (h : Keeps s0 s) :
    Keeps s0 (State.postAck s h0 n r f) := by
  unfold State.postAck
  repeat' first
    | with_reducible assumption
    | with_reducible apply State.hwSend_keeps
    | with_reducible apply State.ledIn_keeps

end Sys2Proof.Machine
end

