-- ==== Sys2Proof/Laws/KeepsMac.lean ====
section
/-! SUPPORT. The operations of Machine/Mac.lean break nothing (`Keeps`). -/

set_option linter.unusedSimpArgs false

namespace Sys2Proof.Machine

theorem State.radioLookup_keeps {s0 : State} (s : State) (eui : BitVec 64) (moves : Nat) (h : Keeps s0 s) :
    Keeps s0 (State.radioLookup s eui moves).1 := by
  unfold State.radioLookup
  repeat' first
    | with_reducible assumption
    | with_reducible apply State.lookupEui_keeps
    | with_reducible apply State.sink_keeps
    | simp -zeta only [Keeps.mk_iff]
    | split

theorem execDirectoryLookup_keeps {s0 : State} (n : Fin 4) (k : Fin 32) (eui : BitVec 64) (moves : Nat) (s : State) (h : Keeps s0 s) :
    KeepsA s0 (execDirectoryLookup n k eui moves s) := by
  unfold execDirectoryLookup
  repeat' first
    | with_reducible assumption
    | with_reducible apply KeepsA.next
    | with_reducible apply KeepsA.ite
    | with_reducible apply State.radioLookup_keeps
    | with_reducible apply State.setCtx_keeps
    | simp -zeta only [Keeps.mk_iff]
    | split

theorem State.fenceRec_keeps {s0 : State} (s : State) (n : Nat) (r : Nat) (h : Keeps s0 s) :
    Keeps s0 (State.fenceRec s n r) := by
  unfold State.fenceRec
  repeat' first
    | with_reducible assumption
    | with_reducible apply State.dropRec_keeps

theorem State.postTxn_keeps {s0 : State} (s : State) (n : Nat) (r : Nat) (h0 : Nat) (f : RxFrame) (h : Keeps s0 s) :
    Keeps s0 (State.postTxn s n r h0 f) := by
  unfold State.postTxn
  repeat' first
    | with_reducible assumption
    | (extract_lets +onlyGivenNames x; have hx : Keeps s0 (by with_reducible apply x) := ?_; clear_value x; revert x; intro _ _; rotate_left; subst x)
    | (extract_lets +onlyGivenNames x; clear_value x; revert x; intro _)
    | with_reducible apply Keeps.ite
    | with_reducible apply State.fenceRec_keeps
    | with_reducible apply State.setRec_keeps
    | with_reducible apply State.hwPost_keeps
    | with_reducible apply State.sink_keeps
    | simp -zeta only [Keeps.mk_iff]
    | split
    | with_reducible refine Keeps.of_pair (by assumption) ?_

theorem State.countKeyLate_keeps {s0 : State} (s : State) (n : Nat) (f : RxFrame) (h : Keeps s0 s) :
    Keeps s0 (State.countKeyLate s n f) := by
  unfold State.countKeyLate
  repeat' first
    | with_reducible assumption
    | with_reducible apply Keeps.ite
    | with_reducible apply State.evt_keeps
    | with_reducible apply State.bumpSat_keeps

theorem execReceptionComplete_keeps {s0 : State} (n : Fin 4) (k : Fin 32) (air : RxAir) (s : State) (h : Keeps s0 s) :
    KeepsA s0 (execReceptionComplete n k air s) := by
  unfold execReceptionComplete
  repeat' first
    | with_reducible assumption
    | (extract_lets +onlyGivenNames x; have hx : Keeps s0 (by with_reducible apply x) := ?_; clear_value x; revert x; intro _ _; rotate_left; subst x)
    | (extract_lets +onlyGivenNames x; clear_value x; revert x; intro _)
    | with_reducible apply KeepsA.next
    | with_reducible apply KeepsA.ite
    | with_reducible apply Keeps.ite
    | with_reducible apply State.countKeyLate_keeps
    | with_reducible apply State.postTxn_keeps
    | with_reducible apply State.radioLookup_keeps
    | with_reducible apply State.endCtx_keeps
    | with_reducible apply State.ctxToRec_keeps
    | with_reducible apply State.settleRec_keeps
    | with_reducible apply State.dropSegments_keeps
    | with_reducible apply State.setCtx_keeps
    | with_reducible apply State.bumpSat_keeps
    | simp -zeta only [Keeps.mk_iff]
    | split
    | with_reducible refine Keeps.of_pair (by assumption) ?_

theorem State.snrOf_keeps {s0 : State} (s : State) (n : Nat) (h0 : Nat) (r : WbRec) (f : RxFrame) (h : Keeps s0 s) :
    Keeps s0 (State.snrOf s n h0 r f) := by
  unfold State.snrOf
  repeat' first
    | with_reducible assumption
    | (extract_lets +onlyGivenNames x; clear_value x; revert x; intro _)
    | with_reducible apply Keeps.ite
    | with_reducible apply State.pushSnr_keeps

theorem State.endTxn_keeps {s0 : State} (s : State) (n : Nat) (r : Nat) (result : Nat) (known : Option (List Octet)) (h : Keeps s0 s) :
    Keeps s0 (State.endTxn s n r result known) := by
  unfold State.endTxn
  repeat' first
    | with_reducible assumption
    | with_reducible apply State.settleRec_keeps
    | with_reducible apply State.setRec_keeps
    | split

theorem execMacNodeTransaction_keeps {s0 : State} (n : Fin 4) (r : Nat) (s : State) (h : Keeps s0 s) :
    KeepsA s0 (execMacNodeTransaction n r s) := by
  unfold execMacNodeTransaction
  repeat' first
    | with_reducible assumption
    | intro _
    | (extract_lets +onlyGivenNames x; have hx : ∀ y y0, Keeps s0 y → Keeps s0 (by with_reducible exact x y y0) := ?_; clear_value x; revert x; intro _ hf1; rotate_left; subst x; dsimp -zeta only)
    | with_reducible apply hf1
    | (extract_lets +onlyGivenNames x; have hx : Keeps s0 (by with_reducible apply x) := ?_; clear_value x; revert x; intro _ _; rotate_left; subst x)
    | (extract_lets +onlyGivenNames x; clear_value x; revert x; intro _)
    | with_reducible apply KeepsA.next
    | with_reducible apply KeepsA.ite
    | with_reducible apply Keeps.ite
    | with_reducible apply State.endTxn_keeps
    | with_reducible apply State.snrOf_keeps
    | with_reducible apply State.fenceRec_keeps
    | with_reducible apply State.postAck_keeps
    | with_reducible apply State.heard_keeps
    | with_reducible apply State.secure_keeps
    | with_reducible apply State.finishItem_keeps
    | with_reducible apply State.sink_keeps
    | simp -zeta only [Keeps.mk_iff]
    | split
    | with_reducible refine Keeps.of_pair (by assumption) ?_

theorem execAimJob_keeps {s0 : State} (id : Nat) (s : State) (h : Keeps s0 s) :
    KeepsA s0 (execAimJob id s) := by
  unfold execAimJob
  repeat' first
    | with_reducible assumption
    | with_reducible apply KeepsA.next
    | with_reducible apply KeepsA.ite
    | with_reducible apply State.aimJob_keeps
    | split

theorem execAckWaitExpired_keeps {s0 : State} (id : Nat) (s : State) (h : Keeps s0 s) :
    KeepsA s0 (execAckWaitExpired id s) := by
  unfold execAckWaitExpired
  repeat' first
    | with_reducible assumption
    | (extract_lets +onlyGivenNames x; have hx : Keeps s0 (by with_reducible apply x) := ?_; clear_value x; revert x; intro _ _; rotate_left; subst x)
    | (extract_lets +onlyGivenNames x; clear_value x; revert x; intro _)
    | with_reducible apply KeepsA.next
    | with_reducible apply KeepsA.ite
    | with_reducible apply State.aimJob_keeps
    | with_reducible apply State.setNode_keeps
    | with_reducible apply State.finishItem_keeps
    | with_reducible apply State.evt_keeps
    | with_reducible apply State.advanceTo_keeps
    | with_reducible apply State.bumpSat_keeps
    | split

theorem State.countTrain_keeps {s0 : State} (s : State) (a : AimState) (h : Keeps s0 s) :
    Keeps s0 (State.countTrain s a) := by
  unfold State.countTrain
  repeat' first
    | with_reducible assumption
    | (extract_lets +onlyGivenNames x; have hx : Keeps s0 (by with_reducible apply x) := ?_; clear_value x; revert x; intro _ _; rotate_left; subst x)
    | with_reducible apply Keeps.ite
    | with_reducible apply State.bumpSat_keeps

theorem execJobReturn_keeps {s0 : State} (n : Fin 4) (s : State) (h : Keeps s0 s) :
    KeepsA s0 (execJobReturn n s) := by
  unfold execJobReturn
  repeat' first
    | with_reducible assumption
    | (extract_lets +onlyGivenNames x; have hx : Keeps s0 (by with_reducible apply x) := ?_; clear_value x; revert x; intro _ _; rotate_left; subst x)
    | (extract_lets +onlyGivenNames x; clear_value x; revert x; intro _)
    | with_reducible apply KeepsA.next
    | with_reducible apply KeepsA.ite
    | with_reducible apply State.countTrain_keeps
    | with_reducible apply State.aimJob_keeps
    | with_reducible apply State.setChain_keeps
    | with_reducible apply State.finishItem_keeps
    | with_reducible apply State.setItem_keeps
    | with_reducible apply State.handCells_keeps
    | simp -zeta only [Keeps.mk_iff]
    | split

theorem execPredict_keeps {s0 : State} (xm : Master) (tag : BitVec 8) (s : State) (h : Keeps s0 s) :
    KeepsA s0 (execPredict xm tag s) := by
  unfold execPredict
  repeat' first
    | with_reducible assumption
    | intro _
    | (extract_lets +onlyGivenNames x; clear_value x; revert x; intro _)
    | with_reducible apply KeepsA.next
    | with_reducible apply State.onCommand_keeps
    | with_reducible apply State.done_keeps
    | with_reducible apply State.complete_keeps
    | split

end Sys2Proof.Machine
end

