-- ==== Sys2Proof/Laws/KeepsTbOps.lean ====
section
/-! SUPPORT. The operations of Machine/TbOps.lean break nothing (`Keeps`). -/

set_option linter.unusedSimpArgs false

namespace Sys2Proof.Machine

theorem State.endSlew_keeps {s0 : State} (s : State) (c : Code) (h : Keeps s0 s) :
    Keeps s0 (State.endSlew s c) := by
  unfold State.endSlew
  repeat' first
    | with_reducible assumption
    | (extract_lets +onlyGivenNames x; have hx : Keeps s0 (by with_reducible apply x) := ?_; clear_value x; revert x; intro _ _; rotate_left; subst x)
    | (extract_lets +onlyGivenNames x; clear_value x; revert x; intro _)
    | with_reducible apply State.done_keeps
    | with_reducible apply State.put_keeps
    | simp -zeta only [Keeps.mk_iff]
    | split

theorem State.abortSlew_keeps {s0 : State} (s : State) (h : Keeps s0 s) :
    Keeps s0 (State.abortSlew s) := by
  unfold State.abortSlew
  repeat' first
    | with_reducible assumption
    | (extract_lets +onlyGivenNames x; have hx : Keeps s0 (by with_reducible apply x) := ?_; clear_value x; revert x; intro _ _; rotate_left; subst x)
    | (extract_lets +onlyGivenNames x; clear_value x; revert x; intro _)
    | with_reducible apply Keeps.ite
    | with_reducible apply State.endSlew_keeps
    | simp -zeta only [Keeps.mk_iff]
    | split

theorem State.stratumNow_keeps {s0 : State} (s : State) (h : Keeps s0 s) :
    Keeps s0 (State.stratumNow s) := by
  unfold State.stratumNow
  repeat' first
    | with_reducible assumption
    | with_reducible apply Keeps.ite
    | with_reducible apply State.put_keeps
    | split

theorem State.enterHoldover_keeps {s0 : State} (s : State) (h : Keeps s0 s) :
    Keeps s0 (State.enterHoldover s) := by
  unfold State.enterHoldover
  repeat' first
    | with_reducible assumption
    | (extract_lets +onlyGivenNames x; have hx : Keeps s0 (by with_reducible apply x) := ?_; clear_value x; revert x; intro _ _; rotate_left; subst x)
    | (extract_lets +onlyGivenNames x; clear_value x; revert x; intro _)
    | with_reducible apply Keeps.ite
    | with_reducible apply State.stratumNow_keeps
    | with_reducible apply State.endSlew_keeps
    | with_reducible apply State.evt_keeps
    | with_reducible apply State.put_keeps
    | simp -zeta only [Keeps.mk_iff]

theorem State.setOk_keeps {s0 : State} (s : State) (i : Nat) (ok : Bool) (h : Keeps s0 s) :
    Keeps s0 (State.setOk s i ok) := by
  unfold State.setOk
  repeat' first
    | with_reducible assumption
    | (extract_lets +onlyGivenNames x; clear_value x; revert x; intro _)
    | with_reducible apply State.put_keeps
    | simp -zeta only [Keeps.mk_iff]

theorem State.judgeGnss_keeps {s0 : State} (s : State) (h : Keeps s0 s) :
    Keeps s0 (State.judgeGnss s) := by
  unfold State.judgeGnss
  repeat' first
    | with_reducible assumption
    | with_reducible apply State.setOk_keeps

theorem State.selectSource_keeps {s0 : State} (s : State) (h : Keeps s0 s) :
    Keeps s0 (State.selectSource s) := by
  unfold State.selectSource
  repeat' first
    | with_reducible assumption
    | (extract_lets +onlyGivenNames x; clear_value x; revert x; intro _)
    | with_reducible apply Keeps.ite
    | with_reducible apply State.stratumNow_keeps
    | with_reducible apply State.evt_keeps
    | with_reducible apply State.put_keeps
    | split

theorem State.qualify_keeps {s0 : State} (s : State) (i : Nat) (h : Keeps s0 s) :
    Keeps s0 (State.qualify s i) := by
  unfold State.qualify
  repeat' first
    | with_reducible assumption
    | (extract_lets +onlyGivenNames x; clear_value x; revert x; intro _)
    | with_reducible apply Keeps.ite
    | with_reducible apply State.evt_keeps
    | simp -zeta only [Keeps.mk_iff]

theorem State.tbEval_keeps {s0 : State} (s : State) (h : Keeps s0 s) :
    Keeps s0 (State.tbEval s) := by
  unfold State.tbEval
  repeat' first
    | with_reducible assumption
    | (extract_lets +onlyGivenNames x; have hx : Keeps s0 (by with_reducible apply x) := ?_; clear_value x; revert x; intro _ _; rotate_left; subst x)
    | (extract_lets +onlyGivenNames x; clear_value x; revert x; intro _)
    | with_reducible apply Keeps.ite
    | with_reducible apply State.qualify_keeps
    | with_reducible apply State.selectSource_keeps
    | with_reducible apply State.enterHoldover_keeps
    | with_reducible apply State.put_keeps
    | simp -zeta only [Keeps.mk_iff]

theorem State.clearBcnOk_keeps {s0 : State} (s : State) (h : Keeps s0 s) :
    Keeps s0 (State.clearBcnOk s) := by
  unfold State.clearBcnOk
  repeat' first
    | with_reducible assumption
    | with_reducible apply State.tbEval_keeps
    | with_reducible apply State.setOk_keeps
    | with_reducible apply State.put_keeps

end Sys2Proof.Machine
end

