-- ==== Sys2Proof/Laws/KeepsBcn.lean ====
section
/-! SUPPORT. The operations of Machine/Bcn.lean break nothing (`Keeps`). -/

set_option linter.unusedSimpArgs false

namespace Sys2Proof.Machine

theorem State.setPeers_keeps {s0 : State} (s : State) (f : AMap Peer → AMap Peer) (h : Keeps s0 s) :
    Keeps s0 (State.setPeers s f) := by
  unfold State.setPeers
  repeat' first
    | with_reducible assumption
    | (extract_lets +onlyGivenNames x; clear_value x; revert x; intro _)
    | simp -zeta only [Keeps.mk_iff]

theorem State.stampNs_keeps {s0 : State} (s : State) (st : Stamp) (ns : Nat) (h : Keeps s0 s) :
    Keeps s0 (State.stampNs s st ns).1 := by
  unfold State.stampNs
  repeat' first
    | with_reducible assumption
    | with_reducible apply State.draw_keeps
    | simp -zeta only [Keeps.mk_iff]
    | split

theorem State.bcnNow_keeps {s0 : State} (s : State) (h : Keeps s0 s) :
    Keeps s0 (State.bcnNow s) := by
  unfold State.bcnNow
  repeat' first
    | with_reducible assumption
    | (extract_lets +onlyGivenNames x; have hx : Keeps s0 (by with_reducible apply x) := ?_; clear_value x; revert x; intro _ _; rotate_left; subst x)
    | (extract_lets +onlyGivenNames x; clear_value x; revert x; intro _)
    | with_reducible apply State.stratumNow_keeps
    | with_reducible apply State.evtIf_keeps
    | with_reducible apply State.put_keeps
    | split

theorem State.enterPeer_keeps {s0 : State} (s : State) (p : Peer) (h : Keeps s0 s) :
    Keeps s0 (State.enterPeer s p) := by
  unfold State.enterPeer
  repeat' first
    | with_reducible assumption
    | (extract_lets +onlyGivenNames x; clear_value x; revert x; intro _)
    | with_reducible apply Keeps.ite
    | with_reducible apply State.setPeers_keeps
    | with_reducible apply State.evt_keeps
    | with_reducible apply State.bumpSat_keeps
    | split

theorem State.consumeCtx_keeps {s0 : State} (s : State) (n : Fin 4) (k : Nat) (h : Keeps s0 s) :
    Keeps s0 (State.consumeCtx s n k) := by
  unfold State.consumeCtx
  repeat' first
    | with_reducible assumption
    | with_reducible apply State.releaseCtx_keeps
    | with_reducible apply State.ledOut_keeps

theorem execBeaconDue_keeps {s0 : State} (c : Fin 128) (s : State) (h : Keeps s0 s) :
    KeepsA s0 (execBeaconDue c s) := by
  unfold execBeaconDue
  repeat' first
    | with_reducible assumption
    | (extract_lets +onlyGivenNames x; have hx : Keeps s0 (by with_reducible apply x) := ?_; clear_value x; revert x; intro _ _; rotate_left; subst x)
    | (extract_lets +onlyGivenNames x; clear_value x; revert x; intro _)
    | with_reducible apply KeepsA.next
    | with_reducible apply KeepsA.ite
    | with_reducible apply State.hwSend_keeps
    | with_reducible apply State.sink_keeps
    | with_reducible apply State.ledDrop_keeps
    | with_reducible apply State.ledIn_keeps
    | with_reducible apply State.draw_keeps

theorem execBeaconRx_keeps {s0 : State} (n : Fin 4) (k : Fin 32) (air : RxAir) (s : State) (h : Keeps s0 s) :
    KeepsA s0 (execBeaconRx n k air s) := by
  unfold execBeaconRx
  repeat' first
    | with_reducible assumption
    | (extract_lets +onlyGivenNames x; have hx : Keeps s0 (by with_reducible apply x) := ?_; clear_value x; revert x; intro _ _; rotate_left; subst x)
    | (extract_lets +onlyGivenNames x; clear_value x; revert x; intro _)
    | with_reducible apply KeepsA.next
    | with_reducible apply KeepsA.ite
    | with_reducible apply Keeps.ite
    | with_reducible apply State.consumeCtx_keeps
    | with_reducible apply State.enterPeer_keeps
    | with_reducible apply State.bcnNow_keeps
    | with_reducible apply State.stampNs_keeps
    | with_reducible apply State.countKeyLate_keeps
    | with_reducible apply State.sink_keeps
    | with_reducible apply State.bumpSat_keeps
    | with_reducible apply State.put_keeps
    | simp -zeta only [Keeps.mk_iff]
    | split

theorem execParentBeaconMiss_keeps {s0 : State} (s : State) (h : Keeps s0 s) :
    KeepsA s0 (execParentBeaconMiss s) := by
  unfold execParentBeaconMiss
  repeat' first
    | with_reducible assumption
    | (extract_lets +onlyGivenNames x; have hx : Keeps s0 (by with_reducible apply x) := ?_; clear_value x; revert x; intro _ _; rotate_left; subst x)
    | (extract_lets +onlyGivenNames x; clear_value x; revert x; intro _)
    | with_reducible apply KeepsA.next
    | with_reducible apply KeepsA.ite
    | with_reducible apply State.clearBcnOk_keeps
    | with_reducible apply State.stratumNow_keeps
    | with_reducible apply State.evt_keeps
    | with_reducible apply State.advanceTo_keeps
    | with_reducible apply State.bumpSat_keeps
    | with_reducible apply State.put_keeps
    | simp -zeta only [Keeps.mk_iff]
    | split

theorem execPeerExpire_keeps {s0 : State} (i : Fin 64) (s : State) (h : Keeps s0 s) :
    KeepsA s0 (execPeerExpire i s) := by
  unfold execPeerExpire
  repeat' first
    | with_reducible assumption
    | (extract_lets +onlyGivenNames x; have hx : Keeps s0 (by with_reducible apply x) := ?_; clear_value x; revert x; intro _ _; rotate_left; subst x)
    | with_reducible apply KeepsA.next
    | with_reducible apply State.bcnNow_keeps
    | with_reducible apply State.setPeers_keeps
    | with_reducible apply State.evt_keeps
    | with_reducible apply State.advanceTo_keeps
    | split

theorem execBcnParentWrite_keeps {s0 : State} (m : Master) (v : BitVec 32) (s : State) (h : Keeps s0 s) :
    KeepsA s0 (execBcnParentWrite m v s) := by
  unfold execBcnParentWrite
  repeat' first
    | with_reducible assumption
    | with_reducible apply KeepsA.next
    | with_reducible apply State.stratumNow_keeps
    | with_reducible apply State.busWrite_keeps
    | with_reducible apply State.put_keeps
    | split
    | with_reducible refine Keeps.of_pair (by assumption) ?_

theorem execPeerRead_keeps {s0 : State} (xm : Master) (tag : BitVec 8) (s : State) (h : Keeps s0 s) :
    KeepsA s0 (execPeerRead xm tag s) := by
  unfold execPeerRead
  repeat' first
    | with_reducible assumption
    | intro _
    | (extract_lets +onlyGivenNames x; clear_value x; revert x; intro _)
    | with_reducible apply KeepsA.next
    | with_reducible apply Keeps.ite
    | with_reducible apply State.onCommand_keeps
    | with_reducible apply State.done_keeps
    | with_reducible apply State.complete_keeps
    | split

end Sys2Proof.Machine
end

