-- ==== Sys2Proof/Laws/KeepsCrc.lean ====
section
/-! SUPPORT. The operations of Machine/Crc.lean break nothing (`Keeps`). -/

set_option linter.unusedSimpArgs false

namespace Sys2Proof.Machine

theorem State.crcEnd_keeps {s0 : State} (s : State) (c : Nat) (code : Code) (kib : Nat) (h : Keeps s0 s) :
    Keeps s0 (State.crcEnd s c code kib) := by
  unfold State.crcEnd
  repeat' first
    | with_reducible assumption
    | (extract_lets +onlyGivenNames x; have hx : Keeps s0 (by with_reducible apply x) := ?_; clear_value x; revert x; intro _ _; rotate_left; subst x)
    | with_reducible apply Keeps.ite
    | with_reducible apply State.ledDrop_keeps
    | with_reducible apply State.ledOut_keeps
    | with_reducible apply State.evt_keeps
    | with_reducible apply State.bump_keeps
    | with_reducible apply State.put_keeps

theorem State.crcShow_keeps {s0 : State} (s : State) (c : Nat) (v : Nat) (h : Keeps s0 s) :
    Keeps s0 (State.crcShow s c v) := by
  unfold State.crcShow
  repeat' first
    | with_reducible assumption
    | with_reducible apply State.put64_keeps

theorem State.crcMove_keeps {s0 : State} (s : State) (c : Nat) (l : List Octet) (h : Keeps s0 s) :
    Keeps s0 (State.crcMove s c l) := by
  unfold State.crcMove
  repeat' first
    | with_reducible assumption
    | intro _
    | (extract_lets +onlyGivenNames x; have hx : Keeps s0 (by with_reducible apply x) := ?_; clear_value x; revert x; intro _ _; rotate_left; subst x)
    | (extract_lets +onlyGivenNames x; clear_value x; revert x; intro _)
    | with_reducible apply KeepsA.next
    | with_reducible apply KeepsA.ite
    | with_reducible apply Keeps.ite
    | with_reducible apply State.dramWrite_keeps
    | with_reducible apply State.passOctets_keeps
    | with_reducible apply Keeps.foldl
    | with_reducible apply Keeps.foldl_fst
    | simp -zeta only [Keeps.mk_iff]
    | with_reducible rfl
    | split
    | with_reducible exact Keeps.of_pair (by assumption) (by assumption)
    | with_reducible refine Keeps.of_pair (by assumption) ?_
    | with_reducible refine Keeps.of_pair' (by assumption) ?_
    | with_reducible refine Keeps.of_some (by assumption) ?_
    | with_reducible refine Keeps.of_someA (by assumption) ?_
    | with_reducible exact Keeps.of_someO (by assumption)
    | with_reducible apply KeepsOA.getD
    | simp only [StarterSt.storeNow_lc, StarterSt.storeNow_off, StarterSt.commitUpdate_lc, StarterSt.commitUpdate_off, StarterSt.beginUpdate_lc, StarterSt.beginUpdate_off, StarterSt.commitAll_lc, StarterSt.commitAll_off]
    | with_reducible contradiction
    | dsimp -zeta only

theorem State.crcStart_keeps {s0 : State} (s : State) (c : Nat) (alg : Nat) (h : Keeps s0 s) :
    Keeps s0 (State.crcStart s c alg).2 := by
  unfold State.crcStart
  repeat' first
    | with_reducible assumption
    | with_reducible apply State.draw_keeps
    | simp -zeta only [Keeps.mk_iff]
    | split

theorem State.crcAbort_keeps {s0 : State} (s : State) (c : Nat) (code : Code) (kib : Nat) (h : Keeps s0 s) :
    Keeps s0 (State.crcAbort s c code kib) := by
  unfold State.crcAbort
  repeat' first
    | with_reducible assumption
    | (extract_lets +onlyGivenNames x; clear_value x; revert x; intro _)
    | with_reducible apply State.crcShow_keeps
    | with_reducible apply State.crcEnd_keeps
    | with_reducible apply State.draw_keeps
    | simp -zeta only [Keeps.mk_iff]

theorem execCrcGo_keeps {s0 : State} (xm : Master) (c : Fin 24) (s : State) (h : Keeps s0 s) :
    KeepsA s0 (execCrcGo xm c s) := by
  unfold execCrcGo
  repeat' first
    | with_reducible assumption
    | (extract_lets +onlyGivenNames x; have hx : Keeps s0 (by with_reducible apply x) := ?_; clear_value x; revert x; intro _ _; rotate_left; subst x)
    | (extract_lets +onlyGivenNames x; clear_value x; revert x; intro _)
    | with_reducible apply KeepsA.next
    | with_reducible apply Keeps.ite
    | with_reducible apply State.crcEnd_keeps
    | with_reducible apply State.refuse_keeps
    | with_reducible apply State.offWrite_keeps
    | with_reducible apply State.sink_keeps
    | with_reducible apply State.ledIn_keeps
    | with_reducible apply State.evt_keeps
    | with_reducible apply State.bump_keeps
    | with_reducible apply State.put_keeps

theorem execCrcStop_keeps {s0 : State} (xm : Master) (c : Fin 24) (s : State) (h : Keeps s0 s) :
    KeepsA s0 (execCrcStop xm c s) := by
  unfold execCrcStop
  repeat' first
    | with_reducible assumption
    | (extract_lets +onlyGivenNames x; clear_value x; revert x; intro _)
    | with_reducible apply KeepsA.next
    | with_reducible apply Keeps.ite
    | with_reducible apply State.crcAbort_keeps
    | with_reducible apply State.crcMove_keeps
    | with_reducible apply State.offWrite_keeps
    | with_reducible apply State.draw_keeps
    | simp -zeta only [Keeps.mk_iff]

theorem execCrcJobDone_keeps {s0 : State} (c : Fin 24) (host : List Octet) (s : State) (h : Keeps s0 s) :
    KeepsA s0 (execCrcJobDone c host s) := by
  unfold execCrcJobDone
  repeat' first
    | with_reducible assumption
    | intro _
    | (extract_lets +onlyGivenNames x; have hx : Keeps s0 (by with_reducible apply x) := ?_; clear_value x; revert x; intro _ _; rotate_left; subst x)
    | (extract_lets +onlyGivenNames x; have hx : Keeps s0 (Prod.fst (by with_reducible apply x)) := ?_; clear_value x; revert x; intro _ _; rotate_left; subst x)
    | (extract_lets +onlyGivenNames x; have hx : Keeps s0 (Prod.snd (by with_reducible apply x)) := ?_; clear_value x; revert x; intro _ _; rotate_left; subst x)
    | (extract_lets +onlyGivenNames x; clear_value x; revert x; intro _)
    | with_reducible apply KeepsA.next
    | with_reducible apply KeepsA.ite
    | with_reducible apply Keeps.ite
    | with_reducible apply State.crcStart_keeps
    | with_reducible apply State.crcMove_keeps
    | with_reducible apply State.crcShow_keeps
    | with_reducible apply State.crcEnd_keeps
    | with_reducible apply State.passOctets_keeps
    | with_reducible apply State.evt_keeps
    | with_reducible apply Keeps.foldl
    | with_reducible apply Keeps.foldl_fst
    | simp -zeta only [Keeps.mk_iff]
    | with_reducible rfl
    | split
    | with_reducible exact Keeps.of_pair (by assumption) (by assumption)
    | with_reducible refine Keeps.of_pair (by assumption) ?_
    | with_reducible refine Keeps.of_pair' (by assumption) ?_
    | with_reducible refine Keeps.of_some (by assumption) ?_
    | with_reducible refine Keeps.of_someA (by assumption) ?_
    | with_reducible exact Keeps.of_someO (by assumption)
    | with_reducible apply KeepsOA.getD
    | simp only [StarterSt.storeNow_lc, StarterSt.storeNow_off, StarterSt.commitUpdate_lc, StarterSt.commitUpdate_off, StarterSt.beginUpdate_lc, StarterSt.beginUpdate_off, StarterSt.commitAll_lc, StarterSt.commitAll_off]
    | with_reducible contradiction
    | dsimp -zeta only

theorem execDmaError_keeps {s0 : State} (crc : Bool) (q : Fin 64) (s : State) (h : Keeps s0 s) :
    KeepsA s0 (execDmaError crc q s) := by
  unfold execDmaError
  repeat' first
    | with_reducible assumption
    | intro _
    | (extract_lets +onlyGivenNames x; have hx : ∀ y, Keeps s0 y → Keeps s0 (by with_reducible exact x y) := ?_; clear_value x; revert x; intro _ hf0; rotate_left; subst x; dsimp -zeta only)
    | with_reducible apply hf0
    | (extract_lets +onlyGivenNames x; clear_value x; revert x; intro _)
    | with_reducible apply KeepsA.next
    | with_reducible apply Keeps.ite
    | with_reducible apply State.crcAbort_keeps
    | with_reducible apply State.revoke_keeps
    | with_reducible apply State.evt_keeps
    | with_reducible apply State.draw_keeps

end Sys2Proof.Machine
end

