-- ==== Sys2Proof/Laws/KeepsFrameOps.lean ====
section
/-! SUPPORT. The operations of Machine/FrameOps.lean break nothing (`Keeps`). -/

set_option linter.unusedSimpArgs false

namespace Sys2Proof.Machine

theorem State.setPort_keeps {s0 : State} (s : State) (p : Nat) (f : PortSt → PortSt) (h : Keeps s0 s) :
    Keeps s0 (State.setPort s p f) := by
  unfold State.setPort
  repeat' first
    | with_reducible assumption
    | simp -zeta only [Keeps.mk_iff]

theorem State.stat_keeps {s0 : State} (s : State) (p : Nat) (i : Nat) (n : Nat) (h : Keeps s0 s) :
    Keeps s0 (State.stat s p i n) := by
  unfold State.stat
  repeat' first
    | with_reducible assumption
    | with_reducible apply State.setPort_keeps

theorem State.rxStats_keeps {s0 : State} (s : State) (p : Nat) (xx : FrameFacts) (h : Keeps s0 s) :
    Keeps s0 (State.rxStats s p xx) := by
  unfold State.rxStats
  repeat' first
    | with_reducible assumption
    | (extract_lets +onlyGivenNames x; have hx : Keeps s0 (by with_reducible apply x) := ?_; clear_value x; revert x; intro _ _; rotate_left; subst x)
    | (extract_lets +onlyGivenNames x; clear_value x; revert x; intro _)
    | with_reducible apply Keeps.ite
    | with_reducible apply State.stat_keeps

theorem State.txStats_keeps {s0 : State} (s : State) (p : Nat) (xx : FrameFacts) (octets : Nat) (h : Keeps s0 s) :
    Keeps s0 (State.txStats s p xx octets) := by
  unfold State.txStats
  repeat' first
    | with_reducible assumption
    | (extract_lets +onlyGivenNames x; have hx : Keeps s0 (by with_reducible apply x) := ?_; clear_value x; revert x; intro _ _; rotate_left; subst x)
    | with_reducible apply Keeps.ite
    | with_reducible apply State.stat_keeps

theorem State.portDrop_keeps {s0 : State} (s : State) (p : Nat) (c : Cause) (len : Nat) (arrival : Nat) (owner : Nat) (h : Keeps s0 s) :
    Keeps s0 (State.portDrop s p c len arrival owner) := by
  unfold State.portDrop
  repeat' first
    | with_reducible assumption
    | (extract_lets +onlyGivenNames x; have hx : Keeps s0 (by with_reducible apply x) := ?_; clear_value x; revert x; intro _ _; rotate_left; subst x)
    | with_reducible apply State.dropPacket_keeps
    | with_reducible apply State.bumpSat_keeps
    | split

theorem State.setFrame_keeps {s0 : State} (s : State) (i : Nat) (f : Frame → Frame) (h : Keeps s0 s) :
    Keeps s0 (State.setFrame s i f) := by
  unfold State.setFrame
  repeat' first
    | with_reducible assumption
    | simp -zeta only [Keeps.mk_iff]
    | split

theorem State.addFrame_keeps {s0 : State} (s : State) (f : Frame) (h : Keeps s0 s) :
    Keeps s0 (State.addFrame s f) := by
  unfold State.addFrame
  repeat' first
    | with_reducible assumption
    | simp -zeta only [Keeps.mk_iff]

theorem State.eraseFrame_keeps {s0 : State} (s : State) (i : Nat) (h : Keeps s0 s) :
    Keeps s0 (State.eraseFrame s i) := by
  unfold State.eraseFrame
  repeat' first
    | with_reducible assumption
    | simp -zeta only [Keeps.mk_iff]

theorem State.freeFrame_keeps {s0 : State} (s : State) (k : Freed) (i : Nat) (h : Keeps s0 s) :
    Keeps s0 (State.freeFrame s k i) := by
  unfold State.freeFrame
  repeat' first
    | with_reducible assumption
    | with_reducible apply State.setFrame_keeps
    | with_reducible apply State.freeCells_keeps
    | split

theorem State.settle_keeps {s0 : State} (s : State) (i : Nat) (h : Keeps s0 s) :
    Keeps s0 (State.settle s i) := by
  unfold State.settle
  repeat' first
    | with_reducible assumption
    | (extract_lets +onlyGivenNames x; have hx : Keeps s0 (by with_reducible apply x) := ?_; clear_value x; revert x; intro _ _; rotate_left; subst x)
    | with_reducible apply Keeps.ite
    | with_reducible apply State.freeFrame_keeps
    | with_reducible apply State.eraseFrame_keeps
    | split

theorem State.endEgress_keeps {s0 : State} (s : State) (i : Nat) (p : Nat) (h : Keeps s0 s) :
    Keeps s0 (State.endEgress s i p) := by
  unfold State.endEgress
  repeat' first
    | with_reducible assumption
    | with_reducible apply State.settle_keeps
    | with_reducible apply State.setFrame_keeps
    | with_reducible apply State.refund_keeps

theorem State.pushTstx_keeps {s0 : State} (s : State) (p : Nat) (st : Stamp) (tag : BitVec 16) (refused : Bool) (h : Keeps s0 s) :
    Keeps s0 (State.pushTstx s p st tag refused) := by
  unfold State.pushTstx
  repeat' first
    | with_reducible assumption
    | with_reducible apply Keeps.ite
    | with_reducible apply State.setPort_keeps
    | with_reducible apply State.evt_keeps
    | with_reducible apply State.bumpSat_keeps

theorem State.emptyTx_keeps {s0 : State} (s : State) (g : Nat) (h : Keeps s0 s) :
    Keeps s0 (State.emptyTx s g) := by
  unfold State.emptyTx
  repeat' first
    | with_reducible assumption
    | intro _
    | with_reducible apply State.setLink_keeps
    | with_reducible apply Keeps.foldl

theorem State.recordSent_keeps {s0 : State} (s : State) (f : Frame) (e : Egress) (fcs : Fcs) (h : Keeps s0 s) :
    Keeps s0 (State.recordSent s f e fcs) := by
  unfold State.recordSent
  repeat' first
    | with_reducible assumption
    | (extract_lets +onlyGivenNames x; clear_value x; revert x; intro _)
    | with_reducible apply State.setPort_keeps

theorem State.sendEnd_keeps {s0 : State} (s : State) (i : Nat) (f : Frame) (e : Egress) (fcs : Fcs) (h : Keeps s0 s) :
    Keeps s0 (State.sendEnd s i f e fcs) := by
  unfold State.sendEnd
  repeat' first
    | with_reducible assumption
    | intro _
    | (extract_lets +onlyGivenNames x; have hx : Keeps s0 (by with_reducible apply x) := ?_; clear_value x; revert x; intro _ _; rotate_left; subst x)
    | (extract_lets +onlyGivenNames x; clear_value x; revert x; intro _)
    | with_reducible apply KeepsA.next
    | with_reducible apply KeepsA.ite
    | with_reducible apply Keeps.ite
    | with_reducible apply State.recordSent_keeps
    | with_reducible apply State.endEgress_keeps
    | with_reducible apply State.setFrame_keeps
    | with_reducible apply State.txStats_keeps
    | with_reducible apply State.passFree_keeps
    | with_reducible apply State.ledDrop_keeps
    | with_reducible apply State.ledOut_keeps
    | with_reducible apply Keeps.foldl
    | with_reducible apply Keeps.foldl_fst
    | simp -zeta only [Keeps.mk_iff]
    | with_reducible rfl
    | split
    | with_reducible exact Keeps.of_pair (by assumption) (by assumption)
    | with_reducible refine Keeps.of_pair (by assumption) ?_
    | with_reducible refine Keeps.of_pair' (by assumption) ?_
    | with_reducible refine Keeps.of_some (by assumption) ?_
    | with_reducible refine Keeps.of_someA (by assumption) ?_
    | with_reducible exact Keeps.of_someO (by assumption)
    | with_reducible apply KeepsOA.getD
    | simp only [StarterSt.storeNow_lc, StarterSt.storeNow_off, StarterSt.commitUpdate_lc, StarterSt.commitUpdate_off, StarterSt.beginUpdate_lc, StarterSt.beginUpdate_off, StarterSt.commitAll_lc, StarterSt.commitAll_off]
    | with_reducible contradiction
    | dsimp -zeta only

theorem State.deliverFrame_keeps {s0 : State} (s : State) (i : Nat) (f : Frame) (h : Keeps s0 s) :
    Keeps s0 (State.deliverFrame s i f) := by
  unfold State.deliverFrame
  extract_lets p valid q gone shared
  have hg : ∀ x, Keeps s0 x → Keeps s0 (gone x) := fun x hx => State.settle_keeps _ _ (State.setFrame_keeps _ _ _ hx)
  clear_value gone
  split
  · exact hg _ (State.dropRecord_keeps _ _ _ _ _ _ _ h)
  · rename_i t cs e
    have ht : Keeps s0 t := Keeps.of_some e (by
      split
      · exact State.allocPacket_keeps _ _ _ h
      · exact KeepsO.some h)
    extract_lets pkt undo waiting
    have hu : ∀ x, Keeps s0 x → Keeps s0 (undo x) := fun x hx => hg _ (by
      split
      · exact State.freeCells_keeps _ _ _ hx
      · exact hx)
    clear_value undo
    split
    · rename_i e
      refine hg _ ?_
      split
      · exact Keeps.of_pair e (State.offerHost_keeps _ _ _ _ ht)
      · exact State.setFrame_keeps _ _ _ (Keeps.of_pair e (State.offerHost_keeps _ _ _ _ ht))
    · rename_i e
      exact hu _ (Keeps.of_pair e (State.offerHost_keeps _ _ _ _ ht))
    · rename_i e
      exact hu _ (State.dropRecord_keeps _ _ _ _ _ _ _ (State.bumpSat_keeps _ _ _ (State.setLink_keeps _ _ _
        (Keeps.of_pair e (State.offerHost_keeps _ _ _ _ ht)))))

end Sys2Proof.Machine
end

