-- ==== Sys2Proof/Laws/KeepsCrustOps.lean ====
section
/-! SUPPORT. The operations of Machine/CrustOps.lean break nothing (`Keeps`). -/

set_option linter.unusedSimpArgs false

namespace Sys2Proof.Machine

theorem State.setSa_keeps {s0 : State} (s : State) (i : Nat) (f : SaEntry → SaEntry) (h : Keeps s0 s) :
    Keeps s0 (State.setSa s i f) := by
  unfold State.setSa
  repeat' first
    | with_reducible assumption
    | (extract_lets +onlyGivenNames x; clear_value x; revert x; intro _)
    | with_reducible apply Keeps.ite
    | simp -zeta only [Keeps.mk_iff]
    | split

theorem State.thresholdHit_keeps {s0 : State} (s : State) (i : Nat) (h : Keeps s0 s) :
    Keeps s0 (State.thresholdHit s i) := by
  unfold State.thresholdHit
  repeat' first
    | with_reducible assumption
    | with_reducible apply State.setSa_keeps
    | with_reducible apply State.evt_keeps
    | with_reducible apply State.put_keeps

theorem State.exhaust_keeps {s0 : State} (s : State) (p : Nat) (i : Nat) (h : Keeps s0 s) :
    Keeps s0 (State.exhaust s p i) := by
  unfold State.exhaust
  repeat' first
    | with_reducible assumption
    | with_reducible apply State.setSa_keeps
    | with_reducible apply State.evt_keeps
    | with_reducible apply State.put_keeps

theorem State.switchSa_keeps {s0 : State} (s : State) (p : Nat) (i : Nat) (auto : Bool) (h : Keeps s0 s) :
    Keeps s0 (State.switchSa s p i auto) := by
  unfold State.switchSa
  repeat' first
    | with_reducible assumption
    | (extract_lets +onlyGivenNames x; have hx : Keeps s0 (by with_reducible apply x) := ?_; clear_value x; revert x; intro _ _; rotate_left; subst x)
    | (extract_lets +onlyGivenNames x; clear_value x; revert x; intro _)
    | with_reducible apply State.evt_keeps
    | with_reducible apply State.bumpSat_keeps
    | with_reducible apply State.putB_keeps
    | with_reducible apply State.put_keeps

theorem State.applySwitch_keeps {s0 : State} (s : State) (p : Nat) (h : Keeps s0 s) :
    Keeps s0 (State.applySwitch s p) := by
  unfold State.applySwitch
  repeat' first
    | with_reducible assumption
    | (extract_lets +onlyGivenNames x; clear_value x; revert x; intro _)
    | with_reducible apply State.switchSa_keeps
    | with_reducible apply State.done_keeps
    | with_reducible apply State.complete_keeps
    | split

theorem State.autoSwitch_keeps {s0 : State} (s : State) (p : Nat) (h : Keeps s0 s) :
    Keeps s0 (State.autoSwitch s p) := by
  unfold State.autoSwitch
  repeat' first
    | with_reducible assumption
    | with_reducible apply Keeps.ite
    | with_reducible apply State.switchSa_keeps
    | split

end Sys2Proof.Machine
end

