-- ==== Sys2Proof/Laws/KeepsCrust.lean ====
section
/-! SUPPORT. The operations of Machine/Crust.lean break nothing (`Keeps`). -/

set_option linter.unusedSimpArgs false

namespace Sys2Proof.Machine

theorem State.onSa_keeps {s0 : State} (s : State) (m : Master) (tag : BitVec 8) (body : State → State) (h : Keeps s0 s) (h_body : ∀ x, Keeps s0 x → Keeps s0 (body x)) :
    Keeps s0 (State.onSa s m tag body) := by
  unfold State.onSa
  repeat' first
    | with_reducible assumption
    | intro _
    | (extract_lets +onlyGivenNames x; clear_value x; revert x; intro _)
    | with_reducible apply Keeps.ite
    | with_reducible apply State.onCommand_keeps
    | with_reducible apply State.done_keeps
    | with_reducible apply h_body

theorem execSaInstall_keeps {s0 : State} (m : Master) (tag : BitVec 8) (s : State) (h : Keeps s0 s) :
    KeepsA s0 (execSaInstall m tag s) := by
  unfold execSaInstall
  repeat' first
    | with_reducible assumption
    | intro _
    | (extract_lets +onlyGivenNames x; have hx : ∀ y y0, Keeps s0 y → Keeps s0 (by with_reducible exact x y y0) := ?_; clear_value x; revert x; intro _ hf1; rotate_left; subst x; dsimp -zeta only)
    | with_reducible apply hf1
    | (extract_lets +onlyGivenNames x; have hx : Keeps s0 (by with_reducible apply x) := ?_; clear_value x; revert x; intro _ _; rotate_left; subst x)
    | (extract_lets +onlyGivenNames x; clear_value x; revert x; intro _)
    | with_reducible apply KeepsA.next
    | with_reducible apply Keeps.ite
    | with_reducible apply State.onSa_keeps
    | with_reducible apply State.useSlot_keeps
    | with_reducible apply State.setStarter_keeps
    | with_reducible apply State.done_keeps
    | with_reducible apply State.evt_keeps
    | with_reducible apply Keeps.foldl
    | simp -zeta only [Keeps.mk_iff]
    | split
    | with_reducible refine Keeps.of_pair (by assumption) ?_
    | simp only [StarterSt.storeNow_lc, StarterSt.storeNow_off, StarterSt.commitUpdate_lc, StarterSt.commitUpdate_off, StarterSt.beginUpdate_lc, StarterSt.beginUpdate_off, StarterSt.commitAll_lc, StarterSt.commitAll_off]

theorem execSaDelete_keeps {s0 : State} (m : Master) (tag : BitVec 8) (s : State) (h : Keeps s0 s) :
    KeepsA s0 (execSaDelete m tag s) := by
  unfold execSaDelete
  repeat' first
    | with_reducible assumption
    | intro _
    | (extract_lets +onlyGivenNames x; have hx : Keeps s0 (by with_reducible apply x) := ?_; clear_value x; revert x; intro _ _; rotate_left; subst x)
    | (extract_lets +onlyGivenNames x; clear_value x; revert x; intro _)
    | with_reducible apply KeepsA.next
    | with_reducible apply Keeps.ite
    | with_reducible apply State.onSa_keeps
    | with_reducible apply State.startRun_keeps
    | with_reducible apply State.done_keeps
    | simp -zeta only [Keeps.mk_iff]
    | split

theorem execSaDeleteDrained_keeps {s0 : State} (s : State) (h : Keeps s0 s) :
    KeepsA s0 (execSaDeleteDrained s) := by
  unfold execSaDeleteDrained
  repeat' first
    | with_reducible assumption
    | (extract_lets +onlyGivenNames x; clear_value x; revert x; intro _)
    | with_reducible apply KeepsA.next
    | with_reducible apply KeepsA.ite
    | with_reducible apply State.done_keeps
    | simp -zeta only [Keeps.mk_iff]
    | split

theorem execSaRead_keeps {s0 : State} (m : Master) (tag : BitVec 8) (s : State) (h : Keeps s0 s) :
    KeepsA s0 (execSaRead m tag s) := by
  unfold execSaRead
  repeat' first
    | with_reducible assumption
    | intro _
    | (extract_lets +onlyGivenNames x; have hx : Keeps s0 (by with_reducible apply x) := ?_; clear_value x; revert x; intro _ _; rotate_left; subst x)
    | (extract_lets +onlyGivenNames x; clear_value x; revert x; intro _)
    | with_reducible apply KeepsA.next
    | with_reducible apply Keeps.ite
    | with_reducible apply State.onSa_keeps
    | with_reducible apply State.done_keeps
    | with_reducible apply State.complete_keeps
    | with_reducible apply State.setWord_keeps
    | with_reducible apply Keeps.foldl
    | split

theorem execSaPn_keeps {s0 : State} (m : Master) (tag : BitVec 8) (s : State) (h : Keeps s0 s) :
    KeepsA s0 (execSaPn m tag s) := by
  unfold execSaPn
  repeat' first
    | with_reducible assumption
    | intro _
    | (extract_lets +onlyGivenNames x; have hx : Keeps s0 (by with_reducible apply x) := ?_; clear_value x; revert x; intro _ _; rotate_left; subst x)
    | (extract_lets +onlyGivenNames x; clear_value x; revert x; intro _)
    | with_reducible apply KeepsA.next
    | with_reducible apply Keeps.ite
    | with_reducible apply State.onSa_keeps
    | with_reducible apply State.thresholdHit_keeps
    | with_reducible apply State.setSa_keeps
    | with_reducible apply State.done_keeps
    | split

theorem execPnThr64HiWrite_keeps {s0 : State} (m : Master) (v : W32) (s : State) (h : Keeps s0 s) :
    KeepsA s0 (execPnThr64HiWrite m v s) := by
  unfold execPnThr64HiWrite
  repeat' first
    | with_reducible assumption
    | with_reducible apply KeepsA.next
    | with_reducible apply State.busWrite_keeps
    | simp -zeta only [Keeps.mk_iff]
    | split
    | with_reducible refine Keeps.of_pair (by assumption) ?_

theorem State.onPk_keeps {s0 : State} (s : State) (m : Master) (xx : Fin 3) (tag : BitVec 8) (body : State → Nat → State) (h : Keeps s0 s) (h_body : ∀ x y0, Keeps s0 x → Keeps s0 (body x y0)) :
    Keeps s0 (State.onPk s m xx tag body) := by
  unfold State.onPk
  repeat' first
    | with_reducible assumption
    | intro _
    | (extract_lets +onlyGivenNames x; clear_value x; revert x; intro _)
    | with_reducible apply State.onCommand_keeps
    | with_reducible apply State.done_keeps
    | with_reducible apply h_body
    | split

theorem execTxArm_keeps {s0 : State} (m : Master) (xx : Fin 3) (tag : BitVec 8) (s : State) (h : Keeps s0 s) :
    KeepsA s0 (execTxArm m xx tag s) := by
  unfold execTxArm
  repeat' first
    | with_reducible assumption
    | intro _
    | (extract_lets +onlyGivenNames x; clear_value x; revert x; intro _)
    | with_reducible apply KeepsA.next
    | with_reducible apply Keeps.ite
    | with_reducible apply State.onPk_keeps
    | with_reducible apply State.done_keeps
    | with_reducible apply State.put_keeps
    | split

theorem execTxSwitch_keeps {s0 : State} (m : Master) (xx : Fin 3) (tag : BitVec 8) (s : State) (h : Keeps s0 s) :
    KeepsA s0 (execTxSwitch m xx tag s) := by
  unfold execTxSwitch
  repeat' first
    | with_reducible assumption
    | intro _
    | (extract_lets +onlyGivenNames x; clear_value x; revert x; intro _)
    | with_reducible apply KeepsA.next
    | with_reducible apply Keeps.ite
    | with_reducible apply State.onPk_keeps
    | with_reducible apply State.applySwitch_keeps
    | with_reducible apply State.startRun_keeps
    | with_reducible apply State.done_keeps

theorem execTxSwitchApply_keeps {s0 : State} (p : Fin 10) (s : State) (h : Keeps s0 s) :
    KeepsA s0 (execTxSwitchApply p s) := by
  unfold execTxSwitchApply
  repeat' first
    | with_reducible assumption
    | with_reducible apply KeepsA.next
    | with_reducible apply KeepsA.ite
    | with_reducible apply State.applySwitch_keeps

theorem execTxDisarm_keeps {s0 : State} (m : Master) (xx : Fin 3) (tag : BitVec 8) (s : State) (h : Keeps s0 s) :
    KeepsA s0 (execTxDisarm m xx tag s) := by
  unfold execTxDisarm
  repeat' first
    | with_reducible assumption
    | intro _
    | with_reducible apply KeepsA.next
    | with_reducible apply State.onPk_keeps
    | with_reducible apply State.done_keeps
    | with_reducible apply State.put_keeps

theorem State.portPassed_keeps {s0 : State} (s : State) (i : Nat) (f : Frame) (h : Keeps s0 s) :
    Keeps s0 (State.portPassed s i f) := by
  unfold State.portPassed
  repeat' first
    | with_reducible assumption
    | with_reducible apply Keeps.ite
    | with_reducible apply State.setFrame_keeps
    | with_reducible apply State.ledOut_keeps

theorem State.rxDrop_keeps {s0 : State} (s : State) (i : Nat) (f : Frame) (c : Cause) (count : Fld) (ev : Option Nat) (sa : Nat) (h : Keeps s0 s) :
    Keeps s0 (State.rxDrop s i f c count ev sa) := by
  unfold State.rxDrop
  repeat' first
    | with_reducible assumption
    | (extract_lets +onlyGivenNames x; have hx : Keeps s0 (by with_reducible apply x) := ?_; clear_value x; revert x; intro _ _; rotate_left; subst x)
    | (extract_lets +onlyGivenNames x; clear_value x; revert x; intro _)
    | with_reducible apply State.portPassed_keeps
    | with_reducible apply State.freeFrame_keeps
    | with_reducible apply State.eraseFrame_keeps
    | with_reducible apply State.dropPacket_keeps
    | with_reducible apply State.evt_keeps
    | with_reducible apply State.bumpSat_keeps
    | split

theorem State.rxTagged_keeps {s0 : State} (s : State) (i : Nat) (f : Frame) (t : TagFacts) (h : Keeps s0 s) :
    Keeps s0 (State.rxTagged s i f t) := by
  unfold State.rxTagged
  repeat' first
    | with_reducible assumption
    | (extract_lets +onlyGivenNames x; clear_value x; revert x; intro _)
    | with_reducible apply Keeps.ite
    | with_reducible apply State.rxDrop_keeps
    | with_reducible apply State.portPassed_keeps
    | with_reducible apply State.setSa_keeps
    | with_reducible apply State.setFrame_keeps
    | with_reducible apply State.ledOut_keeps
    | split

theorem execCrustRxFrame_keeps {s0 : State} (i : Nat) (s : State) (h : Keeps s0 s) :
    KeepsA s0 (execCrustRxFrame i s) := by
  unfold execCrustRxFrame
  repeat' first
    | with_reducible assumption
    | intro _
    | (extract_lets +onlyGivenNames x; have hx : ∀ y, Keeps s0 y → Keeps s0 (by with_reducible exact x y) := ?_; clear_value x; revert x; intro _ hf0; rotate_left; subst x; dsimp -zeta only)
    | with_reducible apply hf0
    | (extract_lets +onlyGivenNames x; have hx : Keeps s0 (by with_reducible apply x) := ?_; clear_value x; revert x; intro _ _; rotate_left; subst x)
    | (extract_lets +onlyGivenNames x; clear_value x; revert x; intro _)
    | with_reducible apply KeepsA.next
    | with_reducible apply KeepsA.ite
    | with_reducible apply Keeps.ite
    | with_reducible apply State.rxTagged_keeps
    | with_reducible apply State.rxDrop_keeps
    | with_reducible apply State.portPassed_keeps
    | with_reducible apply State.freeFrame_keeps
    | with_reducible apply State.eraseFrame_keeps
    | with_reducible apply State.setFrame_keeps
    | with_reducible apply State.portDrop_keeps
    | with_reducible apply State.sinkCells_keeps
    | with_reducible apply State.dropRecord_keeps
    | with_reducible apply State.sink_keeps
    | with_reducible apply State.ledOut_keeps
    | with_reducible apply State.ledIn_keeps
    | with_reducible apply State.bumpSat_keeps
    | split

theorem execIcvResult_keeps {s0 : State} (i : Nat) (ok : Bool) (s : State) (h : Keeps s0 s) :
    KeepsA s0 (execIcvResult i ok s) := by
  unfold execIcvResult
  repeat' first
    | with_reducible assumption
    | intro _
    | (extract_lets +onlyGivenNames x; have hx : Keeps s0 (by with_reducible apply x) := ?_; clear_value x; revert x; intro _ _; rotate_left; subst x)
    | (extract_lets +onlyGivenNames x; clear_value x; revert x; intro _)
    | with_reducible apply KeepsA.next
    | with_reducible apply KeepsA.ite
    | with_reducible apply Keeps.ite
    | with_reducible apply State.portPassed_keeps
    | with_reducible apply State.autoSwitch_keeps
    | with_reducible apply State.setSa_keeps
    | with_reducible apply State.sendEnd_keeps
    | with_reducible apply State.endEgress_keeps
    | with_reducible apply State.settle_keeps
    | with_reducible apply State.setFrame_keeps
    | with_reducible apply State.dropPacket_keeps
    | with_reducible apply State.ledDrop_keeps
    | with_reducible apply State.ledOut_keeps
    | with_reducible apply State.evt_keeps
    | with_reducible apply State.bumpSat_keeps
    | with_reducible apply Keeps.foldl
    | split

theorem State.txDrop_keeps {s0 : State} (s : State) (i : Nat) (f : Frame) (p : Nat) (c : Cause) (count : Fld) (ev : Nat) (sa : Nat) (h : Keeps s0 s) :
    Keeps s0 (State.txDrop s i f p c count ev sa) := by
  unfold State.txDrop
  repeat' first
    | with_reducible assumption
    | (extract_lets +onlyGivenNames x; clear_value x; revert x; intro _)
    | with_reducible apply State.endEgress_keeps
    | with_reducible apply State.dropPacket_keeps
    | with_reducible apply State.evt_keeps
    | with_reducible apply State.bumpSat_keeps

theorem State.protect_keeps {s0 : State} (s : State) (i : Nat) (f : Frame) (p : Nat) (h : Keeps s0 s) :
    Keeps s0 (State.protect s i f p) := by
  unfold State.protect
  repeat' first
    | with_reducible assumption
    | intro _
    | (extract_lets +onlyGivenNames x; have hx : ∀ y y0, Keeps s0 y → Keeps s0 (by with_reducible exact x y y0) := ?_; clear_value x; revert x; intro _ hf1; rotate_left; subst x; dsimp -zeta only)
    | with_reducible apply hf1
    | (extract_lets +onlyGivenNames x; have hx : Keeps s0 (by with_reducible apply x) := ?_; clear_value x; revert x; intro _ _; rotate_left; subst x)
    | (extract_lets +onlyGivenNames x; clear_value x; revert x; intro _)
    | with_reducible apply Keeps.ite
    | with_reducible apply State.txDrop_keeps
    | with_reducible apply State.exhaust_keeps
    | with_reducible apply State.thresholdHit_keeps
    | with_reducible apply State.setSa_keeps
    | with_reducible apply State.setFrame_keeps
    | split

theorem execCrustTxFrame_keeps {s0 : State} (i : Nat) (p : Fin 10) (s : State) (h : Keeps s0 s) :
    KeepsA s0 (execCrustTxFrame i p s) := by
  unfold execCrustTxFrame
  repeat' first
    | with_reducible assumption
    | (extract_lets +onlyGivenNames x; have hx : Keeps s0 (by with_reducible apply x) := ?_; clear_value x; revert x; intro _ _; rotate_left; subst x)
    | (extract_lets +onlyGivenNames x; clear_value x; revert x; intro _)
    | with_reducible apply KeepsA.next
    | with_reducible apply KeepsA.ite
    | with_reducible apply Keeps.ite
    | with_reducible apply State.protect_keeps
    | with_reducible apply State.autoSwitch_keeps
    | with_reducible apply State.applySwitch_keeps
    | with_reducible apply State.endEgress_keeps
    | with_reducible apply State.setFrame_keeps
    | with_reducible apply State.portDrop_keeps
    | with_reducible apply State.dropRecord_keeps
    | with_reducible apply State.ledFence_keeps
    | with_reducible apply State.ledIn_keeps
    | split

end Sys2Proof.Machine
end

