-- ==== Sys2Proof/Laws/KeepsFlood.lean ====
section
/-! SUPPORT. The operations of Machine/Flood.lean break nothing (`Keeps`). -/

set_option linter.unusedSimpArgs false

namespace Sys2Proof.Machine

theorem State.setSeen_keeps {s0 : State} (s : State) (f : List SeenEntry → List SeenEntry) (h : Keeps s0 s) :
    Keeps s0 (State.setSeen s f) := by
  unfold State.setSeen
  repeat' first
    | with_reducible assumption
    | (extract_lets +onlyGivenNames x; clear_value x; revert x; intro _)
    | simp -zeta only [Keeps.mk_iff]

theorem State.insertSeen_keeps {s0 : State} (s : State) (e : SeenEntry) (h : Keeps s0 s) :
    Keeps s0 (State.insertSeen s e) := by
  unfold State.insertSeen
  repeat' first
    | with_reducible assumption
    | with_reducible apply Keeps.ite
    | with_reducible apply State.setSeen_keeps
    | with_reducible apply State.evt_keeps
    | with_reducible apply State.bumpSat_keeps
    | split

theorem State.dropMessage_keeps {s0 : State} (s : State) (h : Keeps s0 s) :
    Keeps s0 (State.dropMessage s) := by
  unfold State.dropMessage
  repeat' first
    | with_reducible assumption
    | with_reducible apply State.ledDrop_keeps

theorem State.floodJobs_keeps {s0 : State} (s : State) (p : List Octet) (cmd : Bool) (h : Keeps s0 s) :
    Keeps s0 (State.floodJobs s p cmd) := by
  unfold State.floodJobs
  repeat' first
    | with_reducible assumption
    | intro _
    | (extract_lets +onlyGivenNames x; clear_value x; revert x; intro _)
    | with_reducible apply State.hwSend_keeps
    | with_reducible apply Keeps.foldl

theorem State.sendMessage_keeps {s0 : State} (s : State) (p : List Octet) (cmd : Bool) (h : Keeps s0 s) :
    Keeps s0 (State.sendMessage s p cmd) := by
  unfold State.sendMessage
  repeat' first
    | with_reducible assumption
    | with_reducible apply Keeps.ite
    | with_reducible apply State.floodJobs_keeps
    | with_reducible apply State.dropMessage_keeps
    | with_reducible apply State.ledOut_keeps

theorem State.floodTimer_keeps {s0 : State} (s : State) (ns : Nat) (w4 : Nat) (gap : Nat) (h : Keeps s0 s) :
    Keeps s0 (State.floodTimer s ns w4 gap) := by
  unfold State.floodTimer
  repeat' first
    | with_reducible assumption
    | with_reducible apply State.hwSend_keeps
    | with_reducible apply State.draw_keeps

theorem State.enterSender_keeps {s0 : State} (s : State) (sender : Nat) (f : RxFrame) (c : Ctx) (ns : Int) (h : Keeps s0 s) :
    Keeps s0 (State.enterSender s sender f c ns) := by
  unfold State.enterSender
  repeat' first
    | with_reducible assumption
    | with_reducible apply State.enterPeer_keeps
    | with_reducible apply State.bcnNow_keeps
    | with_reducible apply State.draw_keeps
    | simp -zeta only [Keeps.mk_iff]
    | split

theorem execFloodRx_keeps {s0 : State} (n : Fin 4) (k : Fin 32) (air : RxAir) (s : State) (h : Keeps s0 s) :
    KeepsA s0 (execFloodRx n k air s) := by
  unfold execFloodRx
  repeat' first
    | with_reducible assumption
    | (extract_lets +onlyGivenNames x; have hx : Keeps s0 (by with_reducible apply x) := ?_; clear_value x; revert x; intro _ _; rotate_left; subst x)
    | (extract_lets +onlyGivenNames x; clear_value x; revert x; intro _)
    | with_reducible apply KeepsA.next
    | with_reducible apply KeepsA.ite
    | with_reducible apply Keeps.ite
    | with_reducible apply State.enterSender_keeps
    | with_reducible apply State.floodTimer_keeps
    | with_reducible apply State.dropMessage_keeps
    | with_reducible apply State.insertSeen_keeps
    | with_reducible apply State.setSeen_keeps
    | with_reducible apply State.consumeCtx_keeps
    | with_reducible apply State.stampNs_keeps
    | with_reducible apply State.countKeyLate_keeps
    | with_reducible apply State.ctxToRec_keeps
    | with_reducible apply State.settleRec_keeps
    | with_reducible apply State.sink_keeps
    | with_reducible apply State.ledIn_keeps
    | with_reducible apply State.evt_keeps
    | with_reducible apply State.draw_keeps
    | with_reducible apply State.bumpSat_keeps
    | simp -zeta only [Keeps.mk_iff]
    | split

theorem State.relayNow_keeps {s0 : State} (s : State) (e : SeenEntry) (h : Keeps s0 s) :
    Keeps s0 (State.relayNow s e) := by
  unfold State.relayNow
  repeat' first
    | with_reducible assumption
    | (extract_lets +onlyGivenNames x; have hx : Keeps s0 (by with_reducible apply x) := ?_; clear_value x; revert x; intro _ _; rotate_left; subst x)
    | with_reducible apply Keeps.ite
    | with_reducible apply State.sendMessage_keeps
    | with_reducible apply State.dropMessage_keeps
    | with_reducible apply State.setSeen_keeps
    | with_reducible apply State.evt_keeps
    | with_reducible apply State.bumpSat_keeps

theorem execFloodCacheExpire_keeps {s0 : State} (origin : BitVec 14) (seq : BitVec 16) (s : State) (h : Keeps s0 s) :
    KeepsA s0 (execFloodCacheExpire origin seq s) := by
  unfold execFloodCacheExpire
  repeat' first
    | with_reducible assumption
    | (extract_lets +onlyGivenNames x; have hx : Keeps s0 (by with_reducible apply x) := ?_; clear_value x; revert x; intro _ _; rotate_left; subst x)
    | with_reducible apply KeepsA.next
    | with_reducible apply KeepsA.ite
    | with_reducible apply Keeps.ite
    | with_reducible apply State.dropMessage_keeps
    | with_reducible apply State.setSeen_keeps
    | with_reducible apply State.advanceTo_keeps
    | split

theorem State.floodOwn_keeps {s0 : State} (s : State) (r : RunCmd) (origin : Nat) (seq : Nat) (kind : Nat) (ttl : Nat) (data : List Octet) (h : Keeps s0 s) :
    Keeps s0 (State.floodOwn s r origin seq kind ttl data) := by
  unfold State.floodOwn
  repeat' first
    | with_reducible assumption
    | (extract_lets +onlyGivenNames x; have hx : Keeps s0 (by with_reducible apply x) := ?_; clear_value x; revert x; intro _ _; rotate_left; subst x)
    | (extract_lets +onlyGivenNames x; clear_value x; revert x; intro _)
    | with_reducible apply State.sendMessage_keeps
    | with_reducible apply State.insertSeen_keeps
    | with_reducible apply State.startRun_keeps
    | with_reducible apply State.ledIn_keeps

theorem State.takeSeq_keeps {s0 : State} (s : State) (h : Keeps s0 s) :
    Keeps s0 (State.takeSeq s).1 := by
  unfold State.takeSeq
  repeat' first
    | with_reducible assumption
    | with_reducible apply State.bump_keeps

theorem execOriginate_keeps {s0 : State} (m : Master) (tag : BitVec 8) (s : State) (h : Keeps s0 s) :
    KeepsA s0 (execOriginate m tag s) := by
  unfold execOriginate
  repeat' first
    | with_reducible assumption
    | intro _
    | (extract_lets +onlyGivenNames x; clear_value x; revert x; intro _)
    | with_reducible apply KeepsA.next
    | with_reducible apply Keeps.ite
    | with_reducible apply State.takeSeq_keeps
    | with_reducible apply State.floodOwn_keeps
    | with_reducible apply State.hwDrain_keeps
    | with_reducible apply State.onCommand_keeps
    | with_reducible apply State.done_keeps

theorem execInject_keeps {s0 : State} (m : Master) (tag : BitVec 8) (s : State) (h : Keeps s0 s) :
    KeepsA s0 (execInject m tag s) := by
  unfold execInject
  repeat' first
    | with_reducible assumption
    | intro _
    | (extract_lets +onlyGivenNames x; clear_value x; revert x; intro _)
    | with_reducible apply KeepsA.next
    | with_reducible apply Keeps.ite
    | with_reducible apply State.floodOwn_keeps
    | with_reducible apply State.hwDrain_keeps
    | with_reducible apply State.onCommand_keeps
    | with_reducible apply State.done_keeps

theorem State.distBlock_keeps {s0 : State} (s : State) (r : RunCmd) (b : Nat) (h : Keeps s0 s) :
    Keeps s0 (State.distBlock s r b) := by
  unfold State.distBlock
  repeat' first
    | with_reducible assumption
    | with_reducible apply Keeps.ite
    | with_reducible apply State.takeSeq_keeps
    | with_reducible apply State.floodTimer_keeps
    | with_reducible apply State.sendMessage_keeps
    | with_reducible apply State.insertSeen_keeps
    | with_reducible apply State.startRun_keeps
    | with_reducible apply State.done_keeps
    | with_reducible apply State.ledIn_keeps
    | with_reducible apply State.evt_keeps
    | with_reducible apply State.put_keeps

theorem execDistStart_keeps {s0 : State} (m : Master) (tag : BitVec 8) (s : State) (h : Keeps s0 s) :
    KeepsA s0 (execDistStart m tag s) := by
  unfold execDistStart
  repeat' first
    | with_reducible assumption
    | intro _
    | (extract_lets +onlyGivenNames x; clear_value x; revert x; intro _)
    | with_reducible apply KeepsA.next
    | with_reducible apply Keeps.ite
    | with_reducible apply State.distBlock_keeps
    | with_reducible apply State.onCommand_keeps
    | with_reducible apply State.done_keeps

theorem State.floodTask_keeps {s0 : State} (s : State) (id : Nat) (it : Item) (h : Keeps s0 s) :
    Keeps s0 (State.floodTask s id it) := by
  unfold State.floodTask
  repeat' first
    | with_reducible assumption
    | (extract_lets +onlyGivenNames x; have hx : Keeps s0 (by with_reducible apply x) := ?_; clear_value x; revert x; intro _ _; rotate_left; subst x)
    | with_reducible apply Keeps.ite
    | with_reducible apply State.distBlock_keeps
    | with_reducible apply State.relayNow_keeps
    | with_reducible apply State.finishItem_keeps
    | with_reducible apply State.endRelay_keeps
    | with_reducible apply State.sink_keeps
    | with_reducible apply State.draw_keeps
    | split

theorem State.floodTakes_keeps {s0 : State} (a0 : Nat) (s : State) (h : Keeps s0 s) :
    Keeps s0 (State.floodTakes a0 s) := by
  induction a0 generalizing s with
  | zero => exact h
  | succ n ih =>
    unfold State.floodTakes
    split
    · exact h
    · rename_i e
      exact ih _ (State.floodTask_keeps _ _ _ (Keeps.of_some e (State.takeReady_keeps _ _ h)))

theorem State.floodRun_keeps {s0 : State} (s : State) (h : Keeps s0 s) :
    Keeps s0 (State.floodRun s) := by
  unfold State.floodRun
  repeat' first
    | with_reducible assumption
    | with_reducible apply State.floodTakes_keeps

theorem State.timerDue_keeps {s0 : State} (s : State) (w4 : Nat) (gap : Nat) (h : Keeps s0 s) :
    Keeps s0 (State.timerDue s w4 gap) := by
  unfold State.timerDue
  repeat' first
    | with_reducible assumption
    | (extract_lets +onlyGivenNames x; have hx : Keeps s0 (by with_reducible apply x) := ?_; clear_value x; revert x; intro _ _; rotate_left; subst x)
    | with_reducible apply Keeps.ite
    | with_reducible apply State.floodRun_keeps
    | with_reducible apply State.grantBefore_keeps
    | with_reducible apply State.grantOrWait_keeps
    | with_reducible apply State.advanceTo_keeps
    | split

theorem State.dropGap_keeps {s0 : State} (s : State) (h : Keeps s0 s) :
    Keeps s0 (State.dropGap s) := by
  unfold State.dropGap
  repeat' first
    | with_reducible assumption
    | with_reducible apply State.finishItem_keeps
    | split

theorem execRelayDelayEnd_keeps {s0 : State} (origin : BitVec 14) (seq : BitVec 16) (s : State) (h : Keeps s0 s) :
    KeepsA s0 (execRelayDelayEnd origin seq s) := by
  unfold execRelayDelayEnd
  repeat' first
    | with_reducible assumption
    | with_reducible apply KeepsA.next
    | with_reducible apply State.timerDue_keeps

theorem execDistBlockGap_keeps {s0 : State} (s : State) (h : Keeps s0 s) :
    KeepsA s0 (execDistBlockGap s) := by
  unfold execDistBlockGap
  repeat' first
    | with_reducible assumption
    | with_reducible apply KeepsA.next
    | with_reducible apply KeepsA.ite
    | with_reducible apply State.timerDue_keeps
    | split

end Sys2Proof.Machine
end

