-- ==== Sys2Proof/Laws/KeepsPeel.lean ====
section
/-! SUPPORT. The operations of Machine/Peel.lean break nothing (`Keeps`). -/

set_option linter.unusedSimpArgs false

namespace Sys2Proof.Machine

theorem State.popNone_keeps {s0 : State} (s : State) (h : Keeps s0 s) :
    Keeps s0 (State.popNone s) := by
  unfold State.popNone
  repeat' first
    | with_reducible assumption
    | simp -zeta only [Keeps.mk_iff]

theorem State.postCells_keeps {s0 : State} (s : State) (p : Nat) (cell : Nat) (h : Keeps s0 s) :
    KeepsO s0 (State.postCells s p cell) := by
  unfold State.postCells
  repeat' first
    | with_reducible assumption
    | (extract_lets +onlyGivenNames x; clear_value x; revert x; intro _)
    | with_reducible exact KeepsO.none
    | with_reducible apply KeepsO.some
    | with_reducible apply KeepsO.ite
    | with_reducible apply State.ledOut_keeps
    | simp -zeta only [Keeps.mk_iff]
    | split

theorem State.postRes_keeps {s0 : State} (s : State) (m : Master) (c : Code) (id : Nat) (h : Keeps s0 s) :
    Keeps s0 (State.postRes s m c id) := by
  unfold State.postRes
  repeat' first
    | with_reducible assumption
    | with_reducible apply State.put_keeps

theorem execPeelPost_keeps {s0 : State} (m : Master) (s : State) (h : Keeps s0 s) :
    KeepsA s0 (execPeelPost m s) := by
  unfold execPeelPost
  repeat' first
    | with_reducible assumption
    | (extract_lets +onlyGivenNames x; clear_value x; revert x; intro _)
    | with_reducible apply KeepsA.next
    | with_reducible apply KeepsA.ite
    | with_reducible apply State.postRes_keeps
    | with_reducible apply State.postCells_keeps
    | with_reducible apply State.acceptItem_keeps
    | with_reducible apply State.handCells_keeps
    | with_reducible apply State.offWrite_keeps
    | simp -zeta only [Keeps.mk_iff]
    | split
    | with_reducible refine Keeps.of_some (by assumption) ?_

theorem execPeelDonePop_keeps {s0 : State} (m : Master) (s : State) (h : Keeps s0 s) :
    KeepsA s0 (execPeelDonePop m s) := by
  unfold execPeelDonePop
  repeat' first
    | with_reducible assumption
    | intro _
    | (extract_lets +onlyGivenNames x; have hx : Keeps s0 (by with_reducible apply x) := ?_; clear_value x; revert x; intro _ _; rotate_left; subst x)
    | (extract_lets +onlyGivenNames x; clear_value x; revert x; intro _)
    | with_reducible apply KeepsA.next
    | with_reducible apply KeepsA.ite
    | with_reducible apply State.popNone_keeps
    | with_reducible apply State.put_keeps
    | with_reducible apply State.setWord_keeps
    | with_reducible apply Keeps.foldl
    | simp -zeta only [Keeps.mk_iff]
    | split

theorem State.afterGrant_keeps {s0 : State} (s : State) (id : Nat) (it : Item) (h : Keeps s0 s) :
    Keeps s0 (State.afterGrant s id it) := by
  unfold State.afterGrant
  repeat' first
    | with_reducible assumption
    | with_reducible apply Keeps.ite
    | with_reducible apply State.txnDrain_keeps
    | with_reducible apply State.hwDrain_keeps
    | with_reducible apply State.grantFlow_keeps
    | split

theorem execItemDue_keeps {s0 : State} (k : Fin 11) (s : State) (h : Keeps s0 s) :
    KeepsA s0 (execItemDue k s) := by
  unfold execItemDue
  repeat' first
    | with_reducible assumption
    | (extract_lets +onlyGivenNames x; have hx : Keeps s0 (by with_reducible apply x) := ?_; clear_value x; revert x; intro _ _; rotate_left; subst x)
    | with_reducible apply KeepsA.next
    | with_reducible apply KeepsA.ite
    | with_reducible apply State.afterGrant_keeps
    | with_reducible apply State.floodRun_keeps
    | with_reducible apply State.grantBefore_keeps
    | with_reducible apply State.grantOrWait_keeps
    | with_reducible apply State.setItem_keeps
    | with_reducible apply State.advanceTo_keeps
    | split

theorem execParkDue_keeps {s0 : State} (k : Fin 11) (s : State) (h : Keeps s0 s) :
    KeepsA s0 (execParkDue k s) := by
  unfold execParkDue
  repeat' first
    | with_reducible assumption
    | (extract_lets +onlyGivenNames x; have hx : Keeps s0 (by with_reducible apply x) := ?_; clear_value x; revert x; intro _ _; rotate_left; subst x)
    | with_reducible apply KeepsA.next
    | with_reducible apply KeepsA.ite
    | with_reducible apply State.afterGrant_keeps
    | with_reducible apply State.grantBefore_keeps
    | with_reducible apply State.grantOrWait_keeps
    | with_reducible apply State.advanceTo_keeps
    | split

theorem State.unblock_keeps {s0 : State} (s : State) (h : Keeps s0 s) :
    Keeps s0 (State.unblock s) := by
  unfold State.unblock
  repeat' first
    | with_reducible assumption
    | (extract_lets +onlyGivenNames x; clear_value x; revert x; intro _)
    | simp -zeta only [Keeps.mk_iff]

theorem execGrantAfterRoom_keeps {s0 : State} (k : Fin 10) (s : State) (h : Keeps s0 s) :
    KeepsA s0 (execGrantAfterRoom k s) := by
  unfold execGrantAfterRoom
  repeat' first
    | with_reducible assumption
    | (extract_lets +onlyGivenNames x; clear_value x; revert x; intro _)
    | with_reducible apply KeepsA.next
    | with_reducible apply KeepsA.ite
    | with_reducible apply State.regrant_keeps
    | simp -zeta only [Keeps.mk_iff]

theorem execPeelCorePop_keeps {s0 : State} (m : Master) (s : State) (h : Keeps s0 s) :
    KeepsA s0 (execPeelCorePop m s) := by
  unfold execPeelCorePop
  repeat' first
    | with_reducible assumption
    | intro _
    | (extract_lets +onlyGivenNames x; have hx : Keeps s0 (by with_reducible apply x) := ?_; clear_value x; revert x; intro _ _; rotate_left; subst x)
    | with_reducible apply KeepsA.next
    | with_reducible apply KeepsA.ite
    | with_reducible exact KeepsO.none
    | with_reducible apply State.popNone_keeps
    | with_reducible apply State.takeReady_keeps
    | with_reducible apply State.setItem_keeps
    | with_reducible apply State.setWord_keeps
    | with_reducible apply Keeps.foldl
    | simp -zeta only [Keeps.mk_iff]
    | split
    | with_reducible refine Keeps.of_some (by assumption) ?_

theorem execPeelFinish_keeps {s0 : State} (m : Master) (v : BitVec 32) (s : State) (h : Keeps s0 s) :
    KeepsA s0 (execPeelFinish m v s) := by
  unfold execPeelFinish
  repeat' first
    | with_reducible assumption
    | (extract_lets +onlyGivenNames x; clear_value x; revert x; intro _)
    | with_reducible apply KeepsA.next
    | with_reducible apply KeepsA.ite
    | with_reducible apply State.busWrite_keeps
    | with_reducible apply State.finishItem_keeps
    | with_reducible apply State.put_keeps
    | split
    | with_reducible refine Keeps.of_pair (by assumption) ?_

theorem execTaskTimeout_keeps {s0 : State} (id : Nat) (s : State) (h : Keeps s0 s) :
    KeepsA s0 (execTaskTimeout id s) := by
  unfold execTaskTimeout
  repeat' first
    | with_reducible assumption
    | with_reducible apply KeepsA.next
    | with_reducible apply KeepsA.ite
    | with_reducible apply State.finishItem_keeps
    | with_reducible apply State.evt_keeps
    | with_reducible apply State.bumpSat_keeps
    | split

theorem execPeelPauseWrite_keeps {s0 : State} (m : Master) (v : BitVec 32) (s : State) (h : Keeps s0 s) :
    KeepsA s0 (execPeelPauseWrite m v s) := by
  unfold execPeelPauseWrite
  repeat' first
    | with_reducible assumption
    | with_reducible apply KeepsA.next
    | with_reducible apply State.busWrite_keeps
    | with_reducible apply State.regrant_keeps
    | split
    | with_reducible refine Keeps.of_pair (by assumption) ?_

theorem State.inlineCancelled_keeps {s0 : State} (s : State) (id : Nat) (h : Keeps s0 s) :
    Keeps s0 (State.inlineCancelled s id) := by
  unfold State.inlineCancelled
  repeat' first
    | with_reducible assumption
    | intro _
    | (extract_lets +onlyGivenNames x; have hx : Keeps s0 (by with_reducible apply x) := ?_; clear_value x; revert x; intro _ _; rotate_left; subst x)
    | (extract_lets +onlyGivenNames x; have hx : KeepsO s0 (by with_reducible apply x) := ?_; clear_value x; revert x; intro _ _; rotate_left; subst x)
    | (extract_lets +onlyGivenNames x; clear_value x; revert x; intro _)
    | with_reducible apply KeepsA.next
    | with_reducible apply KeepsA.ite
    | with_reducible apply Keeps.ite
    | with_reducible exact KeepsO.none
    | with_reducible apply KeepsO.some
    | with_reducible apply KeepsO.ite
    | with_reducible exact KeepsOA.none
    | with_reducible apply KeepsOA.some
    | with_reducible apply KeepsOA.ite
    | with_reducible apply State.dropRec_keeps
    | with_reducible apply State.done_keeps
    | with_reducible apply Keeps.foldl
    | with_reducible apply Keeps.foldl_fst
    | simp -zeta only [Keeps.mk_iff]
    | with_reducible rfl
    | split
    | with_reducible exact Keeps.of_pair (by assumption) (by assumption)
    | with_reducible refine Keeps.of_pair (by assumption) ?_
    | with_reducible refine Keeps.of_pair' (by assumption) ?_
    | with_reducible refine Keeps.of_some (by assumption) ?_
    | with_reducible refine Keeps.of_someA (by assumption) ?_
    | with_reducible exact Keeps.of_someO (by assumption)
    | with_reducible apply KeepsOA.getD
    | simp only [StarterSt.storeNow_lc, StarterSt.storeNow_off, StarterSt.commitUpdate_lc, StarterSt.commitUpdate_off, StarterSt.beginUpdate_lc, StarterSt.beginUpdate_off, StarterSt.commitAll_lc, StarterSt.commitAll_off]
    | with_reducible contradiction
    | dsimp -zeta only

theorem execCancel_keeps {s0 : State} (m : Master) (tag : BitVec 8) (s : State) (h : Keeps s0 s) :
    KeepsA s0 (execCancel m tag s) := by
  unfold execCancel
  repeat' first
    | with_reducible assumption
    | intro _
    | (extract_lets +onlyGivenNames x; have hx : Keeps s0 (by with_reducible apply x) := ?_; clear_value x; revert x; intro _ _; rotate_left; subst x)
    | (extract_lets +onlyGivenNames x; have hx : KeepsO s0 (by with_reducible apply x) := ?_; clear_value x; revert x; intro _ _; rotate_left; subst x)
    | (extract_lets +onlyGivenNames x; clear_value x; revert x; intro _)
    | with_reducible apply KeepsA.next
    | with_reducible apply KeepsA.ite
    | with_reducible apply Keeps.ite
    | with_reducible exact KeepsO.none
    | with_reducible apply KeepsO.some
    | with_reducible apply KeepsO.ite
    | with_reducible exact KeepsOA.none
    | with_reducible apply KeepsOA.some
    | with_reducible apply KeepsOA.ite
    | with_reducible apply State.inlineCancelled_keeps
    | with_reducible apply State.unblock_keeps
    | with_reducible apply State.finishItem_keeps
    | with_reducible apply State.onCommand_keeps
    | with_reducible apply State.done_keeps
    | with_reducible apply Keeps.foldl
    | with_reducible apply Keeps.foldl_fst
    | simp -zeta only [Keeps.mk_iff]
    | with_reducible rfl
    | split
    | with_reducible exact Keeps.of_pair (by assumption) (by assumption)
    | with_reducible refine Keeps.of_pair (by assumption) ?_
    | with_reducible refine Keeps.of_pair' (by assumption) ?_
    | with_reducible refine Keeps.of_some (by assumption) ?_
    | with_reducible refine Keeps.of_someA (by assumption) ?_
    | with_reducible exact Keeps.of_someO (by assumption)
    | with_reducible apply KeepsOA.getD
    | simp only [StarterSt.storeNow_lc, StarterSt.storeNow_off, StarterSt.commitUpdate_lc, StarterSt.commitUpdate_off, StarterSt.beginUpdate_lc, StarterSt.beginUpdate_off, StarterSt.commitAll_lc, StarterSt.commitAll_off]
    | with_reducible contradiction
    | dsimp -zeta only

theorem execFlowRead_keeps {s0 : State} (xm : Master) (tag : BitVec 8) (s : State) (h : Keeps s0 s) :
    KeepsA s0 (execFlowRead xm tag s) := by
  unfold execFlowRead
  repeat' first
    | with_reducible assumption
    | intro _
    | (extract_lets +onlyGivenNames x; clear_value x; revert x; intro _)
    | with_reducible apply KeepsA.next
    | with_reducible apply Keeps.ite
    | with_reducible apply State.onCommand_keeps
    | with_reducible apply State.done_keeps
    | with_reducible apply State.complete_keeps

theorem State.cancelFlow_keeps {s0 : State} (s : State) (f : Nat) (h : Keeps s0 s) :
    Keeps s0 (State.cancelFlow s f).1 := by
  unfold State.cancelFlow
  repeat' first
    | with_reducible assumption
    | intro _
    | (extract_lets +onlyGivenNames x; have hx : Keeps s0 (by with_reducible apply x) := ?_; clear_value x; revert x; intro _ _; rotate_left; subst x)
    | (extract_lets +onlyGivenNames x; have hx : KeepsO s0 (by with_reducible apply x) := ?_; clear_value x; revert x; intro _ _; rotate_left; subst x)
    | (extract_lets +onlyGivenNames x; clear_value x; revert x; intro _)
    | with_reducible apply KeepsA.next
    | with_reducible apply KeepsA.ite
    | with_reducible apply Keeps.ite
    | with_reducible exact KeepsO.none
    | with_reducible apply KeepsO.some
    | with_reducible apply KeepsO.ite
    | with_reducible exact KeepsOA.none
    | with_reducible apply KeepsOA.some
    | with_reducible apply KeepsOA.ite
    | with_reducible apply State.inlineCancelled_keeps
    | with_reducible apply State.unblock_keeps
    | with_reducible apply State.completeItem_keeps
    | with_reducible apply Keeps.foldl
    | with_reducible apply Keeps.foldl_fst
    | simp -zeta only [Keeps.mk_iff]
    | with_reducible rfl
    | split
    | with_reducible exact Keeps.of_pair (by assumption) (by assumption)
    | with_reducible refine Keeps.of_pair (by assumption) ?_
    | with_reducible refine Keeps.of_pair' (by assumption) ?_
    | with_reducible refine Keeps.of_some (by assumption) ?_
    | with_reducible refine Keeps.of_someA (by assumption) ?_
    | with_reducible exact Keeps.of_someO (by assumption)
    | with_reducible apply KeepsOA.getD
    | simp only [StarterSt.storeNow_lc, StarterSt.storeNow_off, StarterSt.commitUpdate_lc, StarterSt.commitUpdate_off, StarterSt.beginUpdate_lc, StarterSt.beginUpdate_off, StarterSt.commitAll_lc, StarterSt.commitAll_off]
    | with_reducible contradiction
    | dsimp -zeta only

theorem execFlowCancel_keeps {s0 : State} (xm : Master) (tag : BitVec 8) (s : State) (h : Keeps s0 s) :
    KeepsA s0 (execFlowCancel xm tag s) := by
  unfold execFlowCancel
  repeat' first
    | with_reducible assumption
    | intro _
    | (extract_lets +onlyGivenNames x; clear_value x; revert x; intro _)
    | with_reducible apply KeepsA.next
    | with_reducible apply Keeps.ite
    | with_reducible apply State.cancelFlow_keeps
    | with_reducible apply State.txnDrain_keeps
    | with_reducible apply State.hwDrain_keeps
    | with_reducible apply State.onCommand_keeps
    | with_reducible apply State.done_keeps
    | with_reducible apply State.complete_keeps
    | with_reducible apply State.put_keeps

theorem execListDump_keeps {s0 : State} (m : Master) (tag : BitVec 8) (unpaced : Bool) (s : State) (h : Keeps s0 s) :
    KeepsA s0 (execListDump m tag unpaced s) := by
  unfold execListDump
  repeat' first
    | with_reducible assumption
    | intro _
    | (extract_lets +onlyGivenNames x; clear_value x; revert x; intro _)
    | with_reducible apply KeepsA.next
    | with_reducible apply Keeps.ite
    | with_reducible apply State.startLong_keeps
    | with_reducible apply State.onCommand_keeps
    | with_reducible apply State.done_keeps

theorem State.peelStepped_keeps {s0 : State} (s : State) (old : Nat) (h : Keeps s0 s) :
    Keeps s0 (State.peelStepped s old) := by
  unfold State.peelStepped
  repeat' first
    | with_reducible assumption
    | intro _
    | (extract_lets +onlyGivenNames x; have hx : Keeps s0 (by with_reducible apply x) := ?_; clear_value x; revert x; intro _ _; rotate_left; subst x)
    | (extract_lets +onlyGivenNames x; clear_value x; revert x; intro _)
    | with_reducible apply Keeps.ite
    | with_reducible apply State.aimJob_keeps
    | with_reducible apply State.regrant_keeps
    | with_reducible apply State.setItem_keeps
    | with_reducible apply State.evt_keeps
    | with_reducible apply State.bumpSat_keeps
    | with_reducible apply Keeps.foldl

end Sys2Proof.Machine
end

