-- ==== Sys2Proof/Laws/KeepsDir.lean ====
section
/-! SUPPORT. The operations of Machine/Dir.lean break nothing (`Keeps`). -/

set_option linter.unusedSimpArgs false

namespace Sys2Proof.Machine

theorem State.returnNode_keeps {s0 : State} (s : State) (e : NodeEntry) (h : Keeps s0 s) :
    Keeps s0 (State.returnNode s e) := by
  unfold State.returnNode
  repeat' first
    | with_reducible assumption
    | intro _
    | with_reducible apply State.setWord_keeps
    | with_reducible apply Keeps.foldl

theorem execDirInsert_keeps {s0 : State} (xm : Master) (tag : BitVec 8) (s : State) (h : Keeps s0 s) :
    KeepsA s0 (execDirInsert xm tag s) := by
  unfold execDirInsert
  repeat' first
    | with_reducible assumption
    | intro _
    | (extract_lets +onlyGivenNames x; have hx : ∀ y, Keeps s0 y → Keeps s0 (by with_reducible exact x y) := ?_; clear_value x; revert x; intro _ hf0; rotate_left; subst x; dsimp -zeta only)
    | with_reducible apply hf0
    | (extract_lets +onlyGivenNames x; have hx : Keeps s0 (by with_reducible apply x) := ?_; clear_value x; revert x; intro _ _; rotate_left; subst x)
    | (extract_lets +onlyGivenNames x; clear_value x; revert x; intro _)
    | with_reducible apply KeepsA.next
    | with_reducible apply Keeps.ite
    | with_reducible apply State.indexInsert_keeps
    | with_reducible apply State.setNode_keeps
    | with_reducible apply State.onCommand_keeps
    | with_reducible apply State.done_keeps
    | with_reducible apply State.complete_keeps
    | with_reducible apply State.evt_keeps
    | with_reducible apply State.bumpSat_keeps
    | with_reducible apply State.put_keeps
    | split
    | with_reducible refine Keeps.of_some (by assumption) ?_

theorem execDirDelete_keeps {s0 : State} (m : Master) (tag : BitVec 8) (s : State) (h : Keeps s0 s) :
    KeepsA s0 (execDirDelete m tag s) := by
  unfold execDirDelete
  repeat' first
    | with_reducible assumption
    | intro _
    | (extract_lets +onlyGivenNames x; clear_value x; revert x; intro _)
    | with_reducible apply KeepsA.next
    | with_reducible apply Keeps.ite
    | with_reducible apply State.cancelFlow_keeps
    | with_reducible apply State.txnDrain_keeps
    | with_reducible apply State.dirPost_keeps
    | with_reducible apply State.hwDrain_keeps
    | with_reducible apply State.onCommand_keeps
    | with_reducible apply State.startRun_keeps
    | with_reducible apply State.done_keeps

theorem execDirUpdate_keeps {s0 : State} (m : Master) (tag : BitVec 8) (s : State) (h : Keeps s0 s) :
    KeepsA s0 (execDirUpdate m tag s) := by
  unfold execDirUpdate
  repeat' first
    | with_reducible assumption
    | intro _
    | (extract_lets +onlyGivenNames x; clear_value x; revert x; intro _)
    | with_reducible apply KeepsA.next
    | with_reducible apply Keeps.ite
    | with_reducible apply State.dirPost_keeps
    | with_reducible apply State.onCommand_keeps
    | with_reducible apply State.startRun_keeps
    | with_reducible apply State.done_keeps

theorem State.dropDirItem_keeps {s0 : State} (s : State) (c : Code) (h : Keeps s0 s) :
    Keeps s0 (State.dropDirItem s c) := by
  unfold State.dropDirItem
  repeat' first
    | with_reducible assumption
    | (extract_lets +onlyGivenNames x; have hx : Keeps s0 (by with_reducible apply x) := ?_; clear_value x; revert x; intro _ _; rotate_left; subst x)
    | (extract_lets +onlyGivenNames x; clear_value x; revert x; intro _)
    | with_reducible apply State.finishItem_keeps
    | simp -zeta only [Keeps.mk_iff]
    | split

theorem execDirFlowGranted_keeps {s0 : State} (s : State) (h : Keeps s0 s) :
    KeepsA s0 (execDirFlowGranted s) := by
  unfold execDirFlowGranted
  repeat' first
    | with_reducible assumption
    | (extract_lets +onlyGivenNames x; have hx : Keeps s0 (by with_reducible apply x) := ?_; clear_value x; revert x; intro _ _; rotate_left; subst x)
    | (extract_lets +onlyGivenNames x; clear_value x; revert x; intro _)
    | with_reducible apply KeepsA.next
    | with_reducible apply KeepsA.ite
    | with_reducible apply State.dropDirItem_keeps
    | with_reducible apply State.indexRemove_keeps
    | with_reducible apply State.clearNode_keeps
    | with_reducible apply State.setNode_keeps
    | with_reducible apply State.done_keeps
    | split

theorem execDirFlowTimeout_keeps {s0 : State} (s : State) (h : Keeps s0 s) :
    KeepsA s0 (execDirFlowTimeout s) := by
  unfold execDirFlowTimeout
  repeat' first
    | with_reducible assumption
    | (extract_lets +onlyGivenNames x; clear_value x; revert x; intro _)
    | with_reducible apply KeepsA.next
    | with_reducible apply KeepsA.ite
    | with_reducible apply State.dropDirItem_keeps
    | with_reducible apply State.done_keeps
    | with_reducible apply State.evt_keeps

theorem State.dirFenced_keeps {s0 : State} (s : State) (h : Keeps s0 s) :
    Keeps s0 (State.dirFenced s) := by
  unfold State.dirFenced
  repeat' first
    | with_reducible assumption
    | with_reducible apply Keeps.ite
    | with_reducible apply State.dropDirItem_keeps
    | with_reducible apply State.done_keeps

theorem execDirLookup_keeps {s0 : State} (m : Master) (tag : BitVec 8) (moves : Nat) (s : State) (h : Keeps s0 s) :
    KeepsA s0 (execDirLookup m tag moves s) := by
  unfold execDirLookup
  repeat' first
    | with_reducible assumption
    | intro _
    | with_reducible apply KeepsA.next
    | with_reducible apply Keeps.ite
    | with_reducible apply State.returnNode_keeps
    | with_reducible apply State.lookupEui_keeps
    | with_reducible apply State.cacheRows_keeps
    | with_reducible apply State.onCommand_keeps
    | with_reducible apply State.done_keeps
    | with_reducible apply State.complete_keeps
    | split
    | with_reducible refine Keeps.of_pair (by assumption) ?_

theorem execDirSearch_keeps {s0 : State} (m : Master) (tag : BitVec 8) (unpaced : Bool) (s : State) (h : Keeps s0 s) :
    KeepsA s0 (execDirSearch m tag unpaced s) := by
  unfold execDirSearch
  repeat' first
    | with_reducible assumption
    | intro _
    | (extract_lets +onlyGivenNames x; clear_value x; revert x; intro _)
    | with_reducible apply KeepsA.next
    | with_reducible apply Keeps.ite
    | with_reducible apply State.startLong_keeps
    | with_reducible apply State.onCommand_keeps
    | with_reducible apply State.done_keeps

theorem execDirNext_keeps {s0 : State} (xm : Master) (tag : BitVec 8) (s : State) (h : Keeps s0 s) :
    KeepsA s0 (execDirNext xm tag s) := by
  unfold execDirNext
  repeat' first
    | with_reducible assumption
    | intro _
    | with_reducible apply KeepsA.next
    | with_reducible apply State.returnNode_keeps
    | with_reducible apply State.onCommand_keeps
    | with_reducible apply State.done_keeps
    | with_reducible apply State.complete_keeps
    | split

theorem execDirFlushPort_keeps {s0 : State} (xm : Master) (tag : BitVec 8) (s : State) (h : Keeps s0 s) :
    KeepsA s0 (execDirFlushPort xm tag s) := by
  unfold execDirFlushPort
  repeat' first
    | with_reducible assumption
    | intro _
    | with_reducible apply KeepsA.next
    | with_reducible apply State.onCommand_keeps
    | with_reducible apply State.done_keeps

end Sys2Proof.Machine
end

