-- ==== Sys2Proof/Laws/KeepsImageOps.lean ====
section
/-! SUPPORT. The operations of Machine/ImageOps.lean break nothing (`Keeps`). -/

set_option linter.unusedSimpArgs false

namespace Sys2Proof.Machine

theorem State.drive_keeps {s0 : State} (s : State) (l : List NorCmd) (h : Keeps s0 s) :
    Keeps s0 (State.drive s l) := by
  unfold State.drive
  repeat' first
    | with_reducible assumption
    | intro _
    | (extract_lets +onlyGivenNames x; have hx : Keeps s0 (by with_reducible apply x) := ?_; clear_value x; revert x; intro _ _; rotate_left; subst x)
    | (extract_lets +onlyGivenNames x; clear_value x; revert x; intro _)
    | with_reducible apply KeepsA.next
    | with_reducible apply KeepsA.ite
    | with_reducible apply Keeps.ite
    | with_reducible apply Keeps.foldl
    | with_reducible apply Keeps.foldl_fst
    | simp -zeta only [Keeps.mk_iff]
    | with_reducible rfl
    | split
    | with_reducible exact Keeps.of_pair (by assumption) (by assumption)
    | with_reducible refine Keeps.of_pair (by assumption) ?_
    | with_reducible refine Keeps.of_pair' (by assumption) ?_
    | with_reducible refine Keeps.of_some (by assumption) ?_
    | with_reducible refine Keeps.of_someA (by assumption) ?_
    | with_reducible exact Keeps.of_someO (by assumption)
    | with_reducible apply KeepsOA.getD
    | simp only [StarterSt.storeNow_lc, StarterSt.storeNow_off, StarterSt.commitUpdate_lc, StarterSt.commitUpdate_off, StarterSt.beginUpdate_lc, StarterSt.beginUpdate_off, StarterSt.commitAll_lc, StarterSt.commitAll_off]
    | with_reducible contradiction
    | dsimp -zeta only

theorem State.norErase_keeps {s0 : State} (s : State) (a : Nat) (h : Keeps s0 s) :
    Keeps s0 (State.norErase s a) := by
  unfold State.norErase
  repeat' first
    | with_reducible assumption
    | simp -zeta only [Keeps.mk_iff]

theorem State.norProgram_keeps {s0 : State} (s : State) (a : Nat) (v : Nat) (h : Keeps s0 s) :
    Keeps s0 (State.norProgram s a v) := by
  unfold State.norProgram
  repeat' first
    | with_reducible assumption
    | with_reducible apply Keeps.ite
    | with_reducible apply State.draw_keeps
    | simp -zeta only [Keeps.mk_iff]

end Sys2Proof.Machine
end

