-- ==== Sys2Proof/Laws/KeepsPort.lean ====
section
/-! SUPPORT. The operations of Machine/Port.lean break nothing (`Keeps`). -/

set_option linter.unusedSimpArgs false

namespace Sys2Proof.Machine

theorem State.tagErrors_keeps {s0 : State} (s : State) (fixed : Nat) (bad : Nat) (h : Keeps s0 s) :
    Keeps s0 (State.tagErrors s fixed bad) := by
  unfold State.tagErrors
  repeat' first
    | with_reducible assumption
    | intro _
    | (extract_lets +onlyGivenNames x; have hx : Keeps s0 (by with_reducible apply x) := ?_; clear_value x; revert x; intro _ _; rotate_left; subst x)
    | with_reducible apply State.allocCell_keeps
    | with_reducible apply State.evt_keeps
    | with_reducible apply State.bumpSat_keeps
    | with_reducible apply Keeps.foldl

theorem execPortFrameRx_keeps {s0 : State} (p : Fin 10) (xx : FrameFacts) (s : State) (h : Keeps s0 s) :
    KeepsA s0 (execPortFrameRx p xx s) := by
  unfold execPortFrameRx
  repeat' first
    | with_reducible assumption
    | intro _
    | (extract_lets +onlyGivenNames x; have hx : ∀ y y0 y1, Keeps s0 y → Keeps s0 (by with_reducible exact x y y0 y1) := ?_; clear_value x; revert x; intro _ hf2; rotate_left; subst x; dsimp -zeta only)
    | with_reducible apply hf2
    | (extract_lets +onlyGivenNames x; have hx : Keeps s0 (by with_reducible apply x) := ?_; clear_value x; revert x; intro _ _; rotate_left; subst x)
    | (extract_lets +onlyGivenNames x; clear_value x; revert x; intro _)
    | with_reducible apply KeepsA.next
    | with_reducible apply KeepsA.ite
    | with_reducible apply Keeps.ite
    | with_reducible apply State.tagErrors_keeps
    | with_reducible apply State.addFrame_keeps
    | with_reducible apply State.portDrop_keeps
    | with_reducible apply State.rxStats_keeps
    | with_reducible apply State.stat_keeps
    | with_reducible apply State.allocPacket_keeps
    | with_reducible apply State.arriveBfifo_keeps
    | with_reducible apply State.drainBfifo_keeps
    | with_reducible apply State.ledIn_keeps
    | with_reducible apply State.evt_keeps
    | with_reducible apply State.bumpSat_keeps
    | split
    | with_reducible refine Keeps.of_some (by assumption) ?_

theorem State.linkSignals_keeps {s0 : State} (s : State) (p : Nat) (h : Keeps s0 s) :
    Keeps s0 (State.linkSignals s p) := by
  unfold State.linkSignals
  repeat' first
    | with_reducible assumption
    | (extract_lets +onlyGivenNames x; clear_value x; revert x; intro _)
    | with_reducible apply State.putB_keeps

theorem State.cutFrames_keeps {s0 : State} (s : State) (p : Nat) (h : Keeps s0 s) :
    Keeps s0 (State.cutFrames s p) := by
  unfold State.cutFrames
  repeat' first
    | with_reducible assumption
    | intro _
    | (extract_lets +onlyGivenNames x; have hx : Keeps s0 (by with_reducible apply x) := ?_; clear_value x; revert x; intro _ _; rotate_left; subst x)
    | (extract_lets +onlyGivenNames x; clear_value x; revert x; intro _)
    | with_reducible apply Keeps.ite
    | with_reducible apply State.sendEnd_keeps
    | with_reducible apply State.endEgress_keeps
    | with_reducible apply State.settle_keeps
    | with_reducible apply State.setFrame_keeps
    | with_reducible apply State.portDrop_keeps
    | with_reducible apply State.ledOut_keeps
    | with_reducible apply State.ledIn_keeps
    | with_reducible apply Keeps.foldl
    | split

theorem State.declareDown_keeps {s0 : State} (s : State) (p : Nat) (cause : Nat) (h : Keeps s0 s) :
    Keeps s0 (State.declareDown s p cause) := by
  unfold State.declareDown
  repeat' first
    | with_reducible assumption
    | (extract_lets +onlyGivenNames x; have hx : Keeps s0 (by with_reducible apply x) := ?_; clear_value x; revert x; intro _ _; rotate_left; subst x)
    | with_reducible apply Keeps.ite
    | with_reducible apply State.cutFrames_keeps
    | with_reducible apply State.applySwitch_keeps
    | with_reducible apply State.stat_keeps
    | with_reducible apply State.evt_keeps
    | with_reducible apply State.bump_keeps
    | with_reducible apply State.put_keeps

theorem execFaultDecided_keeps {s0 : State} (p : Fin 10) (c : Fin 5) (s : State) (h : Keeps s0 s) :
    KeepsA s0 (execFaultDecided p c s) := by
  unfold execFaultDecided
  repeat' first
    | with_reducible assumption
    | (extract_lets +onlyGivenNames x; have hx : Keeps s0 (by with_reducible apply x) := ?_; clear_value x; revert x; intro _ _; rotate_left; subst x)
    | (extract_lets +onlyGivenNames x; clear_value x; revert x; intro _)
    | with_reducible apply KeepsA.next
    | with_reducible apply KeepsA.ite
    | with_reducible apply Keeps.ite
    | with_reducible apply State.linkSignals_keeps
    | with_reducible apply State.setPort_keeps
    | with_reducible apply State.put_keeps

theorem execLinkDown_keeps {s0 : State} (p : Fin 10) (s : State) (h : Keeps s0 s) :
    KeepsA s0 (execLinkDown p s) := by
  unfold execLinkDown
  repeat' first
    | with_reducible assumption
    | with_reducible apply KeepsA.next
    | with_reducible apply KeepsA.ite
    | with_reducible apply State.declareDown_keeps
    | split

theorem execFaultCleared_keeps {s0 : State} (p : Fin 10) (c : BitVec 3) (s : State) (h : Keeps s0 s) :
    KeepsA s0 (execFaultCleared p c s) := by
  unfold execFaultCleared
  repeat' first
    | with_reducible assumption
    | (extract_lets +onlyGivenNames x; have hx : Keeps s0 (by with_reducible apply x) := ?_; clear_value x; revert x; intro _ _; rotate_left; subst x)
    | (extract_lets +onlyGivenNames x; clear_value x; revert x; intro _)
    | with_reducible apply KeepsA.next
    | with_reducible apply KeepsA.ite
    | with_reducible apply Keeps.ite
    | with_reducible apply State.linkSignals_keeps
    | with_reducible apply State.setPort_keeps
    | with_reducible apply State.evt_keeps
    | with_reducible apply State.put_keeps

theorem execLinkUp_keeps {s0 : State} (p : Fin 10) (s : State) (h : Keeps s0 s) :
    KeepsA s0 (execLinkUp p s) := by
  unfold execLinkUp
  repeat' first
    | with_reducible assumption
    | (extract_lets +onlyGivenNames x; have hx : Keeps s0 (by with_reducible apply x) := ?_; clear_value x; revert x; intro _ _; rotate_left; subst x)
    | (extract_lets +onlyGivenNames x; clear_value x; revert x; intro _)
    | with_reducible apply KeepsA.next
    | with_reducible apply KeepsA.ite
    | with_reducible apply Keeps.ite
    | with_reducible apply State.linkSignals_keeps
    | with_reducible apply State.done_keeps
    | with_reducible apply State.evt_keeps
    | with_reducible apply State.put_keeps

theorem execDegradeInterval_keeps {s0 : State} (p : Fin 10) (n : Nat) (blocks : Nat) (unc : Nat) (ber : Nat) (s : State) (h : Keeps s0 s) :
    KeepsA s0 (execDegradeInterval p n blocks unc ber s) := by
  unfold execDegradeInterval
  repeat' first
    | with_reducible assumption
    | (extract_lets +onlyGivenNames x; have hx : Keeps s0 (by with_reducible apply x) := ?_; clear_value x; revert x; intro _ _; rotate_left; subst x)
    | (extract_lets +onlyGivenNames x; clear_value x; revert x; intro _)
    | with_reducible apply KeepsA.next
    | with_reducible apply KeepsA.ite
    | with_reducible apply Keeps.ite
    | with_reducible apply State.stat_keeps
    | with_reducible apply State.evtIf_keeps
    | with_reducible apply State.evt_keeps
    | with_reducible apply State.put_keeps

theorem State.retrain_keeps {s0 : State} (s : State) (p : Nat) (h : Keeps s0 s) :
    Keeps s0 (State.retrain s p) := by
  unfold State.retrain
  repeat' first
    | with_reducible assumption
    | (extract_lets +onlyGivenNames x; have hx : Keeps s0 (by with_reducible apply x) := ?_; clear_value x; revert x; intro _ _; rotate_left; subst x)
    | with_reducible apply Keeps.ite
    | with_reducible apply State.declareDown_keeps
    | with_reducible apply State.linkSignals_keeps
    | with_reducible apply State.setPort_keeps
    | with_reducible apply State.put_keeps

theorem execPortModeWrite_keeps {s0 : State} (m : Master) (p : Fin 10) (lane : Bool) (v : W32) (s : State) (h : Keeps s0 s) :
    KeepsA s0 (execPortModeWrite m p lane v s) := by
  unfold execPortModeWrite
  repeat' first
    | with_reducible assumption
    | (extract_lets +onlyGivenNames x; clear_value x; revert x; intro _)
    | with_reducible apply KeepsA.next
    | with_reducible apply State.retrain_keeps
    | with_reducible apply State.busWrite_keeps
    | split
    | with_reducible refine Keeps.of_pair (by assumption) ?_

theorem execRetrain_keeps {s0 : State} (m : Master) (p : Fin 10) (tag : BitVec 8) (s : State) (h : Keeps s0 s) :
    KeepsA s0 (execRetrain m p tag s) := by
  unfold execRetrain
  repeat' first
    | with_reducible assumption
    | intro _
    | (extract_lets +onlyGivenNames x; clear_value x; revert x; intro _)
    | with_reducible apply KeepsA.next
    | with_reducible apply State.retrain_keeps
    | with_reducible apply State.onCommand_keeps
    | with_reducible apply State.startRun_keeps

theorem execForceDown_keeps {s0 : State} (xm : Master) (p : Fin 10) (tag : BitVec 8) (s : State) (h : Keeps s0 s) :
    KeepsA s0 (execForceDown xm p tag s) := by
  unfold execForceDown
  repeat' first
    | with_reducible assumption
    | intro _
    | (extract_lets +onlyGivenNames x; have hx : Keeps s0 (by with_reducible apply x) := ?_; clear_value x; revert x; intro _ _; rotate_left; subst x)
    | (extract_lets +onlyGivenNames x; clear_value x; revert x; intro _)
    | with_reducible apply KeepsA.next
    | with_reducible apply Keeps.ite
    | with_reducible apply State.declareDown_keeps
    | with_reducible apply State.onCommand_keeps
    | with_reducible apply State.done_keeps
    | with_reducible apply State.putB_keeps
    | with_reducible apply State.put_keeps

theorem execEgressStart_keeps {s0 : State} (i : Nat) (e : BitVec 4) (under : Bool) (s : State) (h : Keeps s0 s) :
    KeepsA s0 (execEgressStart i e under s) := by
  unfold execEgressStart
  repeat' first
    | with_reducible assumption
    | (extract_lets +onlyGivenNames x; have hx : Keeps s0 (by with_reducible apply x) := ?_; clear_value x; revert x; intro _ _; rotate_left; subst x)
    | (extract_lets +onlyGivenNames x; clear_value x; revert x; intro _)
    | with_reducible apply KeepsA.next
    | with_reducible apply KeepsA.ite
    | with_reducible apply Keeps.ite
    | with_reducible apply State.autoSwitch_keeps
    | with_reducible apply State.deliverFrame_keeps
    | with_reducible apply State.sendEnd_keeps
    | with_reducible apply State.recordSent_keeps
    | with_reducible apply State.pushTstx_keeps
    | with_reducible apply State.endEgress_keeps
    | with_reducible apply State.settle_keeps
    | with_reducible apply State.setFrame_keeps
    | with_reducible apply State.portDrop_keeps
    | with_reducible apply State.ledOut_keeps
    | with_reducible apply State.ledIn_keeps
    | with_reducible apply State.evt_keeps
    | split

theorem execPortnTstxPop_keeps {s0 : State} (m : Master) (p : Fin 10) (s : State) (h : Keeps s0 s) :
    KeepsA s0 (execPortnTstxPop m p s) := by
  unfold execPortnTstxPop
  repeat' first
    | with_reducible assumption
    | intro _
    | (extract_lets +onlyGivenNames x; have hx : ∀ y y0 y1, Keeps s0 y → Keeps s0 (by with_reducible exact x y y0 y1) := ?_; clear_value x; revert x; intro _ hf2; rotate_left; subst x; dsimp -zeta only)
    | with_reducible apply hf2
    | (extract_lets +onlyGivenNames x; have hx : Keeps s0 (by with_reducible apply x) := ?_; clear_value x; revert x; intro _ _; rotate_left; subst x)
    | (extract_lets +onlyGivenNames x; clear_value x; revert x; intro _)
    | with_reducible apply KeepsA.next
    | with_reducible apply KeepsA.ite
    | with_reducible apply State.setPort_keeps
    | with_reducible apply State.put_keeps
    | simp -zeta only [Keeps.mk_iff]
    | split

end Sys2Proof.Machine
end

