-- ==== Sys2Proof/Laws/KeepsFwuOps.lean ====
section
/-! SUPPORT. The operations of Machine/FwuOps.lean break nothing (`Keeps`). -/

set_option linter.unusedSimpArgs false

namespace Sys2Proof.Machine

theorem State.setFwu_keeps {s0 : State} (s : State) (f : FwuSt → FwuSt) (h : Keeps s0 s) (hf : ∀ x, (f x).revoked = x.revoked) :
    Keeps s0 (State.setFwu s f) := Keeps.of_eq h rfl rfl rfl rfl (hf _) rfl rfl

theorem State.loadUnit_keeps {s0 : State} (s : State) (u : Nat) (h : Keeps s0 s) :
    Keeps s0 (State.loadUnit s u) := by
  unfold State.loadUnit
  repeat' first
    | with_reducible assumption
    | intro _
    | (extract_lets +onlyGivenNames x; have hx : ∀ c : Code, Keeps s0 (by with_reducible exact x c) := ?_; clear_value x; revert x; intro _ hc; rotate_left; subst x; dsimp -zeta only)
    | (extract_lets +onlyGivenNames x; have hx : ∀ c : Code, KeepsA s0 (by with_reducible exact x c) := ?_; clear_value x; revert x; intro _ hc; rotate_left; subst x; dsimp -zeta only)
    | (extract_lets +onlyGivenNames x; have hx : ∀ c : Cause, Keeps s0 (by with_reducible exact x c) := ?_; clear_value x; revert x; intro _ hc; rotate_left; subst x; dsimp -zeta only)
    | (extract_lets +onlyGivenNames x; have hx : ∀ c : Cause, KeepsA s0 (by with_reducible exact x c) := ?_; clear_value x; revert x; intro _ hc; rotate_left; subst x; dsimp -zeta only)
    | with_reducible apply hc
    | (extract_lets +onlyGivenNames x; have hx : ∀ y, Keeps s0 y → Keeps s0 (by with_reducible exact x y) := ?_; clear_value x; revert x; intro _ hf0; rotate_left; subst x; dsimp -zeta only)
    | (extract_lets +onlyGivenNames x; have hx : ∀ y, Keeps s0 y → KeepsA s0 (by with_reducible exact x y) := ?_; clear_value x; revert x; intro _ hf0; rotate_left; subst x; dsimp -zeta only)
    | with_reducible apply hf0
    | (extract_lets +onlyGivenNames x; have hx : ∀ y y0, Keeps s0 y → Keeps s0 (by with_reducible exact x y y0) := ?_; clear_value x; revert x; intro _ hf1; rotate_left; subst x; dsimp -zeta only)
    | (extract_lets +onlyGivenNames x; have hx : ∀ y y0, Keeps s0 y → KeepsA s0 (by with_reducible exact x y y0) := ?_; clear_value x; revert x; intro _ hf1; rotate_left; subst x; dsimp -zeta only)
    | with_reducible apply hf1
    | (extract_lets +onlyGivenNames x; have hx : ∀ y y0 y1, Keeps s0 y → Keeps s0 (by with_reducible exact x y y0 y1) := ?_; clear_value x; revert x; intro _ hf2; rotate_left; subst x; dsimp -zeta only)
    | (extract_lets +onlyGivenNames x; have hx : ∀ y y0 y1, Keeps s0 y → KeepsA s0 (by with_reducible exact x y y0 y1) := ?_; clear_value x; revert x; intro _ hf2; rotate_left; subst x; dsimp -zeta only)
    | with_reducible apply hf2
    | (extract_lets +onlyGivenNames x; have hx : ∀ y y0 y1 y2, Keeps s0 y → Keeps s0 (by with_reducible exact x y y0 y1 y2) := ?_; clear_value x; revert x; intro _ hf3; rotate_left; subst x; dsimp -zeta only)
    | (extract_lets +onlyGivenNames x; have hx : ∀ y y0 y1 y2, Keeps s0 y → KeepsA s0 (by with_reducible exact x y y0 y1 y2) := ?_; clear_value x; revert x; intro _ hf3; rotate_left; subst x; dsimp -zeta only)
    | with_reducible apply hf3
    | (extract_lets +onlyGivenNames x; have hx : Keeps s0 (by with_reducible apply x) := ?_; clear_value x; revert x; intro _ _; rotate_left; subst x)
    | (extract_lets +onlyGivenNames x; have hx : KeepsO s0 (by with_reducible apply x) := ?_; clear_value x; revert x; intro _ _; rotate_left; subst x)
    | (extract_lets +onlyGivenNames x; have hx : Keeps s0 (Prod.fst (by with_reducible apply x)) := ?_; clear_value x; revert x; intro _ _; rotate_left; subst x)
    | (extract_lets +onlyGivenNames x; have hx : Keeps s0 (Prod.snd (by with_reducible apply x)) := ?_; clear_value x; revert x; intro _ _; rotate_left; subst x)
    | (extract_lets +onlyGivenNames x; have hx : ProofSt := (by with_reducible apply x); clear hx; subst x)
    | (extract_lets +onlyGivenNames x; have hx : FwuSt := (by with_reducible apply x); clear hx; subst x)
    | (extract_lets +onlyGivenNames x; have hx : StarterSt := (by with_reducible apply x); clear hx; subst x)
    | (extract_lets +onlyGivenNames x; clear_value x; revert x; intro _)
    | with_reducible apply KeepsA.next
    | with_reducible apply KeepsA.ite
    | with_reducible apply Keeps.ite
    | with_reducible exact KeepsO.none
    | with_reducible apply KeepsO.some
    | with_reducible apply KeepsO.ite
    | with_reducible exact KeepsOA.none
    | with_reducible apply KeepsOA.some
    | with_reducible apply KeepsOA.ite
    | with_reducible apply State.setFwu_keeps
    | with_reducible apply State.drive_keeps
    | with_reducible apply State.put_keeps
    | with_reducible apply Keeps.foldl
    | with_reducible apply Keeps.foldl_fst
    | simp -zeta only [Keeps.mk_iff]
    | with_reducible rfl
    | split
    | with_reducible exact Keeps.of_pair (by assumption) (by assumption)
    | with_reducible refine Keeps.of_pair (by assumption) ?_
    | with_reducible refine Keeps.of_pair' (by assumption) ?_
    | with_reducible refine Keeps.of_some (by assumption) ?_
    | with_reducible refine Keeps.of_someA (by assumption) ?_
    | with_reducible exact Keeps.of_someO (by assumption)
    | with_reducible apply KeepsOA.getD
    | simp only [StarterSt.storeNow_lc, StarterSt.storeNow_off, StarterSt.commitUpdate_lc, StarterSt.commitUpdate_off, StarterSt.beginUpdate_lc, StarterSt.beginUpdate_off, StarterSt.commitAll_lc, StarterSt.commitAll_off]
    | with_reducible contradiction
    | dsimp -zeta only

theorem State.fallBack_keeps {s0 : State} (s : State) (cause : Nat) (h : Keeps s0 s) :
    Keeps s0 (State.fallBack s cause) := by
  unfold State.fallBack
  repeat' first
    | with_reducible assumption
    | intro _
    | with_reducible apply State.setFwu_keeps
    | simp -zeta only [Keeps.mk_iff]

theorem State.openWindow_keeps {s0 : State} (s : State) (h : Keeps s0 s) :
    Keeps s0 (State.openWindow s) := by
  unfold State.openWindow
  repeat' first
    | with_reducible assumption
    | intro _
    | with_reducible apply State.setFwu_keeps
    | simp -zeta only [Keeps.mk_iff]

theorem State.fwuReset_keeps {s0 : State} (s : State) (h : Keeps s0 s) :
    Keeps s0 (State.fwuReset s) := by
  unfold State.fwuReset
  repeat' first
    | with_reducible assumption
    | intro _
    | (extract_lets +onlyGivenNames x; have hx : FwuSt := (by with_reducible apply x); clear hx; subst x)
    | with_reducible apply State.setFwu_keeps
    | simp -zeta only [Keeps.mk_iff]
    | split

theorem State.bootTrial_keeps {s0 : State} (s : State) (h : Keeps s0 s) :
    Keeps s0 (State.bootTrial s) := by
  unfold State.bootTrial
  repeat' first
    | with_reducible assumption
    | intro _
    | with_reducible apply Keeps.ite
    | with_reducible apply State.fallBack_keeps
    | with_reducible apply State.setFwu_keeps
    | simp -zeta only [Keeps.mk_iff]

end Sys2Proof.Machine
end

