-- ==== Sys2Proof/Laws/KeepsSieveOps.lean ====
section
/-! SUPPORT. The operations of Machine/SieveOps.lean break nothing (`Keeps`). -/

set_option linter.unusedSimpArgs false

namespace Sys2Proof.Machine

theorem State.setPipe_keeps {s0 : State} (s : State) (e : Nat) (f : SieveSt → SieveSt) (h : Keeps s0 s) :
    Keeps s0 (State.setPipe s e f) := by
  unfold State.setPipe
  repeat' first
    | with_reducible assumption
    | simp -zeta only [Keeps.mk_iff]

theorem State.l2Write_keeps {s0 : State} (s : State) (e : Nat) (i : Nat) (xx : L2Entry) (h : Keeps s0 s) :
    Keeps s0 (State.l2Write s e i xx) := by
  unfold State.l2Write
  repeat' first
    | with_reducible assumption
    | with_reducible apply State.setPipe_keeps

theorem State.l2Remove_keeps {s0 : State} (s : State) (e : Nat) (i : Nat) (h : Keeps s0 s) :
    Keeps s0 (State.l2Remove s e i) := by
  unfold State.l2Remove
  repeat' first
    | with_reducible assumption
    | with_reducible apply State.setPipe_keeps

theorem State.notice_keeps {s0 : State} (s : State) (e : Nat) (xx : L2Entry) (kind : Nat) (old : Nat) (h : Keeps s0 s) :
    Keeps s0 (State.notice s e xx kind old) := by
  unfold State.notice
  repeat' first
    | with_reducible assumption
    | with_reducible apply Keeps.ite
    | with_reducible apply State.setPipe_keeps
    | with_reducible apply State.evt_keeps
    | with_reducible apply State.bumpSat_keeps

theorem State.spareFlush_keeps {s0 : State} (s : State) (e : Nat) (i : Nat) (h : Keeps s0 s) :
    Keeps s0 (State.spareFlush s e i) := by
  unfold State.spareFlush
  repeat' first
    | with_reducible assumption
    | intro _
    | with_reducible apply State.setBlk_keeps
    | simp -zeta only [Keeps.mk_iff]

theorem State.learn_keeps {s0 : State} (s : State) (e : Nat) (mac : BitVec 48) (fid : BitVec 12) (port : Nat) (h : Keeps s0 s) :
    Keeps s0 (State.learn s e mac fid port) := by
  unfold State.learn
  repeat' first
    | with_reducible assumption
    | (extract_lets +onlyGivenNames x; clear_value x; revert x; intro _)
    | with_reducible apply Keeps.ite
    | with_reducible apply State.spareFlush_keeps
    | with_reducible apply State.notice_keeps
    | with_reducible apply State.l2Write_keeps
    | with_reducible apply State.evt_keeps
    | with_reducible apply State.bumpSat_keeps
    | split

theorem State.movePrefix_keeps {s0 : State} (s : State) (src : Nat) (dst : Nat) (h : Keeps s0 s) :
    Keeps s0 (State.movePrefix s src dst) := by
  unfold State.movePrefix
  repeat' first
    | with_reducible assumption
    | simp -zeta only [Keeps.mk_iff]
    | split

theorem State.bringDown_keeps {s0 : State} (s : State) (t : Nat) (f : Nat) (a0 : Nat) (h : Keeps s0 s) :
    Keeps s0 (State.bringDown s t f a0).1 := by
  induction a0 generalizing s f with
  | zero => exact h
  | succ n ih =>
    unfold State.bringDown
    split
    · exact h
    · split
      · exact h
      · exact ih _ _ (State.movePrefix_keeps _ _ _ h)

theorem State.bringUp_keeps {s0 : State} (s : State) (t : Nat) (f : Nat) (a0 : Nat) (h : Keeps s0 s) :
    Keeps s0 (State.bringUp s t f a0).1 := by
  induction a0 generalizing s f with
  | zero => exact h
  | succ n ih =>
    unfold State.bringUp
    split
    · exact h
    · split
      · exact h
      · exact ih _ _ (State.movePrefix_keeps _ _ _ h)

theorem State.makeRoom_keeps {s0 : State} (s : State) (len : Nat) (h : Keeps s0 s) :
    KeepsO s0 (State.makeRoom s len) := by
  unfold State.makeRoom
  dsimp only
  split
  · exact .some h
  · split
    · refine .some ?_
      split
      · exact State.bringDown_keeps _ _ _ _ h
      · exact State.bringUp_keeps _ _ _ _ h
    · exact .some (State.bringDown_keeps _ _ _ _ h)
    · exact .some (State.bringUp_keeps _ _ _ _ h)
    · exact .none

end Sys2Proof.Machine
end

