-- ==== Sys2Proof/Laws/KeepsSieve.lean ====
section
/-! SUPPORT. The operations of Machine/Sieve.lean break nothing (`Keeps`). -/

set_option linter.unusedSimpArgs false

namespace Sys2Proof.Machine

theorem State.returnL2_keeps {s0 : State} (s : State) (e : Nat) (xx : L2Entry) (h : Keeps s0 s) :
    Keeps s0 (State.returnL2 s e xx) := by
  unfold State.returnL2
  repeat' first
    | with_reducible assumption
    | intro _
    | with_reducible apply State.setWord_keeps
    | with_reducible apply Keeps.foldl

theorem execL2Insert_keeps {s0 : State} (xm : Master) (e : Fin 2) (tag : BitVec 8) (s : State) (h : Keeps s0 s) :
    KeepsA s0 (execL2Insert xm e tag s) := by
  unfold execL2Insert
  repeat' first
    | with_reducible assumption
    | intro _
    | (extract_lets +onlyGivenNames x; clear_value x; revert x; intro _)
    | with_reducible apply KeepsA.next
    | with_reducible apply Keeps.ite
    | with_reducible apply State.l2Write_keeps
    | with_reducible apply State.onCommand_keeps
    | with_reducible apply State.done_keeps
    | with_reducible apply State.complete_keeps
    | split

theorem execL2Delete_keeps {s0 : State} (xm : Master) (e : Fin 2) (tag : BitVec 8) (s : State) (h : Keeps s0 s) :
    KeepsA s0 (execL2Delete xm e tag s) := by
  unfold execL2Delete
  repeat' first
    | with_reducible assumption
    | intro _
    | (extract_lets +onlyGivenNames x; clear_value x; revert x; intro _)
    | with_reducible apply KeepsA.next
    | with_reducible apply State.l2Remove_keeps
    | with_reducible apply State.onCommand_keeps
    | with_reducible apply State.done_keeps
    | split

theorem execL2Lookup_keeps {s0 : State} (xm : Master) (e : Fin 2) (tag : BitVec 8) (s : State) (h : Keeps s0 s) :
    KeepsA s0 (execL2Lookup xm e tag s) := by
  unfold execL2Lookup
  repeat' first
    | with_reducible assumption
    | intro _
    | (extract_lets +onlyGivenNames x; clear_value x; revert x; intro _)
    | with_reducible apply KeepsA.next
    | with_reducible apply State.returnL2_keeps
    | with_reducible apply State.onCommand_keeps
    | with_reducible apply State.done_keeps
    | with_reducible apply State.complete_keeps
    | split

theorem execL2Update_keeps {s0 : State} (xm : Master) (e : Fin 2) (tag : BitVec 8) (s : State) (h : Keeps s0 s) :
    KeepsA s0 (execL2Update xm e tag s) := by
  unfold execL2Update
  repeat' first
    | with_reducible assumption
    | intro _
    | (extract_lets +onlyGivenNames x; clear_value x; revert x; intro _)
    | with_reducible apply KeepsA.next
    | with_reducible apply Keeps.ite
    | with_reducible apply State.l2Write_keeps
    | with_reducible apply State.onCommand_keeps
    | with_reducible apply State.done_keeps
    | split

theorem execL2Search_keeps {s0 : State} (m : Master) (e : Fin 2) (tag : BitVec 8) (unpaced : Bool) (s : State) (h : Keeps s0 s) :
    KeepsA s0 (execL2Search m e tag unpaced s) := by
  unfold execL2Search
  repeat' first
    | with_reducible assumption
    | intro _
    | (extract_lets +onlyGivenNames x; clear_value x; revert x; intro _)
    | with_reducible apply KeepsA.next
    | with_reducible apply Keeps.ite
    | with_reducible apply State.startLong_keeps
    | with_reducible apply State.onCommand_keeps
    | with_reducible apply State.done_keeps

theorem execL2Next_keeps {s0 : State} (xm : Master) (e : Fin 2) (tag : BitVec 8) (s : State) (h : Keeps s0 s) :
    KeepsA s0 (execL2Next xm e tag s) := by
  unfold execL2Next
  repeat' first
    | with_reducible assumption
    | intro _
    | (extract_lets +onlyGivenNames x; clear_value x; revert x; intro _)
    | with_reducible apply KeepsA.next
    | with_reducible apply State.returnL2_keeps
    | with_reducible apply State.onCommand_keeps
    | with_reducible apply State.done_keeps
    | with_reducible apply State.complete_keeps
    | split

theorem State.flushPump_keeps {s0 : State} (e : Fin 2) (a0 : Nat) (s : State) (h : Keeps s0 s) :
    Keeps s0 (State.flushPump e a0 s) := by
  induction a0 generalizing s with
  | zero => exact h
  | succ n ih =>
    unfold State.flushPump
    extract_lets b
    split
    · exact h
    · split
      · exact State.complete_keeps _ _ _ _ _ _ _ (State.put_keeps _ _ _ h)
      · split
        · exact h
        · extract_lets p st hits rest t r
          have ht : Keeps s0 t := Keeps.foldl (fun s x hs => State.l2Remove_keeps s _ _ hs) h
          clear_value t
          split
          · exact ih _ (State.startRun_keeps _ _ _ ht)
          · exact ih _ (State.setBlk_keeps _ _ _ (State.publish_keeps _ _ _ _ ht) fun _ => rfl)

theorem execFlushPort_keeps {s0 : State} (m : Master) (e : Fin 2) (tag : BitVec 8) (unpaced : Bool) (s : State) (h : Keeps s0 s) :
    KeepsA s0 (execFlushPort m e tag unpaced s) := by
  unfold execFlushPort
  repeat' first
    | with_reducible assumption
    | intro _
    | (extract_lets +onlyGivenNames x; have hx : Keeps s0 (by with_reducible apply x) := ?_; clear_value x; revert x; intro _ _; rotate_left; subst x)
    | (extract_lets +onlyGivenNames x; clear_value x; revert x; intro _)
    | with_reducible apply KeepsA.next
    | with_reducible apply Keeps.ite
    | with_reducible apply State.flushPump_keeps
    | with_reducible apply State.l2Remove_keeps
    | with_reducible apply State.onCommand_keeps
    | with_reducible apply State.startRun_keeps
    | with_reducible apply State.complete_keeps
    | with_reducible apply State.put_keeps
    | with_reducible apply Keeps.foldl

theorem execPrefixInsert_keeps {s0 : State} (xm : Master) (tag : BitVec 8) (s : State) (h : Keeps s0 s) :
    KeepsA s0 (execPrefixInsert xm tag s) := by
  unfold execPrefixInsert
  repeat' first
    | with_reducible assumption
    | intro _
    | (extract_lets +onlyGivenNames x; have hx : Keeps s0 (by with_reducible apply x) := ?_; clear_value x; revert x; intro _ _; rotate_left; subst x)
    | (extract_lets +onlyGivenNames x; clear_value x; revert x; intro _)
    | with_reducible apply KeepsA.next
    | with_reducible apply Keeps.ite
    | with_reducible apply State.makeRoom_keeps
    | with_reducible apply State.onCommand_keeps
    | with_reducible apply State.done_keeps
    | with_reducible apply State.complete_keeps
    | with_reducible apply State.evt_keeps
    | with_reducible apply State.bumpSat_keeps
    | with_reducible apply State.put_keeps
    | simp -zeta only [Keeps.mk_iff]
    | split
    | with_reducible refine Keeps.of_some (by assumption) ?_

theorem execPrefixDelete_keeps {s0 : State} (xm : Master) (tag : BitVec 8) (s : State) (h : Keeps s0 s) :
    KeepsA s0 (execPrefixDelete xm tag s) := by
  unfold execPrefixDelete
  repeat' first
    | with_reducible assumption
    | intro _
    | (extract_lets +onlyGivenNames x; clear_value x; revert x; intro _)
    | with_reducible apply KeepsA.next
    | with_reducible apply State.onCommand_keeps
    | with_reducible apply State.done_keeps
    | simp -zeta only [Keeps.mk_iff]
    | split

theorem execPrefixLookup_keeps {s0 : State} (xm : Master) (tag : BitVec 8) (s : State) (h : Keeps s0 s) :
    KeepsA s0 (execPrefixLookup xm tag s) := by
  unfold execPrefixLookup
  repeat' first
    | with_reducible assumption
    | intro _
    | (extract_lets +onlyGivenNames x; clear_value x; revert x; intro _)
    | with_reducible apply KeepsA.next
    | with_reducible apply State.onCommand_keeps
    | with_reducible apply State.done_keeps
    | with_reducible apply State.complete_keeps
    | split

theorem execPrefixUpdate_keeps {s0 : State} (xm : Master) (tag : BitVec 8) (s : State) (h : Keeps s0 s) :
    KeepsA s0 (execPrefixUpdate xm tag s) := by
  unfold execPrefixUpdate
  repeat' first
    | with_reducible assumption
    | intro _
    | (extract_lets +onlyGivenNames x; clear_value x; revert x; intro _)
    | with_reducible apply KeepsA.next
    | with_reducible apply State.onCommand_keeps
    | with_reducible apply State.done_keeps
    | simp -zeta only [Keeps.mk_iff]
    | split

theorem execPrefixSearch_keeps {s0 : State} (m : Master) (tag : BitVec 8) (unpaced : Bool) (s : State) (h : Keeps s0 s) :
    KeepsA s0 (execPrefixSearch m tag unpaced s) := by
  unfold execPrefixSearch
  repeat' first
    | with_reducible assumption
    | intro _
    | (extract_lets +onlyGivenNames x; clear_value x; revert x; intro _)
    | with_reducible apply KeepsA.next
    | with_reducible apply State.startLong_keeps
    | with_reducible apply State.onCommand_keeps

theorem execPrefixNext_keeps {s0 : State} (xm : Master) (tag : BitVec 8) (s : State) (h : Keeps s0 s) :
    KeepsA s0 (execPrefixNext xm tag s) := by
  unfold execPrefixNext
  repeat' first
    | with_reducible assumption
    | intro _
    | (extract_lets +onlyGivenNames x; clear_value x; revert x; intro _)
    | with_reducible apply KeepsA.next
    | with_reducible apply State.onCommand_keeps
    | with_reducible apply State.done_keeps
    | with_reducible apply State.complete_keeps
    | split

theorem execPrefixFlushPort_keeps {s0 : State} (xm : Master) (tag : BitVec 8) (s : State) (h : Keeps s0 s) :
    KeepsA s0 (execPrefixFlushPort xm tag s) := by
  unfold execPrefixFlushPort
  repeat' first
    | with_reducible assumption
    | intro _
    | (extract_lets +onlyGivenNames x; clear_value x; revert x; intro _)
    | with_reducible apply KeepsA.next
    | with_reducible apply State.onCommand_keeps
    | with_reducible apply State.complete_keeps
    | with_reducible apply State.put_keeps
    | with_reducible apply Keeps.foldl

theorem execPrefixSpareMove_keeps {s0 : State} (src : BitVec 14) (dst : BitVec 14) (s : State) (h : Keeps s0 s) :
    KeepsA s0 (execPrefixSpareMove src dst s) := by
  unfold execPrefixSpareMove
  repeat' first
    | with_reducible assumption
    | (extract_lets +onlyGivenNames x; clear_value x; revert x; intro _)
    | with_reducible apply KeepsA.next
    | with_reducible apply KeepsA.ite
    | with_reducible apply State.movePrefix_keeps
    | with_reducible apply State.bumpSat_keeps

theorem execNextHopHiWrite_keeps {s0 : State} (m : Master) (n : BitVec 8) (v : W32) (s : State) (h : Keeps s0 s) :
    KeepsA s0 (execNextHopHiWrite m n v s) := by
  unfold execNextHopHiWrite
  repeat' first
    | with_reducible assumption
    | with_reducible apply KeepsA.next
    | with_reducible apply State.busWrite_keeps
    | simp -zeta only [Keeps.mk_iff]
    | split
    | with_reducible refine Keeps.of_pair (by assumption) ?_

theorem State.sieveDrop_keeps {s0 : State} (s : State) (b : Block) (c : Cause) (i : Nat) (f : Frame) (h : Keeps s0 s) :
    Keeps s0 (State.sieveDrop s b c i f) := by
  unfold State.sieveDrop
  repeat' first
    | with_reducible assumption
    | (extract_lets +onlyGivenNames x; have hx : Keeps s0 (by with_reducible apply x) := ?_; clear_value x; revert x; intro _ _; rotate_left; subst x)
    | with_reducible apply State.settle_keeps
    | with_reducible apply State.freeFrame_keeps
    | with_reducible apply State.setFrame_keeps
    | with_reducible apply State.dropPacket_keeps

theorem State.handOver_keeps {s0 : State} (s : State) (b : Block) (i : Nat) (f : Frame) (qs : List Nat) (host : Bool) (h : Keeps s0 s) :
    Keeps s0 (State.handOver s b i f qs host) := by
  unfold State.handOver
  repeat' first
    | with_reducible assumption
    | intro _
    | (extract_lets +onlyGivenNames x; have hx : Keeps s0 (by with_reducible apply x) := ?_; clear_value x; revert x; intro _ _; rotate_left; subst x)
    | (extract_lets +onlyGivenNames x; clear_value x; revert x; intro _)
    | with_reducible apply Keeps.ite
    | with_reducible apply State.sieveDrop_keeps
    | with_reducible apply State.settle_keeps
    | with_reducible apply State.setFrame_keeps
    | with_reducible apply State.spend_keeps
    | with_reducible apply State.sinkCells_keeps
    | with_reducible apply State.handCells_keeps
    | with_reducible apply State.dropRecord_keeps
    | with_reducible apply State.sink_keeps
    | with_reducible apply State.ledOut_keeps
    | with_reducible apply Keeps.foldl
    | split

theorem State.route_keeps {s0 : State} (s : State) (dst : BitVec 128) (hop : Nat) (h : Keeps s0 s) :
    Keeps s0 (State.route s dst hop).1 := by
  unfold State.route
  repeat' first
    | with_reducible assumption
    | (extract_lets +onlyGivenNames x; have hx : Keeps s0 (by with_reducible apply x) := ?_; clear_value x; revert x; intro _ _; rotate_left; subst x)
    | (extract_lets +onlyGivenNames x; clear_value x; revert x; intro _)
    | with_reducible apply State.evt_keeps
    | with_reducible apply State.bumpSat_keeps
    | simp -zeta only [Keeps.mk_iff]
    | split

theorem State.floodSet_keeps {s0 : State} (s : State) (e : Nat) (p : Nat) (h : Keeps s0 s) :
    Keeps s0 (State.floodSet s e p).1 := by
  unfold State.floodSet
  repeat' first
    | with_reducible assumption
    | (extract_lets +onlyGivenNames x; clear_value x; revert x; intro _)
    | with_reducible apply State.draw_keeps
    | simp -zeta only [Keeps.mk_iff]
    | split

theorem execSieveFrameLookup_keeps {s0 : State} (i : Nat) (s : State) (h : Keeps s0 s) :
    KeepsA s0 (execSieveFrameLookup i s) := by
  unfold execSieveFrameLookup
  repeat' first
    | with_reducible assumption
    | (extract_lets +onlyGivenNames x; have hx : Keeps s0 (by with_reducible apply x) := ?_; clear_value x; revert x; intro _ _; rotate_left; subst x)
    | (extract_lets +onlyGivenNames x; clear_value x; revert x; intro _)
    | with_reducible apply KeepsA.next
    | with_reducible apply KeepsA.ite
    | with_reducible apply Keeps.ite
    | with_reducible apply State.floodSet_keeps
    | with_reducible apply State.route_keeps
    | with_reducible apply State.handOver_keeps
    | with_reducible apply State.sieveDrop_keeps
    | with_reducible apply State.l2Write_keeps
    | with_reducible apply State.settle_keeps
    | with_reducible apply State.setFrame_keeps
    | with_reducible apply State.sinkCells_keeps
    | with_reducible apply State.dropRecord_keeps
    | with_reducible apply State.sink_keeps
    | with_reducible apply State.ledOut_keeps
    | with_reducible apply State.ledIn_keeps
    | with_reducible apply State.bumpSat_keeps
    | simp -zeta only [Keeps.mk_iff]
    | split

theorem execLearnCommit_keeps {s0 : State} (i : Nat) (s : State) (h : Keeps s0 s) :
    KeepsA s0 (execLearnCommit i s) := by
  unfold execLearnCommit
  repeat' first
    | with_reducible assumption
    | (extract_lets +onlyGivenNames x; have hx : Keeps s0 (by with_reducible apply x) := ?_; clear_value x; revert x; intro _ _; rotate_left; subst x)
    | (extract_lets +onlyGivenNames x; clear_value x; revert x; intro _)
    | with_reducible apply KeepsA.next
    | with_reducible apply KeepsA.ite
    | with_reducible apply Keeps.ite
    | with_reducible apply State.learn_keeps
    | with_reducible apply State.settle_keeps
    | with_reducible apply State.setFrame_keeps
    | split

theorem execAgeSweep_keeps {s0 : State} (e : Fin 2) (s : State) (h : Keeps s0 s) :
    KeepsA s0 (execAgeSweep e s) := by
  unfold execAgeSweep
  repeat' first
    | with_reducible assumption
    | intro _
    | with_reducible apply KeepsA.next
    | with_reducible apply KeepsA.ite
    | with_reducible apply Keeps.ite
    | with_reducible apply State.notice_keeps
    | with_reducible apply State.l2Remove_keeps
    | with_reducible apply State.l2Write_keeps
    | with_reducible apply Keeps.foldl

theorem execPinRelease_keeps {s0 : State} (e : Fin 2) (idx : BitVec 16) (s : State) (h : Keeps s0 s) :
    KeepsA s0 (execPinRelease e idx s) := by
  unfold execPinRelease
  repeat' first
    | with_reducible assumption
    | with_reducible apply KeepsA.next
    | with_reducible apply KeepsA.ite
    | with_reducible apply State.l2Write_keeps
    | split

theorem execSieveLfifoPop_keeps {s0 : State} (m : Master) (e : Fin 2) (s : State) (h : Keeps s0 s) :
    KeepsA s0 (execSieveLfifoPop m e s) := by
  unfold execSieveLfifoPop
  repeat' first
    | with_reducible assumption
    | intro _
    | (extract_lets +onlyGivenNames x; have hx : ∀ y y0 y1, Keeps s0 y → Keeps s0 (by with_reducible exact x y y0 y1) := ?_; clear_value x; revert x; intro _ hf2; rotate_left; subst x; dsimp -zeta only)
    | with_reducible apply hf2
    | (extract_lets +onlyGivenNames x; have hx : Keeps s0 (by with_reducible apply x) := ?_; clear_value x; revert x; intro _ _; rotate_left; subst x)
    | with_reducible apply KeepsA.next
    | with_reducible apply KeepsA.ite
    | with_reducible apply State.setPipe_keeps
    | with_reducible apply State.put_keeps
    | simp -zeta only [Keeps.mk_iff]
    | split

end Sys2Proof.Machine
end

