-- ==== Sys2Proof/Laws/KeepsPageOps.lean ====
section
/-! SUPPORT. The operations of Machine/PageOps.lean break nothing (`Keeps`). -/

set_option linter.unusedSimpArgs false

namespace Sys2Proof.Machine

theorem State.setPair_keeps {s0 : State} (s : State) (a : Nat) (xx : Nat) (h : Keeps s0 s) :
    Keeps s0 (State.setPair s a xx) := by
  unfold State.setPair
  repeat' first
    | with_reducible assumption
    | with_reducible apply State.setWord_keeps

theorem State.snapshot_keeps {s0 : State} (s : State) (b : Block) (h : Keeps s0 s) :
    Keeps s0 (State.snapshot s b) := by
  unfold State.snapshot
  repeat' first
    | with_reducible assumption
    | intro _
    | (extract_lets +onlyGivenNames x; have hx : Keeps s0 (by with_reducible apply x) := ?_; clear_value x; revert x; intro _ _; rotate_left; subst x)
    | (extract_lets +onlyGivenNames x; clear_value x; revert x; intro _)
    | with_reducible apply State.setPair_keeps
    | with_reducible apply State.bump_keeps
    | with_reducible apply State.put_keeps
    | with_reducible apply Keeps.foldl
    | split

theorem State.goOn_keeps {s0 : State} (s : State) (b : Block) (h : Keeps s0 s) :
    Keeps s0 (State.goOn s b) := by
  unfold State.goOn
  repeat' first
    | with_reducible assumption
    | (extract_lets +onlyGivenNames x; have hx : Keeps s0 (by with_reducible apply x) := ?_; clear_value x; revert x; intro _ _; rotate_left; subst x)
    | (extract_lets +onlyGivenNames x; clear_value x; revert x; intro _)
    | with_reducible apply Keeps.ite
    | with_reducible apply State.flushPump_keeps
    | with_reducible apply State.pump_keeps
    | with_reducible apply State.evtIf_keeps
    | split

theorem State.reclaim_keeps {s0 : State} (s : State) (owner : Nat) (h : Keeps s0 s) :
    Keeps s0 (State.reclaim s owner).1 := by
  unfold State.reclaim
  repeat' first
    | with_reducible assumption
    | (extract_lets +onlyGivenNames x; clear_value x; revert x; intro _)
    | with_reducible apply State.forgetCells_keeps
    | with_reducible apply State.freeOwner_keeps

end Sys2Proof.Machine
end

