-- ==== Sys2Proof/Laws/KeepsProofOps.lean ====
section
/-! SUPPORT. The operations of Machine/ProofOps.lean break nothing (`Keeps`). -/

set_option linter.unusedSimpArgs false

namespace Sys2Proof.Machine

theorem State.setProof_keeps {s0 : State} (s : State) (f : ProofSt → ProofSt) (h : Keeps s0 s) (hf : ∀ x, (f x).log = x.log) :
    Keeps s0 (State.setProof s f) := Keeps.of_eq h rfl rfl rfl (hf _) rfl rfl rfl

theorem State.writeEntry_keeps {s0 : State} (s : State) (cls : Nat) (time : List Nat) (detail : List Nat) (counts : Bool) (h : Keeps s0 s) :
    Keeps s0 (State.writeEntry s cls time detail counts) := by
  unfold State.writeEntry
  split
  · exact State.setProof_keeps _ _ h fun _ => rfl
  · extract_lets n e t
    have ht : Keeps s0 t := h.trans {
      pending := rfl
      dram := id
      led := fun x => x
      log := fun x => ⟨logInOrder_append x, fun m y hm => by
        have hm' := (x m).1 (by rw [hm]; rfl)
        show mapGet (mapSet s.proof.log (s.proof.log.length + 1) e) m = some y
        rw [mapGet_mapSet, if_neg (by omega)]
        exact hm⟩
      revoked := fun _ x => x
      legacy := id
      life := Nat.le_refl _ }
    split
    · exact State.evt_keeps _ _ _ (State.put_keeps _ _ _ ht)
    · exact ht

theorem State.logEntry_keeps {s0 : State} (s : State) (cls : Nat) (time : List Nat) (detail : List Nat) (counts : Bool) (h : Keeps s0 s) :
    Keeps s0 (State.logEntry s cls time detail counts) := by
  unfold State.logEntry
  repeat' first
    | with_reducible assumption
    | intro _
    | with_reducible apply Keeps.ite
    | with_reducible apply State.writeEntry_keeps
    | with_reducible apply State.setProof_keeps
    | simp -zeta only [Keeps.mk_iff]

theorem State.logNow_keeps {s0 : State} (s : State) (cls : Nat) (detail : List Nat) (counts : Bool) (h : Keeps s0 s) :
    Keeps s0 (State.logNow s cls detail counts) := by
  unfold State.logNow
  repeat' first
    | with_reducible assumption
    | with_reducible apply State.logEntry_keeps

theorem State.logCorrection_keeps {s0 : State} (s : State) (kind : Nat) (offset : Int) (h : Keeps s0 s) :
    Keeps s0 (State.logCorrection s kind offset) := by
  unfold State.logCorrection
  repeat' first
    | with_reducible assumption
    | with_reducible apply Keeps.ite
    | with_reducible apply State.logNow_keeps

theorem State.appendRecord_keeps {s0 : State} (s : State) (body : List Nat) (h : Keeps s0 s) :
    Keeps s0 (State.appendRecord s body) := by
  unfold State.appendRecord
  repeat' first
    | with_reducible assumption
    | intro _
    | (extract_lets +onlyGivenNames x; have hx : Keeps s0 (by with_reducible apply x) := ?_; clear_value x; revert x; intro _ _; rotate_left; subst x)
    | (extract_lets +onlyGivenNames x; clear_value x; revert x; intro _)
    | with_reducible apply State.setProof_keeps
    | with_reducible apply State.evt_keeps
    | simp -zeta only [Keeps.mk_iff]

theorem State.appendClose_keeps {s0 : State} (s : State) (cls : Nat) (fire : Lin) (hold : Bool) (h : Keeps s0 s) :
    Keeps s0 (State.appendClose s cls fire hold) := by
  unfold State.appendClose
  repeat' first
    | with_reducible assumption
    | intro _
    | (extract_lets +onlyGivenNames x; have hx : Keeps s0 (by with_reducible apply x) := ?_; clear_value x; revert x; intro _ _; rotate_left; subst x)
    | (extract_lets +onlyGivenNames x; clear_value x; revert x; intro _)
    | with_reducible apply State.appendRecord_keeps
    | with_reducible apply State.setProof_keeps
    | simp -zeta only [Keeps.mk_iff]

theorem State.closeLine_keeps {s0 : State} (s : State) (cls : Nat) (h : Keeps s0 s) :
    Keeps s0 (State.closeLine s cls) := by
  unfold State.closeLine
  repeat' first
    | with_reducible assumption
    | intro _
    | with_reducible apply Keeps.ite
    | with_reducible apply State.appendClose_keeps
    | with_reducible apply State.logNow_keeps
    | with_reducible apply State.setProof_keeps
    | simp -zeta only [Keeps.mk_iff]

theorem State.flushCloses_keeps {s0 : State} (s : State) (h : Keeps s0 s) :
    Keeps s0 (State.flushCloses s) := by
  unfold State.flushCloses
  repeat' first
    | with_reducible assumption
    | intro _
    | (extract_lets +onlyGivenNames x; have hx : Keeps s0 (by with_reducible apply x) := ?_; clear_value x; revert x; intro _ _; rotate_left; subst x)
    | (extract_lets +onlyGivenNames x; clear_value x; revert x; intro _)
    | with_reducible apply State.appendClose_keeps
    | with_reducible apply State.setProof_keeps
    | with_reducible apply Keeps.foldl
    | simp -zeta only [Keeps.mk_iff]

theorem State.resumeProof_keeps {s0 : State} (s : State) (h : Keeps s0 s) :
    Keeps s0 (State.resumeProof s) := by
  unfold State.resumeProof
  repeat' first
    | with_reducible assumption
    | intro _
    | (extract_lets +onlyGivenNames x; have hx : Keeps s0 (by with_reducible apply x) := ?_; clear_value x; revert x; intro _ _; rotate_left; subst x)
    | with_reducible apply State.flushCloses_keeps
    | with_reducible apply State.setProof_keeps
    | with_reducible apply State.evt_keeps
    | with_reducible apply State.put_keeps
    | simp -zeta only [Keeps.mk_iff]

theorem State.proofResumed_keeps {s0 : State} (s : State) (h : Keeps s0 s) :
    Keeps s0 (State.proofResumed s) := by
  unfold State.proofResumed
  repeat' first
    | with_reducible assumption
    | intro _
    | (extract_lets +onlyGivenNames x; have hx : Keeps s0 (by with_reducible apply x) := ?_; clear_value x; revert x; intro _ _; rotate_left; subst x)
    | (extract_lets +onlyGivenNames x; clear_value x; revert x; intro _)
    | with_reducible apply Keeps.ite
    | with_reducible apply State.flushCloses_keeps
    | with_reducible apply State.writeEntry_keeps
    | with_reducible apply State.setProof_keeps
    | with_reducible apply Keeps.foldl
    | simp -zeta only [Keeps.mk_iff]

theorem State.startProofer_keeps {s0 : State} (s : State) (cause : Nat) (h : Keeps s0 s) :
    Keeps s0 (State.startProofer s cause) := by
  unfold State.startProofer
  repeat' first
    | with_reducible assumption
    | intro _
    | (extract_lets +onlyGivenNames x; have hx : Keeps s0 (by with_reducible apply x) := ?_; clear_value x; revert x; intro _ _; rotate_left; subst x)
    | with_reducible apply State.logNow_keeps
    | with_reducible apply State.setProof_keeps
    | with_reducible apply State.putB_keeps
    | simp -zeta only [Keeps.mk_iff]

end Sys2Proof.Machine
end

