-- ==== Sys2Proof/Laws/KeepsRadio.lean ====
section
/-! SUPPORT. The operations of Machine/Radio.lean break nothing (`Keeps`). -/

set_option linter.unusedSimpArgs false

namespace Sys2Proof.Machine

theorem execCentreWrite_keeps {s0 : State} (m : Master) (n : Fin 4) (v : BitVec 32) (s : State) (h : Keeps s0 s) :
    KeepsA s0 (execCentreWrite m n v s) := by
  unfold execCentreWrite
  repeat' first
    | with_reducible assumption
    | with_reducible apply KeepsA.next
    | with_reducible apply State.busWrite_keeps
    | with_reducible apply State.setChain_keeps
    | with_reducible apply State.put_keeps
    | split
    | with_reducible refine Keeps.of_pair (by assumption) ?_

theorem execRetuneStart_keeps {s0 : State} (n : Fin 4) (s : State) (h : Keeps s0 s) :
    KeepsA s0 (execRetuneStart n s) := by
  unfold execRetuneStart
  repeat' first
    | with_reducible assumption
    | with_reducible apply KeepsA.next
    | with_reducible apply KeepsA.ite
    | with_reducible apply State.beginSettle_keeps

theorem execRetuneWaitTimeout_keeps {s0 : State} (n : Fin 4) (s : State) (h : Keeps s0 s) :
    KeepsA s0 (execRetuneWaitTimeout n s) := by
  unfold execRetuneWaitTimeout
  repeat' first
    | with_reducible assumption
    | (extract_lets +onlyGivenNames x; have hx : Keeps s0 (by with_reducible apply x) := ?_; clear_value x; revert x; intro _ _; rotate_left; subst x)
    | with_reducible apply KeepsA.next
    | with_reducible apply KeepsA.ite
    | with_reducible apply State.beginSettle_keeps
    | with_reducible apply State.setChain_keeps

theorem execChainEnableWrite_keeps {s0 : State} (m : Master) (n : Fin 4) (v : BitVec 32) (s : State) (h : Keeps s0 s) :
    KeepsA s0 (execChainEnableWrite m n v s) := by
  unfold execChainEnableWrite
  repeat' first
    | with_reducible assumption
    | with_reducible apply KeepsA.next
    | with_reducible apply Keeps.ite
    | with_reducible apply State.toOff_keeps
    | with_reducible apply State.chainStart_keeps
    | with_reducible apply State.busWrite_keeps
    | split
    | with_reducible refine Keeps.of_pair (by assumption) ?_

theorem State.synthLock_keeps {s0 : State} (s : State) (n : Nat) (ticks : Nat) (h : Keeps s0 s) :
    Keeps s0 (State.synthLock s n ticks) := by
  unfold State.synthLock
  repeat' first
    | with_reducible assumption
    | (extract_lets +onlyGivenNames x; have hx : Keeps s0 (by with_reducible apply x) := ?_; clear_value x; revert x; intro _ _; rotate_left; subst x)
    | (extract_lets +onlyGivenNames x; clear_value x; revert x; intro _)
    | with_reducible apply Keeps.ite
    | with_reducible apply State.enterRx_keeps
    | with_reducible apply State.startCal_keeps
    | with_reducible apply State.tuneBack_keeps
    | with_reducible apply State.setChain_keeps
    | with_reducible apply State.evt_keeps
    | with_reducible apply State.put_keeps
    | split

theorem execSynthLock_keeps {s0 : State} (n : Fin 4) (ticks : Nat) (s : State) (h : Keeps s0 s) :
    KeepsA s0 (execSynthLock n ticks s) := by
  unfold execSynthLock
  repeat' first
    | with_reducible assumption
    | with_reducible apply KeepsA.next
    | with_reducible apply State.synthLock_keeps

theorem execLockTimeout_keeps {s0 : State} (n : Fin 4) (s : State) (h : Keeps s0 s) :
    KeepsA s0 (execLockTimeout n s) := by
  unfold execLockTimeout
  repeat' first
    | with_reducible assumption
    | (extract_lets +onlyGivenNames x; have hx : Keeps s0 (by with_reducible apply x) := ?_; clear_value x; revert x; intro _ _; rotate_left; subst x)
    | with_reducible apply KeepsA.next
    | with_reducible apply KeepsA.ite
    | with_reducible apply State.toOff_keeps
    | with_reducible apply State.setChain_keeps
    | with_reducible apply State.evt_keeps
    | with_reducible apply State.bumpSat_keeps
    | with_reducible apply State.put_keeps

theorem State.judgeJob_keeps {s0 : State} (s : State) (n : Nat) (id : Nat) (it : Item) (h : Keeps s0 s) :
    Keeps s0 (State.judgeJob s n id it) := by
  unfold State.judgeJob
  repeat' first
    | with_reducible assumption
    | (extract_lets +onlyGivenNames x; clear_value x; revert x; intro _)
    | with_reducible apply Keeps.ite
    | with_reducible apply State.forbidJob_keeps
    | with_reducible apply State.returnJob_keeps
    | with_reducible apply State.setJob_keeps
    | with_reducible apply State.bumpSat_keeps

theorem execTxJobTake_keeps {s0 : State} (n : Fin 4) (s : State) (h : Keeps s0 s) :
    KeepsA s0 (execTxJobTake n s) := by
  unfold execTxJobTake
  repeat' first
    | with_reducible assumption
    | (extract_lets +onlyGivenNames x; have hx : Keeps s0 (by with_reducible apply x) := ?_; clear_value x; revert x; intro _ _; rotate_left; subst x)
    | (extract_lets +onlyGivenNames x; clear_value x; revert x; intro _)
    | with_reducible apply KeepsA.next
    | with_reducible apply KeepsA.ite
    | with_reducible apply State.judgeJob_keeps
    | with_reducible apply State.setChain_keeps
    | with_reducible apply State.takeReady_keeps
    | with_reducible apply State.spend_keeps
    | with_reducible apply State.handCells_keeps
    | with_reducible apply State.ledIn_keeps
    | split
    | with_reducible refine Keeps.of_some (by assumption) ?_

theorem execTxRampUpStart_keeps {s0 : State} (n : Fin 4) (s : State) (h : Keeps s0 s) :
    KeepsA s0 (execTxRampUpStart n s) := by
  unfold execTxRampUpStart
  repeat' first
    | with_reducible assumption
    | (extract_lets +onlyGivenNames x; clear_value x; revert x; intro _)
    | with_reducible apply KeepsA.next
    | with_reducible apply KeepsA.ite
    | with_reducible apply State.policyWait_keeps
    | with_reducible apply State.enterRampUp_keeps
    | with_reducible apply State.forbidJob_keeps
    | with_reducible apply State.returnJob_keeps
    | with_reducible apply State.beginSettle_keeps
    | with_reducible apply State.put_keeps
    | split

theorem execTxStart_keeps {s0 : State} (n : Fin 4) (s : State) (h : Keeps s0 s) :
    KeepsA s0 (execTxStart n s) := by
  unfold execTxStart
  repeat' first
    | with_reducible assumption
    | (extract_lets +onlyGivenNames x; have hx : Keeps s0 (by with_reducible apply x) := ?_; clear_value x; revert x; intro _ _; rotate_left; subst x)
    | (extract_lets +onlyGivenNames x; clear_value x; revert x; intro _)
    | with_reducible apply KeepsA.next
    | with_reducible apply KeepsA.ite
    | with_reducible apply State.setJob_keeps
    | with_reducible apply State.setChain_keeps
    | with_reducible apply State.advanceTo_keeps
    | with_reducible apply State.put_keeps
    | split

theorem execTxFrameEnd_keeps {s0 : State} (n : Fin 4) (s : State) (h : Keeps s0 s) :
    KeepsA s0 (execTxFrameEnd n s) := by
  unfold execTxFrameEnd
  repeat' first
    | with_reducible assumption
    | (extract_lets +onlyGivenNames x; have hx : Keeps s0 (by with_reducible apply x) := ?_; clear_value x; revert x; intro _ _; rotate_left; subst x)
    | (extract_lets +onlyGivenNames x; clear_value x; revert x; intro _)
    | with_reducible apply KeepsA.next
    | with_reducible apply KeepsA.ite
    | with_reducible apply State.setChain_keeps
    | with_reducible apply State.passFree_keeps
    | with_reducible apply State.advanceTo_keeps
    | with_reducible apply State.put_keeps
    | simp -zeta only [Keeps.mk_iff]
    | split

theorem State.rampOrRx_keeps {s0 : State} (s : State) (n : Nat) (h : Keeps s0 s) :
    Keeps s0 (State.rampOrRx s n) := by
  unfold State.rampOrRx
  repeat' first
    | with_reducible assumption
    | (extract_lets +onlyGivenNames x; have hx : Keeps s0 (by with_reducible apply x) := ?_; clear_value x; revert x; intro _ _; rotate_left; subst x)
    | (extract_lets +onlyGivenNames x; clear_value x; revert x; intro _)
    | with_reducible apply Keeps.ite
    | with_reducible apply State.enterRampUp_keeps
    | with_reducible apply State.enterRx_keeps
    | split

theorem execTxRampDownEnd_keeps {s0 : State} (n : Fin 4) (s : State) (h : Keeps s0 s) :
    KeepsA s0 (execTxRampDownEnd n s) := by
  unfold execTxRampDownEnd
  repeat' first
    | with_reducible assumption
    | (extract_lets +onlyGivenNames x; have hx : Keeps s0 (by with_reducible apply x) := ?_; clear_value x; revert x; intro _ _; rotate_left; subst x)
    | with_reducible apply KeepsA.next
    | with_reducible apply KeepsA.ite
    | with_reducible apply Keeps.ite
    | with_reducible apply State.rampOrRx_keeps
    | with_reducible apply State.returnJob_keeps
    | with_reducible apply State.beginSettle_keeps
    | with_reducible apply State.advanceTo_keeps
    | with_reducible apply State.bump_keeps
    | split

theorem execBlankingEnd_keeps {s0 : State} (n : Fin 4) (s : State) (h : Keeps s0 s) :
    KeepsA s0 (execBlankingEnd n s) := by
  unfold execBlankingEnd
  repeat' first
    | with_reducible assumption
    | intro _
    | with_reducible apply KeepsA.next
    | with_reducible apply KeepsA.ite
    | with_reducible apply Keeps.ite
    | with_reducible apply State.setChain_keeps
    | with_reducible apply Keeps.foldl

theorem execTrigJobTimeout_keeps {s0 : State} (n : Fin 4) (s : State) (h : Keeps s0 s) :
    KeepsA s0 (execTrigJobTimeout n s) := by
  unfold execTrigJobTimeout
  repeat' first
    | with_reducible assumption
    | with_reducible apply KeepsA.next
    | with_reducible apply State.returnJob_keeps
    | split

theorem execTxLatestStartPassed_keeps {s0 : State} (n : Fin 4) (s : State) (h : Keeps s0 s) :
    KeepsA s0 (execTxLatestStartPassed n s) := by
  unfold execTxLatestStartPassed
  repeat' first
    | with_reducible assumption
    | (extract_lets +onlyGivenNames x; have hx : Keeps s0 (by with_reducible apply x) := ?_; clear_value x; revert x; intro _ _; rotate_left; subst x)
    | with_reducible apply KeepsA.next
    | with_reducible apply Keeps.ite
    | with_reducible apply State.returnJob_keeps
    | with_reducible apply State.advanceTo_keeps
    | with_reducible apply State.bumpSat_keeps
    | split

theorem execCalStart_keeps {s0 : State} (n : Fin 4) (s : State) (h : Keeps s0 s) :
    KeepsA s0 (execCalStart n s) := by
  unfold execCalStart
  repeat' first
    | with_reducible assumption
    | (extract_lets +onlyGivenNames x; clear_value x; revert x; intro _)
    | with_reducible apply KeepsA.next
    | with_reducible apply KeepsA.ite
    | with_reducible apply State.startCal_keeps
    | split

theorem execCalAbortForJob_keeps {s0 : State} (n : Fin 4) (s : State) (h : Keeps s0 s) :
    KeepsA s0 (execCalAbortForJob n s) := by
  unfold execCalAbortForJob
  repeat' first
    | with_reducible assumption
    | with_reducible apply KeepsA.next
    | with_reducible apply KeepsA.ite
    | with_reducible apply State.abortCal_keeps
    | split

theorem execCalRestoreEnd_keeps {s0 : State} (n : Fin 4) (s : State) (h : Keeps s0 s) :
    KeepsA s0 (execCalRestoreEnd n s) := by
  unfold execCalRestoreEnd
  repeat' first
    | with_reducible assumption
    | with_reducible apply KeepsA.next
    | with_reducible apply KeepsA.ite
    | with_reducible apply State.rampOrRx_keeps
    | with_reducible apply State.advanceTo_keeps
    | split

theorem State.calComplete_keeps {s0 : State} (s : State) (n : Nat) (h : Keeps s0 s) :
    Keeps s0 (State.calComplete s n) := by
  unfold State.calComplete
  repeat' first
    | with_reducible assumption
    | (extract_lets +onlyGivenNames x; have hx : Keeps s0 (by with_reducible apply x) := ?_; clear_value x; revert x; intro _ _; rotate_left; subst x)
    | with_reducible apply Keeps.ite
    | with_reducible apply State.enterRx_keeps
    | with_reducible apply State.endCalRun_keeps
    | with_reducible apply State.calsDone_keeps
    | with_reducible apply State.setChain_keeps
    | with_reducible apply State.evt_keeps
    | with_reducible apply State.advanceTo_keeps
    | with_reducible apply State.put_keeps
    | split

theorem execCalComplete_keeps {s0 : State} (n : Fin 4) (s : State) (h : Keeps s0 s) :
    KeepsA s0 (execCalComplete n s) := by
  unfold execCalComplete
  repeat' first
    | with_reducible assumption
    | with_reducible apply KeepsA.next
    | with_reducible apply State.calComplete_keeps

theorem execCalReschedule_keeps {s0 : State} (n : Fin 4) (s : State) (h : Keeps s0 s) :
    KeepsA s0 (execCalReschedule n s) := by
  unfold execCalReschedule
  repeat' first
    | with_reducible assumption
    | (extract_lets +onlyGivenNames x; have hx : Keeps s0 (by with_reducible apply x) := ?_; clear_value x; revert x; intro _ _; rotate_left; subst x)
    | (extract_lets +onlyGivenNames x; clear_value x; revert x; intro _)
    | with_reducible apply KeepsA.next
    | with_reducible apply KeepsA.ite
    | with_reducible apply State.startCal_keeps
    | with_reducible apply State.setChain_keeps
    | with_reducible apply State.advanceTo_keeps
    | split

theorem execChainTempSample_keeps {s0 : State} (n : Fin 4) (temp : BitVec 8) (s : State) (h : Keeps s0 s) :
    KeepsA s0 (execChainTempSample n temp s) := by
  unfold execChainTempSample
  repeat' first
    | with_reducible assumption
    | intro _
    | (extract_lets +onlyGivenNames x; have hx : Keeps s0 (by with_reducible apply x) := ?_; clear_value x; revert x; intro _ _; rotate_left; subst x)
    | (extract_lets +onlyGivenNames x; clear_value x; revert x; intro _)
    | with_reducible apply KeepsA.next
    | with_reducible apply KeepsA.ite
    | with_reducible apply State.evtIf_keeps
    | with_reducible apply State.put_keeps
    | with_reducible apply Keeps.foldl

theorem execOscCal_keeps {s0 : State} (s : State) (h : Keeps s0 s) :
    KeepsA s0 (execOscCal s) := by
  unfold execOscCal
  repeat' first
    | with_reducible assumption
    | (extract_lets +onlyGivenNames x; clear_value x; revert x; intro _)
    | with_reducible apply KeepsA.next
    | with_reducible apply KeepsA.ite
    | with_reducible apply State.draw_keeps
    | with_reducible apply State.put_keeps

theorem execCalRun_keeps {s0 : State} (m : Master) (n : Fin 4) (tag : BitVec 8) (s : State) (h : Keeps s0 s) :
    KeepsA s0 (execCalRun m n tag s) := by
  unfold execCalRun
  repeat' first
    | with_reducible assumption
    | intro _
    | (extract_lets +onlyGivenNames x; clear_value x; revert x; intro _)
    | with_reducible apply KeepsA.next
    | with_reducible apply Keeps.ite
    | with_reducible apply State.setChain_keeps
    | with_reducible apply State.onCommand_keeps
    | with_reducible apply State.startRun_keeps
    | with_reducible apply State.done_keeps

theorem State.abortCalRun_keeps {s0 : State} (s : State) (n : Nat) (h : Keeps s0 s) :
    Keeps s0 (State.abortCalRun s n) := by
  unfold State.abortCalRun
  repeat' first
    | with_reducible assumption
    | with_reducible apply Keeps.ite
    | with_reducible apply State.abortCal_keeps
    | with_reducible apply State.endCalRun_keeps
    | with_reducible apply State.setChain_keeps
    | split

theorem State.cutCalRun_keeps {s0 : State} (s : State) (n : Nat) (c : Code) (h : Keeps s0 s) :
    Keeps s0 (State.cutCalRun s n c) := by
  unfold State.cutCalRun
  repeat' first
    | with_reducible assumption
    | with_reducible apply Keeps.ite
    | with_reducible apply State.abortCalRun_keeps
    | with_reducible apply State.endCalRun_keeps
    | with_reducible apply State.setChain_keeps

theorem execTxCut_keeps {s0 : State} (xm : Master) (n : Fin 4) (tag : BitVec 8) (s : State) (h : Keeps s0 s) :
    KeepsA s0 (execTxCut xm n tag s) := by
  unfold execTxCut
  repeat' first
    | with_reducible assumption
    | intro _
    | with_reducible apply KeepsA.next
    | with_reducible apply Keeps.ite
    | with_reducible apply State.cutTx_keeps
    | with_reducible apply State.onCommand_keeps
    | with_reducible apply State.done_keeps

theorem execChainReset_keeps {s0 : State} (m : Master) (n : Fin 4) (tag : BitVec 8) (s : State) (h : Keeps s0 s) :
    KeepsA s0 (execChainReset m n tag s) := by
  unfold execChainReset
  repeat' first
    | with_reducible assumption
    | intro _
    | (extract_lets +onlyGivenNames x; have hx : Keeps s0 (by with_reducible apply x) := ?_; clear_value x; revert x; intro _ _; rotate_left; subst x)
    | (extract_lets +onlyGivenNames x; clear_value x; revert x; intro _)
    | with_reducible apply KeepsA.next
    | with_reducible apply Keeps.ite
    | with_reducible apply State.toOff_keeps
    | with_reducible apply State.chainStart_keeps
    | with_reducible apply State.onCommand_keeps
    | with_reducible apply State.startRun_keeps
    | with_reducible apply State.done_keeps
    | with_reducible apply State.put_keeps

theorem execXtxWrite_keeps {s0 : State} (m : Master) (v : BitVec 32) (s : State) (h : Keeps s0 s) :
    KeepsA s0 (execXtxWrite m v s) := by
  unfold execXtxWrite
  repeat' first
    | with_reducible assumption
    | intro _
    | (extract_lets +onlyGivenNames x; have hx : Keeps s0 (by with_reducible apply x) := ?_; clear_value x; revert x; intro _ _; rotate_left; subst x)
    | with_reducible apply KeepsA.next
    | with_reducible apply KeepsA.ite
    | with_reducible apply Keeps.ite
    | with_reducible apply State.cutTx_keeps
    | with_reducible apply State.forbidJob_keeps
    | with_reducible apply State.busWrite_keeps
    | with_reducible apply Keeps.foldl
    | split
    | with_reducible refine Keeps.of_pair (by assumption) ?_

end Sys2Proof.Machine
end

