-- ==== Sys2Proof/Laws/KeepsStageOps.lean ====
section
/-! SUPPORT. The operations of Machine/StageOps.lean break nothing (`Keeps`). -/

set_option linter.unusedSimpArgs false

namespace Sys2Proof.Machine

theorem State.applyBits_keeps {s0 : State} (s : State) (b : Block) (key : Nat) (v : W32) (mask : W32) (h : Keeps s0 s) :
    Keeps s0 (State.applyBits s b key v mask) := by
  unfold State.applyBits
  repeat' first
    | with_reducible assumption
    | (extract_lets +onlyGivenNames x; have hx : Keeps s0 (by with_reducible apply x) := ?_; clear_value x; revert x; intro _ _; rotate_left; subst x)
    | (extract_lets +onlyGivenNames x; clear_value x; revert x; intro _)
    | with_reducible apply Keeps.ite
    | with_reducible apply State.setWord_keeps
    | simp -zeta only [Keeps.mk_iff]

theorem State.latch_keeps {s0 : State} (s : State) (b : Block) (device : Bool) (h : Keeps s0 s) :
    Keeps s0 (State.latch s b device) := by
  unfold State.latch
  repeat' first
    | with_reducible assumption
    | intro _
    | (extract_lets +onlyGivenNames x; clear_value x; revert x; intro _)
    | with_reducible apply State.setBlk_keeps
    | with_reducible apply State.put_keeps
    | simp -zeta only [Keeps.mk_iff]

theorem State.applyRx_keeps {s0 : State} (s : State) (b : Block) (h : Keeps s0 s) :
    Keeps s0 (State.applyRx s b) := by
  unfold State.applyRx
  repeat' first
    | with_reducible assumption
    | intro _
    | (extract_lets +onlyGivenNames x; have hx : Keeps s0 (by with_reducible apply x) := ?_; clear_value x; revert x; intro _ _; rotate_left; subst x)
    | with_reducible apply State.applyBits_keeps
    | with_reducible apply State.setBlk_keeps
    | with_reducible apply Keeps.foldl
    | simp -zeta only [Keeps.mk_iff]
    | split

theorem State.applySet_keeps {s0 : State} (s : State) (b : Block) (h : Keeps s0 s) :
    Keeps s0 (State.applySet s b) := by
  unfold State.applySet
  repeat' first
    | with_reducible assumption
    | intro _
    | (extract_lets +onlyGivenNames x; have hx : Keeps s0 (by with_reducible apply x) := ?_; clear_value x; revert x; intro _ _; rotate_left; subst x)
    | with_reducible apply State.applyBits_keeps
    | with_reducible apply State.regrant_keeps
    | with_reducible apply State.setBlk_keeps
    | with_reducible apply State.putB_keeps
    | with_reducible apply State.put_keeps
    | with_reducible apply Keeps.foldl
    | simp -zeta only [Keeps.mk_iff]
    | split

theorem State.deferSet_keeps {s0 : State} (s : State) (b : Block) (h : Keeps s0 s) :
    Keeps s0 (State.deferSet s b) := by
  unfold State.deferSet
  repeat' first
    | with_reducible assumption
    | intro _
    | (extract_lets +onlyGivenNames x; have hx : Keeps s0 (by with_reducible apply x) := ?_; clear_value x; revert x; intro _ _; rotate_left; subst x)
    | with_reducible apply State.setBlk_keeps
    | with_reducible apply State.put_keeps
    | simp -zeta only [Keeps.mk_iff]

theorem State.applyDeferred_keeps {s0 : State} (s : State) (b : Block) (h : Keeps s0 s) :
    Keeps s0 (State.applyDeferred s b) := by
  unfold State.applyDeferred
  repeat' first
    | with_reducible assumption
    | with_reducible apply Keeps.ite
    | with_reducible apply State.applySet_keeps

theorem State.discardStaged_keeps {s0 : State} (s : State) (b : Block) (h : Keeps s0 s) :
    Keeps s0 (State.discardStaged s b) := by
  unfold State.discardStaged
  repeat' first
    | with_reducible assumption
    | intro _
    | (extract_lets +onlyGivenNames x; have hx : Keeps s0 (by with_reducible apply x) := ?_; clear_value x; revert x; intro _ _; rotate_left; subst x)
    | (extract_lets +onlyGivenNames x; clear_value x; revert x; intro _)
    | with_reducible apply Keeps.ite
    | with_reducible apply State.setBlk_keeps
    | with_reducible apply State.putB_keeps
    | with_reducible apply State.put_keeps
    | with_reducible apply State.setWord_keeps
    | with_reducible apply Keeps.foldl
    | simp -zeta only [Keeps.mk_iff]

theorem State.nextSteps_keeps {s0 : State} (s : State) (a0 : Nat) (h : Keeps s0 s) :
    Keeps s0 (State.nextSteps s a0) := by
  induction a0 generalizing s with
  | zero => exact h
  | succ n ih =>
    unfold State.nextSteps
    split
    · exact h
    · split
      · exact h
      · have k l := Keeps.foldl (l := l) (f := fun s b => State.deferSet s b)
          (fun s x hs => State.deferSet_keeps s x hs) h
        extract_lets gone x y
        have ky : Keeps s0 y := Keeps.of_eq (k gone) rfl rfl rfl rfl rfl rfl rfl
        split
        · exact ky
        · exact ih _ (Keeps.of_eq ky rfl rfl rfl rfl rfl rfl rfl)

theorem State.restoreWord_keeps {s0 : State} (s : State) (key : Nat) (v : W32) (h : Keeps s0 s) :
    Keeps s0 (State.restoreWord s key v).1 := by
  unfold State.restoreWord
  repeat' first
    | with_reducible assumption
    | (extract_lets +onlyGivenNames x; clear_value x; revert x; intro _)
    | with_reducible apply State.setWord_keeps
    | split

theorem State.restoreBlock_keeps {s0 : State} (s : State) (b : Block) (h : Keeps s0 s) :
    Keeps s0 (State.restoreBlock s b).1 := by
  unfold State.restoreBlock
  repeat' first
    | with_reducible assumption
    | intro _
    | (extract_lets +onlyGivenNames x; have hx : Keeps s0 (by with_reducible apply x) := ?_; clear_value x; revert x; intro _ _; rotate_left; subst x)
    | with_reducible apply Keeps.ite
    | with_reducible apply State.restoreWord_keeps
    | with_reducible apply State.setBlk_keeps
    | with_reducible apply State.put_keeps
    | with_reducible apply State.setWord_keeps
    | with_reducible apply Keeps.foldl
    | with_reducible apply Keeps.foldl_fst
    | simp -zeta only [Keeps.mk_iff]
    | split

theorem State.blankBlock_keeps {s0 : State} (s : State) (b : Block) (h : Keeps s0 s) :
    Keeps s0 (State.blankBlock s b) := by
  refine h.change rfl id (fun c => ?_) rfl (fun _ x => x) id (Nat.le_refl _)
  by_cases e : b.id = c.id
  · refine .inr ?_
    unfold State.blk State.blankBlock
    dsimp only
    rw [mapGetD_mapSet, if_pos e]
    rfl
  · refine .inl ?_
    unfold State.blankBlock
    simp only [State.blk, mapGetD_mapSet, if_neg e]

end Sys2Proof.Machine
end

