-- ==== Sys2Proof/Laws/KeepsPowerOps.lean ====
section
/-! SUPPORT. The operations of Machine/PowerOps.lean break nothing (`Keeps`). -/

set_option linter.unusedSimpArgs false

namespace Sys2Proof.Machine

theorem State.setDomains_keeps {s0 : State} (s : State) (l : List Nat) (on : Bool) (h : Keeps s0 s) :
    Keeps s0 (State.setDomains s l on) := by
  unfold State.setDomains
  repeat' first
    | with_reducible assumption
    | intro _
    | with_reducible apply State.putB_keeps
    | with_reducible apply Keeps.foldl

theorem State.domainsOn_keeps {s0 : State} (s : State) (l : List Nat) (h : Keeps s0 s) :
    Keeps s0 (State.domainsOn s l).1 := by
  unfold State.domainsOn
  repeat' first
    | with_reducible assumption
    | intro _
    | (extract_lets +onlyGivenNames x; have hx : Keeps s0 (by with_reducible apply x) := ?_; clear_value x; revert x; intro _ _; rotate_left; subst x)
    | with_reducible apply Keeps.ite
    | with_reducible apply State.setDomains_keeps
    | with_reducible apply State.restoreBlock_keeps
    | with_reducible apply State.applyDeferred_keeps
    | with_reducible apply State.emptyTx_keeps
    | with_reducible apply State.stratumNow_keeps
    | with_reducible apply State.setGroupFence_keeps
    | with_reducible apply Keeps.foldl
    | with_reducible apply Keeps.foldl_fst

theorem State.enterSwait_keeps {s0 : State} (s : State) (ports : List Nat) (h : Keeps s0 s) :
    Keeps s0 (State.enterSwait s ports) := by
  unfold State.enterSwait
  repeat' first
    | with_reducible assumption
    | intro _
    | with_reducible apply State.put_keeps
    | with_reducible apply Keeps.foldl

theorem State.milestone_keeps {s0 : State} (s : State) (i : Nat) (h : Keeps s0 s) :
    Keeps s0 (State.milestone s i) := by
  unfold State.milestone
  repeat' first
    | with_reducible assumption
    | with_reducible apply State.put_keeps

theorem State.drawKeys_keeps {s0 : State} (s : State) (h : Keeps s0 s) :
    Keeps s0 (State.drawKeys s) := by
  unfold State.drawKeys
  repeat' first
    | with_reducible assumption
    | (extract_lets +onlyGivenNames x; clear_value x; revert x; intro _)
    | with_reducible apply State.setPipe_keeps
    | with_reducible apply State.draw_keeps
    | simp -zeta only [Keeps.mk_iff]

theorem State.loseVolatile_keeps {s0 : State} (s : State) (h : Keeps s0 s) :
    Keeps s0 (State.loseVolatile s) := by
  unfold State.loseVolatile
  extract_lets a b c
  have ha : Keeps s0 a := State.setDomains_keeps _ _ _ (Keeps.foldl (fun s x hs => State.blankBlock_keeps s x hs) h)
  have hb : Keeps s0 b := State.ledDrop_keeps _ _ _ ha
  have hc : Keeps s0 c := State.put_keeps _ _ _ hb
  clear_value c
  exact (State.fwuReset_keeps _ hc).change rfl (fun _ => rfl) (fun _ => .inl rfl) rfl (fun _ x => x) id (Nat.le_refl _)

theorem State.beginStart_keeps {s0 : State} (s : State) (h : Keeps s0 s) :
    Keeps s0 (State.beginStart s) := by
  unfold State.beginStart
  repeat' first
    | with_reducible assumption
    | (extract_lets +onlyGivenNames x; have hx : Keeps s0 (by with_reducible apply x) := ?_; clear_value x; revert x; intro _ _; rotate_left; subst x)
    | with_reducible apply State.enterSwait_keeps
    | with_reducible apply State.put_keeps
    | simp -zeta only [Keeps.mk_iff]

theorem State.ageRecords_keeps {s0 : State} (s : State) (h : Keeps s0 s) :
    Keeps s0 (State.ageRecords s) := by
  unfold State.ageRecords
  repeat' first
    | with_reducible assumption
    | (extract_lets +onlyGivenNames x; clear_value x; revert x; intro _)
    | simp -zeta only [Keeps.mk_iff]

theorem State.restart_keeps {s0 : State} (s : State) (cause : Nat) (h : Keeps s0 s) :
    Keeps s0 (State.restart s cause) := by
  unfold State.restart
  repeat' first
    | with_reducible assumption
    | (extract_lets +onlyGivenNames x; have hx : Keeps s0 (by with_reducible apply x) := ?_; clear_value x; revert x; intro _ _; rotate_left; subst x)
    | (extract_lets +onlyGivenNames x; clear_value x; revert x; intro _)
    | with_reducible apply Keeps.ite
    | with_reducible apply State.ageRecords_keeps
    | with_reducible apply State.beginStart_keeps
    | with_reducible apply State.loseVolatile_keeps
    | with_reducible apply State.nextSteps_keeps
    | with_reducible apply State.put_keeps
    | simp -zeta only [Keeps.mk_iff]

theorem State.wakeBy_keeps {s0 : State} (s : State) (src : Nat) (h : Keeps s0 s) :
    Keeps s0 (State.wakeBy s src) := by
  unfold State.wakeBy
  repeat' first
    | with_reducible assumption
    | (extract_lets +onlyGivenNames x; have hx : Keeps s0 (by with_reducible apply x) := ?_; clear_value x; revert x; intro _ _; rotate_left; subst x)
    | with_reducible apply Keeps.ite
    | with_reducible apply State.ageRecords_keeps
    | with_reducible apply State.beginStart_keeps
    | with_reducible apply State.evt_keeps
    | with_reducible apply State.put_keeps
    | simp -zeta only [Keeps.mk_iff]

theorem State.unpowered_keeps {s0 : State} (s : State) (h : Keeps s0 s) :
    Keeps s0 (State.unpowered s) := by
  refine h.change rfl (fun _ => rfl) (fun b => .inr ?_) rfl (fun k x => ?_) id (Nat.le_refl _)
  · cases b <;> rfl
  · have e : (State.fwuReset s).fwu.revoked = s.fwu.revoked := by
      unfold State.fwuReset State.setFwu
      dsimp only
      split <;> rfl
    show natBit (State.fwuReset s).fwu.revoked k = true
    rw [e]; exact x

theorem State.allOff_keeps {s0 : State} (s : State) (h : Keeps s0 s) :
    Keeps s0 (State.allOff s) := by
  unfold State.allOff
  repeat' first
    | with_reducible assumption
    | with_reducible apply State.setDomains_keeps

theorem State.writeRecord_keeps {s0 : State} (s : State) (h0 : Nat) (h : Keeps s0 s) :
    Keeps s0 (State.writeRecord s h0) := by
  unfold State.writeRecord
  repeat' first
    | with_reducible assumption
    | (extract_lets +onlyGivenNames x; have hx : Keeps s0 (by with_reducible apply x) := ?_; clear_value x; revert x; intro _ _; rotate_left; subst x)
    | (extract_lets +onlyGivenNames x; clear_value x; revert x; intro _)
    | with_reducible apply State.ledOut_keeps
    | with_reducible apply State.evtIf_keeps
    | with_reducible apply State.put_keeps
    | simp -zeta only [Keeps.mk_iff]
    | split

theorem State.writeAllRecords_keeps {s0 : State} (s : State) (h : Keeps s0 s) :
    Keeps s0 (State.writeAllRecords s) := by
  unfold State.writeAllRecords
  repeat' first
    | with_reducible assumption
    | intro _
    | with_reducible apply State.writeRecord_keeps
    | with_reducible apply Keeps.foldl

theorem State.writeMarker_keeps {s0 : State} (s : State) (h : Keeps s0 s) :
    Keeps s0 (State.writeMarker s) := by
  unfold State.writeMarker
  repeat' first
    | with_reducible assumption
    | (extract_lets +onlyGivenNames x; clear_value x; revert x; intro _)
    | simp -zeta only [Keeps.mk_iff]

theorem State.restoreDone_keeps {s0 : State} (s : State) (event : Bool) (h : Keeps s0 s) :
    Keeps s0 (State.restoreDone s event) := by
  unfold State.restoreDone
  repeat' first
    | with_reducible assumption
    | (extract_lets +onlyGivenNames x; have hx : Keeps s0 (by with_reducible apply x) := ?_; clear_value x; revert x; intro _ _; rotate_left; subst x)
    | (extract_lets +onlyGivenNames x; clear_value x; revert x; intro _)
    | with_reducible apply State.evtIf_keeps
    | with_reducible apply State.put_keeps
    | simp -zeta only [Keeps.mk_iff]

theorem State.restorePump_keeps {s0 : State} (a0 : Nat) (s : State) (h : Keeps s0 s) :
    Keeps s0 (State.restorePump a0 s) := by
  induction a0 generalizing s with
  | zero => exact h
  | succ n ih =>
    unfold State.restorePump
    split
    · split
      · exact State.restoreDone_keeps _ _ h
      · exact h
    · split
      · exact h
      · split
        · rename_i e
          exact ih _ (Keeps.of_eq (Keeps.of_pair e (State.hwPost_keeps _ _ _ h)) rfl rfl rfl rfl rfl rfl rfl)
        · rename_i e
          exact Keeps.of_pair e (State.hwPost_keeps _ _ _ h)

theorem State.startRestore_keeps {s0 : State} (s : State) (h : Keeps s0 s) :
    Keeps s0 (State.startRestore s) := by
  unfold State.startRestore
  repeat' first
    | with_reducible assumption
    | (extract_lets +onlyGivenNames x; have hx : Keeps s0 (by with_reducible apply x) := ?_; clear_value x; revert x; intro _ _; rotate_left; subst x)
    | (extract_lets +onlyGivenNames x; clear_value x; revert x; intro _)
    | with_reducible apply Keeps.ite
    | with_reducible apply State.restorePump_keeps
    | with_reducible apply State.restoreDone_keeps
    | with_reducible apply State.ageRecords_keeps
    | with_reducible apply State.put_keeps
    | simp -zeta only [Keeps.mk_iff]
    | split

theorem State.restoredUnc_keeps {s0 : State} (s : State) (last : Nat) (h : Keeps s0 s) :
    Keeps s0 (State.restoredUnc s last).2 := by
  unfold State.restoredUnc
  repeat' first
    | with_reducible assumption
    | (extract_lets +onlyGivenNames x; clear_value x; revert x; intro _)
    | with_reducible apply State.draw_keeps

theorem State.voidCopy_keeps {s0 : State} (s : State) (b : Bool) (h : Keeps s0 s) :
    Keeps s0 (State.voidCopy s b) := by
  unfold State.voidCopy
  repeat' first
    | with_reducible assumption
    | (extract_lets +onlyGivenNames x; clear_value x; revert x; intro _)
    | with_reducible apply Keeps.ite
    | with_reducible apply State.put_keeps
    | simp -zeta only [Keeps.mk_iff]

theorem State.startStore_keeps {s0 : State} (s : State) (b : Bool) (h : Keeps s0 s) :
    Keeps s0 (State.startStore s b) := by
  unfold State.startStore
  repeat' first
    | with_reducible assumption
    | (extract_lets +onlyGivenNames x; have hx : Keeps s0 (by with_reducible apply x) := ?_; clear_value x; revert x; intro _ _; rotate_left; subst x)
    | (extract_lets +onlyGivenNames x; clear_value x; revert x; intro _)
    | with_reducible apply State.voidCopy_keeps
    | with_reducible apply State.put_keeps
    | simp -zeta only [Keeps.mk_iff]

theorem State.askStore_keeps {s0 : State} (s : State) (h : Keeps s0 s) :
    Keeps s0 (State.askStore s) := by
  unfold State.askStore
  repeat' first
    | with_reducible assumption
    | (extract_lets +onlyGivenNames x; clear_value x; revert x; intro _)
    | with_reducible apply Keeps.ite
    | with_reducible apply State.startStore_keeps
    | simp -zeta only [Keeps.mk_iff]

theorem State.abandon_keeps {s0 : State} (s : State) (i : Nat) (h : Keeps s0 s) :
    Keeps s0 (State.abandon s i) := by
  unfold State.abandon
  repeat' first
    | with_reducible assumption
    | intro _
    | (extract_lets +onlyGivenNames x; have hx : Keeps s0 (by with_reducible apply x) := ?_; clear_value x; revert x; intro _ _; rotate_left; subst x)
    | (extract_lets +onlyGivenNames x; clear_value x; revert x; intro _)
    | with_reducible apply Keeps.ite
    | with_reducible apply State.sendEnd_keeps
    | with_reducible apply State.endEgress_keeps
    | with_reducible apply State.settle_keeps
    | with_reducible apply State.setFrame_keeps
    | with_reducible apply State.ledDrop_keeps
    | with_reducible apply Keeps.foldl
    | split

theorem State.reclaimPower_keeps {s0 : State} (s : State) (owners : List Nat) (h : Keeps s0 s) :
    Keeps s0 (State.reclaimPower s owners) := by
  unfold State.reclaimPower
  repeat' first
    | with_reducible assumption
    | intro _
    | (extract_lets +onlyGivenNames x; have hx : Keeps s0 (by with_reducible apply x) := ?_; clear_value x; revert x; intro _ _; rotate_left; subst x)
    | (extract_lets +onlyGivenNames x; clear_value x; revert x; intro _)
    | with_reducible apply State.abandon_keeps
    | with_reducible apply State.reclaim_keeps
    | with_reducible apply State.bumpSat_keeps
    | with_reducible apply Keeps.foldl

theorem State.cutPort_keeps {s0 : State} (s : State) (p : Nat) (h : Keeps s0 s) :
    Keeps s0 (State.cutPort s p) := by
  unfold State.cutPort
  repeat' first
    | with_reducible assumption
    | intro _
    | (extract_lets +onlyGivenNames x; have hx : Keeps s0 (by with_reducible apply x) := ?_; clear_value x; revert x; intro _ _; rotate_left; subst x)
    | with_reducible apply Keeps.ite
    | with_reducible apply State.abandon_keeps
    | with_reducible apply State.endEgress_keeps
    | with_reducible apply State.portDrop_keeps
    | with_reducible apply State.ledIn_keeps
    | with_reducible apply Keeps.foldl
    | split

theorem State.cutChain_keeps {s0 : State} (s : State) (n : Nat) (h : Keeps s0 s) :
    Keeps s0 (State.cutChain s n) := by
  unfold State.cutChain
  repeat' first
    | with_reducible assumption
    | intro _
    | (extract_lets +onlyGivenNames x; have hx : Keeps s0 (by with_reducible apply x) := ?_; clear_value x; revert x; intro _ _; rotate_left; subst x)
    | (extract_lets +onlyGivenNames x; clear_value x; revert x; intro _)
    | with_reducible apply State.toOff_keeps
    | with_reducible apply State.flushReady_keeps
    | with_reducible apply State.finishItem_keeps
    | with_reducible apply Keeps.foldl
    | simp -zeta only [Keeps.mk_iff]

theorem State.loseClientSas_keeps {s0 : State} (s : State) (h : Keeps s0 s) :
    Keeps s0 (State.loseClientSas s) := by
  unfold State.loseClientSas
  repeat' first
    | with_reducible assumption
    | (extract_lets +onlyGivenNames x; have hx : Keeps s0 (by with_reducible apply x) := ?_; clear_value x; revert x; intro _ _; rotate_left; subst x)
    | (extract_lets +onlyGivenNames x; clear_value x; revert x; intro _)
    | with_reducible apply Keeps.ite
    | with_reducible apply State.done_keeps
    | simp -zeta only [Keeps.mk_iff]
    | split

theorem State.enterTrim_keeps {s0 : State} (s : State) (h : Keeps s0 s) :
    Keeps s0 (State.enterTrim s) := by
  unfold State.enterTrim
  repeat' first
    | with_reducible assumption
    | intro _
    | (extract_lets +onlyGivenNames x; have hx : Keeps s0 (by with_reducible apply x) := ?_; clear_value x; revert x; intro _ _; rotate_left; subst x)
    | (extract_lets +onlyGivenNames x; clear_value x; revert x; intro _)
    | with_reducible apply Keeps.ite
    | with_reducible apply State.loseClientSas_keeps
    | with_reducible apply State.cutChain_keeps
    | with_reducible apply State.cutPort_keeps
    | with_reducible apply State.reclaimPower_keeps
    | with_reducible apply State.setDomains_keeps
    | with_reducible apply State.blankBlock_keeps
    | with_reducible apply State.emptyTx_keeps
    | with_reducible apply State.setGroupFence_keeps
    | with_reducible apply State.setWord_keeps
    | with_reducible apply Keeps.foldl
    | simp -zeta only [Keeps.mk_iff]

theorem State.returnQueued_keeps {s0 : State} (s : State) (n : Nat) (h : Keeps s0 s) :
    Keeps s0 (State.returnQueued s n) := by
  unfold State.returnQueued
  repeat' first
    | with_reducible assumption
    | intro _
    | (extract_lets +onlyGivenNames x; have hx : Keeps s0 (by with_reducible apply x) := ?_; clear_value x; revert x; intro _ _; rotate_left; subst x)
    | with_reducible apply State.returnJob_keeps
    | with_reducible apply State.flushReady_keeps
    | with_reducible apply Keeps.foldl

theorem State.leaveTrim_keeps {s0 : State} (s : State) (h : Keeps s0 s) :
    Keeps s0 (State.leaveTrim s) := by
  unfold State.leaveTrim
  repeat' first
    | with_reducible assumption
    | intro _
    | with_reducible apply State.enterSwait_keeps
    | with_reducible apply State.domainsOn_keeps
    | with_reducible apply State.loadUnit_keeps
    | with_reducible apply State.chainStart_keeps
    | with_reducible apply State.bumpSat_keeps
    | with_reducible apply Keeps.foldl

end Sys2Proof.Machine
end

