-- ==== Sys2Proof/Laws/KeepsFwu.lean ====
section
/-! SUPPORT. The operations of Machine/Fwu.lean break nothing (`Keeps`). -/

set_option linter.unusedSimpArgs false

namespace Sys2Proof.Machine

theorem State.forgetSlot_keeps {s0 : State} (s : State) (slot : Nat) (h : Keeps s0 s) :
    Keeps s0 (State.forgetSlot s slot) := by
  unfold State.forgetSlot
  repeat' first
    | with_reducible assumption
    | intro _
    | with_reducible apply State.setFwu_keeps
    | simp -zeta only [Keeps.mk_iff]

theorem execSlotErase_keeps {s0 : State} (m : Master) (tag : BitVec 8) (s : State) (h : Keeps s0 s) :
    KeepsA s0 (execSlotErase m tag s) := by
  unfold execSlotErase
  repeat' first
    | with_reducible assumption
    | intro _
    | (extract_lets +onlyGivenNames x; have hx : Keeps s0 (by with_reducible apply x) := ?_; clear_value x; revert x; intro _ _; rotate_left; subst x)
    | (extract_lets +onlyGivenNames x; clear_value x; revert x; intro _)
    | with_reducible apply KeepsA.next
    | with_reducible apply KeepsA.ite
    | with_reducible apply Keeps.ite
    | with_reducible apply State.forgetSlot_keeps
    | with_reducible apply State.norErase_keeps
    | with_reducible apply State.drive_keeps
    | with_reducible apply State.onCommand_keeps
    | with_reducible apply State.done_keeps
    | with_reducible apply State.put_keeps
    | with_reducible apply Keeps.foldl
    | with_reducible apply Keeps.foldl_fst
    | simp -zeta only [Keeps.mk_iff]
    | with_reducible rfl
    | split
    | with_reducible exact Keeps.of_pair (by assumption) (by assumption)
    | with_reducible refine Keeps.of_pair (by assumption) ?_
    | with_reducible refine Keeps.of_pair' (by assumption) ?_
    | with_reducible refine Keeps.of_some (by assumption) ?_
    | with_reducible refine Keeps.of_someA (by assumption) ?_
    | with_reducible exact Keeps.of_someO (by assumption)
    | with_reducible apply KeepsOA.getD
    | simp only [StarterSt.storeNow_lc, StarterSt.storeNow_off, StarterSt.commitUpdate_lc, StarterSt.commitUpdate_off, StarterSt.beginUpdate_lc, StarterSt.beginUpdate_off, StarterSt.commitAll_lc, StarterSt.commitAll_off]
    | with_reducible contradiction
    | dsimp -zeta only

theorem execSlotWrite_keeps {s0 : State} (m : Master) (tag : BitVec 8) (s : State) (h : Keeps s0 s) :
    KeepsA s0 (execSlotWrite m tag s) := by
  unfold execSlotWrite
  repeat' first
    | with_reducible assumption
    | intro _
    | (extract_lets +onlyGivenNames x; have hx : Keeps s0 (by with_reducible apply x) := ?_; clear_value x; revert x; intro _ _; rotate_left; subst x)
    | (extract_lets +onlyGivenNames x; clear_value x; revert x; intro _)
    | with_reducible apply KeepsA.next
    | with_reducible apply KeepsA.ite
    | with_reducible apply Keeps.ite
    | with_reducible apply State.forgetSlot_keeps
    | with_reducible apply State.norProgram_keeps
    | with_reducible apply State.drive_keeps
    | with_reducible apply State.onCommand_keeps
    | with_reducible apply State.done_keeps
    | with_reducible apply State.put_keeps
    | with_reducible apply Keeps.foldl
    | with_reducible apply Keeps.foldl_fst
    | simp -zeta only [Keeps.mk_iff]
    | with_reducible rfl
    | split
    | with_reducible exact Keeps.of_pair (by assumption) (by assumption)
    | with_reducible refine Keeps.of_pair (by assumption) ?_
    | with_reducible refine Keeps.of_pair' (by assumption) ?_
    | with_reducible refine Keeps.of_some (by assumption) ?_
    | with_reducible refine Keeps.of_someA (by assumption) ?_
    | with_reducible exact Keeps.of_someO (by assumption)
    | with_reducible apply KeepsOA.getD
    | simp only [StarterSt.storeNow_lc, StarterSt.storeNow_off, StarterSt.commitUpdate_lc, StarterSt.commitUpdate_off, StarterSt.beginUpdate_lc, StarterSt.beginUpdate_off, StarterSt.commitAll_lc, StarterSt.commitAll_off]
    | with_reducible contradiction
    | dsimp -zeta only

theorem execSlotVerify_keeps {s0 : State} (m : Master) (tag : BitVec 8) (s : State) (h : Keeps s0 s) :
    KeepsA s0 (execSlotVerify m tag s) := by
  unfold execSlotVerify
  repeat' first
    | with_reducible assumption
    | intro _
    | (extract_lets +onlyGivenNames x; have hx : Keeps s0 (by with_reducible apply x) := ?_; clear_value x; revert x; intro _ _; rotate_left; subst x)
    | (extract_lets +onlyGivenNames x; have hx : ProofSt := (by with_reducible apply x); clear hx; subst x)
    | (extract_lets +onlyGivenNames x; have hx : FwuSt := (by with_reducible apply x); clear hx; subst x)
    | (extract_lets +onlyGivenNames x; have hx : StarterSt := (by with_reducible apply x); clear hx; subst x)
    | (extract_lets +onlyGivenNames x; clear_value x; revert x; intro _)
    | with_reducible apply KeepsA.next
    | with_reducible apply KeepsA.ite
    | with_reducible apply Keeps.ite
    | with_reducible apply State.setFwu_keeps
    | with_reducible apply State.drive_keeps
    | with_reducible apply State.onCommand_keeps
    | with_reducible apply State.done_keeps
    | with_reducible apply State.evt_keeps
    | with_reducible apply Keeps.foldl
    | with_reducible apply Keeps.foldl_fst
    | simp -zeta only [Keeps.mk_iff]
    | with_reducible rfl
    | split
    | with_reducible exact Keeps.of_pair (by assumption) (by assumption)
    | with_reducible refine Keeps.of_pair (by assumption) ?_
    | with_reducible refine Keeps.of_pair' (by assumption) ?_
    | with_reducible refine Keeps.of_some (by assumption) ?_
    | with_reducible refine Keeps.of_someA (by assumption) ?_
    | with_reducible exact Keeps.of_someO (by assumption)
    | with_reducible apply KeepsOA.getD
    | simp only [StarterSt.storeNow_lc, StarterSt.storeNow_off, StarterSt.commitUpdate_lc, StarterSt.commitUpdate_off, StarterSt.beginUpdate_lc, StarterSt.beginUpdate_off, StarterSt.commitAll_lc, StarterSt.commitAll_off]
    | with_reducible contradiction
    | dsimp -zeta only

theorem execCheck_keeps {s0 : State} (xm : Master) (tag : BitVec 8) (s : State) (h : Keeps s0 s) :
    KeepsA s0 (execCheck xm tag s) := by
  unfold execCheck
  repeat' first
    | with_reducible assumption
    | intro _
    | (extract_lets +onlyGivenNames x; clear_value x; revert x; intro _)
    | with_reducible apply KeepsA.next
    | with_reducible apply Keeps.ite
    | with_reducible apply State.onCommand_keeps
    | with_reducible apply State.done_keeps
    | with_reducible apply State.complete_keeps
    | split

theorem execActivate_keeps {s0 : State} (m : Master) (tag : BitVec 8) (s : State) (h : Keeps s0 s) :
    KeepsA s0 (execActivate m tag s) := by
  unfold execActivate
  repeat' first
    | with_reducible assumption
    | intro _
    | (extract_lets +onlyGivenNames x; have hx : Keeps s0 (by with_reducible apply x) := ?_; clear_value x; revert x; intro _ _; rotate_left; subst x)
    | (extract_lets +onlyGivenNames x; clear_value x; revert x; intro _)
    | with_reducible apply KeepsA.next
    | with_reducible apply Keeps.ite
    | with_reducible apply State.setFwu_keeps
    | with_reducible apply State.onCommand_keeps
    | with_reducible apply State.startRun_keeps
    | with_reducible apply State.done_keeps
    | with_reducible apply State.complete_keeps
    | simp -zeta only [Keeps.mk_iff]
    | split

theorem State.pauseFwu_keeps {s0 : State} (s : State) (mask : Nat) (on : Bool) (h : Keeps s0 s) :
    Keeps s0 (State.pauseFwu s mask on) := by
  unfold State.pauseFwu
  repeat' first
    | with_reducible assumption
    | (extract_lets +onlyGivenNames x; have hx : Keeps s0 (by with_reducible apply x) := ?_; clear_value x; revert x; intro _ _; rotate_left; subst x)
    | (extract_lets +onlyGivenNames x; clear_value x; revert x; intro _)
    | with_reducible apply Keeps.ite
    | with_reducible apply State.regrant_keeps
    | with_reducible apply State.put_keeps

theorem State.endActivation_keeps {s0 : State} (s : State) (c : Code) (h : Keeps s0 s) :
    Keeps s0 (State.endActivation s c) := by
  unfold State.endActivation
  repeat' first
    | with_reducible assumption
    | intro _
    | (extract_lets +onlyGivenNames x; have hx : Keeps s0 (by with_reducible apply x) := ?_; clear_value x; revert x; intro _ _; rotate_left; subst x)
    | (extract_lets +onlyGivenNames x; clear_value x; revert x; intro _)
    | with_reducible apply Keeps.ite
    | with_reducible apply State.openWindow_keeps
    | with_reducible apply State.setFwu_keeps
    | with_reducible apply State.done_keeps
    | with_reducible apply State.complete_keeps
    | with_reducible apply State.evt_keeps
    | with_reducible apply State.put_keeps
    | simp -zeta only [Keeps.mk_iff]
    | split

theorem State.endUnit_keeps {s0 : State} (s : State) (a : Activation) (u : Nat) (h : Keeps s0 s) :
    Keeps s0 (State.endUnit s a u) := by
  unfold State.endUnit
  repeat' first
    | with_reducible assumption
    | intro _
    | (extract_lets +onlyGivenNames x; have hx : Keeps s0 (by with_reducible apply x) := ?_; clear_value x; revert x; intro _ _; rotate_left; subst x)
    | (extract_lets +onlyGivenNames x; clear_value x; revert x; intro _)
    | with_reducible apply Keeps.ite
    | with_reducible apply State.endActivation_keeps
    | with_reducible apply State.setFwu_keeps
    | with_reducible apply State.ledOut_keeps
    | with_reducible apply State.put_keeps
    | simp -zeta only [Keeps.mk_iff]

theorem State.recordUnit_keeps {s0 : State} (s : State) (a : Activation) (u : Nat) (h : Keeps s0 s) :
    Keeps s0 (State.recordUnit s a u) := by
  unfold State.recordUnit
  repeat' first
    | with_reducible assumption
    | intro _
    | with_reducible apply State.setFwu_keeps
    | simp -zeta only [Keeps.mk_iff]

theorem State.unitStage_keeps {s0 : State} (s : State) (a : Activation) (st : UnitStage) (h : Keeps s0 s) :
    Keeps s0 (State.unitStage s a st) := by
  unfold State.unitStage
  repeat' first
    | with_reducible assumption
    | intro _
    | with_reducible apply State.setFwu_keeps
    | simp -zeta only [Keeps.mk_iff]

theorem State.loadChain_keeps {s0 : State} (s : State) (a : Activation) (u : Nat) (h : Keeps s0 s) :
    Keeps s0 (State.loadChain s a u) := by
  unfold State.loadChain
  repeat' first
    | with_reducible assumption
    | (extract_lets +onlyGivenNames x; have hx : Keeps s0 (by with_reducible apply x) := ?_; clear_value x; revert x; intro _ _; rotate_left; subst x)
    | with_reducible apply State.unitStage_keeps
    | with_reducible apply State.recordUnit_keeps
    | with_reducible apply State.loadUnit_keeps
    | with_reducible apply State.toOff_keeps
    | with_reducible apply State.chainStart_keeps

theorem State.beginUnit_keeps {s0 : State} (s : State) (a : Activation) (u : Nat) (h : Keeps s0 s) :
    Keeps s0 (State.beginUnit s a u) := by
  unfold State.beginUnit
  repeat' first
    | with_reducible assumption
    | intro _
    | (extract_lets +onlyGivenNames x; have hx : Keeps s0 (by with_reducible apply x) := ?_; clear_value x; revert x; intro _ _; rotate_left; subst x)
    | (extract_lets +onlyGivenNames x; clear_value x; revert x; intro _)
    | with_reducible apply Keeps.ite
    | with_reducible apply State.loadChain_keeps
    | with_reducible apply State.unitStage_keeps
    | with_reducible apply State.recordUnit_keeps
    | with_reducible apply State.endUnit_keeps
    | with_reducible apply State.pauseFwu_keeps
    | with_reducible apply State.loadUnit_keeps
    | with_reducible apply State.retrain_keeps
    | with_reducible apply State.finishItem_keeps
    | with_reducible apply State.ledIn_keeps
    | with_reducible apply State.put_keeps
    | with_reducible apply Keeps.foldl

theorem execActivateUnit_keeps {s0 : State} (s : State) (h : Keeps s0 s) :
    KeepsA s0 (execActivateUnit s) := by
  unfold execActivateUnit
  repeat' first
    | with_reducible assumption
    | (extract_lets +onlyGivenNames x; clear_value x; revert x; intro _)
    | with_reducible apply KeepsA.next
    | with_reducible apply KeepsA.ite
    | with_reducible apply Keeps.ite
    | with_reducible apply State.beginUnit_keeps
    | with_reducible apply State.loadChain_keeps
    | with_reducible apply State.endUnit_keeps
    | with_reducible apply State.endActivation_keeps
    | with_reducible apply State.pauseFwu_keeps
    | split

theorem execLinkWaitTimeout_keeps {s0 : State} (s : State) (h : Keeps s0 s) :
    KeepsA s0 (execLinkWaitTimeout s) := by
  unfold execLinkWaitTimeout
  repeat' first
    | with_reducible assumption
    | intro _
    | (extract_lets +onlyGivenNames x; have hx : Keeps s0 (by with_reducible apply x) := ?_; clear_value x; revert x; intro _ _; rotate_left; subst x)
    | with_reducible apply KeepsA.next
    | with_reducible apply KeepsA.ite
    | with_reducible apply State.endActivation_keeps
    | with_reducible apply State.loadUnit_keeps
    | with_reducible apply State.setFwu_keeps
    | with_reducible apply State.retrain_keeps
    | with_reducible apply State.ledDrop_keeps
    | with_reducible apply State.evt_keeps
    | with_reducible apply State.put_keeps
    | simp -zeta only [Keeps.mk_iff]
    | split

theorem execFwuDrainExpired_keeps {s0 : State} (s : State) (h : Keeps s0 s) :
    KeepsA s0 (execFwuDrainExpired s) := by
  unfold execFwuDrainExpired
  repeat' first
    | with_reducible assumption
    | with_reducible apply KeepsA.next
    | with_reducible apply KeepsA.ite
    | with_reducible apply State.loadChain_keeps
    | split

theorem execCtrlFirmwareRunning_keeps {s0 : State} (s : State) (h : Keeps s0 s) :
    KeepsA s0 (execCtrlFirmwareRunning s) := by
  unfold execCtrlFirmwareRunning
  repeat' first
    | with_reducible assumption
    | with_reducible apply KeepsA.next
    | with_reducible apply KeepsA.ite
    | with_reducible apply State.endUnit_keeps
    | with_reducible apply State.pauseFwu_keeps
    | split

theorem State.cutActivation_keeps {s0 : State} (s : State) (c : Code) (h : Keeps s0 s) :
    Keeps s0 (State.cutActivation s c) := by
  unfold State.cutActivation
  repeat' first
    | with_reducible assumption
    | (extract_lets +onlyGivenNames x; have hx : Keeps s0 (by with_reducible apply x) := ?_; clear_value x; revert x; intro _ _; rotate_left; subst x)
    | with_reducible apply Keeps.ite
    | with_reducible apply State.endActivation_keeps
    | with_reducible apply State.pauseFwu_keeps
    | with_reducible apply State.ledFence_keeps
    | with_reducible apply State.ledDrop_keeps
    | split

theorem State.confirmTrial_keeps {s0 : State} (s : State) (h : Keeps s0 s) :
    Keeps s0 (State.confirmTrial s) := by
  unfold State.confirmTrial
  repeat' first
    | with_reducible assumption
    | intro _
    | (extract_lets +onlyGivenNames x; have hx : Keeps s0 (by with_reducible apply x) := ?_; clear_value x; revert x; intro _ _; rotate_left; subst x)
    | with_reducible apply State.setFwu_keeps
    | with_reducible apply State.done_keeps
    | with_reducible apply State.evt_keeps
    | simp -zeta only [Keeps.mk_iff]

theorem execConfirm_keeps {s0 : State} (m : Master) (tag : BitVec 8) (s : State) (h : Keeps s0 s) :
    KeepsA s0 (execConfirm m tag s) := by
  unfold execConfirm
  repeat' first
    | with_reducible assumption
    | intro _
    | with_reducible apply KeepsA.next
    | with_reducible apply Keeps.ite
    | with_reducible apply State.confirmTrial_keeps
    | with_reducible apply State.onCommand_keeps
    | with_reducible apply State.startRun_keeps
    | with_reducible apply State.done_keeps
    | split

theorem State.fallAndReset_keeps {s0 : State} (s : State) (cause : Nat) (h : Keeps s0 s) :
    Keeps s0 (State.fallAndReset s cause) := by
  unfold State.fallAndReset
  repeat' first
    | with_reducible assumption
    | (extract_lets +onlyGivenNames x; have hx : Keeps s0 (by with_reducible apply x) := ?_; clear_value x; revert x; intro _ _; rotate_left; subst x)
    | with_reducible apply State.fallBack_keeps
    | simp -zeta only [Keeps.mk_iff]

theorem execFallback_keeps {s0 : State} (m : Master) (tag : BitVec 8) (s : State) (h : Keeps s0 s) :
    KeepsA s0 (execFallback m tag s) := by
  unfold execFallback
  repeat' first
    | with_reducible assumption
    | intro _
    | (extract_lets +onlyGivenNames x; have hx : Keeps s0 (by with_reducible apply x) := ?_; clear_value x; revert x; intro _ _; rotate_left; subst x)
    | with_reducible apply KeepsA.next
    | with_reducible apply Keeps.ite
    | with_reducible apply State.fallAndReset_keeps
    | with_reducible apply State.onCommand_keeps
    | with_reducible apply State.startRun_keeps
    | with_reducible apply State.done_keeps

theorem execTrialWindowExpired_keeps {s0 : State} (s : State) (h : Keeps s0 s) :
    KeepsA s0 (execTrialWindowExpired s) := by
  unfold execTrialWindowExpired
  repeat' first
    | with_reducible assumption
    | (extract_lets +onlyGivenNames x; have hx : Keeps s0 (by with_reducible apply x) := ?_; clear_value x; revert x; intro _ _; rotate_left; subst x)
    | with_reducible apply KeepsA.next
    | with_reducible apply KeepsA.ite
    | with_reducible apply Keeps.ite
    | with_reducible apply State.fallAndReset_keeps
    | with_reducible apply State.advanceTo_keeps

theorem State.fwuResumed_keeps {s0 : State} (s : State) (h : Keeps s0 s) :
    Keeps s0 (State.fwuResumed s) := by
  unfold State.fwuResumed
  repeat' first
    | with_reducible assumption
    | intro _
    | (extract_lets +onlyGivenNames x; have hx : Keeps s0 (by with_reducible apply x) := ?_; clear_value x; revert x; intro _ _; rotate_left; subst x)
    | with_reducible apply Keeps.ite
    | with_reducible apply State.fallAndReset_keeps
    | with_reducible apply State.confirmTrial_keeps
    | with_reducible apply State.endActivation_keeps
    | with_reducible apply State.setFwu_keeps
    | simp -zeta only [Keeps.mk_iff]
    | split

theorem execKeyRevoke_keeps {s0 : State} (m : Master) (tag : BitVec 8) (s : State) (h : Keeps s0 s) :
    KeepsA s0 (execKeyRevoke m tag s) := by
  unfold execKeyRevoke
  refine .next (State.onCommand_keeps _ _ _ _ _ h fun x hx => ?_)
  extract_lets k left
  split
  · exact State.done_keeps _ _ _ hx
  · split
    · exact State.done_keeps _ _ _ hx
    · refine State.done_keeps _ _ _ (hx.change rfl id (fun _ => .inl rfl) rfl (fun j y => ?_) id (Nat.le_refl _))
      exact natBit_or_left y

end Sys2Proof.Machine
end

