-- ==== Sys2Proof/Laws/KeepsHost.lean ====
section
/-! SUPPORT. The operations of Machine/Host.lean break nothing (`Keeps`). -/

set_option linter.unusedSimpArgs false

namespace Sys2Proof.Machine

theorem State.hostReset_keeps {s0 : State} (s : State) (bit : Nat) (h : Keeps s0 s) :
    Keeps s0 (State.hostReset s bit) := by
  unfold State.hostReset
  repeat' first
    | with_reducible assumption
    | intro _
    | (extract_lets +onlyGivenNames x; have hx : Keeps s0 (by with_reducible apply x) := ?_; clear_value x; revert x; intro _ _; rotate_left; subst x)
    | with_reducible apply Keeps.ite
    | with_reducible apply State.revoke_keeps
    | with_reducible apply State.evt_keeps
    | with_reducible apply Keeps.foldl
    | simp -zeta only [Keeps.mk_iff]

theorem State.linkGone_keeps {s0 : State} (s : State) (h : Keeps s0 s) :
    Keeps s0 (State.linkGone s) := by
  unfold State.linkGone
  repeat' first
    | with_reducible assumption
    | with_reducible apply State.put_keeps

theorem execPcieLinkLoss_keeps {s0 : State} (s : State) (h : Keeps s0 s) :
    KeepsA s0 (execPcieLinkLoss s) := by
  unfold execPcieLinkLoss
  repeat' first
    | with_reducible assumption
    | with_reducible apply KeepsA.next
    | with_reducible apply Keeps.ite
    | with_reducible apply State.linkGone_keeps
    | with_reducible apply State.hostReset_keeps
    | with_reducible apply State.bump_keeps

theorem execPcieFlr_keeps {s0 : State} (s : State) (h : Keeps s0 s) :
    KeepsA s0 (execPcieFlr s) := by
  unfold execPcieFlr
  repeat' first
    | with_reducible assumption
    | with_reducible apply KeepsA.next
    | with_reducible apply Keeps.ite
    | with_reducible apply State.hostReset_keeps

theorem execPerst_keeps {s0 : State} (s : State) (h : Keeps s0 s) :
    KeepsA s0 (execPerst s) := by
  unfold execPerst
  repeat' first
    | with_reducible assumption
    | (extract_lets +onlyGivenNames x; have hx : Keeps s0 (by with_reducible apply x) := ?_; clear_value x; revert x; intro _ _; rotate_left; subst x)
    | (extract_lets +onlyGivenNames x; clear_value x; revert x; intro _)
    | with_reducible apply KeepsA.next
    | with_reducible apply Keeps.ite
    | with_reducible apply State.linkGone_keeps
    | with_reducible apply State.hostReset_keeps
    | with_reducible apply State.bump_keeps

theorem execPcieLinkUp_keeps {s0 : State} (speed : Fin 4) (width : Fin 3) (s : State) (h : Keeps s0 s) :
    KeepsA s0 (execPcieLinkUp speed width s) := by
  unfold execPcieLinkUp
  repeat' first
    | with_reducible assumption
    | with_reducible apply KeepsA.next
    | with_reducible apply Keeps.ite
    | with_reducible apply State.put_keeps

theorem State.coalRx_keeps {s0 : State} (s : State) (q : Nat) (h : Keeps s0 s) :
    Keeps s0 (State.coalRx s q) := by
  unfold State.coalRx
  repeat' first
    | with_reducible assumption
    | (extract_lets +onlyGivenNames x; clear_value x; revert x; intro _)
    | with_reducible apply Keeps.ite
    | with_reducible apply State.setQueue_keeps
    | with_reducible apply State.msi_keeps

theorem State.coalTx_keeps {s0 : State} (s : State) (q : Nat) (h : Keeps s0 s) :
    Keeps s0 (State.coalTx s q) := by
  unfold State.coalTx
  repeat' first
    | with_reducible assumption
    | (extract_lets +onlyGivenNames x; clear_value x; revert x; intro _)
    | with_reducible apply Keeps.ite
    | with_reducible apply State.setQueue_keeps
    | with_reducible apply State.msi_keeps

theorem execCoalTimer_keeps {s0 : State} (q : Fin 64) (tx : Bool) (s : State) (h : Keeps s0 s) :
    KeepsA s0 (execCoalTimer q tx s) := by
  unfold execCoalTimer
  repeat' first
    | with_reducible assumption
    | (extract_lets +onlyGivenNames x; clear_value x; revert x; intro _)
    | with_reducible apply KeepsA.next
    | with_reducible apply Keeps.ite
    | with_reducible apply State.setQueue_keeps
    | with_reducible apply State.msi_keeps

theorem execMsixUnmask_keeps {s0 : State} (xm : Master) (v : Fin 64) (s : State) (h : Keeps s0 s) :
    KeepsA s0 (execMsixUnmask xm v s) := by
  unfold execMsixUnmask
  repeat' first
    | with_reducible assumption
    | (extract_lets +onlyGivenNames x; have hx : Keeps s0 (by with_reducible apply x) := ?_; clear_value x; revert x; intro _ _; rotate_left; subst x)
    | (extract_lets +onlyGivenNames x; clear_value x; revert x; intro _)
    | with_reducible apply KeepsA.next
    | with_reducible apply Keeps.ite
    | with_reducible apply State.offWrite_keeps
    | with_reducible apply State.put_keeps
    | simp -zeta only [Keeps.mk_iff]

theorem execQCreate_keeps {s0 : State} (xm : Master) (tag : BitVec 8) (s : State) (h : Keeps s0 s) :
    KeepsA s0 (execQCreate xm tag s) := by
  unfold execQCreate
  repeat' first
    | with_reducible assumption
    | intro _
    | (extract_lets +onlyGivenNames x; have hx : Keeps s0 (by with_reducible apply x) := ?_; clear_value x; revert x; intro _ _; rotate_left; subst x)
    | (extract_lets +onlyGivenNames x; clear_value x; revert x; intro _)
    | with_reducible apply KeepsA.next
    | with_reducible apply Keeps.ite
    | with_reducible apply State.setQueue_keeps
    | with_reducible apply State.setLink_keeps
    | with_reducible apply State.onCommand_keeps
    | with_reducible apply State.done_keeps
    | with_reducible apply State.put_keeps
    | simp -zeta only [Keeps.mk_iff]

theorem State.writeBack_keeps {s0 : State} (s : State) (q : Nat) (c : Code) (cell : Nat) (h : Keeps s0 s) :
    Keeps s0 (State.writeBack s q c cell) := by
  unfold State.writeBack
  repeat' first
    | with_reducible assumption
    | (extract_lets +onlyGivenNames x; have hx : Keeps s0 (by with_reducible apply x) := ?_; clear_value x; revert x; intro _ _; rotate_left; subst x)
    | (extract_lets +onlyGivenNames x; clear_value x; revert x; intro _)
    | with_reducible apply State.coalTx_keeps
    | with_reducible apply State.setQueue_keeps
    | with_reducible apply State.refund_keeps
    | with_reducible apply State.bumpSat_keeps
    | simp -zeta only [Keeps.mk_iff]

theorem execQDelete_keeps {s0 : State} (xm : Master) (tag : BitVec 8) (s : State) (h : Keeps s0 s) :
    KeepsA s0 (execQDelete xm tag s) := by
  unfold execQDelete
  repeat' first
    | with_reducible assumption
    | intro _
    | (extract_lets +onlyGivenNames x; have hx : Keeps s0 (by with_reducible apply x) := ?_; clear_value x; revert x; intro _ _; rotate_left; subst x)
    | (extract_lets +onlyGivenNames x; clear_value x; revert x; intro _)
    | with_reducible apply KeepsA.next
    | with_reducible apply Keeps.ite
    | with_reducible apply State.writeBack_keeps
    | with_reducible apply State.revoke_keeps
    | with_reducible apply State.setLink_keeps
    | with_reducible apply State.onCommand_keeps
    | with_reducible apply State.done_keeps
    | with_reducible apply State.put_keeps
    | with_reducible apply Keeps.foldl

theorem execRxRet_keeps {s0 : State} (xm : Master) (q : Fin 64) (n : BitVec 13) (s : State) (h : Keeps s0 s) :
    KeepsA s0 (execRxRet xm q n s) := by
  unfold execRxRet
  repeat' first
    | with_reducible assumption
    | (extract_lets +onlyGivenNames x; clear_value x; revert x; intro _)
    | with_reducible apply KeepsA.next
    | with_reducible apply Keeps.ite
    | with_reducible apply State.refuse_keeps
    | with_reducible apply State.setLink_keeps
    | with_reducible apply State.offWrite_keeps

theorem execTxPost_keeps {s0 : State} (xm : Master) (q : Fin 64) (n : BitVec 13) (s : State) (h : Keeps s0 s) :
    KeepsA s0 (execTxPost xm q n s) := by
  unfold execTxPost
  repeat' first
    | with_reducible assumption
    | (extract_lets +onlyGivenNames x; have hx : Keeps s0 (by with_reducible apply x) := ?_; clear_value x; revert x; intro _ _; rotate_left; subst x)
    | (extract_lets +onlyGivenNames x; clear_value x; revert x; intro _)
    | with_reducible apply KeepsA.next
    | with_reducible apply Keeps.ite
    | with_reducible apply State.refuse_keeps
    | with_reducible apply State.setQueue_keeps
    | with_reducible apply State.setLink_keeps
    | with_reducible apply State.offWrite_keeps

theorem execTxDescriptorFetch_keeps {s0 : State} (q : Fin 64) (len : BitVec 14) (dest : Fin 16) (tsReq : Bool) (oneStep : Bool) (tag : BitVec 16) (offset : BitVec 14) (xx : FrameFacts) (data : List Octet) (s : State) (h : Keeps s0 s) :
    KeepsA s0 (execTxDescriptorFetch q len dest tsReq oneStep tag offset xx data s) := by
  unfold execTxDescriptorFetch
  repeat' first
    | with_reducible assumption
    | intro _
    | (extract_lets +onlyGivenNames x; have hx : ∀ c : Code, Keeps s0 (by with_reducible exact x c) := ?_; clear_value x; revert x; intro _ hc; rotate_left; subst x; dsimp -zeta only)
    | (extract_lets +onlyGivenNames x; have hx : ∀ c : Code, KeepsA s0 (by with_reducible exact x c) := ?_; clear_value x; revert x; intro _ hc; rotate_left; subst x; dsimp -zeta only)
    | (extract_lets +onlyGivenNames x; have hx : ∀ c : Cause, Keeps s0 (by with_reducible exact x c) := ?_; clear_value x; revert x; intro _ hc; rotate_left; subst x; dsimp -zeta only)
    | (extract_lets +onlyGivenNames x; have hx : ∀ c : Cause, KeepsA s0 (by with_reducible exact x c) := ?_; clear_value x; revert x; intro _ hc; rotate_left; subst x; dsimp -zeta only)
    | with_reducible apply hc
    | (extract_lets +onlyGivenNames x; have hx : ∀ y, Keeps s0 y → Keeps s0 (by with_reducible exact x y) := ?_; clear_value x; revert x; intro _ hf0; rotate_left; subst x; dsimp -zeta only)
    | (extract_lets +onlyGivenNames x; have hx : ∀ y, Keeps s0 y → KeepsA s0 (by with_reducible exact x y) := ?_; clear_value x; revert x; intro _ hf0; rotate_left; subst x; dsimp -zeta only)
    | with_reducible apply hf0
    | (extract_lets +onlyGivenNames x; have hx : ∀ y y0, Keeps s0 y → Keeps s0 (by with_reducible exact x y y0) := ?_; clear_value x; revert x; intro _ hf1; rotate_left; subst x; dsimp -zeta only)
    | (extract_lets +onlyGivenNames x; have hx : ∀ y y0, Keeps s0 y → KeepsA s0 (by with_reducible exact x y y0) := ?_; clear_value x; revert x; intro _ hf1; rotate_left; subst x; dsimp -zeta only)
    | with_reducible apply hf1
    | (extract_lets +onlyGivenNames x; have hx : ∀ y y0 y1, Keeps s0 y → Keeps s0 (by with_reducible exact x y y0 y1) := ?_; clear_value x; revert x; intro _ hf2; rotate_left; subst x; dsimp -zeta only)
    | (extract_lets +onlyGivenNames x; have hx : ∀ y y0 y1, Keeps s0 y → KeepsA s0 (by with_reducible exact x y y0 y1) := ?_; clear_value x; revert x; intro _ hf2; rotate_left; subst x; dsimp -zeta only)
    | with_reducible apply hf2
    | (extract_lets +onlyGivenNames x; have hx : ∀ y y0 y1 y2, Keeps s0 y → Keeps s0 (by with_reducible exact x y y0 y1 y2) := ?_; clear_value x; revert x; intro _ hf3; rotate_left; subst x; dsimp -zeta only)
    | (extract_lets +onlyGivenNames x; have hx : ∀ y y0 y1 y2, Keeps s0 y → KeepsA s0 (by with_reducible exact x y y0 y1 y2) := ?_; clear_value x; revert x; intro _ hf3; rotate_left; subst x; dsimp -zeta only)
    | with_reducible apply hf3
    | (extract_lets +onlyGivenNames x; have hx : Keeps s0 (by with_reducible apply x) := ?_; clear_value x; revert x; intro _ _; rotate_left; subst x)
    | (extract_lets +onlyGivenNames x; have hx : KeepsO s0 (by with_reducible apply x) := ?_; clear_value x; revert x; intro _ _; rotate_left; subst x)
    | (extract_lets +onlyGivenNames x; clear_value x; revert x; intro _)
    | with_reducible apply KeepsA.next
    | with_reducible apply KeepsA.ite
    | with_reducible apply Keeps.ite
    | with_reducible exact KeepsO.none
    | with_reducible apply KeepsO.some
    | with_reducible apply KeepsO.ite
    | with_reducible exact KeepsOA.none
    | with_reducible apply KeepsOA.some
    | with_reducible apply KeepsOA.ite
    | with_reducible apply State.writeBack_keeps
    | with_reducible apply State.addFrame_keeps
    | with_reducible apply State.spend_keeps
    | with_reducible apply State.sinkCells_keeps
    | with_reducible apply State.handCells_keeps
    | with_reducible apply State.freeCells_keeps
    | with_reducible apply State.allocPacket_keeps
    | with_reducible apply State.fillCells_keeps
    | with_reducible apply State.passOctets_keeps
    | with_reducible apply State.dropPacket_keeps
    | with_reducible apply State.dropRecord_keeps
    | with_reducible apply State.sink_keeps
    | with_reducible apply State.ledOut_keeps
    | with_reducible apply State.ledIn_keeps
    | with_reducible apply Keeps.foldl
    | with_reducible apply Keeps.foldl_fst
    | simp -zeta only [Keeps.mk_iff]
    | with_reducible rfl
    | split
    | with_reducible exact Keeps.of_pair (by assumption) (by assumption)
    | with_reducible refine Keeps.of_pair (by assumption) ?_
    | with_reducible refine Keeps.of_pair' (by assumption) ?_
    | with_reducible refine Keeps.of_some (by assumption) ?_
    | with_reducible refine Keeps.of_someA (by assumption) ?_
    | with_reducible exact Keeps.of_someO (by assumption)
    | with_reducible apply KeepsOA.getD
    | simp only [StarterSt.storeNow_lc, StarterSt.storeNow_off, StarterSt.commitUpdate_lc, StarterSt.commitUpdate_off, StarterSt.beginUpdate_lc, StarterSt.beginUpdate_off, StarterSt.commitAll_lc, StarterSt.commitAll_off]
    | with_reducible contradiction
    | dsimp -zeta only

theorem execParkExpired_keeps {s0 : State} (cell : Nat) (s : State) (h : Keeps s0 s) :
    KeepsA s0 (execParkExpired cell s) := by
  unfold execParkExpired
  repeat' first
    | with_reducible assumption
    | (extract_lets +onlyGivenNames x; have hx : Keeps s0 (by with_reducible apply x) := ?_; clear_value x; revert x; intro _ _; rotate_left; subst x)
    | (extract_lets +onlyGivenNames x; clear_value x; revert x; intro _)
    | with_reducible apply KeepsA.next
    | with_reducible apply State.freeCells_keeps
    | with_reducible apply State.ledDrop_keeps
    | with_reducible apply State.evt_keeps
    | simp -zeta only [Keeps.mk_iff]
    | split

theorem State.offerMessage_keeps {s0 : State} (s : State) (c : Fin 4) (octets : Nat) (h : Keeps s0 s) :
    Keeps s0 (State.offerMessage s c octets) := by
  unfold State.offerMessage
  repeat' first
    | with_reducible assumption
    | (extract_lets +onlyGivenNames x; clear_value x; revert x; intro _)
    | with_reducible apply State.offerHost_keeps
    | with_reducible apply State.setLink_keeps
    | with_reducible apply State.freeCells_keeps
    | with_reducible apply State.allocPacket_keeps
    | split
    | with_reducible refine Keeps.of_pair (by assumption) ?_
    | with_reducible refine Keeps.of_some (by assumption) ?_

theorem execHostDeliver_keeps {s0 : State} (q : Fin 64) (message : Option (Fin 4 × BitVec 18)) (s : State) (h : Keeps s0 s) :
    KeepsA s0 (execHostDeliver q message s) := by
  unfold execHostDeliver
  repeat' first
    | with_reducible assumption
    | intro _
    | (extract_lets +onlyGivenNames x; have hx : ∀ c : Code, Keeps s0 (by with_reducible exact x c) := ?_; clear_value x; revert x; intro _ hc; rotate_left; subst x; dsimp -zeta only)
    | (extract_lets +onlyGivenNames x; have hx : ∀ c : Code, KeepsA s0 (by with_reducible exact x c) := ?_; clear_value x; revert x; intro _ hc; rotate_left; subst x; dsimp -zeta only)
    | (extract_lets +onlyGivenNames x; have hx : ∀ c : Cause, Keeps s0 (by with_reducible exact x c) := ?_; clear_value x; revert x; intro _ hc; rotate_left; subst x; dsimp -zeta only)
    | (extract_lets +onlyGivenNames x; have hx : ∀ c : Cause, KeepsA s0 (by with_reducible exact x c) := ?_; clear_value x; revert x; intro _ hc; rotate_left; subst x; dsimp -zeta only)
    | with_reducible apply hc
    | (extract_lets +onlyGivenNames x; have hx : ∀ y, Keeps s0 y → Keeps s0 (by with_reducible exact x y) := ?_; clear_value x; revert x; intro _ hf0; rotate_left; subst x; dsimp -zeta only)
    | (extract_lets +onlyGivenNames x; have hx : ∀ y, Keeps s0 y → KeepsA s0 (by with_reducible exact x y) := ?_; clear_value x; revert x; intro _ hf0; rotate_left; subst x; dsimp -zeta only)
    | with_reducible apply hf0
    | (extract_lets +onlyGivenNames x; have hx : ∀ y y0, Keeps s0 y → Keeps s0 (by with_reducible exact x y y0) := ?_; clear_value x; revert x; intro _ hf1; rotate_left; subst x; dsimp -zeta only)
    | (extract_lets +onlyGivenNames x; have hx : ∀ y y0, Keeps s0 y → KeepsA s0 (by with_reducible exact x y y0) := ?_; clear_value x; revert x; intro _ hf1; rotate_left; subst x; dsimp -zeta only)
    | with_reducible apply hf1
    | (extract_lets +onlyGivenNames x; have hx : ∀ y y0 y1, Keeps s0 y → Keeps s0 (by with_reducible exact x y y0 y1) := ?_; clear_value x; revert x; intro _ hf2; rotate_left; subst x; dsimp -zeta only)
    | (extract_lets +onlyGivenNames x; have hx : ∀ y y0 y1, Keeps s0 y → KeepsA s0 (by with_reducible exact x y y0 y1) := ?_; clear_value x; revert x; intro _ hf2; rotate_left; subst x; dsimp -zeta only)
    | with_reducible apply hf2
    | (extract_lets +onlyGivenNames x; have hx : ∀ y y0 y1 y2, Keeps s0 y → Keeps s0 (by with_reducible exact x y y0 y1 y2) := ?_; clear_value x; revert x; intro _ hf3; rotate_left; subst x; dsimp -zeta only)
    | (extract_lets +onlyGivenNames x; have hx : ∀ y y0 y1 y2, Keeps s0 y → KeepsA s0 (by with_reducible exact x y y0 y1 y2) := ?_; clear_value x; revert x; intro _ hf3; rotate_left; subst x; dsimp -zeta only)
    | with_reducible apply hf3
    | (extract_lets +onlyGivenNames x; have hx : Keeps s0 (by with_reducible apply x) := ?_; clear_value x; revert x; intro _ _; rotate_left; subst x)
    | (extract_lets +onlyGivenNames x; have hx : KeepsO s0 (by with_reducible apply x) := ?_; clear_value x; revert x; intro _ _; rotate_left; subst x)
    | (extract_lets +onlyGivenNames x; have hx : Keeps s0 (Prod.fst (by with_reducible apply x)) := ?_; clear_value x; revert x; intro _ _; rotate_left; subst x)
    | (extract_lets +onlyGivenNames x; have hx : Keeps s0 (Prod.snd (by with_reducible apply x)) := ?_; clear_value x; revert x; intro _ _; rotate_left; subst x)
    | (extract_lets +onlyGivenNames x; clear_value x; revert x; intro _)
    | with_reducible apply KeepsA.next
    | with_reducible apply KeepsA.ite
    | with_reducible apply Keeps.ite
    | with_reducible exact KeepsO.none
    | with_reducible apply KeepsO.some
    | with_reducible apply KeepsO.ite
    | with_reducible exact KeepsOA.none
    | with_reducible apply KeepsOA.some
    | with_reducible apply KeepsOA.ite
    | with_reducible apply State.offerMessage_keeps
    | with_reducible apply State.coalRx_keeps
    | with_reducible apply State.setQueue_keeps
    | with_reducible apply State.setLink_keeps
    | with_reducible apply State.freeCells_keeps
    | with_reducible apply State.passOctets_keeps
    | with_reducible apply State.passFree_keeps
    | with_reducible apply State.ledOut_keeps
    | with_reducible apply State.bumpSat_keeps
    | with_reducible apply Keeps.foldl
    | with_reducible apply Keeps.foldl_fst
    | simp -zeta only [Keeps.mk_iff]
    | with_reducible rfl
    | split
    | with_reducible exact Keeps.of_pair (by assumption) (by assumption)
    | with_reducible refine Keeps.of_pair (by assumption) ?_
    | with_reducible refine Keeps.of_pair' (by assumption) ?_
    | with_reducible refine Keeps.of_some (by assumption) ?_
    | with_reducible refine Keeps.of_someA (by assumption) ?_
    | with_reducible exact Keeps.of_someO (by assumption)
    | with_reducible apply KeepsOA.getD
    | simp only [StarterSt.storeNow_lc, StarterSt.storeNow_off, StarterSt.commitUpdate_lc, StarterSt.commitUpdate_off, StarterSt.beginUpdate_lc, StarterSt.beginUpdate_off, StarterSt.commitAll_lc, StarterSt.commitAll_off]
    | with_reducible contradiction
    | dsimp -zeta only

theorem execBar2Access_keeps {s0 : State} (write : Bool) (a : BitVec 28) (n : BitVec 12) (l : List Octet) (s : State) (h : Keeps s0 s) :
    KeepsA s0 (execBar2Access write a n l s) := by
  unfold execBar2Access
  repeat' first
    | with_reducible assumption
    | (extract_lets +onlyGivenNames x; have hx : Keeps s0 (by with_reducible apply x) := ?_; clear_value x; revert x; intro _ _; rotate_left; subst x)
    | (extract_lets +onlyGivenNames x; clear_value x; revert x; intro _)
    | with_reducible apply KeepsA.next
    | with_reducible apply Keeps.ite
    | with_reducible apply State.dramWrite_keeps
    | with_reducible apply State.passOctets_keeps
    | with_reducible apply State.bumpSat_keeps
    | simp -zeta only [Keeps.mk_iff]

end Sys2Proof.Machine
end

