-- ==== Sys2Proof/Laws/KeepsTamp.lean ====
section
/-! SUPPORT. The operations of Machine/Tamp.lean break nothing (`Keeps`). -/

set_option linter.unusedSimpArgs false

namespace Sys2Proof.Machine

theorem State.setTamp_keeps {s0 : State} (s : State) (f : TampSt → TampSt) (h : Keeps s0 s) :
    Keeps s0 (State.setTamp s f) := by
  unfold State.setTamp
  repeat' first
    | with_reducible assumption
    | simp -zeta only [Keeps.mk_iff]

theorem State.zeroise_keeps {s0 : State} (s : State) (h : Keeps s0 s) :
    Keeps s0 (State.zeroise s) := by
  unfold State.zeroise
  repeat' first
    | with_reducible assumption
    | intro _
    | (extract_lets +onlyGivenNames x; have hx : Keeps s0 (by with_reducible apply x) := ?_; clear_value x; revert x; intro _ _; rotate_left; subst x)
    | (extract_lets +onlyGivenNames x; clear_value x; revert x; intro _)
    | with_reducible apply State.setStarter_keeps
    | simp -zeta only [Keeps.mk_iff]

theorem State.zeroiseRetained_keeps {s0 : State} (s : State) (h : Keeps s0 s) :
    Keeps s0 (State.zeroiseRetained s) := by
  unfold State.zeroiseRetained
  repeat' first
    | with_reducible assumption
    | intro _
    | with_reducible apply State.setStarter_keeps
    | with_reducible apply State.evt_keeps
    | simp -zeta only [Keeps.mk_iff]

theorem State.tampLog_keeps {s0 : State} (s : State) (src : Nat) (resp : Nat) (h : Keeps s0 s) :
    Keeps s0 (State.tampLog s src resp) := by
  unfold State.tampLog
  repeat' first
    | with_reducible assumption
    | with_reducible apply Keeps.ite
    | with_reducible apply State.setTamp_keeps
    | with_reducible apply State.evt_keeps
    | with_reducible apply State.bumpSat_keeps

theorem State.proofTamper_keeps {s0 : State} (s : State) (src : Nat) (resp : Nat) (h : Keeps s0 s) :
    Keeps s0 (State.proofTamper s src resp) := by
  unfold State.proofTamper
  repeat' first
    | with_reducible assumption
    | (extract_lets +onlyGivenNames x; clear_value x; revert x; intro _)
    | with_reducible apply Keeps.ite
    | with_reducible apply State.logNow_keeps
    | with_reducible apply State.logEntry_keeps

theorem State.alarm_keeps {s0 : State} (s : State) (h : Keeps s0 s) :
    Keeps s0 (State.alarm s) := by
  unfold State.alarm
  repeat' first
    | with_reducible assumption
    | (extract_lets +onlyGivenNames x; have hx : Keeps s0 (by with_reducible apply x) := ?_; clear_value x; revert x; intro _ _; rotate_left; subst x)
    | (extract_lets +onlyGivenNames x; clear_value x; revert x; intro _)
    | with_reducible apply Keeps.ite
    | with_reducible apply State.dropKeyOp_keeps
    | with_reducible apply State.bumpSat_keeps
    | with_reducible apply State.put_keeps

theorem execTamperDecided_keeps {s0 : State} (src : Fin 8) (s : State) (h : Keeps s0 s) :
    KeepsA s0 (execTamperDecided src s) := by
  unfold execTamperDecided
  repeat' first
    | with_reducible assumption
    | (extract_lets +onlyGivenNames x; have hx : Keeps s0 (by with_reducible apply x) := ?_; clear_value x; revert x; intro _ _; rotate_left; subst x)
    | (extract_lets +onlyGivenNames x; clear_value x; revert x; intro _)
    | with_reducible apply KeepsA.next
    | with_reducible apply KeepsA.ite
    | with_reducible apply Keeps.ite
    | with_reducible apply State.alarm_keeps
    | with_reducible apply State.proofTamper_keeps
    | with_reducible apply State.tampLog_keeps
    | with_reducible apply State.zeroise_keeps
    | with_reducible apply State.wakeBy_keeps
    | with_reducible apply State.logNow_keeps
    | with_reducible apply State.evt_keeps
    | with_reducible apply State.put_keeps
    | simp -zeta only [Keeps.mk_iff]

theorem execTamperSourceCleared_keeps {s0 : State} (src : Fin 8) (s : State) (h : Keeps s0 s) :
    KeepsA s0 (execTamperSourceCleared src s) := by
  unfold execTamperSourceCleared
  repeat' first
    | with_reducible assumption
    | with_reducible apply KeepsA.next
    | with_reducible apply Keeps.ite
    | with_reducible apply State.put_keeps

theorem execZeroizeDone_keeps {s0 : State} (s : State) (h : Keeps s0 s) :
    KeepsA s0 (execZeroizeDone s) := by
  unfold execZeroizeDone
  repeat' first
    | with_reducible assumption
    | with_reducible apply KeepsA.next
    | with_reducible apply Keeps.ite
    | with_reducible apply State.zeroiseRetained_keeps

theorem execTampMeshPattern_keeps {s0 : State} (s : State) (h : Keeps s0 s) :
    KeepsA s0 (execTampMeshPattern s) := by
  unfold execTampMeshPattern
  repeat' first
    | with_reducible assumption
    | with_reducible apply KeepsA.next
    | with_reducible apply Keeps.ite
    | with_reducible apply State.setTamp_keeps

theorem execTampClear_keeps {s0 : State} (m : Master) (v : BitVec 32) (s : State) (h : Keeps s0 s) :
    KeepsA s0 (execTampClear m v s) := by
  unfold execTampClear
  repeat' first
    | with_reducible assumption
    | with_reducible apply KeepsA.next
    | with_reducible apply Keeps.ite
    | with_reducible apply State.busWrite_keeps
    | with_reducible apply State.put_keeps
    | split
    | with_reducible refine Keeps.of_pair (by assumption) ?_

theorem execTampLock_keeps {s0 : State} (m : Master) (v : BitVec 32) (s : State) (h : Keeps s0 s) :
    KeepsA s0 (execTampLock m v s) := by
  unfold execTampLock
  repeat' first
    | with_reducible assumption
    | with_reducible apply KeepsA.next
    | with_reducible apply State.busWrite_keeps
    | with_reducible apply State.putB_keeps
    | split
    | with_reducible refine Keeps.of_pair (by assumption) ?_

theorem execThRelease_keeps {s0 : State} (m : Master) (tag : BitVec 8) (s : State) (h : Keeps s0 s) :
    KeepsA s0 (execThRelease m tag s) := by
  unfold execThRelease
  repeat' first
    | with_reducible assumption
    | intro _
    | (extract_lets +onlyGivenNames x; have hx : Keeps s0 (by with_reducible apply x) := ?_; clear_value x; revert x; intro _ _; rotate_left; subst x)
    | with_reducible apply KeepsA.next
    | with_reducible apply Keeps.ite
    | with_reducible apply State.onCommand_keeps
    | with_reducible apply State.done_keeps
    | with_reducible apply State.put_keeps
    | simp -zeta only [Keeps.mk_iff]

theorem execTampLogPop_keeps {s0 : State} (m : Master) (s : State) (h : Keeps s0 s) :
    KeepsA s0 (execTampLogPop m s) := by
  unfold execTampLogPop
  repeat' first
    | with_reducible assumption
    | (extract_lets +onlyGivenNames x; have hx : Keeps s0 (by with_reducible apply x) := ?_; clear_value x; revert x; intro _ _; rotate_left; subst x)
    | (extract_lets +onlyGivenNames x; clear_value x; revert x; intro _)
    | with_reducible apply KeepsA.next
    | with_reducible apply KeepsA.ite
    | with_reducible apply State.setTamp_keeps
    | with_reducible apply State.setWord_keeps
    | simp -zeta only [Keeps.mk_iff]
    | split

theorem State.drawOctets_keeps {s0 : State} (s : State) (h : Keeps s0 s) :
    Keeps s0 (State.drawOctets s).2 := by
  unfold State.drawOctets
  repeat' first
    | with_reducible assumption
    | with_reducible apply State.draw_keeps

theorem State.endTransition_keeps {s0 : State} (s : State) (target : Nat) (bits : List Nat) (h : Keeps s0 s) :
    Keeps s0 (State.endTransition s target bits) := by
  have k : Keeps s0 (s.setStarter fun t => { t with rows := mapSet t.rows target ⟨bits, true⟩, lc := max t.lc target }) :=
    h.change rfl id (fun _ => .inl rfl) rfl (fun _ x => x) id (Nat.le_max_left _ _)
  unfold State.endTransition
  extract_lets x y z
  have hz : Keeps s0 z := by
    refine State.zeroiseRetained_keeps _ (State.logNow_keeps _ _ _ _ (State.zeroise_keeps _ ?_))
    show Keeps s0 (if target = 2 then State.put x _ _ else x)
    split
    · exact State.put_keeps _ _ _ k
    · exact k
  exact Keeps.of_eq (State.evt_keeps _ _ _ hz) rfl rfl rfl rfl rfl rfl rfl

theorem State.endItemOp_keeps {s0 : State} (s : State) (h : Keeps s0 s) :
    Keeps s0 (State.endItemOp s) := by
  unfold State.endItemOp
  repeat' first
    | with_reducible assumption
    | intro _
    | (extract_lets +onlyGivenNames x; have hx : Keeps s0 (by with_reducible apply x) := ?_; clear_value x; revert x; intro _ _; rotate_left; subst x)
    | with_reducible apply State.finishKeyOp_keeps
    | with_reducible apply State.setStarter_keeps
    | split
    | simp only [StarterSt.storeNow_lc, StarterSt.storeNow_off, StarterSt.commitUpdate_lc, StarterSt.commitUpdate_off, StarterSt.beginUpdate_lc, StarterSt.beginUpdate_off, StarterSt.commitAll_lc, StarterSt.commitAll_off]

theorem execLcAdvance_keeps {s0 : State} (m : Master) (tag : BitVec 8) (s : State) (h : Keeps s0 s) :
    KeepsA s0 (execLcAdvance m tag s) := by
  unfold execLcAdvance
  repeat' first
    | with_reducible assumption
    | intro _
    | (extract_lets +onlyGivenNames x; have hx : Keeps s0 (by with_reducible apply x) := ?_; clear_value x; revert x; intro _ _; rotate_left; subst x)
    | (extract_lets +onlyGivenNames x; clear_value x; revert x; intro _)
    | with_reducible apply KeepsA.next
    | with_reducible apply Keeps.ite
    | with_reducible apply State.endItemOp_keeps
    | with_reducible apply State.endTransition_keeps
    | with_reducible apply State.drawOctets_keeps
    | with_reducible apply State.endKeyOp_keeps
    | with_reducible apply State.onCommand_keeps
    | with_reducible apply State.startRun_keeps
    | with_reducible apply State.ledIn_keeps

end Sys2Proof.Machine
end

