-- ==== Sys2Proof/Laws/KeepsFence.lean ====
section
/-! SUPPORT. The operations of Machine/Fence.lean break nothing (`Keeps`). -/

set_option linter.unusedSimpArgs false

namespace Sys2Proof.Machine

theorem State.unlatch_keeps {s0 : State} (s : State) (b : Block) (h : Keeps s0 s) :
    Keeps s0 (State.unlatch s b) := by
  unfold State.unlatch
  repeat' first
    | with_reducible assumption
    | intro _
    | (extract_lets +onlyGivenNames x; have hx : Keeps s0 (by with_reducible apply x) := ?_; clear_value x; revert x; intro _ _; rotate_left; subst x)
    | with_reducible apply State.setBlk_keeps
    | with_reducible apply State.put_keeps
    | simp -zeta only [Keeps.mk_iff]
    | split

theorem State.dropPosts_keeps {s0 : State} (s : State) (p : Nat) (h : Keeps s0 s) :
    Keeps s0 (State.dropPosts s p).1 := by
  unfold State.dropPosts
  repeat' first
    | with_reducible assumption
    | (extract_lets +onlyGivenNames x; clear_value x; revert x; intro _)
    | simp -zeta only [Keeps.mk_iff]

theorem State.stopTransition_keeps {s0 : State} (s : State) (h : Keeps s0 s) :
    Keeps s0 (State.stopTransition s) := by
  unfold State.stopTransition
  repeat' first
    | with_reducible assumption
    | (extract_lets +onlyGivenNames x; have hx : Keeps s0 (by with_reducible apply x) := ?_; clear_value x; revert x; intro _ _; rotate_left; subst x)
    | with_reducible apply Keeps.ite
    | with_reducible apply State.enterTrim_keeps
    | with_reducible apply State.regrant_keeps
    | with_reducible apply State.put_keeps
    | simp -zeta only [Keeps.mk_iff]

theorem State.endRunning_keeps {s0 : State} (s : State) (b : Block) (c : Code) (h : Keeps s0 s) :
    Keeps s0 (State.endRunning s b c) := by
  unfold State.endRunning
  repeat' first
    | with_reducible assumption
    | intro _
    | (extract_lets +onlyGivenNames x; have hx : Keeps s0 (by with_reducible apply x) := ?_; clear_value x; revert x; intro _ _; rotate_left; subst x)
    | (extract_lets +onlyGivenNames x; clear_value x; revert x; intro _)
    | with_reducible apply Keeps.ite
    | with_reducible apply State.stopTransition_keeps
    | with_reducible apply State.unlatch_keeps
    | with_reducible apply State.cutActivation_keeps
    | with_reducible apply State.cutCalRun_keeps
    | with_reducible apply State.deferSet_keeps
    | with_reducible apply State.setFwu_keeps
    | with_reducible apply State.dropDirItem_keeps
    | with_reducible apply State.dropGap_keeps
    | with_reducible apply State.abortSlew_keeps
    | with_reducible apply State.endSlew_keeps
    | with_reducible apply State.dropKeyOp_keeps
    | with_reducible apply State.setWb_keeps
    | with_reducible apply State.done_keeps
    | with_reducible apply State.put_keeps
    | with_reducible apply Keeps.foldl
    | simp -zeta only [Keeps.mk_iff]
    | split

theorem State.leaveCells_keeps {s0 : State} (s : State) (i : Nat) (g : Nat) (h : Keeps s0 s) :
    Keeps s0 (State.leaveCells s i g) := by
  unfold State.leaveCells
  repeat' first
    | with_reducible assumption
    | with_reducible apply State.setFrame_keeps

theorem State.fenceRx_keeps {s0 : State} (s : State) (g : Nat) (h : Keeps s0 s) :
    Keeps s0 (State.fenceRx s g) := by
  unfold State.fenceRx
  repeat' first
    | with_reducible assumption
    | intro _
    | with_reducible apply Keeps.ite
    | with_reducible apply State.leaveCells_keeps
    | with_reducible apply State.abandon_keeps
    | with_reducible apply State.portPassed_keeps
    | with_reducible apply State.ledFence_keeps
    | with_reducible apply Keeps.foldl
    | split

theorem State.fenceEgress_keeps {s0 : State} (s : State) (i : Nat) (g : Nat) (f : Frame) (e : Egress) (h : Keeps s0 s) :
    Keeps s0 (State.fenceEgress s i g f e) := by
  unfold State.fenceEgress
  repeat' first
    | with_reducible assumption
    | (extract_lets +onlyGivenNames x; have hx : Keeps s0 (by with_reducible apply x) := ?_; clear_value x; revert x; intro _ _; rotate_left; subst x)
    | (extract_lets +onlyGivenNames x; clear_value x; revert x; intro _)
    | with_reducible apply Keeps.ite
    | with_reducible apply State.leaveCells_keeps
    | with_reducible apply State.recordSent_keeps
    | with_reducible apply State.settle_keeps
    | with_reducible apply State.setFrame_keeps
    | with_reducible apply State.sink_keeps
    | with_reducible apply State.ledFence_keeps
    | with_reducible apply State.ledOut_keeps

theorem State.fenceTx_keeps {s0 : State} (s : State) (g : Nat) (h : Keeps s0 s) :
    Keeps s0 (State.fenceTx s g) := by
  unfold State.fenceTx
  repeat' first
    | with_reducible assumption
    | intro _
    | with_reducible apply State.fenceEgress_keeps
    | with_reducible apply Keeps.foldl
    | split

theorem State.fenceSaFetch_keeps {s0 : State} (s : State) (d : Nat) (h : Keeps s0 s) :
    Keeps s0 (State.fenceSaFetch s d) := by
  unfold State.fenceSaFetch
  repeat' first
    | with_reducible assumption
    | (extract_lets +onlyGivenNames x; clear_value x; revert x; intro _)
    | simp -zeta only [Keeps.mk_iff]

theorem State.fencePeel_keeps {s0 : State} (s : State) (h : Keeps s0 s) :
    Keeps s0 (State.fencePeel s) := by
  unfold State.fencePeel
  repeat' first
    | with_reducible assumption
    | intro _
    | (extract_lets +onlyGivenNames x; have hx : Keeps s0 (by with_reducible apply x) := ?_; clear_value x; revert x; intro _ _; rotate_left; subst x)
    | (extract_lets +onlyGivenNames x; clear_value x; revert x; intro _)
    | with_reducible apply State.fenceRec_keeps
    | with_reducible apply State.dirDrain_keeps
    | with_reducible apply State.hwDrain_keeps
    | with_reducible apply Keeps.foldl
    | simp -zeta only [Keeps.mk_iff]

theorem State.fenceDir_keeps {s0 : State} (s : State) (h : Keeps s0 s) :
    Keeps s0 (State.fenceDir s) := by
  unfold State.fenceDir
  repeat' first
    | with_reducible assumption
    | intro _
    | (extract_lets +onlyGivenNames x; have hx : Keeps s0 (by with_reducible apply x) := ?_; clear_value x; revert x; intro _ _; rotate_left; subst x)
    | (extract_lets +onlyGivenNames x; clear_value x; revert x; intro _)
    | with_reducible apply Keeps.ite
    | with_reducible apply State.dirFenced_keeps
    | with_reducible apply State.finishItem_keeps
    | with_reducible apply Keeps.foldl
    | simp -zeta only [Keeps.mk_iff]

theorem State.fencePool_keeps {s0 : State} (s : State) (n : Nat) (h : Keeps s0 s) :
    Keeps s0 (State.fencePool s n) := by
  unfold State.fencePool
  repeat' first
    | with_reducible assumption
    | (extract_lets +onlyGivenNames x; clear_value x; revert x; intro _)
    | with_reducible apply State.ledFence_keeps
    | simp -zeta only [Keeps.mk_iff]

theorem State.fenceMac_keeps {s0 : State} (s : State) (h : Keeps s0 s) :
    Keeps s0 (State.fenceMac s) := by
  unfold State.fenceMac
  repeat' first
    | with_reducible assumption
    | intro _
    | (extract_lets +onlyGivenNames x; clear_value x; revert x; intro _)
    | with_reducible apply Keeps.ite
    | with_reducible apply State.dropPosts_keeps
    | with_reducible apply State.fenceRec_keeps
    | with_reducible apply State.finishItem_keeps
    | with_reducible apply State.sink_keeps
    | with_reducible apply State.ledFence_keeps
    | with_reducible apply Keeps.foldl
    | simp -zeta only [Keeps.mk_iff]
    | split

theorem State.fenceCore_keeps {s0 : State} (s : State) (c : Nat) (h : Keeps s0 s) :
    Keeps s0 (State.fenceCore s c) := by
  unfold State.fenceCore
  repeat' first
    | with_reducible assumption
    | intro _
    | with_reducible apply State.finishItem_keeps
    | with_reducible apply Keeps.foldl

theorem State.fenceFlood_keeps {s0 : State} (s : State) (h : Keeps s0 s) :
    Keeps s0 (State.fenceFlood s) := by
  unfold State.fenceFlood
  repeat' first
    | with_reducible assumption
    | intro _
    | (extract_lets +onlyGivenNames x; clear_value x; revert x; intro _)
    | with_reducible apply State.dropPosts_keeps
    | with_reducible apply State.endRelay_keeps
    | with_reducible apply Keeps.foldl

theorem State.fenceCrc_keeps {s0 : State} (s : State) (h : Keeps s0 s) :
    Keeps s0 (State.fenceCrc s) := by
  unfold State.fenceCrc
  repeat' first
    | with_reducible assumption
    | intro _
    | (extract_lets +onlyGivenNames x; have hx : Keeps s0 (by with_reducible apply x) := ?_; clear_value x; revert x; intro _ _; rotate_left; subst x)
    | (extract_lets +onlyGivenNames x; clear_value x; revert x; intro _)
    | with_reducible apply Keeps.ite
    | with_reducible apply State.ledFence_keeps
    | with_reducible apply State.evt_keeps
    | with_reducible apply State.draw_keeps
    | with_reducible apply State.bump_keeps
    | with_reducible apply State.put_keeps
    | with_reducible apply Keeps.foldl
    | simp -zeta only [Keeps.mk_iff]

theorem State.fenceHook_keeps {s0 : State} (s : State) (g : Nat) (h : Keeps s0 s) :
    Keeps s0 (State.fenceHook s g) := by
  unfold State.fenceHook
  repeat' first
    | with_reducible assumption
    | intro _
    | with_reducible apply Keeps.ite
    | with_reducible apply State.fenceCrc_keeps
    | with_reducible apply State.fenceFlood_keeps
    | with_reducible apply State.fenceCore_keeps
    | with_reducible apply State.fenceMac_keeps
    | with_reducible apply State.fencePool_keeps
    | with_reducible apply State.fenceDir_keeps
    | with_reducible apply State.fencePeel_keeps
    | with_reducible apply State.fenceSaFetch_keeps
    | with_reducible apply State.fenceTx_keeps
    | with_reducible apply State.fenceRx_keeps
    | with_reducible apply State.dropPosts_keeps
    | with_reducible apply State.dropKeyOp_keeps
    | with_reducible apply State.setStarter_keeps
    | with_reducible apply State.fenceCtxs_keeps
    | with_reducible apply State.ledFence_keeps
    | simp -zeta only [Keeps.mk_iff]

theorem State.fenceOne_keeps {s0 : State} (s : State) (g : Nat) (cause : Nat) (h : Keeps s0 s) :
    Keeps s0 (State.fenceOne s g cause) := by
  unfold State.fenceOne
  repeat' first
    | with_reducible assumption
    | (extract_lets +onlyGivenNames x; have hx : Keeps s0 (by with_reducible apply x) := ?_; clear_value x; revert x; intro _ _; rotate_left; subst x)
    | with_reducible apply Keeps.ite
    | with_reducible apply State.fenceHook_keeps
    | with_reducible apply State.endRunning_keeps
    | with_reducible apply State.fenceGroup_keeps
    | split

theorem State.resumePeel_keeps {s0 : State} (s : State) (h : Keeps s0 s) :
    Keeps s0 (State.resumePeel s) := by
  unfold State.resumePeel
  repeat' first
    | with_reducible assumption
    | with_reducible apply State.txnDrain_keeps
    | with_reducible apply State.hwDrain_keeps
    | with_reducible apply State.regrant_keeps

theorem State.unfenceOne_keeps {s0 : State} (s : State) (g : Nat) (h : Keeps s0 s) :
    Keeps s0 (State.unfenceOne s g) := by
  unfold State.unfenceOne
  repeat' first
    | with_reducible assumption
    | intro _
    | (extract_lets +onlyGivenNames x; have hx : Keeps s0 (by with_reducible apply x) := ?_; clear_value x; revert x; intro _ _; rotate_left; subst x)
    | (extract_lets +onlyGivenNames x; clear_value x; revert x; intro _)
    | with_reducible apply Keeps.ite
    | with_reducible apply State.resumePeel_keeps
    | with_reducible apply State.applyDeferred_keeps
    | with_reducible apply State.emptyTx_keeps
    | with_reducible apply State.setStarter_keeps
    | with_reducible apply State.evt_keeps
    | with_reducible apply State.setGroupFence_keeps
    | simp -zeta only [Keeps.mk_iff]
    | split

theorem State.cutShort_keeps {s0 : State} (s : State) (b : Block) (h : Keeps s0 s) :
    Keeps s0 (State.cutShort s b).1 := by
  unfold State.cutShort
  repeat' first
    | with_reducible assumption
    | with_reducible apply State.endRunning_keeps
    | split

theorem State.fabFence_keeps {s0 : State} (s : State) (m : Master) (tag : BitVec 8) (h : Keeps s0 s) :
    Keeps s0 (State.fabFence s m tag) := by
  unfold State.fabFence
  repeat' first
    | with_reducible assumption
    | intro _
    | with_reducible apply Keeps.ite
    | with_reducible apply State.cutShort_keeps
    | with_reducible apply State.fenceOne_keeps
    | with_reducible apply State.onPage_keeps
    | with_reducible apply State.complete_keeps
    | with_reducible apply State.acceptCmd_keeps

theorem State.fabUnfence_keeps {s0 : State} (s : State) (m : Master) (tag : BitVec 8) (h : Keeps s0 s) :
    Keeps s0 (State.fabUnfence s m tag) := by
  unfold State.fabUnfence
  repeat' first
    | with_reducible assumption
    | intro _
    | (extract_lets +onlyGivenNames x; clear_value x; revert x; intro _)
    | with_reducible apply Keeps.ite
    | with_reducible apply State.unfenceOne_keeps
    | with_reducible apply State.onCommon_keeps
    | with_reducible apply State.done_keeps

theorem execFabFence_keeps {s0 : State} (m : Master) (tag : BitVec 8) (s : State) (h : Keeps s0 s) :
    KeepsA s0 (execFabFence m tag s) := by
  unfold execFabFence
  repeat' first
    | with_reducible assumption
    | with_reducible apply KeepsA.next
    | with_reducible apply State.fabFence_keeps

theorem execFabUnfence_keeps {s0 : State} (m : Master) (tag : BitVec 8) (s : State) (h : Keeps s0 s) :
    KeepsA s0 (execFabUnfence m tag s) := by
  unfold execFabUnfence
  repeat' first
    | with_reducible assumption
    | with_reducible apply KeepsA.next
    | with_reducible apply State.fabUnfence_keeps

theorem execFence_keeps {s0 : State} (m : Master) (b : Block) (tag : BitVec 8) (s : State) (h : Keeps s0 s) :
    KeepsA s0 (execFence m b tag s) := by
  unfold execFence
  repeat' first
    | with_reducible assumption
    | intro _
    | with_reducible apply KeepsA.next
    | with_reducible apply Keeps.ite
    | with_reducible apply State.fabFence_keeps
    | with_reducible apply State.cutShort_keeps
    | with_reducible apply State.fenceHook_keeps
    | with_reducible apply State.fenceGroup_keeps
    | with_reducible apply State.onCommon_keeps
    | with_reducible apply State.onPage_keeps
    | with_reducible apply State.done_keeps
    | with_reducible apply State.complete_keeps
    | with_reducible apply State.acceptCmd_keeps
    | with_reducible apply Keeps.foldl

theorem execUnfence_keeps {s0 : State} (m : Master) (b : Block) (tag : BitVec 8) (s : State) (h : Keeps s0 s) :
    KeepsA s0 (execUnfence m b tag s) := by
  unfold execUnfence
  repeat' first
    | with_reducible assumption
    | intro _
    | (extract_lets +onlyGivenNames x; have hx : Keeps s0 (by with_reducible apply x) := ?_; clear_value x; revert x; intro _ _; rotate_left; subst x)
    | (extract_lets +onlyGivenNames x; clear_value x; revert x; intro _)
    | with_reducible apply KeepsA.next
    | with_reducible apply Keeps.ite
    | with_reducible apply State.fabUnfence_keeps
    | with_reducible apply State.unfenceOne_keeps
    | with_reducible apply State.applyDeferred_keeps
    | with_reducible apply State.onCommon_keeps
    | with_reducible apply State.done_keeps
    | with_reducible apply Keeps.foldl

theorem execFenceTimeout_keeps {s0 : State} (g : Fin 64) (ackFirst : Bool) (s : State) (h : Keeps s0 s) :
    KeepsA s0 (execFenceTimeout g ackFirst s) := by
  unfold execFenceTimeout
  repeat' first
    | with_reducible assumption
    | (extract_lets +onlyGivenNames x; have hx : Keeps s0 (by with_reducible apply x) := ?_; clear_value x; revert x; intro _ _; rotate_left; subst x)
    | (extract_lets +onlyGivenNames x; clear_value x; revert x; intro _)
    | with_reducible apply KeepsA.next
    | with_reducible apply Keeps.ite
    | with_reducible apply State.fenceOne_keeps
    | with_reducible apply State.sink_keeps
    | split

end Sys2Proof.Machine
end

