-- ==== Sys2Proof/Laws/KeepsGov.lean ====
section
/-! SUPPORT. The operations of Machine/Gov.lean break nothing (`Keeps`). -/

set_option linter.unusedSimpArgs false

namespace Sys2Proof.Machine

theorem State.govBoundary_keeps {s0 : State} (s : State) (h : Keeps s0 s) :
    Keeps s0 (State.govBoundary s) := by
  unfold State.govBoundary
  repeat' first
    | with_reducible assumption
    | (extract_lets +onlyGivenNames x; clear_value x; revert x; intro _)
    | simp -zeta only [Keeps.mk_iff]

theorem State.showTarget_keeps {s0 : State} (s : State) (t : Nat) (h : Keeps s0 s) :
    Keeps s0 (State.showTarget s t) := by
  unfold State.showTarget
  repeat' first
    | with_reducible assumption
    | (extract_lets +onlyGivenNames x; have hx : Keeps s0 (by with_reducible apply x) := ?_; clear_value x; revert x; intro _ _; rotate_left; subst x)
    | with_reducible apply State.putB_keeps
    | with_reducible apply State.put_keeps

theorem State.setFall_keeps {s0 : State} (s : State) (n : Nat) (h : Keeps s0 s) :
    Keeps s0 (State.setFall s n) := by
  unfold State.setFall
  repeat' first
    | with_reducible assumption
    | (extract_lets +onlyGivenNames x; clear_value x; revert x; intro _)
    | simp -zeta only [Keeps.mk_iff]

theorem State.setBurst_keeps {s0 : State} (s : State) (n : Nat) (h : Keeps s0 s) :
    Keeps s0 (State.setBurst s n) := by
  unfold State.setBurst
  repeat' first
    | with_reducible assumption
    | (extract_lets +onlyGivenNames x; clear_value x; revert x; intro _)
    | simp -zeta only [Keeps.mk_iff]

theorem State.moveRail_keeps {s0 : State} (s : State) (us : Nat) (h : Keeps s0 s) :
    Keeps s0 (State.moveRail s us) := by
  unfold State.moveRail
  repeat' first
    | with_reducible assumption
    | (extract_lets +onlyGivenNames x; clear_value x; revert x; intro _)
    | with_reducible apply Keeps.ite
    | with_reducible apply State.setFall_keeps
    | with_reducible apply State.put_keeps

theorem execGovernorWindow_keeps {s0 : State} (busyNs : List Nat) (tokenPs : Nat) (s : State) (h : Keeps s0 s) :
    KeepsA s0 (execGovernorWindow busyNs tokenPs s) := by
  unfold execGovernorWindow
  repeat' first
    | with_reducible assumption
    | (extract_lets +onlyGivenNames x; have hx : Keeps s0 (by with_reducible apply x) := ?_; clear_value x; revert x; intro _ _; rotate_left; subst x)
    | (extract_lets +onlyGivenNames x; clear_value x; revert x; intro _)
    | with_reducible apply KeepsA.next
    | with_reducible apply KeepsA.ite
    | with_reducible apply Keeps.ite
    | with_reducible apply State.moveRail_keeps
    | with_reducible apply State.setBurst_keeps
    | with_reducible apply State.showTarget_keeps
    | with_reducible apply State.govBoundary_keeps
    | with_reducible apply State.putB_keeps
    | with_reducible apply State.put_keeps

theorem execBurstJump_keeps {s0 : State} (p : Fin 10) (s : State) (h : Keeps s0 s) :
    KeepsA s0 (execBurstJump p s) := by
  unfold execBurstJump
  repeat' first
    | with_reducible assumption
    | with_reducible apply KeepsA.next
    | with_reducible apply KeepsA.ite
    | with_reducible apply State.setBurst_keeps
    | with_reducible apply State.showTarget_keeps
    | with_reducible apply State.put_keeps
    | split

end Sys2Proof.Machine
end

