-- ==== Sys2Proof/Laws/KeepsGpio.lean ====
section
/-! SUPPORT. The operations of Machine/Gpio.lean break nothing (`Keeps`). -/

set_option linter.unusedSimpArgs false

namespace Sys2Proof.Machine

theorem execGpioInputChange_keeps {s0 : State} (pin : Fin 48) (level : Bool) (s : State) (h : Keeps s0 s) :
    KeepsA s0 (execGpioInputChange pin level s) := by
  unfold execGpioInputChange
  repeat' first
    | with_reducible assumption
    | (extract_lets +onlyGivenNames x; have hx : Keeps s0 (by with_reducible apply x) := ?_; clear_value x; revert x; intro _ _; rotate_left; subst x)
    | (extract_lets +onlyGivenNames x; clear_value x; revert x; intro _)
    | with_reducible apply KeepsA.next
    | with_reducible apply Keeps.ite
    | with_reducible apply State.wakeBy_keeps
    | with_reducible apply State.evtIf_keeps
    | with_reducible apply State.evt_keeps
    | with_reducible apply State.putB_keeps
    | with_reducible apply State.put_keeps

end Sys2Proof.Machine
end

