-- ==== Sys2Proof/Laws/KeepsProof.lean ====
section
/-! SUPPORT. The operations of Machine/Proof.lean break nothing (`Keeps`). -/

set_option linter.unusedSimpArgs false

namespace Sys2Proof.Machine

theorem State.postResult_keeps {s0 : State} (s : State) (m : Master) (c : Code) (h : Keeps s0 s) :
    Keeps s0 (State.postResult s m c) := by
  unfold State.postResult
  repeat' first
    | with_reducible assumption
    | with_reducible apply State.put_keeps

theorem execProofPost_keeps {s0 : State} (m : Master) (s : State) (h : Keeps s0 s) :
    KeepsA s0 (execProofPost m s) := by
  unfold execProofPost
  repeat' first
    | with_reducible assumption
    | intro _
    | (extract_lets +onlyGivenNames x; have hx : Keeps s0 (by with_reducible apply x) := ?_; clear_value x; revert x; intro _ _; rotate_left; subst x)
    | (extract_lets +onlyGivenNames x; clear_value x; revert x; intro _)
    | with_reducible apply KeepsA.next
    | with_reducible apply Keeps.ite
    | with_reducible apply State.postResult_keeps
    | with_reducible apply State.setProof_keeps
    | with_reducible apply State.offWrite_keeps
    | with_reducible apply State.ledIn_keeps
    | with_reducible apply State.evt_keeps
    | with_reducible apply State.bumpSat_keeps
    | with_reducible apply State.put_keeps
    | simp -zeta only [Keeps.mk_iff]
    | split

theorem State.takeEntry_keeps {s0 : State} (s : State) (h : Keeps s0 s) :
    Keeps s0 (State.takeEntry s) := by
  unfold State.takeEntry
  repeat' first
    | with_reducible assumption
    | intro _
    | with_reducible apply State.setProof_keeps
    | simp -zeta only [Keeps.mk_iff]

theorem State.rejectEntry_keeps {s0 : State} (s : State) (num : Nat) (cause : Nat) (h : Keeps s0 s) :
    Keeps s0 (State.rejectEntry s num cause) := by
  unfold State.rejectEntry
  repeat' first
    | with_reducible assumption
    | (extract_lets +onlyGivenNames x; have hx : Keeps s0 (by with_reducible apply x) := ?_; clear_value x; revert x; intro _ _; rotate_left; subst x)
    | (extract_lets +onlyGivenNames x; clear_value x; revert x; intro _)
    | with_reducible apply State.ledDrop_keeps
    | with_reducible apply State.evt_keeps
    | with_reducible apply State.bumpSat_keeps
    | with_reducible apply State.put_keeps

theorem State.tagKey_keeps {s0 : State} (s : State) (g : Nat) (eui : Nat) (epoch : Nat) (h : Keeps s0 s) :
    Keeps s0 (State.tagKey s g eui epoch).1 := by
  unfold State.tagKey
  repeat' first
    | with_reducible assumption
    | intro _
    | (extract_lets +onlyGivenNames x; have hx : Keeps s0 (by with_reducible apply x) := ?_; clear_value x; revert x; intro _ _; rotate_left; subst x)
    | with_reducible apply Keeps.ite
    | with_reducible apply State.setStarter_keeps
    | with_reducible apply State.sink_keeps
    | with_reducible apply State.ledPass_keeps
    | with_reducible apply State.ledDrop_keeps
    | with_reducible apply State.ledIn_keeps
    | with_reducible apply State.evtIf_keeps
    | split
    | simp only [StarterSt.storeNow_lc, StarterSt.storeNow_off, StarterSt.commitUpdate_lc, StarterSt.commitUpdate_off, StarterSt.beginUpdate_lc, StarterSt.beginUpdate_off, StarterSt.commitAll_lc, StarterSt.commitAll_off]

theorem execProofReading_keeps {s0 : State} (s : State) (h : Keeps s0 s) :
    KeepsA s0 (execProofReading s) := by
  unfold execProofReading
  repeat' first
    | with_reducible assumption
    | intro _
    | (extract_lets +onlyGivenNames x; have hx : Keeps s0 (by with_reducible apply x) := ?_; clear_value x; revert x; intro _ _; rotate_left; subst x)
    | (extract_lets +onlyGivenNames x; clear_value x; revert x; intro _)
    | with_reducible apply KeepsA.next
    | with_reducible apply Keeps.ite
    | with_reducible apply State.tagKey_keeps
    | with_reducible apply State.rejectEntry_keeps
    | with_reducible apply State.takeEntry_keeps
    | with_reducible apply State.appendRecord_keeps
    | with_reducible apply State.setProof_keeps
    | with_reducible apply State.ledOut_keeps
    | with_reducible apply State.bumpSat_keeps
    | simp -zeta only [Keeps.mk_iff]
    | split
    | with_reducible refine Keeps.of_pair (by assumption) ?_

theorem execProofParam_keeps {s0 : State} (s : State) (h : Keeps s0 s) :
    KeepsA s0 (execProofParam s) := by
  unfold execProofParam
  repeat' first
    | with_reducible assumption
    | intro _
    | (extract_lets +onlyGivenNames x; have hx : Keeps s0 (by with_reducible apply x) := ?_; clear_value x; revert x; intro _ _; rotate_left; subst x)
    | (extract_lets +onlyGivenNames x; clear_value x; revert x; intro _)
    | with_reducible apply KeepsA.next
    | with_reducible apply Keeps.ite
    | with_reducible apply State.rejectEntry_keeps
    | with_reducible apply State.takeEntry_keeps
    | with_reducible apply State.logNow_keeps
    | with_reducible apply State.setProof_keeps
    | with_reducible apply State.ledOut_keeps
    | simp -zeta only [Keeps.mk_iff]
    | split

theorem execProofActivate_keeps {s0 : State} (s : State) (h : Keeps s0 s) :
    KeepsA s0 (execProofActivate s) := by
  unfold execProofActivate
  repeat' first
    | with_reducible assumption
    | intro _
    | (extract_lets +onlyGivenNames x; have hx : Keeps s0 (by with_reducible apply x) := ?_; clear_value x; revert x; intro _ _; rotate_left; subst x)
    | (extract_lets +onlyGivenNames x; have hx : KeepsO s0 (by with_reducible apply x) := ?_; clear_value x; revert x; intro _ _; rotate_left; subst x)
    | (extract_lets +onlyGivenNames x; have hx : ProofSt := (by with_reducible apply x); clear hx; subst x)
    | (extract_lets +onlyGivenNames x; have hx : FwuSt := (by with_reducible apply x); clear hx; subst x)
    | (extract_lets +onlyGivenNames x; have hx : StarterSt := (by with_reducible apply x); clear hx; subst x)
    | (extract_lets +onlyGivenNames x; clear_value x; revert x; intro _)
    | with_reducible apply KeepsA.next
    | with_reducible apply KeepsA.ite
    | with_reducible apply Keeps.ite
    | with_reducible exact KeepsO.none
    | with_reducible apply KeepsO.some
    | with_reducible apply KeepsO.ite
    | with_reducible exact KeepsOA.none
    | with_reducible apply KeepsOA.some
    | with_reducible apply KeepsOA.ite
    | with_reducible apply State.rejectEntry_keeps
    | with_reducible apply State.takeEntry_keeps
    | with_reducible apply State.resumeProof_keeps
    | with_reducible apply State.setProof_keeps
    | with_reducible apply State.drive_keeps
    | with_reducible apply State.evt_keeps
    | with_reducible apply State.put_keeps
    | with_reducible apply Keeps.foldl
    | with_reducible apply Keeps.foldl_fst
    | simp -zeta only [Keeps.mk_iff]
    | with_reducible rfl
    | split
    | with_reducible exact Keeps.of_pair (by assumption) (by assumption)
    | with_reducible refine Keeps.of_pair (by assumption) ?_
    | with_reducible refine Keeps.of_pair' (by assumption) ?_
    | with_reducible refine Keeps.of_some (by assumption) ?_
    | with_reducible refine Keeps.of_someA (by assumption) ?_
    | with_reducible exact Keeps.of_someO (by assumption)
    | with_reducible apply KeepsOA.getD
    | simp only [StarterSt.storeNow_lc, StarterSt.storeNow_off, StarterSt.commitUpdate_lc, StarterSt.commitUpdate_off, StarterSt.beginUpdate_lc, StarterSt.beginUpdate_off, StarterSt.commitAll_lc, StarterSt.commitAll_off]
    | with_reducible contradiction
    | dsimp -zeta only

theorem execProofSelftestEnd_keeps {s0 : State} (pass : Bool) (s : State) (h : Keeps s0 s) :
    KeepsA s0 (execProofSelftestEnd pass s) := by
  unfold execProofSelftestEnd
  repeat' first
    | with_reducible assumption
    | intro _
    | (extract_lets +onlyGivenNames x; have hx : Keeps s0 (by with_reducible apply x) := ?_; clear_value x; revert x; intro _ _; rotate_left; subst x)
    | (extract_lets +onlyGivenNames x; clear_value x; revert x; intro _)
    | with_reducible apply KeepsA.next
    | with_reducible apply Keeps.ite
    | with_reducible apply State.resumeProof_keeps
    | with_reducible apply State.logNow_keeps
    | with_reducible apply State.setProof_keeps
    | with_reducible apply State.ledDrop_keeps
    | with_reducible apply State.ledOut_keeps
    | simp -zeta only [Keeps.mk_iff]
    | split

theorem execPd2Undervolt_keeps {s0 : State} (s : State) (h : Keeps s0 s) :
    KeepsA s0 (execPd2Undervolt s) := by
  unfold execPd2Undervolt
  repeat' first
    | with_reducible assumption
    | intro _
    | with_reducible apply KeepsA.next
    | with_reducible apply Keeps.ite
    | with_reducible apply State.setProof_keeps
    | with_reducible apply State.blankBlock_keeps
    | simp -zeta only [Keeps.mk_iff]

theorem execPd2Restart_keeps {s0 : State} (s : State) (h : Keeps s0 s) :
    KeepsA s0 (execPd2Restart s) := by
  unfold execPd2Restart
  repeat' first
    | with_reducible assumption
    | with_reducible apply KeepsA.next
    | with_reducible apply Keeps.ite
    | with_reducible apply State.startProofer_keeps

theorem execProofPubSelWrite_keeps {s0 : State} (m : Master) (seq : BitVec 32) (s : State) (h : Keeps s0 s) :
    KeepsA s0 (execProofPubSelWrite m seq s) := by
  unfold execProofPubSelWrite
  repeat' first
    | with_reducible assumption
    | intro _
    | (extract_lets +onlyGivenNames x; have hx : Keeps s0 (by with_reducible apply x) := ?_; clear_value x; revert x; intro _ _; rotate_left; subst x)
    | (extract_lets +onlyGivenNames x; clear_value x; revert x; intro _)
    | with_reducible apply KeepsA.next
    | with_reducible apply Keeps.ite
    | with_reducible apply State.setProof_keeps
    | with_reducible apply State.offWrite_keeps
    | with_reducible apply State.put_keeps
    | simp -zeta only [Keeps.mk_iff]

theorem State.sealAnswer_keeps {s0 : State} (s : State) (cmd : Nat) (status : Nat) (payload : List Nat) (h : Keeps s0 s) :
    Keeps s0 (State.sealAnswer s cmd status payload) := by
  unfold State.sealAnswer
  repeat' first
    | with_reducible assumption
    | intro _
    | with_reducible apply Keeps.ite
    | with_reducible apply State.setProof_keeps
    | simp -zeta only [Keeps.mk_iff]

theorem execSealIdent_keeps {s0 : State} (s : State) (h : Keeps s0 s) :
    KeepsA s0 (execSealIdent s) := by
  unfold execSealIdent
  repeat' first
    | with_reducible assumption
    | (extract_lets +onlyGivenNames x; clear_value x; revert x; intro _)
    | with_reducible apply KeepsA.next
    | with_reducible apply State.sealAnswer_keeps

theorem execSealLogRead_keeps {s0 : State} (arg : BitVec 32) (s : State) (h : Keeps s0 s) :
    KeepsA s0 (execSealLogRead arg s) := by
  unfold execSealLogRead
  repeat' first
    | with_reducible assumption
    | with_reducible apply KeepsA.next
    | with_reducible apply Keeps.ite
    | with_reducible apply State.sealAnswer_keeps

theorem execSealRegRead_keeps {s0 : State} (arg : BitVec 32) (s : State) (h : Keeps s0 s) :
    KeepsA s0 (execSealRegRead arg s) := by
  unfold execSealRegRead
  repeat' first
    | with_reducible assumption
    | with_reducible apply KeepsA.next
    | with_reducible apply Keeps.ite
    | with_reducible apply State.sealAnswer_keeps

theorem execSealHeads_keeps {s0 : State} (s : State) (h : Keeps s0 s) :
    KeepsA s0 (execSealHeads s) := by
  unfold execSealHeads
  repeat' first
    | with_reducible assumption
    | with_reducible apply KeepsA.next
    | with_reducible apply State.sealAnswer_keeps

theorem execSealUnknownCmd_keeps {s0 : State} (cmd : BitVec 8) (s : State) (h : Keeps s0 s) :
    KeepsA s0 (execSealUnknownCmd cmd s) := by
  unfold execSealUnknownCmd
  repeat' first
    | with_reducible assumption
    | with_reducible apply KeepsA.next
    | with_reducible apply Keeps.ite
    | with_reducible apply State.sealAnswer_keeps

theorem execSealRequestDiscard_keeps {s0 : State} (s : State) (h : Keeps s0 s) :
    KeepsA s0 (execSealRequestDiscard s) := by
  unfold execSealRequestDiscard
  repeat' first
    | with_reducible assumption
    | intro _
    | with_reducible apply KeepsA.next
    | with_reducible apply Keeps.ite
    | with_reducible apply State.setProof_keeps
    | simp -zeta only [Keeps.mk_iff]

end Sys2Proof.Machine
end

