-- ==== Sys2Proof/Laws/KeepsStarter.lean ====
section
/-! SUPPORT. The operations of Machine/Starter.lean break nothing (`Keeps`). -/

set_option linter.unusedSimpArgs false

namespace Sys2Proof.Machine

theorem State.derive_keeps {s0 : State} (s : State) (d : DeriveArgs) (h : Keeps s0 s) :
    Keeps s0 (State.derive s d) := by
  unfold State.derive
  repeat' first
    | with_reducible assumption
    | intro _
    | (extract_lets +onlyGivenNames x; have hx : ∀ c : Code, Keeps s0 (by with_reducible exact x c) := ?_; clear_value x; revert x; intro _ hc; rotate_left; subst x; dsimp -zeta only)
    | with_reducible apply hc
    | (extract_lets +onlyGivenNames x; clear_value x; revert x; intro _)
    | with_reducible apply Keeps.ite
    | with_reducible apply State.startKeyOp_keeps
    | with_reducible apply State.endKeyOp_keeps
    | with_reducible apply State.useSlot_keeps
    | split
    | with_reducible refine Keeps.of_pair (by assumption) ?_

theorem execDerive_keeps {s0 : State} (m : Master) (tag : BitVec 8) (s : State) (h : Keeps s0 s) :
    KeepsA s0 (execDerive m tag s) := by
  unfold execDerive
  repeat' first
    | with_reducible assumption
    | intro _
    | with_reducible apply KeepsA.next
    | with_reducible apply State.derive_keeps
    | with_reducible apply State.onStarter_keeps

theorem execDeriveItem_keeps {s0 : State} (s : State) (h : Keeps s0 s) :
    KeepsA s0 (execDeriveItem s) := by
  unfold execDeriveItem
  repeat' first
    | with_reducible assumption
    | (extract_lets +onlyGivenNames x; have hx : Keeps s0 (by with_reducible apply x) := ?_; clear_value x; revert x; intro _ _; rotate_left; subst x)
    | (extract_lets +onlyGivenNames x; clear_value x; revert x; intro _)
    | with_reducible apply KeepsA.next
    | with_reducible apply KeepsA.ite
    | with_reducible apply State.derive_keeps
    | with_reducible apply State.endKeyOp_keeps
    | with_reducible apply State.takeReady_keeps
    | with_reducible apply State.ledIn_keeps
    | split
    | with_reducible refine Keeps.of_some (by assumption) ?_

theorem execInlineDerive_keeps {s0 : State} (h0 : BitVec 18) (next : Bool) (n : Fin 4) (k : Fin 32) (s : State) (h : Keeps s0 s) :
    KeepsA s0 (execInlineDerive h0 next n k s) := by
  unfold execInlineDerive
  repeat' first
    | with_reducible assumption
    | (extract_lets +onlyGivenNames x; clear_value x; revert x; intro _)
    | with_reducible apply KeepsA.next
    | with_reducible apply Keeps.ite
    | with_reducible apply State.inlineKey_keeps
    | with_reducible apply State.setCtx_keeps
    | simp -zeta only [Keeps.mk_iff]
    | split

theorem State.unwrapLegacy_keeps {s0 : State} (s : State) (blob : List Nat) (dst : Nat) (attrs : W32) (count : Nat) (h : Keeps s0 s) :
    Keeps s0 (State.unwrapLegacy s blob dst attrs count) := by
  unfold State.unwrapLegacy
  repeat' first
    | with_reducible assumption
    | intro _
    | (extract_lets +onlyGivenNames x; have hx : ∀ c : Code, Keeps s0 (by with_reducible exact x c) := ?_; clear_value x; revert x; intro _ hc; rotate_left; subst x; dsimp -zeta only)
    | with_reducible apply hc
    | (extract_lets +onlyGivenNames x; clear_value x; revert x; intro _)
    | with_reducible apply Keeps.ite
    | with_reducible apply State.startKeyOp_keeps
    | with_reducible apply State.endKeyOp_keeps
    | split

theorem execUnwrap_keeps {s0 : State} (m : Master) (tag : BitVec 8) (s : State) (h : Keeps s0 s) :
    KeepsA s0 (execUnwrap m tag s) := by
  unfold execUnwrap
  repeat' first
    | with_reducible assumption
    | intro _
    | (extract_lets +onlyGivenNames x; have hx : ∀ c : Code, Keeps s0 (by with_reducible exact x c) := ?_; clear_value x; revert x; intro _ hc; rotate_left; subst x; dsimp -zeta only)
    | with_reducible apply hc
    | (extract_lets +onlyGivenNames x; clear_value x; revert x; intro _)
    | with_reducible apply KeepsA.next
    | with_reducible apply Keeps.ite
    | with_reducible apply State.unwrapLegacy_keeps
    | with_reducible apply State.onStarter_keeps
    | with_reducible apply State.startKeyOp_keeps
    | with_reducible apply State.endKeyOp_keeps
    | with_reducible apply State.useSlot_keeps
    | split
    | with_reducible refine Keeps.of_pair (by assumption) ?_

theorem execWrap_keeps {s0 : State} (m : Master) (tag : BitVec 8) (s : State) (h : Keeps s0 s) :
    KeepsA s0 (execWrap m tag s) := by
  unfold execWrap
  repeat' first
    | with_reducible assumption
    | intro _
    | (extract_lets +onlyGivenNames x; clear_value x; revert x; intro _)
    | with_reducible apply KeepsA.next
    | with_reducible apply State.onStarter_keeps
    | with_reducible apply State.startKeyOp_keeps
    | with_reducible apply State.endKeyOp_keeps
    | with_reducible apply State.useSlot_keeps
    | split
    | with_reducible refine Keeps.of_pair (by assumption) ?_

theorem execGenerate_keeps {s0 : State} (m : Master) (tag : BitVec 8) (s : State) (h : Keeps s0 s) :
    KeepsA s0 (execGenerate m tag s) := by
  unfold execGenerate
  repeat' first
    | with_reducible assumption
    | intro _
    | (extract_lets +onlyGivenNames x; clear_value x; revert x; intro _)
    | with_reducible apply KeepsA.next
    | with_reducible apply State.onStarter_keeps
    | with_reducible apply State.startKeyOp_keeps
    | with_reducible apply State.endKeyOp_keeps
    | with_reducible apply State.draw_keeps
    | simp -zeta only [Keeps.mk_iff]
    | split

theorem execMkaKeys_keeps {s0 : State} (m : Master) (tag : BitVec 8) (s : State) (h : Keeps s0 s) :
    KeepsA s0 (execMkaKeys m tag s) := by
  unfold execMkaKeys
  repeat' first
    | with_reducible assumption
    | intro _
    | (extract_lets +onlyGivenNames x; have hx : ∀ c : Code, Keeps s0 (by with_reducible exact x c) := ?_; clear_value x; revert x; intro _ hc; rotate_left; subst x; dsimp -zeta only)
    | with_reducible apply hc
    | (extract_lets +onlyGivenNames x; clear_value x; revert x; intro _)
    | with_reducible apply KeepsA.next
    | with_reducible apply Keeps.ite
    | with_reducible apply State.onStarter_keeps
    | with_reducible apply State.startKeyOp_keeps
    | with_reducible apply State.endKeyOp_keeps
    | with_reducible apply State.useSlot_keeps
    | split
    | with_reducible refine Keeps.of_pair (by assumption) ?_

theorem execSlotZero_keeps {s0 : State} (m : Master) (tag : BitVec 8) (s : State) (h : Keeps s0 s) :
    KeepsA s0 (execSlotZero m tag s) := by
  unfold execSlotZero
  repeat' first
    | with_reducible assumption
    | intro _
    | (extract_lets +onlyGivenNames x; have hx : ∀ c : Code, Keeps s0 (by with_reducible exact x c) := ?_; clear_value x; revert x; intro _ hc; rotate_left; subst x; dsimp -zeta only)
    | with_reducible apply hc
    | (extract_lets +onlyGivenNames x; clear_value x; revert x; intro _)
    | with_reducible apply KeepsA.next
    | with_reducible apply Keeps.ite
    | with_reducible apply State.onStarter_keeps
    | with_reducible apply State.startKeyOp_keeps
    | with_reducible apply State.endKeyOp_keeps
    | with_reducible apply State.setStarter_keeps
    | split
    | simp only [StarterSt.storeNow_lc, StarterSt.storeNow_off, StarterSt.commitUpdate_lc, StarterSt.commitUpdate_off, StarterSt.beginUpdate_lc, StarterSt.beginUpdate_off, StarterSt.commitAll_lc, StarterSt.commitAll_off]

theorem execSlotInfo_keeps {s0 : State} (m : Master) (tag : BitVec 8) (s : State) (h : Keeps s0 s) :
    KeepsA s0 (execSlotInfo m tag s) := by
  unfold execSlotInfo
  repeat' first
    | with_reducible assumption
    | intro _
    | (extract_lets +onlyGivenNames x; have hx : Keeps s0 (by with_reducible apply x) := ?_; clear_value x; revert x; intro _ _; rotate_left; subst x)
    | (extract_lets +onlyGivenNames x; clear_value x; revert x; intro _)
    | with_reducible apply KeepsA.next
    | with_reducible apply Keeps.ite
    | with_reducible apply State.onStarter_keeps
    | with_reducible apply State.endKeyOp_keeps
    | with_reducible apply State.setStarter_keeps
    | with_reducible apply State.complete_keeps
    | with_reducible apply State.ledOut_keeps
    | simp -zeta only [Keeps.mk_iff]
    | split

theorem State.mcExtend_keeps {s0 : State} (s : State) (i : Nat) (meas : List Nat) (h : Keeps s0 s) :
    Keeps s0 (State.mcExtend s i meas) := by
  unfold State.mcExtend
  repeat' first
    | with_reducible assumption
    | intro _
    | with_reducible apply State.setStarter_keeps
    | simp -zeta only [Keeps.mk_iff]

theorem State.mcLockNow_keeps {s0 : State} (s : State) (i : Nat) (h : Keeps s0 s) :
    Keeps s0 (State.mcLockNow s i) := by
  unfold State.mcLockNow
  repeat' first
    | with_reducible assumption
    | intro _
    | with_reducible apply State.setStarter_keeps
    | simp -zeta only [Keeps.mk_iff]

theorem execMcExtend_keeps {s0 : State} (m : Master) (tag : BitVec 8) (s : State) (h : Keeps s0 s) :
    KeepsA s0 (execMcExtend m tag s) := by
  unfold execMcExtend
  repeat' first
    | with_reducible assumption
    | intro _
    | (extract_lets +onlyGivenNames x; have hx : Keeps s0 (by with_reducible apply x) := ?_; clear_value x; revert x; intro _ _; rotate_left; subst x)
    | (extract_lets +onlyGivenNames x; clear_value x; revert x; intro _)
    | with_reducible apply KeepsA.next
    | with_reducible apply Keeps.ite
    | with_reducible apply State.mcLockNow_keeps
    | with_reducible apply State.mcExtend_keeps
    | with_reducible apply State.onStarter_keeps
    | with_reducible apply State.endKeyOp_keeps

theorem execMcRead_keeps {s0 : State} (m : Master) (tag : BitVec 8) (s : State) (h : Keeps s0 s) :
    KeepsA s0 (execMcRead m tag s) := by
  unfold execMcRead
  repeat' first
    | with_reducible assumption
    | intro _
    | with_reducible apply KeepsA.next
    | with_reducible apply State.onStarter_keeps
    | with_reducible apply State.endKeyOp_keeps

theorem execLegacyOff_keeps {s0 : State} (m : Master) (tag : BitVec 8) (s : State) (h : Keeps s0 s) :
    KeepsA s0 (execLegacyOff m tag s) := by
  unfold execLegacyOff
  refine .next (State.onStarter_keeps _ _ _ _ _ _ h fun x hx => ?_)
  split
  · exact State.endKeyOp_keeps _ _ _ _ _ hx
  · exact State.endKeyOp_keeps _ _ _ _ _ (hx.change rfl id (fun _ => .inl rfl) rfl (fun _ x => x) (fun _ => rfl) (Nat.le_refl _))

theorem execRetainedUpdateCommit_keeps {s0 : State} (s : State) (h : Keeps s0 s) :
    KeepsA s0 (execRetainedUpdateCommit s) := by
  unfold execRetainedUpdateCommit
  repeat' first
    | with_reducible assumption
    | intro _
    | (extract_lets +onlyGivenNames x; have hx : Keeps s0 (by with_reducible apply x) := ?_; clear_value x; revert x; intro _ _; rotate_left; subst x)
    | (extract_lets +onlyGivenNames x; have hx : StarterSt := (by with_reducible apply x); clear hx; subst x)
    | with_reducible apply KeepsA.next
    | with_reducible apply State.finishKeyOp_keeps
    | with_reducible apply State.setStarter_keeps
    | with_reducible apply State.evtIf_keeps
    | simp -zeta only [Keeps.mk_iff]
    | split
    | simp only [StarterSt.storeNow_lc, StarterSt.storeNow_off, StarterSt.commitUpdate_lc, StarterSt.commitUpdate_off, StarterSt.beginUpdate_lc, StarterSt.beginUpdate_off, StarterSt.commitAll_lc, StarterSt.commitAll_off]

end Sys2Proof.Machine
end

