-- ==== Sys2Proof/Laws/KeepsPower.lean ====
section
/-! SUPPORT. The operations of Machine/Power.lean break nothing (`Keeps`). -/

set_option linter.unusedSimpArgs false

namespace Sys2Proof.Machine

theorem execPowerOn_keeps {s0 : State} (dftEn : Bool) (s : State) (h : Keeps s0 s) :
    KeepsA s0 (execPowerOn dftEn s) := by
  unfold execPowerOn
  repeat' first
    | with_reducible assumption
    | intro _
    | (extract_lets +onlyGivenNames x; have hx : Keeps s0 (by with_reducible apply x) := ?_; clear_value x; revert x; intro _ _; rotate_left; subst x)
    | with_reducible apply KeepsA.next
    | with_reducible apply KeepsA.ite
    | with_reducible apply Keeps.ite
    | with_reducible apply State.allOff_keeps
    | with_reducible apply State.unpowered_keeps
    | with_reducible apply State.beginStart_keeps
    | with_reducible apply State.setDomains_keeps
    | with_reducible apply State.startProofer_keeps
    | with_reducible apply State.draw_keeps
    | with_reducible apply State.put_keeps
    | with_reducible apply Keeps.foldl
    | simp -zeta only [Keeps.mk_iff]

theorem State.completeTransitions_keeps {s0 : State} (s : State) (h : Keeps s0 s) :
    Keeps s0 (State.completeTransitions s) := by
  unfold State.completeTransitions
  repeat' first
    | with_reducible assumption
    | intro _
    | with_reducible apply State.endTransition_keeps
    | with_reducible apply State.drawOctets_keeps
    | with_reducible apply Keeps.foldl

theorem State.openSlots_keeps {s0 : State} (s : State) (h : Keeps s0 s) :
    Keeps s0 (State.openSlots s) := by
  unfold State.openSlots
  repeat' first
    | with_reducible assumption
    | intro _
    | (extract_lets +onlyGivenNames x; have hx : Keeps s0 (by with_reducible apply x) := ?_; clear_value x; revert x; intro _ _; rotate_left; subst x)
    | (extract_lets +onlyGivenNames x; clear_value x; revert x; intro _)
    | with_reducible apply State.setStarter_keeps
    | with_reducible apply State.bumpSat_keeps
    | with_reducible apply Keeps.foldl
    | simp -zeta only [Keeps.mk_iff]
    | split
    | rfl

theorem execStarterOpen_keeps {s0 : State} (rootBad : Bool) (s : State) (h : Keeps s0 s) :
    KeepsA s0 (execStarterOpen rootBad s) := by
  unfold execStarterOpen
  repeat' first
    | with_reducible assumption
    | intro _
    | (extract_lets +onlyGivenNames x; have hx : Keeps s0 (by with_reducible apply x) := ?_; clear_value x; revert x; intro _ _; rotate_left; subst x)
    | with_reducible apply KeepsA.next
    | with_reducible apply KeepsA.ite
    | with_reducible apply Keeps.ite
    | with_reducible apply State.openSlots_keeps
    | with_reducible apply State.completeTransitions_keeps
    | with_reducible apply State.mcLockNow_keeps
    | with_reducible apply State.mcExtend_keeps
    | with_reducible apply State.zeroiseRetained_keeps
    | with_reducible apply State.setDomains_keeps
    | with_reducible apply State.logNow_keeps
    | with_reducible apply State.setStarter_keeps
    | with_reducible apply State.evtIf_keeps
    | with_reducible apply State.evt_keeps
    | with_reducible apply State.putB_keeps
    | with_reducible apply State.put_keeps
    | simp -zeta only [Keeps.mk_iff]

theorem State.bootImage_keeps {s0 : State} (s : State) (h : Keeps s0 s) :
    Keeps s0 (State.bootImage s).1 := by
  unfold State.bootImage
  repeat' first
    | with_reducible assumption
    | intro _
    | (extract_lets +onlyGivenNames x; have hx : ∀ c : Code, Keeps s0 (by with_reducible exact x c) := ?_; clear_value x; revert x; intro _ hc; rotate_left; subst x; dsimp -zeta only)
    | (extract_lets +onlyGivenNames x; have hx : ∀ c : Code, KeepsA s0 (by with_reducible exact x c) := ?_; clear_value x; revert x; intro _ hc; rotate_left; subst x; dsimp -zeta only)
    | (extract_lets +onlyGivenNames x; have hx : ∀ c : Cause, Keeps s0 (by with_reducible exact x c) := ?_; clear_value x; revert x; intro _ hc; rotate_left; subst x; dsimp -zeta only)
    | (extract_lets +onlyGivenNames x; have hx : ∀ c : Cause, KeepsA s0 (by with_reducible exact x c) := ?_; clear_value x; revert x; intro _ hc; rotate_left; subst x; dsimp -zeta only)
    | with_reducible apply hc
    | (extract_lets +onlyGivenNames x; have hx : ∀ y, Keeps s0 y → Keeps s0 (by with_reducible exact x y) := ?_; clear_value x; revert x; intro _ hf0; rotate_left; subst x; dsimp -zeta only)
    | (extract_lets +onlyGivenNames x; have hx : ∀ y, Keeps s0 y → KeepsA s0 (by with_reducible exact x y) := ?_; clear_value x; revert x; intro _ hf0; rotate_left; subst x; dsimp -zeta only)
    | with_reducible apply hf0
    | (extract_lets +onlyGivenNames x; have hx : ∀ y y0, Keeps s0 y → Keeps s0 (by with_reducible exact x y y0) := ?_; clear_value x; revert x; intro _ hf1; rotate_left; subst x; dsimp -zeta only)
    | (extract_lets +onlyGivenNames x; have hx : ∀ y y0, Keeps s0 y → KeepsA s0 (by with_reducible exact x y y0) := ?_; clear_value x; revert x; intro _ hf1; rotate_left; subst x; dsimp -zeta only)
    | with_reducible apply hf1
    | (extract_lets +onlyGivenNames x; have hx : ∀ y y0 y1, Keeps s0 y → Keeps s0 (by with_reducible exact x y y0 y1) := ?_; clear_value x; revert x; intro _ hf2; rotate_left; subst x; dsimp -zeta only)
    | (extract_lets +onlyGivenNames x; have hx : ∀ y y0 y1, Keeps s0 y → KeepsA s0 (by with_reducible exact x y y0 y1) := ?_; clear_value x; revert x; intro _ hf2; rotate_left; subst x; dsimp -zeta only)
    | with_reducible apply hf2
    | (extract_lets +onlyGivenNames x; have hx : ∀ y y0 y1 y2, Keeps s0 y → Keeps s0 (by with_reducible exact x y y0 y1 y2) := ?_; clear_value x; revert x; intro _ hf3; rotate_left; subst x; dsimp -zeta only)
    | (extract_lets +onlyGivenNames x; have hx : ∀ y y0 y1 y2, Keeps s0 y → KeepsA s0 (by with_reducible exact x y y0 y1 y2) := ?_; clear_value x; revert x; intro _ hf3; rotate_left; subst x; dsimp -zeta only)
    | with_reducible apply hf3
    | (extract_lets +onlyGivenNames x; have hx : Keeps s0 (by with_reducible apply x) := ?_; clear_value x; revert x; intro _ _; rotate_left; subst x)
    | (extract_lets +onlyGivenNames x; have hx : KeepsO s0 (by with_reducible apply x) := ?_; clear_value x; revert x; intro _ _; rotate_left; subst x)
    | (extract_lets +onlyGivenNames x; have hx : ProofSt := (by with_reducible apply x); clear hx; subst x)
    | (extract_lets +onlyGivenNames x; have hx : FwuSt := (by with_reducible apply x); clear hx; subst x)
    | (extract_lets +onlyGivenNames x; have hx : StarterSt := (by with_reducible apply x); clear hx; subst x)
    | (extract_lets +onlyGivenNames x; clear_value x; revert x; intro _)
    | with_reducible apply KeepsA.next
    | with_reducible apply KeepsA.ite
    | with_reducible apply Keeps.ite
    | with_reducible exact KeepsO.none
    | with_reducible apply KeepsO.some
    | with_reducible apply KeepsO.ite
    | with_reducible exact KeepsOA.none
    | with_reducible apply KeepsOA.some
    | with_reducible apply KeepsOA.ite
    | with_reducible apply State.fallBack_keeps
    | with_reducible apply State.setFwu_keeps
    | with_reducible apply State.drive_keeps
    | with_reducible apply Keeps.foldl
    | with_reducible apply Keeps.foldl_fst
    | simp -zeta only [Keeps.mk_iff]
    | with_reducible rfl
    | split
    | with_reducible exact Keeps.of_pair (by assumption) (by assumption)
    | with_reducible refine Keeps.of_pair (by assumption) ?_
    | with_reducible refine Keeps.of_pair' (by assumption) ?_
    | with_reducible refine Keeps.of_some (by assumption) ?_
    | with_reducible refine Keeps.of_someA (by assumption) ?_
    | with_reducible exact Keeps.of_someO (by assumption)
    | with_reducible apply KeepsOA.getD
    | simp only [StarterSt.storeNow_lc, StarterSt.storeNow_off, StarterSt.commitUpdate_lc, StarterSt.commitUpdate_off, StarterSt.beginUpdate_lc, StarterSt.beginUpdate_off, StarterSt.commitAll_lc, StarterSt.commitAll_off]
    | with_reducible contradiction
    | dsimp -zeta only

theorem execStage1Verified_keeps {s0 : State} (s : State) (h : Keeps s0 s) :
    KeepsA s0 (execStage1Verified s) := by
  unfold execStage1Verified
  repeat' first
    | with_reducible assumption
    | intro _
    | (extract_lets +onlyGivenNames x; have hx : Keeps s0 (by with_reducible apply x) := ?_; clear_value x; revert x; intro _ _; rotate_left; subst x)
    | with_reducible apply KeepsA.next
    | with_reducible apply KeepsA.ite
    | with_reducible apply Keeps.ite
    | with_reducible apply State.bootImage_keeps
    | with_reducible apply State.mcLockNow_keeps
    | with_reducible apply State.mcExtend_keeps
    | with_reducible apply State.drawKeys_keeps
    | with_reducible apply State.milestone_keeps
    | with_reducible apply State.setDomains_keeps
    | with_reducible apply State.bootTrial_keeps
    | with_reducible apply State.setFwu_keeps
    | with_reducible apply State.evt_keeps
    | with_reducible apply State.draw_keeps
    | with_reducible apply State.put_keeps
    | simp -zeta only [Keeps.mk_iff]
    | split
    | with_reducible refine Keeps.of_pair (by assumption) ?_

theorem execRetainedConfigApplied_keeps {s0 : State} (s : State) (h : Keeps s0 s) :
    KeepsA s0 (execRetainedConfigApplied s) := by
  unfold execRetainedConfigApplied
  repeat' first
    | with_reducible assumption
    | intro _
    | (extract_lets +onlyGivenNames x; have hx : Keeps s0 (by with_reducible apply x) := ?_; clear_value x; revert x; intro _ _; rotate_left; subst x)
    | (extract_lets +onlyGivenNames x; clear_value x; revert x; intro _)
    | with_reducible apply KeepsA.next
    | with_reducible apply KeepsA.ite
    | with_reducible apply Keeps.ite
    | with_reducible apply State.mcLockNow_keeps
    | with_reducible apply State.mcExtend_keeps
    | with_reducible apply State.voidCopy_keeps
    | with_reducible apply State.milestone_keeps
    | with_reducible apply State.domainsOn_keeps
    | with_reducible apply State.restoreBlock_keeps
    | with_reducible apply State.applyDeferred_keeps
    | with_reducible apply State.openWindow_keeps
    | with_reducible apply State.loadUnit_keeps
    | with_reducible apply State.put_keeps
    | with_reducible apply Keeps.foldl
    | with_reducible apply Keeps.foldl_fst
    | simp -zeta only [Keeps.mk_iff]

theorem execDataPlanesForwarding_keeps {s0 : State} (s : State) (h : Keeps s0 s) :
    KeepsA s0 (execDataPlanesForwarding s) := by
  unfold execDataPlanesForwarding
  repeat' first
    | with_reducible assumption
    | intro _
    | (extract_lets +onlyGivenNames x; have hx : Keeps s0 (by with_reducible apply x) := ?_; clear_value x; revert x; intro _ _; rotate_left; subst x)
    | with_reducible apply KeepsA.next
    | with_reducible apply KeepsA.ite
    | with_reducible apply State.mcLockNow_keeps
    | with_reducible apply State.mcExtend_keeps
    | with_reducible apply State.milestone_keeps
    | with_reducible apply Keeps.foldl
    | simp -zeta only [Keeps.mk_iff]

theorem State.rebuildOne_keeps {s0 : State} (s : State) (h0 : Nat) (r : BitVec 192) (h : Keeps s0 s) :
    Keeps s0 (State.rebuildOne s h0 r) := by
  unfold State.rebuildOne
  repeat' first
    | with_reducible assumption
    | intro _
    | (extract_lets +onlyGivenNames x; have hx : ∀ y, Keeps s0 y → Keeps s0 (by with_reducible exact x y) := ?_; clear_value x; revert x; intro _ hf0; rotate_left; subst x; dsimp -zeta only)
    | with_reducible apply hf0
    | (extract_lets +onlyGivenNames x; have hx : Keeps s0 (by with_reducible apply x) := ?_; clear_value x; revert x; intro _ _; rotate_left; subst x)
    | (extract_lets +onlyGivenNames x; clear_value x; revert x; intro _)
    | with_reducible apply Keeps.ite
    | with_reducible apply State.indexInsert_keeps
    | with_reducible apply State.markDirty_keeps
    | with_reducible apply State.evt_keeps
    | with_reducible apply State.bumpSat_keeps
    | with_reducible apply State.bump_keeps
    | simp -zeta only [Keeps.mk_iff]
    | split
    | with_reducible refine Keeps.of_some (by assumption) ?_

theorem execDirectoryRebuild_keeps {s0 : State} (s : State) (h : Keeps s0 s) :
    KeepsA s0 (execDirectoryRebuild s) := by
  unfold execDirectoryRebuild
  repeat' first
    | with_reducible assumption
    | intro _
    | (extract_lets +onlyGivenNames x; have hx : Keeps s0 (by with_reducible apply x) := ?_; clear_value x; revert x; intro _ _; rotate_left; subst x)
    | (extract_lets +onlyGivenNames x; clear_value x; revert x; intro _)
    | with_reducible apply KeepsA.next
    | with_reducible apply KeepsA.ite
    | with_reducible apply Keeps.ite
    | with_reducible apply State.rebuildOne_keeps
    | with_reducible apply State.startRestore_keeps
    | with_reducible apply State.restoreDone_keeps
    | with_reducible apply State.ageRecords_keeps
    | with_reducible apply State.regrant_keeps
    | with_reducible apply State.putB_keeps
    | with_reducible apply State.put_keeps
    | with_reducible apply Keeps.foldl
    | simp -zeta only [Keeps.mk_iff]

theorem State.bringUpChain_keeps {s0 : State} (s : State) (n : Nat) (h : Keeps s0 s) :
    Keeps s0 (State.bringUpChain s n) := by
  unfold State.bringUpChain
  repeat' first
    | with_reducible assumption
    | with_reducible apply State.calComplete_keeps
    | with_reducible apply State.synthLock_keeps
    | with_reducible apply State.chainStart_keeps
    | with_reducible apply State.draw_keeps

theorem execRadioChainsCalibrated_keeps {s0 : State} (s : State) (h : Keeps s0 s) :
    KeepsA s0 (execRadioChainsCalibrated s) := by
  unfold execRadioChainsCalibrated
  split
  · exact .next h
  · have h1 := State.domainsOn_keeps s [10, 11] h
    split
    rename_i t n e
    rw [e] at h1
    have h2 := State.bumpSat_keeps t R.RET_RESTORE_REFUSED n h1
    have h3 := State.mcLockNow_keeps _ 3 (Keeps.foldl (l := [1, 2, 3, 4]) (fun s u hs => State.mcExtend_keeps s 3 (s.unitOctets u) hs)
      (Keeps.foldl (l := [1, 2, 3, 4]) (fun s u hs => State.loadUnit_keeps s u hs) h2))
    have h4 := Keeps.foldl (l := [0, 1, 2, 3]) (fun s n hs => State.bringUpChain_keeps s n hs) h3
    have h5 := State.milestone_keeps _ 4 h4
    dsimp only
    generalize State.milestone _ 4 = u at h5 ⊢
    refine .next (Keeps.ite ?_ (State.put_keeps _ _ _ ?_)) <;> exact Keeps.of_eq h5 rfl rfl rfl rfl rfl rfl rfl

theorem State.abandonStore_keeps {s0 : State} (s : State) (h : Keeps s0 s) :
    Keeps s0 (State.abandonStore s) := by
  unfold State.abandonStore
  repeat' first
    | with_reducible assumption
    | (extract_lets +onlyGivenNames x; have hx : Keeps s0 (by with_reducible apply x) := ?_; clear_value x; revert x; intro _ _; rotate_left; subst x)
    | (extract_lets +onlyGivenNames x; clear_value x; revert x; intro _)
    | with_reducible apply State.evt_keeps
    | with_reducible apply State.put_keeps
    | simp -zeta only [Keeps.mk_iff]
    | split

theorem State.abandonUpdate_keeps {s0 : State} (s : State) (h : Keeps s0 s) :
    Keeps s0 (State.abandonUpdate s) := by
  unfold State.abandonUpdate
  repeat' first
    | with_reducible assumption
    | with_reducible apply Keeps.ite
    | with_reducible apply State.dropKeyOp_keeps
    | with_reducible apply State.evt_keeps
    | split

theorem execPfWarn_keeps {s0 : State} (mv10 : BitVec 16) (s : State) (h : Keeps s0 s) :
    KeepsA s0 (execPfWarn mv10 s) := by
  unfold execPfWarn
  repeat' first
    | with_reducible assumption
    | (extract_lets +onlyGivenNames x; have hx : Keeps s0 (by with_reducible apply x) := ?_; clear_value x; revert x; intro _ _; rotate_left; subst x)
    | with_reducible apply KeepsA.next
    | with_reducible apply KeepsA.ite
    | with_reducible apply State.abandonUpdate_keeps
    | with_reducible apply State.abandonStore_keeps
    | with_reducible apply State.writeMarker_keeps
    | with_reducible apply State.evt_keeps
    | with_reducible apply State.put_keeps

theorem State.flushRecords_keeps {s0 : State} (s : State) (h : Keeps s0 s) :
    Keeps s0 (State.flushRecords s) := by
  unfold State.flushRecords
  repeat' first
    | with_reducible assumption
    | (extract_lets +onlyGivenNames x; clear_value x; revert x; intro _)
    | with_reducible apply State.writeAllRecords_keeps
    | with_reducible apply State.done_keeps
    | with_reducible apply State.put_keeps

theorem execPfClear_keeps {s0 : State} (mv10 : BitVec 16) (s : State) (h : Keeps s0 s) :
    KeepsA s0 (execPfClear mv10 s) := by
  unfold execPfClear
  repeat' first
    | with_reducible assumption
    | (extract_lets +onlyGivenNames x; have hx : Keeps s0 (by with_reducible apply x) := ?_; clear_value x; revert x; intro _ _; rotate_left; subst x)
    | with_reducible apply KeepsA.next
    | with_reducible apply KeepsA.ite
    | with_reducible apply Keeps.ite
    | with_reducible apply State.flushRecords_keeps
    | with_reducible apply State.fwuResumed_keeps
    | with_reducible apply State.startStore_keeps
    | with_reducible apply State.wakeBy_keeps
    | with_reducible apply State.proofResumed_keeps
    | with_reducible apply State.evt_keeps
    | with_reducible apply State.put_keeps
    | split

theorem execPowerOff_keeps {s0 : State} (s : State) (h : Keeps s0 s) :
    KeepsA s0 (execPowerOff s) := by
  unfold execPowerOff
  repeat' first
    | with_reducible assumption
    | with_reducible apply KeepsA.next
    | with_reducible apply Keeps.ite
    | with_reducible apply State.allOff_keeps
    | with_reducible apply State.unpowered_keeps
    | with_reducible apply State.ageRecords_keeps

theorem State.beginTrim_keeps {s0 : State} (s : State) (h : Keeps s0 s) :
    Keeps s0 (State.beginTrim s) := by
  unfold State.beginTrim
  repeat' first
    | with_reducible assumption
    | with_reducible apply State.returnQueued_keeps
    | with_reducible apply State.put_keeps

theorem State.beginRun_keeps {s0 : State} (s : State) (h : Keeps s0 s) :
    Keeps s0 (State.beginRun s) := by
  unfold State.beginRun
  repeat' first
    | with_reducible assumption
    | with_reducible apply State.leaveTrim_keeps
    | with_reducible apply State.put_keeps

theorem execEnterRun_keeps {s0 : State} (m : Master) (tag : BitVec 8) (s : State) (h : Keeps s0 s) :
    KeepsA s0 (execEnterRun m tag s) := by
  unfold execEnterRun
  repeat' first
    | with_reducible assumption
    | intro _
    | with_reducible apply KeepsA.next
    | with_reducible apply Keeps.ite
    | with_reducible apply State.beginRun_keeps
    | with_reducible apply State.onCommand_keeps
    | with_reducible apply State.startRun_keeps
    | with_reducible apply State.done_keeps

theorem execEnterTrim_keeps {s0 : State} (m : Master) (tag : BitVec 8) (s : State) (h : Keeps s0 s) :
    KeepsA s0 (execEnterTrim m tag s) := by
  unfold execEnterTrim
  repeat' first
    | with_reducible assumption
    | intro _
    | with_reducible apply KeepsA.next
    | with_reducible apply Keeps.ite
    | with_reducible apply State.beginTrim_keeps
    | with_reducible apply State.onCommand_keeps
    | with_reducible apply State.startRun_keeps
    | with_reducible apply State.done_keeps

theorem execEnterHold_keeps {s0 : State} (m : Master) (tag : BitVec 8) (s : State) (h : Keeps s0 s) :
    KeepsA s0 (execEnterHold m tag s) := by
  unfold execEnterHold
  repeat' first
    | with_reducible assumption
    | intro _
    | (extract_lets +onlyGivenNames x; have hx : Keeps s0 (by with_reducible apply x) := ?_; clear_value x; revert x; intro _ _; rotate_left; subst x)
    | with_reducible apply KeepsA.next
    | with_reducible apply Keeps.ite
    | with_reducible apply State.onCommand_keeps
    | with_reducible apply State.startRun_keeps
    | with_reducible apply State.done_keeps
    | with_reducible apply State.put_keeps
    | simp -zeta only [Keeps.mk_iff]

theorem execResetDevice_keeps {s0 : State} (xm : Master) (tag : BitVec 8) (s : State) (h : Keeps s0 s) :
    KeepsA s0 (execResetDevice xm tag s) := by
  unfold execResetDevice
  repeat' first
    | with_reducible assumption
    | intro _
    | (extract_lets +onlyGivenNames x; have hx : Keeps s0 (by with_reducible apply x) := ?_; clear_value x; revert x; intro _ _; rotate_left; subst x)
    | (extract_lets +onlyGivenNames x; clear_value x; revert x; intro _)
    | with_reducible apply KeepsA.next
    | with_reducible apply Keeps.ite
    | with_reducible apply State.restart_keeps
    | with_reducible apply State.onCommand_keeps
    | with_reducible apply State.done_keeps

theorem execAutoTrim_keeps {s0 : State} (mv10 : BitVec 16) (s : State) (h : Keeps s0 s) :
    KeepsA s0 (execAutoTrim mv10 s) := by
  unfold execAutoTrim
  repeat' first
    | with_reducible assumption
    | (extract_lets +onlyGivenNames x; clear_value x; revert x; intro _)
    | with_reducible apply KeepsA.next
    | with_reducible apply KeepsA.ite
    | with_reducible apply State.beginTrim_keeps
    | with_reducible apply State.evt_keeps
    | with_reducible apply State.put_keeps

theorem execAutoRun_keeps {s0 : State} (mv10 : BitVec 16) (s : State) (h : Keeps s0 s) :
    KeepsA s0 (execAutoRun mv10 s) := by
  unfold execAutoRun
  repeat' first
    | with_reducible assumption
    | (extract_lets +onlyGivenNames x; clear_value x; revert x; intro _)
    | with_reducible apply KeepsA.next
    | with_reducible apply KeepsA.ite
    | with_reducible apply State.beginRun_keeps
    | with_reducible apply State.put_keeps

theorem State.finishHold_keeps {s0 : State} (s : State) (h : Keeps s0 s) :
    Keeps s0 (State.finishHold s) := by
  unfold State.finishHold
  repeat' first
    | with_reducible assumption
    | (extract_lets +onlyGivenNames x; have hx : Keeps s0 (by with_reducible apply x) := ?_; clear_value x; revert x; intro _ _; rotate_left; subst x)
    | with_reducible apply State.writeMarker_keeps
    | with_reducible apply State.writeAllRecords_keeps
    | with_reducible apply State.wakeBy_keeps
    | with_reducible apply State.loseVolatile_keeps
    | with_reducible apply State.nextSteps_keeps
    | with_reducible apply State.put_keeps
    | simp -zeta only [Keeps.mk_iff]
    | split

theorem State.stateDone_keeps {s0 : State} (s : State) (h : Keeps s0 s) :
    Keeps s0 (State.stateDone s) := by
  unfold State.stateDone
  repeat' first
    | with_reducible assumption
    | (extract_lets +onlyGivenNames x; have hx : Keeps s0 (by with_reducible apply x) := ?_; clear_value x; revert x; intro _ _; rotate_left; subst x)
    | with_reducible apply Keeps.ite
    | with_reducible apply State.done_keeps
    | with_reducible apply State.evt_keeps

theorem execPowerStateDone_keeps {s0 : State} (s : State) (h : Keeps s0 s) :
    KeepsA s0 (execPowerStateDone s) := by
  unfold execPowerStateDone
  repeat' first
    | with_reducible assumption
    | with_reducible apply KeepsA.next
    | with_reducible apply KeepsA.ite
    | with_reducible apply State.stateDone_keeps
    | with_reducible apply State.finishHold_keeps
    | with_reducible apply State.enterTrim_keeps
    | with_reducible apply State.nextSteps_keeps
    | with_reducible apply State.put_keeps

theorem execHoldWake_keeps {s0 : State} (src : Fin 4) (s : State) (h : Keeps s0 s) :
    KeepsA s0 (execHoldWake src s) := by
  unfold execHoldWake
  repeat' first
    | with_reducible assumption
    | with_reducible apply KeepsA.next
    | with_reducible apply KeepsA.ite
    | with_reducible apply State.wakeBy_keeps

theorem execPinReset_keeps {s0 : State} (lowNs : Nat) (s : State) (h : Keeps s0 s) :
    KeepsA s0 (execPinReset lowNs s) := by
  unfold execPinReset
  repeat' first
    | with_reducible assumption
    | with_reducible apply KeepsA.next
    | with_reducible apply KeepsA.ite
    | with_reducible apply Keeps.ite
    | with_reducible apply State.restart_keeps
    | with_reducible apply State.draw_keeps

theorem execSoftwareReset_keeps {s0 : State} (s : State) (h : Keeps s0 s) :
    KeepsA s0 (execSoftwareReset s) := by
  unfold execSoftwareReset
  repeat' first
    | with_reducible assumption
    | with_reducible apply KeepsA.next
    | with_reducible apply Keeps.ite
    | with_reducible apply State.restart_keeps
    | split

theorem execRetStoreDone_keeps {s0 : State} (s : State) (h : Keeps s0 s) :
    KeepsA s0 (execRetStoreDone s) := by
  unfold execRetStoreDone
  repeat' first
    | with_reducible assumption
    | (extract_lets +onlyGivenNames x; have hx : Keeps s0 (by with_reducible apply x) := ?_; clear_value x; revert x; intro _ _; rotate_left; subst x)
    | (extract_lets +onlyGivenNames x; clear_value x; revert x; intro _)
    | with_reducible apply KeepsA.next
    | with_reducible apply KeepsA.ite
    | with_reducible apply Keeps.ite
    | with_reducible apply State.startStore_keeps
    | with_reducible apply State.evt_keeps
    | with_reducible apply State.put_keeps
    | simp -zeta only [Keeps.mk_iff]
    | split

theorem execCkptRecordWrite_keeps {s0 : State} (h0 : BitVec 19) (s : State) (h : Keeps s0 s) :
    KeepsA s0 (execCkptRecordWrite h0 s) := by
  unfold execCkptRecordWrite
  repeat' first
    | with_reducible assumption
    | with_reducible apply KeepsA.next
    | with_reducible apply Keeps.ite
    | with_reducible apply State.writeRecord_keeps
    | with_reducible apply State.writeBroadcast_keeps

theorem execCkptFlush_keeps {s0 : State} (m : Master) (tag : BitVec 8) (s : State) (h : Keeps s0 s) :
    KeepsA s0 (execCkptFlush m tag s) := by
  unfold execCkptFlush
  repeat' first
    | with_reducible assumption
    | intro _
    | with_reducible apply KeepsA.next
    | with_reducible apply Keeps.ite
    | with_reducible apply State.flushRecords_keeps
    | with_reducible apply State.onCommand_keeps
    | with_reducible apply State.startRun_keeps

theorem execEraseStore_keeps {s0 : State} (xm : Master) (tag : BitVec 8) (s : State) (h : Keeps s0 s) :
    KeepsA s0 (execEraseStore xm tag s) := by
  unfold execEraseStore
  repeat' first
    | with_reducible assumption
    | intro _
    | (extract_lets +onlyGivenNames x; clear_value x; revert x; intro _)
    | with_reducible apply KeepsA.next
    | with_reducible apply Keeps.ite
    | with_reducible apply State.onCommand_keeps
    | with_reducible apply State.done_keeps
    | simp -zeta only [Keeps.mk_iff]

theorem execDriftRestoreItem_keeps {s0 : State} (h0 : BitVec 18) (s : State) (h : Keeps s0 s) :
    KeepsA s0 (execDriftRestoreItem h0 s) := by
  unfold execDriftRestoreItem
  repeat' first
    | with_reducible assumption
    | (extract_lets +onlyGivenNames x; have hx : Keeps s0 (by with_reducible apply x) := ?_; clear_value x; revert x; intro _ _; rotate_left; subst x)
    | (extract_lets +onlyGivenNames x; clear_value x; revert x; intro _)
    | with_reducible apply KeepsA.next
    | with_reducible apply Keeps.ite
    | with_reducible apply State.restoredUnc_keeps
    | with_reducible apply State.restorePump_keeps
    | with_reducible apply State.setNode_keeps
    | with_reducible apply State.finishItem_keeps
    | simp -zeta only [Keeps.mk_iff]
    | split

theorem execSecuredWaitExit_keeps {s0 : State} (p : Fin 10) (s : State) (h : Keeps s0 s) :
    KeepsA s0 (execSecuredWaitExit p s) := by
  unfold execSecuredWaitExit
  repeat' first
    | with_reducible assumption
    | with_reducible apply KeepsA.next
    | with_reducible apply KeepsA.ite
    | with_reducible apply State.put_keeps

end Sys2Proof.Machine
end

