-- ==== Sys2Proof/Laws/KeepsPages.lean ====
section
/-! SUPPORT. The operations of Machine/Pages.lean break nothing (`Keeps`). -/

set_option linter.unusedSimpArgs false

namespace Sys2Proof.Machine

theorem execEvtClear_keeps {s0 : State} (m : Master) (b : Block) (v : BitVec 32) (hw : BitVec 32) (s : State) (h : Keeps s0 s) :
    KeepsA s0 (execEvtClear m b v hw s) := by
  unfold execEvtClear
  repeat' first
    | with_reducible assumption
    | (extract_lets +onlyGivenNames x; have hx : Keeps s0 (by with_reducible apply x) := ?_; clear_value x; revert x; intro _ _; rotate_left; subst x)
    | (extract_lets +onlyGivenNames x; clear_value x; revert x; intro _)
    | with_reducible apply KeepsA.next
    | with_reducible apply Keeps.ite
    | with_reducible apply State.busWrite_keeps
    | with_reducible apply State.evts_keeps
    | with_reducible apply State.msi_keeps
    | with_reducible apply State.setWord_keeps
    | split
    | with_reducible refine Keeps.of_pair (by assumption) ?_

theorem execEvtForce_keeps {s0 : State} (m : Master) (b : Block) (v : BitVec 32) (s : State) (h : Keeps s0 s) :
    KeepsA s0 (execEvtForce m b v s) := by
  unfold execEvtForce
  repeat' first
    | with_reducible assumption
    | with_reducible apply KeepsA.next
    | with_reducible apply State.busWrite_keeps
    | with_reducible apply State.evts_keeps
    | split
    | with_reducible refine Keeps.of_pair (by assumption) ?_

theorem execEvtCntClear_keeps {s0 : State} (m : Master) (b : Block) (k : Fin 8) (v : BitVec 32) (hw : BitVec 4) (s : State) (h : Keeps s0 s) :
    KeepsA s0 (execEvtCntClear m b k v hw s) := by
  unfold execEvtCntClear
  repeat' first
    | with_reducible assumption
    | intro _
    | (extract_lets +onlyGivenNames x; have hx : Keeps s0 (by with_reducible apply x) := ?_; clear_value x; revert x; intro _ _; rotate_left; subst x)
    | (extract_lets +onlyGivenNames x; clear_value x; revert x; intro _)
    | with_reducible apply KeepsA.next
    | with_reducible apply Keeps.ite
    | with_reducible apply State.busWrite_keeps
    | with_reducible apply State.evts_keeps
    | with_reducible apply State.put_keeps
    | with_reducible apply Keeps.foldl
    | split
    | with_reducible refine Keeps.of_pair (by assumption) ?_

theorem execRefusedClr_keeps {s0 : State} (m : Master) (b : Block) (s : State) (h : Keeps s0 s) :
    KeepsA s0 (execRefusedClr m b s) := by
  unfold execRefusedClr
  repeat' first
    | with_reducible assumption
    | with_reducible apply KeepsA.next
    | with_reducible apply State.busWrite_keeps
    | with_reducible apply State.put_keeps
    | split
    | with_reducible refine Keeps.of_pair (by assumption) ?_

theorem execPartAck_keeps {s0 : State} (m : Master) (b : Block) (chunk : BitVec 16) (s : State) (h : Keeps s0 s) :
    KeepsA s0 (execPartAck m b chunk s) := by
  unfold execPartAck
  repeat' first
    | with_reducible assumption
    | intro _
    | with_reducible apply KeepsA.next
    | with_reducible apply Keeps.ite
    | with_reducible apply State.goOn_keeps
    | with_reducible apply State.onPage_keeps
    | with_reducible apply State.setBlk_keeps
    | simp -zeta only [Keeps.mk_iff]
    | split

theorem execPartWaitTimeout_keeps {s0 : State} (b : Block) (s : State) (h : Keeps s0 s) :
    KeepsA s0 (execPartWaitTimeout b s) := by
  unfold execPartWaitTimeout
  repeat' first
    | with_reducible assumption
    | with_reducible apply KeepsA.next
    | with_reducible apply Keeps.ite
    | with_reducible apply State.endRunning_keeps

theorem execCommandTimeout_keeps {s0 : State} (b : Block) (ch : Fin 24) (s : State) (h : Keeps s0 s) :
    KeepsA s0 (execCommandTimeout b ch s) := by
  unfold execCommandTimeout
  repeat' first
    | with_reducible assumption
    | with_reducible apply KeepsA.next
    | with_reducible apply KeepsA.ite
    | with_reducible apply Keeps.ite
    | with_reducible apply State.endRunning_keeps
    | with_reducible apply State.crcAbort_keeps
    | with_reducible apply State.draw_keeps

theorem execAbort_keeps {s0 : State} (xm : Master) (b : Block) (tag : BitVec 8) (s : State) (h : Keeps s0 s) :
    KeepsA s0 (execAbort xm b tag s) := by
  unfold execAbort
  repeat' first
    | with_reducible assumption
    | intro _
    | with_reducible apply KeepsA.next
    | with_reducible apply Keeps.ite
    | with_reducible apply State.endRunning_keeps
    | with_reducible apply State.discardStaged_keeps
    | with_reducible apply State.onCommon_keeps
    | with_reducible apply State.done_keeps

theorem execCfgStageWrite_keeps {s0 : State} (m : Master) (b : Block) (v : BitVec 32) (s : State) (h : Keeps s0 s) :
    KeepsA s0 (execCfgStageWrite m b v s) := by
  unfold execCfgStageWrite
  repeat' first
    | with_reducible assumption
    | with_reducible apply KeepsA.next
    | with_reducible apply State.busWrite_keeps

theorem State.deviceCommit_keeps {s0 : State} (s : State) (m : Master) (tag : BitVec 8) (h : Keeps s0 s) :
    Keeps s0 (State.deviceCommit s m tag) := by
  unfold State.deviceCommit
  repeat' first
    | with_reducible assumption
    | intro _
    | (extract_lets +onlyGivenNames x; have hx : Keeps s0 (by with_reducible apply x) := ?_; clear_value x; revert x; intro _ _; rotate_left; subst x)
    | (extract_lets +onlyGivenNames x; clear_value x; revert x; intro _)
    | with_reducible apply State.nextSteps_keeps
    | with_reducible apply State.latch_keeps
    | with_reducible apply State.onCommon_keeps
    | with_reducible apply State.startRun_keeps
    | with_reducible apply State.setBlk_keeps
    | with_reducible apply Keeps.foldl
    | simp -zeta only [Keeps.mk_iff]

theorem execDeviceCommit_keeps {s0 : State} (m : Master) (tag : BitVec 8) (s : State) (h : Keeps s0 s) :
    KeepsA s0 (execDeviceCommit m tag s) := by
  unfold execDeviceCommit
  repeat' first
    | with_reducible assumption
    | with_reducible apply KeepsA.next
    | with_reducible apply State.deviceCommit_keeps

theorem State.latchOwn_keeps {s0 : State} (s : State) (b : Block) (h : Keeps s0 s) :
    Keeps s0 (State.latchOwn s b) := by
  unfold State.latchOwn
  repeat' first
    | with_reducible assumption
    | (extract_lets +onlyGivenNames x; clear_value x; revert x; intro _)
    | with_reducible apply State.latch_keeps

theorem execCommit_keeps {s0 : State} (m : Master) (b : Block) (tag : BitVec 8) (s : State) (h : Keeps s0 s) :
    KeepsA s0 (execCommit m b tag s) := by
  unfold execCommit
  repeat' first
    | with_reducible assumption
    | intro _
    | (extract_lets +onlyGivenNames x; have hx : Keeps s0 (by with_reducible apply x) := ?_; clear_value x; revert x; intro _ _; rotate_left; subst x)
    | with_reducible apply KeepsA.next
    | with_reducible apply Keeps.ite
    | with_reducible apply State.latchOwn_keeps
    | with_reducible apply State.deviceCommit_keeps
    | with_reducible apply State.deferSet_keeps
    | with_reducible apply State.applySet_keeps
    | with_reducible apply State.onCommon_keeps
    | with_reducible apply State.startRun_keeps
    | with_reducible apply State.done_keeps
    | with_reducible apply State.setBlk_keeps
    | simp -zeta only [Keeps.mk_iff]

theorem State.applyAndEnd_keeps {s0 : State} (s : State) (b : Block) (h : Keeps s0 s) :
    Keeps s0 (State.applyAndEnd s b) := by
  unfold State.applyAndEnd
  repeat' first
    | with_reducible assumption
    | (extract_lets +onlyGivenNames x; have hx : Keeps s0 (by with_reducible apply x) := ?_; clear_value x; revert x; intro _ _; rotate_left; subst x)
    | with_reducible apply Keeps.ite
    | with_reducible apply State.applySet_keeps
    | with_reducible apply State.done_keeps

theorem State.applyStep_keeps {s0 : State} (s : State) (b : Block) (c : DevCommit) (h : Keeps s0 s) :
    Keeps s0 (State.applyStep s b c) := by
  unfold State.applyStep
  repeat' first
    | with_reducible assumption
    | with_reducible apply Keeps.ite
    | with_reducible apply State.applyAndEnd_keeps
    | with_reducible apply State.nextSteps_keeps
    | with_reducible apply State.applyRx_keeps
    | simp -zeta only [Keeps.mk_iff]

theorem execCommitApply_keeps {s0 : State} (b : Block) (s : State) (h : Keeps s0 s) :
    KeepsA s0 (execCommitApply b s) := by
  unfold execCommitApply
  repeat' first
    | with_reducible assumption
    | (extract_lets +onlyGivenNames x; have hx : Keeps s0 (by with_reducible apply x) := ?_; clear_value x; revert x; intro _ _; rotate_left; subst x)
    | with_reducible apply KeepsA.next
    | with_reducible apply Keeps.ite
    | with_reducible apply State.applyStep_keeps
    | with_reducible apply State.applyAndEnd_keeps
    | with_reducible apply State.nextSteps_keeps
    | split

theorem execDeviceCommitDone_keeps {s0 : State} (s : State) (h : Keeps s0 s) :
    KeepsA s0 (execDeviceCommitDone s) := by
  unfold execDeviceCommitDone
  repeat' first
    | with_reducible assumption
    | (extract_lets +onlyGivenNames x; have hx : Keeps s0 (by with_reducible apply x) := ?_; clear_value x; revert x; intro _ _; rotate_left; subst x)
    | (extract_lets +onlyGivenNames x; clear_value x; revert x; intro _)
    | with_reducible apply KeepsA.next
    | with_reducible apply Keeps.ite
    | with_reducible apply State.askStore_keeps
    | with_reducible apply State.nextSteps_keeps
    | with_reducible apply State.complete_keeps
    | simp -zeta only [Keeps.mk_iff]
    | split

theorem execLedgerSnapshot_keeps {s0 : State} (xm : Master) (b : Block) (tag : BitVec 8) (s : State) (h : Keeps s0 s) :
    KeepsA s0 (execLedgerSnapshot xm b tag s) := by
  unfold execLedgerSnapshot
  repeat' first
    | with_reducible assumption
    | intro _
    | with_reducible apply KeepsA.next
    | with_reducible apply State.snapshot_keeps
    | with_reducible apply State.onCommon_keeps
    | with_reducible apply State.done_keeps

theorem execNop_keeps {s0 : State} (xm : Master) (b : Block) (tag : BitVec 8) (s : State) (h : Keeps s0 s) :
    KeepsA s0 (execNop xm b tag s) := by
  unfold execNop
  repeat' first
    | with_reducible assumption
    | intro _
    | with_reducible apply KeepsA.next
    | with_reducible apply State.onCommon_keeps
    | with_reducible apply State.done_keeps

theorem State.unknownCmd_keeps {s0 : State} (s : State) (m : Master) (b : Block) (op : Nat) (tag : BitVec 8) (h : Keeps s0 s) :
    Keeps s0 (State.unknownCmd s m b op tag) := by
  unfold State.unknownCmd
  repeat' first
    | with_reducible assumption
    | intro _
    | with_reducible apply State.onCommon_keeps
    | with_reducible apply State.done_keeps

end Sys2Proof.Machine
end

