-- ==== Sys2Proof/Laws/KeepsTimeBase.lean ====
section
/-! SUPPORT. The operations of Machine/TimeBase.lean break nothing (`Keeps`). -/

set_option linter.unusedSimpArgs false

namespace Sys2Proof.Machine

theorem execTbLatch_keeps {s0 : State} (m : Master) (s : State) (h : Keeps s0 s) :
    KeepsA s0 (execTbLatch m s) := by
  unfold execTbLatch
  repeat' first
    | with_reducible assumption
    | intro _
    | (extract_lets +onlyGivenNames x; have hx : ∀ y y0 y1, Keeps s0 y → Keeps s0 (by with_reducible exact x y y0 y1) := ?_; clear_value x; revert x; intro _ hf2; rotate_left; subst x; dsimp -zeta only)
    | with_reducible apply hf2
    | (extract_lets +onlyGivenNames x; have hx : Keeps s0 (by with_reducible apply x) := ?_; clear_value x; revert x; intro _ _; rotate_left; subst x)
    | (extract_lets +onlyGivenNames x; clear_value x; revert x; intro _)
    | with_reducible apply KeepsA.next
    | with_reducible apply KeepsA.ite
    | with_reducible apply State.offWrite_keeps
    | with_reducible apply State.put_keeps

theorem execSourceQualified_keeps {s0 : State} (src : Fin 3) (s : State) (h : Keeps s0 s) :
    KeepsA s0 (execSourceQualified src s) := by
  unfold execSourceQualified
  repeat' first
    | with_reducible assumption
    | with_reducible apply KeepsA.next
    | with_reducible apply KeepsA.ite
    | with_reducible apply State.tbEval_keeps
    | with_reducible apply State.advanceTo_keeps
    | split

theorem execTbSrcSetWrite_keeps {s0 : State} (m : Master) (v : BitVec 32) (s : State) (h : Keeps s0 s) :
    KeepsA s0 (execTbSrcSetWrite m v s) := by
  unfold execTbSrcSetWrite
  repeat' first
    | with_reducible assumption
    | (extract_lets +onlyGivenNames x; have hx : Keeps s0 (by with_reducible apply x) := ?_; clear_value x; revert x; intro _ _; rotate_left; subst x)
    | (extract_lets +onlyGivenNames x; clear_value x; revert x; intro _)
    | with_reducible apply KeepsA.next
    | with_reducible apply Keeps.ite
    | with_reducible apply State.startRestore_keeps
    | with_reducible apply State.tbEval_keeps
    | with_reducible apply State.setOk_keeps
    | with_reducible apply State.stratumNow_keeps
    | with_reducible apply State.busWrite_keeps
    | with_reducible apply State.put_keeps
    | split
    | with_reducible refine Keeps.of_pair (by assumption) ?_

theorem execTbRateWrite_keeps {s0 : State} (m : Master) (v : BitVec 32) (s : State) (h : Keeps s0 s) :
    KeepsA s0 (execTbRateWrite m v s) := by
  unfold execTbRateWrite
  repeat' first
    | with_reducible assumption
    | with_reducible apply KeepsA.next
    | with_reducible apply State.busWrite_keeps
    | with_reducible apply State.passBfifo_keeps
    | split
    | with_reducible refine Keeps.of_pair (by assumption) ?_

theorem execServoTimeout_keeps {s0 : State} (s : State) (h : Keeps s0 s) :
    KeepsA s0 (execServoTimeout s) := by
  unfold execServoTimeout
  repeat' first
    | with_reducible assumption
    | with_reducible apply KeepsA.next
    | with_reducible apply Keeps.ite
    | with_reducible apply State.enterHoldover_keeps
    | with_reducible apply State.evt_keeps

theorem State.pushStamp_keeps {s0 : State} (s : State) (l : List Stamp) (cap : Nat) (xx : Stamp) (set : State → List Stamp → State) (lost : Fld) (b : Block) (bit : Nat) (h : Keeps s0 s) (h_set : ∀ x y0, Keeps s0 x → Keeps s0 (set x y0)) :
    Keeps s0 (State.pushStamp s l cap xx set lost b bit) := by
  unfold State.pushStamp
  repeat' first
    | with_reducible assumption
    | with_reducible apply Keeps.ite
    | with_reducible apply State.passBfifo_keeps
    | with_reducible apply State.evt_keeps
    | with_reducible apply State.bumpSat_keeps
    | with_reducible apply h_set

theorem execPpsInput_keeps {s0 : State} (tenm : Option (BitVec 32)) (s : State) (h : Keeps s0 s) :
    KeepsA s0 (execPpsInput tenm s) := by
  unfold execPpsInput
  repeat' first
    | with_reducible assumption
    | intro _
    | (extract_lets +onlyGivenNames x; have hx : Keeps s0 (by with_reducible apply x) := ?_; clear_value x; revert x; intro _ _; rotate_left; subst x)
    | (extract_lets +onlyGivenNames x; clear_value x; revert x; intro _)
    | with_reducible apply KeepsA.next
    | with_reducible apply KeepsA.ite
    | with_reducible apply State.pushStamp_keeps
    | with_reducible apply State.tbEval_keeps
    | with_reducible apply State.judgeGnss_keeps
    | with_reducible apply State.put_keeps
    | simp -zeta only [Keeps.mk_iff]

theorem execGnssPpsMissing_keeps {s0 : State} (tenm : Bool) (s : State) (h : Keeps s0 s) :
    KeepsA s0 (execGnssPpsMissing tenm s) := by
  unfold execGnssPpsMissing
  repeat' first
    | with_reducible assumption
    | (extract_lets +onlyGivenNames x; clear_value x; revert x; intro _)
    | with_reducible apply KeepsA.next
    | with_reducible apply Keeps.ite
    | with_reducible apply State.tbEval_keeps
    | with_reducible apply State.judgeGnss_keeps
    | simp -zeta only [Keeps.mk_iff]

theorem execRefLost_keeps {s0 : State} (s : State) (h : Keeps s0 s) :
    KeepsA s0 (execRefLost s) := by
  unfold execRefLost
  repeat' first
    | with_reducible assumption
    | intro _
    | (extract_lets +onlyGivenNames x; have hx : Keeps s0 (by with_reducible apply x) := ?_; clear_value x; revert x; intro _ _; rotate_left; subst x)
    | (extract_lets +onlyGivenNames x; clear_value x; revert x; intro _)
    | with_reducible apply KeepsA.next
    | with_reducible apply KeepsA.ite
    | with_reducible apply State.enterHoldover_keeps
    | with_reducible apply State.toOff_keeps
    | with_reducible apply State.evt_keeps
    | with_reducible apply State.put_keeps
    | with_reducible apply Keeps.foldl
    | simp -zeta only [Keeps.mk_iff]

theorem execRefBack_keeps {s0 : State} (s : State) (h : Keeps s0 s) :
    KeepsA s0 (execRefBack s) := by
  unfold execRefBack
  repeat' first
    | with_reducible assumption
    | intro _
    | (extract_lets +onlyGivenNames x; have hx : Keeps s0 (by with_reducible apply x) := ?_; clear_value x; revert x; intro _ _; rotate_left; subst x)
    | with_reducible apply KeepsA.next
    | with_reducible apply KeepsA.ite
    | with_reducible apply State.tbEval_keeps
    | with_reducible apply State.chainStart_keeps
    | with_reducible apply State.evt_keeps
    | with_reducible apply State.put_keeps
    | with_reducible apply Keeps.foldl

theorem State.trigAct_keeps {s0 : State} (s : State) (n : Nat) (h : Keeps s0 s) :
    Keeps s0 (State.trigAct s n) := by
  unfold State.trigAct
  extract_lets sel param inDomain radio
  have hd : ∀ d f, (∀ x, Keeps s0 x → Keeps s0 (f x)) → Keeps s0 (inDomain d f) := fun d f hf => by
    show Keeps s0 (if s.pdOn d then f s else _)
    split
    · exact hf _ h
    · exact State.bumpSat_keeps _ _ _ h
  clear_value inDomain
  repeat' first
    | with_reducible apply hd
    | with_reducible assumption
    | intro _
    | with_reducible apply State.closeLine_keeps
    | with_reducible apply State.releaseTrig_keeps
    | with_reducible apply State.captureTrigger_keeps
    | with_reducible apply State.msi_keeps
    | with_reducible apply State.putB_keeps
    | simp -zeta only [Keeps.mk_iff]
    | split

theorem State.trigNext_keeps {s0 : State} (s : State) (n : Nat) (b : Nat) (h : Keeps s0 s) :
    Keeps s0 (State.trigNext s n b) := by
  unfold State.trigNext
  repeat' first
    | with_reducible assumption
    | (extract_lets +onlyGivenNames x; have hx : Keeps s0 (by with_reducible apply x) := ?_; clear_value x; revert x; intro _ _; rotate_left; subst x)
    | (extract_lets +onlyGivenNames x; clear_value x; revert x; intro _)
    | with_reducible apply Keeps.ite
    | with_reducible apply State.evt_keeps
    | with_reducible apply State.bumpSat_keeps
    | with_reducible apply State.put_keeps
    | simp -zeta only [Keeps.mk_iff]

theorem State.fireTrig_keeps {s0 : State} (s : State) (n : Nat) (b : Nat) (h : Keeps s0 s) :
    Keeps s0 (State.fireTrig s n b) := by
  unfold State.fireTrig
  repeat' first
    | with_reducible assumption
    | intro _
    | (extract_lets +onlyGivenNames x; have hx : Keeps s0 (by with_reducible apply x) := ?_; clear_value x; revert x; intro _ _; rotate_left; subst x)
    | (extract_lets +onlyGivenNames x; clear_value x; revert x; intro _)
    | with_reducible apply Keeps.ite
    | with_reducible apply State.trigNext_keeps
    | with_reducible apply State.trigAct_keeps
    | with_reducible apply State.pushStamp_keeps
    | with_reducible apply State.wakeBy_keeps
    | with_reducible apply State.evt_keeps
    | with_reducible apply State.bump_keeps
    | with_reducible apply State.put_keeps
    | simp -zeta only [Keeps.mk_iff]

theorem execTriggerFire_keeps {s0 : State} (ch : Fin 16) (s : State) (h : Keeps s0 s) :
    KeepsA s0 (execTriggerFire ch s) := by
  unfold execTriggerFire
  repeat' first
    | with_reducible assumption
    | (extract_lets +onlyGivenNames x; have hx : Keeps s0 (by with_reducible apply x) := ?_; clear_value x; revert x; intro _ _; rotate_left; subst x)
    | (extract_lets +onlyGivenNames x; clear_value x; revert x; intro _)
    | with_reducible apply KeepsA.next
    | with_reducible apply KeepsA.ite
    | with_reducible apply Keeps.ite
    | with_reducible apply State.fireTrig_keeps
    | with_reducible apply State.advanceTo_keeps

theorem State.fireDue_keeps {s0 : State} (s : State) (m : Master) (n : Nat) (v : W32) (h : Keeps s0 s) :
    Keeps s0 (State.fireDue s m n v) := by
  unfold State.fireDue
  repeat' first
    | with_reducible assumption
    | with_reducible apply Keeps.ite
    | with_reducible apply State.fireTrig_keeps

theorem execTrigCtlWrite_keeps {s0 : State} (m : Master) (ch : Fin 16) (v : BitVec 32) (s : State) (h : Keeps s0 s) :
    KeepsA s0 (execTrigCtlWrite m ch v s) := by
  unfold execTrigCtlWrite
  repeat' first
    | with_reducible assumption
    | (extract_lets +onlyGivenNames x; have hx : Keeps s0 (by with_reducible apply x) := ?_; clear_value x; revert x; intro _ _; rotate_left; subst x)
    | (extract_lets +onlyGivenNames x; clear_value x; revert x; intro _)
    | with_reducible apply KeepsA.next
    | with_reducible apply KeepsA.ite
    | with_reducible apply State.fireDue_keeps
    | with_reducible apply State.fireTrig_keeps
    | with_reducible apply State.busWrite_keeps
    | with_reducible apply State.evtIf_keeps
    | with_reducible apply State.evt_keeps
    | simp -zeta only [Keeps.mk_iff]
    | split
    | with_reducible refine Keeps.of_pair (by assumption) ?_

theorem execTriggerPulseEnd_keeps {s0 : State} (ch : Fin 16) (s : State) (h : Keeps s0 s) :
    KeepsA s0 (execTriggerPulseEnd ch s) := by
  unfold execTriggerPulseEnd
  repeat' first
    | with_reducible assumption
    | (extract_lets +onlyGivenNames x; clear_value x; revert x; intro _)
    | with_reducible apply KeepsA.next
    | simp -zeta only [Keeps.mk_iff]

theorem State.trigStepped_keeps {s0 : State} (s : State) (old : Lin) (n : Nat) (h : Keeps s0 s) :
    Keeps s0 (State.trigStepped s old n) := by
  unfold State.trigStepped
  repeat' first
    | with_reducible assumption
    | (extract_lets +onlyGivenNames x; clear_value x; revert x; intro _)
    | with_reducible apply Keeps.ite
    | with_reducible apply State.fireTrig_keeps
    | with_reducible apply State.evt_keeps
    | with_reducible apply State.put_keeps

theorem State.shiftInstants_keeps {s0 : State} (s : State) (d : Lin) (h : Keeps s0 s) :
    Keeps s0 (State.shiftInstants s d) := by
  unfold State.shiftInstants
  repeat' first
    | with_reducible assumption
    | (extract_lets +onlyGivenNames x; have hx : FwuSt := (by with_reducible apply x); clear hx; subst x)
    | (extract_lets +onlyGivenNames x; clear_value x; revert x; intro _)
    | simp -zeta only [Keeps.mk_iff]

theorem State.stepTo_keeps {s0 : State} (s : State) (new : Lin) (kind : Nat) (h : Keeps s0 s) :
    Keeps s0 (State.stepTo s new kind) := by
  unfold State.stepTo
  repeat' first
    | with_reducible assumption
    | intro _
    | (extract_lets +onlyGivenNames x; have hx : Keeps s0 (by with_reducible apply x) := ?_; clear_value x; revert x; intro _ _; rotate_left; subst x)
    | (extract_lets +onlyGivenNames x; clear_value x; revert x; intro _)
    | with_reducible apply State.shiftInstants_keeps
    | with_reducible apply State.trigStepped_keeps
    | with_reducible apply State.logCorrection_keeps
    | with_reducible apply State.peelStepped_keeps
    | with_reducible apply State.passBfifo_keeps
    | with_reducible apply State.evt_keeps
    | with_reducible apply State.put64_keeps
    | with_reducible apply State.bump_keeps
    | with_reducible apply Keeps.foldl
    | simp -zeta only [Keeps.mk_iff]

theorem execSetTime_keeps {s0 : State} (xm : Master) (tag : BitVec 8) (s : State) (h : Keeps s0 s) :
    KeepsA s0 (execSetTime xm tag s) := by
  unfold execSetTime
  repeat' first
    | with_reducible assumption
    | intro _
    | (extract_lets +onlyGivenNames x; clear_value x; revert x; intro _)
    | with_reducible apply KeepsA.next
    | with_reducible apply Keeps.ite
    | with_reducible apply State.stepTo_keeps
    | with_reducible apply State.onCommand_keeps
    | with_reducible apply State.done_keeps

theorem execStep_keeps {s0 : State} (xm : Master) (tag : BitVec 8) (s : State) (h : Keeps s0 s) :
    KeepsA s0 (execStep xm tag s) := by
  unfold execStep
  repeat' first
    | with_reducible assumption
    | intro _
    | (extract_lets +onlyGivenNames x; clear_value x; revert x; intro _)
    | with_reducible apply KeepsA.next
    | with_reducible apply Keeps.ite
    | with_reducible apply State.stepTo_keeps
    | with_reducible apply State.onCommand_keeps
    | with_reducible apply State.done_keeps

theorem execSlew_keeps {s0 : State} (m : Master) (tag : BitVec 8) (s : State) (h : Keeps s0 s) :
    KeepsA s0 (execSlew m tag s) := by
  unfold execSlew
  repeat' first
    | with_reducible assumption
    | intro _
    | (extract_lets +onlyGivenNames x; have hx : Keeps s0 (by with_reducible apply x) := ?_; clear_value x; revert x; intro _ _; rotate_left; subst x)
    | (extract_lets +onlyGivenNames x; clear_value x; revert x; intro _)
    | with_reducible apply KeepsA.next
    | with_reducible apply Keeps.ite
    | with_reducible apply State.logCorrection_keeps
    | with_reducible apply State.onCommand_keeps
    | with_reducible apply State.startRun_keeps
    | with_reducible apply State.done_keeps
    | simp -zeta only [Keeps.mk_iff]

theorem execSlewComplete_keeps {s0 : State} (s : State) (h : Keeps s0 s) :
    KeepsA s0 (execSlewComplete s) := by
  unfold execSlewComplete
  repeat' first
    | with_reducible assumption
    | (extract_lets +onlyGivenNames x; clear_value x; revert x; intro _)
    | with_reducible apply KeepsA.next
    | with_reducible apply State.endSlew_keeps
    | simp -zeta only [Keeps.mk_iff]
    | split

theorem State.tickOnce_keeps {s0 : State} (s : State) (h : Keeps s0 s) :
    Keeps s0 (State.tickOnce s) := by
  unfold State.tickOnce
  repeat' first
    | with_reducible assumption
    | (extract_lets +onlyGivenNames x; have hx : Keeps s0 (by with_reducible apply x) := ?_; clear_value x; revert x; intro _ _; rotate_left; subst x)
    | (extract_lets +onlyGivenNames x; clear_value x; revert x; intro _)
    | with_reducible apply Keeps.ite
    | with_reducible apply State.endSlew_keeps
    | simp -zeta only [Keeps.mk_iff]
    | split

theorem State.idleTick_keeps {s0 : State} (s : State) (h : Keeps s0 s) :
    Keeps s0 (State.idleTick s) := by
  unfold State.idleTick
  repeat' first
    | with_reducible assumption
    | with_reducible apply Keeps.ite
    | with_reducible apply State.tickOnce_keeps
    | with_reducible apply State.ageRecords_keeps
    | with_reducible apply State.floodRun_keeps
    | with_reducible apply State.drainRx_keeps

theorem execTbPpsinPop_keeps {s0 : State} (xm : Master) (s : State) (h : Keeps s0 s) :
    KeepsA s0 (execTbPpsinPop xm s) := by
  unfold execTbPpsinPop
  repeat' first
    | with_reducible assumption
    | (extract_lets +onlyGivenNames x; have hx : Keeps s0 (by with_reducible apply x) := ?_; clear_value x; revert x; intro _ _; rotate_left; subst x)
    | (extract_lets +onlyGivenNames x; clear_value x; revert x; intro _)
    | with_reducible apply KeepsA.next
    | with_reducible apply KeepsA.ite
    | with_reducible apply State.put_keeps
    | simp -zeta only [Keeps.mk_iff]
    | split

theorem execTrigFirePop_keeps {s0 : State} (xm : Master) (s : State) (h : Keeps s0 s) :
    KeepsA s0 (execTrigFirePop xm s) := by
  unfold execTrigFirePop
  repeat' first
    | with_reducible assumption
    | (extract_lets +onlyGivenNames x; have hx : Keeps s0 (by with_reducible apply x) := ?_; clear_value x; revert x; intro _ _; rotate_left; subst x)
    | (extract_lets +onlyGivenNames x; clear_value x; revert x; intro _)
    | with_reducible apply KeepsA.next
    | with_reducible apply KeepsA.ite
    | with_reducible apply State.put_keeps
    | simp -zeta only [Keeps.mk_iff]
    | split

end Sys2Proof.Machine
end

