-- ==== Sys2Proof/Laws/KeepsBus.lean ====
section
/-! SUPPORT. The operations of Machine/Bus.lean break nothing (`Keeps`). -/

set_option linter.unusedSimpArgs false

namespace Sys2Proof.Machine

theorem stateOf_keeps {s0 : State} (s : State) (a : Answer) (h : Keeps s0 s) (ha : KeepsA s0 a) :
    Keeps s0 (stateOf s a) := by
  unfold stateOf
  split
  · exact ha.imp _ rfl
  · exact h

theorem pwrOp_keeps {s0 : State} (m : Master) (tag : BitVec 8) (s : State) (a0 : Nat) (h : Keeps s0 s) :
    KeepsOA s0 (pwrOp m tag s a0) := by
  unfold pwrOp
  repeat' first
    | with_reducible assumption
    | with_reducible exact KeepsOA.none
    | with_reducible apply KeepsOA.some
    | with_reducible apply execResetDevice_keeps
    | with_reducible apply execEnterHold_keeps
    | with_reducible apply execEnterTrim_keeps
    | with_reducible apply execEnterRun_keeps
    | split

theorem retOp_keeps {s0 : State} (m : Master) (tag : BitVec 8) (s : State) (a0 : Nat) (h : Keeps s0 s) :
    KeepsOA s0 (retOp m tag s a0) := by
  unfold retOp
  repeat' first
    | with_reducible assumption
    | with_reducible exact KeepsOA.none
    | with_reducible apply KeepsOA.some
    | with_reducible apply execEraseStore_keeps
    | with_reducible apply execCkptFlush_keeps
    | split

theorem tbOp_keeps {s0 : State} (m : Master) (tag : BitVec 8) (s : State) (a0 : Nat) (h : Keeps s0 s) :
    KeepsOA s0 (tbOp m tag s a0) := by
  unfold tbOp
  repeat' first
    | with_reducible assumption
    | with_reducible exact KeepsOA.none
    | with_reducible apply KeepsOA.some
    | with_reducible apply execSlew_keeps
    | with_reducible apply execStep_keeps
    | with_reducible apply execSetTime_keeps
    | split

theorem rfOp_keeps {s0 : State} (m : Master) (n : Fin 4) (tag : BitVec 8) (s : State) (a0 : Nat) (h : Keeps s0 s) :
    KeepsOA s0 (rfOp m n tag s a0) := by
  unfold rfOp
  repeat' first
    | with_reducible assumption
    | with_reducible exact KeepsOA.none
    | with_reducible apply KeepsOA.some
    | with_reducible apply execChainReset_keeps
    | with_reducible apply execTxCut_keeps
    | with_reducible apply execCalRun_keeps
    | split

theorem wbOp_keeps {s0 : State} (m : Master) (n : Fin 4) (tag : BitVec 8) (s : State) (a0 : Nat) (h : Keeps s0 s) :
    KeepsOA s0 (wbOp m n tag s a0) := by
  unfold wbOp
  repeat' first
    | with_reducible assumption
    | with_reducible exact KeepsOA.none
    | with_reducible apply KeepsOA.some
    | with_reducible apply execCapture_keeps
    | with_reducible apply execReplay_keeps
    | split

theorem floodOp_keeps {s0 : State} (m : Master) (tag : BitVec 8) (s : State) (a0 : Nat) (h : Keeps s0 s) :
    KeepsOA s0 (floodOp m tag s a0) := by
  unfold floodOp
  repeat' first
    | with_reducible assumption
    | with_reducible exact KeepsOA.none
    | with_reducible apply KeepsOA.some
    | with_reducible apply execDistStart_keeps
    | with_reducible apply execInject_keeps
    | with_reducible apply execOriginate_keeps
    | split

theorem peelOp_keeps {s0 : State} (m : Master) (tag : BitVec 8) (unpaced : Bool) (s : State) (a0 : Nat) (h : Keeps s0 s) :
    KeepsOA s0 (peelOp m tag unpaced s a0) := by
  unfold peelOp
  repeat' first
    | with_reducible assumption
    | with_reducible exact KeepsOA.none
    | with_reducible apply KeepsOA.some
    | with_reducible apply execListDump_keeps
    | with_reducible apply execFlowCancel_keeps
    | with_reducible apply execFlowRead_keeps
    | with_reducible apply execCancel_keeps
    | split

theorem dirOp_keeps {s0 : State} (m : Master) (tag : BitVec 8) (unpaced : Bool) (s : State) (a0 : Nat) (h : Keeps s0 s) :
    KeepsOA s0 (dirOp m tag unpaced s a0) := by
  unfold dirOp
  repeat' first
    | with_reducible assumption
    | with_reducible exact KeepsOA.none
    | with_reducible apply KeepsOA.some
    | with_reducible apply execDirFlushPort_keeps
    | with_reducible apply execDirNext_keeps
    | with_reducible apply execDirSearch_keeps
    | with_reducible apply execDirLookup_keeps
    | with_reducible apply execDirUpdate_keeps
    | with_reducible apply execDirDelete_keeps
    | with_reducible apply execDirInsert_keeps
    | split

theorem l2Op_keeps {s0 : State} (m : Master) (e : Fin 2) (tag : BitVec 8) (unpaced : Bool) (s : State) (a0 : Nat) (h : Keeps s0 s) :
    KeepsOA s0 (l2Op m e tag unpaced s a0) := by
  unfold l2Op
  repeat' first
    | with_reducible assumption
    | with_reducible exact KeepsOA.none
    | with_reducible apply KeepsOA.some
    | with_reducible apply execFlushPort_keeps
    | with_reducible apply execL2Next_keeps
    | with_reducible apply execL2Search_keeps
    | with_reducible apply execL2Update_keeps
    | with_reducible apply execL2Lookup_keeps
    | with_reducible apply execL2Delete_keeps
    | with_reducible apply execL2Insert_keeps
    | split

theorem prefixOp_keeps {s0 : State} (m : Master) (tag : BitVec 8) (unpaced : Bool) (s : State) (a0 : Nat) (h : Keeps s0 s) :
    KeepsOA s0 (prefixOp m tag unpaced s a0) := by
  unfold prefixOp
  repeat' first
    | with_reducible assumption
    | with_reducible exact KeepsOA.none
    | with_reducible apply KeepsOA.some
    | with_reducible apply execPrefixFlushPort_keeps
    | with_reducible apply execPrefixNext_keeps
    | with_reducible apply execPrefixSearch_keeps
    | with_reducible apply execPrefixUpdate_keeps
    | with_reducible apply execPrefixLookup_keeps
    | with_reducible apply execPrefixDelete_keeps
    | with_reducible apply execPrefixInsert_keeps
    | split

theorem portOp_keeps {s0 : State} (m : Master) (p : Fin 10) (tag : BitVec 8) (s : State) (a0 : Nat) (h : Keeps s0 s) :
    KeepsOA s0 (portOp m p tag s a0) := by
  unfold portOp
  repeat' first
    | with_reducible assumption
    | with_reducible exact KeepsOA.none
    | with_reducible apply KeepsOA.some
    | with_reducible apply execForceDown_keeps
    | with_reducible apply execRetrain_keeps
    | split

theorem crustOp_keeps {s0 : State} (m : Master) (tag : BitVec 8) (s : State) (a0 : Nat) (h : Keeps s0 s) :
    KeepsOA s0 (crustOp m tag s a0) := by
  unfold crustOp
  repeat' first
    | with_reducible assumption
    | with_reducible exact KeepsOA.none
    | with_reducible apply KeepsOA.some
    | with_reducible apply execSaPn_keeps
    | with_reducible apply execSaRead_keeps
    | with_reducible apply execSaDelete_keeps
    | with_reducible apply execSaInstall_keeps
    | split

theorem crustxOp_keeps {s0 : State} (m : Master) (xx : Fin 3) (tag : BitVec 8) (s : State) (a0 : Nat) (h : Keeps s0 s) :
    KeepsOA s0 (crustxOp m xx tag s a0) := by
  unfold crustxOp
  repeat' first
    | with_reducible assumption
    | with_reducible exact KeepsOA.none
    | with_reducible apply KeepsOA.some
    | with_reducible apply execTxDisarm_keeps
    | with_reducible apply execTxSwitch_keeps
    | with_reducible apply execTxArm_keeps
    | split

theorem rackOp_keeps {s0 : State} (m : Master) (tag : BitVec 8) (unpaced : Bool) (s : State) (a0 : Nat) (h : Keeps s0 s) :
    KeepsOA s0 (rackOp m tag unpaced s a0) := by
  unfold rackOp
  repeat' first
    | with_reducible assumption
    | with_reducible exact KeepsOA.none
    | with_reducible apply KeepsOA.some
    | with_reducible apply execRevoke_keeps
    | with_reducible apply execOwnerRead_keeps
    | with_reducible apply execLinkRead_keeps
    | with_reducible apply execSnapAll_keeps
    | with_reducible apply execReclaim_keeps
    | with_reducible apply execCensus_keeps
    | split

theorem starterOp_keeps {s0 : State} (m : Master) (tag : BitVec 8) (s : State) (a0 : Nat) (h : Keeps s0 s) :
    KeepsOA s0 (starterOp m tag s a0) := by
  unfold starterOp
  repeat' first
    | with_reducible assumption
    | with_reducible exact KeepsOA.none
    | with_reducible apply KeepsOA.some
    | with_reducible apply execLegacyOff_keeps
    | with_reducible apply execMcRead_keeps
    | with_reducible apply execMcExtend_keeps
    | with_reducible apply execSlotInfo_keeps
    | with_reducible apply execSlotZero_keeps
    | with_reducible apply execMkaKeys_keeps
    | with_reducible apply execGenerate_keeps
    | with_reducible apply execWrap_keeps
    | with_reducible apply execUnwrap_keeps
    | with_reducible apply execDerive_keeps
    | with_reducible apply execLcAdvance_keeps
    | split

theorem fwuOp_keeps {s0 : State} (m : Master) (tag : BitVec 8) (s : State) (a0 : Nat) (h : Keeps s0 s) :
    KeepsOA s0 (fwuOp m tag s a0) := by
  unfold fwuOp
  repeat' first
    | with_reducible assumption
    | with_reducible exact KeepsOA.none
    | with_reducible apply KeepsOA.some
    | with_reducible apply execKeyRevoke_keeps
    | with_reducible apply execFallback_keeps
    | with_reducible apply execConfirm_keeps
    | with_reducible apply execActivate_keeps
    | with_reducible apply execCheck_keeps
    | with_reducible apply execSlotVerify_keeps
    | with_reducible apply execSlotWrite_keeps
    | with_reducible apply execSlotErase_keeps
    | split

theorem hostOp_keeps {s0 : State} (m : Master) (tag : BitVec 8) (s : State) (a0 : Nat) (h : Keeps s0 s) :
    KeepsOA s0 (hostOp m tag s a0) := by
  unfold hostOp
  repeat' first
    | with_reducible assumption
    | with_reducible exact KeepsOA.none
    | with_reducible apply KeepsOA.some
    | with_reducible apply execQDelete_keeps
    | with_reducible apply execQCreate_keeps
    | split

theorem ownOp_keeps {s0 : State} (m : Master) (b : Block) (tag : BitVec 8) (unpaced : Bool) (s : State) (op : Nat) (h : Keeps s0 s) :
    KeepsOA s0 (ownOp m b tag unpaced s op) := by
  unfold ownOp
  repeat' first
    | with_reducible assumption
    | with_reducible exact KeepsOA.none
    | with_reducible apply KeepsOA.some
    | with_reducible apply KeepsOA.ite
    | with_reducible apply hostOp_keeps
    | with_reducible apply fwuOp_keeps
    | with_reducible apply starterOp_keeps
    | with_reducible apply rackOp_keeps
    | with_reducible apply crustxOp_keeps
    | with_reducible apply crustOp_keeps
    | with_reducible apply portOp_keeps
    | with_reducible apply prefixOp_keeps
    | with_reducible apply l2Op_keeps
    | with_reducible apply dirOp_keeps
    | with_reducible apply peelOp_keeps
    | with_reducible apply floodOp_keeps
    | with_reducible apply wbOp_keeps
    | with_reducible apply rfOp_keeps
    | with_reducible apply tbOp_keeps
    | with_reducible apply retOp_keeps
    | with_reducible apply pwrOp_keeps
    | with_reducible apply execThRelease_keeps
    | with_reducible apply execPredict_keeps
    | with_reducible apply execPeerRead_keeps
    | with_reducible apply execMapCheck_keeps
    | split

theorem State.cmdWrite_keeps {s0 : State} (s : State) (m : Master) (b : Block) (v : W32) (h : Keeps s0 s) :
    Keeps s0 (State.cmdWrite s m b v) := by
  unfold State.cmdWrite
  repeat' first
    | with_reducible assumption
    | (extract_lets +onlyGivenNames x; clear_value x; revert x; intro _)
    | with_reducible apply KeepsA.next
    | with_reducible apply KeepsA.ite
    | with_reducible apply ownOp_keeps
    | with_reducible apply stateOf_keeps
    | with_reducible apply State.unknownCmd_keeps
    | with_reducible apply execNop_keeps
    | with_reducible apply execLedgerSnapshot_keeps
    | with_reducible apply execCommit_keeps
    | with_reducible apply execAbort_keeps
    | with_reducible apply execUnfence_keeps
    | with_reducible apply execFence_keeps
    | with_reducible apply execFabUnfence_keeps
    | with_reducible apply execFabFence_keeps
    | with_reducible apply KeepsOA.getD

theorem State.noteHalf_keeps {s0 : State} (s : State) (m : Master) (a : Nat) (v : W32) (h : Keeps s0 s) :
    Keeps s0 (State.noteHalf s m a v) := by
  unfold State.noteHalf
  repeat' first
    | with_reducible assumption
    | with_reducible apply Keeps.ite
    | with_reducible apply State.busWrite_keeps
    | simp -zeta only [Keeps.mk_iff]
    | split
    | with_reducible refine Keeps.of_pair (by assumption) ?_

theorem State.writeThen_keeps {s0 : State} (s : State) (m : Master) (a : Nat) (v : W32) (f : State → State) (h : Keeps s0 s) (h_f : ∀ x, Keeps s0 x → Keeps s0 (f x)) :
    Keeps s0 (State.writeThen s m a v f) := by
  unfold State.writeThen
  repeat' first
    | with_reducible assumption
    | with_reducible apply State.busWrite_keeps
    | with_reducible apply h_f
    | split
    | with_reducible refine Keeps.of_pair (by assumption) ?_

theorem State.utcWrite_keeps {s0 : State} (s : State) (m : Master) (a : Nat) (v : W32) (h : Keeps s0 s) :
    Keeps s0 (State.utcWrite s m a v) := by
  unfold State.utcWrite
  repeat' first
    | with_reducible assumption
    | intro _
    | (extract_lets +onlyGivenNames x; clear_value x; revert x; intro _)
    | with_reducible apply Keeps.ite
    | with_reducible apply State.writeThen_keeps
    | with_reducible apply State.logCorrection_keeps

theorem State.crcCtl_keeps {s0 : State} (s : State) (m : Master) (c : Nat) (v : W32) (h : Keeps s0 s) :
    Keeps s0 (State.crcCtl s m c v) := by
  unfold State.crcCtl
  repeat' first
    | with_reducible assumption
    | (extract_lets +onlyGivenNames x; clear_value x; revert x; intro _)
    | with_reducible apply Keeps.ite
    | with_reducible apply stateOf_keeps
    | with_reducible apply execCrcStop_keeps
    | with_reducible apply execCrcGo_keeps

theorem State.ownWrite_keeps {s0 : State} (s : State) (m : Master) (b : Block) (o : Nat) (v : W32) (h : Keeps s0 s) :
    Keeps s0 (State.ownWrite s m b o v) := by
  unfold State.ownWrite
  extract_lets a plain go
  have hp : Keeps s0 plain := State.busWrite_keeps _ _ _ _ _ h
  have hg : ∀ f, (∀ x, Keeps s0 x → KeepsA s0 (f x)) → Keeps s0 (go f) := fun f hf => by
    show Keeps s0 (if natBit v.toNat 0 then stateOf s (f s) else plain)
    split
    · exact stateOf_keeps _ _ h (hf _ h)
    · exact hp
  clear_value plain go
  repeat' first
    | with_reducible apply hg
    | with_reducible assumption
    | intro _
    | with_reducible apply Keeps.ite
    | with_reducible apply State.crcCtl_keeps
    | with_reducible apply State.utcWrite_keeps
    | with_reducible apply State.writeThen_keeps
    | with_reducible apply State.noteHalf_keeps
    | with_reducible apply stateOf_keeps
    | with_reducible apply execTrigCtlWrite_keeps
    | with_reducible apply execTbRateWrite_keeps
    | with_reducible apply execTbSrcSetWrite_keeps
    | with_reducible apply execTbLatch_keeps
    | with_reducible apply execProofPubSelWrite_keeps
    | with_reducible apply execProofPost_keeps
    | with_reducible apply execTxPost_keeps
    | with_reducible apply execRxRet_keeps
    | with_reducible apply execMsixUnmask_keeps
    | with_reducible apply execTampLock_keeps
    | with_reducible apply execTampClear_keeps
    | with_reducible apply execNextHopHiWrite_keeps
    | with_reducible apply execXtxWrite_keeps
    | with_reducible apply execChainEnableWrite_keeps
    | with_reducible apply execCentreWrite_keeps
    | with_reducible apply execPortModeWrite_keeps
    | with_reducible apply execPeelPauseWrite_keeps
    | with_reducible apply execPeelFinish_keeps
    | with_reducible apply execPeelPost_keeps
    | with_reducible apply execPnThr64HiWrite_keeps
    | with_reducible apply execBcnParentWrite_keeps
    | with_reducible apply State.tbEval_keeps
    | with_reducible apply State.judgeGnss_keeps
    | with_reducible apply State.txnDrain_keeps
    | with_reducible apply State.hwDrain_keeps
    | with_reducible apply State.evtIf_keeps
    | split

theorem State.writeWord_keeps {s0 : State} (s : State) (m : Master) (a : Nat) (v : W32) (h : Keeps s0 s) :
    Keeps s0 (State.writeWord s m a v) := by
  unfold State.writeWord
  repeat' first
    | with_reducible assumption
    | intro _
    | (extract_lets +onlyGivenNames x; have hx : Keeps s0 (by with_reducible apply x) := ?_; clear_value x; revert x; intro _ _; rotate_left; subst x)
    | with_reducible apply Keeps.ite
    | with_reducible apply State.ownWrite_keeps
    | with_reducible apply State.cmdWrite_keeps
    | with_reducible apply stateOf_keeps
    | with_reducible apply execCfgStageWrite_keeps
    | with_reducible apply execPartAck_keeps
    | with_reducible apply execRefusedClr_keeps
    | with_reducible apply execEvtCntClear_keeps
    | with_reducible apply execEvtForce_keeps
    | with_reducible apply execEvtClear_keeps
    | with_reducible apply State.busWrite_keeps
    | with_reducible apply State.withIrq_keeps
    | split

theorem State.writeNarrow_keeps {s0 : State} (s : State) (m : Master) (a : Nat) (h : Keeps s0 s) :
    Keeps s0 (State.writeNarrow s m a) := by
  unfold State.writeNarrow
  repeat' first
    | with_reducible assumption
    | with_reducible apply Keeps.ite
    | with_reducible apply State.busWrite_keeps
    | with_reducible apply State.refuse_keeps
    | split

theorem execRegisterWrite_keeps {s0 : State} (m : Master) (addr : BitVec 26) (width : Fin 4) (v : BitVec 64) (s : State) (h : Keeps s0 s) :
    KeepsA s0 (execRegisterWrite m addr width v s) := by
  unfold execRegisterWrite
  repeat' first
    | with_reducible assumption
    | (extract_lets +onlyGivenNames x; clear_value x; revert x; intro _)
    | with_reducible apply KeepsA.next
    | with_reducible apply State.writeNarrow_keeps
    | with_reducible apply State.writeWord_keeps
    | split

theorem popOf_keeps {s0 : State} (m : Master) (s : State) (b : Block) (o : Nat) (h : Keeps s0 s) :
    KeepsOA s0 (popOf m s b o) := by
  unfold popOf
  repeat' first
    | with_reducible assumption
    | with_reducible exact KeepsOA.none
    | with_reducible apply KeepsOA.some
    | with_reducible apply KeepsOA.ite
    | with_reducible apply execTrigFirePop_keeps
    | with_reducible apply execTbPpsinPop_keeps
    | with_reducible apply execRackTracePop_keeps
    | with_reducible apply execRackDroprecPop_keeps
    | with_reducible apply execTampLogPop_keeps
    | with_reducible apply execSieveLfifoPop_keeps
    | with_reducible apply execPortnTstxPop_keeps
    | with_reducible apply execPeelCorePop_keeps
    | with_reducible apply execPeelDonePop_keeps
    | with_reducible apply execPhySnrPop_keeps
    | split

theorem State.busRead_keeps {s0 : State} (s : State) (m : Master) (a : Nat) (h : Keeps s0 s) :
    Keeps s0 (State.busRead s m a) := by
  unfold State.busRead
  repeat' first
    | with_reducible assumption
    | with_reducible exact KeepsOA.none
    | with_reducible apply popOf_keeps
    | with_reducible apply stateOf_keeps
    | simp -zeta only [Keeps.mk_iff]
    | split
    | with_reducible refine Keeps.of_someA (by assumption) ?_

theorem State.busReadNarrow_keeps {s0 : State} (s : State) (m : Master) (a : Nat) (two : Bool) (h : Keeps s0 s) :
    Keeps s0 (State.busReadNarrow s m a two) := by
  unfold State.busReadNarrow
  repeat' first
    | with_reducible assumption
    | (extract_lets +onlyGivenNames x; have hx : Keeps s0 (by with_reducible apply x) := ?_; clear_value x; revert x; intro _ _; rotate_left; subst x)
    | with_reducible apply State.busRead_keeps
    | simp -zeta only [Keeps.mk_iff]

theorem State.busReadWide_keeps {s0 : State} (s : State) (m : Master) (a : Nat) (h : Keeps s0 s) :
    Keeps s0 (State.busReadWide s m a).1 := by
  unfold State.busReadWide
  repeat' first
    | with_reducible assumption
    | (extract_lets +onlyGivenNames x; have hx : Keeps s0 (by with_reducible apply x) := ?_; clear_value x; revert x; intro _ _; rotate_left; subst x)
    | with_reducible apply State.busRead_keeps

theorem execSpiWrite_keeps {s0 : State} (a : BitVec 24) (words : List (BitVec 32)) (crc : BitVec 16) (risen : Bool) (s : State) (h : Keeps s0 s) :
    KeepsA s0 (execSpiWrite a words crc risen s) := by
  unfold execSpiWrite
  repeat' first
    | with_reducible assumption
    | intro _
    | (extract_lets +onlyGivenNames x; have hx : Keeps s0 (by with_reducible apply x) := ?_; clear_value x; revert x; intro _ _; rotate_left; subst x)
    | (extract_lets +onlyGivenNames x; clear_value x; revert x; intro _)
    | with_reducible apply KeepsA.next
    | with_reducible apply KeepsA.ite
    | with_reducible apply Keeps.ite
    | with_reducible apply State.writeWord_keeps
    | with_reducible apply Keeps.foldl
    | with_reducible apply Keeps.foldl_fst
    | simp -zeta only [Keeps.mk_iff]
    | with_reducible rfl
    | split
    | with_reducible exact Keeps.of_pair (by assumption) (by assumption)
    | with_reducible refine Keeps.of_pair (by assumption) ?_
    | with_reducible refine Keeps.of_pair' (by assumption) ?_
    | with_reducible refine Keeps.of_some (by assumption) ?_
    | with_reducible refine Keeps.of_someA (by assumption) ?_
    | with_reducible exact Keeps.of_someO (by assumption)
    | with_reducible apply KeepsOA.getD
    | simp only [StarterSt.storeNow_lc, StarterSt.storeNow_off, StarterSt.commitUpdate_lc, StarterSt.commitUpdate_off, StarterSt.beginUpdate_lc, StarterSt.beginUpdate_off, StarterSt.commitAll_lc, StarterSt.commitAll_off]
    | with_reducible contradiction
    | dsimp -zeta only

theorem execSpiRead_keeps {s0 : State} (a : BitVec 24) (n : Fin 16) (crc : BitVec 16) (s : State) (h : Keeps s0 s) :
    KeepsA s0 (execSpiRead a n crc s) := by
  unfold execSpiRead
  repeat' first
    | with_reducible assumption
    | intro _
    | (extract_lets +onlyGivenNames x; have hx : Keeps s0 (by with_reducible apply x) := ?_; clear_value x; revert x; intro _ _; rotate_left; subst x)
    | (extract_lets +onlyGivenNames x; clear_value x; revert x; intro _)
    | with_reducible apply KeepsA.next
    | with_reducible apply KeepsA.ite
    | with_reducible apply Keeps.ite
    | with_reducible apply State.busRead_keeps
    | with_reducible apply Keeps.foldl
    | with_reducible apply Keeps.foldl_fst
    | simp -zeta only [Keeps.mk_iff]
    | with_reducible rfl
    | split
    | with_reducible exact Keeps.of_pair (by assumption) (by assumption)
    | with_reducible refine Keeps.of_pair (by assumption) ?_
    | with_reducible refine Keeps.of_pair' (by assumption) ?_
    | with_reducible refine Keeps.of_some (by assumption) ?_
    | with_reducible refine Keeps.of_someA (by assumption) ?_
    | with_reducible exact Keeps.of_someO (by assumption)
    | with_reducible apply KeepsOA.getD
    | simp only [StarterSt.storeNow_lc, StarterSt.storeNow_off, StarterSt.commitUpdate_lc, StarterSt.commitUpdate_off, StarterSt.beginUpdate_lc, StarterSt.beginUpdate_off, StarterSt.commitAll_lc, StarterSt.commitAll_off]
    | with_reducible contradiction
    | dsimp -zeta only

end Sys2Proof.Machine
end

