-- ==== Sys2Proof/Laws/Exec.lean ====
section
/-! SUPPORT. What no command breaks: `Keeps` of every command and of every step. -/

namespace Sys2Proof.Machine

theorem exec_keeps (c : Instr) (s : State) : KeepsA s (exec c s) := by
  cases c
  case registerWrite m addr width v => exact execRegisterWrite_keeps m addr width v s (Keeps.refl s)
  case evtClear m b v hw => exact execEvtClear_keeps m b v hw s (Keeps.refl s)
  case evtForce m b v => exact execEvtForce_keeps m b v s (Keeps.refl s)
  case evtCntClear m b k v hw => exact execEvtCntClear_keeps m b k v hw s (Keeps.refl s)
  case refusedClr m b => exact execRefusedClr_keeps m b s (Keeps.refl s)
  case cfgStageWrite m b v => exact execCfgStageWrite_keeps m b v s (Keeps.refl s)
  case partAck m b chunk => exact execPartAck_keeps m b chunk s (Keeps.refl s)
  case partWaitTimeout b => exact execPartWaitTimeout_keeps b s (Keeps.refl s)
  case commandTimeout b ch => exact execCommandTimeout_keeps b ch s (Keeps.refl s)
  case commit m b tag => exact execCommit_keeps m b tag s (Keeps.refl s)
  case deviceCommit m tag => exact execDeviceCommit_keeps m tag s (Keeps.refl s)
  case commitApply b => exact execCommitApply_keeps b s (Keeps.refl s)
  case deviceCommitDone => exact execDeviceCommitDone_keeps s (Keeps.refl s)
  case abort m b tag => exact execAbort_keeps m b tag s (Keeps.refl s)
  case fence m b tag => exact execFence_keeps m b tag s (Keeps.refl s)
  case unfence m b tag => exact execUnfence_keeps m b tag s (Keeps.refl s)
  case ledgerSnapshot m b tag => exact execLedgerSnapshot_keeps m b tag s (Keeps.refl s)
  case nop m b tag => exact execNop_keeps m b tag s (Keeps.refl s)
  case fabFence m tag => exact execFabFence_keeps m tag s (Keeps.refl s)
  case fabUnfence m tag => exact execFabUnfence_keeps m tag s (Keeps.refl s)
  case fenceTimeout g ackFirst => exact execFenceTimeout_keeps g ackFirst s (Keeps.refl s)
  case governorWindow busyNs tokenPs => exact execGovernorWindow_keeps busyNs tokenPs s (Keeps.refl s)
  case burstJump p => exact execBurstJump_keeps p s (Keeps.refl s)
  case powerOn dftEn => exact execPowerOn_keeps dftEn s (Keeps.refl s)
  case starterOpen rootBad => exact execStarterOpen_keeps rootBad s (Keeps.refl s)
  case stage1Verified => exact execStage1Verified_keeps s (Keeps.refl s)
  case retainedConfigApplied => exact execRetainedConfigApplied_keeps s (Keeps.refl s)
  case dataPlanesForwarding => exact execDataPlanesForwarding_keeps s (Keeps.refl s)
  case directoryRebuild => exact execDirectoryRebuild_keeps s (Keeps.refl s)
  case radioChainsCalibrated => exact execRadioChainsCalibrated_keeps s (Keeps.refl s)
  case pfWarn mv10 => exact execPfWarn_keeps mv10 s (Keeps.refl s)
  case pfClear mv10 => exact execPfClear_keeps mv10 s (Keeps.refl s)
  case powerOff => exact execPowerOff_keeps s (Keeps.refl s)
  case enterRun m tag => exact execEnterRun_keeps m tag s (Keeps.refl s)
  case enterTrim m tag => exact execEnterTrim_keeps m tag s (Keeps.refl s)
  case enterHold m tag => exact execEnterHold_keeps m tag s (Keeps.refl s)
  case resetDevice m tag => exact execResetDevice_keeps m tag s (Keeps.refl s)
  case autoTrim mv10 => exact execAutoTrim_keeps mv10 s (Keeps.refl s)
  case autoRun mv10 => exact execAutoRun_keeps mv10 s (Keeps.refl s)
  case powerStateDone => exact execPowerStateDone_keeps s (Keeps.refl s)
  case holdWake src => exact execHoldWake_keeps src s (Keeps.refl s)
  case pinReset lowNs => exact execPinReset_keeps lowNs s (Keeps.refl s)
  case softwareReset => exact execSoftwareReset_keeps s (Keeps.refl s)
  case retStoreDone => exact execRetStoreDone_keeps s (Keeps.refl s)
  case ckptRecordWrite h => exact execCkptRecordWrite_keeps h s (Keeps.refl s)
  case ckptFlush m tag => exact execCkptFlush_keeps m tag s (Keeps.refl s)
  case eraseStore m tag => exact execEraseStore_keeps m tag s (Keeps.refl s)
  case driftRestoreItem h => exact execDriftRestoreItem_keeps h s (Keeps.refl s)
  case securedWaitExit p => exact execSecuredWaitExit_keeps p s (Keeps.refl s)
  case tbLatch m => exact execTbLatch_keeps m s (Keeps.refl s)
  case sourceQualified src => exact execSourceQualified_keeps src s (Keeps.refl s)
  case tbSrcSetWrite m v => exact execTbSrcSetWrite_keeps m v s (Keeps.refl s)
  case tbRateWrite m v => exact execTbRateWrite_keeps m v s (Keeps.refl s)
  case servoTimeout => exact execServoTimeout_keeps s (Keeps.refl s)
  case ppsInput tenm => exact execPpsInput_keeps tenm s (Keeps.refl s)
  case gnssPpsMissing tenm => exact execGnssPpsMissing_keeps tenm s (Keeps.refl s)
  case refLost => exact execRefLost_keeps s (Keeps.refl s)
  case refBack => exact execRefBack_keeps s (Keeps.refl s)
  case setTime m tag => exact execSetTime_keeps m tag s (Keeps.refl s)
  case step m tag => exact execStep_keeps m tag s (Keeps.refl s)
  case slew m tag => exact execSlew_keeps m tag s (Keeps.refl s)
  case slewComplete => exact execSlewComplete_keeps s (Keeps.refl s)
  case triggerFire ch => exact execTriggerFire_keeps ch s (Keeps.refl s)
  case trigCtlWrite m ch v => exact execTrigCtlWrite_keeps m ch v s (Keeps.refl s)
  case tbPpsinPop m => exact execTbPpsinPop_keeps m s (Keeps.refl s)
  case trigFirePop m => exact execTrigFirePop_keeps m s (Keeps.refl s)
  case centreWrite m n v => exact execCentreWrite_keeps m n v s (Keeps.refl s)
  case retuneStart n => exact execRetuneStart_keeps n s (Keeps.refl s)
  case retuneWaitTimeout n => exact execRetuneWaitTimeout_keeps n s (Keeps.refl s)
  case chainEnableWrite m n v => exact execChainEnableWrite_keeps m n v s (Keeps.refl s)
  case synthLock n ticks => exact execSynthLock_keeps n ticks s (Keeps.refl s)
  case lockTimeout n => exact execLockTimeout_keeps n s (Keeps.refl s)
  case txJobTake n => exact execTxJobTake_keeps n s (Keeps.refl s)
  case txRampUpStart n => exact execTxRampUpStart_keeps n s (Keeps.refl s)
  case txStart n => exact execTxStart_keeps n s (Keeps.refl s)
  case txFrameEnd n => exact execTxFrameEnd_keeps n s (Keeps.refl s)
  case txRampDownEnd n => exact execTxRampDownEnd_keeps n s (Keeps.refl s)
  case blankingEnd n => exact execBlankingEnd_keeps n s (Keeps.refl s)
  case trigJobTimeout n => exact execTrigJobTimeout_keeps n s (Keeps.refl s)
  case txLatestStartPassed n => exact execTxLatestStartPassed_keeps n s (Keeps.refl s)
  case calStart n => exact execCalStart_keeps n s (Keeps.refl s)
  case calAbortForJob n => exact execCalAbortForJob_keeps n s (Keeps.refl s)
  case calRestoreEnd n => exact execCalRestoreEnd_keeps n s (Keeps.refl s)
  case calComplete n => exact execCalComplete_keeps n s (Keeps.refl s)
  case calReschedule n => exact execCalReschedule_keeps n s (Keeps.refl s)
  case chainTempSample n temp => exact execChainTempSample_keeps n temp s (Keeps.refl s)
  case oscCal => exact execOscCal_keeps s (Keeps.refl s)
  case calRun m n tag => exact execCalRun_keeps m n tag s (Keeps.refl s)
  case txCut m n tag => exact execTxCut_keeps m n tag s (Keeps.refl s)
  case chainReset m n tag => exact execChainReset_keeps m n tag s (Keeps.refl s)
  case xtxWrite m v => exact execXtxWrite_keeps m v s (Keeps.refl s)
  case feGainLoopBlock n blk => exact execFeGainLoopBlock_keeps n blk s (Keeps.refl s)
  case preambleDetect n a t d => exact execPreambleDetect_keeps n a t d s (Keeps.refl s)
  case antennaSelect n k w0 w1 => exact execAntennaSelect_keeps n k w0 w1 s (Keeps.refl s)
  case phrDecoded n k h => exact execPhrDecoded_keeps n k h s (Keeps.refl s)
  case headerLimitExpired n k coded => exact execHeaderLimitExpired_keeps n k coded s (Keeps.refl s)
  case mapBlockDecoded n k bits => exact execMapBlockDecoded_keeps n k bits s (Keeps.refl s)
  case markStale n id => exact execMarkStale_keeps n id s (Keeps.refl s)
  case receptionComplete n k air => exact execReceptionComplete_keeps n k air s (Keeps.refl s)
  case recordDeliver n r => exact execRecordDeliver_keeps n r s (Keeps.refl s)
  case recTimeout n r => exact execRecTimeout_keeps n r s (Keeps.refl s)
  case replay m n tag => exact execReplay_keeps m n tag s (Keeps.refl s)
  case capture m n tag => exact execCapture_keeps m n tag s (Keeps.refl s)
  case captureDone n => exact execCaptureDone_keeps n s (Keeps.refl s)
  case slotPowerUpdate n p0 p1 => exact execSlotPowerUpdate_keeps n p0 p1 s (Keeps.refl s)
  case segmentSubmit n k llrs => exact execSegmentSubmit_keeps n k llrs s (Keeps.refl s)
  case segmentDecoded n k => exact execSegmentDecoded_keeps n k s (Keeps.refl s)
  case mapCheck m tag => exact execMapCheck_keeps m tag s (Keeps.refl s)
  case phySnrPop m => exact execPhySnrPop_keeps m s (Keeps.refl s)
  case directoryLookup n k eui moves => exact execDirectoryLookup_keeps n k eui moves s (Keeps.refl s)
  case inlineDerive h next n k => exact execInlineDerive_keeps h next n k s (Keeps.refl s)
  case macNodeTransaction n r => exact execMacNodeTransaction_keeps n r s (Keeps.refl s)
  case aimJob id => exact execAimJob_keeps id s (Keeps.refl s)
  case ackWaitExpired id => exact execAckWaitExpired_keeps id s (Keeps.refl s)
  case predict m tag => exact execPredict_keeps m tag s (Keeps.refl s)
  case beaconDue c => exact execBeaconDue_keeps c s (Keeps.refl s)
  case beaconRx n k air => exact execBeaconRx_keeps n k air s (Keeps.refl s)
  case parentBeaconMiss => exact execParentBeaconMiss_keeps s (Keeps.refl s)
  case peerExpire ix => exact execPeerExpire_keeps ix s (Keeps.refl s)
  case bcnParentWrite m v => exact execBcnParentWrite_keeps m v s (Keeps.refl s)
  case peerRead m tag => exact execPeerRead_keeps m tag s (Keeps.refl s)
  case floodRx n k air => exact execFloodRx_keeps n k air s (Keeps.refl s)
  case relayDelayEnd origin seq => exact execRelayDelayEnd_keeps origin seq s (Keeps.refl s)
  case floodCacheExpire origin seq => exact execFloodCacheExpire_keeps origin seq s (Keeps.refl s)
  case originate m tag => exact execOriginate_keeps m tag s (Keeps.refl s)
  case inject m tag => exact execInject_keeps m tag s (Keeps.refl s)
  case distStart m tag => exact execDistStart_keeps m tag s (Keeps.refl s)
  case distBlockGap => exact execDistBlockGap_keeps s (Keeps.refl s)
  case peelPost m => exact execPeelPost_keeps m s (Keeps.refl s)
  case itemDue k => exact execItemDue_keeps k s (Keeps.refl s)
  case grantAfterRoom k => exact execGrantAfterRoom_keeps k s (Keeps.refl s)
  case parkDue k => exact execParkDue_keeps k s (Keeps.refl s)
  case jobReturn n => exact execJobReturn_keeps n s (Keeps.refl s)
  case peelCorePop m => exact execPeelCorePop_keeps m s (Keeps.refl s)
  case peelFinish m v => exact execPeelFinish_keeps m v s (Keeps.refl s)
  case taskTimeout id => exact execTaskTimeout_keeps id s (Keeps.refl s)
  case peelDonePop m => exact execPeelDonePop_keeps m s (Keeps.refl s)
  case peelPauseWrite m v => exact execPeelPauseWrite_keeps m v s (Keeps.refl s)
  case cancel m tag => exact execCancel_keeps m tag s (Keeps.refl s)
  case flowRead m tag => exact execFlowRead_keeps m tag s (Keeps.refl s)
  case flowCancel m tag => exact execFlowCancel_keeps m tag s (Keeps.refl s)
  case listDump m tag unpaced => exact execListDump_keeps m tag unpaced s (Keeps.refl s)
  case dirInsert m tag => exact execDirInsert_keeps m tag s (Keeps.refl s)
  case dirDelete m tag => exact execDirDelete_keeps m tag s (Keeps.refl s)
  case dirLookup m tag moves => exact execDirLookup_keeps m tag moves s (Keeps.refl s)
  case dirUpdate m tag => exact execDirUpdate_keeps m tag s (Keeps.refl s)
  case dirSearch m tag unpaced => exact execDirSearch_keeps m tag unpaced s (Keeps.refl s)
  case dirNext m tag => exact execDirNext_keeps m tag s (Keeps.refl s)
  case dirFlushPort m tag => exact execDirFlushPort_keeps m tag s (Keeps.refl s)
  case dirFlowGranted => exact execDirFlowGranted_keeps s (Keeps.refl s)
  case dirFlowTimeout => exact execDirFlowTimeout_keeps s (Keeps.refl s)
  case l2Insert m e tag => exact execL2Insert_keeps m e tag s (Keeps.refl s)
  case l2Delete m e tag => exact execL2Delete_keeps m e tag s (Keeps.refl s)
  case l2Lookup m e tag => exact execL2Lookup_keeps m e tag s (Keeps.refl s)
  case l2Update m e tag => exact execL2Update_keeps m e tag s (Keeps.refl s)
  case l2Search m e tag unpaced => exact execL2Search_keeps m e tag unpaced s (Keeps.refl s)
  case l2Next m e tag => exact execL2Next_keeps m e tag s (Keeps.refl s)
  case flushPort m e tag unpaced => exact execFlushPort_keeps m e tag unpaced s (Keeps.refl s)
  case prefixInsert m tag => exact execPrefixInsert_keeps m tag s (Keeps.refl s)
  case prefixDelete m tag => exact execPrefixDelete_keeps m tag s (Keeps.refl s)
  case prefixLookup m tag => exact execPrefixLookup_keeps m tag s (Keeps.refl s)
  case prefixUpdate m tag => exact execPrefixUpdate_keeps m tag s (Keeps.refl s)
  case prefixSearch m tag unpaced => exact execPrefixSearch_keeps m tag unpaced s (Keeps.refl s)
  case prefixNext m tag => exact execPrefixNext_keeps m tag s (Keeps.refl s)
  case prefixFlushPort m tag => exact execPrefixFlushPort_keeps m tag s (Keeps.refl s)
  case prefixSpareMove src dst => exact execPrefixSpareMove_keeps src dst s (Keeps.refl s)
  case nextHopHiWrite m n v => exact execNextHopHiWrite_keeps m n v s (Keeps.refl s)
  case sieveFrameLookup ix => exact execSieveFrameLookup_keeps ix s (Keeps.refl s)
  case learnCommit ix => exact execLearnCommit_keeps ix s (Keeps.refl s)
  case ageSweep e => exact execAgeSweep_keeps e s (Keeps.refl s)
  case pinRelease e idx => exact execPinRelease_keeps e idx s (Keeps.refl s)
  case sieveLfifoPop m e => exact execSieveLfifoPop_keeps m e s (Keeps.refl s)
  case portFrameRx p x => exact execPortFrameRx_keeps p x s (Keeps.refl s)
  case egressStart ix e under => exact execEgressStart_keeps ix e under s (Keeps.refl s)
  case faultDecided p c => exact execFaultDecided_keeps p c s (Keeps.refl s)
  case linkDown p => exact execLinkDown_keeps p s (Keeps.refl s)
  case faultCleared p c => exact execFaultCleared_keeps p c s (Keeps.refl s)
  case linkUp p => exact execLinkUp_keeps p s (Keeps.refl s)
  case degradeInterval p n blocks unc ber => exact execDegradeInterval_keeps p n blocks unc ber s (Keeps.refl s)
  case portModeWrite m p lane v => exact execPortModeWrite_keeps m p lane v s (Keeps.refl s)
  case retrain m p tag => exact execRetrain_keeps m p tag s (Keeps.refl s)
  case forceDown m p tag => exact execForceDown_keeps m p tag s (Keeps.refl s)
  case portnTstxPop m p => exact execPortnTstxPop_keeps m p s (Keeps.refl s)
  case saInstall m tag => exact execSaInstall_keeps m tag s (Keeps.refl s)
  case saDelete m tag => exact execSaDelete_keeps m tag s (Keeps.refl s)
  case saRead m tag => exact execSaRead_keeps m tag s (Keeps.refl s)
  case saPn m tag => exact execSaPn_keeps m tag s (Keeps.refl s)
  case pnThr64HiWrite m v => exact execPnThr64HiWrite_keeps m v s (Keeps.refl s)
  case txArm m x tag => exact execTxArm_keeps m x tag s (Keeps.refl s)
  case txSwitch m x tag => exact execTxSwitch_keeps m x tag s (Keeps.refl s)
  case txSwitchApply p => exact execTxSwitchApply_keeps p s (Keeps.refl s)
  case txDisarm m x tag => exact execTxDisarm_keeps m x tag s (Keeps.refl s)
  case crustRxFrame ix => exact execCrustRxFrame_keeps ix s (Keeps.refl s)
  case icvResult ix ok => exact execIcvResult_keeps ix ok s (Keeps.refl s)
  case crustTxFrame ix p => exact execCrustTxFrame_keeps ix p s (Keeps.refl s)
  case leaseExpiry q => exact execLeaseExpiry_keeps q s (Keeps.refl s)
  case census m tag unpaced => exact execCensus_keeps m tag unpaced s (Keeps.refl s)
  case reclaim m tag => exact execReclaim_keeps m tag s (Keeps.refl s)
  case snapAll m tag => exact execSnapAll_keeps m tag s (Keeps.refl s)
  case linkRead m tag => exact execLinkRead_keeps m tag s (Keeps.refl s)
  case ownerRead m tag => exact execOwnerRead_keeps m tag s (Keeps.refl s)
  case revoke m tag => exact execRevoke_keeps m tag s (Keeps.refl s)
  case rackDroprecPop m => exact execRackDroprecPop_keeps m s (Keeps.refl s)
  case rackTracePop m => exact execRackTracePop_keeps m s (Keeps.refl s)
  case derive m tag => exact execDerive_keeps m tag s (Keeps.refl s)
  case unwrap m tag => exact execUnwrap_keeps m tag s (Keeps.refl s)
  case wrap m tag => exact execWrap_keeps m tag s (Keeps.refl s)
  case generate m tag => exact execGenerate_keeps m tag s (Keeps.refl s)
  case mkaKeys m tag => exact execMkaKeys_keeps m tag s (Keeps.refl s)
  case slotZero m tag => exact execSlotZero_keeps m tag s (Keeps.refl s)
  case slotInfo m tag => exact execSlotInfo_keeps m tag s (Keeps.refl s)
  case mcExtend m tag => exact execMcExtend_keeps m tag s (Keeps.refl s)
  case mcRead m tag => exact execMcRead_keeps m tag s (Keeps.refl s)
  case lcAdvance m tag => exact execLcAdvance_keeps m tag s (Keeps.refl s)
  case legacyOff m tag => exact execLegacyOff_keeps m tag s (Keeps.refl s)
  case deriveItem => exact execDeriveItem_keeps s (Keeps.refl s)
  case retainedUpdateCommit => exact execRetainedUpdateCommit_keeps s (Keeps.refl s)
  case tamperDecided src => exact execTamperDecided_keeps src s (Keeps.refl s)
  case zeroizeDone => exact execZeroizeDone_keeps s (Keeps.refl s)
  case tampMeshPattern => exact execTampMeshPattern_keeps s (Keeps.refl s)
  case tampClear m v => exact execTampClear_keeps m v s (Keeps.refl s)
  case tampLock m v => exact execTampLock_keeps m v s (Keeps.refl s)
  case thRelease m tag => exact execThRelease_keeps m tag s (Keeps.refl s)
  case tampLogPop m => exact execTampLogPop_keeps m s (Keeps.refl s)
  case proofPost m => exact execProofPost_keeps m s (Keeps.refl s)
  case proofReading => exact execProofReading_keeps s (Keeps.refl s)
  case proofParam => exact execProofParam_keeps s (Keeps.refl s)
  case proofActivate => exact execProofActivate_keeps s (Keeps.refl s)
  case proofSelftestEnd pass => exact execProofSelftestEnd_keeps pass s (Keeps.refl s)
  case pd2Undervolt => exact execPd2Undervolt_keeps s (Keeps.refl s)
  case pd2Restart => exact execPd2Restart_keeps s (Keeps.refl s)
  case proofPubSelWrite m seq => exact execProofPubSelWrite_keeps m seq s (Keeps.refl s)
  case sealIdent => exact execSealIdent_keeps s (Keeps.refl s)
  case sealLogRead arg => exact execSealLogRead_keeps arg s (Keeps.refl s)
  case sealRegRead arg => exact execSealRegRead_keeps arg s (Keeps.refl s)
  case sealHeads => exact execSealHeads_keeps s (Keeps.refl s)
  case sealUnknownCmd cmd => exact execSealUnknownCmd_keeps cmd s (Keeps.refl s)
  case sealRequestDiscard => exact execSealRequestDiscard_keeps s (Keeps.refl s)
  case slotErase m tag => exact execSlotErase_keeps m tag s (Keeps.refl s)
  case slotWrite m tag => exact execSlotWrite_keeps m tag s (Keeps.refl s)
  case slotVerify m tag => exact execSlotVerify_keeps m tag s (Keeps.refl s)
  case check m tag => exact execCheck_keeps m tag s (Keeps.refl s)
  case activate m tag => exact execActivate_keeps m tag s (Keeps.refl s)
  case activateUnit => exact execActivateUnit_keeps s (Keeps.refl s)
  case linkWaitTimeout => exact execLinkWaitTimeout_keeps s (Keeps.refl s)
  case confirm m tag => exact execConfirm_keeps m tag s (Keeps.refl s)
  case fallback m tag => exact execFallback_keeps m tag s (Keeps.refl s)
  case trialWindowExpired => exact execTrialWindowExpired_keeps s (Keeps.refl s)
  case keyRevoke m tag => exact execKeyRevoke_keeps m tag s (Keeps.refl s)
  case pcieLinkLoss => exact execPcieLinkLoss_keeps s (Keeps.refl s)
  case pcieFlr => exact execPcieFlr_keeps s (Keeps.refl s)
  case perst => exact execPerst_keeps s (Keeps.refl s)
  case dmaError crc q => exact execDmaError_keeps crc q s (Keeps.refl s)
  case qCreate m tag => exact execQCreate_keeps m tag s (Keeps.refl s)
  case qDelete m tag => exact execQDelete_keeps m tag s (Keeps.refl s)
  case rxRet m q n => exact execRxRet_keeps m q n s (Keeps.refl s)
  case txPost m q n => exact execTxPost_keeps m q n s (Keeps.refl s)
  case txDescriptorFetch q len dest tsReq oneStep tag offset x data => exact execTxDescriptorFetch_keeps q len dest tsReq oneStep tag offset x data s (Keeps.refl s)
  case hostDeliver q message => exact execHostDeliver_keeps q message s (Keeps.refl s)
  case parkExpired cell => exact execParkExpired_keeps cell s (Keeps.refl s)
  case coalTimer q tx => exact execCoalTimer_keeps q tx s (Keeps.refl s)
  case msixUnmask m v => exact execMsixUnmask_keeps m v s (Keeps.refl s)
  case bar2Access write a n l => exact execBar2Access_keeps write a n l s (Keeps.refl s)
  case spiWrite a words crc risen => exact execSpiWrite_keeps a words crc risen s (Keeps.refl s)
  case spiRead a n crc => exact execSpiRead_keeps a n crc s (Keeps.refl s)
  case crcGo m c => exact execCrcGo_keeps m c s (Keeps.refl s)
  case crcStop m c => exact execCrcStop_keeps m c s (Keeps.refl s)
  case crcJobDone c host => exact execCrcJobDone_keeps c host s (Keeps.refl s)
  case gpioInputChange pin level => exact execGpioInputChange_keeps pin level s (Keeps.refl s)
  case saDeleteDrained => exact execSaDeleteDrained_keeps s (Keeps.refl s)
  case fwuDrainExpired => exact execFwuDrainExpired_keeps s (Keeps.refl s)
  case ctrlFirmwareRunning => exact execCtrlFirmwareRunning_keeps s (Keeps.refl s)
  case tamperSourceCleared src => exact execTamperSourceCleared_keeps src s (Keeps.refl s)
  case triggerPulseEnd ch => exact execTriggerPulseEnd_keeps ch s (Keeps.refl s)
  case pcieLinkUp speed width => exact execPcieLinkUp_keeps speed width s (Keeps.refl s)

/-- With the queue left aside, no step breaks anything. -/
theorem step_keeps (s t : State) (h : step s = .next t) : Keeps { s with pending := s.pending.drop 1 } t := by
  unfold step at h
  split at h
  · rename_i c rest e
    rw [e]
    exact (exec_keeps c _).imp _ h
  · rename_i e
    injection h with h
    subst h
    have : ({ s with pending := s.pending.drop 1 } : State) = s := by
      cases s; subst e; rfl
    rw [this]
    exact State.idleTick_keeps _ (Keeps.refl _)

end Sys2Proof.Machine
end

