-- ==== Sys2Proof/Machine/Tap.lean ====
section
/-! DEFINITION. The test access port (R598).  The operation table has no row for its pins (log entry 3). -/

namespace Sys2Proof.Machine

/-- IDCODE (R598). -/
def idcode : Nat := 0x091605EB

/-- Bits of the data register that an instruction selects; of a boundary-scan or a debug instruction the spec gives none. -/
def TapInstr.length : TapInstr → Option Nat
  | .bypass => some 1
  | .idcode => some 32
  | .boundaryScan | .debug => none

/-- Does the instruction work?  Debug instructions do only while STARTER_STATE.DEBUG is 1, the others in every life-cycle state. -/
def State.tapWorks (s : State) (i : TapInstr) : Bool := i != .debug || s.on R.STARTER_STATE_DEBUG

/-- An instruction is loaded: one that does not work is taken as BYPASS (log entry 3). -/
def State.tapLoad (s : State) (i : TapInstr) : State := { s with tap := { instr := if s.tapWorks i then i else .bypass } }

/-- Capture: the register selected takes 0 for BYPASS and IDCODE for IDCODE, least significant bit first out; the cells of the others come
from outside the spec. -/
def State.tapCapture (s : State) (cells : List Bool) : State :=
  { s with tap := { s.tap with dr := match s.tap.instr with
    | .bypass => [false]
    | .idcode => (List.range 32).map (natBit idcode)
    | .boundaryScan | .debug => cells } }

/-- Shift: the bit that TDO shows leaves, and TDI comes in at the other end. -/
def State.tapShift (s : State) (tdi : Bool) : State := { s with tap := { s.tap with dr := s.tap.dr.drop 1 ++ [tdi] } }

end Sys2Proof.Machine
end

