-- ==== Sys2Proof/Laws/KeepsTap.lean ====
section
/-! SUPPORT. The operations of Machine/Tap.lean break nothing (`Keeps`). -/

set_option linter.unusedSimpArgs false

namespace Sys2Proof.Machine

theorem State.tapLoad_keeps {s0 : State} (s : State) (i : TapInstr) (h : Keeps s0 s) :
    Keeps s0 (State.tapLoad s i) := by
  unfold State.tapLoad
  repeat' first
    | with_reducible assumption
    | simp -zeta only [Keeps.mk_iff]

theorem State.tapCapture_keeps {s0 : State} (s : State) (cells : List Bool) (h : Keeps s0 s) :
    Keeps s0 (State.tapCapture s cells) := by
  unfold State.tapCapture
  repeat' first
    | with_reducible assumption
    | (extract_lets +onlyGivenNames x; clear_value x; revert x; intro _)
    | simp -zeta only [Keeps.mk_iff]

theorem State.tapShift_keeps {s0 : State} (s : State) (tdi : Bool) (h : Keeps s0 s) :
    Keeps s0 (State.tapShift s tdi) := by
  unfold State.tapShift
  repeat' first
    | with_reducible assumption
    | (extract_lets +onlyGivenNames x; clear_value x; revert x; intro _)
    | simp -zeta only [Keeps.mk_iff]

end Sys2Proof.Machine
end

