-- ==== Sys2Proof/Laws/MacFrame.lean ====
section
/-! SUPPORT. What the MAC reads of a received frame. -/

namespace Sys2Proof.Machine

/-- The frame a context received is what its PSDU says. -/
theorem State.rxFrame_reads (s : State) (n k : Nat) (c : Ctx) (air : RxAir) (p : List Octet) (h : c.psdu (s.decoder n k) air.octets = p) :
    (s.rxFrame n k c air).psdu = p ∧ (s.rxFrame n k c air).fcs4 = c.fcs4 ∧ (s.rxFrame n k c air).fcsOk = fcsGood c.fcs4 p
      ∧ (s.rxFrame n k c air).level = (readFrame c.fcs4 p).level := by
  subst h; exact ⟨rfl, rfl, rfl, rfl⟩

/-- The PSDU of an uncoded frame that is not whitened is what was demodulated. -/
theorem Ctx.psdu_plain (c : Ctx) (d : Decoder) (air : List Octet) (hc : c.code = none) (hs : c.seed = none) :
    c.psdu d air = air.take c.len := by
  simp [Ctx.psdu, hc, Ctx.dewhiten, hs, packBits_sentBits]

end Sys2Proof.Machine
end

