-- ==== Sys2Proof/Machine/Package.lean ====
section
/-! DEFINITION. The balls of the package (R588 to R591): names, SerDes lanes and signal balls.  None of this is state. -/

namespace Sys2Proof.Machine

/-- The letters of ball rows: I, O, Q, R, S, X and Z are left out (R588). -/
def rowLetters : List String := ["A", "B", "C", "D", "E", "F", "G", "H", "J", "K", "L", "M", "N", "P", "T", "U", "V", "W", "Y"]

/-- The name of a row, 0 to 46 from the top (R588). -/
def rowName (r : Nat) : String := ["", "A", "B"].getD (r / 19) "" ++ rowLetters.getD (r % 19) ""

/-- A ball: its row, 0 to 46, and its column, 1 to 47. -/
structure Ball where
  row : Nat
  col : Nat
  deriving DecidableEq, Repr

/-- The name of a ball (R588). -/
def Ball.name (b : Ball) : String := rowName b.row ++ toString b.col

/-- The row of a name's letters. -/
def rowOf (letters : String) : Nat := ((List.range 47).find? fun r => rowName r == letters).getD 47

/-! ## SerDes lanes (R590) -/

/-- Balls of a SerDes lane: the transmit or the receive pair, P or N. -/
def serdesBall (lane : Nat) (tx p : Bool) : Ball :=
  ⟨(if tx then 0 else 4) + (if lane % 2 = 0 then 0 else 2), (if p then 8 else 9) + 2 * lane⟩

/-- Whose lane it is: a port and its physical lane, or none for a lane of PCIe (R590). -/
def laneOwner (lane : Nat) : Option (Nat × Nat) :=
  if lane < 8 then some (lane / 4, lane % 4) else if lane < 16 then some (lane - 6, 0) else none

/-! ## Signal balls (R591) -/

/-- What a ball is until the retained configuration is applied (R591). -/
inductive BallReset where
  | input
  | pullUp
  | pullDown
  | highZ
  | low
  | high
  /-- an analog ball, or one that the table gives no such state -/
  | analog
  deriving DecidableEq, Repr

/-- A signal ball; `out`: the device can drive it. -/
structure Signal where
  name : String
  ball : Ball
  out : Bool
  reset : BallReset
  deriving DecidableEq, Repr

/-- A signal at a row named by letters. -/
def sig (name row : String) (col : Nat) (out : Bool) (reset : BallReset) : Signal := ⟨name, ⟨rowOf row, col⟩, out, reset⟩

/-- The GPIO balls. -/
def gpioSignals : List Signal := (List.range 48).map fun k =>
  ⟨"GPIO" ++ toString k, ⟨9 + k % 24, 46 + k / 24⟩, true, if k = 24 then .pullUp else .pullDown⟩

/-- The serial ports: management SPI, boot NOR, test access port. -/
def serialSignals : List Signal :=
  [sig "SPI_SCK" "K" 45 false .input, sig "SPI_CS_N" "L" 45 false .pullUp, sig "SPI_MOSI" "M" 45 false .input,
   sig "SPI_MISO" "N" 45 true .highZ, sig "SPI_IRQ_N" "P" 45 true .highZ, sig "QSPI_SCK" "T" 45 true .low,
   sig "QSPI_CS_N" "U" 45 true .high, sig "QSPI_IO0" "V" 45 true .pullUp, sig "QSPI_IO1" "W" 45 true .pullUp,
   sig "QSPI_IO2" "Y" 45 true .pullUp, sig "QSPI_IO3" "AA" 45 true .pullUp, sig "TCK" "AB" 45 false .input,
   sig "TMS" "AC" 45 false .pullUp, sig "TDI" "AD" 45 false .pullUp, sig "TDO" "AE" 45 true .highZ, sig "TRST_N" "AF" 45 false .pullDown]

/-- Resets, references, time, and Proofer's balls. -/
def systemSignals : List Signal :=
  [sig "RST_N" "AG" 45 false .pullUp, sig "PERST_N" "AH" 45 false .input, sig "DFT_EN" "AJ" 45 false .pullDown,
   sig "REF40_IN" "K" 44 false .analog, sig "XTAL32_IN" "M" 44 false .analog, sig "XTAL32_OUT" "N" 44 true .analog,
   sig "TENM_IN" "T" 44 false .input, sig "PPS_IN" "V" 44 false .input, sig "PPS_OUT" "Y" 44 true .low, sig "REF_TUNE" "AB" 44 true .analog,
   sig "PRF_SEAL_TXD" "AD" 44 true .high, sig "PRF_SEAL_RXD" "AE" 44 false .pullUp, sig "PRF_VMON" "AF" 44 true .analog,
   sig "TAMP_LID" "AH" 44 false .pullUp]

/-- The tamper mesh. -/
def meshSignals : List Signal :=
  [sig "TAMP_MO0" "AJ" 44 true .low, sig "TAMP_MO1" "AL" 44 true .low, sig "TAMP_MO2" "AN" 44 true .low, sig "TAMP_MO3" "AT" 44 true .low,
   sig "TAMP_MI0" "AK" 44 false .pullDown, sig "TAMP_MI1" "AM" 44 false .pullDown, sig "TAMP_MI2" "AP" 44 false .pullDown,
   sig "TAMP_MI3" "AU" 44 false .pullDown]

/-- The balls of the radio chains. -/
def radioSignals : List Signal := (List.range 4).flatMap fun n =>
  ((List.range 4).map fun k => sig ("FEM" ++ toString n ++ "_CTL" ++ toString k) "BC" (12 + 8 * n + k) true .low) ++
  [sig ("RF" ++ toString n ++ "_RXA") "BH" (12 + 8 * n) false .analog, sig ("RF" ++ toString n ++ "_RXB") "BH" (15 + 8 * n) false .analog,
   sig ("RF" ++ toString n ++ "_TX") "BF" (13 + 8 * n) true .analog]

/-- The signal balls of the device. -/
def signals : List Signal := gpioSignals ++ serialSignals ++ systemSignals ++ meshSignals ++ radioSignals

end Sys2Proof.Machine
end

