-- ==== Sys2Proof/Machine/Pins.lean ====
section
/-! DEFINITION. What the device drives on its balls and lines, as the registers and the state decide it (R140, R154, R178, R379, R574,
R591, R592, R601).  Nothing here is state: each level follows from State. -/

namespace Sys2Proof.Machine

/-- The level driven on GPIO pin k, 0 to 47: none while the pin is an input (R601, R602). -/
def State.gpioDriven (s : State) (k : Nat) : Option Bool :=
  let (dir, out) := if k < 32 then (R.GPIO_DIR0_OE, R.GPIO_OUT0_LEVEL) else (R.GPIO_DIR1_OE, R.GPIO_OUT1_LEVEL)
  if s.on ⟨dir.a, k % 32, 1⟩ then some (s.on ⟨out.a, k % 32, 1⟩) else none

/-- PPS_OUT is high while the pulse of a trigger channel with KIND 3 lasts (R140). -/
def State.ppsOut (s : State) : Bool := !s.trig.pulses.isEmpty

/-- The code on REF_TUNE (R178). -/
def State.refTune (s : State) : Nat := s.get R.RF0_OSC_TUNE_CODE

/-- The level of FEMn_CTLk (R154). -/
def State.femCtl (s : State) (n k : Nat) : Bool := natBit (s.femPattern n) k

/-- Port p sends remote fault in place of idles (R379). -/
def State.sendsRemoteFault (s : State) (p : Nat) : Bool := !s.on (R.PORT_LINK_UP p) && s.on (R.PORT_LF_CFG_TX_RF p)

/-- SPI_IRQ_N is low (R574): a page source whose map entry has SPI = 1 has its condition true; while PD13 is off, a flag enabled in
PWR_EVT_EN or TAMP_EVT_EN is set. -/
def State.spiIrq (s : State) : Bool :=
  if s.pdOn 13 then Block.all.any fun b => natBit (s.irqMap b.id) 6 && s.irqCond b
  else s.irqCond .pwr || s.irqCond .tamp

end Sys2Proof.Machine
end

