-- ==== Sys2Proof/Tests/Slice0.lean ====
section
/-! SUPPORT. Tests: ill-formed commands, states that meet the hypotheses of the statements, and single steps on small states.  Expected
values are those of the rules that the sections name. -/

open Sys2Proof Sys2Proof.Machine

set_option Elab.async false

/-! Commands the outside cannot send (Sys2Proof/WellFormed.lean), each beside one it can. -/

theorem test_wf_registerWrite : (Instr.registerWrite .spi 0x1002 2 0).wf = false ∧ (Instr.registerWrite .spi 0x1004 2 0).wf = true
    ∧ (Instr.registerWrite .spi 0x1004 3 0).wf = false := by decide
theorem test_wf_governorWindow : (Instr.governorWindow (List.replicate 11 0) 0).wf = false
    ∧ (Instr.governorWindow (List.replicate 12 0) 0).wf = true := by decide
theorem test_wf_feGainLoopBlock : (Instr.feGainLoopBlock 0 ⟨0, 0, false, false, List.replicate 80 (0, 0), []⟩).wf = false
    ∧ (Instr.feGainLoopBlock 0 ⟨0, 0, false, false, List.replicate 80 (0, 0), List.replicate 80 (0, 0)⟩).wf = true := by decide
theorem test_wf_preambleDetect : (Instr.preambleDetect 0 0 0 ⟨257, 0, 0, 0, 0, 0, 0⟩).wf = false
    ∧ (Instr.preambleDetect 0 0 0 ⟨0, 257, 0, 0, 0, 0, 0⟩).wf = false ∧ (Instr.preambleDetect 0 0 0 ⟨256, 256, 0, 0, 0, 0, 0⟩).wf = true := by
  decide
/-- A header of the given bits at the latest block. -/
def phrOf (l : List Bool) : PhyHeader := ⟨0x904E, 50, false, false, l, 0, 0, 0⟩
theorem test_wf_phrDecoded : (Instr.phrDecoded 0 0 (phrOf (List.replicate 15 false))).wf = false
    ∧ (Instr.phrDecoded 0 0 (phrOf (List.replicate 16 false))).wf = true ∧ (Instr.phrDecoded 0 0 (phrOf (List.replicate 30 false))).wf = true := by
  decide
/-- Octets heard on the air. -/
def airOf (l : List Octet) : RxAir := { octets := l, rssi := 0, snr := 0, cfo := 0, groups := [], keyLate := false }
theorem test_wf_receptionComplete : (Instr.receptionComplete 0 0 (airOf (List.replicate 2048 0))).wf = false
    ∧ (Instr.receptionComplete 0 0 (airOf (List.replicate 9 0))).wf = true := by decide +kernel
theorem test_wf_beaconRx : (Instr.beaconRx 0 0 (airOf (List.replicate 2048 0))).wf = false
    ∧ (Instr.beaconRx 0 0 (airOf (List.replicate 9 0))).wf = true := by decide +kernel
theorem test_wf_floodRx : (Instr.floodRx 0 0 (airOf (List.replicate 2048 0))).wf = false
    ∧ (Instr.floodRx 0 0 (airOf (List.replicate 9 0))).wf = true := by decide +kernel
theorem test_wf_slotPowerUpdate : (Instr.slotPowerUpdate 0 (List.replicate 63 0) (List.replicate 64 0)).wf = false
    ∧ (Instr.slotPowerUpdate 0 (List.replicate 64 0) (List.replicate 65 0)).wf = false
    ∧ (Instr.slotPowerUpdate 0 (List.replicate 64 0) (List.replicate 64 0)).wf = true := by decide
theorem test_wf_bar2Access : (Instr.bar2Access true 0 4 []).wf = false ∧ (Instr.bar2Access false 0 0 []).wf = false
    ∧ (Instr.bar2Access false 0 4 [1]).wf = false ∧ (Instr.bar2Access true 0 0 [1]).wf = true ∧ (Instr.bar2Access false 0 4 []).wf = true := by decide
theorem test_wf_spiWrite : (Instr.spiWrite 2 [0] 0 true).wf = false ∧ (Instr.spiWrite 4 [] 0 true).wf = false
    ∧ (Instr.spiWrite 4 (List.replicate 17 0) 0 true).wf = false ∧ (Instr.spiWrite 4 [0] 0 true).wf = true := by decide
theorem test_wf_spiRead : (Instr.spiRead 1 0 0).wf = false ∧ (Instr.spiRead 4 0 0).wf = true := by decide
theorem test_no_word_spells_a_command : ∀ w, w < 16 → decodeTableWord 8 w = none := fun _ _ => rfl

/-- The state after reset, changed. -/
def s0 : State := State.reset
/-! Hypotheses of the statements on the register pages. -/

def sPwrOff : State := s0.put R.PWR_STATE_DOMAINS 1
theorem test_off_hyps : (Instr.mapCheck .host 3).page = some (.host, .phy, 3) ∧ sPwrOff.hears .host = true ∧ sPwrOff.powered .phy = false := by decide
def sBusy : State := s0.put (R.H_STATUS_BUSY Block.phy.base) 1
theorem test_busy_hyps : sBusy.reaches .host .phy = true ∧ sBusy.busy .phy = true ∧ Instr.mapCheck .host 3 ≠ .abort .host .phy 3
    ∧ Instr.mapCheck .host 3 ≠ .fence .host .phy 3 ∧ Instr.mapCheck .host 3 ≠ .fabFence .host 3 := ⟨by decide, by decide, by simp, by simp, by simp⟩
def sFenced : State := s0.setGroupFence 44 true
theorem test_fenced_hyps : sFenced.reaches .host .phy = true ∧ sFenced.busy .phy = false ∧ sFenced.fenced .phy = true
    ∧ Instr.mapCheck .host 3 ≠ .commit .host .phy 3 ∧ Instr.mapCheck .host 3 ≠ .abort .host .phy 3 ∧ Instr.mapCheck .host 3 ≠ .fence .host .phy 3
    ∧ Instr.mapCheck .host 3 ≠ .unfence .host .phy 3 ∧ Instr.mapCheck .host 3 ≠ .ledgerSnapshot .host .phy 3
    ∧ Instr.mapCheck .host 3 ≠ .nop .host .phy 3 := ⟨by decide, by decide, by decide, by simp, by simp, by simp, by simp, by simp, by simp⟩
theorem test_evt_hyps : (regAt .pwr 0x40).isSome = true ∧ natBit (1 : BitVec 32).toNat 0 = true
    ∧ natBit (definedEvents .pwr).toNat 0 = true := by decide
/-- Sieve-E carries out a long operation with one row left, and shows a chunk. -/
def aRun : RunCmd := { op := 5, tag := 9, master := .host, unpaced := false, args := [0, 0, 0, 0], data := [], rows := [[1, 2]] }
def sLong (b : Block) (acked : Bool) : State :=
  ((s0.setBlk b fun x => { x with run := some aRun, part := some { chunk := 1, tag := 9, entries := [], acked := acked } }).put
    (R.H_STATUS_PART b.base) 1).put (R.H_STATUS_BUSY b.base) 1
theorem test_long_hyps : ∀ b ∈ [Block.peel, .dir, .rack, .sieve 0], (sLong b false).powered b = true
    ∧ ((sLong b false).blk b).run = some aRun
    ∧ ((sLong b false).blk b).part = some { chunk := 1, tag := 9, entries := [], acked := false }
    ∧ (sLong b false).on (R.H_STATUS_PART b.base) = true ∧ aRun.rows ≠ [] ∧ aRun.unpaced = false ∧ aRun.op ≠ opFlushPort ∧ aRun.op ≠ opCommit ∧ (sLong b false).pacing b = true
    ∧ (sLong b true).busy b = true ∧ (sLong b true).pacing b = false := by decide
def aSet : StagedSet := { epoch := 5, writes := [], device := false, rxDone := false }
def sLatched : State := s0.setBlk .phy fun x => { x with latched := some aSet, run := some { aRun with op := opCommit } }
theorem test_commit_hyps : sLatched.devCommit = none ∧ sLatched.atBoundary .phy = true ∧ (sLatched.blk .phy).deferred = false
    ∧ (sLatched.blk .phy).latched = some aSet ∧ sLatched.runOp .phy = some opCommit := by decide
def aDev : DevCommit := { epoch := 7, step := 9, applied := 0, deferred := 0 }
theorem test_device_commit_hyps : ({ s0 with devCommit := some aDev } : State).devCommit = some aDev ∧ 9 ≤ aDev.step := by decide
theorem test_fence_hyps : s0.argBits .fab 0 0 6 = 0
    ∧ (s0.setWord (Block.fab.base + 0x14) 24).argBits .fab 0 0 6 = 24 ∧ s0.ownerHolds 24 = false ∧ s0.busy .rack = false
    ∧ ({ s0.rack with tags := [(0, { owner := 24, inFlight := false, sop := true, eop := true, pool := 0 })] } : RackSt).tags ≠ []
    ∧ (s0.blk .rack).deferred = false ∧ s0.pdOn 3 = true ∧ (∀ g ∈ Block.phy.groups, s0.ownerHolds g = false) := by decide
/-! Hypotheses of the statements on the governor, the start-up, power states, resets and retained state. -/

theorem test_governor_hyps : s0.boot.configured = true ∧ s0.boot ≠ .hold ∧ s0.gov.burstWindows < 2 ∧ s0.govFloor = some 26 ∧ s0.govBoundary.govFloor = some 26
    ∧ (s0.put R.PWR_GOV_MODE_MODE 2).govBoundary.govFloor = none := by decide
/-- The receive FIFO of port 0 filled beyond half. -/
def sBurst : State := { s0 with bfifo := [(0, { wr := 129, wrSync := (gray 129, gray 129) })] }
theorem test_burst_hyps : sBurst.govFloor = some 26 ∧ sBurst.gov.ceil < 64 ∧ 128 < sBurst.bfifoLevel (rxBfifo 0) := by decide
theorem test_boot_hyps : ∀ b : Boot, ({ s0 with boot := b } : State).boot = b := fun _ => rfl
theorem test_rebuild_hyps : ({ s0 with boot := .planes } : State).ret.marker = none := by decide
theorem test_pf_hyps : s0.pdOn 0 = true ∧ s0.pfWarn = false ∧ (0 : BitVec 16).toNat < s0.get R.PWR_PF_THRESH_DV * 10
    ∧ s0.starter.op = none := by decide
def sPf : State := s0.put R.PWR_VIN_PF 1
theorem test_pf_clear_hyps : sPf.pfWarn = true ∧ sPf.get R.PWR_PF_THRESH_DV * 10 + 40 < (0xFFFF : BitVec 16).toNat
    ∧ sPf.ret.owed = none ∧ sPf.runOp .ret ≠ some opCkptFlush ∧ sPf.proof.logWait = [] ∧ sPf.proof.waiting = [] ∧ sPf.fwu.act = none ∧ sPf.fwu.phase ≠ 2
    ∧ sPf.runOp .fwu ≠ some opConfirm := by decide
theorem test_takes_hyps : ∀ b ∈ Block.all, s0.powered b = true ∧ s0.busy b = false ∧ s0.fenced b = false := by decide
theorem test_run_hyps : s0.inTransition = false ∧ s0.powerState = 0 ∧ s0.boot = .running := by decide
def sTrim : State := ((s0.put R.PWR_STATE_STATE 1).put R.PWR_TRIM_THRESH_DV 80).put R.PWR_TRIM_THRESH_AUTO_RUN 1
theorem test_trim_hyps : sTrim.powered .pwr = true ∧ sTrim.busy .pwr = false ∧ sTrim.fenced .pwr = false ∧ sTrim.inTransition = false
    ∧ sTrim.powerState = 1 ∧ sTrim.on R.PWR_TRIM_THRESH_AUTO_RUN = true
    ∧ sTrim.get R.PWR_TRIM_THRESH_DV * 10 + 100 < (901 : BitVec 16).toNat := by decide
theorem test_auto_trim_hyps : (s0.put R.PWR_TRIM_THRESH_DV 80).inTransition = false ∧ (s0.put R.PWR_TRIM_THRESH_DV 80).powerState = 0
    ∧ (799 : BitVec 16).toNat < (s0.put R.PWR_TRIM_THRESH_DV 80).get R.PWR_TRIM_THRESH_DV * 10 := by decide
theorem test_reset_device_hyps : (s0.setWord (Block.base .pwr + 0x14) 0xB007).arg .pwr 0 = 0xB007
    ∧ (s0.setWord (Block.base .pwr + 0x14) 0xB007).inTransition = false := by decide
theorem test_state_done_hyps : (s0.put R.PWR_STATE_TRANS 1).inTransition = true ∧ (s0.put R.PWR_STATE_TRANS 1).entering = false
    ∧ (s0.put R.PWR_STATE_TRANS 1).powerState = 0 ∧ s0.transmits 0 = false ∧ s0.transmits 1 = false
    ∧ (sTrim.put R.PWR_STATE_TRANS 1).inTransition = true ∧ (sTrim.put R.PWR_STATE_TRANS 1).powerState = 1 ∧ s0.wake = none := by decide
theorem test_wake_hyps : natBit ((s0.put R.PWR_WAKE_EN_SRC 15).get R.PWR_WAKE_EN_SRC) 3 = true
    ∧ s0.on ⟨R.GPIO_DIR0_OE.a, 24, 1⟩ = false := by decide
theorem test_reset_hyps : s0.boot.resettable = true ∧ s0.boot ≠ .tamperHold ∧ s0.devCommit = none
    ∧ ({ s0 with resetAsked := some 2 } : State).resetAsked = some 2 := by decide
theorem test_store_hyps : ({ s0 with ret := { storing := some true } } : State).ret.again = false ∧ s0.boot.opened = true
    ∧ s0.boot.hasDirectory = true ∧ mapGet ({ s0 with ret := { dirty := [(7, 0)] } } : State).ret.dirty (7 : BitVec 19).toNat = some 0
    ∧ ({ s0 with ret := { bcastDirty := true } } : State).ret.bcastDirty = true := by decide
theorem test_erase_hyps : (s0.setWord (Block.base .ret + 0x14) 0xFAC7).arg .ret 0 = 0xFAC7 := by decide
/-- A node synchronised, of unknown uncertainty. -/
def aNode : NodeEntry := (((0 : NodeEntry).put N.EUI 5).put N.STATE 1).put N.UNC 0xFFFF
def sRestore : State := { s0 with
  dir := { s0.dir with nodes := [(7, aNode)], work := [(0, .restore 7)] }
  peel := { s0.peel with items := [(0, { words := [], due := 0, seq := 0, st := .taken })] } }
theorem test_restore_hyps : (sRestore.restoreItems.find? fun p => p.2 == .restore (7 : BitVec 18).toNat
      && (match sRestore.item p.1 with | some it => it.st == .taken | none => false)) = some (0, .restore 7)
    ∧ sRestore.node (7 : BitVec 18).toNat = some aNode ∧ aNode.get N.STATE = 1 ∧ aNode.get N.UNC = 0xFFFF := by decide
/-- An SA of a port. -/
def anSa (tx : Bool) (p : Nat) : SaEntry :=
  .mk (List.replicate 16 0) (List.replicate 16 0) 1 0 0 1 0xFFFFFFFF tx 0 p false false 0 0 0 0 0 0
def sSwait : State := { s0.put (R.RET_SWAIT_ACTIVE 0) 1 with crust := { sas := [(0, anSa true 0), (1, anSa false 0)] } }
theorem test_swait_hyps : sSwait.swait 0 = true ∧ sSwait.secured 0 = true ∧ sSwait.powered (.port 0) = true
    ∧ sSwait.on R.STARTER_STATE_ROOT_BAD = false := by decide
/-! Hypotheses of the statements on the time base and the trigger channels. -/

def sTb : State := { s0 with tb := { s0.tb with okAt := [some 0, none, none], qualified := [true, false, false], ppsFifo := [5] }
                             trig := { s0.trig with fifo := [6] } }
theorem test_stamp_hyps : sTb.powered .tb = true ∧ sTb.tb.ppsFifo = [5] ∧ s0.tb.ppsFifo = [] ∧ sTb.powered .trig = true ∧ sTb.trig.fifo = [6]
    ∧ s0.trig.fifo = [] ∧ s0.tb.ppsFifo.length < 16 := by decide
def sAcquire : State := ((sTb.put R.TB_SRC_EN_PTP 1).put R.TB_STATE_SRC 1).put R.TB_STATE_MODE 1
theorem test_source_hyps : nth sAcquire.tb.okAt 0 none = some 0 ∧ sAcquire.pdOn 0 = true ∧ sAcquire.srcEnabled 0 = true ∧ sAcquire.tbMode = 1
    ∧ sAcquire.get R.TB_STATE_SRC = 1 ∧ sAcquire.tb.okAt.length = 3 ∧ nth sAcquire.tb.qualified 0 false = true ∧ sAcquire.ret.marker = none
    ∧ natBit (5 : BitVec 32).toNat 0 = true ∧ natBit (5 : BitVec 32).toNat 2 = true ∧ natBit (3 : BitVec 32).toNat 2 = false
    ∧ sAcquire.powered .tb = true ∧ sAcquire.on R.TB_STATE_REF_LOST = false
    ∧ (sAcquire.put R.TB_SRC_EN_TENM 1).on R.TB_SRC_EN_TENM = true ∧ s0.tbMode ≠ 3 ∧ (s0.put R.TB_STATE_MODE 3).tbMode = 3 := by decide
theorem test_reference_hyps : s0.on R.TB_STATE_REF_LOST = false ∧ (s0.put R.TB_STATE_REF_LOST 1).on R.TB_STATE_REF_LOST = true := by decide
def sStep : State := (s0.setWord (Block.tb.base + 0x14) 7).setWord (Block.tb.base + 0x18) 100
theorem test_time_hyps : (sStep.arg .tb 2).toNat < 10 ^ 9 ∧ (7 : Int) ≠ 0 ∧ toSigned 32 (sStep.arg .tb 0).toNat = 7
    ∧ toSigned 64 ((s0.setWord (Block.tb.base + 0x14) 7 |>.arg .tb 0).toNat + (s0.arg .tb 1).toNat * 2 ^ 32) = 7
    ∧ 1 ≤ sStep.argBits .tb 1 0 9 ∧ sStep.argBits .tb 1 0 9 ≤ 500 ∧ sPwrOff.pdOn 4 = false
    ∧ (∀ n, n < 16 → sPwrOff.on (R.TRIG_CTL_ARM n) = false) := by decide
def aSlew : Slew := { neg := false, ppm := 100, total := 5, left := 5, carry := 0 }
theorem test_slew_hyps : ({ s0 with tb := { s0.tb with slew := some aSlew } } : State).tb.slew = some aSlew := by decide
/-- The slew is in progress as the page's command. -/
def sSlewRun : State := ({ s0 with tb := { s0.tb with slew := some aSlew } }.setBlk .tb fun x => { x with run := some { aRun with op := opSlew } }).put
  (R.H_STATUS_BUSY Block.tb.base) 1
theorem test_slew_run_hyps : sSlewRun.reaches .spi .tb = true ∧ sSlewRun.busy .tb = true ∧ sSlewRun.pacing .tb = false
    ∧ (sSlewRun.blk .tb).run = some { aRun with op := opSlew } ∧ sSlewRun.tb.slew = some aSlew ∧ aSlew.cut.left = 0
    ∧ ({ aSlew with total := 2000 * 2 ^ 40, left := 1500 * 2 ^ 40 } : Slew).cut.left = 500 * 2 ^ 40 := by decide
theorem test_trigger_hyps : bitsGet 4 4 (1 : BitVec 32) ≤ 6
    ∧ trigPairOk (bitsGet 4 4 (1 : BitVec 32)) (bitsGet 8 4 (1 : BitVec 32)) (s0.get (R.TRIG_PARAM_PARAM 0)) = true
    ∧ (s0.put (R.TRIG_TGT_TGT 0) 5).trigReached 0 (natBit (1 : BitVec 32).toNat 2) = false
    ∧ (s0.put (R.TRIG_CTL_ARM 0) 1).on (R.TRIG_CTL_ARM 0) = true ∧ (s0.put (R.TRIG_CTL_ARM 0) 1).trigReached 0 false = true
    ∧ s0.get (R.TRIG_CTL_KIND 0) = 0
    ∧ ((s0.put (R.TRIG_CTL_KIND 0) 3)).get (R.TRIG_CTL_KIND 0) = 3 := by decide
/-! Hypotheses of the statements on the radio chains. -/

theorem test_centre_hyps : 386400 ≤ bitsGet 0 22 (868000 : BitVec 32) ∧ bitsGet 0 22 (868000 : BitVec 32) ≤ 1013600
    ∧ 2406400 ≤ bitsGet 0 22 (2440000 : BitVec 32) ∧ bitsGet 0 22 (2440000 : BitVec 32) ≤ 2477100 := by decide
def sRf (st : Nat) : State := (s0.put (R.RF_STATE_STATE 0) st).put (R.RF_CTL_EN 0) 1
theorem test_rf_hyps : ∀ x ∈ [rfOff, rfCal, rfSettle, rfRx, rfUp, rfTx, rfDown], (sRf x).rfState 0 = x ∧ (sRf x).rfPowered 0 = true
    ∧ (sRf x).on (R.RF_STATE_LOCKED 0) = false ∧ (sRf x).on (R.RF_STATE_RETUNE_PEND 0) = false ∧ (sRf x).on (R.RF_CTL_EN 0) = true
    ∧ (sRf x).on (R.RF_STATE_FAULT 0) = false ∧ (sRf x).on R.TB_STATE_REF_LOST = false ∧ (sRf x).fwu.unloaded.contains 1 = false
    ∧ (sRf x).confirmedRx 0 = false ∧ ((sRf x).put (R.RF_STATE_RETUNE_PEND 0) 1).on (R.RF_STATE_RETUNE_PEND 0) = true
    ∧ (sRf x).on (R.RF_STATE_OUT_OF_SLICE 0) = false ∧ (sRf x).policyOk 0 = true ∧ (sRf x).on R.RF0_XTX_FORBID = false
    ∧ (sRf x).on (R.RF_TX_CFG_DEFER_RX 0) = false := by decide
theorem test_settle_hyps : ∀ w : Settle, ({ sRf rfSettle with rf := [(0, { settle := some w, secondTry := true })] } : State).chain 0
    = { settle := some w, secondTry := true } := fun _ => rfl
/-- A job of an item of producer 0 without a flow, on allocation 0, power entry 0. -/
def anItem : Item := { words := [0x40000#32, 0, 0, 0, 0, 0, 0x8000000#32, 0, 0], due := 0, seq := 0, st := .taken }
def aJob : ChainJob := { id := 0, ts := 1000000, tl := 2000000, trig := false, released := true }
def sJob (st : Nat) (j : ChainJob) (it : ItemSt) : State := { (sRf st).setWord (R.RF_PTAB_BIAS 0 0).a 0x80000000 with
  rf := [(0, { jobs := [j] })], peel := { s0.peel with items := [(0, { anItem with st := it })] } }
theorem test_take_hyps : ((sJob rfRx aJob .ready).chain 0).jobs.length < 2 ∧ (sJob rfRx aJob .ready).credit 138 = true
    ∧ ((sJob rfRx aJob .ready).takeReady 0).isSome = true := by decide
theorem test_ramp_hyps : ((sJob rfRx aJob .taken).chain 0).jobs = [aJob] ∧ (sJob rfRx aJob .taken).rfState 0 = rfRx
    ∧ (sJob rfRx aJob .taken).on (R.RF_STATE_OUT_OF_SLICE 0) = false
    ∧ (sJob rfRx aJob .taken).jobInSlice 0 ((sJob rfRx aJob .taken).jobItem aJob) = true ∧ (sJob rfRx aJob .taken).policyOk 0 = true
    ∧ max aJob.ts ((sJob rfRx aJob .taken).lin + (sJob rfRx aJob .taken).leadRamp 0) ≤ aJob.tl
    ∧ ((sJob rfRx aJob .taken).jobItem aJob).producer = 0 ∧ ((sJob rfRx aJob .taken).jobItem aJob).flow = 262144
    ∧ natBit ((sJob rfRx aJob .taken).word (R.RF_PTAB_BIAS 0 (min ((sJob rfRx aJob .taken).jobItem aJob).jobPwr
        ((sJob rfRx aJob .taken).get (R.RF_TX_CFG_PWR_MAX 0)))).a).toNat 31 = true
    ∧ (sJob rfDown aJob .taken).on (R.RF_STATE_RETUNE_PEND 0) = false ∧ (sJob rfRx aJob .taken).transmits 0 = false := by decide
theorem test_can_send_hyp : (sJob rfRx aJob .taken).canSend 0 aJob := by
  have h : ∀ s : State, s.frameCounter ((sJob rfRx aJob .taken).jobItem aJob) false = (s, .ok 0) := fun _ => rfl
  exact ⟨by decide, .inl ⟨by decide, by decide⟩, _, 0, h _⟩
def aTrigJob : ChainJob := { aJob with trig := true, released := false }
theorem test_late_hyps : (((sJob rfRx aTrigJob .taken).chain 0).jobs.find? fun j => j.trig && !j.released) = some aTrigJob
    ∧ ((sJob rfRx aJob .taken).chain 0).firstLate = some aJob ∧ aJob ∈ ((sJob rfRx aJob .taken).chain 0).jobs := by decide
def aCal : CalRun := ⟨[0], 0, false, false⟩
def sCal : State := { (sRf rfCal).put (R.RF_CAL_STAT_PEND 0) 1 with rf := [(0, { cal := some aCal, restore := some (5, 0), jobs := [aJob], again := [(0, 0)] })] }
theorem test_cal_hyps : (sCal.chain 0).cal = some aCal ∧ aCal.next sCal.lin = some (250000, 10000, [0]) ∧ sCal.rfState 0 = rfCal
    ∧ sCal.calYields 0 (250000, 10000, [0]) = true ∧ (sCal.chain 0).restore = some (5, 0)
    ∧ ((sRf rfRx).put (R.RF_CAL_STAT_PEND 0) 1).calAllowed 0 = true ∧ ((sRf rfRx).put (R.RF_CAL_STAT_PEND 0) 1).calsDue 0 ≠ [] := by decide
def sAgain : State := { sRf rfRx with rf := [(0, { again := [(0, 0)] })], tb := { s0.tb with L := linOfNs 50000000 } }
theorem test_again_hyps : (0, 0) ∈ (sAgain.chain 0).again ∧ (0 : Nat) + 50000000 ≤ sAgain.lin ∧ sAgain.calAllowed 0 = true :=
  ⟨by decide, by decide +kernel, by decide +kernel⟩
theorem test_osc_hyps : (s0.put R.TB_STATE_MODE 2).tbMode = 2 ∧ s0.rfPowered 0 = true := by decide
theorem test_cal_run_hyps : bitList (((sRf rfRx).setWord (Block.base (.rf 0) + 0x14) 1).argBits (.rf 0) 0 0 3) 3 ≠ [] := by decide
theorem test_xtx_hyps : natBit (1 : BitVec 32).toNat 0 = true ∧ natBit (1 : BitVec 32).toNat 1 = false ∧ (s0.chain 0).jobs = [] := by decide
/-! Hypotheses of the statements on wideband reception, the PHY and mesh access. -/

def aMark : Mark := { id := 4, alloc := 2, type := 1, corr0 := 9, corr1 := 8, at_ := 0, stamp := 0, feg0 := 0, feg1 := 0, dagc := 0, stale := false }
def aCtx (conf : Bool) : Ctx := { mark := aMark, chan := 0, mcsEn := 0, fskCfg := 0, crumbCfg := 0, policy := 0, antMode := 0, stamp := 0,
                                  confirmed := conf, crumb := conf, looked := if conf then some none else none }
def sWb : State := { (((sRf rfRx).put (R.WB_CHAN_EN 0 2) 1).put (R.WB_CHAN_TYPES 0 2) 2).put (R.WB_CHAN_LIMIT 0 2) 3 with
  wb := [(0, { ctxs := [(1, aCtx false), (3, aCtx true)], marks := [aMark] })] }
theorem test_sample_hyps : sWb.powered (.wb 0) = true ∧ sWb.groupFenced 36 = false ∧ sWb.groupFenced 37 = false ∧ 3 ≤ sWb.get (R.RF_STATE_STATE 0)
    ∧ (sWb.put (R.WB_FE_CFG_MANUAL 0) 1).on (R.WB_FE_CFG_MANUAL 0) = true
    ∧ (sWb.put (R.WB_FE_CFG_MANUAL 0) 0).on (R.WB_FE_CFG_MANUAL 0) = false ∧ (sWb.wbOf 0).capture = none := by decide
def sCap : State := (s0.setWord (Block.base (.wb 0) + 0x14) 0xFFFFFFFF).setWord (Block.base (.wb 0) + 0x18) 2000
theorem test_capture_hyps : -1950 ≤ toSigned 32 (sCap.arg (.wb 0) 0).toNat ∧ toSigned 32 (sCap.arg (.wb 0) 0).toNat ≤ 0
    ∧ 1 ≤ (sCap.arg (.wb 0) 1).toNat ∧ (sCap.arg (.wb 0) 1).toNat ≤ 2000 := by decide
def sCapEnd : State := { s0.setBlk (.wb 0) fun x => { x with run := some { aRun with op := 2 } } with wb := [(0, { capture := some ⟨0, 0, 5, true⟩ })] }
theorem test_capture_done_hyps : (sCapEnd.wbOf 0).capture = some ⟨0, 0, 5, true⟩ ∧ sCapEnd.runOp (.wb 0) = some 2 := by decide
def aDetection : Detection := ⟨255, 0, 127, 0, 10, 9, 0⟩
def sSeek : State := { sWb with wb := [(0, { marks := [aMark] })] }
theorem test_detect_hyps : sSeek.watches 0 2 1 = true ∧ sSeek.detects 0 1 aDetection = true ∧ (sSeek.wbOf 0).ring = [] ∧ (sSeek.wbOf 0).ofAlloc 2 = []
    ∧ sSeek.on (R.WB_RESTART_EN 1) = s0.on (R.WB_RESTART_EN 1) ∧ (sSeek.put (R.WB_RESTART_EN 0) 0).on (R.WB_RESTART_EN 0) = false
    ∧ (sSeek.wbOf 0).allocHeld 2 ≤ sSeek.ap (R.WB_CHAN_LIMIT 0 2) ∧ (sSeek.wbOf 0).freeCtx = some 0
    ∧ sSeek.markLeft 0 aMark = 2000000 := by decide
/-- Context 1 acquires; context 3 is confirmed or not; allocation 2 is at its limit, or beyond it. -/
def sPair (conf : Bool) (limit : Nat) : State := { sWb.put (R.WB_CHAN_LIMIT 0 2) limit with
  wb := [(0, { ctxs := [(1, aCtx false), (3, aCtx conf)], marks := [aMark] })], applied := [] }
theorem test_more_detect_hyps : (sSeek.wbOf 0).allocConfirmed 2 = false ∧ ((sPair false 3).wbOf 0).allocConfirmed 2 = false
    ∧ (sPair false 3).watches 0 2 1 = true ∧ ((sPair false 3).put (R.WB_RESTART_EN 0) 1).on (R.WB_RESTART_EN 0) = true
    ∧ ((sPair false 3).wbOf 0).allocHeld 2 ≤ (sPair false 3).ap (R.WB_CHAN_LIMIT 0 2)
    ∧ ((sPair false 3).wbOf 0).restartee 2 30 (2 * ((sPair false 3).put (R.WB_RESTART_EN 0) 1).get (R.WB_RESTART_MARGIN 0)) = some (1, aCtx false)
    ∧ (sPair true 1).ap (R.WB_CHAN_LIMIT 0 2) < ((sPair true 1).wbOf 0).allocHeld 2 ∧ (sPair true 1).watches 0 2 1 = true := by decide
theorem test_context_end_hyps : (aCtx false).antMode = 0 ∧ (aCtx false).ant = none
    ∧ (sWb.put (R.WB_ANT_SEL 0) 4).get (R.WB_ANT_SEL 0) ≤ [1, 2, 3, 4].length
    ∧ (sWb.setGroupFence 36 true).groupFenced 36 = true ∧ (sWb.setGroupFence 36 true).ringEnd 0 < (aCtx false).mark.at_.toNat / 2 ^ 40 + sWb.headerLimit 0 1 true
    ∧ (∃ m ∈ (sWb.wbOf 0).marks, m.id = (4 : BitVec 16).toNat) := by decide
def goodPhr : PhyHeader := ⟨0x904E, 100, false, false, List.replicate 5 false ++ msbBits 11 5, 0, 0, 0⟩
theorem test_ctx_hyps : sWb.ctx 0 1 = some (aCtx false) ∧ sWb.ctx 0 3 = some (aCtx true) ∧ ((aCtx false).readPhr goodPhr).isSome = true
    ∧ (aCtx false).readPhr { goodPhr with bits := List.replicate 16 false } = none ∧ sWb.on (R.WB_REPLAY_CFG_ON_FCS 1) = s0.on (R.WB_REPLAY_CFG_ON_FCS 1)
    ∧ (sWb.put (R.WB_REPLAY_CFG_ON_FCS 0) 0).on (R.WB_REPLAY_CFG_ON_FCS 0) = false ∧ sWb.pdOn 4 = true ∧ sWb.groupFenced 44 = false
    ∧ ((sWb.pool 0).filter fun x => x.ctx == 1).length < 2 ∧ sWb.phy.pools.length = 4 ∧ sWb.fenced .dir = false := by decide
def sReplay : State := sSeek.setWord (Block.base (.wb 0) + 0x14) 4
theorem test_replay_hyps : ((sReplay.wbOf 0).marks.find? fun k => k.id == sReplay.argBits (.wb 0) 0 0 16) = some aMark
    ∧ sReplay.argBits (.wb 0) 1 0 2 ≠ 3 ∧ aMark.stale = false ∧ 50000 ≤ sReplay.markLeft 0 aMark ∧ (sReplay.wbOf 0).freeCtx = some 0 := by decide
/-- A received frame of EUI 5 without security. -/
def aRxFrame : RxFrame :=
  { fcsOk := true, src := some 5, level := 0, keyMode := 0, noCounter := false, keyIndex := 0, fc := 0, ackReq := false, seq := none
    isAck := false, csl := none, airNs := 0, rssi := 0, snr := 0, cfo := 0, groups := [], keyLate := false, fcs4 := true, psdu := [] }
def aRec : WbRec := { (aCtx true).toRec 3 with policy := 1, handle := some 7, frame := some aRxFrame, item := some 0 }
def sRec : State := { ((((s0.setLink 10 fun k => { k with producer := 8 }).put (R.HOST_MAP_CHAIN_VALID 0) 1).put (R.HOST_MAP_CHAIN_Q 0) 0).put (R.HOST_Q_STATE_STATE 0) 1).put R.MAC_SEC_POLICY_RX_ACCEPT 1 with
  wb := [(0, { recs := [(0, aRec), (1, { aRec with result := some 4, cells := [9] })] })]
  dir := { s0.dir with nodes := [(7, aNode)] }
  peel := { s0.peel with items := [(0, anItem)] }
  applied := [] }
theorem test_record_hyps : sRec.wrec 0 0 = some aRec ∧ aRec.handle = some 7 ∧ aRec.frame = some aRxFrame ∧ aRec.item = some 0 ∧ aRec.result = none
    ∧ sRec.item 0 = some anItem ∧ anItem.st = .taken ∧ sRec.fenced .mac = false ∧ sRec.node 7 = some aNode
    ∧ aRxFrame.src = some (BitVec.ofNat 64 (aNode.get N.EUI)) ∧ (sRec.secure 7 aNode aRxFrame aRec.policy).2 = 0 := by decide
theorem test_deliver_hyps : sRec.wrec 0 1 = some { aRec with result := some 4, cells := [9] } ∧ sRec.on (R.HOST_MAP_CHAIN_VALID 0) = true
    ∧ sRec.get (R.HOST_MAP_CHAIN_Q 0) = 0 ∧ sRec.descsOf 0 (recOctets 0) ≤ sRec.hostCredit 0 := by decide
def sPool : State := { sWb with phy := { s0.phy with pools := [[⟨1, true, [], 0, 0⟩], [], [], []], snr := [[1]] } }
theorem test_pool_hyps : (sPool.pool 0).find? (fun x => x.ctx == 1 && x.active) = some ⟨1, true, [], 0, 0⟩ ∧ sPool.phy.pools.length = 4 ∧ sPool.phy.snr = [[1]] := by decide
def anAim : AimState := { node := 7, due := 0, full := true, sentEnd := some 5, returned := true }
def sAim : State := { s0 with mac := { s0.mac with aims := [(0, anAim)] }, peel := { s0.peel with items := [(0, { anItem with st := .aiming })] }
                              rf := [(0, { returned := [(0, 0, 0)] })] }
theorem test_aim_hyps : mapGet sAim.mac.aims 0 = some anAim ∧ sAim.ackOpen 7 (5 + sAim.get R.MAC_TRAIN_CFG_ACK_WAIT * 1000) = false
    ∧ sAim.item 0 = some { anItem with st := .aiming } ∧ sAim.pdOn 4 = true ∧ (sAim.chain 0).returned = [(0, 0, 0)]
    ∧ ({ anItem with st := .aiming } : Item).jobAim = false
    ∧ ({ anAim with full := false } : AimState).full = false ∧ anAim.acked = false
    ∧ ({ sAim with dir := { s0.dir with nodes := [(7, aNode)] } } : State).node anAim.node = some aNode := by decide
theorem test_predict_hyps : ({ s0 with dir := { s0.dir with nodes := [(0, aNode)] } } : State).node (s0.argBits .mac 0 0 18) = some aNode := by decide
/-- Contexts at a frame's end: of an uncoded frame without octets, whose FCS does not fit, and of one of nine octets with its FCS. -/
def aGoodFrame : List Octet := withFcs false (leOctets 2 1 ++ [7] ++ List.replicate 4 9)
def sEnd (c : Ctx) : State := { sWb with wb := [(0, { ctxs := [(3, c)], marks := [aMark] })] }
def anEnding (n : Nat) (looked : Option (Option Nat)) : Ctx := { aCtx true with crumb := false, len := n, fcs4 := false, looked := looked }
theorem test_frame_end_hyps : ((sEnd (anEnding 2 none)).rxFrame 0 3 (anEnding 2 none) (airOf [1, 2])).fcsOk = false
    ∧ ((sEnd (anEnding 9 none)).rxFrame 0 3 (anEnding 9 none) (airOf aGoodFrame)).fcsOk = true
    ∧ ((sEnd (anEnding 9 none)).rxFrame 0 3 (anEnding 9 none) (airOf aGoodFrame)).src = none
    ∧ (anEnding 9 (some (some 7))).looked = some (some 7) ∧ (anEnding 2 none).second = false ∧ (anEnding 2 none).mark.stale = false
    ∧ (anEnding 2 none).antMode = 0 ∧ ((sEnd (anEnding 2 none)).put (R.WB_REPLAY_CFG_ON_FCS 0) 1).on (R.WB_REPLAY_CFG_ON_FCS 0) = true
    ∧ (sEnd (anEnding 9 none)).ctx 0 3 = some (anEnding 9 none) ∧ (sEnd (anEnding 9 none)).groupFenced 36 = false := by decide +kernel
theorem test_lookup_hyps : ({ aCtx true with looked := none } : Ctx).confirmed = true ∧ (s0.lookupEui 5 0).2.1 = none := by decide
/-! Hypotheses of the statements on beacons, floods and Peel. -/

def sBcn : State := ((sWb.put (R.BCN_CELL_EN 2) 1).put R.BCN_PARENT_VALID 1).put R.BCN_PARENT_MISSES 2
theorem test_beacon_hyps : sBcn.pdOn 4 = true ∧ sBcn.apOn (R.BCN_CELL_EN 2) = true ∧ sBcn.fenced .bcn = false ∧ sBcn.apOn (R.WB_CHAN_EN 0 2) = true
    ∧ sBcn.on R.BCN_PARENT_VALID = true ∧ sBcn.get R.BCN_PARENT_MISSES = 2 ∧ sBcn.ctx 0 3 = some (aCtx true)
    ∧ (sBcn.put R.BCN_CFG_SEC_LEVEL 0).get R.BCN_CFG_SEC_LEVEL = 0 ∧ sBcn.powered .bcn = true := by decide
def aPeer : Peer := { rid := 9, stratum := 1, hold := false, parent := 0, rssi := 0, stamp := 0, heard := 0, offset := 0, interval := 1, beacon := true, counter := 0 }
def sPeer : State := { s0 with bcn := { peers := [(0, aPeer)] } }
theorem test_peer_hyps : mapGet sPeer.bcn.peers 0 = some aPeer ∧ (sPeer.arg .bcn 0).toNat = 0
    ∧ ({ sBcn.put R.BCN_PARENT_RID 9 with bcn := { peers := [(0, aPeer)] } } : State).peerOf ((sBcn.put R.BCN_PARENT_RID 9).get R.BCN_PARENT_RID) = some (0, aPeer)
    ∧ (sBcn.openWithin ((sBcn.expected aPeer : Nat) - 5000000) (sBcn.expected aPeer + 5000000)) = false := by decide
def aSeen : SeenEntry := { origin := 1, seq := 2, firstNs := 0, copies := 1, pending := true, due := 0, ttl := 3, kind := 0, data := List.replicate 40 0 }
def aKey : KeySlot := { attrs := 0, count := 0, key := List.replicate 16 0 }
/-- The broadcast key is there; one identity is in the seen cache; cell 2 of chain 0 floods. -/
def sFlood : State := { (sWb.put (R.FLOOD_CELL_EN 2) 1).put R.FLOOD_CFG_K 2 with flood := { seen := [aSeen] } }
theorem test_flood_hyps : sFlood.seenOf 1 2 = some aSeen ∧ sFlood.fenced .flood = false ∧ (sFlood.put R.FLOOD_CFG_K 1).get R.FLOOD_CFG_K ≤ aSeen.copies
    ∧ aSeen.copies < sFlood.get R.FLOOD_CFG_K ∧ sFlood.floodCells ≠ [] ∧ sFlood.fenced .peel = false ∧ sFlood.flood.seen.length < 4096
    ∧ sFlood.seenOf 1 3 = none := by decide
/-- Arguments of a page. -/
def argsOf (b : Block) (l : List W32) (s : State) : State :=
  (List.range 4).foldl (fun s i => s.setWord (b.base + 0x14 + 4 * i) (nth l i 0)) s
def sOrig : State := argsOf .flood [0, 100, 0, 100] s0
theorem test_originate_hyps : 1 ≤ (sOrig.arg .flood 1).toNat ∧ (sOrig.arg .flood 1).toNat ≤ 1900 ∧ (sOrig.arg .flood 0).toNat + (sOrig.arg .flood 1).toNat ≤ 2 ^ 26
    ∧ 1 ≤ (sOrig.arg .flood 3).toNat ∧ (sOrig.arg .flood 3).toNat ≤ 1900 ∧ (sOrig.arg .flood 2).toNat + (sOrig.arg .flood 3).toNat ≤ 2 ^ 26
    ∧ sOrig.seenOf (sOrig.argBits .flood 0 0 14) (sOrig.argBits .flood 1 0 16) = none := by decide
def sDist : State := argsOf .flood [0, 100, 0x100000, 10] s0
theorem test_dist_hyps : (sDist.arg .flood 0).toNat % 8 = 0 ∧ (sDist.arg .flood 1).toNat = 100 ∧ sDist.argBits .flood 2 16 11 = 16
    ∧ sDist.argBits .flood 3 0 16 = 10 := by decide
def aDistRun : RunCmd := { aRun with op := opDistStart, args := [0, 100, 0x100000, 10], data := [1] }
theorem test_gap_hyps : ((s0.setBlk .flood fun x => { x with run := some aDistRun }).blk .flood).run = some aDistRun ∧ nth aDistRun.data 0 0 = 1
    ∧ (aDistRun.arg 1).toNat = 100 ∧ bitsGet 16 11 (aDistRun.arg 2) = 16 := by decide
/-- A task for core 0 from the management SPI on a control flow, as posted. -/
def taskWord : W32 := BitVec.ofNat 32 (262144 + 3 * 2 ^ 24 + 5 * 2 ^ 28)
def sPost : State := s0.setWord (ownCopy .spi (R.PEEL_POST_W_WORD 0)).a taskWord
def aTask (st : ItemSt) : Item := { words := [taskWord], due := 0, seq := 0, st := st }
theorem test_post_hyps : sPost.powered .peel = true ∧ sPost.fenced .peel = false
    ∧ postOk (Master.idx .spi) { words := (List.range 16).map fun i => sPost.word (ownCopy .spi (R.PEEL_POST_W_WORD i)).a, due := 0, seq := 0, st := .delay } = true
    ∧ sPost.peelCredit (Master.idx .spi) ≠ 0 ∧ sPost.postCells 1 0 = some (sPost, []) ∧ (aTask .delay).type ≠ 0 ∧ (s0.setGroupFence 28 true).fenced .peel = true := by decide
def sTask (st : ItemSt) : State := { s0 with peel := { s0.peel with items := [(0, aTask st)], done := [(1, [⟨0, 0, 3, 0, 0, []⟩])] } }
theorem test_task_hyps : coreTarget (.core 0) = some 5 ∧ ((sTask .ready).takeReady 5).isSome = true ∧ (sTask .taken).item 0 = some (aTask .taken)
    ∧ (aTask .taken).target = 5 ∧ bitsGet 19 8 (0 : BitVec 32) ≤ 13 ∧ bitsGet 0 19 (0 : BitVec 32) = 0 ∧ s0.item 0 = none
    ∧ mapGetD (sTask .done).peel.done (Master.idx .spi) [] = [⟨0, 0, 3, 0, 0, []⟩] ∧ mapGetD s0.peel.done (Master.idx .spi) [] = [] := by decide
def anInline : Item := { words := [BitVec.ofNat 32 (262144 + 2 ^ 24 + 15 * 2 ^ 28), 0, 0x600], due := 0, seq := 0, st := .delay }
def sDue (l : AMap Item) : State := { s0 with peel := { s0.peel with items := l, blocked := [5] } }
theorem test_due_hyps : (sDue [(0, anInline)]).delayHead 10 = some (0, anInline) ∧ (sDue [(0, anInline)]).item 0 = some anInline
    ∧ (sDue [(0, anInline)]).peelRuns = true ∧ anInline.target = 15 ∧ (sDue [(0, anInline)]).flowHolder anInline.flow = none
    ∧ (sDue [(0, anInline)]).overtakes anInline = false
    ∧ ((sDue [(0, anInline), (1, { anInline with st := .taken })]).flowHolder anInline.flow).isSome = true
    ∧ (sDue []).peel.blocked.contains 5 = true ∧ (sDue []).readyRoom 5 = true ∧ (sDue []).peelRuns = true := by decide
/-- Peel at the due time of the item, after what came due before it. -/
def atDue (s : State) (it : Item) : State := (s.advanceTo (linOfTick it.due)).grantBefore it
theorem test_grant_hyps : (atDue (sDue [(0, anInline)]) anInline).item 0 = some anInline
    ∧ (atDue (sDue [(0, anInline)]) anInline).flowHolder anInline.flow = none ∧ (atDue (sDue [(0, anInline)]) anInline).overtakes anInline = false
    ∧ (atDue (sDue [(0, anInline)]) anInline).readyItems 9 = []
    ∧ (atDue (sDue [(0, anInline), (1, { anInline with st := .taken })]) anInline).item 0 = some anInline
    ∧ ((atDue (sDue [(0, anInline), (1, { anInline with st := .taken })]) anInline).flowHolder anInline.flow).isSome = true := by decide +kernel
theorem test_grant_task_hyps : (sTask .delay).delayHead (listOf (aTask .delay).target) = some (0, aTask .delay) ∧ (sTask .delay).pausedTarget 5 = false
    ∧ (atDue (sTask .delay) (aTask .delay)).item 0 = some (aTask .delay) ∧ (atDue (sTask .delay) (aTask .delay)).roomFor (aTask .delay) = true
    ∧ (atDue (sTask .delay) (aTask .delay)).readyItems 9 = [] ∧ (atDue (sTask .delay) (aTask .delay)).flowHolder (aTask .delay).flow = none
    ∧ (atDue (sTask .delay) (aTask .delay)).overtakes (aTask .delay) = false ∧ (sTask .delay).peelRuns = true := by decide +kernel
/-- The timers of a relay's delay and of a distribution's gap, as FLOOD posts them. -/
def aTimer (w4 gap : Nat) : Item := { words := (floodTaskWords 266112 0 0 w4 gap).set 2 0x800, due := 0, seq := 0, st := .delay }
def sTimer (w4 gap : Nat) : State := { sFlood with peel := { s0.peel with items := [(0, aTimer w4 gap)] } }
theorem test_timer_hyps : (sTimer (1 + 2 * 2 ^ 16) 0).timerReady (1 + 2 * 2 ^ 16) 0 0 (aTimer (1 + 2 * 2 ^ 16) 0)
    ∧ (sTimer 1 1).timerReady 1 1 0 (aTimer 1 1) := by
  refine ⟨⟨?_, ?_, ?_, ?_, ?_, ?_, ?_, ?_⟩, ?_, ?_, ?_, ?_, ?_, ?_, ?_, ?_⟩ <;> decide +kernel
theorem test_relay_hyps : ((sTimer (1 + 2 * 2 ^ 16) 0).flood.seen.find? fun x => x.origin + x.seq * 2 ^ 16 == 1 + 2 * 2 ^ 16 && x.pending) = some aSeen := by
  decide
def sPark : State := { sRf rfRx with peel := { s0.peel with items := [(0, { anItem with st := .parked })] } }
theorem test_park_hyps : (atDue sPark { anItem with st := .parked }).item 0 = some { anItem with st := .parked }
    ∧ (atDue sPark { anItem with st := .parked }).chainOff 0 = false ∧ (atDue sPark { anItem with st := .parked }).readyRoom 0 = true ∧
    sPark.delayHead 0 = some (0, { anItem with st := .parked }) ∧ sPark.pausedTarget 0 = false ∧ sPark.chainOff 0 = false
    ∧ sPark.readyRoom 0 = true := by decide +kernel
theorem test_cancel_hyps : (sTask .delay).item ((sTask .delay).argBits .peel 0 0 19) = some (aTask .delay) ∧ (aTask .delay).st.cancellable = true
    ∧ s0.item (s0.argBits .peel 0 0 19) = none ∧ s0.argBits .peel 0 0 19 < 266240 ∧ s0.argBits .peel 0 0 4 ≤ 10 ∧ s0.delayItems 0 = []
    ∧ sPark.delayItems 0 ≠ [] := by decide
/-- A context of chain 0 that has received a frame of n octets, uncoded. -/
def aRxCtx (n : Nat) : Ctx := { aCtx true with crumb := false, len := n, fcs4 := false }
/-- The broadcast key of generation 0 is in the Starter; a frame of node 5 under it carries identity 1, 2 or 1, 3. -/
def aFlood (seq : Nat) : List Octet :=
  withFcs false (protectFrame (netKey aKey.key 2 0) 5 5 1 0
    (leOctets 2 0xE941 ++ leOctets 2 0xFFFF ++ leOctets 2 0xFFFF ++ leOctets 8 5 ++ floodHeader 1 0 3 seq ++ [7, 8]))
def sHeard (seq : Nat) : State := { sFlood with
  starter := { sFlood.starter with slots := [(512, { aKey with count := 1 })] }
  wb := [(0, { ctxs := [(3, aRxCtx (aFlood seq).length)], marks := [aMark] })] }
theorem test_net_hyps : ((sHeard 2).floodHeard 0 3 (aRxCtx (aFlood 2).length) (airOf (aFlood 2))).map (·.1) = some (floodHeader 1 0 3 2 ++ [7, 8])
    ∧ ((sHeard 3).floodHeard 0 3 (aRxCtx (aFlood 3).length) (airOf (aFlood 3))).map (·.1) = some (floodHeader 1 0 3 3 ++ [7, 8])
    ∧ (sHeard 2).ctx 0 3 = some (aRxCtx (aFlood 2).length) ∧ (aRxCtx 1).confirmed = true ∧ (sHeard 2).pdOn 4 = true
    ∧ (sHeard 2).fenced .flood = false ∧ (sHeard 2).fenced .peel = false ∧ (sHeard 3).seenOf 1 3 = none ∧ (sHeard 2).seenOf 1 2 = some aSeen := by
  decide +kernel
/-- The octets of a beacon of node 5 with a block of the vendor, in the clear. -/
def aBlock : List Octet := List.replicate 40 1
def aBeacon : List Octet := withFcs false (leOctets 2 0xE340 ++ leOctets 8 5 ++ leOctets 2 0x3F00 ++ leOctets 2 (0x9000 + 43)
  ++ leOctets 3 Config.vendorOui.toNat ++ aBlock)
def sBeacon : State := { sBcn.put R.BCN_CFG_SEC_LEVEL 0 with wb := [(0, { ctxs := [(3, aRxCtx 59)], marks := [aMark] })] }
set_option maxRecDepth 100000 in
theorem test_beacon_heard : (sBeacon.beaconHeard 0 3 (aRxCtx 59) (airOf aBeacon)).map (·.1) = some aBlock := by
  have hp : (aRxCtx 59).psdu (sBeacon.decoder 0 3) aBeacon = aBeacon := packBits_sentBits _
  have hg : fcsGood false aBeacon = true := fcsGood_withFcs _ _
  have hr : readFrame false aBeacon = { hdr := ⟨0xE340, none, 2, 10⟩, aux := (readFrame false aBeacon).aux, ies := [], bodyAt := 12, bodyEnd := 57 } := by
    with_unfolding_all rfl
  have hl : leNat (leOctets 3 Config.vendorOui.toNat) = Config.vendorOui.toNat := by
    have := Config.vendorOui.isLt
    simp [leOctets, leNat]; omega
  have hb : (readFrame false aBeacon).block aBeacon = some aBlock := by
    rw [hr]
    have : payloadIes aBeacon.length (aBeacon.take 57) 12 = [(2, leOctets 3 Config.vendorOui.toNat ++ aBlock)] := by with_unfolding_all rfl
    have ht : (leOctets 3 Config.vendorOui.toNat ++ aBlock).take 3 = leOctets 3 Config.vendorOui.toNat := rfl
    have hn : (leOctets 3 Config.vendorOui.toNat ++ aBlock).length = 43 := rfl
    have hd : (leOctets 3 Config.vendorOui.toNat ++ aBlock).drop 3 = aBlock := rfl
    simp [ReadFrame.block, this, ht, hn, hd, hl, Mhr.type]
    decide
  have h0 : (readFrame false aBeacon).level = 0 := by rw [hr]; decide
  have hs : (sBeacon.get R.BCN_CFG_SEC_LEVEL == 0) = true := by decide
  obtain ⟨e1, e2, e3, e4⟩ := sBeacon.rxFrame_reads 0 3 (aRxCtx 59) (airOf aBeacon) aBeacon hp
  have e5 : (aRxCtx 59).fcs4 = false := rfl
  rw [e5] at e2 e3 e4
  rw [hg] at e3
  rw [h0] at e4
  simp [State.beaconHeard, State.netFrame, e1, e2, e3, e4, hb, hs]
/-! Hypotheses of the statements on the directory and Sieve. -/

def aNodeEntry : NodeEntry := 5
/-- Node 5 has handle 7, and the index names it. -/
def sDir : State := argsOf .dir [5, 0, 0, 0] { s0 with dir := { s0.dir with
  nodes := [(7, aNodeEntry)]
  buckets := [((Config.dirHash1 s0.dir.key 5).toNat, [some ⟨7, (Config.dirTag 5).toNat⟩, none, none, none])] } }
theorem test_dir_args : sDir.argEui = 5 ∧ sDir.node 7 = some aNodeEntry ∧ natBit (sDir.arg .dir 2).toNat 0 = false := by decide
theorem test_dir_candidates : ∃ l, sDir.candidates 5 = 7 :: l := by
  simp [State.candidates, State.bucket, State.h1, sDir, argsOf, State.setWord, mapGetD, mapGet, List.range, List.range.loop]
theorem test_dir_found : sDir.findEui 5 = some 7 := by
  obtain ⟨l, hl⟩ := test_dir_candidates
  have h : (aNodeEntry.get N.EUI == (5 : BitVec 64).toNat) = true := by decide
  unfold State.findEui
  rw [hl, List.find?_cons, test_dir_args.2.1]
  simp only [h]
/-- An insert of node 9 with handle 3. -/
def sDirNew : State := argsOf .dir [9, 0, 3, 0] s0
theorem test_dir_insert_hyps : sDirNew.takes .spi .dir ∧ sDirNew.argEui ≠ 0 ∧ sDirNew.findEui sDirNew.argEui = none
    ∧ natBit (sDirNew.arg .dir 2).toNat 31 = false ∧ sDirNew.argBits .dir 2 0 18 = 3 ∧ sDirNew.handleFree 3 = true
    ∧ sDirNew.freeWay (sDirNew.h1 sDirNew.argEui) = some 0 := ⟨⟨by decide, by decide, by decide⟩, by decide, by decide, by decide, by decide,
      by decide, by decide⟩
theorem test_dir_more_hyps : (argsOf .dir [7, 0, 1, 0] sDir).node ((argsOf .dir [7, 0, 1, 0] sDir).arg .dir 0).toNat = some aNodeEntry
    ∧ natBit ((argsOf .dir [7, 0, 1, 0] sDir).arg .dir 2).toNat 0 = true ∧ (sDir.arg .dir 0).toNat < 12
    ∧ sDir.nodesFrom (sDir.arg .dir 0).toNat = [(7, aNodeEntry)] ∧ (argsOf .dir [7, 0xFFC] sDir).argBits .dir 1 0 2 = 0
    ∧ sDir.fenced .peel = false := by decide
def anItemOf (st : ItemSt) : Item := { words := [BitVec.ofNat 32 (7 + 2 ^ 24 + 15 * 2 ^ 28), 0, 0x600], due := 0, seq := 0, st := st }
/-- The inline item of a directory command. -/
def sDirRun (st : ItemSt) (w : DirWork) : State := { sDir with
  dir := { sDir.dir with cmdItem := some 0, work := [(0, w)] }, peel := { s0.peel with items := [(0, anItemOf st)] } }
theorem test_dir_flow_hyps : (sDirRun .taken (.delete 7)).dir.cmdItem = some 0 ∧ (sDirRun .taken (.delete 7)).item 0 = some (anItemOf .taken)
    ∧ (anItemOf .taken).st = .taken ∧ mapGet (sDirRun .taken (.delete 7)).dir.work 0 = some (.delete 7)
    ∧ mapGet (sDirRun .taken (.update 7 0xC [])).dir.work 0 = some (.update 7 0xC []) ∧ natBit 0xC 0 = false ∧ natBit 0xC 1 = false
    ∧ (sDirRun .taken (.delete 7)).node 7 = some aNodeEntry ∧ (anItemOf .flowq).st ≠ .taken := by decide

/-- A layer-2 entry: MAC 5, FID 0, port 3, valid. -/
def anL2 : L2Entry := ((((0 : L2Entry).put L.MAC 5).put L.PORT 3).put L.VALID 1)
def sL2New : State := (List.range 4).foldl (fun s i => s.setWord (R.SIEVE_ENT_WORD 0 i).a (BitVec.ofNat 32 (natBits anL2.toNat (32 * i) 32)))
  (argsOf (.sieve 0) [5, 0, 0, 0] s0)
theorem test_l2_insert_hyps : (sL2New.stagedL2 0).put L.VALID 1 = anL2 ∧ anL2.get L.PORT = 3
    ∧ sL2New.l2Find 0 (BitVec.ofNat 48 (anL2.get L.MAC)) (BitVec.ofNat 12 (anL2.get L.FID)) = none
    ∧ (sL2New.l2Free 0 (BitVec.ofNat 48 (anL2.get L.MAC)) (BitVec.ofNat 12 (anL2.get L.FID))).isSome = true
    ∧ anL2.get L.MAC = (sL2New.argKey (.sieve 0)).1.toNat ∧ anL2.get L.FID = (sL2New.argKey (.sieve 0)).2.toNat := by decide
/-- The entry stands in the first way of its first bucket. -/
def aWay : Nat := 4 * (Config.l2Hash1 0 5 0).toNat
def sL2 (x : L2Entry) : State := sL2New.setPipe 0 fun p => { p with key := 0, table := [(aWay, x)] }
theorem test_l2_key : sL2New.argKey (l2Block 0) = (5, 0) := by decide
theorem test_l2_found : (sL2 anL2).l2Find 0 5 0 = some (aWay, anL2) := by
  have h1 : anL2.get L.MAC = 5 := by decide
  have h2 : anL2.get L.FID = 0 := by decide
  have h3 : (sL2 anL2).pipe 0 = { (sL2New.pipe 0) with key := 0, table := [(aWay, anL2)] } := by rfl
  simp [State.l2Find, State.l2Ways, h3, List.range, List.range.loop, mapGet, aWay, h1, h2]
theorem test_l2_next_hyps : (sL2 anL2).takes .spi (l2Block 0) ∧ ((sL2 anL2).arg (l2Block 0) 1).toNat = 0
    ∧ mapWf ((sL2 anL2).pipe 0).table = true ∧ anL2.on L.STATIC = false ∧ anL2.on L.PINNED = false ∧ anL2.get L.AGE = 0
    ∧ (sL2 anL2).get (R.SIEVE_L2_CFG_AGE 0) ≠ 0 ∧ (anL2.put L.PINNED 1).on L.PINNED = true ∧ (sL2 anL2).get (R.SIEVE_PIN_HOLD_S 0) ≠ 0 :=
  ⟨⟨by decide, by decide, by decide⟩, by decide, by decide, by decide, by decide, by decide, by decide, by decide, by decide⟩
theorem test_l2_at : mapGet ((sL2 anL2).pipe 0).table aWay = some anL2 := by
  have h3 : ((sL2 anL2).pipe 0).table = [(aWay, anL2)] := by rfl
  simp [h3, mapGet]
def aNotice : Notice := ⟨5, 0, 3, 1, 2⟩
theorem test_lfifo_hyps : ((s0.setPipe 0 fun p => { p with lfifo := [aNotice] }).pipe 0).lfifo = [aNotice] ∧ (s0.pipe 0).lfifo = [] := by decide

def aPrefix : PrefixEntry := ⟨2 ^ 127, 8, 3⟩
def sPrefix : State := { (argsOf (.sieve 2) [8 + 256 * 3, 0, 0, 0] s0).setWord (R.SIEVEP_KEY_WORD 3).a 0x80000000 with prefixes := [(4, aPrefix)] }
theorem test_prefix_hyps : sPrefix.takes .spi (.sieve 2) ∧ prefixOk sPrefix.stagedPrefix 8 = true ∧ sPrefix.argBits (.sieve 2) 0 0 8 = 8
    ∧ sPrefix.exact sPrefix.stagedPrefix 8 = some (4, aPrefix) ∧ sPrefix.longest sPrefix.stagedPrefix = some (4, aPrefix)
    ∧ natBit (sPrefix.arg (.sieve 2) 0).toNat 8 = true ∧ (sPrefix.prefixes.find? fun p => decide (4 ≤ p.1)) = some (4, aPrefix)
    ∧ ({ sPrefix with prefixes := [] } : State).exact sPrefix.stagedPrefix 8 = none
    ∧ (({ sPrefix with prefixes := [] } : State).makeRoom 8).isSome = true
    ∧ (mapGet sPrefix.prefixes 4).isSome = true ∧ mapGet sPrefix.prefixes 2 = none ∧ prefixOrder (sPrefix.movePrefix 4 2).prefixes = true
    ∧ sPrefix.fenced (.sieve 2) = false ∧ sPrefix.busy (.sieve 2) = false
    ∧ bitsGet 28 4 (0x50000000 : W32) < 10 :=
  ⟨⟨by decide, by decide, by decide⟩, by decide, by decide, by decide, by decide, by decide, by decide, by decide, by decide, by decide, by decide, by decide, by decide,
    by decide, by decide⟩

/-- A frame from port 2 for MAC 5, with its stage. -/
def aFacts : FrameFacts := ⟨5, 9, none, 0x800, 100, none, none, false, 0, true, 0, 0, 0, 0⟩
def aFrame : Frame := { port := 2, x := aFacts, len := 100, stage := .checked }
def sSieve : State := { sL2 anL2 with frames := [(0, aFrame), (1, { aFrame with learn := some (9, 0), icv := .good })] }
theorem test_sieve_hyps : mapGet sSieve.frames 0 = some aFrame ∧ sSieve.powered (pipeBlock (servedBy 2)) = true
    ∧ sSieve.fenced (pipeBlock (servedBy 2)) = false ∧ sSieve.on (R.SIEVE_L2_CFG_PIN_DROP (servedBy 2)) = false ∧ sSieve.isPtp 2 aFacts = false
    ∧ sSieve.apPrefix R.SIEVEP_CFG_EN = 0 ∧ isGroup aFacts.da = false ∧ anL2.get L.PORT = 3 ∧ sSieve.handCause 3 = none
    ∧ sSieve.groupFenced (txGroup 3) = false ∧ sSieve.on (R.SIEVE_L2_CFG_LEARN (servedBy 2)) = true ∧ isGroup aFacts.sa = false
    ∧ ({ sSieve with sieve := [] } : State).l2Find (servedBy 2) 9 0 = none
    ∧ (({ sSieve with sieve := [] } : State).l2Free (servedBy 2) 9 0).isSome = true := by decide
theorem test_sieve_found : sSieve.l2Find (servedBy 2) aFacts.da (aFacts.vid.getD 0) = some (aWay, anL2) := test_l2_found
/-! Hypotheses of the statements on ports and Crust. -/

/-- Port 2 is enabled and its link up. -/
def sPort : State := (((s0.put (R.RET_SWAIT_ACTIVE 2) 0).put (R.PORT_LINK_UP 2) 1).put (R.PORT_MODE_EN 2) 1).setPort 2 fun x => { x with tstx := [(5, 6, false)] }
/-- The state after the fabric's reads before a frame at port 2; and the same with a receive FIFO that is full but for a token. -/
def drained (s : State) : State := ((s.ledIn (portBlock 2) 1).rxStats 2 aFacts).drainBfifo (rxBfifo 2) 0
def sNarrow (n : Nat) : State := { sPort with bfifo := [(4, { wr := n, wrSync := (gray n, gray n) })] }
theorem test_port_rx_hyps : sPort.linkUp 2 = true ∧ sPort.on (R.PORT_MODE_EN 2) = true ∧ sPort.boot.forwards = true ∧ sPort.entering = false
    ∧ sPort.get R.FAB_ADMIT_MARK_MARK ≤ 256 - ((drained sPort).bfifoOf (rxBfifo 2)).writerLevel 256 ∧ aFacts.etherType ≠ 0x8808
    ∧ sPort.swait 2 = false ∧ cellsOf (sPort.ap (R.PORT_MTU_OCTETS 2)) ≤ sPort.poolRoom (poolOf (rxGroup 2))
    ∧ aFacts.octets ≤ sPort.ap (R.PORT_MTU_OCTETS 2) ∧ aFacts.eccFix = 0 ∧ aFacts.eccBad = 0
    ∧ tokensOf (rxBfifo 2) aFacts.octets ≤ 256 - ((drained sPort).bfifoOf (rxBfifo 2)).writerLevel 256 ∧ s0.linkUp 2 = false := by decide
theorem test_port_full_hyps : 256 - ((drained (sNarrow 255)).bfifoOf (rxBfifo 2)).writerLevel 256 < (sNarrow 255).get R.FAB_ADMIT_MARK_MARK
    ∧ ((sNarrow 255).put R.FAB_ADMIT_MARK_MARK 1).get R.FAB_ADMIT_MARK_MARK
      ≤ 256 - ((drained ((sNarrow 255).put R.FAB_ADMIT_MARK_MARK 1)).bfifoOf (rxBfifo 2)).writerLevel 256
    ∧ 1 < tokensOf (rxBfifo 2) aFacts.octets := by decide
theorem test_port_cut_hyps :
    ((drained ((sNarrow 255).put R.FAB_ADMIT_MARK_MARK 1)).arriveBfifo (rxBfifo 2) (tokensOf (rxBfifo 2) aFacts.octets) 0).2 = 1 := by
  have h : ((drained ((sNarrow 255).put R.FAB_ADMIT_MARK_MARK 1)).bfifoOf (rxBfifo 2)).writerLevel 256 = 255 := by decide
  obtain ⟨late, e⟩ := State.arriveBfifo_written (drained ((sNarrow 255).put R.FAB_ADMIT_MARK_MARK 1)) (rxBfifo 2) (tokensOf (rxBfifo 2) aFacts.octets) 0
  have d : bfifoDepth (rxBfifo 2) = 256 := rfl
  have n : tokensOf (rxBfifo 2) aFacts.octets = 2 := by decide
  rw [e, d, n]
  simp [BFifo.fits, h]
/-- Port 2 with a fault decided; its link up or down. -/
def sFault (up : Nat) : State := (sPort.put (R.PORT_LINK_UP 2) up).setPort 2 fun x => { x with faults := [3] }
theorem test_link_hyps : (sPort.port 2).faults.contains 1 = false ∧ (sFault 1).linkUp 2 = true ∧ (sFault 1).port 2 = { faults := [3], tstx := [(5, 6, false)] }
    ∧ (sFault 0).powered (portBlock 2) = true ∧ (sFault 0).on (R.PORT_LINK_UP 2) = false ∧ (sFault 0).on (R.PORT_LINK_FORCED 2) = false
    ∧ (s0.port 2).faults = [] ∧ s0.on (R.PORT_LINK_UP 2) = false ∧ sPort.fwu.unloaded = []
    ∧ (s0.put (R.PORT_DEGRADE_THRESH 2) 9).get (R.PORT_DEGRADE_THRESH 2) ≠ 0 ∧ bitsGet 4 4 (0x21 : W32) = 2
    ∧ natBit ((argsOf (.port 2) [1] sPort).arg (portBlock 2) 0).toNat 0 = true ∧ natBit (s0.arg (portBlock 2) 0).toNat 0 = false := by decide
theorem test_port_takes : sPort.takes .spi (portBlock 2) ∧ (argsOf (.port 2) [1] sPort).takes .spi (portBlock 2) ∧ s0.takes .spi (portBlock 2) :=
  ⟨⟨by decide, by decide, by decide⟩, ⟨by decide, by decide, by decide⟩, ⟨by decide, by decide, by decide⟩⟩
theorem test_tstx_hyps : (sPort.port 2).tstx = [(5, 6, false)] ∧ (s0.port 2).tstx = [] := by decide
/-- Frame 0 on its way out at port 2, frame 1 for the host. -/
def anEg (st : EgState) : Egress := { port := 2, st := st }
def sEgress (st : EgState) : State := { ((sPort.put (R.HOST_MAP_PORT_DVALID 2) 1).put (R.HOST_MAP_PORT_DATA 2) 3).put (R.HOST_Q_STATE_STATE 3) 1 with
  frames := [(0, { aFrame with port := 3, stage := .forwarded, egress := [anEg st] }), (1, { aFrame with stage := .forwarded, toHost := true })]
  rack := { s0.rack with links := [(13, { c := 64, producer := 64 })] } }
theorem test_egress_hyps : mapGet (sEgress .inCrust).frames 0 = some { aFrame with port := 3, stage := .forwarded, egress := [anEg .inCrust] }
    ∧ ({ aFrame with egress := [anEg .inCrust] } : Frame).eg 2 = some (anEg .inCrust) ∧ (sEgress .inCrust).linkUp 2 = true
    ∧ mapGet (sEgress .inCrust).frames 1 = some { aFrame with stage := .forwarded, toHost := true }
    ∧ (sEgress .inCrust).on (R.HOST_MAP_PORT_DVALID 2) = true ∧ (sEgress .inCrust).get (R.HOST_MAP_PORT_DATA 2) = 3
    ∧ (sEgress .inCrust).descsOf 3 (aFrame.len - 4) ≤ (sEgress .inCrust).hostCredit 3 := by decide

/-- A receive SA (index 0 of Crust-C) and a transmit SA of port 2, and a slot with a key for SAs. -/
def aSa (tx : Bool) : SaEntry :=
  { key := [], hkey := [], sci := 7, ssci := 0, salt := 0, next := 5, limit := 0, tx := tx, suite := 0, port := 2, ktag := 0, installSt := 0 }
def sSa : State := { argsOf (.crust 0) [8192, 9] sPort with crust := { sas := [(8192, aSa false), (8196, aSa true)] } }
theorem test_sa_hyps : sSa.takes .spi (.crust 0) ∧ sSa.powered (dpBlock (dpOfSa 8192)) = true ∧ sSa.fenced (dpBlock (dpOfSa 8192)) = false
    ∧ sSa.sa 8192 = some (aSa false) ∧ sSa.saCur 8192 (aSa false) = false ∧ sSa.saArmed 8192 (aSa false) = false ∧ sSa.saInUse 8192 = false
    ∧ (sSa.arg (.crust 0) 1).toNat + 2 ^ 32 * (sSa.arg (.crust 0) 2).toNat = 9 ∧ (aSa false).limit < 9 ∧ sSa.sa 8196 = some (aSa true)
    ∧ (argsOf (.crust 0) [8196, 9] sSa).arg (.crust 0) 0 = 8196 := ⟨⟨by decide, by decide, by decide⟩, by decide, by decide, by decide, by decide,
      by decide, by decide, by decide, by decide, by decide, by decide⟩
def aSakSlot : KeySlot := { attrs := BitVec.ofNat 32 (2 ^ 2 + 2 ^ 11), count := uncounted, key := List.replicate 16 0 }
def sSaNew : State := { (argsOf (.crust 0) [8200, 3] sPort).setWord (R.CRUST_SA_ST_WORD 10).a 0x20 with
  starter := { sPort.starter with slots := [(3, aSakSlot)] } }
theorem test_sa_install_hyps : sSaNew.saCheck 8200 sSaNew.stagedSa = none ∧ sSaNew.fenced .starter = false ∧ sSaNew.on R.TAMP_STATE_ALARM = false
    ∧ sSaNew.starter.lc ≠ 0 ∧ sSaNew.starter.lc ≠ 4 ∧ sSaNew.on R.STARTER_STATE_ROOT_BAD = false
    ∧ (sSaNew.useSlot (sSaNew.argBits (.crust 0) 1 0 10) useSak 11).2 = .ok aSakSlot [] ∧ aSakSlot.key.length = suiteKey sSaNew.stagedSa.suite := by decide
def sSaEnd : State := { argsOf (.crust 0) [8192] s0 with crust := { deleting := some (8192, aSa false) } }
theorem test_sa_end_hyps : sSaEnd.crust.deleting = some (8192, aSa false) ∧ sSaEnd.saInUse 8192 = false ∧ s0.powered (.crust 0) = true
    ∧ (0 : W32) ≠ 1 := by decide
/-- SA 8196 is the current or the armed one of port 2. -/
def sCur : State := ((argsOf (.crust 3) [0, 8196] sSa).put (R.CRUSTX_TXSA_CUR 2 0) 8196).put (R.CRUSTX_TXSA_CUR_V 2 0) 1
def sArmed : State := ((argsOf (.crust 3) [0, 8196] sSa).put (R.CRUSTX_TXSA_NEXT 2 0) 8196).put (R.CRUSTX_TXSA_NEXT_V 2 0) 1
theorem test_switch_hyps : sArmed.takes .spi (xBlock 2) ∧ dpPort 2 (sArmed.argBits (xBlock 2) 0 0 3) = some 2 ∧ sArmed.argBits (xBlock 2) 1 0 14 = 8196
    ∧ sArmed.curSa 2 ≠ some 8196 ∧ sArmed.armedSa 2 = some 8196 ∧ sArmed.encrypting 2 = false ∧ sCur.saCur 8196 (aSa true) = true
    ∧ sCur.curSa 2 = some 8196 := ⟨⟨by decide, by decide, by decide⟩, by decide, by decide, by decide, by decide, by decide, by decide, by decide⟩
/-- A frame under SA 8196 is in the encrypt stage of port 2, and TX_SWITCH waits or not. -/
def anEgTag : Egress := { anEg .inCrust with tag := some { sa := 8196, pn := 4, sci := none, e := true, offset := 0 } }
def sEncrypt : State := { sArmed with frames := [(0, { aFrame with port := 3, egress := [anEgTag] })] }
def sSwitch : State := sArmed.setBlk (.crust 3) fun x => { x with run := some { aRun with op := opTxSwitch } }
theorem test_switch_wait_hyps : sEncrypt.encrypting 2 = true ∧ sEncrypt.linkUp 2 = true ∧ sSwitch.switchWaits 2 = true
    ∧ sSwitch.encrypting 2 = false ∧ sSwitch.armedSa 2 = some 8196 := by decide
def aTagFacts : TagFacts := { valid := true, e := true, an := 0, sci := some 7, pn := 6 }
def aTagged : Frame := { aFrame with stage := .fifo, x := { aFacts with tag := some aTagFacts } }
def aPending : Frame := { aTagged with stage := .checked, rxSa := some 8192, pn := 6, icv := .pending }
def sCrust : State := { sSa with frames := [(0, { aFrame with stage := .fifo }), (1, aTagged), (2, aPending)] }
theorem test_crust_rx_hyps : mapGet sCrust.frames 0 = some { aFrame with stage := .fifo } ∧ sCrust.powered (dpBlock (dpOf 2)) = true
    ∧ sCrust.fenced (dpBlock (dpOf 2)) = false ∧ (sCrust.put (R.CRUSTX_CTL_RX_EN 2 0) 0).apOn (R.CRUSTX_CTL_RX_EN 2 0) = false
    ∧ (sCrust.put (R.CRUSTX_CTL_RX_EN 2 0) 1).apOn (R.CRUSTX_CTL_RX_EN 2 0) = true ∧ isEapol aFacts = false
    ∧ (sCrust.put (R.CRUSTX_CTL_VALIDATE 2 0) 0).apOn (R.CRUSTX_CTL_VALIDATE 2 0) = false ∧ sCrust.rxChannel 2 aTagFacts = some 2048
    ∧ sCrust.sa (4 * 2048 + aTagFacts.an.val) = some (aSa false)
    ∧ (sCrust.put (R.CRUSTX_REPLAY_RP 2 0) 0).apOn (R.CRUSTX_REPLAY_RP 2 0) = false ∧ mapGet sCrust.frames 2 = some aPending := by decide
def sCrustTx (en : Nat) : State := { sCur.put (R.CRUSTX_CTL_TX_EN 2 0) en with
  frames := [(0, { aFrame with port := 3, stage := .forwarded, egress := [anEg .waiting] })] }
theorem test_crust_tx_hyps : ({ aFrame with egress := [anEg .waiting] } : Frame).eg 2 = some (anEg .waiting)
    ∧ (sCrustTx 0).swait 2 = false ∧ (sCrustTx 0).groupFenced (txGroup 2) = false
    ∧ (sCrustTx 0).canStart { aFrame with port := 3, stage := .forwarded, egress := [anEg .waiting] } 2 = true
    ∧ (sCrustTx 0).apOn (R.CRUSTX_CTL_TX_EN 2 0) = false ∧ (sCrustTx 1).apOn (R.CRUSTX_CTL_TX_EN 2 0) = true ∧ (sCrustTx 1).isPtp 2 aFacts = false
    ∧ (sCrustTx 1).switchWaits 2 = false ∧ (sCrustTx 1).groupFenced (saGroup (dpOf 2)) = false ∧ (sCrustTx 1).on (R.CRUSTX_TXSA_EXH 2 0) = false ∧ (sCrustTx 1).curSa 2 = some 8196
    ∧ (sCrustTx 1).sa 8196 = some (aSa true) := by decide
/-! Hypotheses of the statements on Rack, Starter and the tamper monitor. -/

/-- Queue 3 is up, holds a credit, and a producer waits. -/
def sLease : State := { s0.put (R.HOST_Q_STATE_STATE 3) 1 with rack := { s0.rack with links := [(13, { c := 64, producer := 0, host := 64, waiting := true })] } }
theorem test_lease_hyps : sLease.pdOn 3 = true ∧ sLease.get R.RACK_LEASE_MS ≠ 0 ∧ (sLease.link 13).host ≠ 0 ∧ (sLease.link 13).waiting = true
    ∧ (sLease.link 13).producer = 0 ∧ sLease.queueUp 3 = true := by decide
def sRack : State := { argsOf .rack [254] s0 with rack := { s0.rack with drops := [⟨7, 1, 2, 3, 4, 5, 6, 7⟩], trace := [⟨7, 1, 2, 3⟩] } }
theorem test_rack_hyps : sRack.takes .spi .rack ∧ sRack.argBits .rack 0 0 8 = 254 ∧ sRack.reclaimable 254 = true ∧ ownerUsed 254 = true
    ∧ (s0.argBits .rack 0 0 8 : Nat) < 142 ∧ s0.argBits .rack 0 0 6 = 0 ∧ s0.get (R.HOST_Q_STATE_STATE 0) ≠ 2
    ∧ sRack.rack.drops = [⟨7, 1, 2, 3, 4, 5, 6, 7⟩] ∧ sRack.rack.trace = [⟨7, 1, 2, 3⟩] ∧ s0.rack.drops = [] ∧ s0.rack.trace = [] :=
  ⟨⟨by decide, by decide, by decide⟩, by decide, by decide, by decide, by decide, by decide, by decide, by decide, by decide, by decide, by decide⟩

/-- Slot 3 holds a key for every use of the management SPI and the control cores, slot 4 one that wraps; slot 512 a mesh key. -/
def aUseKey : KeySlot := { attrs := BitVec.ofNat 32 (1 + 2 + 2 ^ 4 + 2 ^ 5 + 2 ^ 9 + 2 ^ 10), count := uncounted, key := List.replicate 16 0 }
def sKeys : State := { s0 with starter := { s0.starter with slots := [(3, aUseKey), (4, aUseKey), (512, { aKey with count := uncounted })] } }
/-- DERIVE into slot 5 from slot 3 under a label of one octet. -/
def sDerive : State := argsOf .starter [BitVec.ofNat 32 (5 + 3 * 2 ^ 10), 0x100, 1, 9] sKeys
theorem test_keys_open : sDerive.takes .spi .starter ∧ sDerive.keysOpen :=
  ⟨⟨by decide, by decide, by decide⟩, by decide, by decide, by decide, by decide⟩
theorem test_derive_hyps : sDerive.argBits .starter 0 0 10 = 5 ∧ sDerive.argBits .starter 0 21 1 = 0 ∧ sDerive.argBits .starter 0 20 1 = 0
    ∧ sDerive.argBits .starter 1 0 8 = 0 ∧ sDerive.argBits .starter 1 8 8 = 1 ∧ sDerive.argBits .starter 1 16 8 = 0
    ∧ sDerive.makeCheck 5 (sDerive.arg .starter 2) (sDerive.argBits .starter 3 0 24) 16 = none ∧ (sDerive.starterData 64).take 1 ≠ ascii "GZ-NK"
    ∧ sDerive.useSlot (sDerive.argBits .starter 0 10 10) useDerive (masterOwnerBit .spi) = (sDerive, .ok aUseKey []) := by decide
/-- UNWRAP of 24 octets of zeros. -/
def sUnwrap : State := argsOf .starter [BitVec.ofNat 32 (5 + 3 * 2 ^ 10), 24, 1, 9] sKeys
theorem test_unwrap_hyps : sUnwrap.argBits .starter 0 20 2 = 0 ∧ sUnwrap.argBits .starter 1 0 8 = 24
    ∧ sUnwrap.makeCheck 5 (sUnwrap.arg .starter 2) (sUnwrap.argBits .starter 3 0 24) 16 = none
    ∧ sUnwrap.useSlot (sUnwrap.argBits .starter 0 10 10) useKek (masterOwnerBit .spi) = (sUnwrap, .ok aUseKey []) := by decide
def sWrap : State := argsOf .starter [BitVec.ofNat 32 (4 + 3 * 2 ^ 10)] sKeys
theorem test_wrap_hyps : sWrap.useSlot (sWrap.argBits .starter 0 0 10) useWrappable (masterOwnerBit .spi) = (sWrap, .ok aUseKey [])
    ∧ sWrap.useSlot (sWrap.argBits .starter 0 10 10) useKek (masterOwnerBit .spi) = (sWrap, .ok aUseKey []) := by decide
def sMka : State := argsOf .starter [BitVec.ofNat 32 (3 + 5 * 2 ^ 10), 8, 0x200, 9] sKeys
theorem test_mka_hyps : sMka.argBits .starter 0 10 10 = 5 ∧ sMka.argBits .starter 1 0 8 = 8
    ∧ sMka.makeCheck 5 ((sMka.arg .starter 2 &&& 0x2700#32) ||| 2#32) uncounted aUseKey.key.length = none
    ∧ mapGet sMka.starter.slots (sMka.argBits .starter 0 0 10) = some aUseKey
    ∧ sMka.useSlot (sMka.argBits .starter 0 0 10) useCak (masterOwnerBit .spi) = (sMka, .ok aUseKey []) := by decide
/-- Slots 3 and 520 are named, and the update that empties slot 520 is in progress. -/
def sZero (slot : Nat) : State := { argsOf .starter [BitVec.ofNat 32 slot] sKeys with starter := { sKeys.starter with slots := [(3, aUseKey), (520, aUseKey)] } }
def anOp : KeyOp := { updates := [(520, none)], makes := none, out := [], res1 := 0, item := none }
def sUpdate (o : KeyOp) : State := { sZero 520 with starter := { (sZero 520).starter with op := some o } }
theorem test_slot_hyps : (sZero 3).argBits .starter 0 0 10 = 3 ∧ mapGet (sZero 3).starter.slots 3 = some aUseKey
    ∧ (sZero 520).argBits .starter 0 0 10 = 520 ∧ mapGet (sZero 520).starter.slots 520 = some aUseKey ∧ aUseKey.has (masterOwnerBit .spi) = true
    ∧ (sZero 520).pfWarn = false ∧ (sUpdate anOp).starter.op = some anOp ∧ anOp.updates = [(520, none)] ∧ anOp.makes = none ∧ anOp.item = none := by decide
def sMeas : State := argsOf .starter [6] sKeys
theorem test_measure_hyps : sMeas.argBits .starter 0 0 3 = 6 ∧ sMeas.argBits .starter 0 9 1 = 0 ∧ nth sMeas.starter.mcLock 6 false = false
    ∧ sMeas.starter.mc.length = 8 := by decide
def sLife : State := argsOf .starter [4, 0x1CAD] sKeys
theorem test_life_hyps : sLife.argBits .starter 0 0 3 = 4 ∧ lcStep sLife.starter.lc 4 = true ∧ sLife.arg .starter 1 = 0x1CAD ∧ Master.spi ≠ .host
    ∧ (argsOf .starter [0, 0x4120] sKeys).arg .starter 1 = 0x4120 := by decide
/-- A derivation item of a control core at the head of the unit's ready list. -/
def aDeriveItem : Item :=
  { words := [BitVec.ofNat 32 (262144 + 2 * 2 ^ 24 + 4 * 2 ^ 28), 0, 0x600, 0, BitVec.ofNat 32 (5 + 3 * 2 ^ 10), 0x100, 1, 9]
    due := 0, seq := 0, st := .ready }
def sDeriveItem : State := { sKeys with peel := { s0.peel with items := [(0, aDeriveItem)] } }
theorem test_derive_item_hyps : sDeriveItem.pdOn 1 = true ∧ sDeriveItem.groupFenced 56 = false ∧ sDeriveItem.starter.op = none
    ∧ ((sDeriveItem.takeReady 4).map fun x => x.2) = some (0, { aDeriveItem with st := .taken }) ∧ bitsGet 0 10 (nth aDeriveItem.words 4 0) = 5
    ∧ bitsGet 20 1 (nth aDeriveItem.words 4 0) = 0 ∧ bitsGet 0 8 (nth aDeriveItem.words 5 0) = 0 ∧ bitsGet 8 8 (nth aDeriveItem.words 5 0) = 1
    ∧ bitsGet 16 8 (nth aDeriveItem.words 5 0) = 0 ∧ sDeriveItem.makeCheck 5 1 9 16 = none
    ∧ (sDeriveItem.useSlot (bitsGet 10 10 (nth aDeriveItem.words 4 0)) useDerive
      (if aDeriveItem.producer = 0 then 8 else if aDeriveItem.producer = 1 then 9 else 10)).2 = .ok aUseKey [] := by decide
def sInline : State := { sWb with starter := sKeys.starter, dir := { s0.dir with nodes := [(7, aNodeEntry)] } }
theorem test_inline_hyps : sInline.node 7 = some aNodeEntry ∧ sInline.ctx 0 3 = some (aCtx true) ∧ sInline.groupFenced 56 = false
    ∧ ((sInline.meshKey (aNodeEntry.get N.KEY_EPOCH / 64)).map (·.count)) = some uncounted ∧ sInline.pfWarn = false := by decide
/-- Tamper source 2 is enabled with a response. -/
def sTamp (resp : Nat) : State := { (sKeys.put (R.TAMP_CFG_EN 2) 1).put (R.TAMP_CFG_RESP 2) resp with
  tamp := { log := [⟨7, 2, 1, 2⟩] } }
theorem test_tamper_hyps : (sTamp 3).pdOn 0 = true ∧ (sTamp 3).boot = .running ∧ (sTamp 3).entering = false ∧ (sTamp 3).on (R.TAMP_CFG_EN 2) = true
    ∧ (sTamp 3).get (R.TAMP_CFG_RESP 2) = 3 ∧ 2 ≤ natBits (s0.get R.TAMP_FLOOR_RESP) (2 * 2) 2
    ∧ ({ s0.starter with zeroing := true } : StarterSt).zeroing = true ∧ s0.pdOn 1 = true ∧ s0.powered .tamp = true
    ∧ natBit (1 : BitVec 32).toNat 0 = true ∧ s0.get R.TAMP_STATE_ACTIVE = 0 ∧ (s0.put R.TAMP_STATE_ACTIVE 4).get R.TAMP_STATE_ACTIVE ≠ 0
    ∧ (sTamp 3).tamp.log = [⟨7, 2, 1, 2⟩] ∧ ({ s0 with boot := .tamperHold } : State).boot = .tamperHold ∧ Master.host ≠ .spi := by decide
theorem test_tamper_takes : ({ s0 with boot := .tamperHold } : State).takes .spi .tamp := ⟨by decide, by decide, by decide⟩
theorem test_unwrap_auth : kwUnwrap aUseKey.key (sUnwrap.starterData 24) = none := by decide +kernel
/-! Hypotheses of the statements on Proofer and firmware update. -/

def sPost1 : State := s0.put (ownCopy (.core 1) (R.PROOF_POST_W_WORD 0)) 1
theorem test_mailbox_hyps : sPost1.hears (.core 1) = true ∧ sPost1.hears .spi = true ∧ sPost1.prooferRuns = true ∧ sPost1.get (ownCopy (.core 1) (R.PROOF_POST_W_WORD 0)) = 1 ∧ sPost1.proof.queue.length < holdSize
    ∧ ∀ c, Master.spi ≠ .core c := ⟨by decide, by decide, by decide, by decide, by decide, fun _ => by simp⟩
theorem test_mailbox_full_hyps : holdSize ≤ (List.replicate holdSize (⟨0, 0, false, []⟩ : ProofEntry)).length := by simp
/-- An entry at the head of the hold queue; the Starter holds the mesh key of generation 0. -/
def sEntry (o : List Nat) : State := { sKeys with proof := { s0.proof with queue := [⟨9, 0, false, o⟩] } }
/-- A READING of zeros but for its tag. -/
def aReading : List Nat := [1] ++ List.replicate 31 0 ++ (cmac (nodeKey aKey.key 0 0 0x10) (List.replicate 24 0)).take 8 ++ List.replicate 8 0
theorem test_reading_hyps : (sEntry aReading).nextEntry 1 = some ⟨9, 0, false, aReading⟩ ∧ nth aReading 1 0 = 0 ∧ (sEntry aReading).pdOn 1 = true
    ∧ (sEntry aReading).groupFenced 56 = false ∧ (sEntry aReading).meshKey 0 = some { aKey with count := uncounted }
    ∧ (cmac (nodeKey aKey.key (beNum (slice aReading 8 8)) (nth aReading 2 0) 0x10) (slice aReading 8 24)).take 8 = slice aReading 32 8 := by
  decide +kernel
def aParam : List Nat := [2, 2, 0, 0, 0, 0, 0, 0, 20, 0, 0, 0] ++ List.replicate 36 0
def anActivate : List Nat := [3, 1] ++ List.replicate 46 0
theorem test_param_hyps : (sEntry (1 :: 4 :: aParam)).nextEntry 1 = some ⟨9, 0, false, 1 :: 4 :: aParam⟩ ∧ 4 ≤ nth (1 :: 4 :: aParam) 1 0
    ∧ (sEntry aParam).nextEntry 2 = some ⟨9, 0, false, aParam⟩ ∧ nth aParam 1 0 = 2 ∧ nth aParam 2 0 = 0 ∧ (aParam.drop 12).all (· == 0) = true
    ∧ (sEntry aParam).logFull = false ∧ leNum (slice aParam 8 4) = 20 ∧ (sEntry aParam).proof.age = 10
    ∧ (sEntry anActivate).nextEntry 3 = some ⟨9, 0, false, anActivate⟩ ∧ nth anActivate 1 0 = 1 ∧ nth anActivate 2 0 = 0
    ∧ (anActivate.drop 8).all (· == 0) = true := by decide
def aProofAct : ProofAct := { slot := 1, version := 3, iface := 2, hash := [] }
def sSeal : State := { s0 with proof := { s0.proof with act := some aProofAct, records := [(1, [1, 0, 0, 0])], head := 1, pub := [1], log := [(1, [7])] } }
theorem test_seal_hyps : sSeal.proof.act = some aProofAct ∧ sSeal.prooferRuns = true ∧ sSeal.pfWarn = false
    ∧ ({ s0 with proof := { s0.proof with runs := false } } : State).proof.runs = false ∧ s0.pdOn 2 = true ∧ s0.proof.log.length < logSize
    ∧ sSeal.record 1 = some [1, 0, 0, 0] ∧ sSeal.record sSeal.proof.head = some [1, 0, 0, 0] ∧ mapGet sSeal.proof.log sSeal.proof.log.length = some [7]
    ∧ 4 < (9 : BitVec 8).toNat := by decide
/-- Arguments of FWU: slot 1, an offset, a source, a length. -/
def sFwu : State := argsOf .fwu [1, 0, 0, 256] s0
theorem test_fwu_slot_hyps : sFwu.takes .spi .fwu ∧ sFwu.argBits .fwu 0 0 3 = 1 ∧ sFwu.slotBusy 1 = false ∧ (sFwu.arg .fwu 1).toNat = 0
    ∧ (sFwu.arg .fwu 2).toNat = 0 ∧ (sFwu.arg .fwu 3).toNat = 256 ∧ 256 ≤ slotSize 1 ∧ 256 ≤ exchangeSize
    ∧ (argsOf .fwu [1, 0x4B1D] s0).argBits .fwu 0 0 2 = 1 ∧ (argsOf .fwu [1, 0x4B1D] s0).arg .fwu 1 = 0x4B1D ∧ natBit s0.fwu.revoked 0 = false :=
  ⟨⟨by decide, by decide, by decide⟩, by decide, by decide, by decide, by decide, by decide, by decide, by decide, by decide, by decide, by decide⟩
/-- The radio part is to go to slot 3, whose image is verified. -/
def sSets : State := { argsOf .fwu [2, 2, 1] s0 with fwu := { s0.fwu with slots := [(3, { verified := true })] } }
theorem test_sets_hyps : sSets.argBits .fwu 0 0 3 ≠ 0 ∧ sSets.argBits .fwu 2 0 16 ≠ 0 ∧ sSets.checkSets sSets.namedParts (sSets.argBits .fwu 2 0 16) = none
    ∧ (argsOf .fwu [2, 2, 1] s0).checkSets (argsOf .fwu [2, 2, 1] s0).namedParts 1 = some (3, 0)
    ∧ sSets.checkSets sSets.namedParts sSets.proof.iface = none ∧ sSets.mayActivate sSets.namedParts = true := by decide
def anAct (units : List Nat) (st : UnitStage) : Activation := { parts := [none, none, some true], units := units, stage := st, done := [], start := 0, stop := false }
def sAct (units : List Nat) (st : UnitStage) : State := { sPort with fwu := { s0.fwu with act := some (anAct units st), phase := 1 } }
theorem test_act_hyps : (sAct [5] .back).pfWarn = false ∧ (sAct [5] .back).fwu.act = some (anAct [5] .back) ∧ (sAct [5] .back).fenced .fwu = false ∧ (sAct [5] .back).pdOn 3 = true
    ∧ (sAct [5] .start).pdOn (unitDomain 5) = true ∧ (sAct [5] .back).linkUp (unitPort 5) = true ∧ (sAct [6] .back).linkUp (unitPort 6) = false := by decide
theorem test_trial_hyps : ({ s0.fwu with phase := 2 } : FwuSt).phase = 2 ∧ (argsOf .fwu [0xFA11] s0).arg .fwu 0 = 0xFA11
    ∧ ∀ c, Master.host ≠ .core c := ⟨by decide, by decide, fun _ => by simp⟩
/-! Hypotheses of the statements on the host, the check-value channels, the SPI and GPIO. -/

/-- Queue 0 is UP: 64 descriptors toward the host, two posted from it; packets and a parked frame wait; channel 2 runs. -/
def aPkt : HostPkt := { kind := 2, src := 1, octets := 100, stamp := none, authFail := false, sa := none, cells := [], descs := 1 }
def sHostOff : State := (((((s0.put (R.HOST_Q_CFG_RXLOG2 0) 6).put (R.HOST_Q_CFG_TXLOG2 0) 6).put (R.HOST_Q_CFG_BUF 0) 8).put (R.HOST_Q_CFG_TXC 0) 4).put
  R.HOST_MAP_FW_VALID 1)
def sHost : State := { ((sHostOff.put (R.HOST_Q_STATE_STATE 0) 1).put (R.CRC_STAT_STATE 2) 1).put (R.HOST_Q_COAL_US 0) 5 with
  rack := { s0.rack with links := [(10, { c := 64, producer := 60, host := 3, consumer := 1 }), (74, { c := 4, producer := 2, consumer := 2 })] }
  host := { s0.host with queues := [(0, { posted := 2, toHost := [aPkt], rxSince := 1, txSince := 1 })], parked := [(7, ⟨0, [7], 100⟩)] } }
theorem test_queue_hyps : sHost.powered .host = true ∧ sHost.queueUp 0 = true ∧ sHost.powered .crc = true ∧ sHost.crcRuns 2 = true
    ∧ sHostOff.argBits .host 0 0 6 = 0 ∧ sHostOff.get (R.HOST_Q_STATE_STATE 0) ≠ 1 ∧ sHostOff.queueOk 0 = true
    ∧ sHost.get (R.HOST_Q_STATE_STATE 0) ≠ 0 ∧ (3 : BitVec 13).toNat ≤ (sHost.link 10).host ∧ (sHost.link 10).host < (4 : BitVec 13).toNat
    ∧ (2 : BitVec 13).toNat ≤ (sHost.link 74).producer ∧ (sHost.link 74).producer < (3 : BitVec 13).toNat := by decide
theorem test_queue_takes : sHostOff.takes .spi .host ∧ sHost.takes .spi .host := ⟨⟨by decide, by decide, by decide⟩, ⟨by decide, by decide, by decide⟩⟩
theorem test_host_packet_hyps : sHost.fenced .host = false ∧ (sHost.queue 0).posted ≠ 0 ∧ cellsOf 104 ≤ sHost.poolRoom (poolOf 64)
    ∧ sHost.powered (portBlock 2) = true ∧ sHost.powered (dpBlock (dpOf 2)) = true ∧ sHost.credit 2 = true ∧ sHost.groupFenced (txGroup 2) = false
    ∧ (sHost.queue 0).toHost = [aPkt] ∧ sHost.pdOn 13 = true ∧ cellsOf 100 ≤ sHost.poolRoom (poolOf 53) ∧ sHost.on R.HOST_MAP_FW_VALID = true
    ∧ sHost.get R.HOST_MAP_FW_Q = 0 ∧ sHost.descsOf 0 100 ≤ sHost.hostCredit 0 ∧ mapGet sHost.host.parked 7 = some ⟨0, [7], 100⟩ := by decide
theorem test_message_hyps : sHost.on (R.HOST_Q_COAL_US 0) = true ∧ (sHost.queue 0).rxSince ≠ 0 ∧ (sHost.queue 0).txSince ≠ 0 := by decide
theorem test_bar2_hyps : s0.powered .host = true ∧ s0.dramCanonical ∧ (0 : BitVec 28).toNat + (8 : BitVec 12).toNat ≤ dramSize :=
  ⟨by decide, by show Memory.wf _ = true; decide, by decide⟩
def sCrcJob : State := (((sHost.put (R.CRC_CFG_FIRST 2) 1).put (R.CRC_CFG_LAST 2) 1).put (R.CRC_CFG_ALG 2) 1).put (R.CRC_LEN_OCTETS 2) 9
theorem test_crc_hyps : s0.crcRuns 3 = false ∧ s0.fenced .crc = false ∧ (s0.put (R.CRC_LEN_OCTETS 3) 9).get (R.CRC_LEN_OCTETS 3) ≠ 0
    ∧ (s0.put (R.CRC_LEN_OCTETS 3) 9).get (R.CRC_CFG_MODE 3) ≠ 2 ∧ (s0.setGroupFence 58 true).fenced .crc = true
    ∧ (s0.setGroupFence 58 true).powered .crc = true ∧ (s0.setGroupFence 58 true).crcRuns 3 = false
    ∧ sCrcJob.crcRuns 2 = true ∧ sCrcJob.get (R.CRC_CFG_MODE 2) = 0
    ∧ sCrcJob.on (R.CRC_CFG_FIRST 2) = true ∧ sCrcJob.on (R.CRC_CFG_LAST 2) = true ∧ sCrcJob.on (R.CRC_CFG_SRC_SP 2) = false
    ∧ sCrcJob.get (R.CRC_CFG_ALG 2) = 1 ∧ sCrcJob.get (R.CRC_LEN_OCTETS 2) = (List.replicate 9 (0x31 : Octet)).length := by decide
theorem test_spi_gpio_hyps : s0.pdOn 0 = true ∧ (∀ b ∈ Block.all, s0.powered b = true) ∧ s0.powered .gpio = true ∧ s0.boot ≠ .hold
    ∧ s0.on (pinFld R.GPIO_IN0_LEVEL R.GPIO_IN1_LEVEL 40) ≠ true := by decide
/-! Hypotheses of the statements on every command and every step. -/

theorem test_step_hyps : ({ s0 with pending := [.nop .spi .phy 3, .pinReset 50] } : State).pending = .nop .spi .phy 3 :: [.pinReset 50]
    ∧ s0.pending = [] ∧ s0.pdOn 0 = true ∧ s0.tb.slew = none ∧ s0.on R.TB_STATE_REF_LOST = false
    ∧ (s0.put R.TB_STATE_REF_LOST 1).on R.TB_STATE_REF_LOST = true ∧ s0.readyItems 9 = [] := by decide
theorem test_invariant_hyps : s0.ledgersBalance ∧ s0.dramCanonical ∧ s0.logInOrder ∧ step s0 = .next s0.idleTick :=
  ⟨fun b => by show ((0 : BitVec 64) = 0 + 0 + 0 + 0); decide, by show Memory.wf _ = true; decide,
    fun n => ⟨fun h => by simp [s0, State.reset] at h, fun h => by simp [s0, State.reset] at h; omega⟩, rfl⟩
/-- A revoked key, LEGACY_OFF and an entry of the logbook. -/
def sBlown : State := { sSeal with fwu := { s0.fwu with revoked := 2 }, starter := { s0.starter with legacyOff := true } }
theorem test_blown_hyps : natBit sBlown.fwu.revoked 1 = true ∧ sBlown.starter.legacyOff = true ∧ mapGet sBlown.proof.log 1 = some [7]
    ∧ step sBlown = .next sBlown.idleTick := ⟨by decide, by decide, by decide, rfl⟩
theorem test_read_hyps : (Instr.check .host 3).page = some (.host, .fwu, 3) ∧ (Instr.l2Lookup .host 1 3).page = some (.host, .sieve 1, 3) := by decide
theorem test_stores_hyps : ((sCrcJob.put (R.CRC_CFG_MODE 2) 1).put (R.CRC_CFG_LAST 2) 0).get (R.CRC_CFG_MODE 2) = 1
    ∧ (sCrcJob.put (R.CRC_CFG_LAST 2) 0).on (R.CRC_CFG_LAST 2) = false ∧ (sCrcJob.put (R.CRC_CFG_DST_SP 2) 1).on (R.CRC_CFG_DST_SP 2) = true
    ∧ sCrcJob.powered .crc = true ∧ sCrcJob.get64 (R.CRC_DST_LO_ADDR 2) (R.CRC_DST_HI_ADDR 2) = 0 := by decide
theorem test_store_dram_hyp : sCrcJob.dramCanonical := by show Memory.wf _ = true; decide
theorem test_off_page_hyps : Block.phy.base ≤ Block.phy.base + 0x100 ∧ Block.phy.base + 0x100 < Block.phy.base + 4096 * Block.phy.pages
    ∧ (Block.phy.base + 0x100) % 4 = 0 ∧ sPwrOff.pdOn 0 = true := by decide
theorem test_fenced_write_hyps : sFenced.powered .phy = true ∧ sFenced.busy .phy = false ∧ sFenced.fenced .phy = true
    ∧ (0x30001 : BitVec 64).toNat % 256 < 0xF0 := by decide
theorem test_refused_write_hyps : (regAt .pwr 0x300).any (fun x => (x.1.fields.any fun f => f.acc != .ro)
      && !x.1.rangesOk ((3 : BitVec 64).setWidth 32)) = true
    ∧ windowAt .pwr ≠ some (0x300 - 4) ∧ 0x300 < 4096 * Block.pwr.pages := by decide
theorem test_wf_portFrameRx : (Instr.portFrameRx 0 { aFacts with octets := 63 }).wf = false ∧ (Instr.portFrameRx 0 aFacts).wf = true := by decide

/-! Single steps on small states, family by family. -/

/-- The command answers a next state of which P holds. -/
def chk (c : Instr) (s : State) (P : State → Bool) : Bool := match exec c s with | .next t => P t | _ => false
/-- The page has ended its command with this code. -/
def okc (b : Block) (c : Code) (t : State) : Bool := !t.busy b && t.get (R.H_RES0_CODE b.base) == c.num
/-- The ledger of a block. -/
def led1 (t : State) (b : Block) : Ledger := (t.blk b).led
/-- The meaning answers a next state of which P holds. -/
def chka (a : Answer) (P : State → Bool) : Bool := match a with | .next t => P t | _ => false
theorem test_commands_and_pages_1 : (chk (.commit .host .phy 3) s0 (fun t => t.busy .phy && t.runOp .phy == some opCommit && (t.blk .phy).latched.isSome)
    && chk (.deviceCommit .host 3) s0 (fun t => t.devCommit.isSome)
    && chk (.fabFence .host 3) (s0.setWord (Block.fab.base + 0x14) 24) (fun t => t.groupFenced 24)
    && chk (.fenceTimeout 24 false) { s0 with rack := { s0.rack with tags := [(0, { owner := 24, inFlight := false, sop := true, eop := true, pool := 0 })] } } (fun t => t.groupFenced 24)) = true := by decide +kernel
theorem test_commands_and_pages_2 : (chk (.registerWrite .host (BitVec.ofNat 26 (Block.phy.base + 0x14)) 2 77) s0 (fun t => t == s0.setWord (Block.phy.base + 0x14) 77)
    && chk (.cfgStageWrite .host .phy 77) s0 (fun t => t == s0.setWord (Block.phy.base + 0x74) 77)) = true := by decide +kernel
theorem test_power_1 : (chk (.governorWindow [] 0) s0 (fun t => t.get R.PWR_GOV_VNOW_TARGET == max 26 (s0.get R.PWR_GOV_VNOW_TARGET - 1))
    && chk (.burstJump 0) sBurst (fun t => t.get R.PWR_GOV_VNOW_TARGET == 60 && chk (.governorWindow [] 0) t fun u => u.get R.PWR_GOV_VNOW_TARGET == 60)
    && chk (.powerOn true) { s0 with boot := .off } (fun t => t.boot == .dft)
    && chk (.starterOpen false) { s0 with boot := .aon } (fun u => u.boot == .starter && u.on R.STARTER_STATE_OPEN && u.starter.held)
    && chk (.pfWarn 0) s0 (fun t => t.pfWarn && t.ret.marker == some t.lin)) = true := by decide +kernel
theorem test_power_2 : (chk .powerStateDone (s0.put R.PWR_STATE_TRANS 1) (fun t => t.powerState == 1 && !t.inTransition)
    && chk (.pinReset 10000) s0 (fun t => t.boot == .aon && (List.range 14).all fun d => t.pdOn d == (d == 0 || d == 2))
    && chk (.driftRestoreItem 7) sRestore (fun t => (t.node 7).isSome)) = true := by decide +kernel
theorem test_time_1 : (chk (.tbLatch .spi) sTb (fun t => t.get (ownCopy .spi R.TB_SNAP_ST_ST) == sTb.st)
    && chk (.tbRateWrite .spi 9) sAcquire (fun t => t.get R.TB_RATE_RATE == 9)
    && chk .servoTimeout sAcquire (fun t => t.tbMode == 3 && t.get R.TB_STATE_SRC == 0)
    && chk (.slew .spi 4) sStep (fun t => t.busy .tb && t.tb.slew.isSome && chk .slewComplete t fun u => !u.busy .tb && u.tb.slew.isNone)) = true := by decide +kernel
theorem test_radio_1 : (chk (.centreWrite .spi 0 868000) s0 (fun t => t.get (R.RF_CENTRE_KHZ 0) == 868000 && t.on (R.RF_STATE_RETUNE_PEND 0))
    && chk (.retuneStart 0) ((sRf rfRx).put (R.RF_STATE_RETUNE_PEND 0) 1) (fun t => t.rfState 0 == rfSettle && (t.chain 0).settle == some .slice && (t.chain 0).loKhz == s0.get (R.RF_CENTRE_KHZ 0))
    && chk (.chainEnableWrite .spi 0 1) s0 (fun t => t.rfState 0 == rfSettle && (t.chain 0).settle == some .fromOff)
    && chk (.txRampUpStart 0) (sJob rfRx aJob .taken) (fun t => t.rfState 0 == rfUp && chk (.txStart 0) t fun t => t.rfState 0 == rfTx && chk (.txFrameEnd 0) t fun u => u.rfState 0 == rfDown && chk (.txRampDownEnd 0) u fun w => w.rfState 0 == rfRx && (w.chain 0).jobs == [] && (w.chain 0).returned.length == 1 && w.get (R.RF_TX_STAT_SENT 0) == 1)) = true := by decide +kernel
theorem test_radio_2 : (chk (.calStart 0) ((sRf rfRx).put (R.RF_CAL_STAT_PEND 0) 1) (fun t => t.rfState 0 == rfCal && (t.chain 0).cal.isSome)
    && chk (.chainTempSample 0 0xFF) s0 (fun t => t.get (R.RF_CAL_STAT_TEMP 0) == 255)) = true := by decide +kernel
theorem test_wideband_1 : (chk (.feGainLoopBlock 0 ⟨7,8,true,true,[],[]⟩) (sWb.put (R.WB_STATE_FEG0 0) 20) (fun t => (t.get (R.WB_FE_STAT_PEAK0 0),t.get (R.WB_FE_STAT_PEAK1 0), t.get (R.WB_STATE_FEG0 0), t.get (R.WB_STATE_FEG1 0)) == (7,8,14,0))
    && chk (.preambleDetect 0 2 1 aDetection) (sSeek.put (R.WB_RESTART_EN 0) 0) (fun t => (t.ctx 0 0).isSome && t.get (R.WB_MARK_LAST_ID 0) == s0.get (R.WB_MARK_LAST_ID 0) + 1 && (t.blk (.wb 0)).led == Ledger.enter {} 1)
    && chk (.phrDecoded 0 1 goodPhr) sWb (fun t => ((t.ctx 0 1).map (·.confirmed)) == some true)
    && chk (.replay .spi 0 4) sReplay (fun t => !t.busy (.wb 0) && ((t.ctx 0 0).map (·.replayed)) == some true && t.get (R.H_RES0_CODE (Block.base (.wb 0))) == 0)) = true := by decide +kernel
theorem test_wideband_2 : (chk (.receptionComplete 0 3 (airOf [])) sWb (fun t => (t.ctx 0 3).isNone)
    && chk (.recordDeliver 0 1) sRec (fun t => (t.wrec 0 1).isNone && (t.blk (.wb 0)).led == Ledger.leave {} 1)
    && chk (.mapCheck .spi 4) ((s0.setWord (Block.base .phy + 0x14) 1).setWord (Block.base .phy + 0x1C) 1) (fun t => t.get (R.H_RES0_CODE (Block.base .phy)) == 0 && t.word (Block.phy.base + 0x28) != 0)
    && chk (.macNodeTransaction 0 0) sRec (fun t => (t.wrec 0 0).all fun y => y.result == some 0)) = true := by decide +kernel
theorem test_wideband_3 : (chk (.ackWaitExpired 0) sAim (fun t => t.get R.MAC_UNREACHED_COUNT == 1)) = true := by decide +kernel
theorem test_beacons_floods_peel_1 : (chk (.peerExpire 0) sPeer (fun t => t.bcn.peers == [])
    && chk (.distStart .spi 3) sDist (fun t => t.get R.FLOOD_DIST_STAT_BLOCK == 0 && t.runOp .flood == some opDistStart)
    && chk (.peelPost .spi) sPost (fun t => t.get (ownCopy .spi R.PEEL_POST_RES_CODE) == 0 && (t.item 0).isSome && (t.blk .peel).led == Ledger.enter {} 1)
    && chk (.peelDonePop .spi) (sTask .done) (fun t => t.busData != 0 && t.item 0 == none && mapGetD t.peel.done 1 [] == [])) = true := by decide +kernel
theorem test_beacons_floods_peel_2 : (chk (.taskTimeout 0) (sTask .taken) (fun t => t.get R.PEEL_TMO_CNT_COUNT == 1)
    && chk (.itemDue 10) (sDue [(0, anInline)]) (fun t => ((t.item 0).map (·.st)) == some .taken)
    && chk (.flowRead .spi 3) (argsOf .peel [262144] (sTask .delay)) (fun t => t.word (Block.peel.base + 0x2C) == 1)
    && chk (.listDump .spi 3 false) s0 (fun t => !t.busy .peel && t.get (R.H_RES0_CODE (Block.base .peel)) == 0)) = true := by decide +kernel
theorem test_beacons_floods_peel_3 : (chk (.floodRx 0 3 (airOf (aFlood 2))) (sHeard 2) (fun t => (t.ctx 0 3).isNone && t.flood.seen.any fun x => x.origin == 1 && x.copies == 2)) = true := by decide +kernel
theorem test_tables_1 : (chk (.dirInsert .spi 1) sDirNew (fun t => okc .dir .ok t && t.word (Block.dir.base + 0x28) == 3 && t.node 3 == some 9)
    && chk (.dirUpdate .spi 1) (argsOf .dir [7, 0xFFC] sDir) (fun t => t.runOp .dir == some opUpdate && t.dir.cmdItem.isSome)
    && chk (.l2Insert .spi 0 1) sL2New (fun t => okc (.sieve 0) .ok t && ((t.pipe 0).table.map (·.2)) == [anL2])
    && chk (.prefixInsert .spi 1) {sPrefix with prefixes := []} (fun t => okc (.sieve 2) .ok t && (t.prefixes.map (·.2)) == [aPrefix])) = true := by decide +kernel
theorem test_tables_2 : (chk (.prefixLookup .spi 1) sPrefix (fun t => okc (.sieve 2) .ok t && t.word ((Block.sieve 2).base + 0x28) == 4 && t.word ((Block.sieve 2).base + 0x2C) == 0x308)
    && chk (.nextHopHiWrite .spi 255 0x50061234) (s0.put (R.SIEVEP_NH_LO_MAC 255) 7) (fun t => t.nextHop 255 == (7 + 2^32*0x1234, 6, 5))
    && chk (.learnCommit 1) {sSieve with sieve := []} (fun t => (t.pipe 0).table.map (·.2) == [(((0:L2Entry).put L.MAC 9).put L.PORT 2).put L.VALID 1])) = true := by decide +kernel
theorem test_frames_1 : (chk (.portFrameRx 2 aFacts) sPort (fun t => led1 t (.port 2) == ({}:Ledger).enter 1 && (mapGet t.frames 0).any fun f => f.port == 2 && f.x == aFacts && f.len == 100 && f.stage == .fifo && !f.errored && f.cells.length == 1 && f.stamp == sPort.portStamp 2 false)
    && chk (.faultDecided 2 1) sPort (fun t => (t.port 2).faults == [2] && t.on (R.PORT_LINK_HOLDOFF 2)  && t.on (R.PORT_LINK_UP 2))
    && chk (.linkDown 2) (sFault 1) (fun t => !t.on (R.PORT_LINK_UP 2) && t.get (R.PORT_LINK_CAUSE 2) == 3)
    && chk (.degradeInterval 2 10 0 0 0) (s0.put (R.PORT_DEGRADE_THRESH 2) 9) (fun t => t.on (R.PORT_LINK_DEGRADE 2))) = true := by decide +kernel
theorem test_frames_2 : (chk (.egressStart 0 2 false) (sEgress .inCrust) (fun t => led1 t (.port 2) == (({}:Ledger).enter 1).leave 1 && (t.port 2).last.any fun x => x.da == 5 && x.sa == 9 && x.tag == none && x.fcs == .good)
    && chk (.saInstall .spi 1) sSaNew (fun t => okc (.crust 0) .ok t && t.sa 8200 == some { sSaNew.stagedSa with key := aSakSlot.key, hkey := aesEnc aSakSlot.key (List.replicate 16 0) })
    && chk (.saDelete .spi 1) sSa (fun t => okc (.crust 0) .ok t && t.sa 8192 == none)
    && chk (.txSwitch .spi 2 1) sArmed (fun t => okc (.crust 3) .ok t && t.curSa 2 == some 8196 && t.armedSa 2 == none)) = true := by decide +kernel
theorem test_frames_3 : (chk (.crustRxFrame 0) (sCrust.put (R.CRUSTX_CTL_RX_EN 2 0) 0) (fun t => led1 t (.crust 3) == (({}:Ledger).enter 1).leave 1 && (mapGet t.frames 0).any fun g => g.stage == .checked && g.icv == .none)
    && chk (.icvResult 2 true) sCrust (fun t => (t.sa 8192).any fun x => x.pktsOk == 1 && x.octets == 100 && x.next == 7)
    && chk (.crustTxFrame 0 2) (sCrustTx 0) (fun t => led1 t (.crust 3) == ({}:Ledger).enter 1 && (mapGet t.frames 0).any fun y => y.eg 2 == some (anEg .inCrust))) = true := by decide +kernel
theorem test_rack_starter_tamper_1 : (chk (.leaseExpiry 3) sLease (fun t => t.get (R.HOST_Q_STATE_STATE 3) == 2 && (t.link 13).host == 0)
    && chk (.census .spi 1 true) sRack (fun t => okc .rack .ok t && t.word (Block.rack.base + 0x28) == BitVec.ofNat 32 sRack.censusRows.length)
    && chk (.revoke .spi 1) (argsOf .rack [3] sLease) (fun t => okc .rack .ok t && t.get (R.HOST_Q_STATE_STATE 3) == 2)
    && chk (.rackDroprecPop .spi) sRack (fun t => t.busData == 7 && t.rack.drops == [] && [1,2,3].all fun i => t.word (ownCopy .spi (R.RACK_DROPREC_W_WORD i)).a == nth (DropRec.words ⟨7, 1, 2, 3, 4, 5, 6, 7⟩) i 0)) = true := by decide +kernel
theorem test_rack_starter_tamper_2 : (chk (.derive .spi 1) sDerive (fun t => okc .starter .ok t && mapGet t.starter.slots 5 == some (madeSlot 1 9 (kdf aUseKey.key [0] ([0] ++ List.replicate 48 0) 16)))
    && chk (.unwrap .spi 1) sUnwrap (fun t => okc .starter .auth t && t.starter.slots == sUnwrap.starter.slots)
    && chk (.wrap .spi 1) sWrap (fun t => okc .starter .ok t && t.starter.out == kwWrap aUseKey.key aUseKey.key && t.starter.outFor == some .spi)
    && chk (.slotZero .spi 1) (sZero 3) (fun t => okc .starter .ok t && (mapGet t.starter.slots 3).isNone)) = true := by decide +kernel
theorem test_rack_starter_tamper_3 : (chk (.lcAdvance .spi 1) sLife (fun t => okc .starter .ok t && t.starter.lc == 4 && t.starter.slots == [] && t.resetAsked == some 2)
    && chk (.tamperDecided 2) (sTamp 3) (fun t => t.get R.TAMP_STATE_ACTIVE == 4 && t.on R.TAMP_STATE_ALARM && t.starter.zeroing && t.crust.sas == [] && t.starter.slots.all (fun x => decide (512 ≤ x.1)) && (t.tamp.log.getLast?).any fun x => x.src == 2 && x.resp == 3)
    && chk (.tampLogPop .spi) (sTamp 3) (fun t => t.busData == 7 && t.tamp.log == [] && t.word (ownCopy .spi R.TAMP_LOG_W1_TICKS).a == BitVec.ofNat 32 (2*2^16+2^19+2*2^22+2^31))) = true := by decide +kernel
theorem test_proofer_update_1 : (chk (.proofPost (.core 1)) sPost1 (fun t => t.get (ownCopy (.core 1) R.PROOF_POST_RES_CODE) == 0 && t.get (ownCopy (.core 1) R.PROOF_POST_NUM_NUM) == 1 && t.proof.queue.length == 1 && led1 t .proof == ({}:Ledger).enter 1)
    && chk .proofReading (sEntry aReading) (fun t => t.proof.queue == [] && t.proof.head == 1 && led1 t .proof == ({}:Ledger).leave 1 && t.get R.PROOF_OK_CNT_COUNT == 1 && (mapGet t.proof.records 1).any fun r => r.take 4 == leList 4 1 && r.length == 64)
    && chk .proofParam (sEntry aParam) (fun t => t.proof.age == 20 && t.proof.queue == [] && led1 t .proof == ({}:Ledger).leave 1 && t.proof.sealCnt == 1 && (mapGet t.proof.log 1).isSome)
    && chk (.sealLogRead 1) sSeal (fun t => t.proof.response == sealResponse 2 0 [7])) = true := by decide +kernel
theorem test_proofer_update_2 : (chk (.check .spi 1) sSets (fun t => okc .fwu .ok t && t.fwu == sSets.fwu)
    && chk (.activate .spi 1) sSets (fun t => t.runOp .fwu == some 5 && t.busy .fwu && t.fwu.phase == 1 && t.fwu.act.any fun a => a.stage == .start && a.units == [1,2,3,4])
    && chka (execKeyRevoke .spi 1 (argsOf .fwu [1, 0x4B1D] s0)) (fun t => okc .fwu .ok t && t.fwu.revoked == 2)
    && chk .activateUnit (sAct [5] .back) (fun t => okc .fwu .ok t && t.fwu.act == none && t.fwu.phase == 0 && t.word (Block.fwu.base + 0x2C) == 1)) = true := by decide +kernel
theorem test_proofer_update_3 : (chka (execConfirm (.core 0) 1 {s0 with fwu := {s0.fwu with phase := 2}}) (fun t => okc .fwu .ok t && t.fwu.phase == 0)) = true := by decide +kernel
theorem test_host_crc_pins_1 : (chka (execQCreate .spi 1 sHostOff) (fun t => okc .host .ok t && t.get (R.HOST_Q_STATE_STATE 0) == 1 && (t.link 10).producer == 64 && (t.link 74).producer == 4)
    && chka (execTxPost .host 0 2 sHost) (fun t => (t.link 74).consumer == 4 && (t.link 74).producer == 0 && (t.queue 0).posted == 4)
    && chka (execTxDescriptorFetch 0 100 2 false false 0 0 aFacts (List.replicate 100 0) sHost) (fun t => (t.queue 0).posted == 1 && led1 t .host == (({}:Ledger).enter 1).leave 1 && (mapGet t.frames 0).any fun f => f.x.da == 5 && f.len == 104 && f.stage == .forwarded && f.egress == [{ port := 2 }] && f.cells.length == cellsOf 104)
    && chka (execHostDeliver 0 none sHost) (fun t => (t.queue 0).toHost == [] && (t.queue 0).seq == 1 && (t.queue 0).rxIdx == 1 && led1 t .host == ({}:Ledger).leave 1 && (t.link 10).host == 4)) = true := by decide +kernel
theorem test_host_crc_pins_2 : (chka (execBar2Access true 0x0BFFFFFF 0 [1,2] s0) (fun t => t.dram == [(0x0BFFFFFF, 1)])
    && chka (execCrcGo .spi 3 (s0.put (R.CRC_LEN_OCTETS 3) 9)) (fun t => t.crcRuns 3 && led1 t .crc == ({}:Ledger).enter 1)
    && chka (execCrcJobDone 2 [0x31,0x32,0x33,0x34,0x35,0x36,0x37,0x38,0x39] sCrcJob) (fun t => t.get64 (R.CRC_VAL_LO_VALUE 2) (R.CRC_VAL_HI_VALUE 2) == 0xCBF43926 && t.get (R.CRC_STAT_RESULT 2) == 0 && t.get (R.CRC_STAT_STATE 2) == 2 && led1 t .crc == ({}:Ledger).leave 1)
    && chka (execSpiWrite 0 [] 1 true s0) (fun t => t == { s0 with spiErr := s0.spiErr + 1 })) = true := by decide +kernel
theorem test_host_crc_pins_3 : (chka (execGpioInputChange 40 true s0) (fun t => t.on (pinFld R.GPIO_IN0_LEVEL R.GPIO_IN1_LEVEL 40) && t.on (pinFld R.GPIO_CHG0_CHG R.GPIO_CHG1_CHG 40))) = true := by decide +kernel

/-! Operations that stand behind several commands. -/

theorem test_package : signals.length = 114 ∧ (signals.map (·.ball)).Nodup
    ∧ (signals.find? fun x => x.name == "FEM2_CTL3").map (·.ball.name) = some "BC31"
    ∧ (serdesBall 5 true true).name = "C18" ∧ (serdesBall 5 true false).name = "C19" ∧ laneOwner 5 = some (1, 1) := by decide +kernel
theorem test_tap : (((s0.tapLoad .idcode).tapCapture []).tap.dr.foldr (fun b n => b.toNat + 2 * n) 0) = 0x091605EB
    ∧ ((s0.put R.STARTER_STATE_DEBUG 0).tapLoad .debug).tap.instr = .bypass ∧ ((s0.put R.STARTER_STATE_DEBUG 1).tapLoad .debug).tap.instr = .debug
    ∧ (((s0.tapLoad .bypass).tapCapture []).tapShift true).tap.dr = [true] := by decide +kernel
/-- A write of 0x33221100 to 0x010204 and a read of two words there: the CRC-16 of their octets in the order of R573, worked out by hand. -/
theorem test_spi_crc : spiWriteCrc 0x010204 [0x33221100] = 0xf180 ∧ spiReadCrc 0x010204 1 = 0x9806 := by decide +kernel
theorem test_gray : ∀ n, n < 512 → ungray 11 (gray n) = n := by decide +kernel
/-- Check values of CRC-16 and CRC-32 over the digits 1 to 9. -/
theorem test_fcs : fcsOctets false (leOctets 9 0x393837363534333231) = [0x89, 0x21]
    ∧ fcsOctets true (leOctets 9 0x393837363534333231) = [0x26, 0x39, 0xF4, 0xCB] := by decide +kernel
/-- R218, R219: what the recursive code sends comes back from the decoder; R217: the coded length at rate 3/4. -/
def someBits : List Bool := (List.range 16).map (natBit 0xB50F)
def softOf (l : List Bool) : List Int := l.map fun b => if b then -15 else 15
theorem test_viterbi : ((Decoder.segment codeRsc (keepOf 0) {} (softOf (codeRsc.encode 0 (codeRsc.tailed someBits)))).finish codeRsc).take 16 = someBits
    ∧ (puncture (keepOf 2) 0 (codeK7.encode 0 (codeK7.tailed someBits))).length = codedLen 2 22 := by decide +kernel
/-- R223: the map block of a map comes back; R228: bits dealt to points. -/
theorem test_map_block : readMapBlock 3 (mapBlock 3 (1 + 2 * 4 + 3 * 16 + 2 ^ 48)) = some (1 + 2 * 4 + 3 * 16 + 2 ^ 48)
    ∧ (mapBlock 3 1).length = 28 ∧ mapNcbps 3 (1 + 2 * 4 + 3 * 16 + 2 ^ 48) = 24 ∧ [1, 3, 2].length = 3
    ∧ dealIndex [1, 3, 2] 1 0 = 1 ∧ dealIndex [1, 3, 2] 1 1 = 3 ∧ dealIndex [1, 3, 2] 1 2 = 5 ∧ dealIndex [1, 3, 2] 2 1 = 4 := by decide +kernel
end

section
/-! The state right after reset (R9, R10): where a block's pages lie in BAR0, the Reset column at a page's header, and what the empty state
of the model reads as. -/

namespace Sys2Proof

/-! ## The pages of the blocks (R14, R54) -/

theorem Block.mem_all (b : Block) : b ∈ Block.all := by
  cases b with
  | rf n | wb n | sieve n | port n | crust n => revert n; decide
  | _ => decide

theorem Block.pages_pos (b : Block) : 1 ≤ b.pages := by
  cases b <;> simp [Block.pages]

/-- All pages lie in the first MiB of BAR0. -/
theorem Block.pages_end_le (b : Block) : b.base + 4096 * b.pages ≤ 0x100000 := by
  have h : ∀ c ∈ Block.all, c.base + 4096 * c.pages ≤ 0x100000 := by decide
  exact h b b.mem_all

theorem Block.pages_disjoint (b c : Block) :
    b = c ∨ b.base + 4096 * b.pages ≤ c.base ∨ c.base + 4096 * c.pages ≤ b.base := by
  have h : ∀ b ∈ Block.all, ∀ c ∈ Block.all,
      b = c ∨ b.base + 4096 * b.pages ≤ c.base ∨ c.base + 4096 * c.pages ≤ b.base := by decide
  exact h b b.mem_all c c.mem_all

end Sys2Proof

namespace Sys2Proof.Machine

theorem blockAt_bounds {a o : Nat} {b : Block} (h : blockAt a = some (b, o)) : a = b.base + o ∧ o < 4096 * b.pages := by
  obtain ⟨c, hfind, hpair⟩ := Option.map_eq_some_iff.mp h
  obtain ⟨rfl, rfl⟩ := Prod.mk.inj hpair
  have hc := List.find?_some hfind
  simp only [Bool.and_eq_true, decide_eq_true_eq] at hc
  omega

theorem blockAt_isSome (b : Block) {o : Nat} (ho : o < 4096 * b.pages) : (blockAt (b.base + o)).isSome = true := by
  simp only [blockAt, Option.isSome_map, List.find?_isSome]
  exact ⟨b, b.mem_all, by simp [ho]⟩

/-- The search finds a block, and no other than `b` as pages are disjoint. -/
theorem blockAt_base_add (b : Block) {o : Nat} (ho : o < 4096 * b.pages) : blockAt (b.base + o) = some (b, o) := by
  obtain ⟨⟨c, p⟩, hfound⟩ := Option.isSome_iff_exists.mp (blockAt_isSome b ho)
  obtain ⟨haddr, hp⟩ := blockAt_bounds hfound
  have same : b = c := by
    rcases b.pages_disjoint c with h | h | h
    · exact h
    · omega
    · omega
  subst same
  rw [hfound, Nat.add_left_cancel haddr]

/-! ## The Reset column at a header (R54, R57) -/

theorem resetWord_header (b : Block) {o : Nat} (ho : o < 0x100) : resetWord (b.base + o) = headerReset b o := by
  have hp := b.pages_pos
  have he := b.pages_end_le
  have hkey : (b.base + o) % masterStride = b.base + o := Nat.mod_eq_of_lt (by simp only [masterStride]; omega)
  simp [resetWord, hkey, blockAt_base_add b (show o < 4096 * b.pages by omega), ho]

/-- Past `_STATUS`, at 0xC, a header resets to 0. -/
theorem headerReset_eq_zero (b : Block) {o : Nat} (ho : 0x10 ≤ o) : headerReset b o = 0 := by
  have h0 : o ≠ 0 := by omega
  have h4 : o ≠ 4 := by omega
  have h8 : o ≠ 8 := by omega
  have hC : o ≠ 0xC := by omega
  simp [headerReset, h0, h4, h8, hC]

/-! ## The state right after reset -/

@[simp] theorem State.reset_word (a : Nat) : State.reset.word a = resetWord a := rfl

@[simp] theorem State.reset_blk (b : Block) : State.reset.blk b = {} := rfl

theorem State.reset_get (f : Fld) : State.reset.get f = bitsGet f.lo f.w (resetWord f.a) := rfl

theorem State.reset_get_eq_zero {f : Fld} (h : resetWord f.a = 0) : State.reset.get f = 0 := by
  simp [State.reset_get, h, bitsGet]

/-- `_STATUS` resets with STALE, bit 24, alone set; BUSY is bit 27. -/
theorem State.reset_busy (b : Block) : State.reset.busy b = false := by
  have hw : resetWord (b.base + 0xC) = 0x1000000 := resetWord_header b (by omega)
  have hget : State.reset.get (R.H_STATUS_BUSY b.base) = bitsGet 27 1 0x1000000 := congrArg (bitsGet 27 1) hw
  rw [State.busy, State.on, hget]
  decide

/-- Both halves of FAB_FENCED reset to 0. -/
theorem State.reset_groupFenced (g : Nat) : State.reset.groupFenced g = false := by
  have hlo : State.reset.get R.FAB_FENCED_LO_GROUPS = 0 := State.reset_get_eq_zero (by decide)
  have hhi : State.reset.get R.FAB_FENCED_HI_GROUPS = 0 := State.reset_get_eq_zero (by decide)
  simp [State.groupFenced, hlo, hhi, natBit]

theorem State.reset_fenced (b : Block) : State.reset.fenced b = false := by
  simp [State.fenced, State.reset_groupFenced]

/-- The event flags of every page are clear. -/
theorem State.reset_events (b : Block) : State.reset.word (b.base + 0x40) = 0 := by
  rw [State.reset_word, resetWord_header b (by omega), headerReset_eq_zero b (by omega)]

/-- Settles O4: the reset state lists no register, so each reads its Reset value; the values by number are looked up in the Reset column.
That every domain is on, that the DRAM holds 0 and that the tamper floors are ALARM is the model's choice (log entries 3, 8 and 37). -/
theorem resetState : Obligations.ResetState := by
  unfold Obligations.ResetState
  have domains : State.reset.get R.PWR_STATE_DOMAINS = 0x3FFF := by decide
  have vnow : State.reset.get R.PWR_GOV_VNOW_TARGET = 40 := by decide
  have ceil : State.reset.get R.PWR_GOV_CEIL_CODE = 60 := by decide
  have linkUp : State.reset.get (R.PORT_LINK_UP 0) = 0 := by decide
  have queue : State.reset.get (R.HOST_Q_STATE_STATE 0) = 0 := by decide
  have channel : State.reset.get (R.CRC_STAT_STATE 0) = 0 := by decide
  have blocks (b : Block) : State.reset.busy b = false ∧ (State.reset.blk b).led = {} ∧ (State.reset.blk b).run = none
      ∧ State.reset.fenced b = false ∧ State.reset.word (b.base + 0x40) = 0 :=
    ⟨State.reset_busy b, rfl, rfl, State.reset_fenced b, State.reset_events b⟩
  exact ⟨State.reset_word, domains, vnow, ceil, linkUp, queue, channel, rfl, rfl, blocks⟩

end Sys2Proof.Machine
end

section
/-! Restarts (R20, R114, R497): the words of PWR that a restart writes, and what of the device it leaves. -/

namespace Sys2Proof.Machine

/-! ## Reading a map of which some keys are gone -/

theorem mapGet_filter_key {α : Type} (m : AMap α) {q : Nat → Bool} {k : Nat} (hk : q k = true) :
    mapGet (m.filter fun p => q p.1) k = mapGet m k := by
  induction m with
  | nil => rfl
  | cons x r ih =>
    obtain ⟨k', v⟩ := x
    by_cases hq : q k' = true
    · simp [hq, mapGet, ih]
    · have hne : k' ≠ k := fun e => hq (e ▸ hk)
      simp [hq, mapGet, hne, ih]

/-- A block that loses its registers leaves those of every other block. -/
theorem State.blankBlock_word (s : State) (b : Block) {a : Nat} (h : keyOf b a = false) : (s.blankBlock b).word a = s.word a := by
  have hget : mapGet (s.regs.filter fun p => !keyOf b p.1) a = mapGet s.regs a :=
    mapGet_filter_key s.regs (q := fun k => !keyOf b k) (by simp [h])
  simp only [State.word, State.blankBlock, mapGetD, hget]

theorem foldl_blankBlock_word (l : List Block) {a : Nat} (h : ∀ b ∈ l, keyOf b a = false) (s : State) :
    (l.foldl (fun s b => s.blankBlock b) s).word a = s.word a := by
  induction l generalizing s with
  | nil => rfl
  | cons b r ih =>
    rw [List.foldl_cons, ih (fun c hc => h c (List.mem_cons_of_mem _ hc)), s.blankBlock_word b (h b List.mem_cons_self)]

/-- The words of PWR are keys of PWR alone. -/
theorem keyOf_pwr (b : Block) {o : Nat} (ho : o < 0x1000) : keyOf b (Block.pwr.base + o) = (Block.pwr == b) := by
  have hkey : (Block.pwr.base + o) % masterStride = Block.pwr.base + o :=
    Nat.mod_eq_of_lt (by simp only [masterStride, Block.base]; omega)
  simp [keyOf, hkey, blockAt_base_add Block.pwr (show o < 4096 * Block.pwr.pages by simpa [Block.pages] using ho)]

/-! ## The domains of PWR_STATE (R20) -/

theorem State.pdOn_eq_testBit (s : State) {d : Nat} (hd : d < 14) :
    s.pdOn d = (s.word R.PWR_STATE_DOMAINS.a).toNat.testBit (16 + d) := by
  simp [State.pdOn, State.get, natBit_eq_testBit, testBit_bitsGet, R.PWR_STATE_DOMAINS, hd]

theorem State.word_congr {s t : State} (h : t.regs = s.regs) {a : Nat} : t.word a = s.word a := by rw [State.word, State.word, h]

theorem State.pdOn_congr {s t : State} (h : t.word R.PWR_STATE_DOMAINS.a = s.word R.PWR_STATE_DOMAINS.a) (d : Nat) : t.pdOn d = s.pdOn d := by
  simp only [State.pdOn, State.get, h]

/-- The fields of PWR_STATE below DOMAINS. -/
theorem State.pdOn_put_below (s : State) (f : Fld) (x d : Nat) (h : f.lo + f.w ≤ R.PWR_STATE_DOMAINS.lo) : (s.put f x).pdOn d = s.pdOn d := by
  rw [State.pdOn, s.get_put_apart f _ x (Nat.le_trans h (by decide)) (.inr (.inl h)), State.pdOn]

/-- One domain is switched. -/
theorem State.pdOn_putB (s : State) {x d : Nat} (on : Bool) (hx : x < 14) (hd : d < 14) :
    (s.putB ⟨R.PWR_STATE_DOMAINS.a, R.PWR_STATE_DOMAINS.lo + x, 1⟩ on).pdOn d = if d = x then on else s.pdOn d := by
  rw [State.pdOn_eq_testBit _ hd, State.pdOn_eq_testBit _ hd, State.putB, State.put, State.word_setWord_same,
    testBit_bitsSet _ _ _ _ _ (by simp only [R.PWR_STATE_DOMAINS]; omega)]
  by_cases h : d = x
  · subst h
    cases on <;> simp [R.PWR_STATE_DOMAINS]
  · rw [if_neg (by simp only [R.PWR_STATE_DOMAINS]; omega), if_neg h]

theorem State.pdOn_setDomains (l : List Nat) (on : Bool) {d : Nat} (hl : ∀ x ∈ l, x < 14) (hd : d < 14) (s : State) :
    (s.setDomains l on).pdOn d = if d ∈ l then on else s.pdOn d := by
  induction l generalizing s with
  | nil => simp [State.setDomains]
  | cons x r ih =>
    have hx : x < 14 := hl x List.mem_cons_self
    rw [State.setDomains, List.foldl_cons, ← State.setDomains, ih fun y hy => hl y (List.mem_cons_of_mem _ hy), s.pdOn_putB on hx hd]
    by_cases hr : d ∈ r <;> simp [hr]

/-! ## Nothing but pages -/

/-- From `s` to `t` nothing changes but registers, staged sets, what pages hold and the device-wide commit. -/
def State.onlyPages (s t : State) : Prop :=
  ∃ regs applied blocks devCommit, t = { s with regs := regs, applied := applied, blocks := blocks, devCommit := devCommit }

theorem State.onlyPages.refl (s : State) : s.onlyPages s := ⟨_, _, _, _, rfl⟩

theorem State.onlyPages.trans {s t u : State} (h : s.onlyPages t) (k : t.onlyPages u) : s.onlyPages u := by
  obtain ⟨_, _, _, _, rfl⟩ := h
  exact k

theorem State.onlyPages.foldl {α : Type} {f : State → α → State} (hf : ∀ (s : State) x, s.onlyPages (f s x)) (l : List α) (s : State) :
    s.onlyPages (l.foldl f s) := by
  induction l generalizing s with
  | nil => exact .refl s
  | cons x r ih => exact (hf s x).trans (ih _)

theorem State.put_onlyPages (s : State) (f : Fld) (x : Nat) : s.onlyPages (s.put f x) := ⟨_, _, _, _, rfl⟩

theorem State.blankBlock_onlyPages (s : State) (b : Block) : s.onlyPages (s.blankBlock b) := ⟨_, _, _, _, rfl⟩

theorem State.setDomains_onlyPages (s : State) (l : List Nat) (on : Bool) : s.onlyPages (s.setDomains l on) :=
  .foldl (fun s _ => s.put_onlyPages _ _) l s

theorem State.enterSwait_onlyPages (s : State) (l : List Nat) : s.onlyPages (s.enterSwait l) :=
  .foldl (fun s _ => s.put_onlyPages _ _) l s

/-! ## The device-wide commit that goes on over a restart (R87) -/

/-- From `s` to `t` staged sets are deferred: nothing changes but pages, and no word but some `_CFG_PEND`. -/
def State.onlyDefers (s t : State) : Prop :=
  s.onlyPages t ∧ ∀ a, (∀ b : Block, b.base + 0x78 ≠ a) → t.word a = s.word a

theorem State.onlyDefers.refl (s : State) : s.onlyDefers s := ⟨.refl s, fun _ _ => rfl⟩

theorem State.onlyDefers.trans {s t u : State} (h : s.onlyDefers t) (k : t.onlyDefers u) : s.onlyDefers u :=
  ⟨h.1.trans k.1, fun a ha => (k.2 a ha).trans (h.2 a ha)⟩

theorem State.deferSet_onlyDefers (s : State) (b : Block) : s.onlyDefers (s.deferSet b) := by
  refine ⟨⟨_, _, _, _, rfl⟩, fun a ha => ?_⟩
  rw [State.deferSet, State.word_put_ne _ _ _ _ (ha b), State.word_put_ne _ _ _ _ (ha b), State.word_setBlk]

theorem State.foldl_deferSet_onlyDefers (l : List Block) (s : State) : s.onlyDefers (l.foldl (fun s b => s.deferSet b) s) := by
  induction l generalizing s with
  | nil => exact .refl s
  | cons b r ih => exact (s.deferSet_onlyDefers b).trans (ih _)

/-- The count of the device-wide commit is no register. -/
theorem State.onlyDefers.withDevCommit {s t : State} (h : s.onlyDefers t) (c : Option DevCommit) : s.onlyDefers { t with devCommit := c } :=
  h.trans ⟨⟨_, _, _, _, rfl⟩, fun _ _ => rfl⟩

theorem State.nextSteps_onlyDefers (fuel : Nat) (s : State) : s.onlyDefers (s.nextSteps fuel) := by
  induction fuel generalizing s with
  | zero => exact .refl s
  | succ n ih =>
    unfold State.nextSteps
    split
    · exact .refl s
    · split
      · exact .refl s
      · have deferred (l : List Block) (c : Option DevCommit) := (s.foldl_deferSet_onlyDefers l).withDevCommit c
        dsimp only
        split
        · exact deferred _ _
        · exact (deferred _ _).trans (ih _)

/-- No word of PWR past its header is a `_CFG_PEND`. -/
theorem State.nextSteps_word_pwr (s : State) (fuel : Nat) {o : Nat} (h1 : 0x100 ≤ o) (h2 : o < 0x1000) :
    (s.nextSteps fuel).word (Block.pwr.base + o) = s.word (Block.pwr.base + o) := by
  refine (s.nextSteps_onlyDefers fuel).2 _ fun b => ?_
  cases b <;> simp [Block.base] <;> omega

/-! ## What is lost (R20, R114) -/

/-- The registers of the domains that a reset does not spare are gone, and those domains are off. -/
def State.blankLost (s : State) : State :=
  ((Block.all.filter fun b => !spared.contains b.domain).foldl (fun s b => s.blankBlock b) s).setDomains
    [1, 3, 4, 5, 6, 7, 8, 9, 10, 11, 12, 13] false

theorem State.blankLost_onlyPages (s : State) : s.onlyPages s.blankLost :=
  (State.onlyPages.foldl State.blankBlock_onlyPages _ s).trans (State.setDomains_onlyPages _ _ _)

theorem State.blankLost_pdOn (s : State) {d : Nat} (h1 : 1 ≤ d) (h2 : d < 14) : s.blankLost.pdOn d = (d == 2 && s.pdOn 2) := by
  have hpwr : ∀ b ∈ Block.all.filter fun b => !spared.contains b.domain, keyOf b R.PWR_STATE_DOMAINS.a = false := by
    intro b hb
    have hdom : ¬ spared.contains b.domain = true := by simpa using (List.mem_filter.mp hb).2
    have hne : Block.pwr ≠ b := fun e => hdom (e ▸ rfl)
    exact (keyOf_pwr b (show 0x100 < 0x1000 by decide)).trans (by simpa using hne)
  rw [State.blankLost, State.pdOn_setDomains _ _ (by decide) h2, State.pdOn_congr (foldl_blankBlock_word _ hpwr s) d]
  by_cases h : d = 2
  · subst h
    rfl
  · have hlost : d ∈ [1, 3, 4, 5, 6, 7, 8, 9, 10, 11, 12, 13] := by
      simp only [List.mem_cons, List.not_mem_nil, or_false]
      omega
    simp [hlost, h]

/-- What is lost beside pages, from the state in which those are blank. -/
def State.loseRest (u : State) : State :=
  let u := (u.ledDrop .ret u.ret.dirty.length).put R.RET_CKPT_STAT_DIRTY 0
  { u.fwuReset with
    rack := {}, peel := {}, dir := {}, wb := [], phy := {}, rf := [], mac := {}, bcn := {}, flood := {}, ports := [], frames := [], sieve := []
    prefixes := [], crust := {}, crc := { hostWrite := u.crc.hostWrite }, dram := [], bfifo := []
    host := { u.host with queues := [], parked := [] }
    starter := { copies := u.starter.copies, lc := u.starter.lc, rows := u.starter.rows, legacyOff := u.starter.legacyOff, held := false
                 zeroing := u.starter.zeroing }
    ret := { u.ret with dirty := [], restore := [], restoring := false, bcastCounter := u.ret.bcastCeil, bcastDirty := false } }

theorem State.loseVolatile_eq (s : State) : s.loseVolatile = s.blankLost.loseRest := rfl

theorem State.loseRest_word (u : State) {a : Nat} (ha : R.RET_CKPT_STAT_DIRTY.a ≠ a) : u.loseRest.word a = u.word a :=
  (State.word_congr rfl).trans (State.word_put_ne (u.ledDrop .ret u.ret.dirty.length) R.RET_CKPT_STAT_DIRTY 0 a ha)

theorem State.loseRest_keeps_and_loses (u : State) :
    u.loseRest.tb = u.tb ∧ u.loseRest.proof = u.proof ∧ u.loseRest.boot = u.boot ∧ u.loseRest.frames = [] ∧ u.loseRest.peel.items = []
      ∧ u.loseRest.dram = [] := ⟨rfl, rfl, rfl, rfl, rfl, rfl⟩

theorem State.loseVolatile_keeps_and_loses (s : State) :
    s.loseVolatile.tb = s.tb ∧ s.loseVolatile.proof = s.proof ∧ s.loseVolatile.boot = s.boot ∧ s.loseVolatile.frames = []
      ∧ s.loseVolatile.peel.items = [] ∧ s.loseVolatile.dram = [] := by
  obtain ⟨_, _, _, _, e⟩ := s.blankLost_onlyPages
  rw [State.loseVolatile_eq, e]
  exact State.loseRest_keeps_and_loses _

theorem State.loseVolatile_pdOn (s : State) {d : Nat} (h1 : 1 ≤ d) (h2 : d < 14) : s.loseVolatile.pdOn d = (d == 2 && s.pdOn 2) := by
  rw [State.loseVolatile_eq, State.pdOn_congr (s.blankLost.loseRest_word (by decide)), s.blankLost_pdOn h1 h2]

/-! ## The start-up begins (R109, R110, R112) -/

theorem State.enterSwait_word (l : List Nat) {a : Nat} (ha : a < 0x3000) (s : State) : (s.enterSwait l).word a = s.word a := by
  induction l generalizing s with
  | nil => rfl
  | cons p r ih =>
    rw [State.enterSwait, List.foldl_cons, ← State.enterSwait, ih]
    exact s.word_put_ne _ _ _ (by simp only [R.RET_SWAIT_ACTIVE]; omega)

/-- The registers of RET that a start-up clears or sets. -/
def State.clearRet (s : State) : State :=
  ((((s.enterSwait (List.range 10)).put R.RET_RESTORE_STAT_NODES 0).put R.RET_RESTORE_STAT_MAXU 0).put R.RET_RESTORE_STAT_DONE 0).put
    R.RET_OUTAGE_S 0

theorem State.clearRet_onlyPages (s : State) : s.onlyPages s.clearRet :=
  (((s.enterSwait_onlyPages _).trans (State.put_onlyPages _ _ _)).trans (State.put_onlyPages _ _ _)).trans
    ((State.put_onlyPages _ _ _).trans (State.put_onlyPages _ _ _))

theorem State.clearRet_word (s : State) {a : Nat} (ha : a < 0x3000) : s.clearRet.word a = s.word a := by
  have past (f : Fld) (hf : 0x3000 ≤ f.a) : f.a ≠ a := by omega
  rw [State.clearRet, State.word_put_ne _ _ _ _ (past _ (by decide)), State.word_put_ne _ _ _ _ (past _ (by decide)),
    State.word_put_ne _ _ _ _ (past _ (by decide)), State.word_put_ne _ _ _ _ (past _ (by decide)), State.enterSwait_word _ ha]

/-- PWR_STATE as a start-up begins: in transition, and not failed. -/
def State.startShown (s : State) : State := (s.clearRet.put R.PWR_STATE_TRANS 1).put R.PWR_STATE_BOOT_FAIL 0

theorem State.beginStart_eq (s : State) :
    s.beginStart = { s.startShown with boot := .aon, entering := false, wake := none, resetAsked := none } := rfl

theorem State.beginStart_regs (s : State) : s.beginStart.regs = s.startShown.regs := by rw [State.beginStart_eq]

theorem State.beginStart_onlyPages {s t : State} (h : s.onlyPages t) :
    State.onlyPages { s with boot := .aon, entering := false, wake := none, resetAsked := none } t.beginStart := by
  obtain ⟨_, _, _, _, e⟩ := h.trans t.clearRet_onlyPages
  rw [State.beginStart_eq, State.startShown, e]
  exact ⟨_, _, _, _, rfl⟩

theorem State.beginStart_word (s : State) {a : Nat} (ha : a < 0x3000) (hs : R.PWR_STATE_STATE.a ≠ a) : s.beginStart.word a = s.word a := by
  rw [State.word_congr s.beginStart_regs, State.startShown, State.word_put_ne _ R.PWR_STATE_BOOT_FAIL _ _ hs,
    State.word_put_ne _ R.PWR_STATE_TRANS _ _ hs, s.clearRet_word ha]

theorem State.beginStart_pdOn (s : State) (d : Nat) : s.beginStart.pdOn d = s.pdOn d := by
  rw [State.pdOn_congr (State.word_congr s.beginStart_regs), State.startShown,
    State.pdOn_put_below _ R.PWR_STATE_BOOT_FAIL _ _ (by decide), State.pdOn_put_below _ R.PWR_STATE_TRANS _ _ (by decide),
    State.pdOn_congr (s.clearRet_word (by decide))]

/-! ## The restart (R114, R497) -/

/-- PWR_RST_CAUSE records the cause, STATE is RUN, and the start-up begins. -/
def State.startOver (s : State) (cause : Nat) : State :=
  ((s.put ⟨R.PWR_RST_CAUSE_CAUSE.a, cause, 1⟩ 1).put R.PWR_STATE_STATE 0).beginStart

theorem State.startOver_onlyPages (s : State) (cause : Nat) :
    State.onlyPages { s with boot := .aon, entering := false, wake := none, resetAsked := none } (s.startOver cause) :=
  State.beginStart_onlyPages ((s.put_onlyPages ⟨R.PWR_RST_CAUSE_CAUSE.a, cause, 1⟩ 1).trans (State.put_onlyPages _ R.PWR_STATE_STATE 0))

theorem State.startOver_cause (s : State) {cause : Nat} (hc : cause < 32) :
    (s.startOver cause).on ⟨R.PWR_RST_CAUSE_CAUSE.a, cause, 1⟩ = true := by
  have hon := s.on_put_one ⟨R.PWR_RST_CAUSE_CAUSE.a, cause, 1⟩ (by simp only [Fld.ok]; omega) rfl
  rw [← hon]
  simp only [State.on, State.get]
  rw [State.startOver, State.beginStart_word _ (by decide) (by decide), State.word_put_ne _ _ _ _ (by decide)]

theorem State.startOver_pdOn (s : State) (cause d : Nat) : (s.startOver cause).pdOn d = s.pdOn d := by
  have hne : R.PWR_RST_CAUSE_CAUSE.a ≠ R.PWR_STATE_DOMAINS.a := by decide
  rw [State.startOver, State.beginStart_pdOn, State.pdOn_put_below _ R.PWR_STATE_STATE _ _ (by decide),
    State.pdOn_congr (s.word_put_ne ⟨R.PWR_RST_CAUSE_CAUSE.a, cause, 1⟩ 1 _ hne)]

/-- A restart: what is lost, the start-up, the sets deferred that a device-wide commit owes; the boot state is `aon`, or TAMPER_HOLD still. -/
theorem State.restart_eq (s : State) (cause : Nat) : s.restart cause =
    { (s.ageRecords.loseVolatile.startOver cause).nextSteps 10 with boot := if s.boot = .tamperHold then .tamperHold else .aon } := by
  have hheld : s.ageRecords.loseVolatile.boot = s.boot := by
    obtain ⟨-, -, hboot, -⟩ := s.ageRecords.loseVolatile_keeps_and_loses
    exact hboot
  unfold State.restart
  generalize s.ageRecords.loseVolatile = u at hheld ⊢
  have hboot : ((u.startOver cause).nextSteps 10).boot = .aon := by
    obtain ⟨_, _, _, _, e⟩ := (u.startOver_onlyPages cause).trans ((u.startOver cause).nextSteps_onlyDefers 10).1
    rw [e]
  dsimp only
  rw [← State.startOver, State.put_boot, hheld]
  by_cases h : s.boot = .tamperHold
  · simp [h]
  · simp [h, ← hboot]

/-- A restart takes every field but pages and the boot state from what the loss leaves. -/
theorem State.restart_onlyPages (s : State) (cause : Nat) :
    State.onlyPages { s.ageRecords.loseVolatile with boot := (s.restart cause).boot, entering := false, wake := none, resetAsked := none }
      (s.restart cause) := by
  rw [State.restart_eq]
  generalize s.ageRecords.loseVolatile = u
  obtain ⟨_, _, _, _, e⟩ := (u.startOver_onlyPages cause).trans ((u.startOver cause).nextSteps_onlyDefers 10).1
  rw [e]
  exact ⟨_, _, _, _, rfl⟩

theorem State.restart_boot (s : State) (cause : Nat) : (s.restart cause).boot = if s.boot = .tamperHold then .tamperHold else .aon := by
  rw [State.restart_eq]

theorem State.restart_resetAsked (s : State) (cause : Nat) : (s.restart cause).resetAsked = none := by
  obtain ⟨_, _, _, _, e⟩ := s.restart_onlyPages cause
  rw [e]

theorem State.restart_word_pwr (s : State) (cause : Nat) {o : Nat} (h1 : 0x100 ≤ o) (h2 : o < 0x1000) :
    (s.restart cause).word (Block.pwr.base + o) = (s.ageRecords.loseVolatile.startOver cause).word (Block.pwr.base + o) := by
  have hregs : (s.restart cause).regs = ((s.ageRecords.loseVolatile.startOver cause).nextSteps 10).regs := by rw [State.restart_eq]
  rw [State.word_congr hregs, State.nextSteps_word_pwr _ 10 h1 h2]

/-- PWR_RST_CAUSE records the cause. -/
theorem State.restart_cause (s : State) {cause : Nat} (hc : cause < 32) : (s.restart cause).on ⟨R.PWR_RST_CAUSE_CAUSE.a, cause, 1⟩ = true := by
  have hword : (s.restart cause).word R.PWR_RST_CAUSE_CAUSE.a = (s.ageRecords.loseVolatile.startOver cause).word R.PWR_RST_CAUSE_CAUSE.a :=
    s.restart_word_pwr cause (o := 0x118) (by decide) (by decide)
  rw [← s.ageRecords.loseVolatile.startOver_cause hc, State.on, State.on, State.get, State.get, hword]

/-- PD2 stays as it is, the other domains past PD0 are off. -/
theorem State.restart_pdOn (s : State) (cause : Nat) {d : Nat} (h1 : 1 ≤ d) (h2 : d < 14) : (s.restart cause).pdOn d = (d == 2 && s.pdOn 2) := by
  have hword : (s.restart cause).word R.PWR_STATE_DOMAINS.a = (s.ageRecords.loseVolatile.startOver cause).word R.PWR_STATE_DOMAINS.a :=
    s.restart_word_pwr cause (o := 0x100) (by decide) (by decide)
  rw [State.pdOn_congr hword, State.startOver_pdOn, State.loseVolatile_pdOn _ h1 h2,
    State.pdOn_congr (s := s) (t := s.ageRecords) (State.word_congr rfl)]

/-- The time base and Proofer go on; frames, items and the DRAM are lost. -/
theorem State.restart_keeps_and_loses (s : State) (cause : Nat) :
    (s.restart cause).tb = s.tb ∧ (s.restart cause).proof = s.proof ∧ (s.restart cause).frames = []
      ∧ (s.restart cause).peel.items = [] ∧ (s.restart cause).dram = [] := by
  have htb : s.ageRecords.tb = s.tb := rfl
  have hproof : s.ageRecords.proof = s.proof := rfl
  obtain ⟨htb', hproof', -, hframes, hitems, hdram⟩ := s.ageRecords.loseVolatile_keeps_and_loses
  obtain ⟨_, _, _, _, e⟩ := s.restart_onlyPages cause
  rw [e]
  dsimp only
  exact ⟨htb'.trans htb, hproof'.trans hproof, hframes, hitems, hdram⟩

/-! ## The resets -/

theorem execPinReset_long (s : State) {lowNs : Nat} (hr : s.boot.resettable = true) (h : 10000 ≤ lowNs) :
    execPinReset lowNs s = .next (s.restart 1) := by
  have hshort : ¬ lowNs < 8000 := by omega
  simp [execPinReset, hr, hshort, h]

theorem execPinReset_short (s : State) {lowNs : Nat} (h : lowNs < 8000) : execPinReset lowNs s = .next s := by
  simp [execPinReset, h]

theorem execSoftwareReset_asked (s : State) {c : Nat} (h : s.resetAsked = some c) (hr : s.boot.resettable = true) :
    execSoftwareReset s = .next (s.restart c) := by
  simp [execSoftwareReset, h, hr]

/-- Settles O22: a pin reset and a software reset are `State.restart`, which writes PWR_RST_CAUSE, switches off every domain but PD0 and PD2
and leaves the time base and Proofer.  That the DRAM then reads 0 (log entry 8) and that a device-wide commit goes on over a reset (log
entry 42) is the model's choice; the commit only defers sets, so the statement holds with one in progress too. -/
theorem resetsRestart : Obligations.ResetsRestart := by
  unfold Obligations.ResetsRestart
  refine ⟨?pin, ?short, ?software, ?held, ?domains, ?kept⟩
  case pin =>
    intro lowNs s hr hh hlow
    exact answers_of (execPinReset_long s hr hlow) ⟨rfl, by rw [s.restart_boot, if_neg hh], s.restart_cause (by decide)⟩
  case short =>
    intro lowNs s hlow
    exact answers_of (execPinReset_short s hlow) rfl
  case software =>
    intro c s hasked hc hr hh
    exact answers_of (execSoftwareReset_asked s hasked hr)
      ⟨rfl, by rw [s.restart_boot, if_neg hh], s.restart_resetAsked c, s.restart_cause hc⟩
  case held =>
    intro lowNs s hh hlow
    exact answers_of (execPinReset_long s (by rw [hh]; rfl) hlow) (by rw [s.restart_boot, if_pos hh])
  case domains =>
    intro c d s _ h1 h2
    exact s.restart_pdOn c h1 h2
  case kept =>
    intro c s
    exact s.restart_keeps_and_loses c

end Sys2Proof.Machine
end

section
/-! A page whose domain is off (R21): commands, writes by address, and reads over the management SPI. -/

namespace Sys2Proof.Machine

/-! ## A block from its number -/

theorem portBlock_val : ∀ p : Fin 10, portBlock p.val = .port p := by decide

theorem l2Block_ofNat : ∀ e : Fin 3, e.val ≠ 2 → l2Block (Fin.ofNat 2 e.val) = .sieve e := by decide

theorem xBlock_ofNat : ∀ x : Fin 4, x.val ≠ 0 → xBlock (Fin.ofNat 3 (x.val - 1)) = .crust x := by decide

/-! ## Commands -/

section
variable {s : State} {m : Master} {b : Block}

theorem State.reaches_off (hp : s.powered b = false) : s.reaches m b = false := by simp [State.reaches, hp]

theorem State.onCommand_off (tag : BitVec 8) (f : State → State) (hm : s.hears m = true) (hp : s.powered b = false) :
    s.onCommand m b tag f = s.offWrite := s.onCommon_off m b tag _ hm hp

theorem State.unknownCmd_off (op : Nat) (tag : BitVec 8) (hm : s.hears m = true) (hp : s.powered b = false) :
    s.unknownCmd m b op tag = s.offWrite := s.onCommon_off m b tag _ hm hp

theorem State.onStarter_off (tag : BitVec 8) (op : Nat) (exempt : Bool) (f : State → State) (hm : s.hears m = true)
    (hp : s.powered .starter = false) : s.onStarter m tag op exempt f = s.offWrite := State.onCommand_off tag _ hm hp

theorem State.onSa_off (tag : BitVec 8) (f : State → State) (hm : s.hears m = true) (hp : s.powered (.crust 0) = false) :
    s.onSa m tag f = s.offWrite := State.onCommand_off tag _ hm hp

theorem State.onPk_off (x : Fin 3) (tag : BitVec 8) (f : State → Nat → State) (hm : s.hears m = true) (hp : s.powered (xBlock x) = false) :
    s.onPk m x tag f = s.offWrite := State.onCommand_off tag _ hm hp

end

/-- A command begins with the check of its page, which counts it where the domain is off. -/
theorem exec_page_off {c : Instr} {m : Master} {b : Block} {tag : BitVec 8} {s : State} (hc : c.page = some (m, b, tag))
    (hm : s.hears m = true) (hp : s.powered b = false) : exec c s = .next s.offWrite := by
  cases c
  case commit =>
    cases hc
    simp only [exec, execCommit, State.deviceCommit]
    split
    next hsys => rw [← hsys, State.onCommon_off _ _ _ _ _ hm hp]
    next => rw [State.onCommon_off _ _ _ _ _ hm hp]
  case abort =>
    cases hc
    simp only [exec, execAbort, State.reaches_off hp, Bool.false_and, Bool.false_eq_true, if_false, State.onCommon_off _ _ _ _ _ hm hp]
  case fence =>
    cases hc
    simp only [exec, execFence, State.fabFence]
    split
    next hfab => rw [← hfab, State.onPage_off _ _ _ _ hm hp]
    next =>
      split
      next => rw [State.onCommon_off _ _ _ _ _ hm hp]
      next => rw [State.onPage_off _ _ _ _ hm hp]
  case unfence =>
    cases hc
    simp only [exec, execUnfence, State.fabUnfence]
    split
    next hfab => rw [← hfab, State.onCommon_off _ _ _ _ _ hm hp]
    next => rw [State.onCommon_off _ _ _ _ _ hm hp]
  case ledgerSnapshot | nop | deviceCommit | fabUnfence =>
    cases hc
    exact congrArg Host.Outcome.next (State.onCommon_off _ _ _ _ _ hm hp)
  case fabFence =>
    cases hc
    exact congrArg Host.Outcome.next (State.onPage_off _ _ _ _ hm hp)
  case resetDevice =>
    cases hc
    simp only [exec, execResetDevice, State.reaches_off hp, Bool.false_and, Bool.false_eq_true, if_false, State.onCommand_off _ _ hm hp]
  case retrain | forceDown =>
    cases hc
    exact congrArg Host.Outcome.next (State.onCommand_off _ _ hm (portBlock_val _ ▸ hp))
  case saInstall | saDelete | saRead | saPn =>
    cases hc
    exact congrArg Host.Outcome.next (State.onSa_off _ _ hm hp)
  case txArm | txSwitch | txDisarm =>
    cases hc
    exact congrArg Host.Outcome.next (State.onPk_off _ _ _ hm hp)
  case derive | unwrap | wrap | generate | mkaKeys | slotZero | slotInfo | mcExtend | mcRead | legacyOff =>
    cases hc
    exact congrArg Host.Outcome.next (State.onStarter_off _ _ _ _ hm hp)
  -- What is left is a command of a block's own, or no write of a page's `_CMD`.
  all_goals cases hc
  all_goals exact congrArg Host.Outcome.next (State.onCommand_off _ _ hm hp)

/-- Each entry of a block's opcode table begins with the same check. -/
theorem ownOp_off {m : Master} {b : Block} {tag : BitVec 8} {unpaced : Bool} {s : State} {op : Nat} {r : Answer} (hm : s.hears m = true)
    (hp : s.powered b = false) (h : ownOp m b tag unpaced s op = some r) : r = .next s.offWrite := by
  cases b
  case pwr =>
    simp only [ownOp, pwrOp] at h
    split at h <;> cases h
    · exact exec_page_off (c := .enterRun m tag) rfl hm hp
    · exact exec_page_off (c := .enterTrim m tag) rfl hm hp
    · exact exec_page_off (c := .enterHold m tag) rfl hm hp
    · exact exec_page_off (c := .resetDevice m tag) rfl hm hp
  case ret | tamp | tb | rf | wb | phy | mac | bcn | flood | peel | dir | rack | starter | fwu | host =>
    simp only [ownOp, retOp, tbOp, rfOp, wbOp, floodOp, peelOp, dirOp, rackOp, starterOp, fwuOp, hostOp] at h
    split at h <;> cases h <;> exact congrArg Host.Outcome.next (State.onCommand_off _ _ hm hp)
  case port p =>
    simp only [ownOp, portOp] at h
    split at h <;> cases h <;> exact congrArg Host.Outcome.next (State.onCommand_off _ _ hm (portBlock_val p ▸ hp))
  case sieve e =>
    by_cases he : e.val = 2
    · simp only [ownOp, if_pos he, prefixOp] at h
      obtain rfl : e = 2 := Fin.ext he
      split at h <;> cases h <;> exact congrArg Host.Outcome.next (State.onCommand_off _ _ hm hp)
    · simp only [ownOp, if_neg he, l2Op] at h
      split at h <;> cases h <;> exact congrArg Host.Outcome.next (State.onCommand_off _ _ hm (l2Block_ofNat e he ▸ hp))
  case crust x =>
    by_cases hx : x.val = 0
    · simp only [ownOp, if_pos hx, crustOp] at h
      obtain rfl : x = 0 := Fin.ext hx
      split at h <;> cases h <;> exact congrArg Host.Outcome.next (State.onSa_off _ _ hm hp)
    · simp only [ownOp, if_neg hx, crustxOp] at h
      split at h <;> cases h <;> exact congrArg Host.Outcome.next (State.onPk_off _ _ _ hm (xBlock_ofNat x hx ▸ hp))
  all_goals cases h

/-! ## Writes by address -/

/-- The sender and the page of a command that is a write of a register other than `_CMD` (R56). -/
def registerPage : Instr → Option (Master × Block)
  | .evtClear m b _ _ | .evtForce m b _ | .evtCntClear m b _ _ _ | .refusedClr m b | .cfgStageWrite m b _ | .partAck m b _ => some (m, b)
  | .tampClear m _ | .tampLock m _ => some (m, .tamp)
  | .tbLatch m | .tbSrcSetWrite m _ | .tbRateWrite m _ => some (m, .tb)
  | .trigCtlWrite m _ _ => some (m, .trig)
  | .chainEnableWrite m n _ | .centreWrite m n _ => some (m, .rf n)
  | .xtxWrite m _ => some (m, .rf 0)
  | .bcnParentWrite m _ => some (m, .bcn)
  | .peelPost m | .peelFinish m _ | .peelPauseWrite m _ => some (m, .peel)
  | .nextHopHiWrite m _ _ => some (m, .sieve 2)
  | .portModeWrite m p _ _ => some (m, .port p)
  | .pnThr64HiWrite m _ => some (m, .crust 0)
  | .proofPost m | .proofPubSelWrite m _ => some (m, .proof)
  | .rxRet m _ _ | .txPost m _ _ | .msixUnmask m _ => some (m, .host)
  | .crcGo m _ | .crcStop m _ => some (m, .crc)
  | _ => none

section
variable {s : State} {m : Master} {b : Block} (hm : s.hears m = true) (hp : s.powered b = false)
include hm hp

theorem State.busWrite_off {a : Nat} (full : Bool) (v : W32) (h1 : b.base ≤ a) (h2 : a < b.base + 4096 * b.pages) :
    s.busWrite m a full v = (s.offWrite, .ignored) := by
  obtain ⟨o, rfl⟩ := Nat.exists_eq_add_of_le h1
  simp [State.busWrite, hm, hp, blockAt_base_add b (show o < 4096 * b.pages by omega)]

/-- Every such command writes its register over the bus, or checks the page itself. -/
theorem exec_registerPage_off {c : Instr} (hc : registerPage c = some (m, b)) : exec c s = .next s.offWrite := by
  have first := b.pages_pos
  cases c
  case evtClear m b v hw =>
    cases hc
    simp only [exec, execEvtClear, State.busWrite_off hm hp (a := b.base + 0x40) true v (by omega) (by omega)]
  case evtForce m b v =>
    cases hc
    simp only [exec, execEvtForce, State.busWrite_off hm hp (a := b.base + 0x48) true v (by omega) (by omega)]
  case evtCntClear m b k v hw =>
    cases hc
    simp only [exec, execEvtCntClear, State.busWrite_off hm hp (a := b.base + 0x50 + 4 * k.val) true v (by omega) (by omega)]
  case refusedClr m b =>
    cases hc
    simp only [exec, execRefusedClr, State.busWrite_off hm hp (a := b.base + 0x34) true _ (by omega) (by omega)]
  case cfgStageWrite m b v =>
    cases hc
    simp only [exec, execCfgStageWrite, State.busWrite_off hm hp (a := b.base + 0x74) true v (by omega) (by omega)]
  case partAck m b chunk =>
    cases hc
    exact congrArg Host.Outcome.next (State.onPage_off _ _ _ _ hm hp)
  case tampClear m v =>
    cases hc
    simp only [exec, execTampClear, State.busWrite_off hm hp (a := R.TAMP_CLEAR_ALARM.a) true v (by decide) (by decide)]
  case tampLock m v =>
    cases hc
    simp only [exec, execTampLock, State.busWrite_off hm hp (a := R.TAMP_LOCK_LOCK.a) true v (by decide) (by decide)]
  case tbSrcSetWrite m v =>
    cases hc
    simp only [exec, execTbSrcSetWrite, State.busWrite_off hm hp (a := R.TB_SRC_SET_PTP_OK.a) true v (by decide) (by decide)]
  case tbRateWrite m v =>
    cases hc
    simp only [exec, execTbRateWrite, State.busWrite_off hm hp (a := R.TB_RATE_RATE.a) true v (by decide) (by decide)]
  case trigCtlWrite m ch v =>
    cases hc
    have notDue : s.fireDue m ch.val v = s := by simp [State.fireDue, State.reaches_off hp]
    simp only [exec, execTrigCtlWrite, notDue, State.busWrite_off hm hp (a := (R.TRIG_CTL_ARM ch.val).a) true v
      (by simp only [R.TRIG_CTL_ARM, Block.base]; omega) (by simp only [R.TRIG_CTL_ARM, Block.base, Block.pages]; omega)]
  case chainEnableWrite m n v =>
    cases hc
    simp only [exec, execChainEnableWrite, State.busWrite_off hm hp (a := (R.RF_CTL_EN n.val).a) true v
      (by simp only [R.RF_CTL_EN, Block.base]; omega) (by simp only [R.RF_CTL_EN, Block.base, Block.pages]; omega)]
  case centreWrite m n v =>
    cases hc
    simp only [exec, execCentreWrite, State.busWrite_off hm hp (a := (R.RF_CENTRE_KHZ n.val).a) true v
      (by simp only [R.RF_CENTRE_KHZ, Block.base]; omega) (by simp only [R.RF_CENTRE_KHZ, Block.base, Block.pages]; omega)]
  case xtxWrite m v =>
    cases hc
    simp only [exec, execXtxWrite, State.busWrite_off hm hp (a := R.RF0_XTX_FORBID.a) true v (by decide) (by decide)]
  case bcnParentWrite m v =>
    cases hc
    simp only [exec, execBcnParentWrite, State.busWrite_off hm hp (a := R.BCN_PARENT_RID.a) true v (by decide) (by decide)]
  case peelFinish m v =>
    cases hc
    simp only [exec, execPeelFinish, State.busWrite_off hm hp (a := R.PEEL_FINISH_ID.a) true v (by decide) (by decide)]
  case peelPauseWrite m v =>
    cases hc
    simp only [exec, execPeelPauseWrite, State.busWrite_off hm hp (a := R.PEEL_PAUSE_TARGETS.a) true v (by decide) (by decide)]
  case nextHopHiWrite m n v =>
    cases hc
    simp only [exec, execNextHopHiWrite, State.busWrite_off hm hp (a := (R.SIEVEP_NH_HI_MAC n.toNat).a) true v
      (by simp [R.SIEVEP_NH_HI_MAC, Block.base]; omega) (by simp [R.SIEVEP_NH_HI_MAC, Block.base, Block.pages]; omega)]
  case portModeWrite m p lane v =>
    cases hc
    cases lane
    · simp only [exec, execPortModeWrite, Bool.false_eq_true, if_false, State.busWrite_off hm hp (a := (R.PORT_MODE_EN p.val).a) true _
        (by simp only [R.PORT_MODE_EN, Block.base]; omega) (by simp only [R.PORT_MODE_EN, Block.base, Block.pages]; omega)]
    · simp only [exec, execPortModeWrite, if_true, State.busWrite_off hm hp (a := (R.PORT_LANE_MAP p.val).a) true _
        (by simp only [R.PORT_LANE_MAP, Block.base]; omega) (by simp only [R.PORT_LANE_MAP, Block.base, Block.pages]; omega)]
  case pnThr64HiWrite m v =>
    cases hc
    simp only [exec, execPnThr64HiWrite, State.busWrite_off hm hp (a := R.CRUST_PN_THR64_HI_THRESH.a) true v (by decide) (by decide)]
  case proofPost | proofPubSelWrite =>
    cases hc
    have still : s.prooferRuns = false := by
      have hpd : s.pdOn 2 = false := hp
      simp [State.prooferRuns, hpd]
    simp [exec, execProofPost, execProofPubSelWrite, hm, still]
  case tbLatch | peelPost | rxRet | txPost | msixUnmask | crcGo | crcStop =>
    cases hc
    simp [exec, execTbLatch, execPeelPost, execRxRet, execTxPost, execMsixUnmask, execCrcGo, execCrcStop, hm, hp]
  all_goals cases hc

/-- A write of `_CMD` is one of the commands, or that of an opcode that the page has not. -/
theorem State.cmdWrite_off (v : W32) : s.cmdWrite m b v = s.offWrite := by
  have page (c : Instr) {tag : BitVec 8} (hc : c.page = some (m, b, tag)) : stateOf s (exec c s) = s.offWrite := by
    rw [exec_page_off hc hm hp]
    rfl
  simp only [State.cmdWrite]
  split
  · exact page (.commit m b _) rfl
  split
  · exact page (.abort m b _) rfl
  split
  · split
    next hfab => exact page (.fabFence m _) (by rw [hfab]; rfl)
    next => exact page (.fence m b _) rfl
  split
  · split
    next hfab => exact page (.fabUnfence m _) (by rw [hfab]; rfl)
    next => exact page (.unfence m b _) rfl
  split
  · exact page (.ledgerSnapshot m b _) rfl
  split
  · exact page (.nop m b _) rfl
  cases hown : ownOp m b (BitVec.ofNat 8 (bitsGet 16 8 v)) (natBit v.toNat 8) s (bitsGet 0 8 v) with
  | some r =>
    rw [ownOp_off hm hp hown]
    rfl
  | none => exact State.unknownCmd_off _ _ hm hp

theorem State.writeThen_off {a : Nat} (v : W32) (f : State → State) (h1 : b.base ≤ a) (h2 : a < b.base + 4096 * b.pages) :
    s.writeThen m a v f = s.offWrite := by
  simp only [State.writeThen, State.busWrite_off hm hp true v h1 h2]

theorem State.noteHalf_off {a : Nat} (v : W32) (h1 : b.base ≤ a) (h2 : a < b.base + 4096 * b.pages) :
    s.noteHalf m a v = s.offWrite := by
  simp only [State.noteHalf, State.busWrite_off hm hp true v h1 h2]

/-- A write past the header is plain, one that something follows from, or one of the commands. -/
theorem State.ownWrite_off {o : Nat} (ho : o < 4096 * b.pages) (v : W32) : s.ownWrite m b o v = s.offWrite := by
  have low : b.base ≤ b.base + o := Nat.le_add_right _ _
  have high : b.base + o < b.base + 4096 * b.pages := Nat.add_lt_add_left ho _
  have plain : (s.busWrite m (b.base + o) true v).1 = s.offWrite := by rw [State.busWrite_off hm hp true v low high]
  have then' (f : State → State) : s.writeThen m (b.base + o) v f = s.offWrite := State.writeThen_off hm hp v f low high
  have half : s.noteHalf m (b.base + o) v = s.offWrite := State.noteHalf_off hm hp v low high
  have reg (c : Instr) (hc : registerPage c = some (m, b)) : stateOf s (exec c s) = s.offWrite := by
    rw [exec_registerPage_off hm hp hc]
    rfl
  cases b
  case tamp =>
    simp only [State.ownWrite]
    split
    · exact reg (.tampClear m v) rfl
    · exact reg (.tampLock m v) rfl
    · exact plain
  case tb =>
    simp only [State.ownWrite]
    split
    · split
      · exact reg (.tbLatch m) rfl
      · exact plain
    · exact reg (.tbSrcSetWrite m v) rfl
    · exact reg (.tbRateWrite m v) rfl
    · exact then' _
    · exact then' _
    · exact then' _
    · exact plain
  case trig =>
    simp only [State.ownWrite]
    split
    · exact reg (.trigCtlWrite m _ v) rfl
    · exact plain
  case rf n =>
    simp only [State.ownWrite]
    split
    · exact reg (.chainEnableWrite m n v) rfl
    · exact reg (.centreWrite m n v) rfl
    · split
      next hn =>
        obtain rfl : n = 0 := Fin.ext hn
        exact reg (.xtxWrite m v) rfl
      next => exact plain
    · exact plain
  case bcn =>
    simp only [State.ownWrite]
    split
    · exact reg (.bcnParentWrite m v) rfl
    · exact plain
  case peel =>
    simp only [State.ownWrite]
    split
    · split
      · exact reg (.peelPost m) rfl
      · exact plain
    split
    · exact reg (.peelFinish m v) rfl
    split
    · exact reg (.peelPauseWrite m v) rfl
    split
    · exact then' _
    · exact plain
  case sieve e =>
    simp only [State.ownWrite]
    split
    next hpre =>
      obtain rfl : e = 2 := Fin.ext hpre.1
      split
      · exact reg (.nextHopHiWrite m _ v) rfl
      · exact half
    next => exact plain
  case port p =>
    simp only [State.ownWrite]
    split
    · exact reg (.portModeWrite m p false v) rfl
    split
    · exact reg (.portModeWrite m p true v) rfl
    · exact plain
  case crust x =>
    simp only [State.ownWrite]
    split
    · exact plain
    next hx =>
      obtain rfl : x = 0 := Fin.ext (Decidable.not_not.mp hx)
      split
      · exact half
      split
      · exact reg (.pnThr64HiWrite m v) rfl
      · exact plain
  case proof =>
    simp only [State.ownWrite]
    split
    · split
      · exact reg (.proofPost m) rfl
      · exact plain
    split
    · exact reg (.proofPubSelWrite m v) rfl
    · exact plain
  case host =>
    simp only [State.ownWrite]
    split
    · split
      · exact reg (.rxRet m _ _) rfl
      split
      · exact reg (.txPost m _ _) rfl
      · exact plain
    split
    · exact reg (.msixUnmask m _) rfl
    · exact plain
  case crc =>
    simp only [State.ownWrite, hp, Bool.false_eq_true, if_false]
    split
    · exact plain
    · exact plain
  all_goals exact plain

/-- A write of a word of the page, the header's among them. -/
theorem State.writeWord_off {o : Nat} (ho : o < 4096 * b.pages) (v : W32) : s.writeWord m (b.base + o) v = s.offWrite := by
  have plain : s.busWrite m (b.base + o) true v = (s.offWrite, .ignored) :=
    State.busWrite_off hm hp true v (Nat.le_add_right _ _) (Nat.add_lt_add_left ho _)
  have reg (c : Instr) (hc : registerPage c = some (m, b)) : stateOf s (exec c s) = s.offWrite := by
    rw [exec_registerPage_off hm hp hc]
    rfl
  have quiet : s.withIrq b (fun s => (s.busWrite m (b.base + o) true v).1) = s.offWrite := by
    have same : s.offWrite.irqCond b = s.irqCond b := rfl
    simp [State.withIrq, plain, same]
  simp only [State.writeWord, blockAt_base_add b ho]
  split
  · exact reg (.partAck m b _) rfl
  split
  · exact State.ownWrite_off hm hp ho v
  split
  · exact State.cmdWrite_off hm hp v
  split
  · split
    · exact reg (.refusedClr m b) rfl
    · rw [plain]
  split
  · exact reg (.evtClear m b v 0) rfl
  split
  · exact quiet
  split
  · exact reg (.evtForce m b v) rfl
  split
  · exact reg (.evtCntClear m b _ v 0) rfl
  split
  · exact reg (.cfgStageWrite m b v) rfl
  · rw [plain]

theorem State.writeNarrow_off {o : Nat} (ho : o < 4096 * b.pages) : s.writeNarrow m (b.base + o) = s.offWrite := by
  have plain : s.busWrite m (b.base + o) false 0 = (s.offWrite, .ignored) :=
    State.busWrite_off hm hp false 0 (Nat.le_add_right _ _) (Nat.add_lt_add_left ho _)
  simp only [State.writeNarrow, blockAt_base_add b ho, State.reaches_off hp, Bool.false_eq_true, and_false, if_false, plain]

/-- A write of up to 32 bits anywhere in the page is counted and does nothing else. -/
theorem execRegisterWrite_off {o : Nat} (ho : o < 4096 * b.pages) (h4 : (b.base + o) % 4 = 0) {w : Fin 4} (hw : w.val < 3) (v : BitVec 64) :
    execRegisterWrite m (BitVec.ofNat 26 (b.base + o)) w v s = .next s.offWrite := by
  have haddr : (BitVec.ofNat 26 (b.base + o)).toNat / 4 * 4 = b.base + o := by
    have hend := b.pages_end_le
    rw [BitVec.toNat_ofNat, Nat.mod_eq_of_lt (by omega)]
    omega
  simp only [execRegisterWrite, haddr]
  match w, hw with
  | 0, _ => exact congrArg Host.Outcome.next (State.writeNarrow_off hm hp ho)
  | 1, _ => exact congrArg Host.Outcome.next (State.writeNarrow_off hm hp ho)
  | 2, _ => exact congrArg Host.Outcome.next (State.writeWord_off hm hp ho _)

end

/-! ## Reads over the management SPI (R573, R574) -/

/-- A POP register of a page that is off removes no item and reads as 0; none stands at `_STATUS`. -/
theorem popOf_off {m : Master} {s : State} {b : Block} {o : Nat} {r : Answer} (hp : s.powered b = false) (h : popOf m s b o = some r) :
    r = .next { s with busData := 0 } ∧ o ≠ 0xC := by
  have unreached := State.reaches_off (m := m) hp
  cases b
  case tb | trig | phy | tamp =>
    simp only [popOf] at h
    split at h <;> cases h
    next ho =>
      simp only [execTbPpsinPop, execTrigFirePop, execPhySnrPop, execTampLogPop, State.onBus, unreached, ho]
      exact ⟨rfl, by decide⟩
  case peel | rack =>
    simp only [popOf] at h
    split at h
    · cases h
      simp only [execPeelDonePop, execRackDroprecPop, State.popNone, unreached]
      exact ⟨rfl, by omega⟩
    split at h <;> cases h
    simp only [execPeelCorePop, execRackTracePop, State.popNone, unreached]
    exact ⟨rfl, by omega⟩
  case port p =>
    rw [← portBlock_val p] at unreached
    simp only [popOf] at h
    split at h <;> cases h
    simp only [execPortnTstxPop, unreached]
    exact ⟨rfl, by omega⟩
  case sieve e =>
    simp only [popOf] at h
    split at h <;> cases h
    next he =>
      rw [← l2Block_ofNat e (by omega)] at unreached
      simp only [execSieveLfifoPop, unreached]
      exact ⟨rfl, by omega⟩
  all_goals cases h

/-- What a read of a word puts on the bus; nothing else changes. -/
theorem State.busRead_off {m : Master} {s : State} {b : Block} {o : Nat} (hp : s.powered b = false) (ho : o < 4096 * b.pages) :
    s.busRead m (b.base + o) = { s with busData := if o = 0xC then 0x50000000 else 0 } := by
  simp only [State.busRead, blockAt_base_add b ho]
  split
  next r hr =>
    obtain ⟨rfl, hne⟩ := popOf_off hp hr
    rw [if_neg hne]
    rfl
  next => simp [State.readWord, blockAt_base_add b ho, hp]

/-- An SPI read of one word. -/
theorem execSpiRead_one (a : BitVec 24) {s : State} (h0 : s.pdOn 0 = true) :
    execSpiRead a 0 (spiReadCrc a 0) s
      = .next { s.busRead .spi (a.toNat / 4 * 4) with spiData := [(s.busRead .spi (a.toNat / 4 * 4)).busData] } := by
  simp [execSpiRead, h0]

/-- Settles O12: a command, and a write of a register, begins with the check of its page; a read finds no item to pop and no stored word. -/
theorem pageOfDomainThatIsOff : Obligations.PageOfDomainThatIsOff := by
  unfold Obligations.PageOfDomainThatIsOff
  refine ⟨?command, ?write, ?read⟩
  case command =>
    intro c m b tag s hc hm hp
    exact exec_page_off hc hm hp
  case write =>
    intro m b a w v s hm hp hlow hhigh h4 hw
    obtain ⟨o, rfl⟩ := Nat.exists_eq_add_of_le hlow
    exact answers_of (execRegisterWrite_off hm hp (by omega) h4 hw v) rfl
  case read =>
    intro b a s h0 hp hlow hhigh h4
    obtain ⟨o, rfl⟩ := Nat.exists_eq_add_of_le hlow
    have haddr : (BitVec.ofNat 24 (b.base + o)).toNat / 4 * 4 = b.base + o := by
      have hend := b.pages_end_le
      rw [BitVec.toNat_ofNat, Nat.mod_eq_of_lt (by omega)]
      omega
    refine answers_of (execSpiRead_one _ h0) ?_
    rw [haddr, State.busRead_off hp (by omega)]
    simp

end Sys2Proof.Machine
end

section
/-! A write of a register over the bus (R9, R78, R79), and the registers that no event touches. -/

namespace Sys2Proof.Machine

/-! ## The bits that a write stores (R9, R79) -/

theorem testBit_maskSet (m v x : W32) (i : Nat) :
    (maskSet m v x).toNat.testBit i = if m.toNat.testBit i then x.toNat.testBit i else v.toNat.testBit i := by
  have bit (y : W32) : y.toNat.testBit i = y.getLsbD i := rfl
  simp only [bit, maskSet, BitVec.getLsbD_or, BitVec.getLsbD_and, BitVec.getLsbD_not]
  by_cases hi : i < 32
  · cases m.getLsbD i <;> simp [hi]
  · simp [BitVec.getLsbD_of_ge _ i (Nat.le_of_not_lt hi)]

/-- A field under the mask takes the bits of the write. -/
theorem bitsGet_maskSet_same {lo w : Nat} (v x : W32) (h : lo + w ≤ 32) : bitsGet lo w (maskSet (bitsMask lo w) v x) = bitsGet lo w x := by
  apply Nat.eq_of_testBit_eq
  intro i
  rw [testBit_bitsGet, testBit_bitsGet, testBit_maskSet, testBit_bitsMask _ _ _ h]
  by_cases hi : i < w <;> simp [hi]

theorem bitsGet_maskSet_apart {lo w lo' w' : Nat} (v x : W32) (h : lo + w ≤ 32) (d : lo + w ≤ lo' ∨ lo' + w' ≤ lo) :
    bitsGet lo' w' (maskSet (bitsMask lo w) v x) = bitsGet lo' w' v := by
  apply Nat.eq_of_testBit_eq
  intro i
  rw [testBit_bitsGet, testBit_bitsGet, testBit_maskSet, testBit_bitsMask _ _ _ h]
  by_cases hi : i < w'
  · have out : ¬ (lo ≤ lo' + i ∧ lo' + i < lo + w) := by omega
    simp [hi, out]
  · simp [hi]

/-- A field of a whole word. -/
theorem maskSet_word (v x : W32) : maskSet (bitsMask 0 32) v x = x := by
  have full : bitsMask 0 32 = BitVec.allOnes 32 := by decide
  rw [maskSet, full, BitVec.not_allOnes, BitVec.and_zero, BitVec.zero_or, BitVec.and_allOnes]

theorem bitsGet_one (i : Nat) (v : W32) : (bitsGet i 1 v != 0) = natBit v.toNat i := by
  have bit : bitsGet i 1 v = (v.toNat >>> i) % 2 := rfl
  rw [bit, natBit]
  rcases Nat.mod_two_eq_zero_or_one (v.toNat >>> i) with h | h <;> simp [h]

/-! ## The two ends of a write that reaches a register (R78) -/

section
variable {m : Master} {b : Block} {o i : Nat} {r : RegSpec} {s : State} {v : W32}

/-- A register that is shared by the masters and not staged takes a permitted write, and the rest of the device stays as it is. -/
theorem State.busWrite_applied (hs : s.reaches m b = true) (ho : o < 4096 * b.pages) (hr : regAt b o = some (r, i))
    (hacc : (r.fields.all fun f => f.acc == .ro || f.acc == .pop) = false) (hplain : r.perMaster = false ∧ r.staged = false)
    (hok : r.rangesOk v = true) (hx : s.crossOk b r.name (elementOf b o i) v = true) :
    s.busWrite m (b.base + o) true v
      = (s.setWord (b.base + o) (r.store (s.word (b.base + o)) v), .applied b r o i (s.word (b.base + o))) := by
  obtain ⟨hm, hp⟩ := (Bool.and_eq_true _ _).mp hs
  obtain ⟨hown, hst⟩ := hplain
  simp [State.busWrite, hm, hp, blockAt_base_add b ho, hr, hacc, hok, hx, regKey, hown, hst]

theorem State.busWrite_refused (hs : s.reaches m b = true) (ho : o < 4096 * b.pages) (hr : regAt b o = some (r, i))
    (hacc : (r.fields.all fun f => f.acc == .ro || f.acc == .pop) = false) (hx : s.crossOk b r.name (elementOf b o i) v = false) :
    s.busWrite m (b.base + o) true v = (s.refuse b o, .refused) := by
  obtain ⟨hm, hp⟩ := (Bool.and_eq_true _ _).mp hs
  simp [State.busWrite, hm, hp, blockAt_base_add b ho, hr, hacc, hx]

end

/-- Everything a write of such a register can do: nothing but to be counted, a refusal, or the store. -/
theorem State.busWrite_cases {m : Master} {b : Block} {o i : Nat} {r : RegSpec} (s : State) (v : W32) (ho : o < 4096 * b.pages)
    (hr : regAt b o = some (r, i)) (hplain : r.perMaster = false ∧ r.staged = false) :
    s.busWrite m (b.base + o) true v = (s, .ignored) ∨ s.busWrite m (b.base + o) true v = (s.offWrite, .ignored)
      ∨ s.busWrite m (b.base + o) true v = (s.refuse b o, .refused)
      ∨ s.busWrite m (b.base + o) true v
          = (s.setWord (b.base + o) (r.store (s.word (b.base + o)) v), .applied b r o i (s.word (b.base + o))) := by
  obtain ⟨hown, hst⟩ := hplain
  simp only [State.busWrite, blockAt_base_add b ho, hr, regKey, hown, hst]
  split
  · exact .inl rfl
  split
  · exact .inr (.inl rfl)
  split
  · exact .inl rfl
  split
  · exact .inr (.inr (.inl rfl))
  split
  · exact .inr (.inr (.inl rfl))
  · exact .inr (.inr (.inr rfl))

/-- A refusal writes `_STATUS` and `_REFUSED` of the page (R78). -/
theorem State.refuse_word (s : State) (b : Block) (o : Nat) {a : Nat} (h : a < b.base ∨ b.base + 0x100 ≤ a) :
    (s.refuse b o).word a = s.word a := by
  have page (f : Fld) (h1 : b.base ≤ f.a) (h2 : f.a < b.base + 0x100) : f.a ≠ a := by omega
  unfold State.refuse
  rw [State.word_put_ne _ _ _ _ (page _ (Nat.le_add_right _ _) (Nat.add_lt_add_left (by decide) _)), State.bumpSat,
    State.word_put_ne _ _ _ _ (page _ (Nat.le_add_right _ _) (Nat.add_lt_add_left (by decide) _)),
    State.word_put_ne _ _ _ _ (page _ (Nat.le_add_right _ _) (Nat.add_lt_add_left (by decide) _)),
    State.word_put_ne _ _ _ _ (page _ (Nat.le_add_right _ _) (Nat.add_lt_add_left (by decide) _))]

theorem State.refuse_err (s : State) (b : Block) (o : Nat) : (s.refuse b o).on (R.H_STATUS_ERR b.base) = true :=
  State.on_put_one _ _ (by decide : 25 + 1 ≤ 32) rfl

/-! ## Fields that no event touches -/

/-- Below Rack's page an event touches the event words of its own block alone. -/
theorem not_evtTouches {b : Block} {a : Nat} (h : a < b.base + 0x40 ∨ b.base + 0x70 ≤ a) (hlow : a < Block.rack.base) : ¬ evtTouches b a := by
  simp only [evtTouches, R.RACK_TRACE_LOST_COUNT, Block.base] at *
  omega

theorem State.get_congr {s t : State} {f : Fld} (h : t.word f.a = s.word f.a) : t.get f = s.get f := by rw [State.get, State.get, h]

theorem State.on_congr {s t : State} {f : Fld} (h : t.get f = s.get f) : t.on f = s.on f := by rw [State.on, State.on, h]

end Sys2Proof.Machine
end

section
/-! A cycle in which no command waits (R46, R108, R117, R127, log entry 2). -/

namespace Sys2Proof.Machine

/-- What one cycle adds to the linear count: an edge of the crystal while the reference is lost, else 1 ns and RATE (R117, R127). -/
def State.cycleMove (s : State) : Lin :=
  if s.on R.TB_STATE_REF_LOST then BitVec.ofNat 104 s.crystalStep else BitVec.ofInt 104 s.increment

/-- Without a slew a cycle moves the linear count and nothing else. -/
theorem State.tickOnce_noSlew {s : State} (h : s.tb.slew = none) :
    s.tickOnce = { s with tb := { s.tb with L := s.tb.L + s.cycleMove } } := by
  unfold State.tickOnce State.cycleMove
  split
  · rfl
  · rw [h]

theorem State.floodRun_idle {s : State} (h : s.readyItems 9 = []) : s.floodRun = s := by
  rw [State.floodRun, h]
  rfl

/-- Reads of receive FIFOs change the boundary FIFOs alone. -/
theorem State.foldl_drainBfifo (l : List Nat) (n : Nat → Nat) (s : State) :
    ∃ x, l.foldl (fun s p => s.drainBfifo (rxBfifo p) (n p)) s = { s with bfifo := x } := by
  induction l generalizing s with
  | nil => exact ⟨_, rfl⟩
  | cons p r ih => exact ih (s.drainBfifo (rxBfifo p) (n p))

theorem State.drainRx_onlyBfifo (s : State) : ∃ x, s.drainRx = { s with bfifo := x } := State.foldl_drainBfifo _ _ s

/-- The parts of such a cycle: the count moves, records age, receive FIFOs are read. -/
theorem State.idleTick_noWork {s : State} (h0 : s.pdOn 0 = true) (hslew : s.tb.slew = none) (hready : s.readyItems 9 = []) :
    s.idleTick = ({ s with tb := { s.tb with L := s.tb.L + s.cycleMove } } : State).ageRecords.drainRx := by
  rw [State.idleTick, h0, State.tickOnce_noSlew hslew, State.floodRun_idle]
  · rfl
  · exact hready

theorem step_idle {s : State} (h : s.pending = []) : step s = .next s.idleTick := by
  rw [step, h]

/-- Settles O2: the cycle is the move of the linear count, the ageing of the checkpoint records and the reads of the receive FIFOs, as the
flood engine finds nothing in its list.  That a step without a command is one cycle is the model's choice (log entry 2). -/
theorem emptyQueueIsOneCycle : Obligations.EmptyQueueIsOneCycle := by
  unfold Obligations.EmptyQueueIsOneCycle
  intro s hpend h0 hslew hready
  obtain ⟨x, hread⟩ := State.drainRx_onlyBfifo ({ s with tb := { s.tb with L := s.tb.L + s.cycleMove } } : State).ageRecords
  refine ⟨s.idleTick, step_idle hpend, ?_, ?_⟩ <;> rw [State.idleTick_noWork h0 hslew hready, hread] <;> rfl

end Sys2Proof.Machine
end

section
/-! Snapshots, stamps and trigger channels (R119, R138 to R142, R144, R145). -/

namespace Sys2Proof.Machine

/-! ## Snapshots (R119) -/

/-- The registers of a snapshot stand in a master's own copies, past every shared register. -/
theorem ownCopy_ne_shared (m : Master) (f : Fld) {a : Nat} (h : a < masterStride) : (ownCopy m f).a ≠ a := by
  have past : masterStride ≤ (ownCopy m f).a := by simp only [ownCopy, Nat.mul_add, Nat.mul_one]; omega
  omega

/-- The fields of a snapshot of the present instant; `hold`: the value of HOLD. -/
def State.snapshotOf (s : State) (hold : Nat) : List (Fld × Nat) :=
  [(R.TB_SNAP_NS_NS, s.lin % 10 ^ 9), (R.TB_SNAP_S_LO_S, s.seconds % 2 ^ 32), (R.TB_SNAP_S_HI_S, s.seconds / 2 ^ 32),
   (R.TB_SNAP_LIN_LO_L, s.short), (R.TB_SNAP_LIN_HI_L, s.lin / 2 ^ 32), (R.TB_SNAP_AUX_FRAC, s.tb.L.toNat / 2 ^ 32 % 2 ^ 8),
   (R.TB_SNAP_AUX_WRAP, s.tb.L.toNat / 2 ^ 72 % 2 ^ 8), (R.TB_SNAP_AUX_STEPGEN, s.tb.stepgen.toNat), (R.TB_SNAP_AUX_HOLD, hold),
   (R.TB_SNAP_ST_ST, s.st)]

/-- Fields of a master's own copy are written. -/
def State.putOwn (s : State) (m : Master) (l : List (Fld × Nat)) : State := l.foldl (fun s x => s.put (ownCopy m x.1) x.2) s

theorem execTbLatch_reaches {m : Master} {s : State} (h : s.reaches m .tb = true) :
    ∃ hold, execTbLatch m s = .next (s.putOwn m (s.snapshotOf hold)) := by
  obtain ⟨hm, hp⟩ := (Bool.and_eq_true _ _).mp h
  rw [execTbLatch, hm, hp]
  exact ⟨_, rfl⟩

/-- Writes of own copies change neither a shared register nor the time base. -/
theorem State.putOwn_shared (m : Master) (l : List (Fld × Nat)) (s : State) :
    (∀ a, a < masterStride → (s.putOwn m l).word a = s.word a) ∧ (s.putOwn m l).tb = s.tb := by
  induction l generalizing s with
  | nil => exact ⟨fun _ _ => rfl, rfl⟩
  | cons x r ih =>
    obtain ⟨hword, htb⟩ := ih (s.put (ownCopy m x.1) x.2)
    exact ⟨fun a ha => (hword a ha).trans (s.word_put_ne _ _ _ (ownCopy_ne_shared m x.1 ha)), htb⟩

/-- The snapshot shows one instant. -/
theorem State.snapshotOf_shown (s : State) (m : Master) (hold : Nat) :
    let t := s.putOwn m (s.snapshotOf hold)
    t.get (ownCopy m R.TB_SNAP_NS_NS) = s.lin % 10 ^ 9 ∧ t.get (ownCopy m R.TB_SNAP_S_LO_S) = s.seconds % 2 ^ 32
      ∧ t.get (ownCopy m R.TB_SNAP_LIN_LO_L) = s.short ∧ t.get (ownCopy m R.TB_SNAP_AUX_STEPGEN) = s.tb.stepgen.toNat
      ∧ t.get (ownCopy m R.TB_SNAP_ST_ST) = s.st := by
  have hgen : s.tb.stepgen.toNat % 2 ^ 4 = s.tb.stepgen.toNat := Nat.mod_eq_of_lt s.tb.stepgen.isLt
  have hns : s.lin % 10 ^ 9 % 2 ^ 32 = s.lin % 10 ^ 9 := Nat.mod_eq_of_lt (by omega)
  have hsec : s.seconds % 2 ^ 32 % 2 ^ 32 = s.seconds % 2 ^ 32 := Nat.mod_mod _ _
  have hshort : s.short % 2 ^ 32 = s.short := Nat.mod_mod _ _
  have hst : s.st % 2 ^ 32 = s.st := Nat.mod_mod _ _
  simp [State.putOwn, State.snapshotOf, ownCopy, R.TB_SNAP_NS_NS, R.TB_SNAP_S_LO_S, R.TB_SNAP_S_HI_S, R.TB_SNAP_LIN_LO_L, R.TB_SNAP_LIN_HI_L,
    R.TB_SNAP_AUX_FRAC, R.TB_SNAP_AUX_WRAP, R.TB_SNAP_AUX_STEPGEN, R.TB_SNAP_AUX_HOLD, R.TB_SNAP_ST_ST, State.get_put_lit,
    State.get_put_lit_apart, State.get_put_lit_ne, -Nat.reducePow, hns, hsec, hshort, hgen, hst]

/-! ## The stamp FIFOs (R144, R145) -/

theorem Stamp.high_lt (x : Stamp) : x.toNat / 2 ^ 32 < 2 ^ 32 := by
  have hx := x.isLt
  omega

theorem State.get_put_word (s : State) {f : Fld} {x : Nat} (hf : f.ok) (hw : f.w = 32) (hx : x < 2 ^ 32) : (s.put f x).get f = x := by
  rw [s.get_put_same f x hf, hw, Nat.mod_eq_of_lt hx]

theorem execTbPpsinPop_cons {m : Master} {s : State} {x : Stamp} {r : List Stamp} (h : s.reaches m .tb = true) (hf : s.tb.ppsFifo = x :: r) :
    execTbPpsinPop m s = .next { s.put R.TB_PPSIN_HI_STAMP (x.toNat / 2 ^ 32) with
      busData := x.setWidth 32, tb := { s.tb with ppsFifo := r } } := by
  simp [execTbPpsinPop, h, hf]

theorem execTbPpsinPop_nil {m : Master} {s : State} (h : s.reaches m .tb = true) (hf : s.tb.ppsFifo = []) :
    execTbPpsinPop m s = .next { s.put R.TB_PPSIN_HI_STAMP 0 with busData := 0 } := by
  simp [execTbPpsinPop, h, hf]

theorem execTrigFirePop_cons {m : Master} {s : State} {x : Stamp} {r : List Stamp} (h : s.reaches m .trig = true) (hf : s.trig.fifo = x :: r) :
    execTrigFirePop m s = .next { s.put R.TRIG_FIRE_HI_STAMP (x.toNat / 2 ^ 32) with
      busData := x.setWidth 32, trig := { s.trig with fifo := r } } := by
  simp [execTrigFirePop, h, hf]

theorem execTrigFirePop_nil {m : Master} {s : State} (h : s.reaches m .trig = true) (hf : s.trig.fifo = []) :
    execTrigFirePop m s = .next { s.put R.TRIG_FIRE_HI_STAMP 0 with busData := 0 } := by
  simp [execTrigFirePop, h, hf]

section
variable {l : List Stamp} {cap : Nat} {x : Stamp} {set : State → List Stamp → State} {lost : Fld} {b : Block} {bit : Nat}

/-- A FIFO with room takes the stamp and loses none. -/
theorem State.pushStamp_room (s : State) (h : l.length < cap) :
    s.pushStamp l cap x set lost b bit = set (s.passBfifo 28 1 fun _ => x.toNat) (l ++ [x]) := by
  simp [State.pushStamp, fifoPush, h]

/-- Of registers a stamp changes at most the count of stamps lost and what that event touches. -/
theorem State.pushStamp_get (s : State) (hset : ∀ (t : State) l, (set t l).regs = t.regs) {f : Fld} (hlost : lost.a ≠ f.a) (hbit : bit < 32)
    (hevt : ¬ evtTouches b f.a) : (s.pushStamp l cap x set lost b bit).get f = s.get f := by
  have kept (l' : List Stamp) : (set (s.passBfifo 28 1 fun _ => x.toNat) l').get f = s.get f :=
    State.get_congr (State.word_congr (hset _ _))
  unfold State.pushStamp
  dsimp only
  split
  · rw [State.evt_get _ _ _ _ hbit hevt, State.bumpSat, State.get_put_ne _ _ _ _ hlost, kept]
  · exact kept _

end

/-! ## The registers of a trigger channel -/

/-- The words of the sixteen channels. -/
def chanWord (a : Nat) : Prop := (0x11100 ≤ a ∧ a < 0x11200) ∨ (0x12100 ≤ a ∧ a < 0x12200)

/-- Where a channel's words begin in the pages of TRIG. -/
def chanOffset (n : Nat) : Nat := 0x100 + 0x1000 * (n / 8) + 0x20 * (n % 8)

theorem chanWord_of {n k : Nat} (hn : n < 16) (hk : k < 0x20) : chanWord (0x11100 + 0x1000 * (n / 8) + 0x20 * (n % 8) + k) := by
  unfold chanWord
  omega

theorem trigCtl_addr (n : Nat) : (R.TRIG_CTL_ARM n).a = Block.trig.base + chanOffset n := by
  simp only [R.TRIG_CTL_ARM, Block.base, chanOffset]
  omega

theorem chanWord.not_trigEvt {a : Nat} (h : chanWord a) : ¬ evtTouches .trig a := by
  unfold chanWord at h
  exact not_evtTouches (by simp only [Block.base]; omega) (by simp only [Block.base]; omega)

theorem chanWord.not_pwrEvt {a : Nat} (h : chanWord a) : ¬ evtTouches .pwr a := by
  unfold chanWord at h
  exact not_evtTouches (by simp only [Block.base]; omega) (by simp only [Block.base]; omega)

/-! ## A fire (R138 to R141) -/

/-- The stamp of a fire. -/
def State.fireStamped (s : State) (n : Nat) : State :=
  s.pushStamp s.trig.fifo 256 (s.stamp n 0) (fun s l => { s with trig := { s.trig with fifo := l } }) R.TRIG_FIRE_LOST_COUNT .trig
    E.TRIG_FIFO_LOST

/-- What a fire notes: its stamp, its count, the time and the flag. -/
def State.fireNoted (s : State) (n : Nat) : State :=
  let s := s.fireStamped n
  ((s.bump (R.TRIG_STAT_FIRES n) 1).put (R.TRIG_LAST_NS n) s.short).evt .trig (E.TRIG_FIRE + n)

theorem State.fireTrig_eq (s : State) (n b : Nat) :
    s.fireTrig n b = if n = 15 then (((s.fireNoted n).trigAct n).trigNext n b).wakeBy 1 else ((s.fireNoted n).trigAct n).trigNext n b := rfl

theorem State.fireStamped_get (s : State) (n : Nat) {f : Fld} (hf : chanWord f.a) : (s.fireStamped n).get f = s.get f := by
  have hlost : R.TRIG_FIRE_LOST_COUNT.a ≠ f.a := by simp only [R.TRIG_FIRE_LOST_COUNT, chanWord] at *; omega
  unfold State.fireStamped
  refine s.pushStamp_get ?_ hlost (by decide) hf.not_trigEvt
  exact fun _ _ => rfl

section
variable {n : Nat} (hn : n < 16)
include hn

theorem State.fireNoted_get (s : State) {f : Fld} (hf : chanWord f.a) (hfires : (R.TRIG_STAT_FIRES n).a ≠ f.a)
    (hlast : (R.TRIG_LAST_NS n).a ≠ f.a) : (s.fireNoted n).get f = s.get f := by
  unfold State.fireNoted
  rw [State.evt_get _ _ _ _ (by simp only [E.TRIG_FIRE]; omega) hf.not_trigEvt, State.get_put_ne _ _ _ _ hlast, State.bump,
    State.get_put_ne _ _ _ _ hfires, State.fireStamped_get _ _ hf]

/-- FIRES counts, modulo its 16 bits. -/
theorem State.fireNoted_fires (s : State) :
    (s.fireNoted n).get (R.TRIG_STAT_FIRES n) = (s.get (R.TRIG_STAT_FIRES n) + 1) % 2 ^ 16 := by
  have hf : chanWord (R.TRIG_STAT_FIRES n).a := chanWord_of hn (by decide)
  have hlast : (R.TRIG_LAST_NS n).a ≠ (R.TRIG_STAT_FIRES n).a := by simp only [R.TRIG_LAST_NS, R.TRIG_STAT_FIRES]; omega
  unfold State.fireNoted
  rw [State.evt_get _ _ _ _ (by simp only [E.TRIG_FIRE]; omega) hf.not_trigEvt, State.get_put_ne _ _ _ _ hlast, State.bump,
    State.get_put_same _ (R.TRIG_STAT_FIRES n) _ (by decide : 0 + 16 ≤ 32), State.fireStamped_get _ _ hf]
  rfl

/-- After a fire FIRES stays, whether the channel disarms or moves its target on. -/
theorem State.trigNext_fires (s : State) (b : Nat) : (s.trigNext n b).get (R.TRIG_STAT_FIRES n) = s.get (R.TRIG_STAT_FIRES n) := by
  have hf : chanWord (R.TRIG_STAT_FIRES n).a := chanWord_of hn (by decide)
  have harm : (R.TRIG_CTL_ARM n).a ≠ (R.TRIG_STAT_FIRES n).a := by simp only [R.TRIG_CTL_ARM, R.TRIG_STAT_FIRES]; omega
  have htgt : (R.TRIG_TGT_TGT n).a ≠ (R.TRIG_STAT_FIRES n).a := by simp only [R.TRIG_TGT_TGT, R.TRIG_STAT_FIRES]; omega
  have hmissed : (R.TRIG_STAT_MISSED n).apart (R.TRIG_STAT_FIRES n) := .inr (.inr (by decide : 0 + 16 ≤ 16))
  have moved (x : Nat) (fr : AMap Nat) :
      ({ s.put (R.TRIG_TGT_TGT n) x with trig := { s.trig with frac := fr } } : State).get (R.TRIG_STAT_FIRES n) = s.get (R.TRIG_STAT_FIRES n) :=
    s.get_put_ne _ _ _ htgt
  unfold State.trigNext
  dsimp only
  split
  · exact s.get_put_ne _ _ _ harm
  split
  · exact moved _ _
  · rw [State.evt_get _ _ _ _ (by decide) hf.not_trigEvt, State.bumpSat,
      State.get_put_apart _ (R.TRIG_STAT_MISSED n) _ _ (by decide : 16 + 8 ≤ 32) hmissed]
    exact moved _ _

end

theorem State.trigNext_oneShot {s : State} {n : Nat} (b : Nat) (h : s.get (R.TRIG_PERIOD_PERIOD n) = 0) :
    (s.trigNext n b).on (R.TRIG_CTL_ARM n) = false := by
  rw [State.trigNext, if_pos h]
  exact s.on_put_zero _ (by decide : 0 + 1 ≤ 32)

theorem State.trigNext_pulses (s : State) (n b : Nat) : (s.trigNext n b).trig.pulses = s.trig.pulses := by
  unfold State.trigNext
  dsimp only
  split
  · rfl
  split
  · rfl
  · rw [State.evt_trig]
    rfl

theorem State.trigAct_kind0 {s : State} {n : Nat} (h : s.get (R.TRIG_CTL_KIND n) = 0) : s.trigAct n = s := by
  simp [State.trigAct, h]

theorem State.trigAct_kind3 {s : State} {n : Nat} (h : s.get (R.TRIG_CTL_KIND n) = 3) : Fin.ofNat 16 n ∈ (s.trigAct n).trig.pulses := by
  simp [State.trigAct, h]

/-! ## A wake that a fire of channel 15 brings (R113) -/

/-- A start-up clears registers of PWR and RET alone. -/
theorem State.beginStart_word_past (s : State) {a : Nat} (h : 0x4000 ≤ a) : s.beginStart.word a = s.word a := by
  have before (f : Fld) (hf : f.a < 0x4000) : f.a ≠ a := by omega
  have swait (l : List Nat) (hl : ∀ p ∈ l, p < 10) (u : State) : (u.enterSwait l).word a = u.word a := by
    induction l generalizing u with
    | nil => rfl
    | cons p r ih =>
      have hp := hl p List.mem_cons_self
      rw [State.enterSwait, List.foldl_cons, ← State.enterSwait, ih fun q hq => hl q (List.mem_cons_of_mem _ hq)]
      exact u.word_put_ne _ _ _ (by simp only [R.RET_SWAIT_ACTIVE]; omega)
  rw [State.word_congr s.beginStart_regs, State.startShown, State.clearRet]
  iterate 6 rw [State.word_put_ne _ _ _ _ (before _ (by decide))]
  exact swait _ (by simp) s

theorem State.wakeBy_get (s : State) (src : Nat) {f : Fld} (hf : chanWord f.a) : (s.wakeBy src).get f = s.get f := by
  have past : 0x4000 ≤ f.a := by unfold chanWord at hf; omega
  have cause : R.PWR_RST_CAUSE_CAUSE.a ≠ f.a := by simp only [R.PWR_RST_CAUSE_CAUSE]; omega
  have wake : R.PWR_WAKE_SRC_SRC.a ≠ f.a := by simp only [R.PWR_WAKE_SRC_SRC]; omega
  unfold State.wakeBy
  split
  · rfl
  split
  · rw [State.evt_get _ _ _ _ (by decide) hf.not_pwrEvt]
    refine State.get_congr ?_
    rw [State.beginStart_word_past _ past, State.word_put_ne _ ⟨R.PWR_RST_CAUSE_CAUSE.a, 4, 1⟩ _ _ cause, State.word_put_ne _ _ _ _ wake]
    rfl
  split <;> rfl

theorem State.wakeBy_trig (s : State) (src : Nat) : (s.wakeBy src).trig = s.trig := by
  unfold State.wakeBy
  split
  · rfl
  split
  · obtain ⟨_, _, _, _, e⟩ := State.beginStart_onlyPages (State.onlyPages.refl
      ((s.ageRecords.put R.PWR_WAKE_SRC_SRC (2 ^ src)).put ⟨R.PWR_RST_CAUSE_CAUSE.a, 4, 1⟩ 1))
    rw [State.evt_trig, e]
    rfl
  split <;> rfl

/-! ## What a fire leaves -/

theorem State.fireTrig_get (s : State) (n b : Nat) {f : Fld} (hf : chanWord f.a) :
    (s.fireTrig n b).get f = (((s.fireNoted n).trigAct n).trigNext n b).get f := by
  rw [State.fireTrig_eq]
  split
  · exact State.wakeBy_get _ _ hf
  · rfl

section
variable {s : State} {n : Nat} (hn : n < 16)
include hn

theorem State.fireNoted_kind : (s.fireNoted n).get (R.TRIG_CTL_KIND n) = s.get (R.TRIG_CTL_KIND n) := by
  refine s.fireNoted_get hn (chanWord_of (k := 0) hn (by decide)) ?_ ?_ <;>
    simp only [R.TRIG_STAT_FIRES, R.TRIG_LAST_NS, R.TRIG_CTL_KIND] <;> omega

theorem State.fireNoted_period : (s.fireNoted n).get (R.TRIG_PERIOD_PERIOD n) = s.get (R.TRIG_PERIOD_PERIOD n) := by
  refine s.fireNoted_get hn (chanWord_of hn (by decide)) ?_ ?_ <;>
    simp only [R.TRIG_STAT_FIRES, R.TRIG_LAST_NS, R.TRIG_PERIOD_PERIOD] <;> omega

/-- A fire that does nothing else counts. -/
theorem State.fireTrig_fires (b : Nat) (hkind : s.get (R.TRIG_CTL_KIND n) = 0) :
    (s.fireTrig n b).get (R.TRIG_STAT_FIRES n) = (s.get (R.TRIG_STAT_FIRES n) + 1) % 2 ^ 16 := by
  rw [s.fireTrig_get n b (chanWord_of hn (by decide)), State.trigAct_kind0 ((State.fireNoted_kind hn).trans hkind),
    State.trigNext_fires hn, State.fireNoted_fires hn]

/-- A channel without a period disarms. -/
theorem State.fireTrig_oneShot (b : Nat) (hkind : s.get (R.TRIG_CTL_KIND n) = 0) (hper : s.get (R.TRIG_PERIOD_PERIOD n) = 0) :
    (s.fireTrig n b).on (R.TRIG_CTL_ARM n) = false := by
  rw [State.on_congr (s.fireTrig_get n b (chanWord_of (k := 0) hn (by decide))),
    State.trigAct_kind0 ((State.fireNoted_kind hn).trans hkind)]
  exact State.trigNext_oneShot b ((State.fireNoted_period hn).trans hper)

/-- A fire of KIND 3 starts a pulse. -/
theorem State.fireTrig_pulses (b : Nat) (hkind : s.get (R.TRIG_CTL_KIND n) = 3) : Fin.ofNat 16 n ∈ (s.fireTrig n b).trig.pulses := by
  have started := State.trigAct_kind3 ((State.fireNoted_kind (s := s) hn).trans hkind)
  rw [State.fireTrig_eq]
  split
  · rw [State.wakeBy_trig, State.trigNext_pulses]
    exact started
  · rw [State.trigNext_pulses]
    exact started

end

theorem State.advanceTo_regs (s : State) (l : Lin) : (s.advanceTo l).regs = s.regs := by
  unfold State.advanceTo
  split <;> rfl

/-- The time may pass to the target first; no register changes by that. -/
theorem execTriggerFire_fires {ch : Fin 16} {s : State} (h0 : s.pdOn 0 = true) (harm : s.on (R.TRIG_CTL_ARM ch.val) = true) :
    ∃ u : State, u.regs = s.regs ∧ execTriggerFire ch s = .next (u.fireTrig ch.val (u.pastTarget ch.val)) := by
  refine ⟨if s.trigReached ch.val (s.on (R.TRIG_CTL_UNIT ch.val)) then s else s.advanceTo (s.targetAt ch.val), ?_, ?_⟩
  · split
    · rfl
    · exact s.advanceTo_regs _
  · simp [execTriggerFire, h0, harm]

/-! ## Arming and disarming (R138, R139, R142) -/

/-- TRIG_CTLk as the register map gives it. -/
def trigCtlSpec : RegSpec := ⟨"TRIG_CTL", 0x0, 1, 4, false,
  [⟨"ARM", 0, 1, .rw, false, .no, .any⟩, ⟨"NO_PAST", 1, 1, .rw, true, .no, .any⟩, ⟨"UNIT", 2, 1, .rw, true, .no, .any⟩,
   ⟨"KIND", 4, 4, .rw, true, .no, .rng 0 6⟩, ⟨"SEL", 8, 4, .rw, true, .no, .any⟩, ⟨"PERIOD_FRAC", 16, 8, .rw, true, .no, .any⟩]⟩

theorem regAt_trigCtl : ∀ ch : Fin 16, regAt .trig (chanOffset ch.val) = some (trigCtlSpec, 0)
    ∧ elementOf .trig (chanOffset ch.val) 0 = ch.val ∧ chanOffset ch.val < 4096 * Block.trig.pages := by decide

theorem State.crossOk_trigCtl (s : State) (b : Block) (k : Nat) (v : W32) : s.crossOk b "TRIG_CTL" k v =
    ((!(natBit v.toNat 0 || s.on (R.TRIG_CTL_ARM k)) || trigPairOk (bitsGet 4 4 v) (bitsGet 8 4 v) (s.get (R.TRIG_PARAM_PARAM k)))
      && !s.armsInPast k v) := rfl

theorem trigCtl_rangesOk {v : W32} (h : bitsGet 4 4 v ≤ 6) : trigCtlSpec.rangesOk v = true := by
  simp [trigCtlSpec, RegSpec.rangesOk, Rng.ok, h]

/-- ARM, UNIT and KIND take the bits of the write. -/
theorem trigCtl_store (old v : W32) : bitsGet 0 1 (trigCtlSpec.store old v) = bitsGet 0 1 v
    ∧ bitsGet 2 1 (trigCtlSpec.store old v) = bitsGet 2 1 v ∧ bitsGet 4 4 (trigCtlSpec.store old v) = bitsGet 4 4 v := by
  simp [trigCtlSpec, RegSpec.store, bitsGet_maskSet_same, bitsGet_maskSet_apart]

/-- The state in which TRIG_CTLk has taken a write. -/
def State.trigCtlStored (s : State) (n : Nat) (v : W32) : State :=
  s.setWord (R.TRIG_CTL_ARM n).a (trigCtlSpec.store (s.word (R.TRIG_CTL_ARM n).a) v)

section
variable (s : State) (n : Nat) (v : W32)

theorem State.trigCtlStored_arm : (s.trigCtlStored n v).on (R.TRIG_CTL_ARM n) = natBit v.toNat 0 := by
  rw [← bitsGet_one, ← (trigCtl_store (s.word (R.TRIG_CTL_ARM n).a) v).1]
  exact congrArg (· != 0) (s.get_setWord_same _ (R.TRIG_CTL_ARM n))

theorem State.trigCtlStored_unit : (s.trigCtlStored n v).on (R.TRIG_CTL_UNIT n) = natBit v.toNat 2 := by
  rw [← bitsGet_one, ← (trigCtl_store (s.word (R.TRIG_CTL_ARM n).a) v).2.1]
  exact congrArg (· != 0) (s.get_setWord_same _ (R.TRIG_CTL_UNIT n))

theorem State.trigCtlStored_kind : (s.trigCtlStored n v).get (R.TRIG_CTL_KIND n) = bitsGet 4 4 v := by
  rw [← (trigCtl_store (s.word (R.TRIG_CTL_ARM n).a) v).2.2]
  exact s.get_setWord_same _ (R.TRIG_CTL_KIND n)

theorem State.trigCtlStored_get {f : Fld} (h : (R.TRIG_CTL_ARM n).a ≠ f.a) : (s.trigCtlStored n v).get f = s.get f :=
  s.get_setWord_ne _ _ _ h

theorem State.trigCtlStored_reached (ticks : Bool) : (s.trigCtlStored n v).trigReached n ticks = s.trigReached n ticks := by
  have htgt : (s.trigCtlStored n v).get (R.TRIG_TGT_TGT n) = s.get (R.TRIG_TGT_TGT n) :=
    s.trigCtlStored_get n v (by simp only [R.TRIG_CTL_ARM, R.TRIG_TGT_TGT]; omega)
  rw [State.trigReached, htgt]
  rfl

end

/-- A write after which the channel is not armed on a target already reached fires nothing. -/
theorem execTrigCtlWrite_applied {m : Master} {ch : Fin 16} {v : W32} {s d u : State} {b : Block} {r : RegSpec} {o i : Nat} {old : W32}
    (hd : s.fireDue m ch.val v = d) (hw : d.busWrite m (R.TRIG_CTL_ARM ch.val).a true v = (u, .applied b r o i old))
    (hnot : (u.on (R.TRIG_CTL_ARM ch.val) && u.trigReached ch.val (u.on (R.TRIG_CTL_UNIT ch.val))) = false) :
    execTrigCtlWrite m ch v s = .next { u with trig := { u.trig with frac := mapErase u.trig.frac ch.val } } := by
  simp only [execTrigCtlWrite, hd, hw]
  exact if_neg (by rw [Bool.not_eq_true]; exact hnot)

theorem execTrigCtlWrite_refused {m : Master} {ch : Fin 16} {v : W32} {s u : State}
    (hw : (s.fireDue m ch.val v).busWrite m (R.TRIG_CTL_ARM ch.val).a true v = (u, .refused)) :
    execTrigCtlWrite m ch v s = .next (u.evtIf ((s.fireDue m ch.val v).armsInPast ch.val v) .trig E.TRIG_PAST_REFUSED) := by
  simp only [execTrigCtlWrite, hw]

theorem execTrigCtlWrite_ignored {m : Master} {ch : Fin 16} {v : W32} {s u : State}
    (hw : (s.fireDue m ch.val v).busWrite m (R.TRIG_CTL_ARM ch.val).a true v = (u, .ignored)) : execTrigCtlWrite m ch v s = .next u := by
  simp only [execTrigCtlWrite, hw]

theorem State.fireDue_due {s : State} {m : Master} {n : Nat} {v : W32} (hs : s.reaches m .trig = true) (hv : natBit v.toNat 0 = false)
    (harm : s.on (R.TRIG_CTL_ARM n) = true) (hreached : s.trigReached n (s.on (R.TRIG_CTL_UNIT n)) = true) :
    s.fireDue m n v = s.fireTrig n (s.pastTarget n) := by
  simp [State.fireDue, hs, hv, harm, hreached]

theorem State.fireDue_none {s : State} {m : Master} {n : Nat} {v : W32}
    (h : natBit v.toNat 0 = true ∨ s.on (R.TRIG_CTL_ARM n) = false ∨ s.trigReached n (s.on (R.TRIG_CTL_UNIT n)) = false) :
    s.fireDue m n v = s := by
  rcases h with h | h | h <;> simp [State.fireDue, h]

/-- Where no fire is due, a permitted write stores TRIG_CTLk: it arms or disarms the channel. -/
theorem execTrigCtlWrite_write {m : Master} {ch : Fin 16} {v : W32} {s : State} (hs : s.reaches m .trig = true) (hkind : bitsGet 4 4 v ≤ 6)
    (hpair : trigPairOk (bitsGet 4 4 v) (bitsGet 8 4 v) (s.get (R.TRIG_PARAM_PARAM ch.val)) = true)
    (hnot : s.trigReached ch.val (natBit v.toNat 2) = false)
    (hdue : natBit v.toNat 0 = true ∨ s.on (R.TRIG_CTL_ARM ch.val) = false ∨ s.trigReached ch.val (s.on (R.TRIG_CTL_UNIT ch.val)) = false) :
    execTrigCtlWrite m ch v s
      = .next { s.trigCtlStored ch.val v with trig := { s.trig with frac := mapErase s.trig.frac ch.val } } := by
  obtain ⟨hreg, helem, hoff⟩ := regAt_trigCtl ch
  have hx : s.crossOk .trig trigCtlSpec.name (elementOf .trig (chanOffset ch.val) 0) v = true := by
    rw [helem]
    exact (s.crossOk_trigCtl .trig ch.val v).trans (by simp [hpair, State.armsInPast, hnot])
  have hwrite := State.busWrite_applied hs hoff hreg rfl ⟨rfl, rfl⟩ (trigCtl_rangesOk hkind) hx
  rw [← trigCtl_addr, ← State.trigCtlStored.eq_def] at hwrite
  refine execTrigCtlWrite_applied (State.fireDue_none hdue) hwrite ?_
  rw [State.trigCtlStored_unit, State.trigCtlStored_reached, hnot, Bool.and_false]

/-- A write that disarms leaves the counts of the channel as the fire that was due left them. -/
theorem execTrigCtlWrite_disarm_fires {m : Master} {ch : Fin 16} {v : W32} {s : State} (hv : natBit v.toNat 0 = false) :
    ∃ t, execTrigCtlWrite m ch v s = .next t
      ∧ t.get (R.TRIG_STAT_FIRES ch.val) = (s.fireDue m ch.val v).get (R.TRIG_STAT_FIRES ch.val) := by
  obtain ⟨hreg, -, hoff⟩ := regAt_trigCtl ch
  have hfires : chanWord (R.TRIG_STAT_FIRES ch.val).a := chanWord_of ch.isLt (by decide)
  have hne : (R.TRIG_CTL_ARM ch.val).a ≠ (R.TRIG_STAT_FIRES ch.val).a := by simp only [R.TRIG_CTL_ARM, R.TRIG_STAT_FIRES]; omega
  have hwrite := (s.fireDue m ch.val v).busWrite_cases (m := m) v hoff hreg ⟨rfl, rfl⟩
  rw [← trigCtl_addr] at hwrite
  rcases hwrite with h | h | h | h
  · exact ⟨_, execTrigCtlWrite_ignored h, rfl⟩
  · exact ⟨_, execTrigCtlWrite_ignored h, rfl⟩
  · refine ⟨_, execTrigCtlWrite_refused h, ?_⟩
    rw [State.evtIf, State.armsInPast, hv]
    refine State.get_congr (State.refuse_word _ _ _ (.inr ?_))
    unfold chanWord at hfires
    simp only [Block.base]
    omega
  · refine ⟨_, execTrigCtlWrite_applied rfl h ?_, (s.fireDue m ch.val v).trigCtlStored_get ch.val v hne⟩
    have harm := ((s.fireDue m ch.val v).trigCtlStored_arm ch.val v).trans hv
    unfold State.trigCtlStored at harm
    rw [harm, Bool.false_and]

/-- Settles O24: each command by its own lemma above; the fire that is due before a write that disarms is the same fire as TRIGGER_FIRE's. -/
theorem snapshotStampTriggerCommandsComplete : Obligations.SnapshotStampTriggerCommandsComplete := by
  unfold Obligations.SnapshotStampTriggerCommandsComplete
  refine ⟨?latch, ?pps, ?noPps, ?stamp, ?noStamp, ?write, ?due, ?fire, ?pulse, ?pulseEnd⟩
  case latch =>
    intro m s hs
    obtain ⟨hold, hexec⟩ := execTbLatch_reaches hs
    obtain ⟨hns, hsec, hlin, hgen, hst⟩ := s.snapshotOf_shown m hold
    exact answers_of hexec ⟨hns, hsec, hlin, hgen, hst, State.putOwn_shared m _ s⟩
  case pps =>
    intro m x r s hs hf
    exact answers_of (execTbPpsinPop_cons hs hf) ⟨rfl, s.get_put_word (by decide : 0 + 32 ≤ 32) rfl x.high_lt, rfl⟩
  case noPps =>
    intro m s hs hf
    exact answers_of (execTbPpsinPop_nil hs hf) ⟨rfl, s.get_put_word (by decide : 0 + 32 ≤ 32) rfl (by decide), rfl⟩
  case stamp =>
    intro m x r s hs hf
    exact answers_of (execTrigFirePop_cons hs hf) ⟨rfl, s.get_put_word (by decide : 0 + 32 ≤ 32) rfl x.high_lt, rfl⟩
  case noStamp =>
    intro m s hs hf
    exact answers_of (execTrigFirePop_nil hs hf) ⟨rfl, s.get_put_word (by decide : 0 + 32 ≤ 32) rfl (by decide), rfl⟩
  case write =>
    intro m ch v s hs hkind hpair hnot hdue
    exact answers_of (execTrigCtlWrite_write hs hkind hpair hnot hdue) ⟨s.trigCtlStored_arm ch.val v, s.trigCtlStored_kind ch.val v⟩
  case due =>
    intro m ch v s hs hv harm hreached hkind
    obtain ⟨t, hexec, hfires⟩ := execTrigCtlWrite_disarm_fires (m := m) (ch := ch) (s := s) hv
    rw [State.fireDue_due hs hv harm hreached, State.fireTrig_fires ch.isLt _ hkind] at hfires
    exact answers_of hexec hfires
  case fire =>
    intro ch s h0 harm hkind
    obtain ⟨u, hregs, hexec⟩ := execTriggerFire_fires h0 harm
    have same (f : Fld) : u.get f = s.get f := State.get_congr (State.word_congr hregs)
    refine answers_of hexec ⟨?_, fun hper => State.fireTrig_oneShot ch.isLt _ ((same _).trans hkind) ((same _).trans hper)⟩
    rw [State.fireTrig_fires ch.isLt _ ((same _).trans hkind), same]
  case pulse =>
    intro ch s h0 harm hkind
    obtain ⟨u, hregs, hexec⟩ := execTriggerFire_fires h0 harm
    have hu : u.get (R.TRIG_CTL_KIND ch.val) = 3 := (State.get_congr (State.word_congr hregs)).trans hkind
    have started := State.fireTrig_pulses ch.isLt (u.pastTarget ch.val) hu
    rw [Fin.ofNat_val_eq_self] at started
    exact answers_of hexec started
  case pulseEnd =>
    intro ch s
    exact answers_of rfl (by simp)

end Sys2Proof.Machine
end

section
/-! Time sources (R120 to R128). -/

namespace Sys2Proof.Machine

/-! ## Events of a block and nothing else -/

/-- From `s` to `t` a block sets event flags, with what follows from that. -/
def State.onlyEvents (b : Block) (s t : State) : Prop := s.onlyNotices t ∧ ∀ a, ¬ evtTouches b a → t.word a = s.word a

theorem State.onlyEvents.refl (b : Block) (s : State) : s.onlyEvents b s := ⟨s.onlyNotices_refl, fun _ _ => rfl⟩

theorem State.onlyEvents.trans {b : Block} {s t u : State} (h : s.onlyEvents b t) (k : t.onlyEvents b u) : s.onlyEvents b u :=
  ⟨State.onlyNotices_trans h.1 k.1, fun a ha => (k.2 a ha).trans (h.2 a ha)⟩

theorem State.evt_onlyEvents (s : State) (b : Block) {i : Nat} (hi : i < 32) : s.onlyEvents b (s.evt b i) :=
  ⟨s.evt_onlyNotices b i, fun a ha => s.evt_word b i a hi ha⟩

theorem State.onlyEvents.get {b : Block} {s t : State} (h : s.onlyEvents b t) {f : Fld} (hf : ¬ evtTouches b f.a) : t.get f = s.get f :=
  State.get_congr (h.2 _ hf)

theorem State.onlyEvents.tb {b : Block} {s t : State} (h : s.onlyEvents b t) : t.tb = s.tb := by
  obtain ⟨⟨_, _, _, rfl⟩, -⟩ := h
  rfl

/-- The registers of the time base past its events. -/
theorem tbWord_not_evt {a : Nat} (h1 : 0x10070 ≤ a) (h2 : a < 0x11000) : ¬ evtTouches .tb a :=
  not_evtTouches (.inr h1) (by simp only [Block.base]; omega)

/-! ## What a change of the active source leaves alone -/

/-- A field that neither the choice of a source, nor HOLDOVER, nor the end of a slew writes. -/
structure ApartFromSource (f : Fld) : Prop where
  evt : ¬ evtTouches .tb f.a
  header : f.a < Block.tb.base ∨ Block.tb.base + 0x40 ≤ f.a
  src : R.TB_STATE_SRC.apart f
  mode : R.TB_STATE_MODE.apart f
  locked : R.TB_SRC_SET_LOCKED.apart f
  stratum : R.BCN_STATUS_STRATUM.apart f

/-- From `s` to `t` nothing changes but the active source, the mode, LOCKED (cleared at most), the instant of HOLDOVER, a slew that ends, the
device's own stratum, and events. -/
structure State.onlySource (s t : State) : Prop where
  rest : ∃ regs blocks rack msix since slew,
    t = { s with regs := regs, blocks := blocks, rack := rack, msixSent := msix, tb := { s.tb with holdStart := since, slew := slew } }
  fields : ∀ f, ApartFromSource f → t.get f = s.get f
  unlocked : s.on R.TB_SRC_SET_LOCKED = false → t.on R.TB_SRC_SET_LOCKED = false

namespace State.onlySource

theorem refl (s : State) : s.onlySource s := ⟨⟨_, _, _, _, _, _, rfl⟩, fun _ _ => rfl, id⟩

theorem trans {s t u : State} (h : s.onlySource t) (k : t.onlySource u) : s.onlySource u := by
  obtain ⟨⟨_, _, _, _, _, _, rfl⟩, hf, hl⟩ := h
  obtain ⟨⟨_, _, _, _, _, _, rfl⟩, kf, kl⟩ := k
  exact ⟨⟨_, _, _, _, _, _, rfl⟩, fun f h => (kf f h).trans (hf f h), kl ∘ hl⟩

theorem put (s : State) {f : Fld} (x : Nat) (hok : f.ok) (hap : ∀ g, ApartFromSource g → f.apart g) (hlock : f.apart R.TB_SRC_SET_LOCKED) :
    s.onlySource (s.put f x) :=
  ⟨⟨_, _, _, _, _, _, rfl⟩, fun g hg => s.get_put_apart f g x hok (hap g hg),
    fun h => (State.on_congr (s.get_put_apart f _ x hok hlock)).trans h⟩

theorem putSrc (s : State) (x : Nat) : s.onlySource (s.put R.TB_STATE_SRC x) :=
  put s x (by decide : 0 + 2 ≤ 32) (fun _ hg => hg.src) (.inl (by decide))

theorem putMode (s : State) (x : Nat) : s.onlySource (s.put R.TB_STATE_MODE x) :=
  put s x (by decide : 4 + 2 ≤ 32) (fun _ hg => hg.mode) (.inl (by decide))

theorem putStratum (s : State) (x : Nat) : s.onlySource (s.put R.BCN_STATUS_STRATUM x) :=
  put s x (by decide : 0 + 4 ≤ 32) (fun _ hg => hg.stratum) (.inl (by decide))

theorem clearLocked (s : State) : s.onlySource (s.put R.TB_SRC_SET_LOCKED 0) :=
  ⟨⟨_, _, _, _, _, _, rfl⟩, fun g hg => s.get_put_apart _ g 0 (by decide : 2 + 1 ≤ 32) hg.locked,
    fun _ => s.on_put_zero _ (by decide : 2 + 1 ≤ 32)⟩

theorem evt (s : State) {i : Nat} (hi : i < 32) : s.onlySource (s.evt .tb i) := by
  obtain ⟨⟨_, _, _, e⟩, hw⟩ := s.evt_onlyEvents .tb hi
  have locked : ¬ evtTouches .tb R.TB_SRC_SET_LOCKED.a := tbWord_not_evt (by decide) (by decide)
  refine ⟨?_, fun f hf => State.get_congr (hw _ hf.evt), fun h => (State.on_congr (State.get_congr (hw _ locked))).trans h⟩
  rw [e]
  exact ⟨_, _, _, _, _, _, rfl⟩

end State.onlySource

theorem State.done_get (s : State) (b : Block) (c : Code) {f : Fld} (h : f.a < b.base ∨ b.base + 0x40 ≤ f.a) : (s.done b c).get f = s.get f :=
  State.get_congr (s.done_word b c _ (by omega) (by omega))

/-! ## The end of a slew, and the stratum -/

theorem State.endSlew_some {s : State} {w : Slew} (c : Code) (h : s.tb.slew = some w) :
    s.endSlew c = (({ s with tb := { s.tb with slew := none } } : State).put (R.H_STATUS_PROGRESS Block.tb.base) w.removedUs).done .tb c := by
  rw [State.endSlew, h]

theorem State.endSlew_none {s : State} (c : Code) (h : s.tb.slew = none) : s.endSlew c = s := by
  rw [State.endSlew, h]

/-- Of registers the end of a slew changes the page's header alone. -/
theorem State.endSlew_get (s : State) (c : Code) {f : Fld} (hf : f.a < Block.tb.base ∨ Block.tb.base + 0x40 ≤ f.a) :
    (s.endSlew c).get f = s.get f := by
  cases h : s.tb.slew with
  | none => rw [State.endSlew_none c h]
  | some w =>
    have progress : (R.H_STATUS_PROGRESS Block.tb.base).a ≠ f.a := by simp only [R.H_STATUS_PROGRESS, Block.base] at *; omega
    rw [State.endSlew_some c h, State.done_get _ _ _ hf, State.get_put_ne _ _ _ _ progress]
    rfl

theorem State.endSlew_onlySource (s : State) (c : Code) : s.onlySource (s.endSlew c) := by
  refine ⟨?_, fun f hf => s.endSlew_get c hf.header, fun h => (State.on_congr (s.endSlew_get c (.inr (by decide)))).trans h⟩
  cases h : s.tb.slew with
  | none => rw [State.endSlew_none c h]; exact ⟨_, _, _, _, _, _, rfl⟩
  | some w =>
    have page (t : State) : ∃ regs blocks, t.done .tb c = { t with regs := regs, blocks := blocks } := ⟨_, _, rfl⟩
    obtain ⟨_, _, e⟩ := page (({ s with tb := { s.tb with slew := none } } : State).put (R.H_STATUS_PROGRESS Block.tb.base) w.removedUs)
    rw [State.endSlew_some c h, e]
    exact ⟨_, _, _, _, _, _, rfl⟩

theorem State.endSlew_tb (s : State) (c : Code) : (s.endSlew c).tb = { s.tb with slew := none } := by
  cases h : s.tb.slew with
  | none => rw [State.endSlew_none c h, ← h]
  | some w => rw [State.endSlew_some c h, State.done_tb]; rfl

theorem State.stratumNow_cases (s : State) : s.stratumNow = s ∨ ∃ x, s.stratumNow = s.put R.BCN_STATUS_STRATUM x := by
  unfold State.stratumNow
  split
  · split
    · split
      · exact .inr ⟨_, rfl⟩
      · exact .inl rfl
    · exact .inr ⟨_, rfl⟩
  · exact .inl rfl
  · exact .inr ⟨_, rfl⟩

theorem State.stratumNow_onlySource (s : State) : s.onlySource s.stratumNow := by
  obtain h | ⟨x, h⟩ := s.stratumNow_cases <;> rw [h]
  · exact .refl s
  · exact .putStratum s x

theorem State.stratumNow_get (s : State) {f : Fld} (h : R.BCN_STATUS_STRATUM.a ≠ f.a) : s.stratumNow.get f = s.get f := by
  obtain e | ⟨x, e⟩ := s.stratumNow_cases <;> rw [e]
  exact s.get_put_ne _ _ _ h

theorem State.stratumNow_rest (s : State) : s.stratumNow.tb = s.tb ∧ s.stratumNow.ret = s.ret := by
  obtain e | ⟨x, e⟩ := s.stratumNow_cases <;> rw [e] <;> exact ⟨rfl, rfl⟩

/-! ## HOLDOVER (R123, R125, R127) -/

/-- The mode becomes HOLDOVER, from this instant on if it was another. -/
def State.holdFrom (s : State) : State :=
  if s.tbMode = 3 then s else ({ s with tb := { s.tb with holdStart := s.tb.L } }.put R.TB_STATE_MODE 3).evt .tb E.TB_HOLDOVER

theorem State.enterHoldover_eq (s : State) :
    s.enterHoldover = (((s.holdFrom.put R.TB_STATE_SRC 0).put R.TB_SRC_SET_LOCKED 0).endSlew .state).stratumNow := rfl

theorem State.holdFrom_onlySource (s : State) : s.onlySource s.holdFrom := by
  unfold State.holdFrom
  split
  · exact .refl s
  · have since : s.onlySource { s with tb := { s.tb with holdStart := s.tb.L } } := ⟨⟨_, _, _, _, _, _, rfl⟩, fun _ _ => rfl, id⟩
    exact (since.trans (.putMode _ 3)).trans (.evt _ (by decide))

theorem State.holdFrom_mode (s : State) : s.holdFrom.tbMode = 3 := by
  unfold State.holdFrom
  split
  next h => exact h
  next =>
    rw [State.tbMode, State.evt_get _ _ _ _ (by decide) (tbWord_not_evt (by decide) (by decide)),
      State.get_put_same _ R.TB_STATE_MODE _ (by decide : 4 + 2 ≤ 32)]
    rfl

theorem State.enterHoldover_onlySource (s : State) : s.onlySource s.enterHoldover :=
  (((s.holdFrom_onlySource.trans (.putSrc _ 0)).trans (.clearLocked _)).trans (State.endSlew_onlySource _ _)).trans
    (State.stratumNow_onlySource _)

/-- TB_STATE is no register of the page's header, nor of BCN. -/
theorem State.enterHoldover_state (s : State) {f : Fld} (hf : f.a = R.TB_STATE_SRC.a) :
    s.enterHoldover.get f = (s.holdFrom.put R.TB_STATE_SRC 0).get f := by
  rw [State.enterHoldover_eq, State.stratumNow_get _ (by rw [hf]; decide), State.endSlew_get _ _ (by rw [hf]; exact .inr (by decide)),
    State.get_put_ne _ R.TB_SRC_SET_LOCKED _ _ (by rw [hf]; decide)]

theorem State.enterHoldover_mode (s : State) : s.enterHoldover.tbMode = 3 := by
  have h := s.enterHoldover_state (f := R.TB_STATE_MODE) rfl
  have apart : R.TB_STATE_SRC.apart R.TB_STATE_MODE := .inr (.inl (by decide))
  exact (h.trans (State.get_put_apart _ _ R.TB_STATE_MODE _ (by decide : 0 + 2 ≤ 32) apart)).trans s.holdFrom_mode

/-- No source is active in HOLDOVER. -/
theorem State.enterHoldover_src (s : State) : s.enterHoldover.get R.TB_STATE_SRC = 0 :=
  (s.enterHoldover_state rfl).trans (State.get_put_same _ R.TB_STATE_SRC 0 (by decide : 0 + 2 ≤ 32))

theorem State.enterHoldover_since {s : State} (h : s.tbMode ≠ 3) : s.enterHoldover.tb.holdStart = s.tb.L := by
  have since : s.holdFrom.tb = { s.tb with holdStart := s.tb.L } := by
    rw [State.holdFrom, if_neg h, State.evt_tb]
    rfl
  rw [State.enterHoldover_eq, (State.stratumNow_rest _).1, State.endSlew_tb]
  exact congrArg TbSt.holdStart since

/-! ## Qualification (R120, R123) -/

/-- The state with other qualified sources. -/
def State.withQualified (s : State) (q : List Bool) : State := { s with tb := { s.tb with qualified := q } }

theorem State.onlyEvents.withQualified {b : Block} {s t : State} (h : s.onlyEvents b t) (q : List Bool) :
    (s.withQualified q).onlyEvents b (t.withQualified q) := by
  obtain ⟨⟨_, _, _, rfl⟩, hw⟩ := h
  exact ⟨⟨_, _, _, rfl⟩, hw⟩

/-- No event changes how long a source has been OK, or whether it is enabled. -/
theorem State.onlyEvents.meetsQual {s t : State} (h : s.onlyEvents .tb t) (i : Nat) : t.meetsQual i = s.meetsQual i := by
  have en : t.word R.TB_SRC_EN_PTP.a = s.word R.TB_SRC_EN_PTP.a := h.2 _ (tbWord_not_evt (by decide) (by decide))
  have secs : t.get R.TB_QUAL_S = s.get R.TB_QUAL_S := h.get (tbWord_not_evt (by decide) (by decide))
  have qual : t.qualAt = s.qualAt := funext fun x => by rw [State.qualAt, State.qualAt, secs]
  rw [State.meetsQual, State.meetsQual, State.srcEnabled, State.srcEnabled, en, qual, h.tb]

theorem nth_set (l : List Bool) {i : Nat} (hi : i < l.length) (j : Nat) : nth (l.set i true) j false = (nth l j false || decide (j = i)) := by
  by_cases h : j = i
  · subst h
    simp [nth, List.getD, hi]
  · simp [nth, List.getD, Ne.symm h, h]

/-- One source is judged: it is qualified if it was or if it has been OK long enough; an event says the latter. -/
theorem State.qualify_sets (s : State) {i : Nat} (hi : i < s.tb.qualified.length) :
    ∃ q, (s.withQualified q).onlyEvents .tb (s.qualify i) ∧ q.length = s.tb.qualified.length
      ∧ ∀ j, nth q j false = (nth s.tb.qualified j false || (decide (j = i) && s.meetsQual i)) := by
  unfold State.qualify
  split
  next h =>
    refine ⟨s.tb.qualified, .refl _ _, rfl, fun j => ?_⟩
    by_cases hj : j = i
    · subst hj
      cases hq : nth s.tb.qualified j false
      · simpa [hq] using h
      · simp
    · simp [hj]
  next h =>
    obtain ⟨-, met⟩ : nth s.tb.qualified i false = false ∧ s.meetsQual i = true := by simpa using h
    exact ⟨_, State.evt_onlyEvents _ _ (by decide), List.length_set, fun j => by rw [nth_set _ hi, met, Bool.and_true]⟩

theorem State.foldl_qualify_sets (l : List Nat) (s : State) (hl : ∀ i ∈ l, i < s.tb.qualified.length) :
    ∃ q, (s.withQualified q).onlyEvents .tb (l.foldl State.qualify s)
      ∧ ∀ j, nth q j false = (nth s.tb.qualified j false || (decide (j ∈ l) && s.meetsQual j)) := by
  induction l generalizing s with
  | nil => exact ⟨s.tb.qualified, .refl _ _, by simp⟩
  | cons i r ih =>
    obtain ⟨q, he, hlen, hq⟩ := s.qualify_sets (hl i List.mem_cons_self)
    have held : (s.qualify i).tb.qualified = q := congrArg TbSt.qualified he.tb
    obtain ⟨q', he', hq'⟩ := ih (s.qualify i) fun k hk => by rw [held, hlen]; exact hl k (List.mem_cons_of_mem _ hk)
    refine ⟨q', (he.withQualified q').trans he', fun j => ?_⟩
    rw [hq', held, hq, he.meetsQual]
    change (_ || (_ && s.meetsQual j)) = _
    by_cases hj : j = i
    · subst hj
      by_cases hr : j ∈ r <;> cases s.meetsQual j <;> simp [hr]
    · simp [hj]

/-- The sources judged again, before the active one is looked at. -/
def State.judged (s : State) : State := [0, 1, 2].foldl State.qualify (s.withQualified ((List.range 3).map s.staysQualified))

/-- The active source, if it is lost, gives way to another or to HOLDOVER. -/
def State.dropLost (s : State) : State :=
  let src := s.get R.TB_STATE_SRC
  if src ≠ 0 ∧ nth s.tb.qualified (src - 1) false = false then
    (if s.tb.qualified.contains true && !s.on R.TB_STATE_REF_LOST then s.put R.TB_STATE_SRC 0 else s.enterHoldover)
  else s

theorem State.tbEval_eq (s : State) : s.tbEval = s.judged.dropLost.selectSource := by
  unfold State.tbEval
  rfl

/-- A source is qualified that stays so or has been OK long enough. -/
theorem State.judged_sets (s : State) :
    ∃ q, (s.withQualified q).onlyEvents .tb s.judged ∧ ∀ i, i < 3 → nth q i false = (s.staysQualified i || s.meetsQual i) := by
  obtain ⟨q, he, hq⟩ := State.foldl_qualify_sets [0, 1, 2] (s.withQualified ((List.range 3).map s.staysQualified))
    (by simp [State.withQualified])
  refine ⟨q, he, fun i hi => ?_⟩
  rw [hq]
  change (nth ((List.range 3).map s.staysQualified) i false || (_ && s.meetsQual i)) = _
  have hmem : i ∈ [0, 1, 2] := by simp; omega
  simp [nth, List.getD, hi, hmem]

theorem State.dropLost_onlySource (s : State) : s.onlySource s.dropLost := by
  unfold State.dropLost
  dsimp only
  split
  · split
    · exact .putSrc s 0
    · exact s.enterHoldover_onlySource
  · exact .refl s

theorem State.selectSource_onlySource (s : State) : s.onlySource s.selectSource := by
  unfold State.selectSource
  split
  · exact .refl s
  split
  · exact .refl s
  dsimp only
  split
  · exact .refl s
  · exact ((((State.onlySource.putSrc s _).trans (.putMode _ 1)).trans (.clearLocked _)).trans (.evt _ (by decide))).trans
      (State.stratumNow_onlySource _)

theorem State.onlyEvents.onlySource {s t : State} (h : s.onlyEvents .tb t) : s.onlySource t := by
  have locked : ¬ evtTouches .tb R.TB_SRC_SET_LOCKED.a := tbWord_not_evt (by decide) (by decide)
  have fields (f : Fld) (hf : ApartFromSource f) : t.get f = s.get f := h.get hf.evt
  have unlocked (k : s.on R.TB_SRC_SET_LOCKED = false) : t.on R.TB_SRC_SET_LOCKED = false := (State.on_congr (h.get locked)).trans k
  obtain ⟨⟨_, _, _, rfl⟩, -⟩ := h
  exact ⟨⟨_, _, _, _, _, _, rfl⟩, fields, unlocked⟩

/-- What judging the sources again does: the qualified ones by R120, and nothing else but what a change of the source brings. -/
theorem State.tbEval_sets (s : State) :
    ∃ q, (s.withQualified q).onlySource s.tbEval ∧ ∀ i, i < 3 → nth q i false = (s.staysQualified i || s.meetsQual i) := by
  obtain ⟨q, he, hq⟩ := s.judged_sets
  exact ⟨q, (he.onlySource.trans (State.dropLost_onlySource _)).trans (State.selectSource_onlySource _), hq⟩

theorem State.tbEval_qualified (s : State) {i : Nat} (hi : i < 3) :
    nth s.tbEval.tb.qualified i false = (s.staysQualified i || s.meetsQual i) := by
  obtain ⟨q, ⟨⟨_, _, _, _, _, _, e⟩, -, -⟩, hq⟩ := s.tbEval_sets
  rw [e]
  exact hq i hi

theorem State.tbEval_okAt (s : State) : s.tbEval.tb.okAt = s.tb.okAt := by
  obtain ⟨q, ⟨⟨_, _, _, _, _, _, e⟩, -, -⟩, -⟩ := s.tbEval_sets
  rw [e]
  rfl

theorem State.tbEval_ppsFifo (s : State) : s.tbEval.tb.ppsFifo = s.tb.ppsFifo := by
  obtain ⟨q, ⟨⟨_, _, _, _, _, _, e⟩, -, -⟩, -⟩ := s.tbEval_sets
  rw [e]
  rfl

theorem State.tbEval_get (s : State) {f : Fld} (hf : ApartFromSource f) : s.tbEval.get f = s.get f := by
  obtain ⟨q, h, -⟩ := s.tbEval_sets
  exact h.fields f hf

theorem State.tbEval_unlocked {s : State} (h : s.on R.TB_SRC_SET_LOCKED = false) : s.tbEval.on R.TB_SRC_SET_LOCKED = false := by
  obtain ⟨q, k, -⟩ := s.tbEval_sets
  exact k.unlocked h

/-- PTP, the best source, stays active while it stays qualified. -/
theorem State.tbEval_ptpActive {s : State} (hsrc : s.get R.TB_STATE_SRC = 1) (hstays : s.staysQualified 0 = true) : s.tbEval = s.judged := by
  obtain ⟨q, he, hq⟩ := s.judged_sets
  have src : s.judged.get R.TB_STATE_SRC = 1 := (he.get (tbWord_not_evt (by decide) (by decide))).trans hsrc
  have qualified : nth s.judged.tb.qualified 0 false = true := by
    rw [he.tb]
    exact (hq 0 (by decide)).trans (by rw [hstays, Bool.true_or])
  have kept : s.judged.dropLost = s.judged := by simp [State.dropLost, src, qualified]
  have best : (List.range 3).find? (fun i => nth s.judged.tb.qualified i false) = some 0 :=
    List.find?_eq_some_iff_append.mpr ⟨qualified, [], [1, 2], rfl, by simp⟩
  rw [State.tbEval_eq, kept, State.selectSource]
  simp [best, src]

/-! ## OK and not OK (R121) -/

theorem State.setOk_get (s : State) (i : Nat) (ok : Bool) {f : Fld} (h : R.TB_STATE_OK.a ≠ f.a ∨ f.lo + f.w ≤ 8) (hi : i < 3) :
    (s.setOk i ok).get f = s.get f := by
  refine State.get_put_apart _ ⟨R.TB_STATE_OK.a, 8 + i, 1⟩ f _ (by simp only [Fld.ok]; omega) ?_
  exact h.imp id fun h => .inr (by simp only; omega)

theorem State.setOk_isSome {s : State} {i : Nat} (ok : Bool) (hi : i < s.tb.okAt.length) :
    (nth (s.setOk i ok).tb.okAt i none).isSome = ok := by
  cases ok
  · simp [State.setOk, nth, List.getD, hi]
  · simp only [State.setOk, State.put_tb, nth, List.getD, List.getElem?_set_self hi, if_true, Option.getD_some]
    split <;> rfl

theorem State.setOk_other {s : State} {i j : Nat} (ok : Bool) (h : i ≠ j) : nth (s.setOk i ok).tb.okAt j none = nth s.tb.okAt j none := by
  simp [State.setOk, nth, List.getD, List.getElem?_set_ne h]

theorem State.setOk_length (s : State) (i : Nat) (ok : Bool) : (s.setOk i ok).tb.okAt.length = s.tb.okAt.length := by
  simp [State.setOk]

theorem State.setOk_word (s : State) (i : Nat) (ok : Bool) {a : Nat} (h : R.TB_STATE_OK.a ≠ a) : (s.setOk i ok).word a = s.word a :=
  State.word_put_ne _ _ _ _ h

theorem State.meetsQual_of {s : State} {i : Nat} {t0 : Lin} (hok : nth s.tb.okAt i none = some t0) (hen : s.srcEnabled i = true)
    (h : (s.qualAt t0).toNat ≤ s.tb.L.toNat) : s.meetsQual i = true := by
  simp [State.meetsQual, hen, hok, h]

theorem State.advanceTo_okAt (s : State) (l : Lin) : (s.advanceTo l).tb.okAt = s.tb.okAt := by
  unfold State.advanceTo
  split <;> rfl

theorem State.le_advanceTo {s : State} (l : Lin) (href : s.on R.TB_STATE_REF_LOST = false) : l.toNat ≤ (s.advanceTo l).tb.L.toNat := by
  unfold State.advanceTo
  split
  · simp [State.nextShown, href]
  · omega

/-- Time passes to the instant at which the source has been OK for TB_QUAL seconds. -/
theorem State.advanceTo_meetsQual {s : State} {i : Nat} {t0 : Lin} (hok : nth s.tb.okAt i none = some t0) (hen : s.srcEnabled i = true)
    (href : s.on R.TB_STATE_REF_LOST = false) : (s.advanceTo (s.qualAt t0)).meetsQual i = true := by
  have word (a : Nat) : (s.advanceTo (s.qualAt t0)).word a = s.word a := State.word_congr (s.advanceTo_regs _)
  have qual : (s.advanceTo (s.qualAt t0)).qualAt t0 = s.qualAt t0 := by
    rw [State.qualAt, State.get_congr (word _), ← State.qualAt]
  refine State.meetsQual_of (t0 := t0) ?_ ?_ ?_
  · rw [State.advanceTo_okAt]
    exact hok
  · rw [State.srcEnabled, word]
    exact hen
  · rw [qual]
    exact State.le_advanceTo _ href

theorem execSourceQualified_ok {src : Fin 3} {t0 : Lin} {s : State} (hok : nth s.tb.okAt src.val none = some t0) (h0 : s.pdOn 0 = true)
    (hen : s.srcEnabled src.val = true) : execSourceQualified src s = .next (s.advanceTo (s.qualAt t0)).tbEval := by
  simp [execSourceQualified, hok, h0, hen]

/-! ## Writes of TB_SRC_SET and TB_RATE (R117, R121, R124) -/

/-- TB_SRC_SET and TB_RATE as the register map gives them. -/
def tbSrcSetSpec : RegSpec := ⟨"TB_SRC_SET", 0x124, 1, 4, false,
  [⟨"PTP_OK", 0, 1, .rw, false, .no, .any⟩, ⟨"BCN_OK", 1, 1, .rw, false, .no, .any⟩, ⟨"LOCKED", 2, 1, .rw, false, .no, .any⟩]⟩

def tbRateSpec : RegSpec := ⟨"TB_RATE", 0x130, 1, 4, false, [⟨"RATE", 0, 32, .rw, false, .no, .any⟩]⟩

theorem regAt_tbSrcSet : regAt .tb 0x124 = some (tbSrcSetSpec, 0) := by decide

theorem regAt_tbRate : regAt .tb 0x130 = some (tbRateSpec, 0) := by decide

theorem State.crossOk_tbSrcSet (s : State) (b : Block) (k : Nat) (v : W32) :
    s.crossOk b "TB_SRC_SET" k v = (!natBit v.toNat 2 || s.tbMode == 1 || s.tbMode == 2) := rfl

theorem State.crossOk_tbRate (s : State) (b : Block) (k : Nat) (v : W32) : s.crossOk b "TB_RATE" k v = (s.tbMode != 3) := rfl

theorem tbSrcSet_store (old v : W32) : bitsGet 0 1 (tbSrcSetSpec.store old v) = bitsGet 0 1 v
    ∧ bitsGet 1 1 (tbSrcSetSpec.store old v) = bitsGet 1 1 v ∧ bitsGet 2 1 (tbSrcSetSpec.store old v) = bitsGet 2 1 v := by
  simp [tbSrcSetSpec, RegSpec.store, bitsGet_maskSet_same, bitsGet_maskSet_apart]

theorem tbRate_store (old v : W32) : tbRateSpec.store old v = v := maskSet_word old v

/-- The state in which TB_SRC_SET has taken a write. -/
def State.srcSetStored (s : State) (v : W32) : State :=
  s.setWord R.TB_SRC_SET_PTP_OK.a (tbSrcSetSpec.store (s.word R.TB_SRC_SET_PTP_OK.a) v)

theorem State.srcSetStored_on (s : State) (v : W32) :
    (s.srcSetStored v).on R.TB_SRC_SET_PTP_OK = natBit v.toNat 0 ∧ (s.srcSetStored v).on R.TB_SRC_SET_BCN_OK = natBit v.toNat 1
      ∧ (s.srcSetStored v).on R.TB_SRC_SET_LOCKED = natBit v.toNat 2 := by
  obtain ⟨h0, h1, h2⟩ := tbSrcSet_store (s.word R.TB_SRC_SET_PTP_OK.a) v
  rw [← bitsGet_one, ← bitsGet_one, ← bitsGet_one, ← h0, ← h1, ← h2]
  exact ⟨congrArg (· != 0) (s.get_setWord_same _ R.TB_SRC_SET_PTP_OK), congrArg (· != 0) (s.get_setWord_same _ R.TB_SRC_SET_BCN_OK),
    congrArg (· != 0) (s.get_setWord_same _ R.TB_SRC_SET_LOCKED)⟩

/-- The sources as TB_SRC_SET says. -/
def State.srcSetTaken (s : State) : State := (s.setOk 0 (s.on R.TB_SRC_SET_PTP_OK)).setOk 2 (s.on R.TB_SRC_SET_BCN_OK)

/-- LOCKED begins or ends the mode of that name. -/
def State.lockTaken (s : State) : State :=
  let lock := s.on R.TB_SRC_SET_LOCKED
  if lock && s.tbMode == 1 then ((s.put R.TB_STATE_MODE 2).stratumNow).startRestore
  else if !lock && s.tbMode == 2 then (s.put R.TB_STATE_MODE 1).stratumNow
  else s

theorem execTbSrcSetWrite_applied {m : Master} {v : W32} {s : State} (hs : s.reaches m .tb = true)
    (hv : (!natBit v.toNat 2 || s.tbMode == 1 || s.tbMode == 2) = true) :
    execTbSrcSetWrite m v s = .next (s.srcSetStored v).srcSetTaken.tbEval.lockTaken := by
  have hwrite := State.busWrite_applied (v := v) hs (by decide) regAt_tbSrcSet rfl ⟨rfl, rfl⟩ (by simp [tbSrcSetSpec, RegSpec.rangesOk, Rng.ok])
    ((s.crossOk_tbSrcSet _ _ v).trans hv)
  change s.busWrite m R.TB_SRC_SET_PTP_OK.a true v = _ at hwrite
  simp only [execTbSrcSetWrite, hwrite]
  rfl

theorem State.lockTaken_unlocked {s : State} (h : s.on R.TB_SRC_SET_LOCKED = false) : s.lockTaken.tb = s.tb := by
  unfold State.lockTaken
  simp only [h, Bool.false_and, Bool.false_eq_true, if_false, Bool.not_false, Bool.true_and]
  split
  · exact (State.stratumNow_rest _).1
  · rfl

theorem State.lockTaken_locks {s : State} (hlock : s.on R.TB_SRC_SET_LOCKED = true) (hmode : s.tbMode = 1) (hmark : s.ret.marker = none) :
    s.lockTaken.tbMode = 2 := by
  have none : (s.put R.TB_STATE_MODE 2).stratumNow.ret.marker = none := by rw [(State.stratumNow_rest _).2]; exact hmark
  have locked : s.lockTaken = (s.put R.TB_STATE_MODE 2).stratumNow := by
    simp [State.lockTaken, hlock, hmode, State.startRestore, none]
  rw [locked, State.tbMode, State.stratumNow_get _ (by decide), State.get_put_same _ R.TB_STATE_MODE _ (by decide : 4 + 2 ≤ 32)]
  rfl

theorem execTbRateWrite_applied {m : Master} {v : W32} {s : State} (hs : s.reaches m .tb = true) (hmode : s.tbMode ≠ 3) :
    execTbRateWrite m v s = .next ((s.setWord R.TB_RATE_RATE.a v).passBfifo 29 1 fun _ => v.toNat) := by
  have hwrite := State.busWrite_applied (v := v) hs (by decide) regAt_tbRate rfl ⟨rfl, rfl⟩ (by simp [tbRateSpec, RegSpec.rangesOk, Rng.ok])
    ((s.crossOk_tbRate _ _ v).trans (by simpa using hmode))
  change s.busWrite m R.TB_RATE_RATE.a true v = _ at hwrite
  rw [tbRate_store] at hwrite
  simp only [execTbRateWrite, hwrite]
  rfl

theorem execTbRateWrite_refused {m : Master} {v : W32} {s : State} (hs : s.reaches m .tb = true) (hmode : s.tbMode = 3) :
    execTbRateWrite m v s = .next (s.refuse .tb 0x130) := by
  have hwrite := State.busWrite_refused (v := v) hs (by decide) regAt_tbRate rfl ((s.crossOk_tbRate _ _ v).trans (by simp [hmode]))
  change s.busWrite m R.TB_RATE_RATE.a true v = _ at hwrite
  simp only [execTbRateWrite, hwrite]

/-! ## 1PPS and the 10 MHz input (R121, R132, R133, R144) -/

/-- What an edge leaves before GNSS is judged. -/
theorem execPpsInput_room {e : Option (BitVec 32)} {s : State} (h0 : s.pdOn 0 = true) (hroom : s.tb.ppsFifo.length < 16) :
    ∃ u : State, execPpsInput e s = .next u.judgeGnss.tbEval
      ∧ u.tb.ppsFifo = s.tb.ppsFifo ++ [stampAt s (s.tb.L - BitVec.ofInt 104 (toSigned 16 (s.get R.TB_PPS_CFG_IN_DELAY) * 2 ^ 40)) 0 1]
      ∧ u.get R.TB_TENM_ERR_ERR = (e.getD 0x80000000#32).toNat := by
  simp only [execPpsInput, h0, State.pushStamp_room s hroom]
  refine ⟨_, rfl, rfl, ?_⟩
  cases e with
  | none => exact State.get_put_word _ (f := R.TB_TENM_ERR_ERR) (by decide : 0 + 32 ≤ 32) rfl (by decide)
  | some x => exact State.get_put_word _ (f := R.TB_TENM_ERR_ERR) (by decide : 0 + 32 ≤ 32) rfl x.isLt

theorem State.judgeGnss_lost {s : State} (hlen : s.tb.okAt.length = 3) (h : (s.tb.pps && (s.tb.tenm || !s.on R.TB_SRC_EN_TENM)) = false) :
    nth s.judgeGnss.tb.okAt 1 none = none := by
  have hsome := State.setOk_isSome (s := s) (i := 1) false (by omega)
  rw [State.judgeGnss, h]
  simpa using hsome

theorem execGnssPpsMissing_lost {tenm : Bool} {s : State} (h0 : s.pdOn 0 = true) (hlen : s.tb.okAt.length = 3)
    (h10 : tenm = true → s.on R.TB_SRC_EN_TENM = true) :
    ∃ u : State, execGnssPpsMissing tenm s = .next u.tbEval ∧ nth u.tb.okAt 1 none = none := by
  cases tenm
  · refine ⟨({ s with tb := { s.tb with pps := false } } : State).judgeGnss, by simp [execGnssPpsMissing, h0], ?_⟩
    exact State.judgeGnss_lost hlen rfl
  · refine ⟨({ s with tb := { s.tb with tenm := false } } : State).judgeGnss, by simp [execGnssPpsMissing, h0], ?_⟩
    refine State.judgeGnss_lost hlen ?_
    have en : ({ s with tb := { s.tb with tenm := false } } : State).on R.TB_SRC_EN_TENM = true := h10 rfl
    simp [en]

/-! ## The loss of the reference (R127, R128) -/

/-- The loss of the reference noted: the crystal's ratio stays as it was measured last (log entry 5). -/
def State.refLostNoted (s : State) : State :=
  let s : State := { s with tb := { s.tb with crystal := (Config.crystalTick s.freeCtr).toNat }, freeCtr := s.freeCtr + 1 }
  (s.put R.TB_STATE_REF_LOST 1).evt .tb E.TB_REF_LOST

/-- Its return noted. -/
def State.refBackNoted (s : State) : State := (s.put R.TB_STATE_REF_LOST 0).evt .tb E.TB_REF_BACK

theorem execRefLost_stops {s : State} (h0 : s.pdOn 0 = true) (href : s.on R.TB_STATE_REF_LOST = false) :
    execRefLost s
      = .next ((((s.refLostNoted.enterHoldover.toOff 0 false).toOff 1 false).toOff 2 false).toOff 3 false) := by
  simp only [execRefLost, h0, href, Bool.not_true, Bool.or_self, Bool.false_eq_true, if_false, List.foldl_cons, List.foldl_nil,
    State.refLostNoted]

theorem execRefBack_starts {s : State} (h0 : s.pdOn 0 = true) (href : s.on R.TB_STATE_REF_LOST = true) :
    execRefBack s = .next ((((s.refBackNoted.tbEval.chainStart 0).chainStart 1).chainStart 2).chainStart 3) := by
  simp only [execRefBack, h0, href, Bool.not_true, Bool.or_self, Bool.false_eq_true, if_false, List.foldl_cons, List.foldl_nil,
    State.refBackNoted]

theorem State.refLostNoted_on (s : State) : s.refLostNoted.on R.TB_STATE_REF_LOST = true := by
  rw [State.refLostNoted, State.on_congr (State.evt_get _ _ _ _ (by decide) (tbWord_not_evt (by decide) (by decide)))]
  exact State.on_put_one _ _ (by decide : 6 + 1 ≤ 32) rfl

theorem State.refBackNoted_off (s : State) : s.refBackNoted.on R.TB_STATE_REF_LOST = false := by
  rw [State.refBackNoted, State.on_congr (State.evt_get _ _ _ _ (by decide) (tbWord_not_evt (by decide) (by decide)))]
  exact State.on_put_zero _ _ (by decide : 6 + 1 ≤ 32)

/-! ## The statement -/

theorem apartFromSource_refLost : ApartFromSource R.TB_STATE_REF_LOST :=
  ⟨tbWord_not_evt (by decide) (by decide), .inr (by decide), .inr (.inl (by decide)), .inr (.inl (by decide)), .inl (by decide),
    .inl (by decide)⟩

theorem apartFromSource_tenmErr : ApartFromSource R.TB_TENM_ERR_ERR :=
  ⟨tbWord_not_evt (by decide) (by decide), .inr (by decide), .inl (by decide), .inl (by decide), .inl (by decide), .inl (by decide)⟩

/-- A write that says LOCKED while PTP is active and qualified. -/
theorem execTbSrcSetWrite_locks {m : Master} {v : W32} {s : State} (hs : s.reaches m .tb = true) (hlen : s.tb.okAt.length = 3)
    (hmode : s.tbMode = 1) (hsrc : s.get R.TB_STATE_SRC = 1) (hq : nth s.tb.qualified 0 false = true)
    (hen : s.srcEnabled 0 = true) (hptp : natBit v.toNat 0 = true) (hlock : natBit v.toNat 2 = true) (hmark : s.ret.marker = none) :
    ∃ t, execTbSrcSetWrite m v s = .next t ∧ t.tbMode = 2 := by
  refine ⟨_, execTbSrcSetWrite_applied hs (by simp [hmode]), ?_⟩
  obtain ⟨on0, -, on2⟩ := s.srcSetStored_on v
  have field {f : Fld} (h1 : R.TB_SRC_SET_PTP_OK.a ≠ f.a) (h2 : R.TB_STATE_OK.a ≠ f.a ∨ f.lo + f.w ≤ 8) :
      (s.srcSetStored v).srcSetTaken.get f = s.get f := by
    rw [State.srcSetTaken, State.setOk_get _ _ _ h2 (by decide), State.setOk_get _ _ _ h2 (by decide)]
    exact s.get_setWord_ne _ _ _ h1
  have src : (s.srcSetStored v).srcSetTaken.get R.TB_STATE_SRC = 1 := (field (by decide) (.inr (by decide))).trans hsrc
  have enabled : (s.srcSetStored v).srcSetTaken.srcEnabled 0 = true := by
    rw [← hen, State.srcEnabled, State.srcSetTaken, State.setOk_word _ _ _ (by decide), State.setOk_word _ _ _ (by decide),
      State.srcSetStored, State.word_setWord_ne _ _ (by decide)]
    rfl
  have ok : (nth (s.srcSetStored v).srcSetTaken.tb.okAt 0 none).isSome = true := by
    rw [State.srcSetTaken, State.setOk_other _ (by decide), on0, hptp]
    exact State.setOk_isSome true (by change 0 < s.tb.okAt.length; omega)
  have stays : (s.srcSetStored v).srcSetTaken.staysQualified 0 = true := by
    have hq' : nth (s.srcSetStored v).srcSetTaken.tb.qualified 0 false = true := hq
    simp [State.staysQualified, hq', src, enabled, ok]
  rw [State.tbEval_ptpActive src stays]
  obtain ⟨q, he, -⟩ := (s.srcSetStored v).srcSetTaken.judged_sets
  refine State.lockTaken_locks ?_ ?_ ?_
  · have locked : (s.srcSetStored v).srcSetTaken.on R.TB_SRC_SET_LOCKED = (s.srcSetStored v).on R.TB_SRC_SET_LOCKED := by
      refine State.on_congr ?_
      rw [State.srcSetTaken, State.setOk_get _ _ _ (.inl (by decide)) (by decide), State.setOk_get _ _ _ (.inl (by decide)) (by decide)]
    exact (State.on_congr (he.get (tbWord_not_evt (by decide) (by decide)))).trans (locked.trans (on2.trans hlock))
  · exact (he.get (tbWord_not_evt (by decide) (by decide))).trans ((field (f := R.TB_STATE_MODE) (by decide) (.inr (by decide))).trans hmode)
  · obtain ⟨⟨_, _, _, e⟩, -⟩ := he
    rw [e]
    exact hmark

/-- Settles O25: the sources are judged by `State.tbEval`, whose effect `tbEval_sets` says once; HOLDOVER is `State.enterHoldover`. -/
theorem timeSourceCommandsComplete : Obligations.TimeSourceCommandsComplete := by
  unfold Obligations.TimeSourceCommandsComplete
  refine ⟨?qualified, ?srcSet, ?lock, ?rate, ?rateHeld, ?servo, ?pps, ?missing, ?lost, ?back⟩
  case qualified =>
    intro src t0 s hok h0 hen href
    refine answers_of (execSourceQualified_ok hok h0 hen) ?_
    rw [State.tbEval_qualified _ src.isLt, State.advanceTo_meetsQual hok hen href, Bool.or_true]
  case srcSet =>
    intro m v s hs hlen hv
    obtain ⟨on0, on1, on2⟩ := s.srcSetStored_on v
    refine answers_of (execTbSrcSetWrite_applied hs (by simp [hv])) ?_
    have unlocked : (s.srcSetStored v).srcSetTaken.on R.TB_SRC_SET_LOCKED = false := by
      rw [← hv, ← on2]
      refine State.on_congr ?_
      rw [State.srcSetTaken, State.setOk_get _ _ _ (.inl (by decide)) (by decide), State.setOk_get _ _ _ (.inl (by decide)) (by decide)]
    rw [State.lockTaken_unlocked (State.tbEval_unlocked unlocked), State.tbEval_okAt, State.srcSetTaken, on0, on1]
    refine ⟨?_, State.setOk_isSome _ ?_⟩
    · rw [State.setOk_other _ (by decide)]
      exact State.setOk_isSome _ (by change 0 < s.tb.okAt.length; omega)
    · rw [State.setOk_length]
      change 2 < s.tb.okAt.length
      omega
  case lock =>
    intro m v t0 s hs hlen hmode hsrc _ hq hen hptp hlock hmark
    obtain ⟨t, hexec, ht⟩ := execTbSrcSetWrite_locks hs hlen hmode hsrc hq hen hptp hlock hmark
    exact answers_of hexec ht
  case rate =>
    intro m v s hs hmode
    exact answers_of (execTbRateWrite_applied hs hmode) rfl
  case rateHeld =>
    intro m v s hs hmode
    exact answers_of (execTbRateWrite_refused hs hmode) ⟨s.refuse_word .tb _ (.inr (by decide)), s.refuse_err .tb _⟩
  case servo =>
    intro s hmode
    have hne : (s.evt .tb E.TB_SERVO_TMO).tbMode ≠ 3 := by
      rw [State.tbMode, State.evt_get _ _ _ _ (by decide) (tbWord_not_evt (by decide) (by decide)), ← State.tbMode]
      omega
    have hexec : execServoTimeout s = .next (s.evt .tb E.TB_SERVO_TMO).enterHoldover := by rw [execServoTimeout, if_pos hmode]
    refine answers_of hexec ⟨State.enterHoldover_mode _, State.enterHoldover_src _, ?_⟩
    rw [State.enterHoldover_since hne, State.evt_tb]
  case pps =>
    intro e s h0 hroom
    obtain ⟨u, hexec, hfifo, herr⟩ := execPpsInput_room (e := e) h0 hroom
    refine answers_of hexec ⟨?_, ?_⟩
    · rw [State.tbEval_ppsFifo, ← hfifo]
      rfl
    · rw [State.tbEval_get _ apartFromSource_tenmErr, ← herr]
      exact u.setOk_get 1 _ (.inl (by decide)) (by decide)
  case missing =>
    intro tenm s h0 hlen h10
    obtain ⟨u, hexec, hlost⟩ := execGnssPpsMissing_lost h0 hlen h10
    exact answers_of hexec (by rw [State.tbEval_okAt]; exact hlost)
  case lost =>
    intro s h0 href
    refine answers_of (execRefLost_stops h0 href) ⟨s.refLostNoted.enterHoldover, ?_, State.enterHoldover_mode _, rfl⟩
    rw [State.on_congr ((State.enterHoldover_onlySource _).fields _ apartFromSource_refLost), State.refLostNoted_on]
  case back =>
    intro s h0 href
    refine answers_of (execRefBack_starts h0 href) ⟨s.refBackNoted.tbEval, ?_, rfl⟩
    rw [State.on_congr (State.tbEval_get _ apartFromSource_refLost), State.refBackNoted_off]

end Sys2Proof.Machine
end

section
/-! Setting the time (R66, R129 to R131). -/

namespace Sys2Proof.Machine

/-! ## The end of a slew (R66, R130) -/

theorem State.endSlew_ends {s : State} {w : Slew} (c : Code) (h : s.tb.slew = some w) :
    (s.endSlew c).tb.slew = none ∧ (s.endSlew c).ended .tb c := by
  refine ⟨by rw [State.endSlew_tb], ?_⟩
  rw [State.endSlew_some c h]
  exact State.ended_done _ _ _

theorem execSlewComplete_some {s : State} {w : Slew} (h : s.tb.slew = some w) :
    ∃ u : State, execSlewComplete s = .next (u.endSlew w.code) ∧ u.tb.slew = some { w with left := 0 } := by
  simp only [execSlewComplete, h]
  exact ⟨_, rfl, rfl⟩

/-- ABORT cuts what the slew has still to remove, and ends it where nothing is left. -/
theorem State.abortSlew_cuts {s : State} {w : Slew} (h : s.tb.slew = some w) :
    s.abortSlew = if w.cut.left = 0 then ({ s with tb := { s.tb with slew := some w.cut } } : State).endSlew w.cut.code
      else { s with tb := { s.tb with slew := some w.cut } } := by
  rw [State.abortSlew, h]

theorem execAbort_slew {m : Master} {tag : BitVec 8} {r : RunCmd} {s : State} (hs : s.reaches m .tb = true) (hb : s.busy .tb = true)
    (hrun : (s.blk .tb).run = some r) (hop : r.op = opSlew) : execAbort m .tb tag s = .next s.abortSlew := by
  have own : ¬ r.op = opCommit := by rw [hop]; decide
  simp [execAbort, hs, hb, State.endRunning, hrun, own]

/-! ## A correction noted in the logbook (R524) -/

/-- From `s` to `t` nothing changes but Proofer's state, messages, and registers from Rack's page on: a register of Proofer and events. -/
def State.onlyLog (s t : State) : Prop :=
  (∃ proof regs rack msix, t = { s with proof := proof, regs := regs, rack := rack, msixSent := msix })
  ∧ ∀ a, a < Block.rack.base → t.word a = s.word a

theorem State.onlyLog.refl (s : State) : s.onlyLog s := ⟨⟨_, _, _, _, rfl⟩, fun _ _ => rfl⟩

theorem State.onlyLog.tb {s t : State} (h : s.onlyLog t) : t.tb = s.tb := by
  obtain ⟨⟨_, _, _, _, rfl⟩, -⟩ := h
  rfl

theorem State.onlyLog.blk {s t : State} (h : s.onlyLog t) (b : Block) : t.blk b = s.blk b := by
  obtain ⟨⟨_, _, _, _, rfl⟩, -⟩ := h
  rfl

theorem State.setProof_onlyLog (s : State) (f : ProofSt → ProofSt) : s.onlyLog (s.setProof f) := ⟨⟨_, _, _, _, rfl⟩, fun _ _ => rfl⟩

theorem State.writeEntry_onlyLog (s : State) (cls : Nat) (time detail : List Nat) (counts : Bool) :
    s.onlyLog (s.writeEntry cls time detail counts) := by
  unfold State.writeEntry
  split
  · exact s.setProof_onlyLog _
  dsimp only
  split
  · refine ⟨?_, fun a ha => ?_⟩
    · obtain ⟨_, _, _, e⟩ := State.evt_onlyNotices ((s.setProof _).put R.PROOF_STATE_LOG_FULL 1) .proof E.PROOF_LOG_FULL
      exact ⟨_, _, _, _, e⟩
    · have above : R.PROOF_STATE_LOG_FULL.a ≠ a := by simp only [R.PROOF_STATE_LOG_FULL, Block.base] at *; omega
      rw [State.evt_word _ _ _ _ (by decide) (not_evtTouches (by simp only [Block.base] at *; omega) ha), State.word_put_ne _ _ _ _ above]
      rfl
  · exact s.setProof_onlyLog _

theorem State.logCorrection_onlyLog (s : State) (kind : Nat) (offset : Int) : s.onlyLog (s.logCorrection kind offset) := by
  unfold State.logCorrection State.logNow State.logEntry
  split
  · dsimp only
    split
    · exact .refl s
    split
    · exact s.setProof_onlyLog _
    · exact s.writeEntry_onlyLog _ _ _ _
  · exact .refl s

/-! ## The step (R129, R131, R295) -/

/-- The time at a new count, and what is remembered of the old one moved with it (log entry 49). -/
def State.stepMoved (s : State) (new : Lin) : State :=
  let s := (s.shiftInstants (new - s.tb.L)).passBfifo 29 1 fun _ => new.toNat
  { s with tb := { s.tb with L := new, stepgen := s.tb.stepgen + 1 } }

/-- How a step of some ns is noted: registers, event and logbook. -/
def State.stepNoted (s : State) (kind : Nat) (ns : Int) : State :=
  (((s.put64 R.TB_LAST_STEP_LO_NS R.TB_LAST_STEP_HI_NS (ofSigned 64 ns)).bump R.TB_STEP_CNT_COUNT 1).evt .tb E.TB_STEP).logCorrection kind ns

/-- A step moves the count, is noted, and the channels and Peel follow it. -/
theorem State.stepTo_eq (s : State) (new : Lin) (kind : Nat) :
    s.stepTo new kind
      = ((List.range 16).foldl (fun t n => t.trigStepped s.tb.L n)
          ((s.stepMoved new).stepNoted kind (((new.toNat / 2 ^ 40 : Nat) : Int) - ((s.tb.L.toNat / 2 ^ 40 : Nat) : Int)))).peelStepped
          (ticksOf s.tb.L) := rfl

theorem State.stepNoted_tb (s : State) (kind : Nat) (ns : Int) : (s.stepNoted kind ns).tb = s.tb := by
  unfold State.stepNoted
  rw [(State.logCorrection_onlyLog _ _ _).tb, State.evt_tb]
  rfl

/-- It writes registers of the time base's page, of Rack and of the blocks above Rack. -/
theorem State.stepNoted_get (s : State) (kind : Nat) (ns : Int) {f : Fld} (hf : f.a < Block.tb.base ∨ Block.tb.base + 0x1000 ≤ f.a)
    (hlow : f.a < Block.rack.base) : (s.stepNoted kind ns).get f = s.get f := by
  have away (g : Fld) (h1 : Block.tb.base ≤ g.a) (h2 : g.a < Block.tb.base + 0x1000) : g.a ≠ f.a := by omega
  unfold State.stepNoted
  rw [State.get_congr ((State.logCorrection_onlyLog _ _ _).2 _ hlow), State.evt_get _ _ _ _ (by decide) (not_evtTouches (by omega) hlow),
    State.bump, State.get_put_ne _ _ _ _ (away _ (by decide) (by decide)), State.put64,
    State.get_put_ne _ _ _ _ (away _ (by decide) (by decide)), State.get_put_ne _ _ _ _ (away _ (by decide) (by decide))]

theorem State.foldl_trigStepped_off (old : Lin) (l : List Nat) {s : State} (h : ∀ n ∈ l, s.on (R.TRIG_CTL_ARM n) = false) :
    l.foldl (fun s n => s.trigStepped old n) s = s := by
  induction l with
  | nil => rfl
  | cons n r ih =>
    have off : s.trigStepped old n = s := by simp [State.trigStepped, h n List.mem_cons_self]
    rw [List.foldl_cons, off]
    exact ih fun k hk => h k (List.mem_cons_of_mem _ hk)

/-- With no channel armed and Peel off, nothing follows the time. -/
theorem State.stepTo_quiet {s : State} (new : Lin) (kind : Nat) (h4 : s.pdOn 4 = false)
    (harm : ∀ n, n < 16 → s.on (R.TRIG_CTL_ARM n) = false) :
    (s.stepTo new kind).tb.stepgen = s.tb.stepgen + 1 ∧ (s.stepTo new kind).tb.L = new := by
  have field {f : Fld} (hf : f.a < Block.tb.base ∨ Block.tb.base + 0x1000 ≤ f.a) (hlow : f.a < Block.rack.base) (ns : Int) :
      ((s.stepMoved new).stepNoted kind ns).get f = s.get f :=
    ((s.stepMoved new).stepNoted_get kind ns hf hlow).trans (State.get_congr (State.word_congr rfl))
  have off (ns : Int) : ∀ n ∈ List.range 16, ((s.stepMoved new).stepNoted kind ns).on (R.TRIG_CTL_ARM n) = false := by
    intro n hn
    have hn' := List.mem_range.mp hn
    have addr : 0x11000 ≤ (R.TRIG_CTL_ARM n).a ∧ (R.TRIG_CTL_ARM n).a < 0x80000 := by simp only [R.TRIG_CTL_ARM]; omega
    exact (State.on_congr (field (.inr addr.1) addr.2 ns)).trans (harm n hn')
  have peelOff (ns : Int) : ((s.stepMoved new).stepNoted kind ns).pdOn 4 = false := by
    rw [State.pdOn, field (.inl (by decide)) (by decide)]
    exact h4
  rw [State.stepTo_eq, State.foldl_trigStepped_off _ _ (off _), State.peelStepped, peelOff]
  simp only [Bool.not_false, if_true, State.stepNoted_tb]
  exact ⟨rfl, rfl⟩

/-! ## The commands, as the page has accepted them -/

section
variable (s : State) (tag : BitVec 8)

/-- Acceptance by the time base writes its `_STATUS` alone. -/
theorem State.acceptTb_get {f : Fld} (h : f.a ≠ Block.tb.base + 0xC) : (s.acceptCmd .tb tag).get f = s.get f := s.acceptCmd_getNe .tb tag f h

theorem State.acceptTb_tbMode : (s.acceptCmd .tb tag).tbMode = s.tbMode := s.acceptTb_get tag (by decide)

theorem State.acceptTb_arm (n : Nat) : (s.acceptCmd .tb tag).on (R.TRIG_CTL_ARM n) = s.on (R.TRIG_CTL_ARM n) :=
  State.on_congr (s.acceptTb_get tag (by simp only [R.TRIG_CTL_ARM, Block.base]; omega))

theorem State.acceptTb_pdOn (d : Nat) : (s.acceptCmd .tb tag).pdOn d = s.pdOn d := by
  rw [State.pdOn, State.pdOn, s.acceptTb_get tag (by decide)]

end

/-- A step by an accepted command ends with OK. -/
theorem State.stepTo_done {s : State} (tag : BitVec 8) (new : Lin) (kind : Nat) :
    (((s.acceptCmd .tb tag).stepTo new kind).done .tb .ok).ended .tb .ok
      ∧ (s.pdOn 4 = false → (∀ n, n < 16 → s.on (R.TRIG_CTL_ARM n) = false) →
          (((s.acceptCmd .tb tag).stepTo new kind).done .tb .ok).tb.stepgen = s.tb.stepgen + 1
            ∧ (((s.acceptCmd .tb tag).stepTo new kind).done .tb .ok).tb.L = new) := by
  refine ⟨State.ended_done _ _ _, fun h4 harm => ?_⟩
  rw [State.done_tb]
  exact State.stepTo_quiet new kind ((s.acceptTb_pdOn tag 4).trans h4) fun n hn => (s.acceptTb_arm tag n).trans (harm n hn)

/-- The state in which a slew goes on. -/
def State.withSlew (s : State) (w : Slew) : State := { s with tb := { s.tb with slew := some w } }

/-- A command that started runs on, when the correction has been noted and a slew goes on. -/
theorem State.withSlew_runs {s t : State} {r : RunCmd} (h : (s.startRun .tb r).onlyLog t) (hb : s.busy .tb = true) (w : Slew) :
    (t.withSlew w).busy .tb = true ∧ (t.withSlew w).runOp .tb = some r.op ∧ (t.withSlew w).tb.slew = some w := by
  have busy : t.busy .tb = s.busy .tb := State.on_congr (State.get_congr (h.2 _ (by decide)))
  have run : (t.blk .tb).run = some r := by rw [h.blk, State.startRun, State.blk_setBlk_same]
  exact ⟨busy.trans hb, congrArg (fun k : Option RunCmd => k.map RunCmd.op) run, rfl⟩

/-- A slew that has removed nothing yet. -/
def Slew.start (off : Int) (ppm : Nat) : Slew :=
  { neg := decide (off < 0), ppm := ppm, total := off.natAbs * 2 ^ 40, left := off.natAbs * 2 ^ 40, carry := 0 }

/-- The state in which the page has accepted SLEW and noted its correction. -/
def State.slewAccepted (s : State) (m : Master) (tag : BitVec 8) (off : Int) : State :=
  ((s.acceptCmd .tb tag).startRun .tb ((s.acceptCmd .tb tag).mkRun .tb opSlew m tag false)).logCorrection 2 off

/-- SLEW, taken: the correction is noted, and the offset is all left to remove. -/
theorem execSlew_takes {m : Master} {tag : BitVec 8} {s : State} (ht : s.takes m .tb) (hmode : s.tbMode ≠ 3)
    (hrange : ¬ (toSigned 32 (s.arg .tb 0).toNat = 0 ∨ s.argBits .tb 1 0 9 = 0 ∨ 500 < s.argBits .tb 1 0 9)) :
    execSlew m tag s = .next ((s.slewAccepted m tag (toSigned 32 (s.arg .tb 0).toNat)).withSlew
      (.start (toSigned 32 (s.arg .tb 0).toNat) (s.argBits .tb 1 0 9))) := by
  obtain ⟨hs, hb, hf⟩ := ht
  rw [execSlew, State.onCommand_takes _ _ _ _ _ hs hb hf]
  simp only [State.acceptCmd_arg, State.acceptCmd_argBits, State.acceptTb_tbMode, if_neg hrange, if_neg hmode]
  rfl

/-- Settles O26.  That SET_TIME's count is taken modulo 2^64 ns (log entry 53) and that ABORT cuts at the next whole microsecond (log entry
74) is the model's choice. -/
theorem timeSettingCommandsComplete : Obligations.TimeSettingCommandsComplete := by
  unfold Obligations.TimeSettingCommandsComplete
  refine ⟨?setTime, ?step, ?slew, ?complete, ?abort⟩
  case setTime =>
    intro m tag s ht hns hmode
    have range : ¬ 10 ^ 9 ≤ (s.arg .tb 2).toNat := by omega
    refine answers_command ht rfl ?_
    simp only [State.acceptCmd_arg, State.acceptCmd_argBits, State.acceptTb_tbMode, if_neg range, if_neg hmode]
    exact State.stepTo_done tag _ 1
  case step =>
    intro m tag off s ht hmode hoff heq
    subst heq
    refine answers_command ht rfl ?_
    simp only [State.acceptCmd_arg, State.acceptTb_tbMode, if_neg hoff, if_neg hmode]
    exact State.stepTo_done tag _ 0
  case slew =>
    intro m tag off s ht hmode heq hoff hlow hhigh
    subst heq
    have range : ¬ (toSigned 32 (s.arg .tb 0).toNat = 0 ∨ s.argBits .tb 1 0 9 = 0 ∨ 500 < s.argBits .tb 1 0 9) := by omega
    exact answers_of (execSlew_takes ht hmode range)
      (State.withSlew_runs (State.logCorrection_onlyLog _ _ _) (s.acceptCmd_busy .tb tag) _)
  case complete =>
    intro w s hslew
    obtain ⟨u, hexec, hu⟩ := execSlewComplete_some hslew
    exact answers_of hexec (State.endSlew_ends _ hu)
  case abort =>
    intro m tag w r s hs hb hrun hop hslew
    refine answers_of (execAbort_slew hs hb hrun hop) ?_
    rw [State.abortSlew_cuts hslew]
    split
    · exact State.endSlew_ends _ rfl
    · exact ⟨rfl, hb⟩

end Sys2Proof.Machine
end

section
/-! Peel's queue: posts and their acceptance, completion records, control cores and their time limit (R280 to R284, R305, R312, R313). -/

namespace Sys2Proof.Machine

/-! ## What the parts of a post leave alone (R312, R322, R431, R432) -/

/-- A master's own copy of a register is no register that an event touches. -/
theorem ownCopy_not_evtTouches (m : Master) (f : Fld) (b : Block) : ¬ evtTouches b (ownCopy m f).a := by
  have past : masterStride ≤ (ownCopy m f).a := by simp only [ownCopy, Nat.mul_add, Nat.mul_one]; omega
  have page := b.pages_end_le
  simp only [evtTouches, masterStride, R.RACK_TRACE_LOST_COUNT, Block.base] at *
  omega

theorem State.setItem_onlyPeel (s : State) (id : Nat) (f : Item → Item) : ∃ p, s.setItem id f = { s with peel := p } := by
  unfold State.setItem
  split
  · exact ⟨_, rfl⟩
  · exact ⟨_, rfl⟩

theorem State.retag_onlyRack (s : State) (c owner : Nat) (inFlight : Bool) : ∃ r, s.retag c owner inFlight = { s with rack := r } := by
  unfold State.retag
  split
  · exact ⟨_, rfl⟩
  · split
    · exact ⟨_, rfl⟩
    · exact ⟨_, rfl⟩

/-- Cells change hands in Rack alone. -/
theorem State.handCells_onlyRack (cs : List Nat) (owner : Nat) (s : State) : ∃ r, s.handCells cs owner = { s with rack := r } := by
  induction cs generalizing s with
  | nil => exact ⟨_, rfl⟩
  | cons c cs ih =>
    obtain ⟨r₁, e₁⟩ := s.retag_onlyRack c owner true
    obtain ⟨r₂, e₂⟩ := (s.retag c owner true).retag_onlyRack c owner false
    obtain ⟨r₃, e₃⟩ := ih ((s.retag c owner true).retag c owner false)
    exact ⟨r₃, by rw [State.handCells, List.foldl_cons, ← State.handCells, e₃, e₂, e₁]⟩

/-- The cells a master names are found, and a parked frame leaves HOST, without Peel. -/
theorem State.postCells_peel {s u : State} {p cell : Nat} {cs : List Nat} (h : s.postCells p cell = some (u, cs)) :
    u.peel = s.peel ∧ u.blk .peel = s.blk .peel := by
  unfold State.postCells at h
  split at h
  · split at h
    · cases h
    · cases h
      exact ⟨rfl, State.blk_setBlk _ .host .peel _⟩
  · split at h <;> cases h <;> exact ⟨rfl, rfl⟩

section
variable (s : State) (m : Master) (c : Code) (id : Nat)

/-- A result code reads as it was stored. -/
theorem State.get_put_code {f : Fld} (hf : f.ok) (hw : f.w = 8) : (s.put f c.num).get f = c.num := by
  rw [s.get_put_same f _ hf, hw]
  exact Nat.mod_eq_of_lt c.num_lt

/-- A post shows its outcome and changes nothing else. -/
theorem State.postRes_code : (s.postRes m c id).get (ownCopy m R.PEEL_POST_RES_CODE) = c.num := by
  have hcode : (ownCopy m R.PEEL_POST_RES_CODE).ok := (by decide : 0 + 8 ≤ 32)
  have hid : (ownCopy m R.PEEL_POST_RES_ID).ok := (by decide : 8 + 19 ≤ 32)
  rw [State.postRes, State.get_put_apart _ _ _ _ hid (.inr (.inr (by decide : 0 + 8 ≤ 8))), State.get_put_code s c hcode rfl]

@[simp] theorem State.postRes_peel : (s.postRes m c id).peel = s.peel := rfl

@[simp] theorem State.postRes_blk (b : Block) : (s.postRes m c id).blk b = s.blk b := rfl

end

/-- Acceptance: the item stands in its delay list under the lowest free number (log entry 7), and the ledger counts it. -/
theorem State.acceptItem_enters (s : State) (p : Nat) (words : List W32) (cells : List Nat) (octets : Nat) :
    ((s.acceptItem p words cells octets).1.blk .peel).led = (s.blk .peel).led.enter 1
    ∧ ∃ x, (s.acceptItem p words cells octets).1.item (mapFirstFree s.peel.items) = some x
      ∧ x.st = .delay ∧ x.seq = s.peel.seq ∧ x.cells = cells ∧ x.octets = octets := by
  simp only [State.acceptItem, State.item, State.evtIf_peel]
  refine ⟨?_, _, mapGet_mapSet_same _ _ _, rfl, rfl, rfl, rfl⟩
  rw [State.blk, State.evtIf_blocks]
  exact State.ledIn_led _ .peel 1

/-! ## The outcomes of a post (R306, R311, R312) -/

/-- The item that a master has written into its PEEL_POST words. -/
def State.posted (s : State) (m : Master) : Item :=
  { words := (List.range 16).map fun i => s.word (ownCopy m (R.PEEL_POST_W_WORD i)).a, due := 0, seq := 0, st := .delay }

section
variable {m : Master} {s : State}

theorem execPeelPost_fenced (hs : s.reaches m .peel = true) (hf : s.fenced .peel = true) :
    execPeelPost m s = .next (s.postRes m .fenced 0) := by
  obtain ⟨hm, hp⟩ := (Bool.and_eq_true _ _).mp hs
  simp [execPeelPost, hm, hp, hf]

theorem execPeelPost_noFrame (hs : s.reaches m .peel = true) (hf : s.fenced .peel = false) (hok : postOk m.idx (s.posted m) = true)
    (hcredit : s.peelCredit m.idx ≠ 0) (htype : (s.posted m).type ≠ 0) :
    execPeelPost m s
      = .next ((s.acceptItem m.idx (s.posted m).words [] 0).1.postRes m .ok (s.acceptItem m.idx (s.posted m).words [] 0).2) := by
  obtain ⟨hm, hp⟩ := (Bool.and_eq_true _ _).mp hs
  rw [State.posted] at hok htype
  simp [execPeelPost, hm, hp, hf, hok, hcredit, htype, State.posted]

theorem execPeelPost_frame {u : State} {cs : List Nat} (hs : s.reaches m .peel = true) (hf : s.fenced .peel = false)
    (hok : postOk m.idx (s.posted m) = true) (hcredit : s.peelCredit m.idx ≠ 0) (htype : (s.posted m).type = 0)
    (hcells : s.postCells m.idx (s.posted m).jobCell = some (u, cs)) :
    execPeelPost m s = .next (((u.handCells cs 28).acceptItem m.idx (s.posted m).words cs (s.posted m).jobLen).1.postRes m .ok
      ((u.handCells cs 28).acceptItem m.idx (s.posted m).words cs (s.posted m).jobLen).2) := by
  obtain ⟨hm, hp⟩ := (Bool.and_eq_true _ _).mp hs
  rw [State.posted] at hok htype hcells
  simp [execPeelPost, hm, hp, hf, hok, hcredit, htype, hcells, State.posted]

end

/-! ## Words shown to a master (R313, R322) -/

/-- Words are stored at the places that `a` gives. -/
theorem State.foldl_setWord_onlyRegs (a : Nat → Nat) (v : Nat → W32) (l : List Nat) (s : State) :
    ∃ r, l.foldl (fun s i => s.setWord (a i) (v i)) s = { s with regs := r } := by
  induction l generalizing s with
  | nil => exact ⟨_, rfl⟩
  | cons i l ih => exact ih (s.setWord (a i) (v i))

/-- Each of them reads as it was stored, where the places differ. -/
theorem State.foldl_setWord_word {a : Nat → Nat} (ha : ∀ i j, a i = a j → i = j) (v : Nat → W32) (l : List Nat) (s : State) (j : Nat) :
    (l.foldl (fun s i => s.setWord (a i) (v i)) s).word (a j) = if j ∈ l then v j else s.word (a j) := by
  induction l generalizing s with
  | nil => simp
  | cons i l ih =>
    rw [List.foldl_cons, ih]
    by_cases hj : j ∈ l
    · simp [hj]
    · by_cases hij : i = j
      · simp [hij]
      · simp [hj, Ne.symm hij, State.word_setWord_ne s (v i) (mt (ha i j) hij)]

/-- The state in which the words of an item stand in a master's CORE_R. -/
def State.coreShown (s : State) (m : Master) (it : Item) : State :=
  (List.range 16).foldl (fun s i => s.setWord (ownCopy m (R.PEEL_CORE_R_WORD i)).a (nth it.words i 0)) s

theorem State.coreShown_word (s : State) (m : Master) (it : Item) {i : Nat} (hi : i < 16) :
    (s.coreShown m it).word (ownCopy m (R.PEEL_CORE_R_WORD i)).a = nth it.words i 0 := by
  have apart (i j : Nat) (h : (ownCopy m (R.PEEL_CORE_R_WORD i)).a = (ownCopy m (R.PEEL_CORE_R_WORD j)).a) : i = j := by
    simp only [ownCopy, R.PEEL_CORE_R_WORD] at h
    omega
  rw [State.coreShown, State.foldl_setWord_word apart (fun i => nth it.words i 0), if_pos (List.mem_range.mpr hi)]

section
variable {m : Master} {s : State}

/-- A record popped frees its item, and the words of the pop stand in the master's own registers. -/
theorem execPeelDonePop_cons {r : DoneRec} {rest : List DoneRec} (hs : s.reaches m .peel = true)
    (hdone : mapGetD s.peel.done m.idx [] = r :: rest) :
    ∃ regs, execPeelDonePop m s = .next { s with
      regs := regs, busData := BitVec.ofNat 32 (r.id + r.result * 2 ^ 19 + r.type * 2 ^ 27 + 2 ^ 31)
      peel := { s.peel with done := mapSet s.peel.done m.idx rest, items := mapErase s.peel.items r.id } } := by
  simp only [execPeelDonePop, hs, hdone]
  obtain ⟨regs, e⟩ := State.foldl_setWord_onlyRegs (fun i => (ownCopy m (R.PEEL_DONE_COOKIE_WORD i)).a) (fun i => nth r.cookie i 0)
    (List.range 4) (((({ s with peel := { s.peel with done := mapSet s.peel.done m.idx rest, items := mapErase s.peel.items r.id } } : State).put
      (ownCopy m R.PEEL_DONE_W1_TAG) r.tag).put (ownCopy m R.PEEL_DONE_STAMP_LO_STAMP) (r.stamp.toNat % 2 ^ 32)).put
        (ownCopy m R.PEEL_DONE_STAMP_HI_STAMP) (r.stamp.toNat / 2 ^ 32))
  exact ⟨regs, by rw [e]; rfl⟩

theorem execPeelDonePop_nil (hs : s.reaches m .peel = true) (hdone : mapGetD s.peel.done m.idx [] = []) :
    execPeelDonePop m s = .next { s with busData := 0 } := by
  simp only [execPeelDonePop, hs, hdone]
  rfl

/-- An item taken: its words stand in CORE_R. -/
theorem execPeelCorePop_takes {u : State} {k id : Nat} {it : Item} (hs : s.reaches m .peel = true) (hk : coreTarget m = some k)
    (htake : s.takeReady k = some (u, id, it)) :
    ∃ t, execPeelCorePop m s = .next t ∧ t.busData = BitVec.ofNat 32 (id + 2 ^ 31) ∧ t.regs = (u.coreShown m it).regs := by
  simp only [execPeelCorePop, hs, hk, htake, ← State.coreShown.eq_def]
  obtain ⟨p, e⟩ := (u.coreShown m it).setItem_onlyPeel id fun x => { x with core := m.idx - 2 }
  exact ⟨_, rfl, rfl, by rw [e]⟩

end

/-! ## PEEL_FINISH (R305, R322) -/

/-- PEEL_FINISH as the register map gives it. -/
def peelFinishSpec : RegSpec := ⟨"PEEL_FINISH", 0x11D0, 1, 4, true,
  [⟨"ID", 0, 19, .wo, false, .no, .any⟩, ⟨"RESULT", 19, 8, .wo, false, .no, .rng 0 13⟩]⟩

theorem regAt_peelFinish : regAt .peel 0x11D0 = some (peelFinishSpec, 0) := by decide

theorem State.crossOk_peelFinish (s : State) (b : Block) (k : Nat) (v : W32) : s.crossOk b "PEEL_FINISH" k v = true := rfl

/-- A write of PEEL_FINISH stands in the master's own copy. -/
theorem State.busWrite_peelFinish {m : Master} {v : W32} {s : State} (hs : s.reaches m .peel = true) (hv : bitsGet 19 8 v ≤ 13) :
    ∃ x old, s.busWrite m R.PEEL_FINISH_ID.a true v
      = (s.setWord (ownCopy m R.PEEL_FINISH_ID).a x, .applied .peel peelFinishSpec 0x11D0 0 old) := by
  obtain ⟨hm, hp⟩ := (Bool.and_eq_true _ _).mp hs
  have hok : peelFinishSpec.rangesOk v = true := by simp [peelFinishSpec, RegSpec.rangesOk, Rng.ok, hv]
  have hwo : (peelFinishSpec.fields.all fun f => f.acc == .ro || (true && f.acc == .pop)) = false := rfl
  have hstaged : peelFinishSpec.staged = false := rfl
  have hat : blockAt R.PEEL_FINISH_ID.a = some (.peel, 0x11D0) := blockAt_base_add .peel (by decide)
  have hx : s.crossOk .peel peelFinishSpec.name (elementOf .peel 0x11D0 0) v = true := s.crossOk_peelFinish .peel _ v
  refine ⟨peelFinishSpec.store (s.word (ownCopy m R.PEEL_FINISH_ID).a) v, s.word (ownCopy m R.PEEL_FINISH_ID).a, ?_⟩
  simp only [State.busWrite, hm, hat, hp, regAt_peelFinish, hwo, hok, hx, hstaged]
  rfl

section
variable {m : Master} {v : W32} {s : State}

/-- The core that holds the item ends it. -/
theorem execPeelFinish_held {k : Nat} {it : Item} (hs : s.reaches m .peel = true) (hv : bitsGet 19 8 v ≤ 13) (hk : coreTarget m = some k)
    (hitem : s.item (bitsGet 0 19 v) = some it) (hst : it.st = .taken) (htarget : it.target = k) :
    ∃ x, execPeelFinish m v s = .next (((s.setWord (ownCopy m R.PEEL_FINISH_ID).a x).put (ownCopy m R.PEEL_FINISH_RES_CODE) Code.ok.num).finishItem
      (bitsGet 0 19 v) (codeOfNum (bitsGet 19 8 v)) 0) := by
  obtain ⟨x, old, hwrite⟩ := State.busWrite_peelFinish hs hv
  have held : (s.setWord (ownCopy m R.PEEL_FINISH_ID).a x).item (bitsGet 0 19 v) = some it := hitem
  refine ⟨x, ?_⟩
  simp [execPeelFinish, hwrite, hk, held, hst, htarget]

theorem execPeelFinish_none (hs : s.reaches m .peel = true) (hv : bitsGet 19 8 v ≤ 13) (hitem : s.item (bitsGet 0 19 v) = none) :
    ∃ x, execPeelFinish m v s
      = .next ((s.setWord (ownCopy m R.PEEL_FINISH_ID).a x).put (ownCopy m R.PEEL_FINISH_RES_CODE) Code.notFound.num) := by
  obtain ⟨x, old, hwrite⟩ := State.busWrite_peelFinish hs hv
  have gone : (s.setWord (ownCopy m R.PEEL_FINISH_ID).a x).item (bitsGet 0 19 v) = none := hitem
  refine ⟨x, ?_⟩
  simp [execPeelFinish, hwrite, gone]

end

/-- The result of PEEL_FINISH reads as it was written. -/
theorem State.get_put_finishRes (s : State) (m : Master) (c : Code) :
    (s.put (ownCopy m R.PEEL_FINISH_RES_CODE) c.num).get (ownCopy m R.PEEL_FINISH_RES_CODE) = c.num :=
  s.get_put_code c (by decide : 0 + 8 ≤ 32) rfl

/-- A counter that saturates reads as it was advanced. -/
theorem State.get_bumpSat_same (s : State) {f : Fld} (n : Nat) (hf : f.ok) : (s.bumpSat f n).get f = min (s.get f + n) (2 ^ f.w - 1) := by
  have hpos : 0 < 2 ^ f.w := Nat.two_pow_pos f.w
  rw [State.bumpSat, s.get_put_same f _ hf, Nat.mod_eq_of_lt (by omega)]

/-- Settles O36.  That a new item stands under the lowest free number is the model's choice (log entry 7). -/
theorem peelQueueCommandsComplete : Obligations.PeelQueueCommandsComplete := by
  unfold Obligations.PeelQueueCommandsComplete
  refine ⟨?post, ?postFrame, ?postFenced, ?donePop, ?doneNone, ?corePop, ?finish, ?finishNone, ?timeout⟩
  case post =>
    rintro m _ s hs hf rfl hok hcredit htype
    obtain ⟨hled, x, hitem, hst, hseq, -⟩ := s.acceptItem_enters m.idx (s.posted m).words [] 0
    exact answers_of (execPeelPost_noFrame hs hf hok hcredit htype) ⟨State.postRes_code _ m .ok _, hled, x, hitem, hst, hseq⟩
  case postFrame =>
    rintro m _ cs u s hs hf rfl hok hcredit htype hcells
    obtain ⟨hpeel, hblk⟩ := State.postCells_peel hcells
    obtain ⟨r, hand⟩ := u.handCells_onlyRack cs 28
    obtain ⟨hled, x, hitem, hst, -, hcs, hlen⟩ :=
      (u.handCells cs 28).acceptItem_enters m.idx (s.posted m).words cs (s.posted m).jobLen
    have hfree : (u.handCells cs 28).peel = s.peel := by rw [hand]; exact hpeel
    have hpage : (u.handCells cs 28).blk .peel = s.blk .peel := by rw [hand]; exact hblk
    rw [hfree] at hitem
    rw [hpage] at hled
    exact answers_of (execPeelPost_frame hs hf hok hcredit htype hcells) ⟨State.postRes_code _ m .ok _, hled, x, hitem, hst, hcs, hlen⟩
  case postFenced =>
    intro m s hs hf
    exact answers_of (execPeelPost_fenced hs hf) ⟨State.postRes_code s m .fenced 0, rfl⟩
  case donePop =>
    intro m r rest s hs hdone
    obtain ⟨regs, hexec⟩ := execPeelDonePop_cons hs hdone
    refine answers_of hexec ⟨rfl, mapGetD_mapSet_same _ _ _ _, ?_⟩
    exact (mapGet_mapErase _ _ _).trans (if_pos rfl)
  case doneNone =>
    intro m s hs hdone
    exact answers_of (execPeelDonePop_nil hs hdone) ⟨rfl, rfl⟩
  case corePop =>
    intro m k id it s u hs hk htake
    obtain ⟨t, hexec, hbus, hregs⟩ := execPeelCorePop_takes hs hk htake
    exact answers_of hexec ⟨hbus, fun i hi => (State.word_congr hregs).trans (u.coreShown_word m it hi)⟩
  case finish =>
    intro m v k it s hs hv hk hitem hst htarget
    obtain ⟨x, hexec⟩ := execPeelFinish_held hs hv hk hitem hst htarget
    exact answers_of hexec ⟨_, rfl, State.get_put_finishRes _ m .ok⟩
  case finishNone =>
    intro m v s hs hv hitem
    obtain ⟨x, hexec⟩ := execPeelFinish_none hs hv hitem
    exact answers_of hexec ⟨State.get_put_finishRes _ m .notFound, rfl⟩
  case timeout =>
    intro id it s hitem hst hlow hhigh
    have hexec : execTaskTimeout id s = .next (((s.bumpSat R.PEEL_TMO_CNT_COUNT 1).evt .peel E.PEEL_TIMEOUT).finishItem id .timeout 0) := by
      simp [execTaskTimeout, hitem, hst, hlow, hhigh]
    refine answers_of hexec ⟨_, rfl, ?_⟩
    rw [State.evt_get _ _ _ _ (by decide) (not_evtTouches (.inr (by decide)) (by decide))]
    exact s.get_bumpSat_same 1 (by decide : 0 + 32 ≤ 32)

end Sys2Proof.Machine
end

section
/-! The grant of an item falling due (R280, R284, R303). -/

namespace Sys2Proof.Machine

/-- A radio job of control flow 0 that names target 15, due at tick 0.  R280 pairs no radio job with that target and no post accepts one, but
a state of the model can hold it. -/
def inlineRadioJob : Item := { words := [0xF0040000#32], due := 0, seq := 0, st := .delay }

/-- The state after reset with that job alone in Peel's store. -/
def inlineRadioJobDue : State := { State.reset with peel := { items := [(0, inlineRadioJob)] } }

/-- A radio job whose chain is OFF is not granted but ended (R303). -/
theorem State.grant_off {s : State} {id : Nat} {it : Item} (hitem : s.item id = some it) (htype : it.type = 0)
    (hoff : s.chainOff it.target = true) : s.grant id = s.offItem id := by
  rw [State.grant, hitem]
  exact if_pos ⟨htype, hoff⟩

/-- Nothing comes before the job, and its time has come: Peel grants it as the state stands. -/
theorem inlineRadioJobDue_now :
    (inlineRadioJobDue.advanceTo (linOfTick inlineRadioJob.due)).grantBefore inlineRadioJob = inlineRadioJobDue := by decide

/-- There is no chain 15: its STATE reads OFF, so the job completes with STATE. -/
theorem inlineRadioJobDue_grant : inlineRadioJobDue.grantOrWait 0 inlineRadioJob = inlineRadioJobDue.offItem 0 := by
  have room : inlineRadioJobDue.roomFor inlineRadioJob = true := rfl
  have hoff : inlineRadioJobDue.chainOff inlineRadioJob.target = true := by decide
  rw [State.grantOrWait, room, if_pos rfl, if_neg (by decide)]
  exact State.grant_off rfl rfl hoff

/-- What follows its completion leaves the job completed. -/
theorem inlineRadioJobDue_done :
    (((inlineRadioJobDue.offItem 0).afterGrant 0 inlineRadioJob).floodRun.item 0).map (·.st) = some .done := by decide

theorem inlineRadioJobDue_exec : execItemDue 10 inlineRadioJobDue
    = .next ((inlineRadioJobDue.offItem 0).afterGrant 0 inlineRadioJob).floodRun := by
  have hhead : inlineRadioJobDue.delayHead (10 : Fin 11).val = some (0, inlineRadioJob) := rfl
  have granted : ¬ (inlineRadioJob.st ≠ .delay ∨ (!inlineRadioJobDue.peelRuns) = true
    ∨ (inlineRadioJob.target ≠ 15 ∧ inlineRadioJobDue.pausedTarget inlineRadioJob.target = true)) := by decide
  have free : ((inlineRadioJobDue.flowHolder inlineRadioJob.flow).isSome || inlineRadioJobDue.overtakes inlineRadioJob) = false := rfl
  simp only [execItemDue, hhead, if_neg granted, inlineRadioJobDue_now, free, inlineRadioJobDue_grant]
  rfl

/-- Refutes O37: its first clause has every item of target 15 TAKEN as it falls due, a radio job too, but that job Peel ends with STATE (R303).
What the clause lacks is the premise that the item is no radio job, which R280 sees to for every item that a post accepts. -/
theorem not_peelGrantAndPageCommandsComplete : ¬ Obligations.PeelGrantAndPageCommandsComplete := by
  unfold Obligations.PeelGrantAndPageCommandsComplete
  rintro ⟨due, -⟩
  obtain ⟨hinline, -⟩ := due 10 0 inlineRadioJob inlineRadioJobDue inlineRadioJobDue rfl rfl (by decide) inlineRadioJobDue_now.symm rfl rfl rfl rfl
  obtain ⟨t, hexec, x, hitem, htaken⟩ := hinline rfl
  have ht : t = ((inlineRadioJobDue.offItem 0).afterGrant 0 inlineRadioJob).floodRun :=
    Host.Outcome.next.inj (hexec.symm.trans inlineRadioJobDue_exec)
  have hdone := inlineRadioJobDue_done
  rw [← ht, hitem, Option.map_some, htaken] at hdone
  cases hdone

end Sys2Proof.Machine
end
